-- ==== Sys2Proof/Word.lean ====
section
/-! DEFINITION. The word types of the frame: bytes, register words, FP32 bit patterns (R8, R119, R316). -/

namespace Sys2Proof

/-- A byte of memory. -/
abbrev Byte := BitVec 8

/-- A 32-bit register word (R136). -/
abbrev Word := BitVec 32

/-- The bit pattern of an IEEE 754 binary32 value (R316). -/
abbrev Fp := BitVec 32

/-- A byte string, lowest address first. -/
abbrev Bytes := List Byte

end Sys2Proof
end

