-- ==== Sys2Proof/Syntax.lean ====
section
/-! DEFINITION. The commands of the frame: one constructor per row of spec/opcode_table.json, with the
operands that outside agents or the environment supply. -/

namespace Sys2Proof

/-- What a memory controller answers to an access of a range: the status codes of R119. -/
inductive Resp where
  | okay
  /-- FAULT with the licensee's fault token (R133). -/
  | fault (token : Word)
  | poison
  | decerr
  deriving DecidableEq, Repr

/-- One answer rule of the licensee's memory controllers: accesses touching the range get `resp`, or, with none, no answer at all
(R132). -/
structure RespRule where
  lo : Nat
  len : Nat
  resp : Option Resp
  deriving DecidableEq, Repr

/-- What became visible of the licensee's memory before a command reads it: bytes that other agents
wrote (R140), and, when given, how the controllers answer from now on (log 3). -/
structure MemView where
  writes : List (Nat × Bytes)
  rules : Option (List RespRule)
  deriving DecidableEq, Repr

/-- The agent that makes a host access (R136). -/
inductive Origin where
  | function
  | frame
  | management
  | reserved
  deriving DecidableEq, Repr

/-- Origin signals of one host access: host_req_origin and host_req_fn (R136). -/
structure Acc where
  origin : Origin
  fn : BitVec 6
  deriving DecidableEq, Repr

/-- Where an uncorrectable codeword of control-bay state lies (R517, R518, R528). -/
inductive CtrlStore where
  | partition (fn : BitVec 6)
  | scheduler
  | poolManager
  | lockTables
  | queueManager
  | pacer
  deriving DecidableEq, Repr

/-- Where an uncorrectable codeword of management-bay storage lies (R511, R518). -/
inductive MgmtStore where
  | keySlots
  | other
  deriving DecidableEq, Repr

/-- A log ring: the frame log, or a function's log (R521). -/
inductive LogId where
  | frame
  | func (fn : BitVec 6)
  deriving DecidableEq, Repr

/-- A unit that copies counters at a snapshot (R544). -/
inductive SnapUnit where
  | control
  | management
  | port (n : BitVec 3)
  | bay (k : BitVec 6)
  | boundary (b : BitVec 2)
  deriving DecidableEq, Repr

/-- What one access of a march read, as 576 raw bits, where it is not what the march left there (R266, R267): the bank, the
number of the access in the march of that bank, and the bits. -/
structure MarchRead where
  bank : BitVec 12
  access : BitVec 18
  raw : BitVec 576
  deriving DecidableEq, Repr

/-- The registers of one queue that configure it (R215). -/
inductive QReg where
  | baseLo
  | baseHi
  | indexLo
  | indexHi
  | size
  | weight
  | burst
  | ctrl
  deriving DecidableEq, Repr

/-- HEAT_BASE_LO, HEAT_BASE_HI and HEAT_SIZE (R402). -/
inductive HeatReg where
  | baseLo
  | baseHi
  | size
  deriving DecidableEq, Repr

/-- The wrapper instructions of R162: three that are always available, and Vodiand's own. -/
inductive WrapperInstr where
  | bypass
  | extest
  | intest
  | scan
  | bankAccess
  deriving DecidableEq, Repr

/-- What a lane sends (R71, R75, R78, R82): the beat of a route, a service message of the control or management bay (the
manual gives its bits no layout), or an IDLE flit that only acknowledges and returns credits. -/
inductive FlitKind where
  | beat (route : BitVec 9)
  | service (message : BitVec 288)
  | idle
  deriving DecidableEq, Repr

/-- The rows of spec/opcode_table.json, in the table's order. -/
inductive Instr where
  | porAssert
  | porRelease
  | firmwareVerify (v : MemView)
  | dieBringUp (linkUp : BitVec 4) (kat : Option (BitVec 4)) (noise : List Bool)
  | startUpMarchDone (reads : List MarchRead)
  | testModeEntry
  | marchTrig
  | zeroisePin
  | zeroiseRelease
  | zeroisationComplete (noise : List Bool)
  | dieIsoAssert (die : BitVec 2)
  | paceSync
  | paceRefLoss
  | thermalUpdate (die : BitVec 2) (temp : BitVec 12)
  | sensorStale (die : BitVec 2)
  | kekLoad (words : List (BitVec 64))
  | wrappedKey (words : List (BitVec 64))
  | clockStepAck (k : BitVec 7) (mhz : Nat)
  | clockStepAckTimeout (k : BitVec 7)
  | bayClockFault (k : BitVec 6)
  | linkUpLoss (b : BitVec 2)
  | scarfFlitSend (b : BitVec 2) (side : Bool) (lane : BitVec 3) (what : FlitKind)
  | scarfFlitReceive (b : BitVec 2) (side : Bool) (lane : BitVec 3) (flit : BitVec 512)
  | scarfNakReceive (b : BitVec 2) (side : Bool) (lane : BitVec 3) (ackSeq : BitVec 8)
  | scarfReplayTimeout (b : BitVec 2) (side : Bool) (lane : BitVec 3)
  | tenonLaunch (bay : BitVec 6) (tenon : BitVec 3)
  | trussBeatAccept (route : BitVec 9) (link : BitVec 2)
  | bayDozeEntry (k : BitVec 6)
  | bayWake (k : BitVec 6)
  | sillRequestIssue (port : BitVec 3) (tag : BitVec 13)
  | sillReadBeat (port : BitVec 3) (tag : BitVec 13) (beat : BitVec 5) (last : Bool) (poison : BitVec 2) (data : BitVec 1024)
  | sillReadErrorResponse (port : BitVec 3) (tag : BitVec 13) (fault : Bool) (token : Word)
  | sillWriteResponse (port : BitVec 3) (tag : BitVec 13) (resp : Resp)
  | sillRequestTimeout (port : BitVec 3) (tag : BitVec 13) (write : Bool)
  | stewardWatchdogExpiry
  | dumpSectionWrite (v : MemView)
  | controlStateEcc (store : CtrlStore)
  | logEntryWrite (log : LogId) (v : MemView)
  | errLogBaseHiWrite (acc : Acc) (log : LogId) (value : Word)
  | notifySend
  | pageRequestGroupSend (fn : BitVec 6) (stream : BitVec 10)
  | hostRegisterWrite (acc : Acc) (addr : BitVec 21) (value : Word)
  | rcRegisterRead (acc : Acc) (addr : BitVec 21) (event : Bool)
  | reg64LoRead (acc : Acc) (addr : BitVec 21)
  | imgStart (acc : Acc) (value : Word) (v : MemView) (between : MemView)
  | imgAbort (acc : Acc) (value : Word)
  | imageCommit
  | funcResetGo (acc : Acc) (fn : BitVec 6) (value : Word)
  | funcResetComplete (fn : BitVec 6)
  | qEnable (acc : Acc) (fn : BitVec 6) (q : BitVec 9) (value : Word)
  | qEnableCheck (fn : BitVec 6) (q : BitVec 9)
  | qDisable (acc : Acc) (fn : BitVec 6) (q : BitVec 9) (value : Word)
  | qDisableComplete (fn : BitVec 6) (q : BitVec 9)
  | qConfigWrite (acc : Acc) (fn : BitVec 6) (q : BitVec 9) (reg : QReg) (value : Word)
  | doorbell (acc : Acc) (fn : BitVec 6) (value : Word)
  | tailRead (fn : BitVec 6) (q : BitVec 9) (extra : BitVec 6) (v : MemView)
  | entryFetch (fn : BitVec 6) (q : BitVec 9) (v : MemView)
  | queueVisit (fn : BitVec 6) (q : BitVec 9) (v : MemView)
  | copy (fn : BitVec 6) (q : BitVec 9) (slot : BitVec 16) (v : MemView)
  | streamOpen (fn : BitVec 6) (q : BitVec 9) (slot : BitVec 16) (v : MemView)
  | streamClose (fn : BitVec 6) (q : BitVec 9) (slot : BitVec 16) (v : MemView)
  | shardList (fn : BitVec 6) (q : BitVec 9) (slot : BitVec 16) (v : MemView)
  | sample (fn : BitVec 6) (q : BitVec 9) (slot : BitVec 16) (v : MemView)
  | gather (fn : BitVec 6) (q : BitVec 9) (slot : BitVec 16) (v : MemView)
  | scatter (fn : BitVec 6) (q : BitVec 9) (slot : BitVec 16) (v : MemView)
  | returnLogits (fn : BitVec 6) (q : BitVec 9) (slot : BitVec 16) (v : MemView)
  | returnWrite (fn : BitVec 6) (q : BitVec 9) (slot : BitVec 16) (v : MemView)
  | poolFill (fn : BitVec 6) (q : BitVec 9) (slot : BitVec 16) (v : MemView)
  | contextSave (fn : BitVec 6) (q : BitVec 9) (slot : BitVec 16) (v : MemView)
  | contextRestore (fn : BitVec 6) (q : BitVec 9) (slot : BitVec 16) (v : MemView)
  | streamResume (fn : BitVec 6) (q : BitVec 9) (slot : BitVec 16) (v : MemView)
  | lockGroup (fn : BitVec 6) (q : BitVec 9) (slot : BitVec 16) (v : MemView)
  | snapshot (fn : BitVec 6) (q : BitVec 9) (slot : BitVec 16) (v : MemView)
  | jobCompleteHeadPublish (fn : BitVec 6) (q : BitVec 9) (v : MemView)
  | batchDeliver (fn : BitVec 6) (stream : BitVec 10) (v : MemView)
  | lockGroupRelease (group : BitVec 6) (v : MemView)
  | scheduleStart (fn : BitVec 6) (stream : BitVec 10) (v : MemView)
  | epochStart (fn : BitVec 6) (stream : BitVec 10) (v : MemView)
  | hurdlePass (fn : BitVec 6) (stream : BitVec 10)
  | shuffleWindowBuild (fn : BitVec 6) (stream : BitVec 10) (v : MemView)
  | intakeRecord (fn : BitVec 6) (stream : BitVec 10) (v : MemView)
  | judgeHeatStart (bay : BitVec 6) (v : MemView)
  | heatRegionWrite (acc : Acc) (reg : HeatReg) (value : Word)
  | bankOwnerWrite (acc : Acc) (b : BitVec 12) (value : Word)
  | bankHandover (b : BitVec 12)
  | bankClearDone (b : BitVec 12)
  | scrubRead (b : BitVec 12) (upset : BitVec 576)
  | marchStart (acc : Acc) (value : Word)
  | marchDone (reads : List MarchRead)
  | poolMapWrite (acc : Acc) (p : BitVec 8) (value : Word)
  | poolEnable (acc : Acc) (fn : BitVec 6) (i : BitVec 8) (value : Word) (v : MemView)
  | poolDisable (acc : Acc) (fn : BitVec 6) (i : BitVec 8) (value : Word) (v : MemView)
  | poolAllocate (fn : BitVec 6) (i : BitVec 8) (stream : BitVec 10) (share : Option (BitVec 64 × List (BitVec 10)))
  | poolGrant (fn : BitVec 6) (i : BitVec 8)
  | poolRelease (fn : BitVec 6) (i : BitVec 8) (stream : BitVec 10) (handle : BitVec 64) (v : MemView)
  | poolCacheRefill (p : BitVec 8) (v : MemView)
  | poolCacheSpill (p : BitVec 8) (v : MemView)
  | poolWatchdogFire (p : BitVec 8) (v : MemView)
  | relayReturn (acc : Acc) (fn : BitVec 6) (value : Word)
  | frameModeWrite (acc : Acc) (value : Word)
  | frameCtrlWrite (acc : Acc) (value : Word)
  | paceOffsetWrite (acc : Acc) (value : Word)
  | snapAtWrite (acc : Acc) (value : Word)
  | snapshotCopy (unit : SnapUnit)
  | snapshotComplete
  | governorStep (v : MemView)
  | sprintGrant (die : BitVec 2)
  | secAuth (acc : Acc)
  | secClose (acc : Acc)
  | secZeroise (acc : Acc)
  | secSelftest (acc : Acc)
  | selftestComplete (kat : Option (BitVec 4)) (noise : List Bool)
  | signCommit (acc : Acc) (value : Word)
  | signClear (acc : Acc) (value : Word)
  | keyPartWrite (acc : Acc) (f : BitVec 6) (value : Word)
  | secTestArm (acc : Acc) (value : Word)
  | keyQuery (acc : Acc) (fn : BitVec 6) (value : Word)
  | keyZeroise (acc : Acc) (fn : BitVec 6) (value : Word)
  | keyDerive (acc : Acc) (fn : BitVec 6) (value : Word)
  | noiseSample (bit : Bool)
  | drbgReseed (noise : List Bool)
  | paceRefRestore
  | relayPortSend
  | managementStorageEcc (store : MgmtStore)
  | bayControlStateEcc (k : BitVec 6)
  | wrapperInstructionUpdate (wrapper : BitVec 7) (instr : WrapperInstr)
  | clockStepAckLowered (k : BitVec 7)
  deriving DecidableEq, Repr

end Sys2Proof
end

