-- ==== Sys2Proof/Decode.lean ====
section
/-! DEFINITION. The command that a word spells by the table's bits. No row of spec/opcode_table.json has bits
(every row's list of fields is empty), so no word spells a command. -/

namespace Sys2Proof

/-- The command spelt by a word of `nbits` bits: none. -/
def decodeTableWord (_nbits _w : Nat) : Option Instr := none

end Sys2Proof
end

