-- ==== Sys2Proof/Machine/Bytes.lean ====
section
/-! DEFINITION. Byte strings: byte order (R8, R98, R564), bit fields, CRC-32C, CRC-32, Adler-32. -/

namespace Sys2Proof.Machine

/-- Bits [lo + w - 1 : lo] of a number. -/
def fld (v lo w : Nat) : Nat := (v >>> lo) % 2 ^ w

/-- Bit `i` of a number. -/
def bitOf (v i : Nat) : Bool := v.testBit i

/-- A flag as a number. -/
def b2n (b : Bool) : Nat := if b then 1 else 0

/-- `n` bytes from offset `off`; bytes beyond the end read 0. -/
def bytesAt (bs : Bytes) (off n : Nat) : Bytes :=
  let t := (bs.drop off).take n
  t ++ List.replicate (n - t.length) 0

/-- Little-endian value (R8). -/
def leNat : Bytes → Nat
  | [] => 0
  | b :: t => b.toNat + 256 * leNat t

/-- Big-endian value (R98). -/
def beNat (bs : Bytes) : Nat := bs.foldl (fun a b => a * 256 + b.toNat) 0

/-- `n` bytes of a value, little-endian (R8). -/
def natLe : Nat → Nat → Bytes
  | 0, _ => []
  | n + 1, v => BitVec.ofNat 8 v :: natLe n (v / 256)

/-- `n` bytes of a value, big-endian. -/
def natBe (n v : Nat) : Bytes := (natLe n v).reverse

/-- The little-endian field of `n` bytes at `off`. -/
def leAt (bs : Bytes) (off n : Nat) : Nat := leNat (bytesAt bs off n)

/-- The big-endian field of `n` bytes at `off`. -/
def beAt (bs : Bytes) (off n : Nat) : Nat := beNat (bytesAt bs off n)

/-- Bytes `bs` laid over `base` at `off`, within the length of `base`. -/
def overlay (base : Bytes) (off : Nat) (bs : Bytes) : Bytes :=
  base.take off ++ bs.take (base.length - off) ++ base.drop (off + bs.length)

/-- Zero bytes. -/
def zeros (n : Nat) : Bytes := List.replicate n 0

/-- Padding with zeros to a multiple of `m`. -/
def padTo (m : Nat) (bs : Bytes) : Bytes := bs ++ zeros ((m - bs.length % m) % m)

/-- Two's complement value of a `w`-bit field. -/
def signed (w v : Nat) : Int := if v < 2 ^ (w - 1) then (v : Int) else (v : Int) - 2 ^ w

/-- Two sorted lists merged, elements of the first before equal ones of the second; the number bounds their lengths. -/
def mergeTwo {α : Type} (le : α → α → Bool) : Nat → List α → List α → List α
  | 0, a, b => a ++ b
  | _ + 1, [], b => b
  | _ + 1, a, [] => a
  | n + 1, x :: a, y :: b => if le x y then x :: mergeTwo le n a (y :: b) else y :: mergeTwo le n (x :: a) b

/-- A stable sort by halves; the number bounds the length. -/
def sortHalves {α : Type} (le : α → α → Bool) : Nat → List α → List α
  | 0, l => l
  | n + 1, l =>
    if l.length ≤ 1 then l
    else mergeTwo le l.length (sortHalves le n (l.take (l.length / 2))) (sortHalves le n (l.drop (l.length / 2)))

/-- A list in order, equal elements in the order they had. -/
def sortBy {α : Type} (le : α → α → Bool) (l : List α) : List α := sortHalves le l.length l

/-- `⌈a / b⌉`. -/
def ceilDiv (a b : Nat) : Nat := if b = 0 then 0 else (a + b - 1) / b

/-- Word `j` of a byte string carried in consecutive registers (R564). -/
def strWord (bs : Bytes) (j : Nat) : Word := BitVec.ofNat 32 (leAt bs (4 * j) 4)

/-- One reflected CRC step over 8 bits. -/
def crcByte (poly : BitVec 32) (c : BitVec 32) (b : Byte) : BitVec 32 :=
  (List.range 8).foldl (fun c _ => if c.getLsbD 0 then (c >>> 1) ^^^ poly else c >>> 1) (c ^^^ b.zeroExtend 32)

/-- A reflected CRC-32 of the given polynomial with initial value and final complement all ones. -/
def crcOf (poly : BitVec 32) (bs : Bytes) : BitVec 32 := ~~~ bs.foldl (crcByte poly) 0xFFFFFFFF

/-- CRC-32C (R75, R295, R296, R536). PRESUMED (log 9): the Castagnoli polynomial, reflected. -/
def crc32c (bs : Bytes) : BitVec 32 := crcOf 0x82F63B78 bs

/-- CRC-32 of PNG and gzip (R303, R319). PRESUMED (log 9). -/
def crc32 (bs : Bytes) : BitVec 32 := crcOf 0xEDB88320 bs

/-- Adler-32 of zlib (R303). PRESUMED (log 9). -/
def adler32 (bs : Bytes) : Nat :=
  let p := bs.foldl (fun (p : Nat × Nat) b => let a := (p.1 + b.toNat) % 65521; (a, (p.2 + a) % 65521)) (1, 0)
  p.2 * 65536 + p.1

/-- Splits a list into consecutive groups of `n`, the last one shorter (`fuel` bounds the count). -/
def chunks (n : Nat) : Nat → List α → List (List α)
  | 0, _ => []
  | _, [] => []
  | fuel + 1, l => l.take n :: chunks n fuel (l.drop n)

end Sys2Proof.Machine
end

