-- ==== Sys2Proof/Config.lean ====
section
/-! DEFINITION. What an implementation fixes and what the manual leaves open: opaque constants, so that no
proof can see a value of them. -/

namespace Sys2Proof

/-- Free values of width at most 64 bits, drawn with the counter State.freeCtr (log 13). -/
opaque Config.freeValue : Nat → Nat

/-- The two firmware key digests that the licensee puts into the ROM (R168; log 5). -/
opaque Config.romDigest : Nat → Bytes

/-- FW_ADDR of the ROM (R168; log 5). -/
opaque Config.fwAddr : Nat

/-- The check bits of a 144/128 codeword that each data bit contributes: the manual gives the code's strength, not its
equations (R56; log 10). -/
opaque Config.eccColumn : Nat → BitVec 16

/-- The governor's power estimate of a die from (bay, clock in MHz, activity) of each of its bays; coefficients
fixed at generate time (R549; log 14). -/
opaque Config.powerEstimate : List (Nat × Nat × Nat) → Fp

/-- Sign and payload of a NaN that an FP32 operation gives: IEEE 754 leaves them open (R316; log 13). -/
opaque Config.nanBits : BitVec 32 → BitVec 32 → BitVec 32

/-- What a NaN rounds to: no rule gives an integer for it (R332; log 151). -/
opaque Config.nanRound : BitVec 32 → Nat

/-- What the reference encoder model chooses in the parameter sets (R357), by the profile and the number of the choice (log 8). -/
opaque Config.encChoice : Bytes → Nat → Nat

/-- What the coding of a CTU rests on: profile, IDR picture, slice QP, the CTU's number, whether it is the first or the last of its slice,
the source picture, the motion window around the CTU (R359; none in an IDR picture), the model's state so far in the picture. -/
structure EncCtu where
  profile : Bytes
  idr : Bool
  qp : Nat
  ctu : Nat
  first : Bool
  last : Bool
  source : List Nat
  window : List Nat
  state : List Nat
  deriving DecidableEq, Repr

/-- The reference encoder model that Burtar ships (R357): the bits of a CTU, emulation prevention included, and the model's state after
it (log 8). -/
opaque Config.hevcCtu : EncCtu → List Bool × List Nat

/-- The same for a CTU that is skip in a P slice, or DC without residual in an IDR picture (R361; log 8). -/
opaque Config.hevcSkip : EncCtu → List Bool × List Nat

/-- The rest of a slice's segment header behind its slice_type (R361): profile, IDR picture, slice QP, its first CTU (log 8). -/
opaque Config.hevcHeader : Bytes → Bool → Nat → Nat → List Bool

/-- The reconstructed picture, deblocked (R357), Y, Cb and Cr of the coded size in order, from the model's state at its end (log 8). -/
opaque Config.hevcRecon : Bytes → List Nat → List Nat

/-- The inverse DCT of 64 dequantised coefficients in natural order, as 64 samples of 0 to 255 after the level shift
(R319): ITU-T T.81 bounds its error and fixes no arithmetic (log 8). -/
opaque Config.jpegIdct : List Int → List (Fin 256)

/-- What a video decoder meets in decode order, as far as the manual's rules speak of it (R346 to R355). Offsets count
from the start of the elementary stream; pictures are numbered in decode order from 0. The syntax of a stream does not depend on the
values of its pictures. -/
inductive VideoEvent where
  /-- The parameter set or sequence header at an offset takes effect. -/
  | params (off : Nat)
  /-- The NAL unit or open bitstream unit at an offset is begun. -/
  | unit (off : Nat)
  /-- The next picture is decoded, whose first slice or frame lies at an offset: what it fetches of reference pictures, each as the
  picture, the offset in it and the length (R352, R353). -/
  | picture (off : Nat) (fetches : List (Nat × Nat × Nat))
  /-- A picture is needed no more, neither as a reference nor for output. -/
  | drop (pic : Nat)
  /-- A picture is the next in output order. -/
  | output (pic : Nat)
  /-- The stream is damaged at an offset (R348). -/
  | damaged (off : Nat)
  deriving DecidableEq, Repr

/-- The decoders of ITU-T H.264, H.265 and AV1 (R346): codec, elementary stream, start offset (log 8). -/
opaque Config.videoDecode : Nat → Bytes → Nat → List VideoEvent

/-- The picture that a decoder reconstructs, Y, Cb and Cr in order as it is stored: codec, elementary stream, start offset, the
picture's number, the bytes that it fetched (log 8). -/
opaque Config.videoSamples : Nat → Bytes → Nat → Nat → Bytes → Bytes

/-- AV1 film grain with the stream's own seed (R346): elementary stream, start offset, the picture's number, its stored bytes (log 8). -/
opaque Config.videoGrain : Bytes → Nat → Nat → Bytes → Bytes

end Sys2Proof
end

