-- ==== Sys2Proof/Machine/State.lean ====
section
/-! DEFINITION. The state of a Stavrez frame as plain data, its reset, and the reasons a command can stop. -/

namespace Sys2Proof.Machine

/-- A table by number: key and value pairs, keys rising. An absent key holds the default its reader names. -/
abbrev Tbl (α : Type) := List (Nat × α)

/-- Sparse memory: rising addresses, no entry equal to 0, which is what an unlisted address reads as (log 3). -/
abbrev Mem := List Host.Cell

/-! ## What is fixed in silicon (R5 to R7, R96, R168, R562) -/

/-- One work bay of the generated block: bay type code 1 to 6 (R562) and die (R69). -/
structure BayGen where
  kind : Nat
  die : Nat
  deriving DecidableEq, Repr

/-- One wire-table entry of the capability record (R96). -/
structure WireGen where
  tenonBay : Nat
  mortiseBay : Nat
  through : Nat
  ps : Nat
  deriving DecidableEq, Repr

/-- The generated counts and choices. -/
structure Caps where
  dies : Nat
  bays : List BayGen
  portDie : List Nat
  relay : Bool
  funcs : Nat
  queues : Nat
  wires : List WireGen
  deriving DecidableEq, Repr

/-! ## Frame page and pins -/

/-- FRAME_STATUS.STATE (R167). How far start-up is; with test_mode at 1 the register shows TEST_MODE instead (log 23). -/
inductive FrameSt where
  | reset | boot | selfTest | ready | running | walk | fatal | bootFail | testMode
  deriving DecidableEq, Repr

/-- Frame-wide status and control registers (R167, R467, R561, R574). -/
structure Frame where
  st : FrameSt
  diesUp : List Nat
  fencedAny : Bool
  marchFail : Bool
  committed : Bool
  bootCause : Nat
  fwVersion : Word
  fwVerified : Bool
  preTests : Bool
  openMode : Bool
  modeRefused : Bool
  eventFn : Nat
  eventVector : Nat
  eventEn : Bool
  ctrlRefused : Bool
  walkThermal : Bool
  walkCtrlEcc : Bool
  walkFenced : Bool
  walkFirst : Nat
  deriving DecidableEq, Repr

/-- Pin levels (R153, R154, R160, R163, R164, R172). -/
structure Pins where
  porN : Bool
  testMode : Bool
  zeroise : Bool
  zeroiseDone : Bool
  marchDone : Bool
  marchFail : Bool
  dieIso : List Nat
  dieIsoDone : List Nat
  deriving DecidableEq, Repr

/-- The pacer (R539 to R542). -/
structure Pacer where
  time : Nat
  counting : Bool
  capt : Nat
  offset : Nat
  syncSeen : Bool
  holdover : Bool
  refused : Bool
  deriving DecidableEq, Repr

/-- Counters and snapshots (R543 to R547). Counters are keyed group, instance, counter. -/
structure Telemetry where
  cnt : Tbl Nat
  spare : Tbl Nat
  shadow : Tbl Nat
  copied : List SnapUnit
  snapAt : Nat
  pending : Bool
  /-- A frame-fatal error came before every unit had copied: the pending snapshot never completes (R31). -/
  lost : Bool
  done : Bool
  late : Bool
  refused : Bool
  fenced : Bool
  seq : Nat
  cntSel : Word
  deriving DecidableEq, Repr

/-- One answer of the host port (R136). -/
structure HostRsp where
  rdata : Word
  err : Bool
  deriving DecidableEq, Repr

/-- The staged _LO halves and latched _HI halves, keyed by origin kind and pair (R14, R15, R556), and the
response that the latest access brought (R137: the host accepts a response on every clock edge). -/
structure HostPort where
  staged : Tbl Word
  latched : Tbl Word
  rsp : List HostRsp
  deriving DecidableEq, Repr

/-! ## Errors, logs, the dump -/

/-- A log entry (R521). -/
structure LogEntry where
  time : Nat
  detail : Nat
  seq : Nat
  code : Nat
  cls : Nat
  nested : Bool
  unit : Nat
  index : Nat
  bay : Nat
  func : Nat
  overflow : Nat
  deriving DecidableEq, Repr

/-- A log ring with its registers and its on-chip copy (R521 to R523, R578, R579). -/
structure LogRing where
  base : Nat
  next : Nat
  fault : Bool
  lost : Nat
  waiting : List LogEntry
  chip : List LogEntry
  written : Tbl Bytes
  deriving DecidableEq, Repr

/-- A unit's held error record, its NESTED entries in flight and its overflow counter (R520, R524). -/
structure UnitErr where
  held : Option LogEntry
  inFlight : Nat
  overflow : Nat
  deriving DecidableEq, Repr

/-- One directory entry of the dump header (R535). -/
structure DumpDir where
  offset : Nat
  size : Nat
  crc : Word
  st : Nat
  deriving DecidableEq, Repr

/-- The fatal path and the fatal dump (R532 to R538, R575 to R577). -/
structure Dump where
  base : Nat
  size : Nat
  banks : Bool
  st : Nat
  short : Bool
  hdrFailed : Bool
  section_ : Nat
  detail : Nat
  time : Nat
  prior : Nat
  second : Nat
  secondTime : Nat
  dir : List DumpDir
  /-- A second fatal error has stopped the dump (R537). -/
  stopped : Bool
  /-- The first header could not be written at once (log 4). -/
  hdrDue : Bool
  deriving DecidableEq, Repr

/-! ## Security (R487 to R513) -/

/-- A loaded key slot (R496); `gen` tells two loads of one slot apart (R498). -/
structure KeySlot where
  keyType : Nat
  fn : Nat
  key : Bytes
  gen : Nat
  shards : Nat
  deriving DecidableEq, Repr

/-- CTR_DRBG working state (R504). -/
structure Drbg where
  key : Bytes
  v : Bytes
  requests : Nat
  deriving DecidableEq, Repr

/-- The two health tests of the noise source (R503). -/
structure Noise where
  rctVal : Bool
  rctCount : Nat
  aptVal : Bool
  aptPos : Nat
  aptCount : Nat
  deriving DecidableEq, Repr

structure Sec where
  cryptoError : Bool
  errCause : Nat
  session : Bool
  zeroising : Bool
  zeroDone : Bool
  selftestBusy : Bool
  selftestDone : Bool
  selftestAgain : Bool
  authFail : Bool
  /-- An AUTH write waits for a self-test (R508). -/
  authWait : Nat
  refused : Bool
  nonce : Bytes
  auth : Tbl Word
  lastAuth : Option Nat
  slots : Tbl KeySlot
  slotGen : Nat
  kek : Option Bytes
  digests : Tbl Bytes
  signStage : Tbl Word
  signSlot : Nat
  keyPart : Tbl (Nat × Nat)
  testTarget : Nat
  armed : Option Nat
  /-- Samples delivered since a noise failure was armed (R509). -/
  armPos : Nat
  drbg : Option Drbg
  noise : Noise
  heatKey : Option Bytes
  sealGen : Nat
  /-- The valid records of the heat copy: table × 2^32 + chunk, with the generation it was sealed under (R403). -/
  heatValid : Tbl Nat
  /-- kimp_status of the last record (R157, R159), and how many kimp_done pulses have been given. -/
  kimpStatus : Nat
  kimpDone : Nat
  deriving DecidableEq, Repr

/-! ## Agenel image (R87 to R116) -/

structure TableRef where
  id : Nat
  kind : Nat
  flags : Nat
  size : Nat
  listDigest : Bytes
  deriving DecidableEq, Repr

structure TableMapEnt where
  id : Nat
  dataAddr : Nat
  listAddr : Nat
  /-- The chunk digests read and checked at staging (R104). -/
  chunks : List Bytes
  deriving DecidableEq, Repr

structure BankPlan where
  bay : Nat
  bank : Nat
  kind : Nat
  index : Nat
  deriving DecidableEq, Repr

structure BayBind where
  bay : Nat
  slot : Nat
  engine : Nat
  graph : Nat
  profile : Nat
  deriving DecidableEq, Repr

structure Profile where
  num : Nat
  engine : Nat
  body : Bytes
  deriving DecidableEq, Repr

structure RouteCfg where
  route : Nat
  tenonBay : Nat
  tenonPort : Nat
  mortiseBay : Nat
  mortisePort : Nat
  unit : Nat
  crossings : Nat
  through : Nat
  pathRsv : Nat
  wirePs : Nat
  lane1 : Nat
  credits1 : Nat
  lane2 : Nat
  credits2 : Nat
  declRate : Nat
  deriving DecidableEq, Repr

structure QueueDef where
  qid : Nat
  func : Nat
  log2 : Nat
  weight : Nat
  burst : Nat
  vector : Nat
  flags : Nat
  opcodeMask : Nat
  maxChain : Nat
  localQ : Nat
  prefetch : Nat
  deriving DecidableEq, Repr

structure Graph where
  num : Nat
  direction : Nat
  boundary : Nat
  dies : Nat
  ports : Nat
  bays : Nat
  bound : Nat
  guarRate : Nat
  fillNs : Nat
  drainNs : Nat
  hurdleNs : Nat
  maxBatch : Nat
  deriving DecidableEq, Repr

structure Platform where
  bayMhz : List Nat
  ctrlMhz : Nat
  portMhz : List Nat
  portBw : List Nat
  linkBw : List Nat
  linkExcess : List Nat
  deriving DecidableEq, Repr

/-- A parsed configuration: the committed one, or the staged one of a load. -/
structure ImgCfg where
  kind : Nat
  meetSize : Nat
  modes : Nat
  patchBays : Nat
  platform : Platform
  tables : List TableRef
  tableMap : List TableMapEnt
  bankPlan : List BankPlan
  binds : List BayBind
  profiles : List Profile
  hasRoutes : Bool
  hasGraphs : Bool
  routes : List RouteCfg
  queues : List QueueDef
  graphs : List Graph
  digest : Bytes
  /-- Directory index of the BAYBIND section, reported for a fenced bay (R112). -/
  bindSection : Nat
  deriving DecidableEq, Repr

/-- IMG_STATUS.STATE (R572). -/
inductive ImgSt where
  | idle | verifying | staging | draining | committing | done | rejected
  deriving DecidableEq, Repr

structure Image where
  addr : Nat
  force : Bool
  st : ImgSt
  kind : Nat
  detail : Nat
  sect : Nat
  overrun : Bool
  staged : Option ImgCfg
  committed : Option ImgCfg
  digest : Bytes
  graphDigests : Tbl Bytes
  /-- The pinned tables held in banks (R104; log 26). -/
  pinned : Tbl Bytes
  /-- The pinned tables of a load that has not committed. -/
  stagedPins : Tbl Bytes
  deriving DecidableEq, Repr

/-! ## Bays, routes, bridges (R42 to R86, R151) -/

/-- PSTATE of BAY_STATUS (R45). -/
inductive PState where
  | run | doze | park | fenced
  deriving DecidableEq, Repr

/-- What a unit on a route belongs to. The manual gives units tags but no layout (R330, R355); log 12. -/
structure UnitTag where
  stream : Nat
  sampleIx : Nat
  ordinal : Nat
  kind : Nat
  len : Nat
  /-- 0 data, 1 mask unit (R327), 2 sidecar (R387, R407), 3 a unit withdrawn alone (R406), 4 and 5 the output of a judge
  segment and the original it goes with (R409). -/
  role : Nat
  width : Nat
  height : Nat
  chans : Nat
  vmax : Nat
  repeated : Bool
  /-- Image stage reached (R316), the source frame of a clip frame (R355), the ID of a cutout (R330). -/
  stage : Nat
  extra : Nat
  /-- The part of its sample that the unit is: one in `den` (log 12). -/
  den : Nat
  /-- Sidecar units that go with it. -/
  sides : Nat
  /-- Which dispatch sent it: units of a dispatch that is no longer in flight are stale. -/
  gen : Nat
  deriving DecidableEq, Repr

/-- One beat on a link (R49, R55), with the model's unit tag. -/
structure Beat where
  data : BitVec 256
  check : BitVec 32
  mark : BitVec 4
  tag : UnitTag
  deriving DecidableEq, Repr

/-- One handshake link between adjacent stages (R50, R51): idle when req equals ack. -/
structure Link where
  req : Bool
  ack : Bool
  beat : Option Beat
  deriving DecidableEq, Repr

/-- A route: its links from the tenon on, the mortise FIFO, credits left at each crossing. -/
structure Route where
  links : List Link
  fifo : List Beat
  credits : List Nat
  lostFraming : Bool
  deriving DecidableEq, Repr

/-- A codeword of the 144/128 code (R56). -/
structure Codeword where
  data : BitVec 128
  check : BitVec 16
  deriving DecidableEq, Repr

/-- A unit being collected at a mortise. -/
structure UnitAcc where
  bytes : Bytes
  tag : UnitTag
  bad : Bool
  /-- Where the unit of R60 that arrives begins in `bytes`: a picture may come as several of them. -/
  start : Nat
  /-- The codewords that have arrived, as they are, where the bay's banks will hold them (R57, R257). -/
  codes : List Codeword
  deriving DecidableEq, Repr

/-- A complete unit at an engine. -/
structure DataUnit where
  bytes : Bytes
  tag : UnitTag
  /-- The words of the bay's banks that hold it, as runs of words that follow each other: first word and number (R257, R259). -/
  words : List (Nat × Nat)
  deriving DecidableEq, Repr

/-- A unit waiting for a heat, with its arrival time (R400). -/
structure HeatUnit where
  data : DataUnit
  /-- The original unit, when the program's input is an earlier segment's output (R409). -/
  orig : Option DataUnit
  time : Nat
  /-- Its place among the units that wait (R399). -/
  place : Nat
  deriving DecidableEq, Repr

/-- The clock-step channel of one bay (R151, R152). -/
structure CStep where
  req : Bool
  mhz : Nat
  ack : Bool
  at_ : Nat
  /-- A target that changed while a step was in progress (R553). -/
  next : Option Nat
  last : Option Nat
  deriving DecidableEq, Repr

/-- What the encoder carries from picture to picture (R365): slice QP, CPB fullness, the first picture of the buffering period. -/
structure EncRun where
  qp : Nat
  full : Nat
  period : Nat
  deriving DecidableEq, Repr

/-- What an encoder keeps of a clip over a halt (R365): the picture it is at, its state at the start of that picture, and the slices that
have left, each with its picture. Its reference is the picture before, in its buffers. -/
structure EncHold where
  next : Nat
  run : EncRun
  slices : List (Nat × Bytes)
  deriving DecidableEq, Repr

structure Bay where
  pstate : PState
  mhz : Nat
  stopped : Bool
  cstep : CStep
  clkState : Nat
  /-- When PSTATE last changed, for the times of counter group 2 (R547). -/
  since : Nat
  out : Tbl (List Beat)
  acc : Tbl UnitAcc
  heat : List HeatUnit
  /-- Units whose engine waits for its stream to resume (R328, R373), with their mortise. -/
  held : List (Nat × DataUnit)
  /-- Clips that its encoder codes: stream index, sample, dispatch, and what it keeps of each (R365). -/
  coding : List (Nat × Nat × Nat × EncHold)
  /-- FLUSH beats received: stream index * 8 + mortise (R60). -/
  flushed : List Nat
  /-- Turns that its engine has given to the units waiting for it (R232, R235). -/
  taken : Nat
  deriving DecidableEq, Repr

/-- A flit in the replay buffer (R82). -/
structure SentFlit where
  seq : Nat
  flit : BitVec 512
  at_ : Nat
  deriving DecidableEq, Repr

/-- One end of one scarf lane: its sender and its receiver (R75 to R82). -/
structure LaneEnd where
  nextSeq : Nat
  replay : List SentFlit
  tx : List (BitVec 512)
  rxGood : Nat
  discarding : Bool
  slots : List (Nat × Beat)
  returns : List (Nat × Nat)
  failSeq : Nat
  fails : Nat
  /-- The unit tags of the beats in flight on this lane, oldest first (log 12). -/
  tags : List (Nat × UnitTag)
  /-- Flits sent since the latest SERVICE flit, counted up to 15 (R71). -/
  spaced : Nat
  deriving DecidableEq, Repr

structure Boundary where
  linkUp : Bool
  down : Bool
  lanes : Tbl LaneEnd
  deriving DecidableEq, Repr

/-! ## Banks (R256 to R269) -/

structure BankReq where
  kind : Nat
  index : Nat
  clear : Bool
  /-- An image commit hands the bank over: its pinned tables are loaded into it (R104). -/
  load : Bool
  deriving DecidableEq, Repr

structure Bank where
  kind : Nat
  index : Nat
  /-- The function of the owning stream, kept for R264. -/
  ownerFn : Nat
  pending : Option BankReq
  clearing : Bool
  marchFail : Bool
  uncorr : Bool
  refused : Bool
  corr : Nat
  scrub : Nat
  /-- It was cleared, or marched, to zeros, and its owner has not worked in it since: words that State.bankWords does not list
  hold zeros with correct check bits (R264, R266; log 32). -/
  zeroed : Bool
  /-- Its owner is the engine of the bank plan, and has been since a commit loaded the pinned tables (R104). -/
  loaded : Bool
  deriving DecidableEq, Repr

/-- March engine registers (R268). -/
structure March where
  mode : Bool
  bank : Nat
  busy : Bool
  whole : Bool
  done : Bool
  fail : Bool
  refused : Bool
  stBank : Nat
  failCount : Nat
  /-- Bank and mode of the march that runs (R268). -/
  runBank : Nat
  runMode : Bool
  deriving DecidableEq, Repr

/-! ## Sill ports (R117 to R135, R231 to R234) -/

inductive SillOp where
  | read | write | fetchAdd
  deriving DecidableEq, Repr

/-- What a sill request serves: it decides what a response does (R135). -/
inductive Owner where
  | queueIndex (fn q : Nat)
  | queueTail (fn q : Nat)
  | queueEntry (fn q slot : Nat) (posted : Bool)
  | streamRead (fn stream index offset : Nat)
  | slotBlock (fn stream batch block : Nat)
  /-- An access of a command of the frame's own units (log 4), by its round-robin class (R232). -/
  | direct (cls : Nat)
  deriving DecidableEq, Repr

/-- The request signals of one transfer (R119): `len` is sillN_req_len, granules minus 1. -/
structure ReqSig where
  op : SillOp
  tag : Nat
  addr : Nat
  len : Nat
  fn : Nat
  mgmt : Bool
  operand : Word
  urgent : Bool
  deriving DecidableEq, Repr

/-- One beat on the write data channel (R119, R121, R126). -/
structure WriteBeat where
  data : BitVec 1024
  gran : BitVec 2
  last : Bool
  deriving DecidableEq, Repr

structure Req where
  op : SillOp
  addr : Nat
  grans : Nat
  fn : Nat
  mgmt : Bool
  operand : Word
  deadline : Option Nat
  period : Nat
  gidx : Nat
  owner : Owner
  data : Bytes
  deriving DecidableEq, Repr

/-- An outstanding request: its tag, when it transferred, the beats received. -/
structure OutReq where
  tag : Nat
  req : Req
  at_ : Nat
  urgent : Bool
  beats : Tbl (BitVec 1024)
  poison : List Nat
  /-- Its response is to be discarded on arrival (R181, R532). -/
  drop : Bool
  deriving DecidableEq, Repr

/-- An answer that came for an access of a command which has not taken it up yet (log 4). -/
structure Answer where
  req : Req
  resp : Resp
  data : Bytes
  deriving DecidableEq, Repr

structure Port where
  waiting : List Req
  reads : List OutReq
  writes : List OutReq
  retired : List Nat
  failed : Bool
  dead : Bool
  slots : Nat
  rr : Nat
  /-- The latest request that transferred, and the data beats of the latest write in the order they were sent (R119, R126). -/
  sent : Option ReqSig
  wdata : List WriteBeat
  answers : List Answer
  deriving DecidableEq, Repr

/-! ## Functions and queues (R178 to R218) -/

/-- FUNC_STATUS.STATE (R179). -/
inductive FnSt where
  | closed | open_ | resetting | halted
  deriving DecidableEq, Repr

structure Func where
  st : FnSt
  keysCleared : Bool
  haltCode : Nat
  oobDrop : Nat
  /-- Doorbells to queue numbers that the function does not have (R197); no register shows it (log 48). -/
  lostBells : Nat
  keyLoaded : Bool
  keyType : Nat
  /-- A KEY_CTRL write that waits for a self-test (R508); BUSY shows it. -/
  keyWait : Option Nat
  keyResult : Nat
  keyLabel : Word
  cntSel : Word
  resetKeys : Bool
  pageGroups : List Nat
  log : LogRing
  deriving DecidableEq, Repr

/-- An entry read from the ring (R199): its slot, whether it lay before TAIL, POISON, its 64 bytes. -/
structure Arrived where
  slot : Nat
  posted : Bool
  poison : Bool
  bytes : Bytes
  deriving DecidableEq, Repr

/-- How far the shard of a RETURN_WRITE is (R458 to R465): the first item's logical sample index, the next item, where its record goes, the
offsets of the records before it, the items skipped, the first item not written, the clips coded or being coded, by item. -/
structure ShardRun where
  base : Nat
  item : Nat
  off : Nat
  offs : List Nat
  skipped : Nat
  past : Option Nat
  clips : Tbl EncHold
  deriving DecidableEq, Repr

/-- How far the transfer of an entry is (R246, R418, R451, R465): blocks delivered, all lower ones first; the IV_SALT
drawn for it (R462); the first row refused by R443; what is read once per transfer (R423). -/
structure Progress where
  done : Nat
  salt : Bytes
  held : List Bytes
  bad : Option Nat
  shard : ShardRun
  deriving DecidableEq, Repr

/-- A job: its slots, its entries, and how far it is (R202, R204, R565). -/
structure Job where
  slot : Nat
  lap : Nat
  opcode : Nat
  entries : List (Nat × Bytes)
  total : Nat
  started : Bool
  acted : Nat
  complete : Bool
  notify : Bool
  fence : Bool
  /-- The stream whose end the entry just done waits for (function * 1024 + stream), or the sample of it whose delivery
  it waits for (R189): STREAM_CLOSE DRAIN and SAMPLE. -/
  waits : Option (Nat × Option Nat)
  /-- The transfer of its current entry, once that has begun. -/
  progress : Option Progress
  /-- Which enabling of its queue it belongs to (R210, R213). -/
  gen : Nat
  deriving DecidableEq, Repr

structure OpenChain where
  slot : Nat
  lap : Nat
  opcode : Nat
  entries : List (Nat × Bytes)
  deriving DecidableEq, Repr

/-- A broken chain whose following entries are skipped (R203). -/
structure Broken where
  slot : Nat
  lap : Nat
  opcode : Nat
  user : Nat
  breakSlot : Nat
  count : Nat
  deriving DecidableEq, Repr

structure Queue where
  base : Nat
  index : Nat
  log2 : Nat
  weight : Nat
  burst : Nat
  headNotify : Bool
  errNotify : Bool
  vector : Nat
  prefetch : Nat
  enabled : Bool
  disabling : Bool
  fault : Bool
  enableRefused : Bool
  cfgIgnored : Bool
  enabling : Bool
  faultCode : Nat
  heldDisable : Bool
  present : Bool
  qid : Nat
  opcodeMask : Nat
  maxChain : Nat
  defaults : Option QueueDef
  head : Nat
  lap : Nat
  errCount : Nat
  errBase : Nat
  errLog2 : Nat
  nextFetch : Nat
  tail : Nat
  tailOut : Bool
  tailAgain : Bool
  tailValue : Option Nat
  indexBlock : Option Bytes
  arrived : List Arrived
  chain : Option OpenChain
  broken : Option Broken
  jobs : List Job
  visits : Nat
  /-- How often the queue has been enabled: jobs of an earlier enabling run to completion beside the new ones (R210; log 130). -/
  gen : Nat
  errSince : Bool
  /-- What the registers hold, taken over at the next round while the queue runs (R215). -/
  nextWeight : Nat
  nextBurst : Nat
  nextHeadNotify : Bool
  nextErrNotify : Bool
  nextVector : Nat
  deriving DecidableEq, Repr

/-! ## Streams (R219 to R255, R307 to R312, R424 to R438, R476 to R485) -/

/-- STREAM_STATUS.STATE (R236). -/
inductive StreamSt where
  | free | filling | running | halted | draining
  deriving DecidableEq, Repr

/-- A list entry of SHARD_LIST (R307), with the key slot of its list. -/
structure Shard where
  addr : Nat
  size : Nat
  indexAddr : Nat
  format : Nat
  codec : Nat
  samples : Nat
  keySlot : Nat
  keyGen : Nat
  deriving DecidableEq, Repr

/-- A relay record (R436). -/
structure RelayRec where
  batch : Nat
  time : Nat
  status : Nat
  cause : Nat
  data : Bool
  end_ : Bool
  origin : Nat
  slot : Nat
  valid : Nat
  deriving DecidableEq, Repr

/-- A faulted access waiting for a resume (R248). -/
structure FaultRec where
  page : Nat
  token : Word
  write : Bool
  deriving DecidableEq, Repr

/-- A sample or row laid in a place of a batch (R428 to R432). -/
structure Placed where
  batch : Nat
  place : Nat
  index : Nat
  valid : Bool
  data : Bytes
  side : Bytes
  /-- Unit spaces that hold data: ordinal and bytes (R432). -/
  units : List (Nat × Bytes)
  /-- The logical samples it holds. -/
  samples : List Nat
  deriving DecidableEq, Repr

/-- A document's tokens with segment and position identifiers in a row (R433, R434). -/
structure Row where
  tokens : List Nat
  segs : List Nat
  poss : List Nat
  charged : Nat
  segments : Nat
  indices : List Nat
  deriving DecidableEq, Repr

/-- The transfer being delivered: batch, slot image, LOW and DONE (R246), time of its latest OKAY, filled places. -/
structure Xfer where
  batch : Nat
  image : Bytes
  low : Nat
  done : BitVec 64
  time : Nat
  valid : Nat
  places : List Placed
  deriving DecidableEq, Repr

/-- A sample dispatched and not yet placed: what its units have brought so far. `index` counts over all epochs. -/
structure InFlight where
  index : Nat
  /-- Rejected, or withdrawn whole (R431). -/
  bad : Bool
  data : Bytes
  side : Bytes
  units : List (Nat × Bytes)
  /-- The words of the pack bay's banks that hold it, as runs of words (R257, R259). -/
  words : List (Nat × Nat)
  kind : Nat
  /-- Ordinals withdrawn alone (R406). -/
  gone : List Nat
  /-- The parts received, as a fraction, and the parts dispatched (log 12); sidecar units received and awaited. -/
  got : Nat
  den : Nat
  want : Nat
  sideGot : Nat
  sideWant : Nat
  /-- Number of its dispatch. -/
  gen : Nat
  deriving DecidableEq, Repr

/-- An epoch of a stream: the running index of its first sample (a multiple of a batch over the meet), its number,
the index after its last sample once known, its samples taken by the packer and the places they used (R292, R430), the
batches before it, and, once a later epoch has begun, the size and check of its source (R479). -/
structure EpochRun where
  base : Nat
  epoch : Nat
  stop : Option Nat
  taken : Nat
  placed : Nat
  first : Nat
  src : Option (Nat × Word)
  deriving DecidableEq, Repr

/-- The record being read from a shard (R304): the port of its shard position (R312), its pieces by offset from the
granule it starts in, and whether one came back poisoned. -/
structure Reading where
  index : Nat
  addr : Nat
  size : Nat
  port : Nat
  got : Tbl Bytes
  poison : Bool
  deriving DecidableEq, Repr

/-- A batch whose writes have all returned OKAY and whose relay record is not yet written (R240, R437). -/
structure Finished where
  batch : Nat
  valid : Nat
  time : Nat
  places : List Placed
  deriving DecidableEq, Repr

/-- The text state of a document (R371): what is open of it, and what has come of it so far. -/
structure TextState where
  /-- Bytes taken in. -/
  taken : Nat
  /-- The first code point has passed (R374). -/
  begun : Bool
  /-- Pending UTF-8 bytes. -/
  pend : Bytes
  /-- Non-starters since the last starter (R375). -/
  marks : Nat
  /-- The open normalisation segment. -/
  seg : List Nat
  /-- The open piece: its group, its code points, and those since its last cut after DIGIT_RUN (R376). -/
  group : Nat
  piece : List Nat
  run : Nat
  /-- Bytes passed to pre-tokenisation, and the running SHA-256 over them (R375, R385). -/
  norm : Nat
  hash : List Word
  tail : Bytes
  /-- Tokens so far, newest first; their number with BOS_ID and EOS_ID (R383). -/
  tokens : List Nat
  count : Nat
  /-- The grammar's state, and the tokens checked (R384). -/
  gram : Option Nat
  checked : Nat
  /-- The sketch so far (R386). -/
  mins : List (BitVec 64)
  deriving DecidableEq, Repr

/-- An open document of SAMPLE jobs (R371, R372): its dispatch, the bay that takes it, its text state. -/
structure OpenDoc where
  vocab : Nat
  kind : Nat
  rejected : Option Nat
  index : Nat
  gen : Nat
  bay : Nat
  text : TextState
  deriving DecidableEq, Repr

/-- A grammar in a text bay's banks, while a stream is open (R453): its table, its header, INFO and CLASS, and the lines
fetched, newest first, each with its offset in the table. -/
structure GramRef where
  table : TableRef
  header : Bytes
  info : Bytes
  class_ : Bytes
  lines : List (Nat × Bytes)
  deriving DecidableEq, Repr

structure Stream where
  st : StreamSt
  gidx : Nat
  guaranteed : Bool
  void : Bool
  grouped : Bool
  haltCode : Nat
  group : Option Nat
  /-- Its lock group dissolved; it delivers alone (R242). -/
  loose : Bool
  pageGroup : Nat
  pageGroupHeld : Bool
  haltedFrom : StreamSt
  /-- Pacer time of the latest halt (R252, R436). -/
  haltedAt : Nat
  restored : Bool
  openMode : Bool
  graph : Nat
  seed : BitVec 128
  firstEpoch : Nat
  epoch : Nat
  batch : Nat
  period : Nat
  t0 : Nat
  t0Given : Bool
  /-- T0 of STREAM_OPEN (R222), for R239. -/
  t0Open : Nat
  depth : Nat
  follows : Option Nat
  hurdle : Bool
  /-- The earlier stage that the hurdle waits for: its frame-wide index and its graph; none, the stream's own last epoch (R245). -/
  before : Option (Nat × Nat)
  slotBase : Nat
  slotStride : Nat
  relayBase : Nat
  relayLog2 : Nat
  vector : Nat
  notify : Bool
  self : Nat
  relayNext : Nat
  /-- Status records written since the last return (R438). -/
  unacked : Nat
  waitingRecs : List RelayRec
  nextBatch : Nat
  delivered : Nat
  returned : Nat
  retTimes : Tbl Nat
  /-- The return for whose ring room the record of a batch waited (R438). -/
  roomTimes : Tbl Nat
  boundaries : List Nat
  rearm : Option (Nat × Nat)
  voidSince : Nat
  releaseAt : Option Nat
  -- source (R307 to R312)
  pendingShards : List Shard
  sealed_ : Option (List Shard × Bool)
  /-- The first list sealed after a restore (R484). -/
  firstSeal : Option (List Shard × Bool)
  source : List Shard
  sourceFinal : Bool
  /-- The epoch reads shards as they are appended (R311). -/
  liveSource : Bool
  sourced : Bool
  finalSeen : Bool
  authCount : Nat
  authThresh : Nat
  encrypted : Bool
  shardPorts : Tbl Nat
  /-- Samples of each shard position whose header has been read (R312). -/
  counts : Tbl Nat
  /-- The permutations of the windows in use; the intake bays hold them in their banks too (R294). -/
  windows : Tbl (List Nat)
  /-- The source shards of shard positions, computed 64 ahead of the shard that is read (R294). -/
  ahead : Tbl Nat
  runs : List EpochRun
  reading : Option Reading
  -- position (R246)
  position : Nat
  ended : Bool
  faults : List FaultRec
  pagesToSend : List FaultRec
  -- packing (R428 to R435)
  inFlight : List InFlight
  ready : List InFlight
  placed : List Placed
  nextPlace : Nat
  openRows : List Row
  closedRows : List Row
  xfer : Option Xfer
  finished : List Finished
  /-- Batches whose record waits to be written (R437, R479). -/
  posted : List Finished
  doc : Option OpenDoc
  /-- Grammars in use, by bay (R453). -/
  grams : Tbl GramRef
  -- restore (R482 to R484)
  srcCheck : Option (Nat × Word)
  keepDone : Option (Nat × BitVec 64)
  /-- Indices from the position on that are accounted for already: after a rewind (R281) or a restore (R483). -/
  skip : List Nat
  /-- Indices that the context which it was restored from accounts for, from DLOW on (R479, R483). -/
  known : List Nat
  -- return direction
  busy : Bool
  /-- Items of the RETURN_WRITE entries that have ended: the next item's logical sample index (R285, R287). -/
  items : Nat
  deriving DecidableEq, Repr

/-- A lock group (R238 to R242). -/
structure LockGroup where
  size : Nat
  mode : Nat
  ticket : Nat
  members : List Nat
  batch : Nat
  period : Nat
  depth : Nat
  t0 : Nat
  next : Nat
  deriving DecidableEq, Repr

/-! ## Pools (R270 to R282) -/

structure Holder where
  handle : Nat
  /-- Each stream that holds it, with the sample it holds for that stream (R276, R281). -/
  users : List (Nat × Nat)
  /-- Whether the count table has been raised for it (R276). -/
  shared : Bool
  deriving DecidableEq, Repr

structure PoolWait where
  stream : Nat
  sampleIx : Nat
  time : Nat
  deriving DecidableEq, Repr

structure Pool where
  fn : Nat
  assigned : Bool
  localNo : Nat
  block : Nat
  enabled : Bool
  fault : Bool
  stalled : Bool
  refused : Bool
  preempted : Bool
  region : Nat
  ring : Nat
  refs : Nat
  buffers : Nat
  log2Size : Nat
  log2Ring : Nat
  ringHead : Nat
  ringCount : Nat
  cache : List Nat
  added : Nat
  waits : List PoolWait
  holders : List Holder
  stallSince : Nat
  faultCode : Nat
  deriving DecidableEq, Repr

/-! ## Notification, relay port, thermal -/

structure Msg where
  fn : Nat
  vector : Nat
  payload : Word
  deriving DecidableEq, Repr

structure FrameEvent where
  kind : Nat
  payload : Word
  deriving DecidableEq, Repr

structure PageReq where
  fn : Nat
  data : BitVec 128
  deriving DecidableEq, Repr

/-- The notify port's output: kind, function, data (R141). -/
structure NotifyOut where
  kind : Nat
  fn : Nat
  data : BitVec 128
  deriving DecidableEq, Repr

structure Notify where
  msgs : List Msg
  pages : List PageReq
  events : List FrameEvent
  sent : Option NotifyOut
  deriving DecidableEq, Repr

/-- The relay port (R146, R147). -/
structure RelayCopy where
  fn : Nat
  seq : Nat
  rec_ : Bytes
  deriving DecidableEq, Repr

structure RelayPort where
  fifo : List RelayCopy
  seq : Nat
  sent : Option RelayCopy
  deriving DecidableEq, Repr

/-- One die's sensor and governor (R155, R549 to R551). -/
structure Therm where
  temp : BitVec 12
  valid : Bool
  seen : Bool
  updAt : Nat
  t1 : Fp
  t2 : Fp
  level : Nat
  sprintUntil : Option Nat
  coolSince : Option Nat
  coolCritSince : Option Nat
  critical : Bool
  sensorBad : Bool
  power : Fp
  /-- Estimated energy in nJ (R547). -/
  energy : Nat
  deriving DecidableEq, Repr

/-- Heat-copy registers (R402). -/
structure Heat where
  base : Nat
  size : Nat
  need : Nat
  deriving DecidableEq, Repr

/-! ## Work that waits for a sill port (log 4) -/

/-- An access that a running command has completed: its port, what was asked and answered. -/
structure Made where
  port : Nat
  answer : Answer
  deriving DecidableEq, Repr

/-- Why a running command has to wait: an access of it went out on a port and has no answer yet, or nothing could go out. -/
inductive Miss where
  | unanswered (port : Nat) (req : Req)
  | blocked
  deriving DecidableEq, Repr

/-- The accesses of the command that runs. Between two commands it is empty. -/
structure Running where
  on : Bool
  made : List Made
  miss : Option Miss
  deriving DecidableEq, Repr

/-- Work of a unit that waits for a sill port or for room in the MSG queue, after the command that gave rise to it (log 4): an error
record (R209), the ending record of a relay ring (R237, R255), one holder less of a shared pool buffer (R276). -/
inductive Later where
  | error (fn q entry lap code opcode user detail : Nat)
  | ending (fn stream : Nat) (x : Stream) (r : RelayRec)
  | release (pool key handle : Nat)
  deriving DecidableEq, Repr

/-! ## The whole frame -/

structure State where
  caps : Caps
  pending : List Instr
  freeCtr : Nat
  mem : Mem
  resp : List RespRule
  frame : Frame
  pins : Pins
  pace : Pacer
  tel : Telemetry
  host : HostPort
  frameLog : LogRing
  units : Tbl UnitErr
  dump : Dump
  sec : Sec
  image : Image
  bays : Tbl Bay
  routes : Tbl Route
  bounds : Tbl Boundary
  banks : Tbl Bank
  /-- Words of the banks whose stored codewords are known, by 4096 × bank + word (R256, R257; log 32). -/
  bankWords : Tbl (List Codeword)
  march : March
  ports : Tbl Port
  running : Running
  later : List Later
  funcs : Tbl Func
  queues : Tbl Queue
  streams : Tbl Stream
  groups : Tbl LockGroup
  pools : Tbl Pool
  stallUs : Nat
  /-- Samples dispatched so far. -/
  genCtr : Nat
  notify : Notify
  relay : RelayPort
  therm : Tbl Therm
  thermModel : Tbl Word
  heat : Heat
  wrappers : Tbl WrapperInstr
  deriving DecidableEq, Repr

/-! ## Default records: the reset value of each table's absent entries -/

/-- The reset value of an error log ring (R575, R578, R579). -/
def LogRing.fresh : LogRing := ⟨0, 0, false, 0, [], [], []⟩

def Func.fresh : Func :=
  { st := .closed, keysCleared := false, haltCode := 0, oobDrop := 0, lostBells := 0, keyLoaded := false, keyType := 0, keyWait := none,
    keyResult := 0, keyLabel := 0, cntSel := 0, resetKeys := false, pageGroups := [], log := .fresh }

def Queue.fresh : Queue :=
  { base := 0, index := 0, log2 := 0, weight := 0, burst := 0, headNotify := false, errNotify := false, vector := 0, prefetch := 0,
    enabled := false, disabling := false, fault := false, enableRefused := false, cfgIgnored := false,
    enabling := false, faultCode := 0, heldDisable := false, present := false, qid := 0, opcodeMask := 0, maxChain := 0,
    defaults := none, head := 0, lap := 0, errCount := 0, errBase := 0, errLog2 := 0, nextFetch := 0, tail := 0, tailOut := false,
    tailAgain := false, tailValue := none, indexBlock := none, arrived := [], chain := none, broken := none, jobs := [],
    visits := 0, gen := 0, errSince := false, nextWeight := 0, nextBurst := 0,
    nextHeadNotify := false, nextErrNotify := false, nextVector := 0 }

def Stream.fresh : Stream :=
  { st := .free, gidx := 0, guaranteed := false, void := false, grouped := false, haltCode := 0, group := none, loose := false,
    pageGroup := 0, pageGroupHeld := false, haltedFrom := .free, haltedAt := 0, restored := false, openMode := false, graph := 0, seed := 0, firstEpoch := 0,
    epoch := 0, batch := 0, period := 0, t0 := 0, t0Given := false, t0Open := 0, depth := 0, follows := none, hurdle := false, before := none, slotBase := 0,
    slotStride := 0, relayBase := 0, relayLog2 := 0, vector := 0, notify := false, self := 0, relayNext := 0, unacked := 0,
    waitingRecs := [], nextBatch := 0, delivered := 0, returned := 0, retTimes := [], roomTimes := [], boundaries := [],
    rearm := none, voidSince := 0, releaseAt := none, pendingShards := [], sealed_ := none, firstSeal := none, source := [], sourceFinal := false, liveSource := false,
    sourced := false, finalSeen := false, authCount := 0, authThresh := 0, encrypted := false,
    shardPorts := [], counts := [], windows := [], ahead := [], runs := [], reading := none, position := 0, ended := false, faults := [], pagesToSend := [], inFlight := [],
    ready := [], placed := [], nextPlace := 0, openRows := [], closedRows := [], xfer := none, finished := [], posted := [], doc := none, grams := [], srcCheck := none,
    keepDone := none, skip := [], known := [], busy := false, items := 0 }

def Pool.fresh : Pool :=
  { fn := 0, assigned := false, localNo := 0, block := 0, enabled := false, fault := false, stalled := false, refused := false,
    preempted := false, region := 0, ring := 0, refs := 0, buffers := 0, log2Size := 0, log2Ring := 0, ringHead := 0,
    ringCount := 0, cache := [], added := 0, waits := [], holders := [], stallSince := 0, faultCode := 0 }

def Port.fresh : Port :=
  { waiting := [], reads := [], writes := [], retired := [], failed := false, dead := false, slots := 0, rr := 0, sent := none, wdata := [],
    answers := [] }

def Bank.fresh : Bank :=
  { kind := 0, index := 0, ownerFn := 0, pending := none, clearing := false, marchFail := false, uncorr := false,
    refused := false, corr := 0, scrub := 0, zeroed := false, loaded := false }

def CStep.fresh : CStep := ⟨false, 0, false, 0, none, none⟩

/-- A bay at reset: PSTATE reads 0 (R45, BAY_STATUS), its clock register 0 (CLK_STEP). -/
def Bay.fresh : Bay :=
  { pstate := .run, mhz := 0, stopped := false, cstep := .fresh, clkState := 0, since := 0, out := [], acc := [], heat := [],
    held := [], coding := [], flushed := [], taken := 0 }

/-- A sample just dispatched. -/
def InFlight.fresh (index gen : Nat) : InFlight :=
  { index := index, bad := false, data := [], side := [], units := [], words := [], kind := 0, gone := [], got := 0, den := 1, want := 1, sideGot := 0,
    sideWant := 0, gen := gen }

/-- A unit tag with nothing known but its stream and sample. -/
def UnitTag.fresh (stream sampleIx gen : Nat) : UnitTag :=
  { stream := stream, sampleIx := sampleIx, ordinal := 0, kind := 0, len := 0, role := 0, width := 0, height := 0, chans := 0, vmax := 0,
    repeated := false, stage := 0, extra := 0, den := 1, sides := 0, gen := gen }

def LaneEnd.fresh : LaneEnd :=
  { nextSeq := 0, replay := [], tx := [], rxGood := 255, discarding := false, slots := [], returns := [], failSeq := 0, fails := 0,
    tags := [], spaced := 15 }

def Boundary.fresh : Boundary := ⟨false, false, []⟩

def Link.fresh : Link := ⟨false, false, none⟩

def Route.fresh : Route := ⟨[], [], [], false⟩

def LockGroup.fresh : LockGroup := ⟨0, 0, 0, [], 0, 0, 0, 0, 0⟩

def UnitErr.fresh : UnitErr := ⟨none, 0, 0⟩

def Therm.fresh : Therm :=
  { temp := 0, valid := false, seen := false, updAt := 0, t1 := 0, t2 := 0, level := 0, sprintUntil := none, coolSince := none,
    coolCritSince := none, critical := false, sensorBad := false, power := 0, energy := 0 }

def Frame.fresh : Frame :=
  { st := .reset, diesUp := [], fencedAny := false, marchFail := false, committed := false, bootCause := 0, fwVersion := 0,
    fwVerified := false, preTests := false, openMode := false, modeRefused := false, eventFn := 0, eventVector := 0,
    eventEn := false, ctrlRefused := false, walkThermal := false, walkCtrlEcc := false, walkFenced := false, walkFirst := 0 }

def Pins.fresh : Pins :=
  { porN := false, testMode := false, zeroise := false, zeroiseDone := false, marchDone := false, marchFail := false,
    dieIso := [], dieIsoDone := [] }

def Pacer.fresh : Pacer :=
  { time := 0, counting := false, capt := 0, offset := 0, syncSeen := false, holdover := false, refused := false }

def Telemetry.fresh : Telemetry :=
  { cnt := [], spare := [], shadow := [], copied := [], snapAt := 0, pending := false, lost := false, done := false, late := false,
    refused := false, fenced := false, seq := 0, cntSel := 0 }

def Dump.fresh : Dump :=
  { base := 0, size := 0, banks := false, st := 0, short := false, hdrFailed := false, section_ := 0, detail := 0, time := 0,
    prior := 0, second := 0, secondTime := 0, dir := [], stopped := false, hdrDue := false }

def Sec.fresh : Sec :=
  { cryptoError := false, errCause := 0, session := false, zeroising := false, zeroDone := false,
    selftestBusy := false, selftestDone := false, selftestAgain := false, authFail := false, authWait := 0, refused := false,
    nonce := List.replicate 32 0, auth := [],
    lastAuth := none, slots := [], slotGen := 0, kek := none, digests := [], signStage := [], signSlot := 0, keyPart := [],
    testTarget := 0, armed := none, drbg := none, noise := ⟨false, 0, false, 0, 0⟩, heatKey := none, sealGen := 0, heatValid := [],
    armPos := 0, kimpStatus := 0, kimpDone := 0 }

def Image.fresh : Image :=
  { addr := 0, force := false, st := .idle, kind := 0, detail := 0, sect := 0x7F, overrun := false, staged := none,
    committed := none, digest := List.replicate 48 0, graphDigests := [], pinned := [], stagedPins := [] }

def March.fresh : March :=
  { mode := false, bank := 0, busy := false, whole := false, done := false, fail := false, refused := false, stBank := 0,
    failCount := 0, runBank := 0, runMode := false }

/-- The work bays of one die of an M32 or L64 frame: 2 intake, 6 image, 2 video, 2 text, 2 judge, 2 pack
(R5 counts per 16 bays). DESIGN CHOICE (log 5): the order of the types within a die. -/
def dieBays (d : Nat) : List BayGen :=
  [1, 1, 2, 2, 2, 2, 2, 2, 3, 3, 4, 4, 5, 5, 6, 6].map (fun k => ⟨k, d⟩)

/-- A reference configuration of R5 with its number of dies: 16 bays and two memory ports on each (R69). DESIGN CHOICE (log 5): the
generated counts that the manual leaves open, the queue count among them: 4,096, as many as a QID can name (R212). -/
def Caps.reference (dies : Nat) : Caps :=
  { dies := dies, bays := (List.range dies).flatMap dieBays, portDie := (List.range dies).flatMap (fun d => [d, d]), relay := true,
    funcs := 64, queues := 4096, wires := [] }

/-- The S16 reference configuration (R5). -/
def Caps.s16 : Caps := Caps.reference 1

/-- The M32 reference configuration (R5). -/
def Caps.m32 : Caps := Caps.reference 2

/-- The L64 reference configuration (R5, R69). -/
def Caps.l64 : Caps := Caps.reference 4

/-- A shard of which nothing is written, whose items count from a number on. -/
def ShardRun.fresh (base : Nat) : ShardRun := ⟨base, 0, 64, [], 0, none, []⟩

/-- The frame with every register at its reset value, over given silicon and surroundings (R165). -/
def State.resetWith (c : Caps) (q : List Instr) (free : Nat) (m : Mem) (r : List RespRule) : State :=
  { caps := c, pending := q, freeCtr := free, mem := m, resp := r, frame := .fresh, pins := .fresh, pace := .fresh, tel := .fresh,
    host := ⟨[], [], []⟩, frameLog := .fresh, units := [], dump := .fresh, sec := .fresh, image := .fresh, bays := [],
    routes := [], bounds := [], banks := [], bankWords := [], march := .fresh, ports := [],
    running := ⟨false, [], none⟩, later := [],
    funcs := [], queues := [], streams := [], groups := [], pools := [], stallUs := 100, genCtr := 0, notify := ⟨[], [], [], none⟩,
    relay := ⟨[], 0, none⟩, therm := [], thermModel := [], heat := ⟨0, 0, 0⟩, wrappers := [] }

/-- The machine right after reset over given silicon: por_n low, STATE RESET, every register at its reset value (R165, R167). -/
def State.resetOn (c : Caps) : State := State.resetWith c [] 0 [] []

/-- The machine right after reset (R165, R167), of the configuration whose figures the manual gives (R5; log 5). -/
def State.reset : State := State.resetOn Caps.l64

/-! ## Why a command can stop -/

/-- Faults: the machine stops. -/
inductive Fault where
  /-- Raised by SILL_READ_BEAT, SILL_WRITE_RESPONSE and CLOCK_STEP_ACK when the licensee breaks a rule of the
  port (R122: a beat sent twice, outside the request, or the last flag before the other beats; R119, R127: POISON
  on a write, or a write response out of its class order; R151: an acknowledgement while no request stands) and
  the manual gives no effect. Safe: hardware may go on, the model does not. -/
  | portRule (port : Nat)
  deriving DecidableEq, Repr

/-- Refusals. -/
inductive Refusal where
  /-- The command has no meaning in this model. Raised by no meaning; kept for arms not yet written. Safe. -/
  | notModelled (mnemonic : String)
  deriving DecidableEq, Repr

end Sys2Proof.Machine
end

