-- ==== Sys2Proof/Machine/Table.lean ====
section
/-! DEFINITION. Tables by number and the canonical sparse memory. -/

namespace Sys2Proof.Machine

/-- The entry under a key. -/
def tblGet? : Tbl α → Nat → Option α
  | [], _ => none
  | (k, v) :: t, n => if k = n then some v else tblGet? t n

/-- The entry under a key, or a default. -/
def tblGetD (t : Tbl α) (n : Nat) (d : α) : α := (tblGet? t n).getD d

/-- Sets the entry under a key, keeping the keys rising. -/
def tblSet : Tbl α → Nat → α → Tbl α
  | [], n, a => [(n, a)]
  | (k, v) :: t, n, a => if n < k then (n, a) :: (k, v) :: t else if n = k then (n, a) :: t else (k, v) :: tblSet t n a

/-- Sets the entries under `vs.length` keys that follow each other. -/
def tblSetRun (t : Tbl α) (k : Nat) (vs : List α) : Tbl α :=
  t.filter (fun p => p.1 < k) ++ (vs.zipIdx k).map (fun p => (p.2, p.1)) ++ t.filter (fun p => k + vs.length ≤ p.1)

/-- Removes a key. -/
def tblDel (t : Tbl α) (n : Nat) : Tbl α := t.filter (fun p => p.1 != n)

/-- Applies a function to every entry. -/
def tblMap (f : Nat → α → α) (t : Tbl α) : Tbl α := t.map (fun p => (p.1, f p.1 p.2))

/-- The byte at an address; an unlisted address reads 0 (log 3). -/
def memRead : Mem → Nat → Byte
  | [], _ => 0
  | (k, b) :: t, a => if k = a then b else memRead t a

/-- Removes an address. -/
def memDrop : Mem → Nat → Mem
  | [], _ => []
  | (k, b) :: t, a => if k = a then t else (k, b) :: memDrop t a

/-- Lists a byte, keeping addresses rising. -/
def memPut : Mem → Nat → Byte → Mem
  | [], a, v => [(a, v)]
  | (k, b) :: t, a, v => if a < k then (a, v) :: (k, b) :: t else if a = k then (a, v) :: t else (k, b) :: memPut t a v

/-- Writes a byte, keeping the canonical form: writing 0 removes the entry. -/
def memWrite (m : Mem) (a : Nat) (v : Byte) : Mem := if v = 0 then memDrop m a else memPut m a v

/-- Writes bytes at rising 64-bit addresses. -/
def memWriteBytes : Mem → Nat → Bytes → Mem
  | m, _, [] => m
  | m, a, b :: t => memWriteBytes (memWrite m (a % 2 ^ 64) b) (a + 1) t

/-- Reads `n` bytes from 64-bit addresses. -/
def memReadBytes (m : Mem) (a : Nat) : Nat → Bytes
  | 0 => []
  | n + 1 => memRead m (a % 2 ^ 64) :: memReadBytes m (a + 1) n

/-- Addresses rise strictly above `lo`, and no entry is 0. -/
def memWfFrom : Nat → Mem → Bool
  | _, [] => true
  | lo, (k, b) :: t => decide (lo ≤ k) && b != 0 && memWfFrom (k + 1) t

/-- The canonical form of a memory: addresses strictly rising, no entry equal to 0. -/
def Mem.wf (m : Mem) : Bool := memWfFrom 0 m

end Sys2Proof.Machine
end

