-- ==== Sys2Proof/Machine/Ops.lean ====
section
/-! DEFINITION. The shared operations of every command: table accessors, counters (R546, R547), free values,
error records and logs (R520 to R525, R567), notifications (R141 to R145),
frame events (R561), host responses (R137). -/

namespace Sys2Proof.Machine

/-- What a command answers. -/
abbrev Out := Host.Outcome State Fault Refusal

/-! ## Status codes (R514) -/

abbrev stOk := 0x00
abbrev stMalformed := 0x01
abbrev stChainBroken := 0x02
abbrev stBadOpcode := 0x03
abbrev stAccessDenied := 0x04
abbrev stOverBound := 0x10
abbrev stDamaged := 0x11
abbrev stAuthFail := 0x12
abbrev stUtf8 := 0x13
abbrev stGrammarDead := 0x14
abbrev stUnsupported := 0x15
abbrev stTranslation := 0x20
abbrev stPoison := 0x21
abbrev stPreempt := 0x22
abbrev stVoid := 0x23
abbrev stAborted := 0x24
abbrev stEcc := 0x30
abbrev stCrypto := 0x31
abbrev stCtx := 0x32
abbrev stImageRejected := 0x33
abbrev stFatal := 0x3F

/-! ## Accessors: one home for every table entry -/

def State.func (s : State) (f : Nat) : Func := tblGetD s.funcs f .fresh
def State.setFunc (f : Nat) (v : Func) (s : State) : State := { s with funcs := tblSet s.funcs f v }
def State.modFunc (f : Nat) (g : Func → Func) (s : State) : State := s.setFunc f (g (s.func f))

/-- Key of a queue: function and local number. -/
def qKey (f q : Nat) : Nat := f * 512 + q

def State.queue (s : State) (f q : Nat) : Queue := tblGetD s.queues (qKey f q) .fresh
def State.setQueue (f q : Nat) (v : Queue) (s : State) : State := { s with queues := tblSet s.queues (qKey f q) v }
def State.modQueue (f q : Nat) (g : Queue → Queue) (s : State) : State := s.setQueue f q (g (s.queue f q))

/-- Key of a stream: function and local number (R219). -/
def sKey (f i : Nat) : Nat := f * 1024 + i

def State.stream (s : State) (f i : Nat) : Stream := tblGetD s.streams (sKey f i) .fresh
def State.setStream (f i : Nat) (v : Stream) (s : State) : State := { s with streams := tblSet s.streams (sKey f i) v }
def State.modStream (f i : Nat) (g : Stream → Stream) (s : State) : State := s.setStream f i (g (s.stream f i))

def State.bay (s : State) (k : Nat) : Bay := tblGetD s.bays k .fresh
def State.setBay (k : Nat) (v : Bay) (s : State) : State := { s with bays := tblSet s.bays k v }
def State.modBay (k : Nat) (g : Bay → Bay) (s : State) : State := s.setBay k (g (s.bay k))

def State.bank (s : State) (b : Nat) : Bank := tblGetD s.banks b .fresh
def State.setBank (b : Nat) (v : Bank) (s : State) : State := { s with banks := tblSet s.banks b v }
def State.modBank (b : Nat) (g : Bank → Bank) (s : State) : State := s.setBank b (g (s.bank b))

def State.port (s : State) (n : Nat) : Port := tblGetD s.ports n .fresh
def State.setPort (n : Nat) (v : Port) (s : State) : State := { s with ports := tblSet s.ports n v }
def State.modPort (n : Nat) (g : Port → Port) (s : State) : State := s.setPort n (g (s.port n))

def State.pool (s : State) (p : Nat) : Pool := tblGetD s.pools p .fresh
def State.setPool (p : Nat) (v : Pool) (s : State) : State := { s with pools := tblSet s.pools p v }
def State.modPool (p : Nat) (g : Pool → Pool) (s : State) : State := s.setPool p (g (s.pool p))

def State.group (s : State) (g : Nat) : LockGroup := tblGetD s.groups g .fresh
def State.setGroup (g : Nat) (v : LockGroup) (s : State) : State := { s with groups := tblSet s.groups g v }

def State.route (s : State) (r : Nat) : Route := tblGetD s.routes r .fresh
def State.setRoute (r : Nat) (v : Route) (s : State) : State := { s with routes := tblSet s.routes r v }

def State.boundary (s : State) (b : Nat) : Boundary := tblGetD s.bounds b .fresh
def State.setBoundary (b : Nat) (v : Boundary) (s : State) : State := { s with bounds := tblSet s.bounds b v }

def State.thermal (s : State) (d : Nat) : Therm := tblGetD s.therm d .fresh
def State.setThermal (d : Nat) (v : Therm) (s : State) : State := { s with therm := tblSet s.therm d v }
def State.modThermal (d : Nat) (g : Therm → Therm) (s : State) : State := s.setThermal d (g (s.thermal d))

/-- Pacer time (R539). -/
def State.now (s : State) : Nat := s.pace.time

/-- The bays of a list as a bit mask test. -/
def hasBit (mask i : Nat) : Bool := mask.testBit i

/-! ## Silicon -/

/-- Work bays of the block (CAP_BAYS). -/
def State.nBays (s : State) : Nat := s.caps.bays.length

/-- Bay type code of R562; 0 for an absent bay. -/
def State.bayKind (s : State) (k : Nat) : Nat := match s.caps.bays[k]? with
  | some b => b.kind
  | none => 0

/-- Die of a bay (R69); 0 for an absent bay. -/
def State.bayDie (s : State) (k : Nat) : Nat := match s.caps.bays[k]? with
  | some b => b.die
  | none => 0

/-- Banks of a bay (R256): 48 in a judge bay. -/
def banksOfKind (kind : Nat) : Nat := if kind = 0 then 0 else if kind = 5 then 48 else 16

def State.nPorts (s : State) : Nat := s.caps.portDie.length

/-- The intake bay of a sill port: the intake bays in ascending order serve the ports in order (R20, R69). -/
def State.intakeBay (s : State) (n : Nat) : Nat :=
  ((List.range s.nBays).filter (fun k => s.bayKind k == 1)).getD n 0

/-- Boundaries of a frame by dies: (boundary, die, die) (R70). -/
def boundariesOf (dies : Nat) : List (Nat × Nat × Nat) :=
  if dies = 4 then [(0, 0, 1), (1, 1, 2), (2, 2, 3), (3, 3, 0)] else if dies = 3 then [(0, 0, 1), (1, 1, 2)]
  else if dies = 2 then [(0, 0, 1)] else []

/-- All banks of the block as b = 48 × bay + bank (R256). -/
def State.allBanks (s : State) : List Nat :=
  (List.range s.nBays).flatMap (fun k => (List.range (banksOfKind (s.bayKind k))).map (fun j => 48 * k + j))

/-- Whether a bank exists. -/
def State.bankPresent (s : State) (b : Nat) : Bool := b % 48 < banksOfKind (s.bayKind (b / 48))

/-- Whether a bay is fenced (R45). -/
def State.fenced (s : State) (k : Nat) : Bool := (s.bay k).pstate == .fenced

/-! ## Counters (R546, R547, R569) -/

/-- Key of counter `c` of instance `i` of group `g`. -/
def cntKey (g i c : Nat) : Nat := g * 2 ^ 18 + i * 64 + c

/-- Adds `n` to a 64-bit counter. -/
def State.count (g i c n : Nat) (s : State) : State :=
  { s with tel := { s.tel with cnt := tblSet s.tel.cnt (cntKey g i c) ((tblGetD s.tel.cnt (cntKey g i c) 0 + n) % 2 ^ 64) } }

/-- Sets all counters of an instance of a group to 0 (R181, R546). -/
def State.clearCounts (g i : Nat) (s : State) : State :=
  { s with tel := { s.tel with cnt := s.tel.cnt.filter (fun p => p.1 / 64 != cntKey g i 0 / 64) } }

/-- Counter of group 2 that times a power state (R547). -/
def PState.counter : PState → Nat
  | .run => 0
  | .doze => 1
  | .park => 2
  | .fenced => 63

/-- A bay changes power state (R45); the time in the old one is counted. -/
def State.setPState (k : Nat) (p : PState) (s : State) : State :=
  let b := s.bay k
  let s := if b.pstate = .fenced then s else s.count 2 k b.pstate.counter (s.pace.time - b.since)
  s.setBay k { b with pstate := p, since := s.pace.time }

/-! ## Free values (log 13) -/

/-- Draws the next free value below `2 ^ w`. -/
def State.draw (w : Nat) (s : State) : Nat × State := (Config.freeValue s.freeCtr % 2 ^ w, { s with freeCtr := s.freeCtr + 1 })

/-! ## Error records and logs (R520 to R525, R567) -/

/-- The log ring of a function, or the frame log. -/
def State.logRing (s : State) : Option Nat → LogRing
  | none => s.frameLog
  | some f => (s.func f).log

def State.setLogRing (log : Option Nat) (r : LogRing) (s : State) : State := match log with
  | none => { s with frameLog := r }
  | some f => s.modFunc f (fun x => { x with log := r })

/-- Key of the error record of a unit: engines by bay, ports and bridges by index, others one each (R520). -/
def unitKey (unit index bay : Nat) : Nat :=
  unit * 256 + (if unit = 0 then bay else if unit = 1 ∨ unit = 5 then index else 0)

/-- The latest 256 entries (R523). -/
def lastN (n : Nat) (l : List α) : List α := l.drop (l.length - n)

/-- Adds up to a saturating bound. -/
def satAdd (m a b : Nat) : Nat := if m < a + b then m else a + b

/-- Gives a ring one more entry, numbered and kept on chip (R521, R523); lost while the ring is not written. -/
def LogRing.take (r : LogRing) (e : LogEntry) (lost : Bool) : LogRing :=
  { r with next := (r.next + 1) % 2 ^ 32, chip := lastN 256 (r.chip ++ [e]),
           lost := if lost then satAdd 0xFFFFFFFF r.lost 1 else r.lost,
           waiting := if lost then r.waiting else r.waiting ++ [e] }

/-- An error or event of a unit reaches a log (R520, R522 to R524). -/
def State.logTo (log : Option Nat) (code cls unit index bay detail : Nat) (s : State) : State :=
  let k := unitKey unit index bay
  let u := tblGetD s.units k .fresh
  let r := s.logRing log
  let nested := u.held.isSome
  if nested && 8 ≤ u.inFlight then
    { s with units := tblSet s.units k { u with overflow := satAdd 255 u.overflow 1 } }
  else
    let e : LogEntry := ⟨s.now, detail % 2 ^ 64, r.next, code, cls, nested, unit, index % 65536, bay, log.getD 255, u.overflow⟩
    let lost := r.base == 0 || r.fault
    let u' : UnitErr :=
      if lost then { u with overflow := 0 }
      else if nested then { u with inFlight := u.inFlight + 1, overflow := 0 } else ⟨some e, u.inFlight, 0⟩
    let s := (s.setLogRing log (r.take e lost))
    let s := { s with units := tblSet s.units k u' }
    match log with
    | some f => s.count 8 f 2 1
    | none => s

/-- A frame-log event (R567). -/
def State.logFrame (code cls unit index bay detail : Nat) (s : State) : State := s.logTo none code cls unit index bay detail

/-- An error that goes to a function's log and to the frame log: one capture, two entries (R522). -/
def State.logBoth (f code cls unit index bay detail : Nat) (s : State) : State :=
  let u := tblGetD s.units (unitKey unit index bay) .fresh
  let nested := u.held.isSome
  let full := nested && 8 ≤ u.inFlight
  let s := s.logTo (some f) code cls unit index bay detail
  if full then s else
    let r := s.frameLog
    { s with frameLog := r.take ⟨s.now, detail % 2 ^ 64, r.next, code, cls, nested, unit, index % 65536, bay, f, u.overflow⟩ (r.base == 0 || r.fault) }

/-- Releases the unit record or the in-flight place of an entry (R520, R524). -/
def State.releaseUnit (e : LogEntry) (s : State) : State :=
  let k := unitKey e.unit e.index e.bay
  let u := tblGetD s.units k .fresh
  { s with units := tblSet s.units k (if e.nested then { u with inFlight := u.inFlight - 1 } else { u with held := none }) }

/-- The 32 bytes of a log entry (R521). PHASE is 1 when m >> 8 is even. -/
def LogEntry.bytes (e : LogEntry) : Bytes :=
  natLe 8 e.time ++ natLe 8 e.detail ++ natLe 4 e.seq ++ natLe 1 e.code ++ natLe 1 e.cls ++
  natLe 1 (b2n (e.seq / 256 % 2 = 0) + 2 * b2n e.nested) ++ natLe 1 e.unit ++ natLe 2 e.index ++ natLe 1 e.bay ++ natLe 1 e.func ++
  natLe 1 e.overflow ++ zeros 3

/-! ## Notifications (R141 to R145, R561) -/

/-- The running command has to wait (log 4). Only the first reason counts. -/
def State.mustWait (m : Miss) (s : State) : State :=
  if s.running.on && s.running.miss.isNone then { s with running := { s.running with miss := some m } } else s

/-- Queues a MSG (R145): 256 wait; when full, one of the same function and vector gives way; else the sender waits. -/
def State.sendMsg (fn vector : Nat) (payload : Word) (s : State) : State :=
  let n := s.notify
  if n.msgs.length < 256 then { s with notify := { n with msgs := n.msgs ++ [⟨fn, vector, payload⟩] } }
  else if n.msgs.any (fun m => m.fn == fn && m.vector == vector) then
    { s with notify := { n with msgs := n.msgs.map (fun m => if m.fn == fn && m.vector == vector then { m with payload := payload } else m) } }
  else s.mustWait .blocked

/-- FRAME_STATUS.STATE as a number (R167). -/
def FrameSt.code : FrameSt → Nat
  | .reset => 0 | .boot => 1 | .selfTest => 2 | .ready => 3 | .running => 4 | .walk => 5 | .fatal => 6 | .bootFail => 7 | .testMode => 8

/-- What FRAME_STATUS.STATE shows (R167): TEST_MODE while test_mode is 1 and start-up runs again or has ended (log 23). -/
def State.shown (s : State) : FrameSt :=
  if s.pins.testMode then (match s.frame.st with
    | .boot | .selfTest | .ready | .bootFail => .testMode
    | x => x)
  else s.frame.st

/-- A frame event (R561, R145): while EVENT_EN is 1; an event of the same kind is replaced. -/
def State.frameEvent (kind detail : Nat) (s : State) : State :=
  if !s.frame.eventEn then s else
    let p : Word := BitVec.ofNat 32 (s.shown.code + kind * 16 + (detail % 65536) * 65536)
    let n := s.notify
    if n.events.any (fun e => e.kind == kind) then
      { s with notify := { n with events := n.events.map (fun e => if e.kind == kind then ⟨kind, p⟩ else e) } }
    else { s with notify := { n with events := n.events ++ [⟨kind, p⟩] } }

/-! ## Host responses (R136, R137) -/

/-- The answer of a host access. -/
def State.answer (rdata : Nat) (err : Bool) (s : State) : State :=
  { s with host := { s.host with rsp := [⟨BitVec.ofNat 32 rdata, err⟩] } }

/-- The number of an origin kind (R556). -/
def Origin.code : Origin → Nat
  | .function => 0 | .frame => 1 | .management => 2 | .reserved => 3

/-! ## The committed image -/

/-- A graph record of the committed image (R224). -/
def State.graph? (s : State) (g : Nat) : Option Graph := do
  let c ← s.image.committed
  c.graphs.find? (fun r => r.num == g)

/-- Profiles bound to a graph: its BAYBIND records with their profile bodies (R92, R94). -/
def ImgCfg.bound (c : ImgCfg) (g : Nat) : List (BayBind × Profile) :=
  c.binds.filterMap (fun b => if b.graph = g then (c.profiles.find? (fun p => p.num = b.profile)).map (fun p => (b, p)) else none)

/-- The profile body bound to a graph whose engine code is `e`, with its bay. -/
def State.profileOf (s : State) (g e : Nat) : Option (Nat × Bytes) := do
  let c ← s.image.committed
  let (b, p) ← (c.bound g).find? (fun x => x.1.engine == e)
  return (b.bay, p.body)

/-! ## Streams and queues in number order -/

/-- Open streams as (function, local number, stream). -/
def State.openStreams (s : State) : List (Nat × Nat × Stream) :=
  (s.streams.filter (fun p => p.2.st != .free)).map (fun p => (p.1 / 1024, p.1 % 1024, p.2))

/-- Queues as (function, local number, queue). -/
def State.allQueues (s : State) : List (Nat × Nat × Queue) := s.queues.map (fun p => (p.1 / 512, p.1 % 512, p.2))

/-- Folds an operation over a list. -/
def State.forEach (l : List α) (f : α → State → State) (s : State) : State := l.foldl (fun s a => f a s) s

/-- REFUSED of SEC_STATUS: a write that needs a session came without one (R494). -/
def State.secRefuse (s : State) : State := { s with sec := { s.sec with refused := true } }

end Sys2Proof.Machine
end

