-- ==== Sys2Proof/Machine/Routes.lean ====
section
/-! DEFINITION. Routes over dies (R70, R94), the ends of scarf lanes (R75 to R82), and the handshake of a link (R49 to R53). A
route is modelled with one handshake link per die it runs on (log 40): link 0 from the tenon, one more behind each crossing, the
last one into the mortise FIFO. -/

namespace Sys2Proof.Machine

/-! ## Where a route runs -/

/-- The committed record of a route. -/
def State.routeCfg? (s : State) (r : Nat) : Option RouteCfg := s.image.committed.bind (fun c => c.routes.find? (fun x => x.route == r))

/-- The boundary between two dies with the side of the first one: false for the die that R70 names first. -/
def boundaryOf (dies d e : Nat) : Option (Nat × Bool) :=
  match (boundariesOf dies).find? (fun b => (b.2.1 == d && b.2.2 == e) || (b.2.1 == e && b.2.2 == d)) with
  | some (b, x, _) => some (b, x != d)
  | none => none

/-- A crossing of a route: boundary, sending side, lane, credits granted. -/
structure Crossing where
  bound : Nat
  side : Bool
  lane : Nat
  credits : Nat
  deriving DecidableEq, Repr

/-- The crossings of a route in order (R70, R94). -/
def State.crossings (s : State) (c : RouteCfg) : List Crossing :=
  let a := s.bayDie c.tenonBay
  let z := s.bayDie c.mortiseBay
  let hop := fun (d e lane cr : Nat) => match boundaryOf s.caps.dies d e with
    | some (b, side) => [Crossing.mk b side lane cr]
    | none => []
  if c.crossings = 0 then [] else if c.crossings = 1 then hop a z c.lane1 c.credits1
  else hop a c.through c.lane1 c.credits1 ++ hop c.through z c.lane2 c.credits2

/-- A route at rest, as armed at a commit (R64, R114): every link idle, every FIFO empty, all credits at the sender. -/
def State.armRoute (s : State) (c : RouteCfg) : Route :=
  let xs := s.crossings c
  ⟨List.replicate (xs.length + 1) .fresh, [], xs.map (·.credits), false⟩

/-- Key of a lane end: side and lane. -/
def laneKey (side : Bool) (lane : Nat) : Nat := b2n side * 8 + lane

def State.laneEnd (s : State) (b : Nat) (side : Bool) (lane : Nat) : LaneEnd := tblGetD (s.boundary b).lanes (laneKey side lane) .fresh

def State.setLaneEnd (b : Nat) (side : Bool) (lane : Nat) (v : LaneEnd) (s : State) : State :=
  let x := s.boundary b
  s.setBoundary b { x with lanes := tblSet x.lanes (laneKey side lane) v }

/-! ## Links (R49 to R53) -/

def Route.link (r : Route) (j : Nat) : Link := r.links.getD j .fresh

def Route.setLink (j : Nat) (l : Link) (r : Route) : Route := { r with links := r.links.set j l }

/-- Idle: req equals ack (R51). -/
def Link.idle (l : Link) : Bool := l.req == l.ack

/-- The sender drives a beat and toggles req (R51, phases 1 to 3). -/
def Link.drive (b : Beat) (l : Link) : Link := ⟨!l.req, l.ack, some b⟩

/-- The receiver toggles ack (R51, phase 4). -/
def Link.accept (l : Link) : Link := ⟨l.req, l.req, none⟩

/-- Behind crossing j - 1, the oldest beat of the route in the bridge's slots is driven onto link j when it is idle.
Its slot stays taken until the next stage accepts it (R53, R78). -/
def State.driveLink (r j : Nat) (x : Crossing) (s : State) : State :=
  let y := s.route r
  let e := s.laneEnd x.bound (!x.side) x.lane
  match e.slots.find? (fun p => p.1 == r) with
  | some (_, b) => if (y.link j).idle then s.setRoute r (y.setLink j ((y.link j).drive b)) else s
  | none => s

/-- The stage behind link j accepts its beat (R51). Behind a crossing this frees a bridge slot, and a credit is to be
returned (R78). -/
def State.acceptLink (r j : Nat) (s : State) : State :=
  let y := s.route r
  let s := s.setRoute r (y.setLink j (y.link j).accept)
  match j, s.routeCfg? r with
  | k + 1, some c => match (s.crossings c)[k]? with
    | some x =>
      let e := s.laneEnd x.bound (!x.side) x.lane
      match e.slots.find? (fun p => p.1 == r) with
      | some p =>
        (s.setLaneEnd x.bound (!x.side) x.lane { e with slots := e.slots.erase p, returns := e.returns ++ [(r, 1)] }).driveLink r (k + 1) x
      | none => s
    | none => s
  | _, _ => s

/-! ## Bays at work -/

/-- A bay's engines work and its tenons launch: it is in RUN with its clock going (R45, R151). -/
def State.bayRuns (s : State) (k : Nat) : Bool := (s.bay k).pstate == .run && !(s.bay k).stopped

/-- Something waits at a mortise of a bay: a transition has arrived, or its FIFO holds beats (R45, R47). -/
def State.mortiseBusy (s : State) (k : Nat) : Bool := match s.image.committed with
  | some c => c.routes.any (fun r => r.mortiseBay == k &&
      (let y := s.route r.route; !y.fifo.isEmpty || !(y.links.getLast?.getD .fresh).idle))
  | none => false

/-! ## Flits in flight -/

/-- Fields of a flit. -/
def flitType (f : BitVec 512) : Nat := fld f.toNat 0 2
def flitSeq (f : BitVec 512) : Nat := fld f.toNat 2 8
def flitAck (f : BitVec 512) : Nat := fld f.toNat 10 8
def flitAckValid (f : BitVec 512) : Bool := bitOf f.toNat 18
def flitCrcGood (f : BitVec 512) : Bool := fld f.toNat 480 32 == (crc32c (natLe 60 (fld f.toNat 0 480))).toNat

/-- The crossing of a route that a lane carries in one direction: its index and the crossing. -/
def State.crossingAt (s : State) (b : Nat) (side : Bool) (lane route : Nat) : Option (Nat × Crossing) := do
  let c ← s.routeCfg? route
  let p ← ((s.crossings c).zipIdx).find? (fun p => p.1.bound == b && p.1.side == side && p.1.lane == lane)
  return (p.2, p.1)

/-- Beats in the receive slots of a lane end. The oldest one of a route whose next link is busy has been latched by the stage
behind that link (R51, phase 3) and is held there; it is not among them. -/
def State.slotsHeld (s : State) (b : Nat) (side : Bool) (lane : Nat) : Nat :=
  let e := s.laneEnd b side lane
  let latched := (e.slots.map (·.1)).eraseDups.filter (fun r => match s.crossingAt b (!side) lane r with
    | some (j, _) => !((s.route r).link (j + 1)).idle
    | none => false)
  e.slots.length - latched.length

/-! ## Boundaries that are up, routes that are idle (R64, R84, R85) -/

/-- The boundaries of a die (R70). -/
def State.boundariesAt (s : State) (d : Nat) : List Nat :=
  ((boundariesOf s.caps.dies).filter (fun x => x.2.1 == d || x.2.2 == d)).map (·.1)

/-- Whether a boundary is up: its link is up, it has not gone down, and no die of it is isolated by dieD_iso (R84, R85). -/
def State.boundaryUp (s : State) (b : Nat) : Bool :=
  (s.boundary b).linkUp && !(s.boundary b).down && !s.pins.dieIso.any (fun d => (s.boundariesAt d).contains b)

/-- Every stage of a route and its mortise FIFO are empty. What a fenced bay holds in its FIFO, and a beat in front of a boundary
that is down, move no more and do not count (log 107). -/
def State.stagesEmpty (s : State) (r : Nat) (c : RouteCfg) : Bool :=
  let y := s.route r
  let xs := s.crossings c
  let held := fun (x : Crossing) =>
    (s.laneEnd x.bound (!x.side) x.lane).slots.any (fun p => p.1 == r) ||
      (s.laneEnd x.bound x.side x.lane).replay.any (fun f => fld f.flit.toNat 19 9 == r && flitType f.flit == 1 && decide
        ((s.laneEnd x.bound x.side x.lane).tags.any (fun t => t.1 == f.seq)))
  let stuck := fun (j : Nat) => match xs[j]? with
    | some x => !s.boundaryUp x.bound
    | none => false
  (y.fifo.isEmpty || s.fenced c.mortiseBay) && y.links.zipIdx.all (fun p => p.1.idle || stuck p.2) && !xs.any held

/-- A route has nothing to send, every stage and the mortise FIFO are empty (R64). A fenced tenon sends nothing (R67). -/
def State.routeIdle (s : State) (r : Nat) (c : RouteCfg) : Bool :=
  ((tblGetD (s.bay c.tenonBay).out c.tenonPort []).isEmpty || s.fenced c.tenonBay) && s.stagesEmpty r c

/-- Every committed route into and out of a bay is idle (R48). -/
def State.bayRoutesIdle (s : State) (k : Nat) : Bool := ((s.image.committed.map (·.routes)).getD []).all (fun r =>
  !(r.tenonBay == k || r.mortiseBay == k) || s.routeIdle r.route r)

end Sys2Proof.Machine
end

