-- ==== Sys2Proof/Machine/Clocks.lean ====
section
/-! DEFINITION. Requests for clock steps, and the power states they lead to (R43, R45, R151, R152, R553). -/

namespace Sys2Proof.Machine

/-! ## Clock steps (R151, R152, R553) -/

/-- The sustained clock of a bay in MHz (R93); 64 is the control bay. -/
def State.sustained (s : State) (k : Nat) : Nat := match s.image.committed with
  | some c => if k = 64 then c.platform.ctrlMhz else c.platform.bayMhz.getD k 0
  | none => 0

/-- STATE of CLK_STEP for a clock. -/
def State.clockState (s : State) (k mhz : Nat) : Nat :=
  if mhz = 0 then 3 else if s.sustained k < mhz then 1 else if mhz < s.sustained k then 2 else 0

/-- The bay stops launching beats, gates its clock and raises cstepK_req (R151). One step at a time, at most one per
100 µs; a later target waits for the next step (R152, R553). -/
def State.requestStep (k mhz : Nat) (s : State) : State :=
  let b := s.bay k
  let c := b.cstep
  if b.pstate = .fenced then s
  else if c.req || c.ack || (match c.last with
      | some t => decide (s.now < t + 100000)
      | none => false) then s.setBay k { b with cstep := { c with next := some mhz } }
  else s.setBay k { b with stopped := true, cstep := ⟨true, mhz, false, s.now, none, some s.now⟩ }

/-- A target that waits is applied once the channel is idle and 100 µs have passed (R553). -/
def State.nextStep (k : Nat) (s : State) : State := match (s.bay k).cstep.next with
  | some m => s.requestStep k m
  | none => s

/-- Asks for a clock unless it is in force or under way (R553: not in PARK or FENCED). -/
def State.wantClock (k mhz : Nat) (s : State) : State :=
  let b := s.bay k
  let c := b.cstep
  if b.pstate = .fenced ∨ b.pstate = .park then s
  else if c.req || c.ack then (if c.mhz = mhz then s.setBay k { b with cstep := { c with next := none } } else s.requestStep k mhz)
  else if b.mhz = mhz then s.setBay k { b with cstep := { c with next := none } } else s.requestStep k mhz

/-- A graph of the committed image binds the bay (R45). -/
def State.bayBound (s : State) (k : Nat) : Bool := match s.image.committed with
  | some c => c.binds.any (fun b => b.bay == k)
  | none => false

/-- A bay that no graph binds is sent to PARK: its clock is stopped by the handshake (R43, R45, R151). One in PARK that is on its way to
a clock is sent back; a clock that only waits to be asked for is asked for no more. -/
def State.parkBay (k : Nat) (s : State) : State :=
  let b := s.bay k
  let c := b.cstep
  if b.pstate = .fenced then s
  else if b.pstate = .park ∧ (!(c.req || c.ack) ∨ c.mhz = 0) then s.setBay k { b with cstep := { c with next := none } }
  else s.requestStep k 0

/-- The power state of a work bay whose clock step is done (R45, R46, R48): stopped is PARK while no graph binds the bay and every route of
it is idle, and a bay in PARK with a clock again is in RUN. One that may not be parked yet is stopped once more later; meanwhile it only
waits. -/
def State.steppedTo (k target : Nat) (s : State) : State :=
  let b := s.bay k
  if 64 ≤ k ∨ b.pstate = .fenced then s
  else if target = 0 then
    (if s.bayBound k then s
     else if s.bayRoutesIdle k then s.setPState k .park
     else s.setBay k { b with cstep := { b.cstep with next := b.cstep.next.or (some 0) } })
  else if b.pstate = .park then s.setPState k .run
  else s

end Sys2Proof.Machine
end

