-- ==== Sys2Proof/Machine/Fp.lean ====
section
/-! DEFINITION. IEEE 754 binary32 arithmetic (R316): every operation exact in integers, then one rounding to
nearest with ties to even; subnormals kept. -/

namespace Sys2Proof.Machine

/-- A value of a binary32 pattern: NaN, an infinity, or ± m × 2^e. -/
inductive FpV where
  | nan
  | inf (neg : Bool)
  | fin (neg : Bool) (m : Nat) (e : Int)
  deriving DecidableEq, Repr

/-- The value of a pattern. -/
def fpVal (x : Fp) : FpV :=
  let v := x.toNat
  let neg := bitOf v 31
  let ex := fld v 23 8
  let m := fld v 0 23
  if ex = 255 then (if m = 0 then .inf neg else .nan)
  else if ex = 0 then .fin neg m (-149) else .fin neg (m + 2 ^ 23) (ex - 150)

/-- A sign and a magnitude. -/
def fpSign (neg : Bool) (mag : Nat) : Fp := BitVec.ofNat 32 (b2n neg * 2 ^ 31 + mag)

def fpInf (neg : Bool) : Fp := fpSign neg 0x7F800000

/-- A NaN of an operation on two patterns; its sign and payload are open (log 13). -/
def fpNan (a b : Fp) : Fp := 0x7FC00000 ||| (Config.nanBits a b &&& 0x803FFFFF)

/-- `m / 2^n` rounded to nearest, ties to even. -/
def shiftRne (m n : Nat) : Nat :=
  let q := m / 2 ^ n
  let r := 2 * (m % 2 ^ n)
  if r < 2 ^ n then q else if 2 ^ n < r then q + 1 else q + q % 2

/-- ± m × 2^e rounded to binary32. -/
def fpRound (neg : Bool) (m : Nat) (e : Int) : Fp :=
  if m = 0 then fpSign neg 0 else
    let q : Int := max (-149) ((Nat.log2 m : Int) + e - 23)
    let sh := q - e
    let m' := if sh ≤ 0 then m * 2 ^ (-sh).toNat else shiftRne m sh.toNat
    let mag := (q + 149).toNat * 2 ^ 23 + m'
    if 0x7F800000 ≤ mag then fpInf neg else fpSign neg mag

/-- ± m × 2^e as a signed integer over a smaller exponent. -/
def scaled (neg : Bool) (m : Nat) (e lo : Int) : Int :=
  let v : Int := m * 2 ^ (e - lo).toNat
  if neg then -v else v

def fpNeg (a : Fp) : Fp := a ^^^ 0x80000000

def fpAdd (a b : Fp) : Fp :=
  match fpVal a, fpVal b with
  | .nan, _ => fpNan a b
  | _, .nan => fpNan a b
  | .inf s, .inf t => if s = t then a else fpNan a b
  | .inf _, _ => a
  | _, .inf _ => b
  | .fin s m e, .fin t n f =>
    let lo := min e f
    let v := scaled s m e lo + scaled t n f lo
    if v = 0 then fpSign (s && t) 0 else fpRound (decide (v < 0)) v.natAbs lo

def fpSub (a b : Fp) : Fp := fpAdd a (fpNeg b)

def fpMul (a b : Fp) : Fp :=
  match fpVal a, fpVal b with
  | .nan, _ => fpNan a b
  | _, .nan => fpNan a b
  | .inf s, .inf t => fpInf (s != t)
  | .inf s, .fin t n _ => if n = 0 then fpNan a b else fpInf (s != t)
  | .fin s m _, .inf t => if m = 0 then fpNan a b else fpInf (s != t)
  | .fin s m e, .fin t n f => fpRound (s != t) (m * n) (e + f)

def fpDiv (a b : Fp) : Fp :=
  match fpVal a, fpVal b with
  | .nan, _ => fpNan a b
  | _, .nan => fpNan a b
  | .inf _, .inf _ => fpNan a b
  | .inf s, .fin t _ _ => fpInf (s != t)
  | .fin s _ _, .inf t => fpSign (s != t) 0
  | .fin s m e, .fin t n f =>
    if n = 0 then (if m = 0 then fpNan a b else fpInf (s != t))
    else
      let w := m * 2 ^ 64
      fpRound (s != t) (2 * (w / n) + b2n (w % n ≠ 0)) (e - f - 65)

/-- Integer square root of a number below 4^n, bit by bit. -/
def isqrt : Nat → Nat → Nat
  | 0, _ => 0
  | n + 1, v =>
    let r := 2 * isqrt n (v / 4)
    if (r + 1) * (r + 1) ≤ v then r + 1 else r

def fpSqrt (a : Fp) : Fp :=
  match fpVal a with
  | .nan => fpNan a a
  | .inf neg => if neg then fpNan a a else a
  | .fin neg m e =>
    if m = 0 then a
    else if neg then fpNan a a
    else
      let odd := decide (e % 2 ≠ 0)
      let v := m * (if odd then 2 else 1) * 2 ^ 60
      let r := isqrt 50 v
      fpRound false (2 * r + b2n (r * r ≠ v)) ((if odd then e - 1 else e) / 2 - 31)

/-- An integer rounded to binary32. -/
def fpOfInt (v : Int) : Fp := fpRound (decide (v < 0)) v.natAbs 0

def fpOfNat (v : Nat) : Fp := fpRound false v 0

/-- Less than; false when either is NaN. -/
def fpLt (a b : Fp) : Bool :=
  match fpVal a, fpVal b with
  | .nan, _ => false
  | _, .nan => false
  | .inf s, .inf t => s && !t
  | .inf s, _ => s
  | _, .inf t => !t
  | .fin s m e, .fin t n f => let lo := min e f; decide (scaled s m e lo < scaled t n f lo)

/-- Less than or equal; false when either is NaN. -/
def fpLe (a b : Fp) : Bool :=
  match fpVal a, fpVal b with
  | .nan, _ => false
  | _, .nan => false
  | _, _ => !fpLt b a

/-- Equal values; zeros of both signs are equal. -/
def fpEq (a b : Fp) : Bool := fpLe a b && fpLe b a

def fpIsNan (a : Fp) : Bool := fpVal a == .nan

/-- Largest integer not above a finite value; 0 for others. -/
def fpFloor (a : Fp) : Int :=
  match fpVal a with
  | .fin neg m e => if 0 ≤ e then scaled neg m e 0 else (if neg then -(m : Int) else m) / (2 ^ (-e).toNat : Int)
  | _ => 0

/-- Nearest integer to a finite value, ties to even; 0 for others. -/
def fpToInt (a : Fp) : Int :=
  match fpVal a with
  | .fin neg m e =>
    let v : Nat := if 0 ≤ e then m * 2 ^ e.toNat else shiftRne m (-e).toNat
    if neg then -(v : Int) else v
  | _ => 0

/-- Nearest integer with infinities saturated, within [lo, hi]; NaN gives 0. -/
def fpClampInt (a : Fp) (lo hi : Int) : Int :=
  match fpVal a with
  | .nan => 0
  | .inf neg => if neg then lo else hi
  | .fin _ _ _ => max lo (min hi (fpToInt a))

def fpMax (a b : Fp) : Fp := if fpLt a b then b else a
def fpMin (a b : Fp) : Fp := if fpLt b a then b else a

/-- A clamp to [lo, hi]; a NaN stays. -/
def fpClamp (a lo hi : Fp) : Fp := if fpLt a lo then lo else if fpLt hi a then hi else a

/-! ## Correctly rounded functions (R396, R447) -/

/-- exp of a finite value as a fixed-point number with 256 fraction bits: the Taylor series at x / 256, squared eight
times. The error is far below what a rounding to 24 bits can see. -/
def expFixed (neg : Bool) (m : Nat) (e : Int) : Nat :=
  let x : Int := if 0 ≤ e + 248 then scaled neg m e (-248) else 0
  let one : Int := 2 ^ 256
  let t := (List.range 60).foldl (fun (p : Int × Int) (n : Nat) => let u := p.2 * x / (one * ((n : Int) + 1)); (p.1 + u, u)) (one, one)
  ((List.range 8).foldl (fun (v : Int) _ => v * v / one) t.1).toNat

/-- exp, correctly rounded. -/
def fpExp (a : Fp) : Fp :=
  match fpVal a with
  | .nan => fpNan a a
  | .inf neg => if neg then 0 else a
  | .fin neg m e =>
    if m = 0 then 0x3F800000
    else if fpLt 0x42C80000 a then fpInf false
    else if fpLt a 0xC2DC0000 then 0
    else fpRound false (expFixed neg m e) (-256)

/-- tanh, correctly rounded: below 2^-13 it rounds to its argument, above 9.5 to 1. -/
def fpTanh (a : Fp) : Fp :=
  match fpVal a with
  | .nan => fpNan a a
  | .inf neg => fpSign neg 0x3F800000
  | .fin neg m e =>
    let mag : Fp := a &&& 0x7FFFFFFF
    if fpLt mag 0x39000000 then a
    else if fpLt 0x41180000 mag then fpSign neg 0x3F800000
    else
      let v := expFixed false m (e + 1)
      let one := 2 ^ 256
      fpRound neg (2 * ((v - one) * 2 ^ 64 / (v + one)) + 1) (-65)

/-- 1 / √x, correctly rounded. -/
def fpRsqrt (a : Fp) : Fp :=
  match fpVal a with
  | .nan => fpNan a a
  | .inf neg => if neg then fpNan a a else 0
  | .fin neg m e =>
    if m = 0 then fpInf neg
    else if neg then fpNan a a
    else
      let m' := if e % 2 = 0 then m else 2 * m
      let e' := if e % 2 = 0 then e else e - 1
      let r := isqrt 62 (2 ^ 120 / m')
      fpRound false (2 * r + b2n (r * r * m' ≠ 2 ^ 120)) (-61 - e' / 2)

/-! ## Narrower formats -/

/-- A binary16 value, widened exactly. -/
def fpOfHalf (v : Nat) : Fp :=
  let neg := bitOf v 15
  let ex := fld v 10 5
  let m := fld v 0 10
  if ex = 31 then (if m = 0 then fpInf neg else fpSign neg (0x7F800000 + m * 2 ^ 13))
  else if ex = 0 then fpRound neg m (-24) else fpRound neg (m + 2 ^ 10) (ex - 25)

/-- Stochastic rounding to an integer (R289) with the nibble of the element. -/
def fpStochInt (nib : Nat) (a : Fp) : Int :=
  match fpVal a with
  | .fin neg m e =>
    let q : Nat := if 0 ≤ e then m * 2 ^ e.toNat else
      let k := (-e).toNat
      let t := shiftRne (16 * (m % 2 ^ k)) k
      m / 2 ^ k + b2n (nib < t)
    if neg then -(q : Int) else q
  | _ => 0

/-- A bfloat16 value, widened exactly. -/
def fpOfBf16 (v : Nat) : Fp := BitVec.ofNat 32 (v * 2 ^ 16)

/-- A sum in list order, from its first term. -/
def fpSum : List Fp → Fp
  | [] => 0
  | x :: t => t.foldl fpAdd x

end Sys2Proof.Machine
end

