-- ==== Sys2Proof/Machine/Ecc.lean ====
section
/-! DEFINITION. The 144/128 code of the beats and the banks (R56): 36 symbols of four bits, any one symbol corrected, any two
detected. The manual gives its strength and not its check equations: those are free among the linear codes of that strength
(log 10). -/

namespace Sys2Proof.Machine

/-- The product of two elements of the field of 16 elements, modulo x^4 + x + 1. -/
def nibMul (a b : Nat) : Nat :=
  let step := fun (p : Nat × Nat) (i : Nat) => (if b.testBit i then p.1 ^^^ p.2 else p.1, if p.2.testBit 3 then (p.2 * 2) ^^^ 19 else p.2 * 2)
  ((List.range 4).foldl step (0, a)).1

/-- Four nibbles, each times one element of the field. -/
def nibScale (e v : Nat) : Nat := (List.range 4).foldl (fun n i => n + nibMul e (fld v (4 * i) 4) * 16 ^ i) 0

/-- One symbol column for each data symbol: with the four unit columns, 36 points of the space over 16 elements of which no three
lie on a line. They give a code of the strength of R56, for a choice that has it not. -/
def capColumns : List Nat :=
  [4368, 12816, 8976, 33808, 38160, 46608, 42768, 4353, 12801, 8961, 33793, 38145, 46593, 42753, 4113, 273, 8721, 13073, 37905, 34065,
   42513, 46865, 16417, 20769, 29217, 25377, 50209, 54561, 63009, 59169, 20529, 16689]

/-- The check bits that each data bit contributes, for those columns. -/
def capBits : List Nat := capColumns.flatMap (fun v => (List.range 4).map (fun i => nibScale (2 ^ i) v))

/-- The check bits of a wrong pattern of one symbol of four data bits. -/
def symSyndrome (bits : List Nat) (e : Nat) : Nat := (bits.zipIdx).foldl (fun n p => if e.testBit p.2 then n ^^^ p.1 else n) 0

/-- The syndromes of every wrong pattern of every symbol: 32 data symbols, then 4 symbols of check bits. -/
def syndromes (bits : List Nat) : List (List Nat) :=
  (List.range 32).map (fun j => (List.range 15).map (fun e => symSyndrome ((bits.drop (4 * j)).take 4) (e + 1))) ++
  (List.range 4).map (fun j => (List.range 15).map (fun e => (e + 1) * 16 ^ j))

/-- A set of 16-bit numbers as a bit mask. -/
def maskOf (l : List Nat) : Nat := l.foldl (fun m x => m ||| 2 ^ x) 0

/-- No two wrong patterns of different symbols add up to a syndrome in the mask, nor to 0. -/
def pairsClear (mask : Nat) : List (List Nat) → Bool
  | [] => true
  | l :: t => l.all (fun a => t.all (fun m => m.all (fun b => a != b && !mask.testBit (a ^^^ b)))) && pairsClear mask t

/-- A linear code has the strength of R56: no wrong pattern of one symbol goes unseen, and none of two symbols looks like one of
another symbol, or like none. -/
def eccStrong (bits : List Nat) : Bool :=
  let syn := syndromes bits
  syn.all (fun l => l.all (fun x => x != 0 && decide (x < 65536))) && pairsClear (maskOf syn.flatten) syn

/-- The check bits of each data bit: the silicon's own, which have the strength of R56. -/
def eccBits : List Nat :=
  let free := (List.range 128).map (fun i => (Config.eccColumn i).toNat)
  if eccStrong free then free else capBits

/-- The 16 check bits of a codeword (R56). -/
def eccCheck (d : BitVec 128) : BitVec 16 :=
  BitVec.ofNat 16 ((eccBits.zipIdx).foldl (fun n p => if d.getLsbD p.2 then n ^^^ p.1 else n) 0)

/-- Which single symbol of the data is wrong, when one is: all (symbol, pattern) pairs are tried. -/
def fixData (d : BitVec 128) (c : BitVec 16) : Option (BitVec 128) :=
  (List.range 480).findSome? (fun n =>
    let d' := d ^^^ BitVec.ofNat 128 ((n % 15 + 1) * 2 ^ (4 * (n / 15)))
    if eccCheck d' = c then some d' else none)

/-- A codeword as its consumer reads it: its data and the symbols corrected, or none when it is uncorrectable. -/
def readCodeword (d : BitVec 128) (c : BitVec 16) : Option (BitVec 128 × Nat) :=
  let x := (eccCheck d ^^^ c).toNat
  if x = 0 then some (d, 0)
  else if ((List.range 4).filter (fun j => fld x (4 * j) 4 != 0)).length = 1 then some (d, 1)
  else (fixData d c).map (fun d' => (d', 1))

end Sys2Proof.Machine
end

