-- ==== Sys2Proof/Machine/Banks.lean ====
section
/-! DEFINITION. The words of the banks: how they are stored, checked and written (R256, R257), what the bank plan puts into them
(R91, R104, R378, R399), and the accesses of a march (R266, R267). -/

namespace Sys2Proof.Machine

/-! ## Stored words (R256, R257) -/

/-- A codeword with correct check bits. -/
def codewordOf (d : BitVec 128) : Codeword := ⟨d, eccCheck d⟩

/-- A codeword as it is read: corrected, with recomputed check bits, and the symbols corrected; none when it is uncorrectable. -/
def Codeword.read (c : Codeword) : Option (Codeword × Nat) := (readCodeword c.data c.check).map (fun p => (codewordOf p.1, p.2))

/-- The stored form of 64 bytes: bytes 16c to 16c + 15 are codeword c. -/
def wordOf (bs : Bytes) : List Codeword := (List.range 4).map (fun c => codewordOf (BitVec.ofNat 128 (leNat (bytesAt bs (16 * c) 16))))


/-- A word as its reader takes it: every codeword corrected, and the symbols corrected; none when one is uncorrectable. -/
def readWord : List Codeword → Option (List Codeword × Nat)
  | [] => some ([], 0)
  | c :: t => match c.read, readWord t with
    | some (c, n), some (l, m) => some (c :: l, n + m)
    | _, _ => none

/-- The data bytes of a word as its reader takes them; of an uncorrectable one, what stands there. -/
def dataOf (w : List Codeword) : Bytes := (((readWord w).getD (w, 0)).1).flatMap (fun c => natLe 16 c.data.toNat)

/-- A word that always reads back as uncorrectable: two symbols of every codeword's check bits are wrong (R257). -/
def spoilt (w : List Codeword) : List Codeword := w.map (fun c => ⟨c.data, eccCheck c.data ^^^ 0x11⟩)

/-- The word of zeros; its check bits are zeros as well (R266). -/
def zeroWord : List Codeword := List.replicate 4 ⟨0, 0⟩

/-- The 576 stored bits of a word: codeword c takes bits 144c to 144c + 143, its check bits the upper 16 (log 32). -/
def rawOf (w : List Codeword) : BitVec 576 :=
  BitVec.ofNat 576 (w.reverse.foldl (fun n c => n * 2 ^ 144 + (c.check.toNat * 2 ^ 128 + c.data.toNat)) 0)

/-- A word from its stored bits. -/
def ofRaw (r : BitVec 576) : List Codeword := (List.range 4).map (fun c => ⟨r.extractLsb' (144 * c) 128, r.extractLsb' (144 * c + 128) 16⟩)

/-- The number of a word among all words of the block. -/
def wordKey (b w : Nat) : Nat := b * 4096 + w

def State.setWord (b w : Nat) (v : List Codeword) (s : State) : State := { s with bankWords := tblSet s.bankWords (wordKey b w) v }

/-- `n` free bytes. -/
def State.freeBytes (n : Nat) (s : State) : Bytes × State :=
  ((List.range n).map (fun i => BitVec.ofNat 8 (Config.freeValue (s.freeCtr + i))), { s with freeCtr := s.freeCtr + n })

/-- What a bank holds in a word: the codewords that are known, zeros in a bank that nothing has used since it was cleared, else data that
its user left, which the manual does not lay out: a free value (log 32). -/
def State.word (b w : Nat) (s : State) : List Codeword × State := match tblGet? s.bankWords (wordKey b w) with
  | some v => (v, s)
  | none => if (s.bank b).zeroed then (zeroWord, s) else
    let (bs, s) := s.freeBytes 64
    (wordOf bs, s.setWord b w (wordOf bs))

/-- A known word that its next reader cannot use (R259). -/
def State.wordBad (s : State) (key : Nat) : Bool := match tblGet? s.bankWords key with
  | some v => (readWord v).isNone
  | none => false

/-- What a bank stores of a word that is written to it, and the symbols corrected (R257): the arriving codewords are checked, corrected data
is stored with recomputed check bits; an uncorrectable codeword leaves a word that always reads back as uncorrectable. -/
def storedWord (v : List Codeword) : List Codeword × Nat := match readWord v with
  | some r => r
  | none => (spoilt v, 0)

/-- Words that follow each other in a bank are written, from key `k` on; BANK_STATUS.CORR counts the corrected symbols (R257). -/
def State.bankWrite (k : Nat) (ws : List (List Codeword)) (s : State) : State :=
  let rs := ws.map storedWord
  State.modBank (k / 4096) (fun x => { x with corr := satAdd 255 x.corr (rs.foldl (fun n r => n + r.2) 0) })
    { s with bankWords := tblSetRun s.bankWords k (rs.map (·.1)) }

/-- `n` words from position `p` on of banks that are used one after the other and then from the first again, as runs; the first number bounds
them. -/
def bankRuns (banks : List Nat) : Nat → Nat → Nat → List (Nat × Nat)
  | 0, _, _ => []
  | k + 1, p, n =>
    if n = 0 ∨ banks.isEmpty then [] else
      let q := p % (4096 * banks.length)
      let m := min n (4096 - q % 4096)
      (wordKey (banks.getD (q / 4096) 0) (q % 4096), m) :: bankRuns banks k (p + m) (n - m)

/-- Words are written into runs. -/
def State.writeRuns : List (Nat × Nat) → List (List Codeword) → State → State
  | [], _, s => s
  | r :: t, ws, s => (s.bankWrite r.1 (ws.take r.2)).writeRuns t (ws.drop r.2)

/-- A word of some runs is known to read back as uncorrectable: their next reader cannot use what they hold (R259). -/
def State.runsBad (s : State) (rs : List (Nat × Nat)) : Bool :=
  !rs.isEmpty && s.bankWords.any (fun p => rs.any (fun r => decide (r.1 ≤ p.1) && decide (p.1 < r.1 + r.2)) && (readWord p.2).isNone)

/-- A bank holds zeros with correct check bits (R264, R266). -/
def State.zeroBank (b : Nat) (s : State) : State :=
  State.modBank b (fun x => { x with zeroed := true, loaded := false }) { s with bankWords := s.bankWords.filter (fun p => p.1 / 4096 != b) }

/-! ## Who reaches a bank (R260) -/

/-- The owner's accesses reach the bank's port: not in a fenced bay, nor while it is cleared (R67, R262). -/
def State.reaches (s : State) (b kind index : Nat) : Bool :=
  let x := s.bank b
  s.bankPresent b && !s.fenced (b / 48) && x.kind == kind && x.index == index && !x.clearing

/-- The owner of banks works in them: words that are not known are no longer zeros. -/
def State.useBanks (test : Nat → Bank → Bool) (s : State) : State :=
  { s with banks := tblMap (fun b x => if test b x && !x.clearing then { x with zeroed := false } else x) s.banks }

/-- The engine slots that a graph binds in a bay. -/
def State.slotsOf (s : State) (g k : Nat) : List Nat := match s.image.committed with
  | some c => ((c.bound g).filter (fun x => x.1.bay == k)).map (·.1.slot)
  | none => []

/-- The engines of a graph in a bay work on a unit, in their banks. -/
def State.engineWorks (g k : Nat) (s : State) : State :=
  let slots := s.slotsOf g k
  s.useBanks (fun b x => b / 48 == k && x.kind == 1 && slots.contains x.index)

/-- A stream DMA moves a block through its banks. -/
def State.streamWorks (gidx : Nat) (s : State) : State := s.useBanks (fun _ x => x.kind == 2 && x.index == gidx)

/-! ## The bank plan (R91) -/

/-- The bank plan's owner of a bank (R91); nobody where the plan has no entry. -/
def State.planOf (s : State) (b : Nat) : Nat × Nat :=
  match (s.image.committed.bind (fun c => c.bankPlan.find? (fun p => 48 * p.bay + p.bank == b))) with
  | some p => (p.kind, p.index)
  | none => (0, 0)

/-- The banks that the plan gives an engine slot of a bay, ascending. -/
def State.slotBanks (s : State) (k slot : Nat) : List Nat :=
  ((List.range (banksOfKind (s.bayKind k))).map (fun j => 48 * k + j)).filter (fun b => s.planOf b == (1, slot))

/-- TABLE_IDs that a profile references (R326, R341, R388, R411; log 30). -/
def profileTables (ts : List TableRef) (e : Nat) (b : Bytes) : List Nat :=
  if e / 256 = 2 then
    let cal := leAt b 0x10 4
    [leAt b 0x48 4, leAt b 0x4C 4] ++ (if cal = 0 then [] else (ts.filter (fun t => t.kind == 5 && decide (cal ≤ t.id) && decide (t.id ≤ cal + 255))).map (·.id))
  else if e / 256 = 4 then leAt b 0x6C 4 :: (List.range 16).map (fun j => leAt b (4 * j) 4)
  else if e / 256 = 5 then [leAt b 0 4]
  else []

/-- What the banks hold of a pinned table: a vocabulary's bank form (R378), all of another table (R104). -/
def pinnedForm (kind : Nat) (bs : Bytes) : Bytes := if kind = 1 then bytesAt bs (leAt bs 0x38 8) (leAt bs 0x40 8) else bs

/-- The pinned tables that the profiles of an engine slot name, in ascending TABLE_ID. -/
def State.slotTables (s : State) (k slot : Nat) : List (TableRef × Bytes) := match s.image.committed with
  | some c =>
    let ids := (c.binds.filter (fun b => b.bay == k && b.slot == slot)).flatMap (fun b => match c.profiles.find? (fun p => p.num == b.profile) with
      | some p => profileTables c.tables b.engine p.body
      | none => [])
    (sortBy (fun (a b : Nat) => decide (a ≤ b)) ids.eraseDups).filterMap (fun id => match c.tables.find? (fun t => t.id == id), tblGet? s.image.pinned id with
      | some t, some bs => some (t, bs)
      | _, _ => none)
  | none => []

/-- Words that a pinned table takes: those of a vocabulary's bank form (R378), or of all of it. -/
def pinnedWords (t : TableRef × Bytes) : Nat := ceilDiv (if t.1.kind = 1 then leAt t.2 0x40 8 else t.1.size) 64

/-- The pinned bytes of an engine slot: those of its tables, each on whole words (R104, R378, R399; log 26). -/
def State.slotPins (s : State) (k slot : Nat) : Bytes := (s.slotTables k slot).flatMap (fun t => padTo 64 (pinnedForm t.1.kind t.2))

/-- The words that they take. -/
def State.pinWords (s : State) (k slot : Nat) : Nat := (s.slotTables k slot).foldl (fun n t => n + pinnedWords t) 0

/-- Words between the places of a judge slot's activation banks: the largest ACT_BYTES of its programs (R399). -/
def State.actWords (s : State) (k slot : Nat) : Nat :=
  ((s.slotTables k slot).filter (fun t => t.1.kind == 6)).foldl (fun n t => max n (ceilDiv (leAt t.2 0x0C 4) 64)) 0

/-- Where a bank lies among those of its engine slot: the first pinned word and how many words of pinned tables it holds. -/
def State.pinSpan (s : State) (b : Nat) : Nat × Nat :=
  let p := s.planOf b
  if p.1 ≠ 1 then (0, 0) else
    let at_ := 4096 * ((s.slotBanks (b / 48) p.2).takeWhile (· != b)).length
    (at_, min 4096 (s.pinWords (b / 48) p.2 - at_))

/-- A word of a bank that lies in a pinned table (R259): the bank belongs to the engine of its plan. -/
def State.pinnedWord (s : State) (b w : Nat) : Bool :=
  s.planOf b == ((s.bank b).kind, (s.bank b).index) && decide (w < (s.pinSpan b).2)

/-- The pinned tables of a bank are loaded into it (R104). -/
def State.fillPinned (b : Nat) (s : State) : State :=
  let (at_, n) := s.pinSpan b
  let s := s.modBank b (fun x => { x with loaded := true })
  if n = 0 then s else
    let bs := s.slotPins (b / 48) (s.planOf b).2
    { s with bankWords := tblSetRun s.bankWords (wordKey b 0) ((List.range n).map (fun w => wordOf (bytesAt bs (64 * (at_ + w)) 64))) }

/-- The data of words that follow each other in a bank. -/
def State.wordsFrom (b : Nat) : Nat → Nat → State → Bytes × State
  | _, 0, s => ([], s)
  | w, n + 1, s =>
    let (v, s) := s.word b w
    let (rest, s) := s.wordsFrom b (w + 1) n
    (dataOf v ++ rest, s)

/-- The data of runs of words. -/
def State.runBytes : List (Nat × Nat) → State → Bytes × State
  | [], s => ([], s)
  | r :: t, s =>
    let (a, s) := s.wordsFrom (r.1 / 4096) (r.1 % 4096) r.2
    let (z, s) := s.runBytes t
    (a ++ z, s)

/-- What the engine of a slot finds in its banks of a pinned table; none while it does not reach one of them (R104, R260). DESIGN CHOICE
(log 139): a bank that has had another owner since the commit that loaded it holds what it holds. What the engine then takes from a
vocabulary, of which the banks hold a form that the manual does not lay out, are free bytes. -/
def State.pinnedTable (k slot id : Nat) (s : State) : Option Bytes × State :=
  let ts := s.slotTables k slot
  match ts.find? (fun t => t.1.id == id) with
  | none => (tblGet? s.image.pinned id, s)
  | some t =>
    let at_ := (ts.takeWhile (fun t => t.1.id != id)).foldl (fun n t => n + pinnedWords t) 0
    let banks := s.slotBanks k slot
    let rs := if 4096 * banks.length < at_ + pinnedWords t then [] else bankRuns banks (pinnedWords t / 4096 + 2) at_ (pinnedWords t)
    if !rs.all (fun r => s.reaches (r.1 / 4096) 1 slot) then (none, s)
    else if rs.all (fun r => (s.bank (r.1 / 4096)).loaded) then (some t.2, s)
    else if t.1.kind = 1 then (match s.freeBytes t.1.size with
      | (bs, s) => (some bs, s))
    else match s.runBytes rs with
      | (bs, s) => (some (bs.take t.1.size), s)

/-- A pinned word of a bay is known to be bad (R259). -/
def State.pinnedBad (s : State) (k : Nat) : Bool :=
  s.bankWords.any (fun p => p.1 / 4096 / 48 == k && (readWord p.2).isNone && s.pinnedWord (p.1 / 4096) (p.1 % 4096))

/-! ## The accesses of a march (R266, R267) -/

/-- The 576 bits of which the odd ones are 1. -/
def oddBits : BitVec 576 := BitVec.ofNat 576 ((2 ^ 576 - 1) / 3 * 2)

/-- Pattern D of a background at an address: COLUMN, ROW, CHECKER, SOLID. -/
def marchPattern (bg a : Nat) : BitVec 576 :=
  if bg = 0 then oddBits
  else if bg = 1 then (if a % 2 = 1 then BitVec.allOnes 576 else 0)
  else if bg = 2 then (if a % 2 = 1 then ~~~oddBits else oddBits)
  else 0

/-- One access of a march: a read with the bits it expects, or a write. -/
inductive MarchOp where
  | read (a : Nat) (want : BitVec 576)
  | write (a : Nat) (v : BitVec 576)
  deriving DecidableEq, Repr

/-- Access `n` of the 163,840 of a destructive march (R266). -/
def marchOp (n : Nat) : MarchOp :=
  let bg := n / 40960
  let m := n % 40960
  let d := marchPattern bg
  if m < 4096 then .write m (d m)
  else if 36864 ≤ m then .read (m - 36864) (d (m - 36864))
  else
    let pass := (m - 4096) / 8192
    let k := (m - 4096) % 8192
    let a := if pass < 2 then k / 2 else 4095 - k / 2
    let old := if pass % 2 = 0 then d a else ~~~(d a)
    if k % 2 = 0 then .read a old else .write a (~~~old)

/-- A read of a march that does not give what it compares with. -/
def marchMiss (r : MarchRead) : Bool := decide (r.access.toNat < 163840) && (match marchOp r.access.toNat with
  | .read _ want => r.raw != want
  | .write _ _ => false)

/-- The banks that a destructive march finds failing. -/
def marchFailing (reads : List MarchRead) : List Nat := ((reads.filter marchMiss).map (·.bank.toNat)).eraseDups

/-- The word of access `n` of the 40,960 of a preserving march: five for each word, ascending, then descending (R267). -/
def keepAddr (n : Nat) : Nat := if n < 20480 then n / 5 else 4095 - (n - 20480) / 5

/-- The reads of a preserving march that gave something of their own: the first read of a word gives x, which its last write puts back;
a later one that is not what was written ends the march, after x is written once more (R267). -/
def State.keepMarch (b : Nat) : List MarchRead → State → Bool × State
  | [], s => (false, s)
  | r :: t, s =>
    let n := r.access.toNat
    let a := keepAddr n
    if 40960 ≤ n ∨ n % 5 % 2 = 1 then s.keepMarch b t
    else if n % 5 = 0 then (s.setWord b a (ofRaw r.raw)).keepMarch b t
    else
      let (w, s) := s.word b a
      if r.raw = (if n % 5 = 2 then ~~~(rawOf w) else rawOf w) then s.keepMarch b t else (true, s)

/-- A preserving march of a bank (R267). -/
def State.marchKeeps (b : Nat) (reads : List MarchRead) (s : State) : Bool × State :=
  s.keepMarch b (sortBy (fun (x y : MarchRead) => decide (x.access.toNat ≤ y.access.toNat)) (reads.filter (fun r => r.bank.toNat == b)))

end Sys2Proof.Machine
end

