-- ==== Sys2Proof/Machine/Sha.lean ====
section
/-! DEFINITION. SHA-256, SHA-384, HMAC-SHA-384 and the counter-mode KDF, from the standards that R489 names
(FIPS 180-4, FIPS 198-1, SP 800-108r1). PRESUMED (log 9): the standards' text is not in the manual. -/

namespace Sys2Proof.Machine

/-- The largest r with r^k ≤ n and r < 2^bits, bit by bit from the top. -/
def iroot (k n : Nat) : Nat → Nat → Nat
  | 0, r => r
  | b + 1, r => if (r + 2 ^ b) ^ k ≤ n then iroot k n b (r + 2 ^ b) else iroot k n b r

/-- The first primes, in order, below `m`. -/
def primesBelow (m : Nat) : List Nat :=
  (List.range m).filter (fun p => 2 ≤ p && (List.range p).all (fun d => d < 2 || p % d != 0))

/-- The 80 round constants of SHA-512: the first 64 fraction bits of the cube roots of the first 80 primes. -/
def sha512K : List (BitVec 64) := (primesBelow 410).map (fun p => BitVec.ofNat 64 (iroot 3 (p * 2 ^ 192) 70 0))

/-- The 64 round constants of SHA-256: the first 32 fraction bits of the same roots. -/
def sha256K : List Word := (sha512K.take 64).map (fun k => BitVec.ofNat 32 (k.toNat / 2 ^ 32))

/-- Fraction bits of square roots: the initial hash values. -/
def sqrtFrac (bits p : Nat) : Nat := iroot 2 (p * 2 ^ (2 * bits)) (bits + 5) 0

/-- One compression, over words of width `w` with the given rotation amounts. -/
def shaRound (w : Nat) (s0 s1 : Nat × Nat × Nat) (st : List (BitVec w)) (kw : BitVec w × BitVec w) : List (BitVec w) :=
  match st with
  | [a, b, c, d, e, f, g, h] =>
    let e1 := e.rotateRight s1.1 ^^^ e.rotateRight s1.2.1 ^^^ e.rotateRight s1.2.2
    let t1 := h + e1 + ((e &&& f) ^^^ (~~~e &&& g)) + kw.1 + kw.2
    let e0 := a.rotateRight s0.1 ^^^ a.rotateRight s0.2.1 ^^^ a.rotateRight s0.2.2
    let t2 := e0 + ((a &&& b) ^^^ (a &&& c) ^^^ (b &&& c))
    [t1 + t2, a, b, c, d + t1, e, f, g]
  | _ => st

/-- The message schedule, newest word first. -/
def shaSched (w : Nat) (g0 g1 : Nat × Nat × Nat) : Nat → List (BitVec w) → List (BitVec w)
  | 0, ws => ws
  | n + 1, ws =>
    let x15 := ws.getD 14 0
    let x2 := ws.getD 1 0
    let a := x15.rotateRight g0.1 ^^^ x15.rotateRight g0.2.1 ^^^ (x15 >>> g0.2.2)
    let b := x2.rotateRight g1.1 ^^^ x2.rotateRight g1.2.1 ^^^ (x2 >>> g1.2.2)
    shaSched w g0 g1 n ((ws.getD 15 0 + a + ws.getD 6 0 + b) :: ws)

/-- Hashes whole blocks. -/
def shaBlocks (w n : Nat) (s0 s1 g0 g1 : Nat × Nat × Nat) (ks : List (BitVec w)) (iv : List (BitVec w)) (blocks : List Bytes) :
    List (BitVec w) :=
  blocks.foldl (fun h blk =>
    let m := (List.range 16).map (fun i => BitVec.ofNat w (beAt blk (i * (w / 8)) (w / 8)))
    let ws := (shaSched w g0 g1 (n - 16) m.reverse).reverse
    let st := (ks.zip ws).foldl (shaRound w s0 s1) h
    List.zipWith (· + ·) h st) iv

/-- Merkle–Damgård padding to blocks of `blk` bytes with a length field of `lf` bytes. -/
def shaPad (blk lf : Nat) (m : Bytes) : List Bytes :=
  let l := m.length
  let z := (2 * blk - (l + 1 + lf) % blk) % blk
  let p := m ++ [0x80] ++ zeros z ++ natBe lf (8 * l)
  chunks blk (p.length / blk + 1) p

/-- The initial value of SHA-256. -/
def sha256Iv : List Word := ((primesBelow 20).take 8).map (fun p => BitVec.ofNat 32 (sqrtFrac 32 p))

/-- SHA-256 over whole blocks, from a chaining value. -/
def sha256Over (h : List Word) (blocks : List Bytes) : List Word :=
  shaBlocks 32 64 (2, 13, 22) (6, 11, 25) (7, 18, 3) (17, 19, 10) sha256K h blocks

/-- SHA-256 (FIPS 180-4). -/
def sha256 (m : Bytes) : Bytes := (sha256Over sha256Iv (shaPad 64 8 m)).flatMap (fun x => natBe 4 x.toNat)

/-- A running SHA-256: the chaining value, and the bytes that fill no block yet. More bytes. -/
def sha256Feed (st : List Word × Bytes) (bs : Bytes) : List Word × Bytes :=
  let m := st.2 ++ bs
  let n := m.length / 64
  (sha256Over st.1 (chunks 64 n (m.take (64 * n))), m.drop (64 * n))

/-- The digest of a running SHA-256 that has taken `total` bytes. -/
def sha256End (st : List Word × Bytes) (total : Nat) : Bytes :=
  let l := st.2.length
  let p := st.2 ++ [0x80] ++ zeros ((128 - (l + 9) % 64) % 64) ++ natBe 8 (8 * total)
  (sha256Over st.1 (chunks 64 (p.length / 64) p)).flatMap (fun x => natBe 4 x.toNat)

/-- SHA-384 (FIPS 180-4). -/
def sha384 (m : Bytes) : Bytes :=
  let iv := (((primesBelow 54).drop 8).take 8).map (fun p => BitVec.ofNat 64 (sqrtFrac 64 p))
  ((shaBlocks 64 80 (28, 34, 39) (14, 18, 41) (1, 8, 7) (19, 61, 6) sha512K iv (shaPad 128 16 m)).take 6).flatMap
    (fun x => natBe 8 x.toNat)

/-- HMAC-SHA-384 (FIPS 198-1). -/
def hmac384 (key m : Bytes) : Bytes :=
  let k := if key.length > 128 then sha384 key else key
  let k := bytesAt k 0 128
  sha384 (k.map (· ^^^ 0x5C) ++ sha384 (k.map (· ^^^ 0x36) ++ m))

/-- The KDF of R492: counter mode, 32-bit big-endian counter before Label ‖ 0x00 ‖ Context ‖ [L]₃₂. -/
def kdf (key label ctx : Bytes) (l : Nat) : Bytes :=
  ((List.range (ceilDiv l 384)).flatMap (fun i => hmac384 key (natBe 4 (i + 1) ++ label ++ [0] ++ ctx ++ natBe 4 l))).take (l / 8)

/-- The ASCII bytes of a label. -/
def ascii (t : String) : Bytes := t.toList.map (fun c => BitVec.ofNat 8 c.toNat)

end Sys2Proof.Machine
end

