-- ==== Sys2Proof/Machine/P384.lean ====
section
/-! DEFINITION. ECDSA P-384 verification (FIPS 186-5), named by R489, in the encoding of R98. PRESUMED (log 9):
the curve and the algorithm are those of the standard. -/

namespace Sys2Proof.Machine

def p384P : Nat := 2 ^ 384 - 2 ^ 128 - 2 ^ 96 + 2 ^ 32 - 1
def p384N : Nat := 0xffffffffffffffffffffffffffffffffffffffffffffffffc7634d81f4372ddf581a0db248b0a77aecec196accc52973
def p384B : Nat := 0xb3312fa7e23ee7e4988e056be3f82d19181d9c6efe8141120314088f5013875ac656398d8a2ed19d2a85c8edd3ec2aef
def p384Gx : Nat := 0xaa87ca22be8b05378eb1c71ef320ad746e1d3b628ba79b9859f741e082542a385502f25dbf55296c3a545e3872760ab7
def p384Gy : Nat := 0x3617de4a96262c6f5d9e98bf9292dc29f8f41dbd289a147ce9da3113b5f0b8c00a60b1ce1d7e819d7a431d7c90ea0e5f

/-- a^e mod m with `fuel` bits of exponent. -/
def powMod (m : Nat) : Nat → Nat → Nat → Nat
  | 0, _, _ => 1
  | f + 1, a, e =>
    let h := powMod m f (a * a % m) (e / 2)
    if e % 2 = 1 then a * h % m else h

/-- The inverse modulo a prime. -/
def invMod (m a : Nat) : Nat := powMod m 400 (a % m) (m - 2)

def subMod (m a b : Nat) : Nat := (a + (m - b % m)) % m

/-- Doubling in Jacobian coordinates on P-384; z = 0 is the point at infinity. -/
def ecDouble (q : Nat × Nat × Nat) : Nat × Nat × Nat :=
  let p := p384P
  let (x, y, z) := q
  if z = 0 ∨ y = 0 then (1, 1, 0) else
  let zz := z * z % p
  let m := 3 * (subMod p x zz) % p * ((x + zz) % p) % p
  let yy := y * y % p
  let s := 4 * x % p * yy % p
  let x3 := subMod p (m * m % p) (2 * s % p)
  let y3 := subMod p (m * (subMod p s x3) % p) (8 * (yy * yy % p) % p)
  (x3, y3, 2 * y * z % p)

/-- Addition in Jacobian coordinates. -/
def ecAdd (a b : Nat × Nat × Nat) : Nat × Nat × Nat :=
  let p := p384P
  let (x1, y1, z1) := a
  let (x2, y2, z2) := b
  if z1 = 0 then b else if z2 = 0 then a else
  let z1z := z1 * z1 % p
  let z2z := z2 * z2 % p
  let u1 := x1 * z2z % p
  let u2 := x2 * z1z % p
  let s1 := y1 * z2 % p * z2z % p
  let s2 := y2 * z1 % p * z1z % p
  if u1 = u2 then (if s1 = s2 then ecDouble a else (1, 1, 0)) else
  let h := subMod p u2 u1
  let r := subMod p s2 s1
  let hh := h * h % p
  let hhh := h * hh % p
  let v := u1 * hh % p
  let x3 := subMod p (subMod p (r * r % p) hhh) (2 * v % p)
  let y3 := subMod p (r * (subMod p v x3) % p) (s1 * hhh % p)
  (x3, y3, h * z1 % p * z2 % p)

/-- Scalar multiplication with `fuel` bits. -/
def ecMul : Nat → Nat → Nat × Nat × Nat → Nat × Nat × Nat
  | 0, _, _ => (1, 1, 0)
  | f + 1, k, q =>
    let h := ecMul f (k / 2) (ecDouble q)
    if k % 2 = 1 then ecAdd h q else h

/-- Verification of (r, s) over a SHA-384 digest under the public key (x, y). -/
def ecdsaVerify (x y r s : Nat) (digest : Bytes) : Bool :=
  let n := p384N
  let p := p384P
  if r = 0 ∨ r ≥ n ∨ s = 0 ∨ s ≥ n ∨ x ≥ p ∨ y ≥ p then false
  else if y * y % p ≠ (x * x % p * x + (p - 3) * x + p384B) % p then false else
  let w := invMod n s
  let e := beNat digest
  let q := ecAdd (ecMul 384 (e * w % n) (p384Gx, p384Gy, 1)) (ecMul 384 (r * w % n) (x, y, 1))
  if q.2.2 = 0 then false else
  let zi := invMod p q.2.2
  q.1 * (zi * zi % p) % p % n == r

/-- The signature block of R98: public key x, y, then r and s, big-endian. -/
def sigBlockVerify (sig : Bytes) (digest : Bytes) : Bool :=
  ecdsaVerify (beAt sig 0 48) (beAt sig 0x30 48) (beAt sig 0x60 48) (beAt sig 0x90 48) digest

/-- The digest of the 96 B public key of a signature block (R99, R171). -/
def sigKeyDigest (sig : Bytes) : Bytes := sha384 (bytesAt sig 0 96)

end Sys2Proof.Machine
end

