-- ==== Sys2Proof/Machine/Aes.lean ====
section
/-! DEFINITION. AES with its modes, from the standards that R489 names (FIPS 197, SP 800-38D, SP 800-38E,
SP 800-38F, SP 800-90A). PRESUMED (log 9): the standards' text is not in the manual. -/

namespace Sys2Proof.Machine

/-- Multiplication by x in GF(2^8) of AES. -/
def aesXtime (b : Byte) : Byte := if b.getLsbD 7 then (b <<< 1) ^^^ 0x1B else b <<< 1

/-- Multiplication in GF(2^8). -/
def aesMul (a b : Byte) : Byte :=
  ((List.range 8).foldl (fun (p : Byte × Byte) i => (if b.getLsbD i then p.1 ^^^ p.2 else p.1, aesXtime p.2)) (0, a)).1

/-- The multiplicative inverse in GF(2^8): the 254th power. -/
def aesInv (a : Byte) : Byte :=
  let a2 := aesMul a a
  let a4 := aesMul a2 a2
  let a8 := aesMul a4 a4
  let a16 := aesMul a8 a8
  let a32 := aesMul a16 a16
  let a64 := aesMul a32 a32
  let a128 := aesMul a64 a64
  aesMul a128 (aesMul a64 (aesMul a32 (aesMul a16 (aesMul a8 (aesMul a4 a2)))))

/-- The S-box. -/
def aesSub1 (a : Byte) : Byte :=
  let b := aesInv a
  b ^^^ b.rotateLeft 1 ^^^ b.rotateLeft 2 ^^^ b.rotateLeft 3 ^^^ b.rotateLeft 4 ^^^ 0x63

/-- The S-box as a table. -/
def aesSbox : Array Byte := Array.ofFn (fun i : Fin 256 => aesSub1 (BitVec.ofNat 8 i.val))

/-- The inverse S-box as a table. -/
def aesInvSbox : Array Byte :=
  Array.ofFn (fun i : Fin 256 => BitVec.ofNat 8 ((aesSbox.toList.findIdx? (fun b => b.toNat == i.val)).getD 0))

def aesSubByte (b : Byte) : Byte := aesSbox.getD b.toNat 0
def aesInvSubByte (b : Byte) : Byte := aesInvSbox.getD b.toNat 0

/-- Expands a key into round keys: words oldest first, `n` more to make. -/
def aesExpand (nk : Nat) : Nat → Nat → Byte → List Bytes → List Bytes
  | 0, _, _, ws => ws
  | n + 1, i, rc, ws =>
    let t := ws.getLast?.getD []
    let t' := if i % nk = 0 then
        match (t.drop 1 ++ t.take 1).map aesSubByte with
        | b :: r => (b ^^^ rc) :: r
        | [] => []
      else if nk > 6 ∧ i % nk = 4 then t.map aesSubByte else t
    let w := List.zipWith (· ^^^ ·) (ws.getD (i - nk) []) t'
    aesExpand nk n (i + 1) (if i % nk = 0 then aesXtime rc else rc) (ws ++ [w])

/-- The round keys of a 16 B or 32 B key. -/
def aesRoundKeys (key : Bytes) : List Bytes :=
  let nk := key.length / 4
  let ws := aesExpand nk (4 * (nk + 7) - nk) nk 1 (chunks 4 nk key)
  (chunks 4 (nk + 7) ws).map List.flatten

/-- MixColumns with the given coefficient row. -/
def aesMix (row : List Byte) (st : Bytes) : Bytes :=
  (chunks 4 4 st).flatMap (fun col => (List.range 4).map (fun r =>
    (List.range 4).foldl (fun a c => a ^^^ aesMul (row.getD ((c + 4 - r) % 4) 0) (col.getD c 0)) 0))

/-- ShiftRows by `dir` (1 forward, 3 inverse). -/
def aesShift (dir : Nat) (st : Bytes) : Bytes :=
  (List.range 16).map (fun i => let r := i % 4; let c := i / 4; st.getD (r + 4 * ((c + dir * r) % 4)) 0)

def xorBytes (a b : Bytes) : Bytes := List.zipWith (· ^^^ ·) a b

/-- The AES forward cipher on one block. -/
def aesEncKeys (ks : List Bytes) (blk : Bytes) : Bytes :=
  match ks with
  | [] => blk
  | k0 :: rest =>
    let mids := rest.dropLast
    let st := mids.foldl (fun st k => xorBytes (aesMix [2, 3, 1, 1] (aesShift 1 (st.map aesSubByte))) k) (xorBytes blk k0)
    xorBytes (aesShift 1 (st.map aesSubByte)) (rest.getLast?.getD [])

/-- The AES inverse cipher on one block. -/
def aesDecKeys (ks : List Bytes) (blk : Bytes) : Bytes :=
  match ks.reverse with
  | [] => blk
  | kl :: rest =>
    let mids := rest.dropLast
    let st := mids.foldl (fun st k => aesMix [14, 11, 13, 9] (xorBytes ((aesShift 3 st).map aesInvSubByte) k)) (xorBytes blk kl)
    xorBytes ((aesShift 3 st).map aesInvSubByte) (rest.getLast?.getD [])

def aesEnc (key blk : Bytes) : Bytes := aesEncKeys (aesRoundKeys key) blk
def aesDec (key blk : Bytes) : Bytes := aesDecKeys (aesRoundKeys key) blk

/-! ## GCM (SP 800-38D) -/

/-- Multiplication in GF(2^128) with GCM's bit order. -/
def ghashMul (x y : BitVec 128) : BitVec 128 :=
  ((List.range 128).foldl (fun (p : BitVec 128 × BitVec 128) i =>
    (if x.getLsbD (127 - i) then p.1 ^^^ p.2 else p.1,
     if p.2.getLsbD 0 then (p.2 >>> 1) ^^^ (0xE1#128 <<< 120) else p.2 >>> 1)) (0, y)).1

def ghash (h : BitVec 128) (data : Bytes) : BitVec 128 :=
  (chunks 16 (data.length / 16 + 1) data).foldl (fun y b => ghashMul (y ^^^ BitVec.ofNat 128 (beNat (bytesAt b 0 16))) h) 0

/-- CTR keystream of `n` blocks from a 16 B counter block, incrementing its low 32 bits. -/
def gcmStream (ks : List Bytes) (pre : Bytes) (ctr n : Nat) : Bytes :=
  (List.range n).flatMap (fun i => aesEncKeys ks (pre ++ natBe 4 ((ctr + i) % 2 ^ 32)))

/-- The tag of R298: GCM with a 12 B IV and a 128-bit tag. -/
def gcmTag (key iv aad ct : Bytes) : Bytes :=
  let ks := aesRoundKeys key
  let h := BitVec.ofNat 128 (beNat (aesEncKeys ks (zeros 16)))
  let s := ghash h (padTo 16 aad ++ padTo 16 ct ++ natBe 8 (8 * aad.length) ++ natBe 8 (8 * ct.length))
  xorBytes (natBe 16 s.toNat) (gcmStream ks iv 1 1)

/-- GCM encryption: ciphertext and tag. -/
def gcmEnc (key iv aad pt : Bytes) : Bytes × Bytes :=
  let ct := xorBytes pt (gcmStream (aesRoundKeys key) iv 2 (ceilDiv pt.length 16))
  (ct, gcmTag key iv aad ct)

/-- GCM decryption: none when the tag does not match. -/
def gcmDec (key iv aad ct tag : Bytes) : Option Bytes :=
  if gcmTag key iv aad ct = tag then some (xorBytes ct (gcmStream (aesRoundKeys key) iv 2 (ceilDiv ct.length 16))) else none

/-! ## XTS (SP 800-38E), whole blocks -/

/-- Multiplication of a tweak by x, little-endian bytes. -/
def xtsNext (t : Bytes) : Bytes :=
  let n := leNat t
  let d := (2 * n) % 2 ^ 128
  natLe 16 (if n ≥ 2 ^ 127 then Nat.xor d 0x87 else d)

/-- XTS over the blocks of one data unit. -/
def xtsBlocks (f : Bytes → Bytes) : Bytes → List Bytes → Bytes
  | _, [] => []
  | t, b :: r => xorBytes (f (xorBytes b t)) t ++ xtsBlocks f (xtsNext t) r

/-- One data unit of AES-256-XTS under a 64 B key and a 128-bit tweak taken little-endian (R501). -/
def xtsUnit (enc : Bool) (key : Bytes) (tweak : Nat) (data : Bytes) : Bytes :=
  let k1 := aesRoundKeys (key.take 32)
  let t := aesEnc (key.drop 32) (natLe 16 tweak)
  xtsBlocks (if enc then aesEncKeys k1 else aesDecKeys k1) t (chunks 16 (data.length / 16) data)

/-! ## Key unwrap (SP 800-38F) -/

/-- One inverse step of AES-KW: `t` from 6n down to 1. -/
def kwSteps (ks : List Bytes) (n : Nat) : Nat → Bytes × List Bytes → Bytes × List Bytes
  | 0, p => p
  | t + 1, (a, rs) =>
    let i := t % n
    let b := aesDecKeys ks (natBe 8 (Nat.xor (beNat a) (t + 1)) ++ rs.getD i [])
    kwSteps ks n t (b.take 8, rs.set i (b.drop 8))

/-- AES-KW unwrap: none when the integrity check fails. -/
def kwUnwrap (kek wrapped : Bytes) : Option Bytes :=
  let n := wrapped.length / 8 - 1
  let p := kwSteps (aesRoundKeys kek) n (6 * n) (wrapped.take 8, chunks 8 n (wrapped.drop 8))
  if p.1 = List.replicate 8 0xA6 then some p.2.flatten else none

/-! ## CTR_DRBG with AES-256 and a derivation function (SP 800-90A) -/

def drbgInc (v : Bytes) : Bytes := natBe 16 ((beNat v + 1) % 2 ^ 128)

/-- `n` output blocks and the counter after them. -/
def drbgBlocks (ks : List Bytes) : Nat → Bytes → Bytes × Bytes
  | 0, v => ([], v)
  | n + 1, v =>
    let v' := drbgInc v
    let r := drbgBlocks ks n v'
    (aesEncKeys ks v' ++ r.1, r.2)

/-- CTR_DRBG_Update. -/
def drbgUpdate (seed key v : Bytes) : Bytes × Bytes :=
  let t := xorBytes (drbgBlocks (aesRoundKeys key) 3 v).1 seed
  (t.take 32, t.drop 32)

/-- CBC-MAC of whole blocks. -/
def drbgBcc (ks : List Bytes) (data : Bytes) : Bytes :=
  (chunks 16 (data.length / 16) data).foldl (fun c b => aesEncKeys ks (xorBytes c b)) (zeros 16)

/-- Block_Cipher_df to 48 bytes. -/
def drbgDf (inp : Bytes) : Bytes :=
  let s := padTo 16 (natBe 4 inp.length ++ natBe 4 48 ++ inp ++ [0x80])
  let k0 := aesRoundKeys ((List.range 32).map (BitVec.ofNat 8))
  let t := (List.range 3).flatMap (fun i => drbgBcc k0 (natBe 4 i ++ zeros 12 ++ s))
  let ks := aesRoundKeys (t.take 32)
  let x1 := aesEncKeys ks (t.drop 32)
  let x2 := aesEncKeys ks x1
  x1 ++ x2 ++ aesEncKeys ks x2

/-- Instantiate: entropy, nonce and personalisation string give key and V. -/
def drbgInstantiate (entropy nonce pers : Bytes) : Bytes × Bytes :=
  drbgUpdate (drbgDf (entropy ++ nonce ++ pers)) (zeros 32) (zeros 16)

/-- Reseed with new entropy. -/
def drbgReseedWith (entropy key v : Bytes) : Bytes × Bytes := drbgUpdate (drbgDf entropy) key v

/-- Generate `n` bytes: output, key and V after. -/
def drbgGenerate (n : Nat) (key v : Bytes) : Bytes × Bytes × Bytes :=
  let r := drbgBlocks (aesRoundKeys key) (ceilDiv n 16) v
  let u := drbgUpdate (zeros 48) key r.2
  (r.1.take n, u.1, u.2)

end Sys2Proof.Machine
end

