-- ==== Sys2Proof/Machine/Caps.lean ====
section
/-! DEFINITION. The capability record and its fingerprint (R96, R97), engine type codes (R562) and the CAP_*
registers (R7, R559). -/

namespace Sys2Proof.Machine

/-- Engine type codes of a bay type, by slot (R562). -/
def enginesOf (kind : Nat) : List Nat :=
  if kind = 1 then [0x0101, 0x0102, 0x0103, 0x0104]
  else if kind = 2 then [0x0201, 0x0202, 0x0203, 0x0204, 0x0205, 0x0206, 0x0207, 0x0208]
  else if kind = 3 then [0x0301, 0x0302]
  else if kind = 4 then [0x0401, 0x0402]
  else if kind = 5 then [0x0501]
  else if kind = 6 then [0x0601, 0x0602, 0x0603]
  else []

/-- STV_VERSION of release 1.2.0 (R1, R559). -/
def stvVersion : Nat := 0x00010200

/-- CAP_PORTS: PORTS, RELAY, PORT_DIE. -/
def Caps.portsReg (c : Caps) : Nat :=
  c.portDie.length + 16 * b2n c.relay + (c.portDie.zipIdx.foldl (fun n p => n + p.1 * 4 ^ p.2) 0) * 65536

/-- The capability record (R96). -/
def Caps.record (c : Caps) : Bytes :=
  natLe 4 stvVersion ++ natLe 4 c.dies ++ natLe 4 c.bays.length ++ natLe 4 c.portsReg ++ natLe 4 c.funcs ++ natLe 4 c.queues ++ zeros 8 ++
  (List.range 64).flatMap (fun k => match c.bays[k]? with
    | none => zeros 24
    | some b => natLe 1 b.kind ++ natLe 1 b.die ++ natLe 1 (banksOfKind b.kind) ++ natLe 1 (enginesOf b.kind).length ++ zeros 4 ++
        (List.range 8).flatMap (fun j => natLe 2 ((enginesOf b.kind).getD j 0))) ++
  (List.range 8).flatMap (fun n => natLe 1 (c.portDie.getD n 0)) ++ natLe 4 c.wires.length ++
  c.wires.flatMap (fun w => natLe 1 w.tenonBay ++ natLe 1 w.mortiseBay ++ natLe 1 w.through ++ zeros 1 ++ natLe 4 w.ps)

/-- The capability fingerprint (R97). -/
def Caps.fingerprint (c : Caps) : Bytes := sha256 c.record

end Sys2Proof.Machine
end

