-- ==== Sys2Proof/Machine/Access.lean ====
section
/-! DEFINITION. The sill ports: what other agents let memory show (R140), arbitration (R129, R130, R231 to R234, R247, R551), the
signals of a request (R119 to R121, R126), and the accesses that a command makes and completes within itself (R119 to R135). -/

namespace Sys2Proof.Machine

/-! ## The licensee's memory behind the sill ports (R117 to R135; log 3, log 4) -/

/-- What other agents wrote becomes visible, and the controllers' answers change (R140; log 3). -/
def State.seeMem (v : MemView) (s : State) : State :=
  { s with mem := v.writes.foldl (fun m w => memWriteBytes m w.1 w.2) s.mem, resp := v.rules.getD s.resp }

/-- The answer of the controllers to an access of `len` bytes at `addr`: the first rule that touches it; none is no answer. -/
def respOf (rules : List RespRule) (addr len : Nat) : Option Resp :=
  match rules.find? (fun r => addr < r.lo + r.len && r.lo < addr + len) with
  | some r => r.resp
  | none => some .okay

/-- Whether a port serves requests: it exists, is not on an isolated die (R84) and has not failed (R132). -/
def State.portUp (s : State) (n : Nat) : Bool := n < s.nPorts && !(s.port n).dead && !(s.port n).failed

/-- Counts a response that is not OKAY (R547, group 1). -/
def State.countResp (n : Nat) (r : Resp) (s : State) : State := match r with
  | .okay => s
  | .fault _ => s.count 1 n 6 1
  | .poison => s.count 1 n 7 1
  | .decerr => s.count 1 n 8 1

/-- Requests that an access takes: none crosses a 4 KiB boundary (R120). -/
def reqCount (addr len : Nat) : Nat := max 1 (ceilDiv (addr % 4096 + len) 4096)

/-- The status code of a response (R135). -/
def respCode : Resp → Nat
  | .okay => stOk
  | .fault _ => stTranslation
  | .poison => stPoison
  | .decerr => stAccessDenied

/-- The stream a request serves. -/
def Owner.stream? : Owner → Option (Nat × Nat)
  | .streamRead f i _ _ => some (f, i)
  | .slotBlock f i _ _ => some (f, i)
  | _ => none

/-! ## Arbitration (R129, R130, R231 to R234, R551) -/

/-- Granules of a request. -/
def Req.gFirst (r : Req) : Nat := r.addr / 64

/-- Two requests touch a common granule (R130). -/
def Req.meets (r t : Req) : Bool := r.gFirst < t.gFirst + t.grans && t.gFirst < r.gFirst + r.grans

/-- A read of a queue's index block: one access to a block at a time (R192, R197). -/
def Req.ofIndex (r : Req) : Bool := match r.owner with
  | .queueIndex _ _ => true
  | .queueTail _ _ => true
  | _ => false

/-- Two requests that may not be outstanding together (R130, R192). -/
def Req.clashes (r t : Req) : Bool := r.meets t && !(r.op == .read && t.op == .read && !(r.ofIndex && t.ofIndex))

/-- A request that no granule rule holds back (R130, R192). -/
def State.granulesFree (s : State) (r : Req) : Bool := s.ports.all (fun p => (p.2.reads ++ p.2.writes).all (fun o => !o.req.clashes r))

/-- A stream may issue: it is not halted (R248), and a slot block lies within LOW + 64 (R247). -/
def State.streamIssues (s : State) (r : Req) : Bool := match r.owner with
  | .streamRead f i _ _ => (s.stream f i).st != .halted
  | .slotBlock f i batch block =>
    let x := s.stream f i
    x.st != .halted && (match x.xfer with
      | some t => t.batch == batch && decide (block ≤ t.low + 64)
      | none => false)
  | _ => true

/-- The first tag from `t` on that no request of a table uses and that is not retired. -/
def firstTag (l : List OutReq) (retired : List Nat) (w : Nat) : Nat → Nat → Nat
  | 0, t => t
  | k + 1, t => if l.any (fun o => o.tag == t) || retired.contains (t + w) then firstTag l retired w k (t + 1) else t

/-- The outstanding requests that share a limit and a tag space with an operation (R129). -/
def Port.table (p : Port) (op : SillOp) : List OutReq := if op = .write then p.writes else p.reads

/-- The lowest tag that a port may use for an operation, while it has one and its table has room (R129, R132). -/
def State.freeTag (s : State) (n : Nat) (op : SillOp) : Option Nat :=
  let p := s.port n
  let l := p.table op
  let t := firstTag l p.retired (if op = .write then 8192 else 0) (l.length + p.retired.length) 0
  if (if op = .write then 1024 else 4096) ≤ l.length ∨ 8191 < t then none else some t

/-- The tag of a request: the one that the port chose, where R129 and R132 leave it free, else the lowest free one (log 7). -/
def State.tagFor (s : State) (n tag : Nat) (op : SillOp) : Option Nat :=
  let p := s.port n
  if (p.table op).any (fun o => o.tag == tag) || p.retired.contains (tag + if op = .write then 8192 else 0) then s.freeTag n op
  else (s.freeTag n op).map (fun _ => tag)

/-- Whether a waiting request may be transferred now (R84, R129, R130, R132, R192, R255). -/
def State.eligible (s : State) (n : Nat) (r : Req) : Bool :=
  s.portUp n && (s.freeTag n r.op).isSome && s.granulesFree r && s.streamIssues r && (s.frame.st != .fatal || r.mgmt)

/-- Round-robin class of best-effort traffic: control traffic, or a stream by its index (R232). -/
def State.rrClass (s : State) (r : Req) : Nat := match r.owner with
  | .direct cls => cls
  | .streamRead f i _ _ => (s.stream f i).gidx + 1
  | .slotBlock f i _ _ => (s.stream f i).gidx + 1
  | _ => 0

/-- How far a class is from its turn. -/
def rrDist (rr cls : Nat) : Nat := (cls + 1025 - (rr + 1)) % 1025

/-- The eligible guaranteed request with the earliest deadline, ties to the lower stream index (R231). -/
def pickGuaranteed (l : List Req) : Option Req :=
  l.foldl (fun o r => match r.deadline, o with
    | none, _ => o
    | some _, none => some r
    | some d, some t => if d < t.deadline.getD 0 ∨ (d = t.deadline.getD 0 ∧ r.gidx < t.gidx) then some r else o) none

/-- The next best-effort request in round-robin order over the classes (R232). -/
def State.pickBest (s : State) (rr : Nat) (l : List Req) : Option Req :=
  let be := l.filter (fun r => r.deadline.isNone)
  let dist := fun (r : Req) => rrDist rr (s.rrClass r)
  be.foldl (fun o r => match o with
    | none => some r
    | some t => if dist r < dist t then some r else o) none

/-- Best-effort traffic of a port has only the slot of R232 (R551). -/
def State.portThrottled (s : State) (n : Nat) : Bool := decide (2 ≤ (s.thermal (s.caps.portDie.getD n 0)).level)

/-- The arbiter's choice among requests for one slot (R231 to R233): one slot in 64 is offered to best-effort traffic first. At
throttle level 2 and 3 best-effort traffic has only that slot (R551). -/
def State.choose (s : State) (n : Nat) (el : List Req) : Option Req :=
  let p := s.port n
  let g := pickGuaranteed el
  let b := s.pickBest p.rr el
  if p.slots % 64 == 63 then b.or g else if s.portThrottled n then g else g.or b

/-- The arbiter's choice among the requests that wait at a port. -/
def State.arbitrate (s : State) (n : Nat) : Option Req := s.choose n ((s.port n).waiting.filter (s.eligible n))

/-! ## Signals (R119 to R121, R126) -/

/-- sillN_req_urgent (R234): the deadline is less than one period ahead. -/
def State.urgent (s : State) (r : Req) : Bool := match r.deadline with
  | some d => decide (d < s.now + r.period)
  | none => false

/-- The signals of a request. -/
def State.reqSig (s : State) (tag : Nat) (r : Req) : ReqSig :=
  ⟨r.op, tag, r.addr, r.grans - 1, r.fn, r.mgmt, r.operand, s.urgent r⟩

/-- Beats of a request (R121); FETCH_ADD_32 is answered in one (R125). -/
def Req.beats (r : Req) : Nat := if r.op = .fetchAdd then 1 else ceilDiv (r.addr % 128 + 64 * r.grans) 128

/-- The data beats of a write in ascending order (R121, R126): granules outside the request have their bit of wd_gran at 0. -/
def Req.writeBeats (r : Req) : List WriteBeat :=
  let bs := zeros (r.addr % 128) ++ r.data
  let first := r.addr % 128 / 64
  (List.range r.beats).map (fun k =>
    let has := fun (j : Nat) => decide (first ≤ 2 * k + j) && decide (2 * k + j < first + r.grans)
    ⟨BitVec.ofNat 1024 (leNat (bytesAt bs (128 * k) 128)), BitVec.ofNat 2 (b2n (has 0) + 2 * b2n (has 1)), k + 1 == r.beats⟩)

/-- A request transfers in an issue slot of a port; a write sends its data then, so in the order of the requests (R119, R126). -/
def State.transfer (n tag : Nat) (r : Req) (s : State) : State :=
  let sig := s.reqSig tag r
  let s := s.modPort n (fun p => { p with
    sent := some sig, wdata := if r.op = .write then r.writeBeats else p.wdata, slots := p.slots + 1,
    rr := if r.deadline.isNone then s.rrClass r else p.rr })
  let s := if r.deadline.isNone then s.count 1 n 10 1 else s
  if r.op = .write then (s.count 1 n 3 1).count 1 n 1 (64 * r.grans) else (s.count 1 n 2 1).count 1 n 0 (64 * r.grans)

/-- A request transfers under a tag and is outstanding. -/
def State.issue (n tag : Nat) (r : Req) (s : State) : State :=
  let o : OutReq := ⟨tag, r, s.now, s.urgent r, [], [], false⟩
  (s.transfer n tag r).modPort n (fun p => { p with
    waiting := p.waiting.erase r, writes := if r.op = .write then p.writes ++ [o] else p.writes,
    reads := if r.op = .write then p.reads else p.reads ++ [o] })

/-! ## Accesses of a command (log 4) -/

/-- The port and on whose behalf an access is made (R119), and when a guaranteed stream needs it (R231): deadline, period, stream index. -/
structure Party where
  port : Nat
  fn : Nat
  mgmt : Bool
  deadline : Option Nat
  period : Nat
  gidx : Nat
  /-- Its round-robin class as best-effort traffic (R232). -/
  cls : Nat
  deriving DecidableEq, Repr

/-- Control traffic of a function, on port 0 (R232; log 4). -/
def Party.control (fn : Nat) : Party := ⟨0, fn, false, none, 0, 0, 0⟩

/-- The steward on a port: a management request (R119). -/
def Party.steward (port : Nat) : Party := ⟨port, 0, true, none, 0, 0, 0⟩

/-- One request of an access (R120). -/
def Party.req (w : Party) (op : SillOp) (addr len : Nat) (operand : Word) (data : Bytes) : Req :=
  { op := op, addr := if op = .fetchAdd then addr else addr / 64 * 64, grans := ceilDiv (addr % 64 + len) 64, fn := w.fn, mgmt := w.mgmt,
    operand := operand, deadline := w.deadline, period := w.period, gidx := w.gidx, owner := .direct w.cls, data := data }

/-- The same access, whatever deadline it has by now. -/
def Req.same (r t : Req) : Bool := { r with deadline := t.deadline, period := t.period, gidx := t.gidx } == t

/-- The waiting requests that the arbiter takes before `r` go out (R231 to R233); the number bounds them. -/
def State.letPass (n : Nat) (r : Req) : Nat → State → State
  | 0, s => s
  | k + 1, s => match s.choose n (r :: (s.port n).waiting.filter (s.eligible n)) with
    | none => s
    | some t => if t = r then s else match s.freeTag n t.op with
      | none => s
      | some tag => (s.issue n tag t).letPass n r k

/-- The issue slots that pass idle before a request may have one (R551). -/
def State.idleBefore (s : State) (n : Nat) (r : Req) : Nat :=
  if r.deadline.isNone && s.portThrottled n then 63 - (s.port n).slots % 64 else 0

/-- Issue slots pass idle at a port (R547). -/
def State.passIdle (n idle : Nat) (s : State) : State :=
  if idle = 0 then s else (s.modPort n (fun p => { p with slots := p.slots + idle })).count 1 n 9 idle

/-- A request of a command comes to its issue slot: the requests before it go out, idle slots pass, and it has a tag if R129, R130 and
R132 let it go. -/
def State.toSlot (n : Nat) (r : Req) (s : State) : Option Nat × State :=
  let s := s.letPass n r (s.port n).waiting.length
  match s.freeTag n r.op with
  | none => (none, s)
  | some tag => if s.granulesFree r then (some tag, s.passIdle n (s.idleBefore n r)) else (none, s)

/-- The bytes that memory gives for a request; the old word for FETCH_ADD_32 (R125). -/
def State.memOf (s : State) (r : Req) : Bytes := match r.op with
  | .read => memReadBytes s.mem r.addr (64 * r.grans)
  | .write => []
  | .fetchAdd => memReadBytes s.mem r.addr 4

/-- What an OKAY answer leaves in memory: the bytes of a write (R127), the sum of FETCH_ADD_32 (R125). -/
def State.memDone (r : Req) (old : Bytes) (s : State) : State := match r.op with
  | .read => s
  | .write => { s with mem := memWriteBytes s.mem r.addr r.data }
  | .fetchAdd => { s with mem := memWriteBytes s.mem r.addr (natLe 4 ((leNat (old.take 4) + r.operand.toNat) % 2 ^ 32)) }

/-- The controllers answer a request of a command (R125, R127, R547); the command notes it. -/
def State.answered (n : Nat) (r : Req) (a : Resp) (s : State) : Resp × Bytes × State :=
  let bs := s.memOf r
  let s := s.countResp n a
  let s := if a = .okay then s.memDone r bs else s
  (a, bs, if s.running.on then { s with running := { s.running with made := s.running.made ++ [⟨n, ⟨r, a, bs⟩⟩] } } else s)

/-- What the controllers answer to a request now; POISON is no answer of a write. -/
def State.respTo (s : State) (r : Req) : Option Resp := match respOf s.resp (r.addr / 64 * 64) (64 * r.grans) with
  | some .poison => some (if r.op = .write then .okay else .poison)
  | a => a

/-- A request is outstanding no more. -/
def State.retire (n : Nat) (o : OutReq) (s : State) : State :=
  s.modPort n (fun p => if o.req.op = .write then { p with writes := p.writes.filter (fun x => x.tag != o.tag) }
    else { p with reads := p.reads.filter (fun x => x.tag != o.tag) })

/-- One request of a command goes out and is answered (R119 to R135). An answer that came before is taken up. Where it cannot go out, or
has no answer yet, the command has to wait; it goes no further than this. -/
def State.access (n : Nat) (r : Req) (s : State) : Resp × Bytes × State :=
  if s.running.miss.isSome then (.decerr, [], s)
  else match (s.port n).answers.find? (fun a => a.req.same r) with
  | some a => (a.resp, a.data, s.modPort n (fun p => { p with answers := p.answers.erase a }))
  | none => match ((s.port n).table r.op).find? (fun o => !o.drop && o.req.same r) with
    | some o => (match s.respTo r with
      | none => (.decerr, [], s.mustWait .blocked)
      | some a => (s.retire n o).answered n r a)
    | none => match s.toSlot n r with
      | (none, s) => (.decerr, [], s.mustWait .blocked)
      | (some tag, t) => match s.respTo r with
        | none => (.decerr, [], s.mustWait (.unanswered n r))
        | some a => (t.transfer n tag r).answered n r a

/-- An access that a waiting command had completed stays made: its answer is kept until the command takes it up again. -/
def State.redo (m : Made) (s : State) : State :=
  let r := m.answer.req
  let s := match ((s.port m.port).table r.op).find? (fun o => !o.drop && o.req.same r) with
    | some o => s.retire m.port o
    | none => match s.toSlot m.port r with
      | (tag, s) => s.transfer m.port (tag.getD 0) r
  let s := s.countResp m.port m.answer.resp
  let s := if m.answer.resp = .okay then s.memDone r m.answer.data else s
  s.modPort m.port (fun p => { p with answers := p.answers ++ [m.answer] })

/-- What a command that has to wait leaves behind: the accesses it completed, and the one that is out without an answer. -/
def State.waited (x : Running) (s : State) : State :=
  let s := x.made.foldl (fun s m => s.redo m) s
  match x.miss with
  | some (.unanswered n r) => (match s.toSlot n r with
    | (some tag, s) => s.issue n tag r
    | (none, s) => s)
  | _ => s

/-- The state in which a command runs that may have to wait. -/
def State.start (s : State) : State := { s with running := ⟨true, [], none⟩ }

/-- What a unit of the frame does by itself: where it has to wait, its accesses so far and nothing else; it may be tried again. -/
def State.turn (s : State) (body : State → Out) : Out := match body s.start with
  | .next t => if t.running.miss.isSome then .next (s.waited t.running) else .next { t with running := s.running }
  | o => o

/-- Tries work that may have to wait: its result, if it was done. Within a command, its accesses count among the command's. -/
def State.attempt (s : State) (body : State → α × State) : Option α × State :=
  if s.running.miss.isSome then (none, s) else
    let (a, t) := body s.start
    let x := if s.running.on then { s.running with made := s.running.made ++ t.running.made } else s.running
    if t.running.miss.isSome then (none, { s.waited t.running with running := x }) else (some a, { t with running := x })

/-! ## Accesses of any length -/

/-- A read of `len` bytes in one page, whole granules (R120). A port that is down completes it as DECERR (R84). -/
def State.readPage (w : Party) (addr len : Nat) (s : State) : Resp × Bytes × State :=
  if !s.portUp w.port then (.decerr, zeros len, s) else
    match s.access w.port (w.req .read addr len 0 []) with
    | (r, bs, s) => (r, bytesAt bs (addr % 64) len, s)

/-- A write in one page: whole granules, those at its ends with the bytes that lie around it (R120, R121). A controller that answers
other than OKAY has written nothing (R127). -/
def State.writePage (w : Party) (addr : Nat) (bs : Bytes) (s : State) : Resp × State :=
  if !s.portUp w.port then (.decerr, s) else
    let stop := addr + bs.length
    let data := memReadBytes s.mem (addr / 64 * 64) (addr % 64) ++ bs ++ memReadBytes s.mem stop ((64 - stop % 64) % 64)
    match s.access w.port (w.req .write addr bs.length 0 data) with
    | (r, _, s) => (r, s)

/-- FETCH_ADD_32 (R125): the old value; the word is unchanged unless the answer is OKAY. -/
def State.sysAdd (w : Party) (addr : Nat) (operand : Nat) (s : State) : Resp × Nat × State :=
  if !s.portUp w.port then (.decerr, 0, s) else
    match s.access w.port (w.req .fetchAdd addr 4 (BitVec.ofNat 32 operand) []) with
    | (.okay, bs, s) => (.okay, leNat (bs.take 4), s)
    | (r, _, s) => (r, 0, s)

/-- Pieces that a span can have. -/
def spanFuel (n : Nat) : Nat := n / 4096 + 2

/-- Reads `n` bytes in pieces of at most 4 KiB (R120); `fuel` bounds the pieces. The first answer that is not OKAY ends it, with its
address; so does POISON unless the caller takes poisoned bytes. -/
def State.readSpan (w : Party) : Nat → Nat → Nat → State → Except (Resp × Nat) Bytes × State
  | 0, _, _, s => (.ok [], s)
  | fuel + 1, a, n, s =>
    if n = 0 then (.ok [], s)
    else
      let k := min n (4096 - a % 4096)
      match s.readPage w a k with
      | (.okay, bs, s) => match s.readSpan w fuel (a + k) (n - k) with
        | (.ok rest, s) => (.ok (bs ++ rest), s)
        | (e, s) => (e, s)
      | (r, _, s) => (.error (r, a), s)

/-- FAULT and DECERR end a read of several pieces; after POISON it goes on (R123, R124). -/
def endsRead : Resp → Bool
  | .fault _ | .decerr => true
  | .okay | .poison => false

/-- A read that goes on after a piece answered `r` with bytes `bs`: the bytes joined, and the first answer that is not OKAY last. -/
def readThen (r : Resp) (bs : Bytes) (p : Resp × Bytes × State) : Resp × Bytes × State :=
  (match p.1 with | .okay => r | q => q, bs ++ p.2.1, p.2.2)

/-- A read of any length: the worst answer of its pieces, and the bytes. FAULT and DECERR end it (endsRead). -/
def State.sysReadGo (w : Party) : Nat → Nat → Nat → State → Resp × Bytes × State
  | 0, _, _, s => (.okay, [], s)
  | fuel + 1, a, n, s =>
    if n = 0 then (.okay, [], s)
    else
      let k := min n (4096 - a % 4096)
      let p := s.readPage w a k
      if endsRead p.1 then (p.1, zeros n, p.2.2) else readThen p.1 p.2.1 (p.2.2.sysReadGo w fuel (a + k) (n - k))

/-- A read of `len` bytes. -/
def State.sysRead (w : Party) (addr len : Nat) (s : State) : Resp × Bytes × State := s.sysReadGo w (spanFuel len) addr len

/-- Writes bytes in pieces of at most 4 KiB (R120). -/
def State.writeSpan (w : Party) : Nat → Nat → Bytes → State → Option (Resp × Nat) × State
  | 0, _, _, s => (none, s)
  | fuel + 1, a, bs, s =>
    if bs.isEmpty then (none, s)
    else
      let k := 4096 - a % 4096
      match s.writePage w a (bs.take k) with
      | (.okay, s) => s.writeSpan w fuel (a + k) (bs.drop k)
      | (r, s) => (some (r, a), s)

/-- A write of any length. -/
def State.sysWrite (w : Party) (addr : Nat) (bs : Bytes) (s : State) : Resp × State := match s.writeSpan w (spanFuel bs.length) addr bs with
  | (none, s) => (.okay, s)
  | (some (r, _), s) => (r, s)

end Sys2Proof.Machine
end

