-- ==== Sys2Proof/Machine/PoolWatch.lean ====
section
/-! DEFINITION. Who holds the buffers of a pool and whose turn it is (R275, R279), and the condition that its watchdog times (R280). -/

namespace Sys2Proof.Machine

/-- FREE: handles in the ring and the cache. -/
def Pool.free (p : Pool) : Nat := p.ringCount + p.cache.length

/-- POOL and MIN_BUFFERS of a profile body, by engine code (R313, R366, R367, R388, R427). -/
def poolNeed (engine : Nat) (body : Bytes) : Option (Nat × Nat) :=
  if engine / 256 = 1 then some (leAt body 0x0F 1, leAt body 0x40 4)
  else if engine = 0x0301 then some (leAt body 0x18 1, leAt body 0x1C 4)
  else if engine = 0x0302 then some (leAt body 0x1C 1, leAt body 0x20 4)
  else if engine / 256 = 4 then some (leAt body 0x6B 1, leAt body 0x84 4)
  else if engine / 256 = 6 then some (leAt body 0x38 1, leAt body 0x3C 4)
  else none

/-- The pools that a graph's profiles name, each profile once: (local pool, MIN_BUFFERS). -/
def State.poolNeeds (s : State) (g : Nat) : List (Nat × Nat) := match s.image.committed with
  | none => []
  | some c =>
    let used := (c.bound g).map (·.2.num)
    (c.profiles.filter (fun p => used.contains p.num)).filterMap (fun p => poolNeed p.engine p.body)

/-- A stream's reservation on a local pool (R279). -/
def State.reservation (s : State) (g local_ : Nat) : Nat :=
  (s.poolNeeds g).foldl (fun n x => if x.1 = local_ then n + x.2 else n) 0

/-- Whether a stream's graph names a local pool. -/
def State.namesPool (s : State) (g local_ : Nat) : Bool := (s.poolNeeds g).any (fun x => x.1 == local_)

/-- The stream keys that hold a buffer. -/
def Holder.streams (h : Holder) : List Nat := h.users.map (·.1)

/-- The sample for which a stream holds a buffer (R281). -/
def Holder.sampleOf (h : Holder) (k : Nat) : Nat := ((h.users.find? (fun u => u.1 == k)).map (·.2)).getD 0

/-- Buffers of a pool that a stream holds. -/
def Pool.heldBy (p : Pool) (k : Nat) : Nat := (p.holders.filter (fun h => h.streams.contains k)).length

/-- Unused reservations of the open streams of a pool (R279). -/
def State.unusedReservations (s : State) (p : Nat) : Nat :=
  let x := s.pool p
  (s.openStreams.filter (fun y => y.1 == x.fn)).foldl (fun n y => n + (s.reservation y.2.2.graph x.localNo - x.heldBy (sKey y.1 y.2.1))) 0

/-- Whether the first waiting allocation may be granted now (R275, R279). -/
def State.grantable (s : State) (p : Nat) : Bool :=
  let x := s.pool p
  match x.waits, x.cache with
  | w :: _, _ :: _ =>
    x.enabled && (s.frame.openMode ||
      x.heldBy w.stream < s.reservation (s.stream (w.stream / 1024) (w.stream % 1024)).graph x.localNo || s.unusedReservations p < x.free)
  | _, _ => false

/-- The three conditions of R280 now. -/
def State.poolStalled (s : State) (p : Nat) : Bool :=
  let x := s.pool p
  x.enabled && !x.waits.isEmpty && !s.grantable p &&
  x.holders.all (fun h => h.streams.all (fun k =>
    (s.stream (k / 1024) (k % 1024)).st != .halted && s.pools.any (fun q => q.2.waits.any (fun w => w.stream == k))))

/-- Follows the watchdog condition: when it begins to hold, its time starts; STALLED shows it (R280). -/
def State.watchPools (s : State) : State :=
  s.forEach (s.pools.map (·.1)) (fun p s =>
    let x := s.pool p
    let b := s.poolStalled p
    let s := if x.stalled && !b then s.count 6 p 2 (s.now - x.stallSince) else s
    s.setPool p { x with stalled := b, stallSince := if b && x.stalled then x.stallSince else s.now })

/-- The watchdog starts timing again (R281); the stalled time so far is counted. -/
def State.restartStall (p : Nat) (s : State) : State :=
  let x := s.pool p
  (s.count 6 p 2 (if x.stalled then s.now - x.stallSince else 0)).setPool p { x with stallSince := s.now }

end Sys2Proof.Machine
end

