-- ==== Sys2Proof/Machine/Relay.lean ====
section
/-! DEFINITION. Relay records and their rings (R146, R147, R436 to R438), deadlines (R228, R253), and the halts
and voids of streams (R236, R241, R248, R251 to R254, R566). -/

namespace Sys2Proof.Machine

/-- The graph record of a stream; an absent graph has all fields 0. -/
def State.graphOf (s : State) (x : Stream) : Graph := (s.graph? x.graph).getD ⟨x.graph, 0, 0, 0, 0, 0, 0, 0, 0, 0, 0, 0⟩

/-- The sill port of a stream's own delivery and relay accesses: the lowest port its graph uses (R224; log 4). -/
def State.streamPort (s : State) (x : Stream) : Nat :=
  ((List.range 8).find? (fun n => hasBit (s.graphOf x).ports n)).getD 0

/-! ## Indices of a stream (R292, R430, R485) -/

/-- MEET_SIZE of the committed image, at least 1. -/
def State.meet (s : State) : Nat := match s.image.committed with
  | some c => max 1 c.meetSize
  | none => 1

/-- The j-th own running index from an epoch's base (R485). -/
def Stream.own (x : Stream) (meet base j : Nat) : Nat := base + ((j / x.batch) * meet + x.self) * x.batch + j % x.batch

/-- The first own index at or after `g` (R485). -/
def Stream.nextOwn (x : Stream) (meet base g : Nat) : Nat :=
  let p := g - base
  let blk := p / x.batch
  let r := (x.self + meet - blk % meet) % meet
  if r = 0 then g else base + (blk + r) * x.batch

/-- The first own index from `g` on that is not accounted for already (R281, R483); `fuel` bounds the search. -/
def Stream.nextFree (x : Stream) (meet base : Nat) : Nat → Nat → Nat
  | 0, g => x.nextOwn meet base g
  | fuel + 1, g => let n := x.nextOwn meet base g; if x.skip.contains n then x.nextFree meet base fuel (n + 1) else n

/-- The position after an index has been taken (R485). -/
def Stream.after (x : Stream) (meet g : Nat) (base : Nat) : Nat := x.nextFree meet base x.skip.length (g + 1)

/-- The run that holds an index. -/
def Stream.runOf (x : Stream) (g : Nat) : EpochRun := ((x.runs.filter (fun r => decide (r.base ≤ g))).getLast?).getD ⟨0, x.epoch, none, 0, 0, 0, none⟩

/-- The first number of an own index from j on that no restored context accounts for (R483); the first argument bounds the search. -/
def Stream.passKnown (x : Stream) (meet base : Nat) : Nat → Nat → Nat
  | 0, j => j
  | n + 1, j => if x.known.contains (x.own meet base j) then x.passKnown meet base n (j + 1) else j

/-- How many own samples of a run are behind the packer after one more (R430): in REPRO they are taken in order. -/
def Stream.takenNext (x : Stream) (meet : Nat) (r : EpochRun) : Nat :=
  if x.openMode then r.taken + 1 else x.passKnown meet r.base x.known.length (r.taken + 1)

/-- Every own sample of the run has been taken by the packer. -/
def Stream.runDone (x : Stream) (meet : Nat) (r : EpochRun) : Bool := match r.stop with
  | some e => decide (e ≤ x.own meet r.base r.taken)
  | none => false

/-- Own samples of a run whose end is known (R485). -/
def Stream.ownCount (x : Stream) (meet base stop : Nat) : Nat :=
  (stop - base) / (x.batch * meet) * x.batch + min x.batch ((stop - base) % (x.batch * meet) - x.self * x.batch)

/-- The batch after the last one of a run: exact once its samples are taken, before that the most it can be (R430). -/
def Stream.runEnd (x : Stream) (meet : Nat) (r : EpochRun) : Nat :=
  r.first + ceilDiv (if x.runDone meet r then r.placed else x.ownCount meet r.base (r.stop.getD r.base)) x.batch

/-- The batch after the last one of the epoch before the current one. -/
def Stream.lastRunEnd (x : Stream) (meet : Nat) : Nat := match x.runs.reverse with
  | _ :: p :: _ => x.runEnd meet p
  | _ => 0

/-- The first run that still awaits samples. -/
def Stream.openRun? (x : Stream) (meet : Nat) : Option EpochRun := x.runs.find? (fun r => !x.runDone meet r)

/-- The run whose samples a batch of a FIXED stream holds. -/
def Stream.batchRun (x : Stream) (k : Nat) : EpochRun :=
  ((x.runs.filter (fun r => decide (r.first ≤ k))).getLast?).getD ⟨0, x.epoch, none, 0, 0, 0, none⟩

/-- The body of the pack profile that a graph binds (R427), with its bay. -/
def State.packBody (s : State) (g : Nat) : Option (Nat × Bytes) :=
  match s.image.committed with
  | some c => ((c.bound g).find? (fun x => x.1.engine / 256 == 6)).map (fun x => (x.1.bay, x.2.body))
  | none => none

/-- A pack profile of mode SEQ (R427). -/
def packSeq (body : Bytes) : Bool := leAt body 0x00 1 == 1

/-- A graph packs in SEQ mode (R433). -/
def State.packsSeq (s : State) (g : Nat) : Bool := match s.packBody g with
  | some (_, body) => packSeq body
  | none => false

/-- The source has ended: so marked, or the epoch that FINAL makes the last is dispatched (R310). -/
def Stream.sourceEnded (x : Stream) : Bool := x.ended || (x.sourceFinal && match x.runs.getLast? with
  | some r => (match r.stop with
    | some e => decide (e ≤ x.position)
    | none => false)
  | none => false)

/-- No further sample of the stream is to come: its source has ended and everything dispatched is packed. -/
def Stream.packedAll (x : Stream) (meet : Nat) : Bool := x.sourceEnded && x.inFlight.isEmpty && (x.openRun? meet).isNone

/-- Whether this finished batch is the last of its stream, as far as the packer knows (log 57). -/
def Stream.lastBatch (x : Stream) (meet : Nat) : Bool :=
  x.packedAll meet && x.ready.isEmpty && x.openRows.isEmpty && x.closedRows.isEmpty && x.placed.isEmpty && x.xfer.isNone && x.finished.length ≤ 1

/-- The first batch of a run: known once its first sample is taken, before that the batch after the run before it (R430). -/
def Stream.runFirst (x : Stream) (meet : Nat) (r : EpochRun) : Nat :=
  if r.taken ≠ 0 then r.first else match (x.runs.filter (fun p => decide (p.base < r.base))).getLast? with
    | some p => x.runEnd meet p
    | none => r.first

/-- The batch that a sample serves (R430, R485): that of its place behind those used so far, with none rejected between. In rows (R433)
it is not known before the sample is placed: the batch of the next place stands for it (log 4). -/
def State.sampleBatch (s : State) (x : Stream) (g : Nat) : Nat :=
  let r := x.runOf g
  if s.packsSeq x.graph then x.nextPlace / x.batch
  else x.runFirst s.meet r + (r.placed + (x.ownCount s.meet r.base g - r.taken)) / x.batch

/-- The batch in which the sample at the position comes to lie, if none before it in its epoch is rejected and skipped: behind those
placed and those on their way (R430, R431). In rows it is the batch of the next place (R433). -/
def State.dispatchBatch (s : State) (x : Stream) : Nat :=
  if s.packsSeq x.graph then x.nextPlace / x.batch
  else
    let r := x.runOf x.position
    x.runFirst s.meet r + (r.placed + ((x.inFlight ++ x.ready).filter (fun y => decide (r.base ≤ y.index))).length) / x.batch

/-- The stream runs less than DEPTH batches ahead of its consumer, so a further sample is taken (R222, R229, R241; log 129). -/
def State.depthRoom (s : State) (x : Stream) : Bool := decide (s.dispatchBatch x < x.returned + x.depth)

/-! ## Deadlines -/

/-- E_k: stage boundaries before the first sample of batch k; after a re-arm at k0, those after the first sample
of batch k0 (R228, R253). -/
def Stream.eBefore (x : Stream) (k : Nat) : Nat := match x.rearm with
  | none => (x.boundaries.filter (fun b => b ≤ k)).length
  | some (_, k0) => (x.boundaries.filter (fun b => k0 < b && b ≤ k)).length

/-- The deadline D_k of a batch (R228, R253). A record that waited for ring room moves it, like a late return (R438; log 131). -/
def State.deadline (s : State) (x : Stream) (k : Nat) : Nat :=
  let g := s.graphOf x
  let first := match x.rearm with
    | none => x.t0 + g.fillNs + (k + 1) * x.period + x.eBefore k * g.hurdleNs
    | some (tr, k0) => tr + g.fillNs + (k - k0 + 1) * x.period + x.eBefore k * g.hurdleNs
  let d := if x.depth ≤ k then max first (tblGetD x.retTimes (k - x.depth) 0 + x.period) else first
  match tblGet? x.roomTimes k with
  | some t => max d (t + x.period)
  | none => d

/-- The deadline and period that a stream's request carries (R231, R234). -/
def State.reqTime (s : State) (x : Stream) (batch : Nat) : Option Nat × Nat := (if x.guaranteed then some (s.deadline x batch) else none, x.period)

/-- A stream as the party of an access that serves a batch (R119, R231). -/
def State.party (s : State) (f : Nat) (x : Stream) (batch : Nat) : Party :=
  ⟨s.streamPort x, f, false, (s.reqTime x batch).1, x.period, x.gidx, x.gidx + 1⟩

/-- A stream as the party of an access for one of its samples. -/
def State.sampleParty (s : State) (f : Nat) (x : Stream) (g : Nat) : Party := s.party f x (s.sampleBatch x g)

/-- When a unit of a sample is due at its engine, and for whom (R235). -/
def State.unitDue (s : State) (x : Stream) (g : Nat) : Option Nat × Nat := ((s.reqTime x (s.sampleBatch x g)).1, x.gidx)

/-- Whether a unit goes before another that arrived after it, or waits with it (R235): by deadline and stream index; best effort last,
or, in the one turn of 64 that R232 gives it, first. -/
def dueBefore (best : Bool) (a b : Option Nat × Nat) : Bool := match a.1, b.1 with
  | some x, some y => decide (x < y) || (x == y && decide (a.2 ≤ b.2))
  | some _, none => !best
  | none, some _ => best
  | none, none => true

/-- The engine's next turn is best effort's (R232, R235). -/
def Bay.bestTurn (b : Bay) : Bool := b.taken % 64 == 63

/-- The 32 bytes of record m of a ring (R436, R437). PHASE is 1 when m >> RELAY_LOG2 is even. -/
def RelayRec.bytes (r : RelayRec) (m log2 : Nat) : Bytes :=
  natLe 8 r.batch ++ natLe 8 r.time ++ natLe 1 r.status ++ natLe 1 r.cause ++
  natLe 1 (b2n (m / 2 ^ log2 % 2 = 0) + 2 * b2n r.data + 4 * b2n r.end_) ++ zeros 1 ++ natLe 4 r.origin ++ natLe 2 r.slot ++
  zeros 2 ++ natLe 4 r.valid

/-- A status record (R436): BATCH is the lowest batch without a written batch record. -/
def Stream.statusRec (x : Stream) (time status cause origin : Nat) : RelayRec :=
  ⟨x.delivered, time, status, cause, false, false, origin, 0xFFFF, 0⟩

/-- Address of ring slot of record m (R437). -/
def Stream.relayAddr (x : Stream) (m : Nat) : Nat := x.relayBase + 32 * (m % 2 ^ x.relayLog2)

/-- Room by R438: fewer than 2^RELAY_LOG2 records are unacknowledged. -/
def Stream.relayRoom (x : Stream) : Bool := (x.delivered - x.returned) + x.unacked < 2 ^ x.relayLog2

/-- A write of the ring failed and has not been reissued by a resume (R248, R249). -/
def Stream.relayStuck (x : Stream) : Bool :=
  x.faults.any (fun f => f.write && f.page == x.relayAddr x.relayNext / 4096)

/-- The relay port's copy of a written record (R146, R147). -/
def State.relayCopy (f : Nat) (rec_ : Bytes) (s : State) : State :=
  if !s.caps.relay then s else
    let r := s.relay
    if r.fifo.length < 64 then
      { s with relay := { r with fifo := r.fifo ++ [⟨f, r.seq, rec_⟩], seq := (r.seq + 1) % 65536 } }
    else State.count 0 0 1 1 { s with relay := { r with seq := (r.seq + 1) % 65536 } }

/-- One write of the ring: the whole granule, the partner record unchanged (R437). On OKAY its copy goes to the relay port (R146) and,
with NOTIFY, one MSG is sent. -/
def State.relayWrite (f i : Nat) (x : Stream) (r : RelayRec) (s : State) : Resp × State :=
  let m := x.relayNext
  let a := x.relayAddr m
  let g := a / 64 * 64
  let body := r.bytes m x.relayLog2
  let gran := if m % 2 = 0 then body ++ memReadBytes s.mem (g + 32) 32 else memReadBytes s.mem g 32 ++ body
  let (resp, s) := s.sysWrite (s.party f x r.batch) g gran
  match resp with
  | .okay =>
    let s := s.relayCopy f body
    (.okay, if x.notify then s.sendMsg f x.vector (BitVec.ofNat 32 (m % 65536 + i % 1024 * 65536)) else s)
  | resp => (resp, s)

/-- A record is written and takes its number (R437). A batch record of a guaranteed stream later than its deadline is counted (R547). -/
def State.relayPut (f i : Nat) (r : RelayRec) (s : State) : Resp × State :=
  let x := s.stream f i
  match s.relayWrite f i x r with
  | (.okay, s) =>
    let late := r.data && x.guaranteed && !x.void && decide (s.deadline x r.batch < s.now)
    let s := s.setStream f i { x with
      relayNext := x.relayNext + 1, unacked := if r.data then x.unacked else x.unacked + 1,
      delivered := if r.data then x.delivered + 1 else x.delivered,
      posted := if r.data then x.posted.filter (fun b => b.batch != r.batch) else x.posted,
      st := if r.data ∧ x.st = .filling then .running else x.st }
    let s := if r.data then s.count 4 x.gidx 3 1 else s
    (.okay, if late then s.count 4 x.gidx 8 1 else s)
  | (resp, s) => (resp, s)

/-! ## Halts -/

/-- The members of a stream's lock group as stream keys, itself included; itself alone when unbound. -/
def State.groupMates (s : State) (f i : Nat) : List Nat := match (s.stream f i).group with
  | some g => (s.group g).members
  | none => [sKey f i]

/-- Appends a record that waits for its write. -/
def State.relayQueue (f i : Nat) (r : RelayRec) (s : State) : State :=
  s.modStream f i (fun x => { x with waitingRecs := x.waitingRecs ++ [r] })

/-- The guarantee of a stream is voided by an event of time `at_` (R251, R252); its guaranteed group mates receive the record too, naming
it (R241). -/
def State.voidStream (f i cause at_ : Nat) (s : State) : State :=
  s.forEach (s.groupMates f i) (fun k s =>
    let f' := k / 1024
    let i' := k % 1024
    let y := s.stream f' i'
    if y.st == .free || !y.guaranteed || (y.void && k == sKey f i) then s else
      let origin := if k = sKey f i then 0 else i + f * 1024 + 65536
      let s := s.setStream f' i' { y with void := true, voidSince := if y.void then y.voidSince else at_,
                                          waitingRecs := y.waitingRecs ++ [y.statusRec at_ stVoid cause origin] }
      if y.void then s else s.count 4 y.gidx 5 1)

/-- HALTED with the first code kept; the halt is logged (R236, R525, R567). A halted holder waits for no buffer (R280). -/
def State.haltCore (f i code detail : Nat) (s : State) : State :=
  let x := s.stream f i
  if x.st = .free then s
  else
    let s := s.logTo (some f) code 1 3 i 0xFE detail
    if x.st = .halted then s
    else ((s.setStream f i { x with st := .halted, haltedFrom := x.st, haltedAt := s.now, haltCode := code }).count 4 x.gidx 6 1).watchPools

/-- A STREAM-class error other than a translation fault (R254, R566): a guaranteed stream writes one record of it. -/
def State.streamError (f i code detail : Nat) (s : State) : State :=
  let x := s.stream f i
  let s' := s.haltCore f i code detail
  if x.st = .free ∨ x.st = .halted ∨ !x.guaranteed then s' else s'.relayQueue f i (x.statusRec s.now code 0 0)

/-- A failed access is kept for the resume (R249); distinct faulting pages are to be reported (R144, R248). Where several accesses
fault in one page, its PAGE_REQ carries the WRITE bit and the TOKEN of the first response (log 120). -/
def State.addFault (f i addr : Nat) (token : Word) (write report : Bool) (s : State) : State :=
  s.modStream f i (fun x =>
    let r : FaultRec := ⟨addr / 4096, token, write⟩
    let known := x.pagesToSend.any (fun y => y.page == r.page)
    { x with faults := if x.faults.contains r then x.faults else x.faults ++ [r],
             pagesToSend := if report && !known && x.pagesToSend.length < 8 then x.pagesToSend ++ [r] else x.pagesToSend })

/-- A FAULT response on an access of a stream (R248): it halts, and what is out is waited for. On a stream that has halted already it is
logged only (R525); its page joins the group of a translation fault that has not been sent yet, and is else reported after the next
resume (R144, R249). -/
def State.streamFault (f i addr : Nat) (token : Word) (write : Bool) (s : State) : State :=
  let x := s.stream f i
  if x.st = .free then s else
    let more := x.st == .halted && x.haltCode == stTranslation && !x.pageGroupHeld
    (s.haltCore f i stTranslation 0).addFault f i addr token write (x.st != .halted || more)

/-- A translation fault whose page requests have not been sent yet (R248). -/
def Stream.faultOpen (x : Stream) : Bool := x.st == .halted && x.haltCode == stTranslation && !x.pageGroupHeld && !x.pagesToSend.isEmpty

/-- The last step of a translation fault's sequence (R248): the guarantee is voided with its record, or a best-effort stream's ring
gets one. -/
def State.faultRecord (f i : Nat) (s : State) : State :=
  let x := s.stream f i
  if x.guaranteed then (if x.void then s else s.voidStream f i stTranslation x.haltedAt)
  else s.relayQueue f i (x.statusRec x.haltedAt stTranslation 0 0)

/-- A DECERR response on an access of a stream (R566). -/
def State.streamDecerr (f i addr : Nat) (write : Bool) (s : State) : State :=
  (s.streamError f i stAccessDenied 0).addFault f i addr 0 write false

/-- A response other than OKAY on an access of a stream (R135, R248, R566). -/
def State.streamResp (f i addr : Nat) (write : Bool) (r : Resp) (s : State) : State := match r with
  | .okay => s
  | .fault t => s.streamFault f i addr t write
  | .poison => s.streamError f i stPoison 0
  | .decerr => s.streamDecerr f i addr write

/-- Removes the first waiting record. -/
def State.relayPop (f i : Nat) (s : State) : State := s.modStream f i (fun x => { x with waitingRecs := x.waitingRecs.tail })

/-- The record of a DECERR halt (R566). -/
def RelayRec.denied (r : RelayRec) : Bool := r.status == stAccessDenied && !r.data

/-- The first waiting record of a stream may be written: the ring has room (R438), no failed write holds it (R248), and the frame is not
in FATAL (R255). -/
def State.relayFree (s : State) (x : Stream) : Bool := match x.waitingRecs with
  | [] => false
  | r :: _ => x.relayRoom && (!x.relayStuck || r.denied) && s.frame.st != .fatal

/-- The request of a stream's next record, for the arbiter. -/
def State.relayReq (s : State) (f : Nat) (x : Stream) : Req :=
  (s.party f x ((x.waitingRecs.head?.map (·.batch)).getD 0)).req .write (x.relayAddr x.relayNext / 64 * 64) 64 0 []

/-- The stream whose record the arbiter takes next, among those not in `skip` (R231, R232). -/
def State.nextRelay (s : State) (skip : List Nat) : Option (Nat × Nat × Stream) :=
  let l := s.openStreams.filter (fun p => s.relayFree p.2.2 && !skip.contains (sKey p.1 p.2.1))
  let rq := fun (p : Nat × Nat × Stream) => s.relayReq p.1 p.2.2
  (l.find? (fun p =>
    let n := s.streamPort p.2.2
    s.choose n ((l.filter (fun q => s.streamPort q.2.2 == n)).map rq) == some (rq p))).or l.head?

/-- A DECERR on a write of the ring (R566): the record of the halt is tried before the one that failed. -/
def State.relayDecerr (f i : Nat) (s : State) : State :=
  let x := s.stream f i
  let s := s.streamDecerr f i (x.relayAddr x.relayNext) true
  s.modStream f i (fun y => { y with waitingRecs := y.waitingRecs.drop x.waitingRecs.length ++ y.waitingRecs.take x.waitingRecs.length })

/-- Writes the waiting records that may be written, one at a time and in order (R437, R438). A record whose write has to wait stays; a
status record names the lowest batch without a written record when it is written (R436). -/
def State.relaySettle : Nat → List Nat → State → State
  | 0, _, s => s
  | n + 1, skip, s =>
    match s.nextRelay skip with
    | none => s
    | some (f, i, x) =>
      match x.waitingRecs with
      | [] => s
      | r :: _ =>
        match s.attempt (State.relayPut f i (if r.data then r else { r with batch := x.delivered })) with
        | (none, s) => s.relaySettle n (skip ++ [sKey f i])
        | (some .okay, s) => (s.relayPop f i).relaySettle n skip
        | (some e, s) =>
          -- the record of a DECERR halt that cannot be written is skipped, and the halt only logged (R566)
          if r.denied then ((s.logTo (some f) (respCode e) 1 3 i 0xFE 0).relayPop f i).relaySettle n skip
          else match e with
            | .fault t => (s.streamFault f i (x.relayAddr x.relayNext) t true).relaySettle n skip
            | _ => (s.relayDecerr f i).relaySettle n skip

/-- Enough steps for every waiting record and every record a fault can add. -/
def State.relayFuel (s : State) : Nat := s.streams.foldl (fun n p => n + p.2.waitingRecs.length + 66) 1

/-- Writes all waiting relay records that may be written. -/
def State.relays (s : State) : State := s.relaySettle s.relayFuel []

/-- Posts a record and writes what may be written. -/
def State.relayPost (f i : Nat) (r : RelayRec) (s : State) : State := (s.relayQueue f i r).relays

/-- The ending record of a ring, STREAM_ABORTED or FATAL (R237, R255, R438): waiting records are dropped, the
limit of R438 does not hold, and a write that is not OKAY is skipped. One that cannot go out at once is written later (log 4). -/
def State.relayEnd (f i status : Nat) (s : State) : State :=
  let x := s.stream f i
  let r := x.statusRec s.now status 0 0
  match (s.setStream f i { x with waitingRecs := [] }).attempt (State.relayPut f i r) with
  | (some _, s) => s
  | (none, s) => { s with later := s.later ++ [.ending f i x r] }

/-- The deadlines of the requests that still wait for a stream (R231, R234). -/
def State.renewDeadlines (f i : Nat) (s : State) : State :=
  let x := s.stream f i
  let renew := fun (r : Req) => match r.owner with
    | .streamRead g j ix _ => if g = f ∧ j = i then { r with deadline := (s.reqTime x (s.sampleBatch x ix)).1 } else r
    | .slotBlock g j b _ => if g = f ∧ j = i then { r with deadline := (s.reqTime x b).1 } else r
    | _ => r
  { s with ports := tblMap (fun _ p => { p with waiting := p.waiting.map renew }) s.ports }

/-- A stream runs again: it re-arms if its guarantee was void or it halted (R253, R254). With a guarantee that was void every member of
its lock group re-arms at that instant (R241); one that is itself still halted stays void until it runs again. -/
def State.rearmStream (f i : Nat) (s : State) : State :=
  let x := s.stream f i
  let t := s.now
  let one := fun (k : Nat) (s : State) =>
    let y := s.stream (k / 1024) (k % 1024)
    if y.st == .free || !y.guaranteed || (y.st == .halted && k != sKey f i) then s else
      let s := if y.void then s.count 4 y.gidx 7 (t - y.voidSince) else s
      (s.setStream (k / 1024) (k % 1024) { y with void := false, rearm := some (t, y.delivered) }).renewDeadlines (k / 1024) (k % 1024)
  if x.void then s.forEach (s.groupMates f i) one else one (sKey f i) s

end Sys2Proof.Machine
end

