-- ==== Sys2Proof/Machine/PoolOps.lean ====
section
/-! DEFINITION. Buffer pools: handles, reservations, faults, releases, the handle cache and its ring
(R271 to R282). -/

namespace Sys2Proof.Machine

/-- The frame runs data-plane work: RUNNING or WALK (R167, R218, R530), and the control bay's clock is not gated for a step (R151). -/
def State.live (s : State) : Bool := (s.frame.st == .running || s.frame.st == .walk) && !(s.bay 64).stopped

/-- The pool number of a function-local pool (R270). -/
def State.poolNo (s : State) (f local_ : Nat) : Option Nat :=
  (s.pools.find? (fun p => p.2.assigned && p.2.fn == f && p.2.localNo == local_)).map (·.1)

/-- A valid handle (R272). -/
def Pool.validHandle (p : Pool) (h : Nat) : Bool :=
  h % 2 ^ p.log2Size == 0 && p.region ≤ h && h < p.region + p.buffers * 2 ^ p.log2Size

/-- The buffer slot of a handle (R272). -/
def Pool.slotOf (p : Pool) (h : Nat) : Nat := (h - p.region) / 2 ^ p.log2Size

/-- A pool fault (R277): disabled, logged in the function's log, waiting streams halt. -/
def State.poolFault (p code detail : Nat) (s : State) : State :=
  let x := s.pool p
  let s := s.setPool p { x with enabled := false, fault := true, faultCode := code, waits := [], stalled := false }
  let s := s.logTo (some x.fn) code 4 4 x.localNo 0xFE detail
  (s.forEach x.waits (fun w s => s.streamError (w.stream / 1024) (w.stream % 1024) stAccessDenied 0)).relays

/-- A pool access that is not OKAY faults the pool (R135, R277). -/
def State.poolResp (p addr : Nat) (r : Resp) (s : State) : State := s.poolFault p (respCode r) addr

/-- The key under which a buffer stays held for a stream that has closed, until its release can go out (log 4). -/
def closedKey (k : Nat) : Nat := k + 2 ^ 17

/-- A stream key as the party of pool traffic for one of its samples (R231); for a stream that has closed, its function. -/
def State.keyParty (s : State) (k g : Nat) : Party :=
  if 2 ^ 17 ≤ k then .control ((k - 2 ^ 17) / 1024) else { s.sampleParty (k / 1024) (s.stream (k / 1024) (k % 1024)) g with port := 0 }

/-- The party of a pool's ring traffic (R231): the guaranteed stream with the earliest deadline that waits for a buffer, else the
pool's function. -/
def State.ringParty (s : State) (p : Nat) : Party :=
  let x := s.pool p
  (x.waits.map (fun w => s.keyParty w.stream w.sampleIx)).foldl (fun a b => match a.deadline, b.deadline with
    | none, some _ => b
    | some d, some e => if e < d ∨ (e = d ∧ b.gidx < a.gidx) then b else a
    | _, none => a) (.control x.fn)

/-- Writes groups of 8 handles, one granule each, at the ring's tail (R273). -/
def State.ringWrite (p : Nat) : List (List Nat) → State → State
  | [], s => s
  | g :: t, s =>
    let x := s.pool p
    let addr := x.ring + 8 * ((x.ringHead + x.ringCount) % 2 ^ x.log2Ring)
    match s.sysWrite (s.ringParty p) addr (padTo 64 (g.flatMap (natLe 8))) with
    | (.okay, s) => (s.setPool p { x with ringCount := x.ringCount + g.length, cache := x.cache.drop g.length }).ringWrite p t
    | (r, s) => s.poolResp p addr r

/-- Moves `n` handles from the cache to the ring in groups of 8 (R273). -/
def State.spillHandles (p n : Nat) (s : State) : State := s.ringWrite p (chunks 8 n ((s.pool p).cache.take n))

/-- Moves `n` groups of 8 handles from the ring to the cache (R273). -/
def State.ringRead (p : Nat) : Nat → State → State
  | 0, s => s
  | n + 1, s =>
    let x := s.pool p
    if x.ringCount < 8 then s else
      let addr := x.ring + 8 * (x.ringHead % 2 ^ x.log2Ring)
      match s.sysRead (s.ringParty p) addr 64 with
      | (.okay, bs, s) =>
        let hs := (List.range 8).map (fun j => leAt bs (8 * j) 8)
        (s.setPool p { x with cache := x.cache ++ hs, ringHead := (x.ringHead + 8) % 2 ^ x.log2Ring, ringCount := x.ringCount - 8 }).ringRead p n
      | (r, _, s) => s.poolResp p addr r

/-- Adds handles to the free store; the cache spills 32 whenever it rises above 48 (R273, R274). -/
def State.addHandles (p : Nat) : List Nat → State → State
  | [], s => s
  | h :: t, s =>
    let x := s.pool p
    let s := s.setPool p { x with cache := x.cache ++ [h] }
    let s := if 48 < (s.pool p).cache.length then s.spillHandles p 32 else s
    if !(s.pool p).enabled then s else s.addHandles p t

/-- A buffer becomes free (R276); above 48 handles the cache spills 32 (R273). -/
def State.freeBuffer (p handle : Nat) (s : State) : State :=
  let s := (s.modPool p (fun x => { x with cache := x.cache ++ [handle], holders := x.holders.filter (fun h => h.handle != handle) })).count 6 p 1 1
  if 48 < (s.pool p).cache.length then s.spillHandles p 32 else s

/-- One release by a holder (R276, R277). -/
def State.releaseBuffer (p key handle : Nat) (s : State) : State :=
  let x := s.pool p
  match x.holders.find? (fun h => h.handle == handle && h.streams.contains key) with
  | none => s
  | some h =>
    if !x.enabled then s.setPool p { x with holders := x.holders.filter (fun h => h.handle != handle) }
    else if !h.shared then s.freeBuffer p handle
    else
      let addr := x.refs + 4 * x.slotOf handle
      match s.sysAdd (s.keyParty key (h.sampleOf key)) addr 0xFFFFFFFF with
      | (.okay, old, s) =>
        if old = 0 then s.poolFault p stMalformed (x.slotOf handle)
        else if old = 1 then s.freeBuffer p handle
        else s.modPool p (fun x => { x with holders := x.holders.map (fun y =>
          if y.handle == handle then { y with users := y.users.filter (·.1 != key) } else y) })
      | (r, _, s) => s.poolResp p addr r

/-- Further holders join a buffer together (R276): the first time the table gets the total of holders, then the number that join. A buffer
never has more than 65,535 holders. -/
def State.shareBuffer (p : Nat) (keys : List Nat) (handle : Nat) (s : State) : State :=
  let x := s.pool p
  match x.holders.find? (fun h => h.handle == handle) with
  | none => s
  | some h =>
    let new := (keys.filter (fun k => !h.streams.contains k)).eraseDups.map (fun k => (k, (s.stream (k / 1024) (k % 1024)).position))
    match new with
    | [] => s
    | (key, g) :: _ =>
      let n := if h.shared then new.length else h.users.length + new.length
      let addr := x.refs + 4 * x.slotOf handle
      if 65535 < h.users.length + new.length then s
      else match s.sysAdd (s.keyParty key g) addr n with
        | (.okay, old, s) =>
          if 0xFFFF < old + n then s.poolFault p stMalformed (x.slotOf handle)
          else s.modPool p (fun x => { x with holders := x.holders.map (fun y =>
            if y.handle == handle then { y with users := y.users ++ new, shared := true } else y) })
        | (r, _, s) => s.poolResp p addr r

/-- The holder of a buffer gets another key. -/
def Pool.rekey (x : Pool) (handle key new : Nat) : Pool :=
  { x with holders := x.holders.map (fun h => if h.handle = handle then { h with users := h.users.map (fun u => if u.1 = key then (new, u.2) else u) } else h) }

/-- One release that may have to wait: the buffer stays held until it can be made (log 4). -/
def State.releaseLater (p key handle : Nat) (s : State) : State :=
  match s.attempt (fun s => ((), s.releaseBuffer p key handle)) with
  | (some _, s) => s
  | (none, s) =>
    let dead := if 2 ^ 17 ≤ key then key else closedKey key
    let s := s.modPool p (fun x => x.rekey handle key dead)
    { s with later := s.later ++ [.release p dead handle] }

/-- Releases every buffer and drops every waiting allocation of a stream, over all pools (R237, R281). -/
def State.releaseAll (key : Nat) (keep : Holder → Bool) (s : State) : State :=
  s.forEach (s.pools.map (·.1)) (fun p s =>
    let x := s.pool p
    let s := s.setPool p { x with waits := x.waits.filter (fun w => w.stream != key) }
    s.forEach ((x.holders.filter (fun h => h.streams.contains key && !keep h)).map (·.handle)) (State.releaseLater p key))

/-- Grants the first waiting allocation (R275). -/
def State.grant (p : Nat) (s : State) : State :=
  let x := s.pool p
  match x.waits, x.cache with
  | w :: ws, h :: hs =>
    ((s.restartStall p).setPool p { x with
      waits := ws, cache := hs, holders := x.holders ++ [⟨h, [(w.stream, w.sampleIx)], false⟩], stallSince := s.now, stalled := false }).count 6 p 0 1
  | _, _ => s

/-- Grants as many waiting allocations as can be granted, up to a number. -/
def State.grantSome (p : Nat) : Nat → State → State
  | 0, s => s
  | n + 1, s => if s.grantable p then (s.grant p).grantSome p n else s

/-- A stream waits for a buffer, of this or another pool. -/
def State.awaitsBuffer (s : State) (key : Nat) : Bool := s.pools.any (fun q => q.2.waits.any (fun w => w.stream == key))

/-- Buffers of a local pool that a stream holds for one of its samples. -/
def Pool.heldFor (p : Pool) (key g : Nat) : List Nat := (p.holders.filter (fun h => h.users.contains (key, g))).map (·.handle)

/-- An engine needs `n` buffers of a local pool for a sample (R275): whether it holds them. Those that it misses are asked for; with the
pool at fault its stream halts (R277). -/
def State.holdBuffers (f i local_ g n : Nat) (s : State) : Bool × State := match s.poolNo f local_ with
  | none => (false, s)
  | some p =>
    let key := sKey f i
    let x := s.pool p
    let mine := (x.heldFor key g).length
    if n ≤ mine then (true, s)
    else if x.fault then (false, (s.streamError f i stAccessDenied 0).relays)
    else if !x.enabled then (false, s)
    else
      let asked := (x.waits.filter (fun w => w.stream == key && w.sampleIx == g)).length
      let s := (s.setPool p { x with
        waits := x.waits ++ List.replicate (n - mine - asked) ⟨key, g, s.now⟩, stallSince := if x.waits.isEmpty then s.now else x.stallSince }).grantSome p n
      (decide (n ≤ ((s.pool p).heldFor key g).length), s.watchPools)

/-- The buffers of a local pool that a stream holds for a sample are released (R276). -/
def State.dropBuffers (f i local_ g : Nat) (s : State) : State := match s.poolNo f local_ with
  | none => s
  | some p => (s.forEach ((s.pool p).heldFor (sKey f i) g) (State.releaseBuffer p (sKey f i))).watchPools

/-- The watchdog time in ns; values below 10 act as 10 (R280, POOL_STALL). -/
def State.stallNs (s : State) : Nat := 1000 * max 10 s.stallUs

/-- The holder to pre-empt (R281): the latest next deadline, best-effort latest, ties to the higher index. -/
def State.victim (s : State) (p : Nat) : Option Nat :=
  let x := s.pool p
  let ks := ((x.holders.flatMap (·.streams)).foldl (fun l k => if l.contains k then l else l ++ [k]) [])
  let el := (ks.filter (fun k => decide (k < 2 ^ 17))).filter (fun k => s.frame.openMode || s.reservation (s.stream (k / 1024) (k % 1024)).graph x.localNo < x.heldBy k)
  let rank := fun k => let y := s.stream (k / 1024) (k % 1024)
    (if y.guaranteed then s.deadline y y.delivered else 2 ^ 200, y.gidx)
  el.foldl (fun o k => match o with
    | none => some k
    | some j => if (rank j).1 < (rank k).1 ∨ ((rank j).1 = (rank k).1 ∧ (rank j).2 < (rank k).2) then some k else some j) none

/-- A held sample is complete when it has been placed in a batch: it is neither in flight nor still to come (R281). -/
def Stream.sampleComplete (x : Stream) (n : Nat) : Bool := n < x.position && !x.inFlight.any (fun y => y.index == n)

/-- A pre-emption rewinds the stream to its first incomplete sample (R281). -/
def State.preempt (p k : Nat) (s : State) : State :=
  let f := k / 1024
  let i := k % 1024
  let x := s.stream f i
  let fst := ((s.pools.flatMap (fun q => q.2.holders)).filter (fun h => h.streams.contains k && !x.sampleComplete (h.sampleOf k))).foldl
    (fun n h => min n (h.sampleOf k)) x.position
  let s := s.releaseAll k (fun h => x.sampleComplete (h.sampleOf k))
  let y := s.stream f i
  let redo := (y.inFlight.filter (fun z => fst ≤ z.index)).map (·.index)
  let s := s.setStream f i { y with
    position := fst, inFlight := y.inFlight.filter (fun z => z.index < fst), reading := none,
    skip := y.skip.filter (fun g => x.position ≤ g) ++ ((List.range (x.position - fst)).map (· + fst)).filter (fun g => !redo.contains g),
    st := if y.st = .running then .filling else y.st }
  let s := s.logTo (some f) stPreempt 1 4 i 0xFE (s.pool p).localNo
  let s := ((s.restartStall p).modPool p (fun y => { y with preempted := true })).count 6 p 3 1
  let s := s.watchPools
  if s.frame.openMode && x.guaranteed then ((s.voidStream f i stPreempt s.now).rearmStream f i).relays else s

end Sys2Proof.Machine
end

