-- ==== Sys2Proof/Machine/QueueOps.lean ====
section
/-! DEFINITION. Shared operations of queues: laps (R194), faults (R207, R210), error records (R209),
notifications (R211), and how an entry of a job completes (R189, R202, R565). -/

namespace Sys2Proof.Machine

/-- A job of an earlier enabling of the queue: it runs to completion, and HEAD has nothing to do with it (R210; log 130). -/
def Queue.old (x : Queue) (j : Job) : Bool := j.gen != x.gen

/-- The jobs that HEAD is to pass. -/
def Queue.own (x : Queue) : List Job := x.jobs.filter (fun j => !x.old j)

/-- The lap of an entry: the lap in which HEAD next reaches its slot (R194). -/
def Queue.lapOf (x : Queue) (slot : Nat) : Nat := (x.lap + b2n (slot < x.head)) % 2 ^ 32

/-- Slots of the ring (R187). -/
def Queue.size (x : Queue) : Nat := 2 ^ x.log2

/-- P of R195: values above 32 act as 32. -/
def Queue.pre (x : Queue) : Nat := min 32 x.prefetch

/-- Nothing fetched, running or awaiting publication (Q_STATUS.IDLE). A faulted queue publishes nothing more (R210). -/
def Queue.quiet (x : Queue) : Bool :=
  x.jobs.all (fun j => j.complete && (x.fault || x.old j)) && x.arrived.isEmpty && x.chain.isNone && x.broken.isNone

/-- The queue a request serves. -/
def Owner.queue? : Owner → Option (Nat × Nat)
  | .queueIndex f q => some (f, q)
  | .queueTail f q => some (f, q)
  | .queueEntry f q _ _ => some (f, q)
  | _ => none

/-- Requests that satisfy a test leave the ports: waiting ones are removed, outstanding ones discard their
response on arrival (R181, R532). -/
def State.dropReqs (test : Req → Bool) (s : State) : State :=
  { s with ports := tblMap (fun _ p => { p with
      waiting := p.waiting.filter (fun r => !test r), answers := p.answers.filter (fun a => !test a.req),
      reads := p.reads.map (fun o => if test o.req then { o with drop := true } else o),
      writes := p.writes.map (fun o => if test o.req then { o with drop := true } else o) }) s.ports }

/-- The queue reads of a test leave the ports. -/
def State.dropQueueReads (f q : Nat) (all : Bool) (s : State) : State :=
  s.dropReqs (fun r => match r.owner with
    | .queueEntry g p _ posted => g == f && p == q && (all || !posted)
    | .queueTail g p => all && g == f && p == q
    | .queueIndex g p => all && g == f && p == q
    | _ => false)

/-- A queue fault (R207, R210): disabled, undispatched entries discarded, those whose reads are still out among them, and logged in the
function's log (R567). While an earlier fault stands only a failing enable is a new one (R214). -/
def State.queueFault (f q code detail : Nat) (s : State) : State :=
  let x := s.queue f q
  if x.fault && !x.enabling then s else
    let s := (s.dropQueueReads f q true).setQueue f q { x with
      enabled := false, enabling := false, disabling := false, fault := true, faultCode := code, arrived := [], chain := none,
      broken := none, tailOut := false, tailAgain := false, tailValue := none, indexBlock := none, heldDisable := false,
      jobs := x.jobs.filter (fun j => j.started && (j.complete || decide (j.acted < j.total) || j.waits.isSome)) }
    s.logTo (some f) code 4 2 q 0xFE detail

/-- One MSG of a queue (R211). -/
def State.queueMsg (f q : Nat) (s : State) : State :=
  let x := s.queue f q
  let s := s.setQueue f q { x with errSince := false }
  s.sendMsg f x.vector (BitVec.ofNat 32 (x.head % 65536 + (q % 4096) * 65536 + b2n x.errSince * 2 ^ 28))

/-- FETCH_ADD_32 on a word of the index block (R192): an unexpected old value faults the queue (R207). The result
says whether the addition took place. -/
def State.indexAdd (f q off expected addend : Nat) (s : State) : Bool × State :=
  let x := s.queue f q
  match s.sysAdd (.control f) (x.index + off) addend with
  | (.okay, old, s) =>
    if old = expected then (true, s) else (false, s.queueFault f q stMalformed (expected + old * 2 ^ 32))
  | (r, _, s) => (false, s.queueFault f q (respCode r) (x.index + off))

/-- An error record is written and then counted (R209, R211). A faulted queue writes none (R210). -/
def State.writeError (f q entry lap code opcode user detail : Nat) (s : State) : State :=
  let x := s.queue f q
  if x.fault || !s.live then s else
    let k := x.errCount
    let addr := x.errBase + 64 * (k % 2 ^ x.errLog2)
    let body := natLe 4 entry ++ natLe 4 lap ++ natLe 1 code ++ natLe 1 opcode ++ natLe 2 k ++ natLe 4 user ++ natLe 8 detail ++ zeros 40
    match s.sysWrite (.control f) addr body with
    | (.okay, s) =>
      match s.indexAdd f q 0x10 k 1 with
      | (true, s) =>
        let s := (s.modQueue f q (fun x => { x with errCount := (k + 1) % 2 ^ 32, errSince := true })).count 5 x.qid 1 1
        if x.errNotify then s.queueMsg f q else s
      | (false, s) => s
    | (r, s) => s.queueFault f q (respCode r) addr

/-- Work that waited is done (log 4). The ending record of a ring needs its OKAY for nothing but its copy and its MSG (R237). -/
def Later.run (l : Later) (s : State) : State := match l with
  | .error f q entry lap code opcode user detail => s.writeError f q entry lap code opcode user detail
  | .ending f i x r => (s.relayWrite f i x r).2
  | .release p key handle => s.releaseBuffer p key handle

/-- The queue whose error record it is: those of one queue are written in order (R209). -/
def Later.queue? : Later → Option (Nat × Nat)
  | .error f q _ _ _ _ _ _ => some (f, q)
  | _ => none

/-- An error record of a queue has not been written and counted yet. -/
def State.errorWaits (s : State) (f q : Nat) : Bool := s.later.any (fun l => l.queue? == some (f, q))

/-- Work is done now, or later where it has to wait. -/
def State.orLater (l : Later) (s : State) : State :=
  if (match l.queue? with
      | some (f, q) => s.errorWaits f q
      | none => false) then { s with later := s.later ++ [l] }
  else match s.attempt (fun s => ((), l.run s)) with
    | (some _, s) => s
    | (none, s) => { s with later := s.later ++ [l] }

/-- Work that waits is tried again, in order. -/
def State.catchUp (s : State) : State := State.forEach s.later State.orLater { s with later := [] }

/-- An error record of a queue (R209, R211). -/
def State.errorRecord (f q entry lap code opcode user detail : Nat) (s : State) : State :=
  s.orLater (.error f q entry lap code opcode user detail)

/-- USER of an entry (R188). -/
def entryUser (bs : Bytes) : Nat := leAt bs 4 4

/-- Replaces a job: the one of its enabling that starts at its slot. -/
def State.modJob (f q : Nat) (j : Job) (g : Job → Job) (s : State) : State :=
  s.modQueue f q (fun x => { x with jobs := x.jobs.map (fun y => if y.slot = j.slot ∧ y.gen = j.gen then g y else y) })

/-- The entry that a job acts on next (R565): entry by entry in slot order. -/
def Job.current (j : Job) : Option (Nat × Bytes) := if j.complete || j.waits.isSome then none else j.entries[j.acted]?

/-- The dispatched job whose next entry lies in a slot. -/
def State.jobAt (s : State) (f q slot : Nat) : Option (Job × Bytes) :=
  (s.queue f q).jobs.findSome? (fun j => match j.current with
    | some (n, bs) => if n = slot ∧ j.started then some (j, bs) else none
    | none => none)

/-- One more entry of a job has acted; the last one completes it (R202, R565). -/
def Job.step (j : Job) : Job := { j with acted := j.acted + 1, progress := none, complete := decide (j.total ≤ j.acted + 1) && j.waits.isNone }

/-- The entry that a job acts on completes, with an error record unless its status is OK (R189, R208, R209) or its queue has faulted
since its dispatch (R210). -/
def State.entryDone (f q : Nat) (j : Job) (bs : Bytes) (code detail : Nat) (s : State) : State :=
  let x := s.queue f q
  let slot := (j.current.map (·.1)).getD j.slot
  let s := if code = stOk ∨ x.old j then s else s.errorRecord f q slot (x.lapOf slot) code j.opcode (entryUser bs) detail
  s.modJob f q j Job.step

/-- A whole job completes under one record for its first entry (R203, R565). -/
def State.jobDone (f q : Nat) (j : Job) (code detail : Nat) (s : State) : State :=
  let x := s.queue f q
  let user := match j.entries with
    | (_, bs) :: _ => entryUser bs
    | [] => 0
  let s := if code = stOk ∨ x.old j then s else s.errorRecord f q j.slot (x.lapOf j.slot) code j.opcode user detail
  s.modJob f q j (fun j => { j with complete := true, acted := j.total })

/-- An entry acted, but completes only at the end of a stream, or with the delivery of a sample of it (R189). -/
def State.entryWaits (f q : Nat) (j : Job) (key : Nat) (sample : Option Nat) (s : State) : State :=
  s.modJob f q j (fun j => { j with acted := j.acted + 1, waits := some (key, sample) })

/-- A wait ends. -/
def Job.wake (j : Job) : Job := { j with waits := none, complete := decide (j.total ≤ j.acted) }

/-- The streams that an entry names (R204). -/
def entryStreams (op : Nat) (bs : Bytes) : List Nat :=
  if op = 0x0E then (List.range (min 16 (leAt bs 0x0B 1))).map (fun j => leAt bs (0x10 + 2 * j) 2)
  else if (2 ≤ op ∧ op ≤ 9) ∨ (0x0B ≤ op ∧ op ≤ 0x0D) then [leAt bs 8 2] else []

/-- The streams that a job names. -/
def Job.names (j : Job) : List Nat := j.entries.flatMap (fun e => entryStreams j.opcode e.2)

/-- A transfer whose stream has closed cannot go on: its entry completes with STREAM_ABORTED (log 53). -/
def State.endTransfers (f i : Nat) (s : State) : State :=
  s.forEach (s.allQueues.filter (fun p => p.1 == f)) (fun p s =>
    s.forEach (p.2.2.jobs.filter (fun j => j.progress.isSome && j.names.contains i)) (fun j s => match j.current with
      | some (_, bs) => s.entryDone f p.2.1 j bs stAborted 0
      | none => s))

/-- Jobs that wait for a stream's end go on. -/
def State.wakeJobs (key : Nat) (s : State) : State :=
  { s with queues := tblMap (fun _ x => { x with jobs := x.jobs.map (fun j =>
      match j.waits with
      | some (k, _) => if k = key then j.wake else j
      | none => j) }) s.queues }

/-- Whether a stream still holds a logical sample short of its batch record (R189). -/
def Stream.holds (x : Stream) (p : Nat) : Bool :=
  let base := (x.runs.getLast?.map (·.base)).getD 0
  x.inFlight.any (fun y => y.index == base + p) || x.ready.any (fun y => y.index == base + p) ||
  x.openRows.any (fun r => r.indices.contains p) || x.closedRows.any (fun r => r.indices.contains p) ||
  x.placed.any (fun y => y.samples.contains p) || (x.xfer.any (fun t => t.places.any (·.samples.contains p))) ||
  (x.finished ++ x.posted).any (fun t => t.places.any (·.samples.contains p))

/-- Jobs that wait for samples no longer held go on. -/
def State.wakeSamples (f i : Nat) (s : State) : State :=
  let x := s.stream f i
  { s with queues := tblMap (fun _ q => { q with jobs := q.jobs.map (fun j =>
      match j.waits with
      | some (k, some p) => if k = sKey f i ∧ !x.holds p then j.wake else j
      | _ => j) }) s.queues }

end Sys2Proof.Machine
end

