-- ==== Sys2Proof/Machine/StreamOps.lean ====
section
/-! DEFINITION. How streams end: lock groups left (R242), buffers, banks, page groups and requests given up
(R237, R263, R276), STREAM_ABORTED records (R237, R438). -/

namespace Sys2Proof.Machine

/-! ## FLUSH beats (R60, R245) -/

/-- The mark of R60 with even parity in bit 3. -/
def markOf (kind : Nat) : BitVec 4 :=
  BitVec.ofNat 4 (kind + 8 * ((fld kind 0 1 + fld kind 1 1 + fld kind 2 1) % 2))

/-- The 32 check bits of a beat: codeword A below codeword B (R55). -/
def checkOf (d : BitVec 256) : BitVec 32 := eccCheck (d.extractLsb' 128 128) ++ eccCheck (d.extractLsb' 0 128)

/-- A beat of 32 data bytes. -/
def beatOf (bs : Bytes) (kind : Nat) (tag : UnitTag) : Beat :=
  let d : BitVec 256 := BitVec.ofNat 256 (leNat bs)
  ⟨d, checkOf d, markOf kind, tag⟩

/-- A FLUSH beat of a stream (R60). -/
def flushBeat (gidx : Nat) : Beat := beatOf (natLe 32 gidx) 6 (.fresh gidx 0 0)

/-- Beats wait at a tenon. -/
def State.putBeats (bay tenon : Nat) (bs : List Beat) (s : State) : State :=
  s.modBay bay (fun b => { b with out := tblSet b.out tenon (tblGetD b.out tenon [] ++ bs) })

/-- The committed routes that leave a bay for a bay of the graph. -/
def State.routesFrom (s : State) (g : Graph) (bay : Nat) : List RouteCfg := match s.image.committed with
  | some c => c.routes.filter (fun r => r.tenonBay == bay && hasBit g.bays bay && hasBit g.bays r.mortiseBay)
  | none => []

/-- FLUSH beats of a stream boundary leave the bays where its graph begins, on every route of the graph (R60, R245). -/
def State.sendFlush (f i : Nat) (s : State) : State :=
  let x := s.stream f i
  let g := s.graphOf x
  let rs := (List.range s.nBays).flatMap (s.routesFrom g)
  let sources := rs.filter (fun r => hasBit g.bays r.tenonBay && !rs.any (fun p => p.mortiseBay == r.tenonBay && hasBit g.bays p.tenonBay))
  s.forEach sources (fun r s => s.putBeats r.tenonBay r.tenonPort [flushBeat x.gidx])

/-- The last sample of the latest epoch has been dispatched, and FLUSH beats have left with it (R60). -/
def Stream.flushSent (x : Stream) : Bool := match x.runs.getLast? with
  | some r => (match r.stop with
    | some e => decide (e ≤ x.position)
    | none => false)
  | none => false

/-! ## Records and lock groups -/

/-- The batch record of the oldest finished batch is written (R436, R437). -/
def State.releaseHead (f i : Nat) (time : Option Nat) (s : State) : State :=
  let x := s.stream f i
  match x.finished with
  | [] => s
  | b :: rest =>
    let r : RelayRec := ⟨b.batch, time.getD b.time, stOk, 0, true, x.lastBatch s.meet, 0, b.batch % x.depth, b.valid⟩
    (s.setStream f i { x with finished := rest, posted := x.posted ++ [b] }).relayPost f i r

/-- The release instant of a group (R240): the first whole microsecond after the last member finished, or the common
deadline if later. -/
def State.releaseInstant (s : State) (g : LockGroup) : Option Nat :=
  let ms := g.members.map (fun k => s.stream (k / 1024) (k % 1024))
  if g.members.length < g.size ∨ g.members.isEmpty ∨ ms.any (fun x => x.st == .halted || x.st == .free || x.finished.isEmpty || x.follows.isSome) then none
  else
    let last := ms.foldl (fun t x => max t ((x.finished.head?.map (·.time)).getD 0)) 0
    let us := ceilDiv last 1000 * 1000
    some (if g.mode = 0 then us else ms.foldl (fun t x => max t (s.deadline x ((x.finished.head?.map (·.batch)).getD 0))) us)

/-- The time that a release carries. One that comes late carries the last whole microsecond (log 52). -/
def State.releaseTime (s : State) (t : Nat) : Nat := if t + 2000 < s.now then s.now / 1000 * 1000 else t

/-- Batches of some members that nothing holds any more are released at once (R242); `n` bounds their number. -/
def State.releaseFreed (g : LockGroup) : Nat → State → State
  | 0, s => s
  | n + 1, s => match s.releaseInstant g with
    | none => s
    | some t => if !s.live || s.now < t then s
      else (s.forEach g.members (fun k => State.releaseHead (k / 1024) (k % 1024) (some (s.releaseTime t)))).releaseFreed g n

/-- A member leaves its lock group: SIZE falls by one, batches that waited only for it are released, and a group with one member left
dissolves (R242). -/
def State.leaveGroup (f i : Nat) (s : State) : State := match (s.stream f i).group with
  | none => s
  | some g =>
    let y := s.group g
    let left := y.members.filter (· != sKey f i)
    let z := { y with size := if left.length ≤ 1 then left.length else y.size - 1, members := left }
    let s := ((s.modStream f i (fun x => { x with group := none })).setGroup g z).releaseFreed z y.depth
    if left.length ≤ 1 then
      s.setGroup g .fresh |>.forEach left (fun k s => s.modStream (k / 1024) (k % 1024) (fun x => { x with group := none, loose := true }))
    else s

/-- Banks that a stream owns go back to the bank plan, cleared, when the baton returns; requests that name it as
the new owner are cancelled (R263). -/
def State.leaveBanks (gidx : Nat) (s : State) : State :=
  { s with banks := tblMap (fun b x =>
      let x := match x.pending with
        | some r => if r.kind = 2 ∧ r.index = gidx then { x with pending := none } else x
        | none => x
      if x.kind = 2 ∧ x.index = gidx then { x with pending := some ⟨(s.planOf b).1, (s.planOf b).2, true, false⟩ } else x) s.banks }

/-- A later stage waits for the FLUSH beats of the stage that had a frame-wide index (R245). -/
def State.hurdleAwaits (s : State) (g : Nat) : Bool := s.openStreams.any (fun p => p.2.2.hurdle && (p.2.2.before.map (·.1)) == some g)

/-- A request of a stream, one of a command for it among them (R232). -/
def Req.ofStream (r : Req) (f i gidx : Nat) : Bool := r.owner.stream? == some (f, i) || (r.owner == .direct (gidx + 1) && !r.mgmt)

/-- A stream becomes FREE and gives up all it holds. HALT_CODE keeps the last halt. Where a later stage waits for its FLUSH beats and it
has sent none, they leave now (R245; log 133). -/
def State.freeStream (f i : Nat) (s : State) : State :=
  let x := s.stream f i
  if x.st = .free then s else
    let s := if s.hurdleAwaits x.gidx && !x.flushSent then s.sendFlush f i else s
    let s := s.endTransfers f i
    let s := (s.releaseAll (sKey f i) (fun _ => false)).leaveGroup f i
    let s := if x.pageGroupHeld then s.modFunc f (fun y => { y with pageGroups := y.pageGroups.filter (· != x.pageGroup) }) else s
    let s := (s.leaveBanks x.gidx).dropReqs (fun r => r.ofStream f i x.gidx && (r.op == .read || r.owner.stream?.isSome))
    let s := { s with bays := tblMap (fun _ b => { b with
      heat := b.heat.filter (fun u => u.data.tag.stream != x.gidx), held := b.held.filter (fun u => u.2.tag.stream != x.gidx),
      coding := b.coding.filter (fun c => c.1 != x.gidx),
      flushed := if s.hurdleAwaits x.gidx then b.flushed else b.flushed.filter (fun k => k / 8 != x.gidx) }) s.bays }
    let s : State := { s with streams := tblMap (fun k y => if k / 1024 = f ∧ y.follows = some i then { y with follows := none } else y) s.streams }
    ((s.setStream f i { Stream.fresh with haltCode := x.haltCode }).wakeJobs (sKey f i)).watchPools

/-- Everything a draining stream dispatched has been delivered (R236). -/
def Stream.drained (x : Stream) (meet : Nat) : Bool :=
  x.st == .draining && x.packedAll meet && x.ready.isEmpty && x.openRows.isEmpty && x.closedRows.isEmpty && x.placed.isEmpty && x.xfer.isNone &&
  x.finished.isEmpty && x.waitingRecs.isEmpty && x.doc.isNone

/-- Streams of a list that have drained become FREE (R236). One that leaves its lock group can release batches of the others (R242);
the number bounds the rounds. -/
def State.freeDrained (keys : List Nat) : Nat → State → State
  | 0, s => s
  | n + 1, s => (s.forEach keys (fun k s => if (s.stream (k / 1024) (k % 1024)).drained s.meet then s.freeStream (k / 1024) (k % 1024) else s)).freeDrained keys n

/-- A stream becomes FREE; a member of its lock group that has drained by that does too (R236, R242). -/
def State.closeStream (f i : Nat) (s : State) : State :=
  let l := s.groupMates f i
  (s.freeStream f i).freeDrained l l.length

/-- A drained stream becomes FREE (R236). -/
def State.finishDrain (f i : Nat) (s : State) : State := if (s.stream f i).drained s.meet then s.closeStream f i else s

/-- What waited for records that have been written goes on: SAMPLE jobs complete (R189), drained streams become FREE (R236). -/
def State.finishDrains (s : State) : State := s.forEach s.openStreams (fun p s => (s.wakeSamples p.1 p.2.1).finishDrain p.1 p.2.1)

/-- A stream closes with STREAM_ABORTED: its ring ends with one record of that status (R236, R237). -/
def State.abortStream (f i : Nat) (s : State) : State :=
  let x := s.stream f i
  if x.st = .free then s else ((s.dropReqs (fun r => r.ofStream f i x.gidx)).relayEnd f i stAborted).closeStream f i

/-- Aborts every open stream that satisfies a test. -/
def State.abortWhere (test : Nat → Nat → Stream → Bool) (s : State) : State :=
  s.forEach (s.openStreams.filter (fun p => test p.1 p.2.1 p.2.2)) (fun p => State.abortStream p.1 p.2.1)

/-- The lowest free frame-wide stream index (R220). -/
def State.freeGidx (s : State) : Option Nat :=
  (List.range 1024).find? (fun g => !s.openStreams.any (fun p => p.2.2.gidx == g))

/-- The open stream with a frame-wide index (R220). -/
def State.byGidx (s : State) (g : Nat) : Option (Nat × Nat × Stream) := s.openStreams.find? (fun p => p.2.2.gidx == g)

end Sys2Proof.Machine
end

