-- ==== Sys2Proof/Machine/SillOps.lean ====
section
/-! DEFINITION. What a completed sill request does (R127 to R135, R210, R246, R248), requests put on a port, and
ports that stop (R84). -/

namespace Sys2Proof.Machine

/-- LOW moves past every delivered block that follows it: bit 0 of `d` says whether block `low` is delivered (R246). -/
def advanceLow : Nat → Nat → BitVec 64 → Nat × BitVec 64
  | 0, low, d => (low, d >>> 1)
  | n + 1, low, d => if d.getLsbD 0 then advanceLow n (low + 1) (d >>> 1) else (low, d >>> 1)

/-- LOW and DONE after block `b` has returned OKAY (R246): bit j of DONE stands for block LOW + 1 + j. -/
def markBlock (low : Nat) (d : BitVec 64) (b : Nat) : Nat × BitVec 64 :=
  if b < low then (low, d)
  else if b = low then advanceLow 64 (low + 1) d
  else (low, d ||| (1#64 <<< (b - low - 1)))

/-- Whether block `b` is delivered by LOW and DONE (R246). -/
def blockDone (low : Nat) (d : BitVec 64) (b : Nat) : Bool := decide (b < low) || (decide (low < b) && d.getLsbD (b - low - 1))

/-- A request of a port completes (R128, R135): what its response does to what it serves. The answer to an access of a waiting command is
kept until the command takes it up (log 4). -/
def State.complete (n : Nat) (r : Req) (resp : Resp) (data : Bytes) (s : State) : State :=
  match r.owner with
  | .direct _ =>
    let s := if resp = .okay ∧ r.op = .fetchAdd then s.memDone r data else s
    if s.portUp n then s.modPort n (fun p => { p with answers := p.answers ++ [⟨r, resp, data⟩] }) else s
  | .queueIndex f q =>
    if !(s.queue f q).enabling then s else
    match resp with
    | .okay => s.modQueue f q (fun x => { x with indexBlock := some data })
    | resp => (s.modQueue f q (fun x => { x with enableRefused := true })).queueFault f q (respCode resp) r.addr
  | .queueTail f q =>
    if !(s.queue f q).tailOut then s else
    match resp with
    | .okay => s.modQueue f q (fun x => { x with tailValue := some (leAt data 0 4) })
    | resp => s.queueFault f q (respCode resp) r.addr
  | .queueEntry f q slot posted =>
    match resp with
    | .okay => s.modQueue f q (fun x => { x with arrived := x.arrived ++ [⟨slot, posted, false, data⟩] })
    | .poison => s.modQueue f q (fun x => { x with arrived := x.arrived ++ [⟨slot, posted, true, data⟩] })
    | resp => s.queueFault f q (respCode resp) r.addr
  | .streamRead f i index off =>
    let keep := fun (poison : Bool) => s.modStream f i (fun x => match x.reading with
      | some t => if t.index = index then { x with reading := some { t with got := tblSet t.got off data, poison := t.poison || poison } } else x
      | none => x)
    match resp with
    | .okay => keep false
    | .poison => keep true
    | resp => (s.streamResp f i r.addr false resp).relays
  | .slotBlock f i batch block =>
    match resp with
    | .okay => (s.count 4 (s.stream f i).gidx 4 (64 * r.grans)).modStream f i (fun x => match x.xfer with
        | some t => if t.batch = batch then
            let m := markBlock t.low t.done block
            { x with xfer := some { t with low := m.1, done := m.2, time := s.now } } else x
        | none => x)
    | resp => (s.streamResp f i r.addr true resp).relays

/-- Puts a request on a port. One that is down completes it as DECERR at once (R84). -/
def State.pushReq (n : Nat) (r : Req) (s : State) : State :=
  if s.portUp n then s.modPort n (fun p => { p with waiting := p.waiting ++ [r] }) else (s.count 1 n 8 1).complete n r .decerr []

/-- The requests of a port that have not completed (R84). -/
def Port.open_ (p : Port) : List Req := p.waiting ++ ((p.reads ++ p.writes).filter (fun o => !o.drop)).map (·.req)

/-- A port stops because its die is isolated (R84): what waits and what is outstanding completes as DECERR, and no
tag is retired. -/
def State.killPort (n : Nat) (s : State) : State :=
  let p := s.port n
  (s.setPort n { p with waiting := [], reads := [], writes := [], answers := [], dead := true }).forEach p.open_ (fun r s => s.complete n r .decerr [])

end Sys2Proof.Machine
end

