-- ==== Sys2Proof/Machine/Faults.lean ====
section
/-! DEFINITION. Fencing (R67, R526, R527), die isolation (R84, R85, R154), WALK entry and exit (R528 to R531,
R568), the fatal path (R255, R532, R533, R535, R537) and entry to CRYPTO_ERROR (R511). Each is ONE operation that many
commands share. -/

namespace Sys2Proof.Machine

/-! ## Image loads that meet events (R112, R573) -/

/-- STATE 1 to 4 of IMG_STATUS: a load is in progress (R108). In FATAL none is: it has stopped (R30), whatever IMG_STATUS
still shows (log 79). -/
def State.loading (s : State) : Bool := s.frame.st != .fatal && match s.image.st with
  | .verifying | .staging | .draining | .committing => true
  | _ => false

/-- A rejection (R112): staged changes are discarded, with the steward's reads, and the rejection is logged. -/
def State.rejectImage (detail sect : Nat) (s : State) : State :=
  (({ s with image := { s.image with st := .rejected, detail := detail, sect := sect, staged := none } } : State).dropReqs
    (fun r => r.mgmt && r.op == .read)).logFrame stImageRejected 4 6 sect 0xFF detail

/-- A load in progress is rejected because of an event (R573). -/
def State.stopLoad (detail : Nat) (s : State) : State := if s.loading then s.rejectImage detail 0x7F else s

/-! ## WALK (R528 to R531, R568, R574) -/

/-- WALK_STATUS[2:0]. -/
def Frame.walkBits (x : Frame) : Nat := b2n x.walkThermal + 2 * b2n x.walkCtrlEcc + 4 * b2n x.walkFenced

/-- Sets the bit of a WALK cause: 1 THERMAL, 2 CTRL_ECC, 3 FENCED. -/
def Frame.addCause (x : Frame) (c : Nat) : Frame :=
  { x with walkThermal := x.walkThermal || c == 1, walkCtrlEcc := x.walkCtrlEcc || c == 2, walkFenced := x.walkFenced || c == 3 }

/-- A stream at entry to WALK (R251, R254): a guaranteed one is voided and halts, a best-effort one halts without a record. -/
def State.walkStream (f i : Nat) (s : State) : State :=
  let x := s.stream f i
  if x.st = .free then s else
    let s := s.haltCore f i stAccessDenied 0
    if x.guaranteed && !x.void then
      (s.modStream f i (fun y => { y with void := true, voidSince := s.now, waitingRecs := y.waitingRecs ++ [x.statusRec s.now stVoid stAccessDenied 0] })).count
        4 x.gidx 5 1
    else s

/-- A WALK cause arises (R528, R529, R568): only RUNNING enters WALK; in WALK the cause is added; elsewhere nothing. -/
def State.walkCause (c : Nat) (s : State) : State :=
  match s.frame.st with
  | .running =>
    let s := State.count 0 0 2 1 { s with frame := { s.frame.addCause c with st := .walk, walkFirst := c } }
    let s := if s.image.st != .committing then s.stopLoad 0x14 else s
    let s := s.frameEvent 1 s.frame.walkBits
    (s.forEach s.openStreams (fun p => State.walkStream p.1 p.2.1)).relays
  | .walk =>
    let old := s.frame.walkBits
    let s : State := { s with frame := s.frame.addCause c }
    if s.frame.walkBits = old then s else s.frameEvent 1 s.frame.walkBits
  | _ => s

/-- A frame that reaches RUNNING while a die is at throttle level 4 enters WALK with cause THERMAL (R568). -/
def State.walkAtCommit (s : State) : State :=
  if (List.range s.caps.dies).any (fun d => (s.thermal d).level == 4) then s.walkCause 1 else s

/-- The governor has cleared critical on every die: THERMAL clears, and WALK is left when no cause remains (R531). -/
def State.walkThermalClear (s : State) : State :=
  if s.frame.st != .walk || !s.frame.walkThermal then s else
    let x := { s.frame with walkThermal := false }
    if x.walkBits = 0 then { s with frame := { x with st := .running, walkFirst := 0 } } else { s with frame := x }

/-! ## Fencing (R67, R526, R527) -/

/-- Whether a staged load binds or patches a bay (R112, R573). -/
def Image.touches (m : Image) (k : Nat) : Bool := match m.staged with
  | some c => c.binds.any (fun b => b.bay == k) || hasBit c.patchBays k
  | none => false

/-- Every graph of the committed image binds a fenced bay (R528). -/
def State.allGraphsFenced (s : State) : Bool := match s.image.committed with
  | some c => c.graphs.all (fun g => (List.range s.nBays).any (fun k => hasBit g.bays k && s.fenced k))
  | none => false

/-- Requests that wait for a bank of a bay, and clears of one, are dropped (R263). -/
def State.dropHandovers (k : Nat) (s : State) : State :=
  { s with banks := tblMap (fun b x => if b / 48 = k then { x with pending := none, clearing := false } else x) s.banks }

/-- A bay is fenced (R67, R526, R527). Cause: 1 clock fault, 2 march failure, 3 die isolation, 4 control-state codeword.
DESIGN CHOICE (log 107): the manual speaks of arriving beats only; beats that stand in the bay's mortise FIFOs or at its tenons
at the fence stay there, uncounted, and no longer count for whether their routes are idle. -/
def State.fence (k cause : Nat) (s : State) : State :=
  if s.nBays ≤ k || s.fenced k then s else
    let s := (s.setPState k .fenced).modBay k (fun b => { b with heat := [] })
    let s : State := { s with frame := { s.frame with fencedAny := true } }
    let s := (s.logFrame stOk 4 0 0 k cause).frameEvent 3 k
    let s := if s.loading && s.image.st != .committing && s.image.touches k then
        s.rejectImage 0x10 ((s.image.staged.map (·.bindSection)).getD 0x7F) else s
    let s := (s.abortWhere (fun _ _ x => hasBit (s.graphOf x).bays k)).dropHandovers k
    if s.frame.st == .running && s.allGraphsFenced then s.walkCause 3 else s

/-! ## Die isolation (R84, R85, R154, R185) -/

/-- Dies with a path to die 0 through boundaries that are up (R84). -/
def State.reach (s : State) : List Nat :=
  let up := (boundariesOf s.caps.dies).filter (fun x => s.boundaryUp x.1)
  let grow := fun (l : List Nat) => (List.range s.caps.dies).filter (fun d =>
    l.contains d || up.any (fun x => (x.2.1 == d && l.contains x.2.2) || (x.2.2 == d && l.contains x.2.1)))
  grow (grow (grow [0]))

/-- One die is isolated: logged, its bays fenced, its ports stopped (R84, R567). Every request of the ports completes as DECERR; of a stream
that the fence aborts nothing else is left to be done (log 107). DESIGN CHOICE (log 137): DETAIL bit 8 of R567 is 1 for a die whose own
dieD_iso is asserted, not for one that another die's isolation cuts off. -/
def State.isolateDie (d : Nat) (s : State) : State :=
  let downs := (boundariesOf s.caps.dies).foldl (fun n x => if s.boundaryUp x.1 then n else n + 2 ^ x.1) 0
  let s : State := { s with frame := { s.frame with diesUp := s.frame.diesUp.filter (· != d) } }
  let s := s.logFrame stOk 4 5 d 0xFE (downs + 256 * b2n (s.pins.dieIso.contains d))
  let ps := (List.range s.nPorts).filter (fun n => s.caps.portDie.getD n 0 == d)
  let s := s.forEach ps (fun n s => (s.count 1 n 8 (s.port n).open_.length).modPort n (fun p => { p with dead := true }))
  let s := s.forEach ((List.range s.nBays).filter (fun k => s.bayDie k == d)) (fun k => State.fence k 3)
  s.forEach ps State.killPort

/-- Every die that is up and has no path to die 0 is isolated (R84). -/
def State.isolateUnreachable (s : State) : State :=
  let r := s.reach
  s.forEach (s.frame.diesUp.filter (fun d => !r.contains d)) State.isolateDie

/-- One boundary goes down (R84): the beats held in its bridge buffers, those not yet taken from a sender's replay buffer and
those in receive slots, are discarded and counted. -/
def State.dropBoundary (b : Nat) (s : State) : State :=
  let x := s.boundary b
  let held := x.lanes.foldl (fun n l => n + s.slotsHeld b (decide (8 ≤ l.1)) (l.1 % 8) + l.2.tags.length) 0
  (s.setBoundary b { x with
    down := true, lanes := tblMap (fun _ l => { l with replay := [], tx := [], slots := [], returns := [], tags := [] }) x.lanes }).count 7 b 3 held

/-- Boundaries go down together (R84, R85); then the dies left without a path to die 0 are isolated. -/
def State.boundariesDown (l : List Nat) (s : State) : State := (s.forEach l State.dropBoundary).isolateUnreachable

/-! ## The fatal path (R30, R218, R255, R532, R533, R535, R537) -/

/-- NEED of R533 in KiB. -/
def Caps.dumpNeedKiB (c : Caps) : Nat :=
  32 + 64 + 8 * (1 + c.funcs) + 972 * (c.bays.length + 2) + 512 + 4 * ceilDiv c.queues 64

/-- Sizes in bytes of the dump's sections in layout order (R534). -/
def Caps.dumpSizes (c : Caps) (banks : Nat) : List Nat :=
  [32 * 1024, (64 + 8 * (1 + c.funcs)) * 1024, 972 * 1024 * (c.bays.length + 2), 512 * 1024, 4096 * ceilDiv c.queues 64, 262656 * banks]

/-- Offsets of the sections, in 4 KiB units: each section starts on a 4 KiB boundary (R534). -/
def Caps.dumpOffsets (c : Caps) (banks : Nat) : List Nat :=
  ((c.dumpSizes banks).foldl (fun (p : Nat × List Nat) n => (p.1 + ceilDiv n 4096, p.2 ++ [p.1])) (0, [])).2

/-- The dump header (R535), with its flags: bit 0 TRUNCATED, 1 SHORT, 2 BANKS. -/
def State.dumpHeader (s : State) (truncated : Bool) : Bytes :=
  let d := s.dump
  let dir := (List.range 6).flatMap (fun k => match d.dir[k]? with
    | some e => natLe 4 e.offset ++ natLe 4 e.size ++ natLe 4 e.crc.toNat ++ natLe 1 e.st ++ zeros 3
    | none => zeros 16)
  let h := natLe 4 0x504D4453 ++ natLe 2 1 ++ natLe 2 (b2n truncated + 2 * b2n d.short + 4 * b2n d.banks) ++ natLe 1 stFatal ++
    natLe 1 d.prior ++ natLe 2 d.detail ++ natLe 2 d.second ++ zeros 2 ++ natLe 8 d.time ++ natLe 8 d.secondTime ++
    natLe 4 0x00010200 ++ natLe 4 s.frame.fwVersion.toNat ++ s.image.digest ++ zeros 8 ++ dir ++ zeros 60
  h ++ natLe 4 (crc32c h).toNat

/-- Writes the dump header as a management request on sill port 0 (R533). -/
def State.writeHeader (truncated : Bool) (s : State) : Resp × State := s.sysWrite (.steward 0) s.dump.base (s.dumpHeader truncated)

/-- DUMP_STATUS[6:0] (R577). -/
def Dump.status (d : Dump) : Nat := d.st + 4 * b2n d.short + 8 * b2n d.hdrFailed + 16 * d.section_

/-- The dump ends: frame event 5 (R561). -/
def State.dumpEnd (st : Nat) (failed : Bool) (s : State) : State :=
  let s : State := { s with dump := { s.dump with st := st, hdrFailed := failed } }
  s.frameEvent 5 s.dump.status

/-- The error record unit of a fatal cause: 1 sill port, 2 queue manager or pacer, 3 and 4 steward, 5 scheduler (log 20). -/
def fatalUnit (detail : Nat) : Nat := if detail = 1 then 1 else if detail = 2 then 2 else if detail = 5 then 3 else 6

/-- BAY of the log entry of a fatal cause: the intake bay of the failed port, the control bay for 2 and 5, else the
management bay (R518, R521; log 20). -/
def State.fatalBay (detail index : Nat) (s : State) : Nat :=
  if detail = 1 then s.intakeBay index else if detail = 2 ∨ detail = 5 then 0xFE else 0xFF

/-- The directory at the start of a dump: every section NOT_WRITTEN (R532, R535). -/
def State.freshDir (s : State) : List DumpDir :=
  let nb := if s.dump.banks then s.allBanks.length else 0
  ((s.caps.dumpOffsets nb).zip (s.caps.dumpSizes nb)).map (fun p => ⟨p.1, p.2, 0, 0⟩)

/-- The requests of the dump's section in progress that have gone out: writes that a waiting command has made (R537; log 4). -/
def State.dumpIssued (s : State) : List Req :=
  let p := s.port 0
  match s.dump.dir[s.dump.section_]? with
  | none => []
  | some e =>
    let a := s.dump.base + e.offset * 4096 + (if s.dump.section_ = 0 then 256 else 0)
    (p.answers.map (·.req) ++ p.writes.map (·.req)).filter (fun r => r.mgmt && r.op == .write && decide (a ≤ r.addr) && decide (r.addr < a + e.size))

/-- The section in progress stops (R537): PARTIAL, with what it has issued. -/
def State.dumpStop (s : State) : State :=
  let bs := s.dumpIssued.flatMap (·.data)
  let s := s.dropReqs (fun r => r.mgmt)
  { s with dump := { s.dump with
      stopped := true,
      dir := (s.dump.dir.zipIdx).map (fun p => if p.2 = s.dump.section_ then { p.1 with st := 2, size := bs.length, crc := crc32c bs } else p.1) } }

/-- The final header of a dump that was stopped (R537). -/
def State.dumpTruncated (s : State) : State :=
  let (r, s) := s.writeHeader true
  s.dumpEnd 3 (r != .okay)

/-- A unit that is present. -/
def State.unitPresent (s : State) : SnapUnit → Bool
  | .control => true
  | .management => true
  | .port n => n.toNat < s.nPorts
  | .bay k => k.toNat < s.nBays
  | .boundary b => b.toNat < (boundariesOf s.caps.dies).length

/-- A unit that is fenced: a fenced bay, or a port of an isolated die (R84, R545). -/
def State.unitFenced (s : State) : SnapUnit → Bool
  | .bay k => s.fenced k.toNat
  | .port n => (s.port n.toNat).dead
  | _ => false

/-- Every unit of the frame. -/
def State.allUnits (s : State) : List SnapUnit :=
  ([SnapUnit.control, SnapUnit.management] ++ (List.range 8).map (fun n => SnapUnit.port (BitVec.ofNat 3 n)) ++
   (List.range 64).map (fun k => SnapUnit.bay (BitVec.ofNat 6 k)) ++ (List.range 4).map (fun b => SnapUnit.boundary (BitVec.ofNat 2 b))).filter
    s.unitPresent

/-- Every unit that is not fenced has copied its counters for the pending snapshot (R545). -/
def State.snapWhole (s : State) : Bool := s.allUnits.all (fun u => s.unitFenced u || s.tel.copied.contains u)

/-- A frame-fatal error (R532), or a second one while the dump is written (R537). Only power-on reset leaves BOOT_FAIL (R176): there the
error is only logged (log 122). -/
def State.frameFatal (detail index : Nat) (s : State) : State :=
  if s.frame.st == .bootFail then s.logFrame stFatal 3 (fatalUnit detail) index (s.fatalBay detail index) detail
  else if s.frame.st != .fatal then
    let prior := s.frame.st.code
    let s : State := { s with frame := { s.frame with st := .fatal },
                              dump := { s.dump with prior := prior, detail := detail, time := s.now }, tel := { s.tel with lost := s.tel.pending && !s.snapWhole },
                              banks := tblMap (fun _ x => { x with pending := none }) s.banks, later := [] }
    let s := s.dropReqs (fun r => !r.mgmt)
    let s := s.logFrame stFatal 3 (fatalUnit detail) index (s.fatalBay detail index) detail
    let s := s.forEach (s.openStreams.filter (fun p => p.2.2.guaranteed)) (fun p => State.relayEnd p.1 p.2.1 stFatal)
    let s := s.frameEvent 2 detail
    if !s.portUp 0 || s.dump.base == 0 || s.dump.size * 4 < 32 then s.dumpEnd 2 true
    else
      let s : State := { s with dump := { s.dump with st := 1, section_ := 0, dir := s.freshDir, short := decide (s.dump.size * 4 < s.caps.dumpNeedKiB) } }
      match s.attempt (fun s => s.writeHeader true) with
      | (some _, s) => s
      | (none, s) => { s with dump := { s.dump with hdrDue := true } }
  else if s.dump.st = 1 && !s.dump.stopped then
    let s := State.dumpStop { s with dump := { s.dump with second := detail, secondTime := s.now, hdrDue := false } }
    match s.attempt (fun s => ((), s.dumpTruncated)) with
    | (_, s) => s
  else s

/-! ## CRYPTO_ERROR and zeroisation (R511, R512) -/

/-- Every slot, the KEK (and with it K_CO), the heat key and the DRBG state are overwritten (R512). -/
def Sec.zeroise (x : Sec) : Sec := { x with slots := [], kek := none, heatKey := none, heatValid := [], drbg := none }

/-- Entry to CRYPTO_ERROR (R511). A load in progress is rejected (R573). -/
def State.cryptoError (cause : Nat) (s : State) : State :=
  if s.sec.cryptoError then s else
    let s : State := { s with sec := { s.sec.zeroise with cryptoError := true, errCause := cause, session := false } }
    ((s.logFrame stCrypto 4 7 0 0xFF cause).frameEvent 4 cause).stopLoad 0x15

end Sys2Proof.Machine
end

