-- ==== Sys2Proof/Machine/Security.lean ====
section
/-! DEFINITION. The cryptographic subsystem (R487 to R513): noise health tests, DRBG, sessions, key import, key
slots, image-signing digests, self-tests, zeroisation. -/

namespace Sys2Proof.Machine

/-! ## Noise source and DRBG (R503, R504, R509) -/

/-- The sample an armed noise failure delivers instead of the source's (R509). -/
def Sec.armedBit (x : Sec) (bit : Bool) : Bool :=
  if x.armed = some 1 then (if x.armPos = 0 then !x.noise.rctVal else x.noise.rctVal)
  else if x.armed = some 2 then (if x.armPos % 41 = 0 ∨ x.armPos % 41 = 40 then !x.noise.rctVal else x.noise.rctVal)
  else bit

/-- One sample through both health tests (R503): the cause of a failure, 1 RCT or 2 APT. -/
def Noise.step (n : Noise) (bit : Bool) : Noise × Option Nat :=
  let rc := if n.rctCount ≠ 0 ∧ bit = n.rctVal then n.rctCount + 1 else 1
  let fresh := n.aptPos = 0 ∨ 1024 ≤ n.aptPos
  let av := if fresh then bit else n.aptVal
  let ac := if fresh then 1 else if bit = n.aptVal then n.aptCount + 1 else n.aptCount
  let ap := if fresh then 1 else n.aptPos + 1
  (⟨bit, rc, av, ap, ac⟩, if 41 ≤ rc then some 1 else if 793 ≤ ac then some 2 else none)

/-- Samples pass the health tests until one fails (R503). -/
def State.noiseRun : List Bool → State → Option Nat × State
  | [], s => (none, s)
  | b :: t, s =>
    let bit := s.sec.armedBit b
    let (n, c) := s.sec.noise.step bit
    let s : State := { s with sec := { s.sec with noise := n, armPos := if s.sec.armed.isSome then s.sec.armPos + 1 else 0 } }
    match c with
    | some c => (some c, { s with sec := { s.sec with armed := if s.sec.armed = some 1 ∨ s.sec.armed = some 2 then none else s.sec.armed } })
    | none => s.noiseRun t

/-- Samples packed into bytes, first sample in bit 0 (log 21). -/
def packBits (l : List Bool) : Bytes :=
  (chunks 8 (l.length / 8 + 1) l).map (fun c => BitVec.ofNat 8 ((c.zipIdx).foldl (fun n p => n + b2n p.1 * 2 ^ p.2) 0))

/-- A generate request of the DRBG (R504): none when it is not instantiated; an armed failure enters CRYPTO_ERROR (R509, R511). -/
def State.drbgGen (n : Nat) (s : State) : Option Bytes × State :=
  match s.sec.drbg with
  | none => (none, s)
  | some d =>
    if s.sec.armed = some 3 then (none, State.cryptoError 3 { s with sec := { s.sec with armed := none } })
    else
      let (out, k, v) := drbgGenerate n d.key d.v
      (some out, { s with sec := { s.sec with drbg := some ⟨k, v, d.requests + 1⟩ } })

/-- A fresh session nonce (R493). -/
def State.freshNonce (s : State) : State :=
  match s.drbgGen 32 with
  | (some b, s) => { s with sec := { s.sec with nonce := b } }
  | (none, s) => s

/-- Instantiation of the DRBG: 1,024 samples of entropy, 256 of nonce, the capability fingerprint (R504); then a
fresh nonce (R493). -/
def State.drbgInit (noise : List Bool) (s : State) : State :=
  let p := drbgInstantiate (packBits (noise.take 1024)) (packBits ((noise.drop 1024).take 256)) s.caps.fingerprint
  State.freshNonce { s with sec := { s.sec with drbg := some ⟨p.1, p.2, 0⟩ } }

/-- A noise failure (R503, R511) enters CRYPTO_ERROR; otherwise the DRBG instantiates. -/
def State.drbgStart (noise : List Bool) (s : State) : State :=
  match s.noiseRun noise with
  | (some c, s) => s.cryptoError c
  | (none, s) => s.drbgInit noise

/-! ## Key slots (R496 to R500) -/

/-- FN's range of slots (R496). -/
def State.keyRange (s : State) (f : Nat) : Nat × Nat := tblGetD s.sec.keyPart f (0, 0)

/-- A slot lies in a function's range. -/
def State.inRange (s : State) (f n : Nat) : Bool := (s.keyRange f).1 ≤ n && n < (s.keyRange f).1 + (s.keyRange f).2

/-- A read of key-slot storage: an armed failure reports an uncorrectable codeword (R509, R511). -/
def State.readSlot (n : Nat) (s : State) : Option KeySlot × State :=
  if s.sec.armed = some 4 then (none, State.cryptoError 4 { s with sec := { s.sec with armed := none } })
  else (tblGet? s.sec.slots n, s)

/-- A slot owned by the function (R496). -/
def State.ownedSlot (f n : Nat) (s : State) : Option KeySlot × State :=
  match s.readSlot n with
  | (some k, s) => (if k.fn = f && s.inRange f n then some k else none, s)
  | (none, s) => (none, s)

/-- Loads a slot. -/
def State.loadSlot (n keyType f : Nat) (key : Bytes) (s : State) : State :=
  { s with sec := { s.sec with slots := tblSet s.sec.slots n ⟨keyType, f, key, s.sec.slotGen, 0⟩, slotGen := s.sec.slotGen + 1 } }

/-- Empties a slot (R498). -/
def State.emptySlot (n : Nat) (s : State) : State := { s with sec := { s.sec with slots := tblDel s.sec.slots n } }

/-- Bytes of a key of a KEY_TYPE (R158). -/
def keyLen (t : Nat) : Nat := if t = 0 then 16 else if t = 1 then 32 else if t = 2 then 64 else 48

/-! ## Key import (R157 to R160, R497) -/

/-- The result pair of the key-import port (R157). -/
def State.kimp (code : Nat) (s : State) : State := { s with sec := { s.sec with kimpStatus := code, kimpDone := s.sec.kimpDone + 1 } }

/-- kimp_ready: imports are taken after the pre-operational tests (R173) and not during an on-demand test (R508). -/
def State.kimpReady (s : State) : Bool := (s.frame.preTests || s.sec.cryptoError) && !s.sec.selftestBusy

/-- The payload words as bytes: the first byte of a payload is in bits [7:0] (R157). -/
def wordsBytes (l : List (BitVec 64)) : Bytes := l.flatMap (fun w => natLe 8 w.toNat)

/-- A record refused before its kind matters (R159, R160, R511). -/
def State.importBarred (s : State) : Option Nat :=
  if s.pins.zeroise then some stAccessDenied else if s.sec.cryptoError then some stCrypto else none

/-- KEK_LOAD (R158, R497). DESIGN CHOICE (log 121): where several refusals hold, the malformed header or word count goes first, and a
KEY_TYPE of 4 to 7 is refused like every other non-zero one. -/
def execKekLoad (words : List (BitVec 64)) (s : State) : Out :=
  if !s.kimpReady then .next s else
  match s.importBarred with
  | some c => .next (s.kimp c)
  | none =>
    match words with
    | [] => .next (s.kimp stMalformed)
    | h :: pay =>
      let hd := h.toNat
      if fld hd 0 2 ≠ 0 ∨ fld hd 21 43 ≠ 0 ∨ pay.length ≠ 4 then .next (s.kimp stMalformed)
      else if s.sec.kek.isSome ∨ fld hd 2 10 ≠ 0 ∨ fld hd 12 6 ≠ 0 ∨ fld hd 18 3 ≠ 0 then .next (s.kimp stAccessDenied)
      else .next (State.kimp stOk { s with sec := { s.sec with kek := some (wordsBytes pay) } })

/-- WRAPPED_KEY (R158, R497). -/
def execWrappedKey (words : List (BitVec 64)) (s : State) : Out :=
  if !s.kimpReady then .next s else
  match s.importBarred with
  | some c => .next (s.kimp c)
  | none =>
    match words with
    | [] => .next (s.kimp stMalformed)
    | h :: pay =>
      let hd := h.toNat
      let slot := fld hd 2 10
      let f := fld hd 12 6
      let t := fld hd 18 3
      if fld hd 0 2 ≠ 1 ∨ fld hd 21 43 ≠ 0 ∨ 3 < t ∨ pay.length ≠ keyLen t / 8 + 1 then .next (s.kimp stMalformed)
      else match s.sec.kek with
        | none => .next (s.kimp stAccessDenied)
        | some kek =>
          let (old, s) := s.readSlot slot
          if s.sec.cryptoError then .next (s.kimp stCrypto)
          else if old.isSome ∨ !s.inRange f slot then .next (s.kimp stAccessDenied)
          else match kwUnwrap kek (wordsBytes pay) with
            | none => .next (s.kimp stAuthFail)
            | some key =>
              if t = 2 ∧ key.take 32 = key.drop 32 then .next (s.kimp stMalformed)
              else .next ((s.loadSlot slot t f key).kimp stOk)

/-! ## Zeroisation (R160, R512, R513) -/

/-- Zeroisation starts, or merges with the one that runs (R512, R513). -/
def State.startZeroise (s : State) : State :=
  if s.sec.zeroising then s else
    let s : State := { s with sec := { s.sec.zeroise with zeroising := true, session := false, selftestAgain := s.sec.selftestBusy } }
    s.stopLoad 0x16

/-- ZEROISE_PIN (R160): a rising edge that has been high for 100 ns. -/
def execZeroisePin (s : State) : Out :=
  if s.pins.zeroise then .next s else .next (State.startZeroise { s with pins := { s.pins with zeroise := true } })

/-- ZEROISE_RELEASE (R160). -/
def execZeroiseRelease (s : State) : Out := .next { s with pins := { s.pins with zeroise := false, zeroiseDone := false } }

/-- The DRBG exists from the end of the start-up tests on, outside CRYPTO_ERROR (R504, R511). -/
def State.cryptoServed (s : State) : Bool := s.frame.preTests && !s.sec.cryptoError

/-- ZEROISATION_COMPLETE (R512): every overwritten word reads back as zero; the DRBG reinstantiates once its start-up tests have passed
(R493, R504). -/
def execZeroisationComplete (noise : List Bool) (s : State) : Out :=
  if !s.sec.zeroising then .next s else
    let s : State := { s with sec := { s.sec with zeroising := false, zeroDone := true, selftestAgain := false },
                              pins := { s.pins with zeroiseDone := s.pins.zeroise } }
    .next (if (s.frame.preTests || s.frame.st == .selfTest) && !s.sec.cryptoError then s.drbgStart noise else s)

/-! ## The Crypto Officer session (R491 to R494) -/

/-- SEC_AUTH[0] to [11] as the tag's bytes (R493, R564). -/
def State.authTag (s : State) : Bytes := (List.range 12).flatMap (fun j => natLe 4 (tblGetD s.sec.auth j 0).toNat)

/-- K_CO (R492). -/
def coKey (kek : Bytes) : Bytes := kdf kek (ascii "STVZ-CO") [] 384

/-- SEC_CTRL.AUTH checks the tag (R493). -/
def State.auth (s : State) : State :=
  let ok := match s.sec.kek with
    | some kek => s.authTag == hmac384 (coKey kek) (s.sec.nonce ++ [0x43, 0x4F])
    | none => false
  State.freshNonce { s with sec := { s.sec with session := s.sec.session || ok, authFail := s.sec.authFail || !ok } }

/-- A write of SEC_CTRL.AUTH: less than 1 ms after the one before it is ignored (R493). During a self-test the service waits (R508); so it
does until the last pre-operational test ends (R173; log 124). -/
def State.authWrite (s : State) : State :=
  if (match s.sec.lastAuth with
      | some t => decide (s.now < t + 1000000)
      | none => false) then { s with sec := { s.sec with refused := true } }
  else
    let s : State := { s with sec := { s.sec with lastAuth := some s.now } }
    if s.sec.selftestBusy || !(s.frame.preTests || s.sec.cryptoError) then { s with sec := { s.sec with authWait := s.sec.authWait + 1 } } else s.auth

/-- SEC_CTRL.CLOSE (R494): a write that needs a session. -/
def State.closeSession (s : State) : State := { s with sec := { s.sec with session := false } }

/-- SEC_CTRL.SELFTEST (R508): refused while a guaranteed stream is open, during an image load, in CRYPTO_ERROR, before
the pre-operational tests or while one runs. -/
def State.startSelftest (s : State) : State :=
  if s.openStreams.any (fun p => p.2.2.guaranteed) || s.loading || !s.cryptoServed || s.sec.selftestBusy then
    { s with sec := { s.sec with refused := true } }
  else { s with sec := { s.sec with selftestBusy := true, selftestAgain := s.sec.zeroising } }

/-- The known-answer test that fails: the hardware's own failure or an armed one, whichever is earlier (R505, R509). -/
def Sec.katFailure (x : Sec) (kat : Option (BitVec 4)) : Option Nat :=
  let a := match x.armed with
    | some t => if 0x11 ≤ t ∧ t ≤ 0x1A then some (t - 0x10) else none
    | none => none
  let h := match kat with
    | some k => if 1 ≤ k.toNat ∧ k.toNat ≤ 10 then some k.toNat else none
    | none => none
  match a, h with
  | some i, some j => some (min i j)
  | some i, none => some i
  | none, h => h

/-- Known-answer tests and entropy start-up tests (R173, R505, R503). The result is the ERR_CAUSE of a failure. -/
def State.preTestsRun (kat : Option (BitVec 4)) (noise : List Bool) (s : State) : Option Nat × State :=
  match s.sec.katFailure kat with
  | some n => (some (0x10 + n), { s with sec := { s.sec with armed := if s.sec.armed = some (0x10 + n) then none else s.sec.armed } })
  | none => s.noiseRun (noise.take 1024)

/-- NOISE_SAMPLE (R503): every sample passes the health tests; a failure enters CRYPTO_ERROR, and during start-up it
ends in BOOT_FAIL too (R174, R511). -/
def execNoiseSample (bit : Bool) (s : State) : Out :=
  if s.sec.cryptoError || s.frame.st == .reset then .next s else
    match s.noiseRun [bit] with
    | (some c, s) =>
      let s := s.cryptoError c
      .next (if s.frame.st == .boot || s.frame.st == .selfTest then { s with frame := { s.frame with st := .bootFail, bootCause := 5 } } else s)
    | (none, s) => .next s

/-- DRBG_RESEED (R504): after 2^20 generate requests, with 1,024 samples. -/
def execDrbgReseed (noise : List Bool) (s : State) : Out :=
  match s.sec.drbg with
  | none => .next s
  | some d =>
    if d.requests < 2 ^ 20 then .next s else
      match s.noiseRun (noise.take 1024) with
      | (some c, s) => .next (s.cryptoError c)
      | (none, s) =>
        let p := drbgReseedWith (packBits (noise.take 1024)) d.key d.v
        .next { s with sec := { s.sec with drbg := some ⟨p.1, p.2, 0⟩ } }

/-! ## Registers of the management page (R496, R502, R509) -/

/-- SIGN_STAGE as bytes (R502, R564). -/
def State.signStageBytes (s : State) : Bytes := (List.range 12).flatMap (fun j => natLe 4 (tblGetD s.sec.signStage j 0).toNat)

/-- A write of SIGN_CTRL (R502). -/
def State.signCtrl (value : Nat) (s : State) : State :=
  let slot := fld value 0 2
  let commit := bitOf value 2
  let clear := bitOf value 3
  let s : State := { s with sec := { s.sec with signSlot := slot } }
  if commit && clear then { s with sec := { s.sec with refused := true } }
  else if commit then { s with sec := { s.sec with digests := tblSet s.sec.digests slot s.signStageBytes } }
  else if clear then { s with sec := { s.sec with digests := tblDel s.sec.digests slot } }
  else s

/-- A write of KEY_PART[f] (R496). -/
def State.keyPartWrite (f value : Nat) (s : State) : State :=
  let base := fld value 0 10
  let cnt := fld value 10 11
  let others := s.sec.keyPart.filter (fun p => p.1 != f)
  let overlap := others.any (fun p => decide (0 < cnt) && decide (base < p.2.1 + p.2.2) && decide (p.2.1 < base + cnt))
  let leaves := s.sec.slots.any (fun p => s.inRange f p.1 && !(base ≤ p.1 && p.1 < base + cnt))
  if 1024 < base + cnt || overlap || leaves then { s with sec := { s.sec with refused := true } }
  else { s with sec := { s.sec with keyPart := tblSet s.sec.keyPart f (base, cnt) } }

/-- Codes that SEC_TEST can arm (R509). -/
def armable (t : Nat) : Bool := (1 ≤ t && t ≤ 4) || (0x11 ≤ t && t ≤ 0x1A)

/-- A write of SEC_TEST (R509): TARGET, and with ARM the failure it names. The caller has checked the session (R494). -/
def State.secTest (value : Nat) (s : State) : State :=
  let t := fld value 0 8
  if !bitOf value 8 then { s with sec := { s.sec with testTarget := t } }
  else if !s.pins.testMode || !armable t then { s with sec := { s.sec with refused := true } }
  else { s with sec := { s.sec with testTarget := t, armed := some t, armPos := 0 } }

/-! ## KEY_CTRL of a function page (R499) -/

/-- The outcome of a KEY_CTRL operation in KEY_STATUS. -/
def State.keyResult (f : Nat) (loaded : Bool) (t code : Nat) (s : State) : State :=
  s.modFunc f (fun x => { x with keyLoaded := loaded, keyType := t, keyResult := code })

/-- Reports a slot with a result (R499): LOADED 0 and TYPE 0 outside the range; TYPE of an empty slot is a free value (log 13). -/
def State.keyReport (f slot code : Nat) (s : State) : State :=
  if !s.inRange f slot then s.keyResult f false 0 code
  else match tblGet? s.sec.slots slot with
    | some k => s.keyResult f true k.keyType code
    | none =>
      let (t, s) := s.draw 3
      s.keyResult f false t code

/-- A failure: CRYPTO_ERROR in that state, otherwise ACCESS_DENIED (R499, R511). -/
def State.keyFail (f slot : Nat) (s : State) : State :=
  s.keyReport f slot (if s.sec.cryptoError then stCrypto else stAccessDenied)

/-- QUERY (R499). -/
def State.keyQuery (f slot : Nat) (s : State) : State :=
  if s.sec.cryptoError || !s.inRange f slot then s.keyFail f slot
  else
    let s := (s.readSlot slot).2
    if s.sec.cryptoError then s.keyFail f slot else s.keyReport f slot stOk

/-- ZEROISE (R499). -/
def State.keyZeroise (f slot : Nat) (s : State) : State :=
  if s.sec.cryptoError then s.keyFail f slot
  else match s.ownedSlot f slot with
    | (some _, s) => (s.emptySlot slot).keyReport f slot stOk
    | (none, s) => s.keyFail f slot

/-- DERIVE (R499). -/
def State.keyDerive (f slot src t : Nat) (s : State) : State :=
  if s.sec.cryptoError then s.keyFail f slot
  else match s.ownedSlot f src with
    | (some k, s) =>
      if k.keyType ≠ 3 ∨ !s.inRange f slot ∨ (tblGet? s.sec.slots slot).isSome ∨ 3 < t then s.keyFail f slot
      else
        let label := ascii "STVZ-KD" ++ natLe 4 (s.func f).keyLabel.toNat
        let key := kdf k.key label (natLe 1 f ++ natLe 2 slot ++ natLe 1 t) (8 * keyLen t)
        (s.loadSlot slot t f key).keyReport f slot stOk
    | (none, s) => s.keyFail f slot

/-- The operation of a KEY_CTRL value: OP 1 QUERY, 2 ZEROISE, 3 DERIVE; other values are ignored (R499). -/
def State.keyOp (f value : Nat) (s : State) : State :=
  let slot := fld value 0 10
  match fld value 24 3 with
  | 1 => s.keyQuery f slot
  | 2 => s.keyZeroise f slot
  | 3 => s.keyDerive f slot (fld value 10 10) (fld value 20 3)
  | _ => s

/-- A write of KEY_CTRL: ignored while BUSY; during a self-test the service waits (R499, R508). -/
def State.keyCtrl (f value : Nat) (s : State) : State :=
  if (s.func f).keyWait.isSome then s
  else if s.sec.selftestBusy then s.modFunc f (fun x => { x with keyWait := some value })
  else s.keyOp f value

/-- The services that waited for a self-test run when it ends (R508). -/
def State.serveWaiting (s : State) : State :=
  let s := State.forEach (List.range s.sec.authWait) (fun _ => State.auth) { s with sec := { s.sec with authWait := 0 } }
  s.forEach (s.funcs.filterMap (fun p => p.2.keyWait.map (fun v => (p.1, v))))
    (fun p s => (s.modFunc p.1 (fun x => { x with keyWait := none })).keyOp p.1 p.2)

/-- SELFTEST_COMPLETE (R508): steps 1 and 2 of R173 again, then the DRBG reinstantiates. A frame that entered CRYPTO_ERROR
meanwhile stays there and serves nothing (R511). -/
def execSelftestComplete (kat : Option (BitVec 4)) (noise : List Bool) (s : State) : Out :=
  if !s.sec.selftestBusy || s.sec.zeroising then .next s else
    let s : State := { s with sec := { s.sec with selftestBusy := false } }
    if s.sec.cryptoError then .next s.serveWaiting else
    match s.preTestsRun kat noise with
    | (some c, s) => .next (s.cryptoError c).serveWaiting
    | (none, s) =>
      let s := s.drbgStart (noise.drop 1024)
      .next (State.serveWaiting (if s.sec.cryptoError then s else { s with sec := { s.sec with selftestDone := true } }))

end Sys2Proof.Machine
end

