-- ==== Sys2Proof/Machine/Startup.lean ====
section
/-! DEFINITION. Power-on reset, the start-up sequence and test mode (R153, R163 to R177, R186), and the march of
every bank (R164, R266, R269). -/

namespace Sys2Proof.Machine

/-- Power-on reset (R165): every register at its reset value; what lies outside the block is untouched. -/
def State.powerOn (s : State) (p : Pins) : State :=
  { State.resetWith s.caps s.pending s.freeCtr s.mem s.resp with pins := p }

/-- Pin levels after a reset: por_n and test_mode as given, zeroise as it stands. DESIGN CHOICE (log 135): zeroise_done falls with the
zeroisation that the reset ends, and neither comes back before zeroise falls and rises again. -/
def Pins.held (p : Pins) (porN testMode : Bool) : Pins := { Pins.fresh with porN := porN, testMode := testMode, zeroise := p.zeroise }

/-- POR_ASSERT (R153, R165). It is the only way out of test mode (R163). dieD_iso is taken as released, since only power-on reset ends an
isolation (R154; log 23); DIE_ISO_ASSERT while por_n is low says that it is asserted. -/
def execPorAssert (s : State) : Out := .next (s.powerOn (s.pins.held false false))

/-- POR_RELEASE (R165, R167): BOOT; the pacer counts from 0. -/
def execPorRelease (s : State) : Out :=
  if s.pins.porN then .next s
  else .next { s with
    pins := { s.pins with porN := true },
    frame := { s.frame with st := .boot },
    pace := { s.pace with counting := true, time := 0 } }

/-- Start-up stops (R167, R176). -/
def State.bootFail (cause : Nat) (s : State) : State := { s with frame := { s.frame with st := .bootFail, bootCause := cause } }

/-- The firmware checks of the ROM: 2 FW_KEY, 3 FW_SIGNATURE, or the version (R170, R171). A bad layout fails the
signature check, since the ROM signs off the whole layout (log 22). -/
def firmwareCheck (img : Bytes) (code : Nat) : Except Nat Nat :=
  let signed := img.take (64 + code)
  let sig := bytesAt img (64 + code) 256
  if !([Config.romDigest 0, Config.romDigest 1].contains (sigKeyDigest sig)) then .error 2
  else if leAt img 0 4 ≠ 0x57445453 ∨ code % 64 ≠ 0 ∨ !sigBlockVerify sig (sha384 signed) then .error 3
  else .ok (leAt img 4 4)

/-- FIRMWARE_VERIFY (R168 to R171): one read into private storage, then the key digest and the signature. -/
def execFirmwareVerify (v : MemView) (s : State) : Out :=
  let s := s.seeMem v
  if s.frame.st != .boot || s.frame.fwVerified then .next s else s.turn fun s =>
    match s.sysRead (.steward 0) Config.fwAddr 64 with
    | (.okay, hd, s) =>
      let code := min (leAt hd 8 4) (512 * 1024 - 64)
      match s.sysRead (.steward 0) (Config.fwAddr + 64) (code + 256) with
      | (.okay, rest, s) =>
        match firmwareCheck (hd ++ rest) (leAt hd 8 4) with
        | .error c => .next (s.bootFail c)
        | .ok ver => .next { s with frame := { s.frame with fwVerified := true, fwVersion := BitVec.ofNat 32 ver } }
      | (_, _, s) => .next (s.bootFail 1)
    | (_, _, s) => .next (s.bootFail 1)

/-- A whole-frame march starts, and march_done falls (R164). One that runs already starts over (log 112). -/
def State.marchBegins (s : State) : State :=
  { s with march := { s.march with busy := true, whole := true }, pins := { s.pins with marchDone := false } }

/-- DIE_BRING_UP (R172 to R174, R504, R506): link-up levels, isolation of dies without a path to die 0, then tests 1 and 2. -/
def execDieBringUp (linkUp : BitVec 4) (kat : Option (BitVec 4)) (noise : List Bool) (s : State) : Out :=
  if s.frame.st != .boot || !s.frame.fwVerified then .next s else
    let s : State := { s with
      bounds := (boundariesOf s.caps.dies).foldl (fun t b => tblSet t b.1 ⟨linkUp.getLsbD b.1, !linkUp.getLsbD b.1, []⟩) [],
      frame := { s.frame with diesUp := List.range s.caps.dies } }
    let s := s.isolateUnreachable
    let s : State := { s with frame := { s.frame with st := .selfTest } }
    match s.preTestsRun kat noise with
    | (some c, s) =>
      let s := if c = 0x1A then { s with frame := { s.frame with fwVerified := false, fwVersion := 0 } } else s
      .next ((s.cryptoError c).bootFail (if c < 0x10 then 5 else 4))
    | (none, s) =>
      let s := s.drbgStart (noise.drop 1024)
      if s.sec.cryptoError then .next (s.bootFail 5)
      else .next s.marchBegins

/-! ## Whole-frame marches (R164, R266, R269, R175) -/

/-- Every bank of every reachable bay (R175, R268). Until die bring-up every die counts as reachable (log 112). -/
def State.reachableBanks (s : State) : List Nat :=
  s.allBanks.filter (fun b => (s.frame.diesUp.isEmpty || s.frame.diesUp.contains (s.bayDie (b / 48))) && !s.fenced (b / 48))

/-- A bank failed a march (R269): MARCH_FAIL, logged, its bay fenced. -/
def State.marchFailed (mode : Nat) (b : Nat) (s : State) : State :=
  let s : State := { s.modBank b (fun x => { x with marchFail := true }) with frame := { s.frame with marchFail := true } }
  (s.logFrame stOk 4 0 (b % 48) (b / 48) mode).fence (b / 48) 2

/-- The end of a whole-frame march over the banks of `l`, of which `failing` fail (R164, R266, R269, MARCH_STATUS). -/
def State.marchAll (l failing : List Nat) (s : State) : State :=
  let bad := l.filter (fun b => failing.contains b)
  let s := s.forEach l (fun b s => (s.zeroBank b).modBank b (fun x => { x with marchFail := false, uncorr := false }))
  let s : State := { s with
    march := { s.march with busy := false, done := true, whole := true, fail := decide (0 < bad.length), stBank := bad.headD 0, failCount := bad.length },
    pins := { s.pins with marchDone := true, marchFail := decide (0 < bad.length) } }
  s.forEach bad (State.marchFailed 0)

/-- START_UP_MARCH_DONE (R173, R175): failing bays are fenced, READY_FOR_IMAGE, and every reachable bay goes to PARK by the
clock-step handshake (R43, R45). Services that waited for the tests run (R173). -/
def execStartUpMarchDone (reads : List MarchRead) (s : State) : Out :=
  if s.frame.st != .selfTest || !s.march.busy then .next s else
    let s := s.marchAll s.reachableBanks (marchFailing reads)
    let s := s.forEach (List.range s.nBays) State.parkBay
    .next (State.serveWaiting { s with frame := { s.frame with st := .ready, preTests := true } })

/-- TEST_MODE_ENTRY (R163, R165): every key slot is zeroised before any other effect, then the frame resets and starts
up again as at power-on reset, with STATE showing TEST_MODE (log 23). -/
def execTestModeEntry (s : State) : Out :=
  if s.pins.testMode then .next s else
    let s : State := { s with sec := s.sec.zeroise }
    let r := s.powerOn { s.pins.held s.pins.porN true with dieIso := s.pins.dieIso, dieIsoDone := s.pins.dieIsoDone }
    .next { r with frame := { r.frame with st := if s.pins.porN then .boot else .reset }, pace := { r.pace with counting := s.pins.porN } }

/-- MARCH_TRIG (R164): in READY_FOR_IMAGE or with test_mode at 1 a destructive march of every bank starts; at any
other time it is ignored and logged. -/
def execMarchTrig (s : State) : Out :=
  .next (if s.shown == .ready || s.pins.testMode then s.marchBegins else s.logFrame stOk 4 6 0 0xFF 0)

end Sys2Proof.Machine
end

