-- ==== Sys2Proof/Machine/Pacing.lean ====
section
/-! DEFINITION. The pacer and counter snapshots (R148, R149, R539 to R547), and wrapper instructions (R162). -/

namespace Sys2Proof.Machine

/-- PACE_SYNC (R541): pacer time is captured; it never changes. -/
def execPaceSync (s : State) : Out := .next { s with pace := { s.pace with capt := s.pace.time, syncSeen := true } }

/-- PACE_REF_LOSS (R149, R540). -/
def execPaceRefLoss (s : State) : Out :=
  if s.pace.holdover then .next s
  else .next ((State.count 0 0 3 1 { s with pace := { s.pace with holdover := true } }).logFrame stOk 4 3 0 0xFE 0)

/-- PACE_REF_RESTORE (R149). -/
def execPaceRefRestore (s : State) : Out := .next { s with pace := { s.pace with holdover := false } }

/-- A write of PACE_OFFSET with value `n` (R542): a refused write leaves the register as it was. -/
def State.applyOffset (n : Nat) (s : State) : State :=
  if !s.openStreams.isEmpty || s.tel.pending then { s with pace := { s.pace with refused := true } }
  else { s with pace := { s.pace with offset := n, time := (s.pace.time + n) % 2 ^ 64 } }

/-- What a request to arm a snapshot gets (R543). -/
inductive SnapArm where
  | armed | pending | late
  deriving DecidableEq, Repr

/-- Whether a snapshot at `at_` may be armed (R543). -/
def State.snapCheck (s : State) (at_ : Nat) : SnapArm :=
  if s.tel.pending then .pending else if at_ < s.now + 10000 then .late else .armed

/-- A snapshot is armed at a pacer time (R543). -/
def State.armSnap (at_ : Nat) (s : State) : State :=
  { s with tel := { s.tel with snapAt := at_, pending := true, copied := [], spare := [] } }

/-- The effect of a write to SNAP_AT_HI (R543, R570). -/
def State.snapWrite (at_ : Nat) (s : State) : State :=
  if s.frame.st == .fatal then { s with tel := { s.tel with refused := true } }
  else match s.snapCheck at_ with
    | .pending => { s with tel := { s.tel with refused := true } }
    | .late => { s with tel := { s.tel with late := true } }
    | .armed => s.armSnap at_

/-- The unit that holds a counter (R544, R547). -/
def State.cntUnit (s : State) (key : Nat) : SnapUnit :=
  let g := key / 2 ^ 18
  let i := key % 2 ^ 18 / 64
  let mortise := fun (r : Nat) => match s.image.committed.bind (fun c => c.routes.find? (fun x => x.route == r)) with
    | some x => x.mortiseBay
    | none => 0
  if g = 1 then .port (BitVec.ofNat 3 i)
  else if g = 2 then .bay (BitVec.ofNat 6 i)
  else if g = 3 then .bay (BitVec.ofNat 6 (mortise i))
  else if g = 7 then .boundary (BitVec.ofNat 2 i)
  else if g = 9 then .management
  else .control

/-- A running time not yet added to a counter (R547): power states of bays, VOID of streams, STALLED of pools. -/
def State.partial_ (s : State) : List (Nat × Nat) :=
  (s.bays.filter (fun p => p.2.pstate != .fenced)).map (fun p => (cntKey 2 p.1 p.2.pstate.counter, s.now - p.2.since)) ++
  (s.openStreams.filter (fun p => p.2.2.void)).map (fun p => (cntKey 4 p.2.2.gidx 7, s.now - p.2.2.voidSince)) ++
  (s.pools.filter (fun p => p.2.stalled)).map (fun p => (cntKey 6 p.1 2, s.now - p.2.stallSince))

/-- The counters as they read now. -/
def State.counters (s : State) : Tbl Nat := s.partial_.foldl (fun t p => tblSet t p.1 ((tblGetD t p.1 0 + p.2) % 2 ^ 64)) s.tel.cnt

/-- SNAPSHOT_COPY (R544): when pacer time has reached SNAP_AT, a unit copies its counters into the spare shadow. -/
def execSnapshotCopy (unit : SnapUnit) (s : State) : Out :=
  if !s.tel.pending || s.frame.st == .fatal || s.now < s.tel.snapAt || !s.unitPresent unit || s.unitFenced unit || s.tel.copied.contains unit then .next s
  else .next { s with tel := { s.tel with
    spare := (s.counters.filter (fun p => s.cntUnit p.1 == unit)).foldl (fun t p => tblSet t p.1 p.2) s.tel.spare,
    copied := s.tel.copied ++ [unit] } }

/-- SNAPSHOT_COMPLETE (R545): every unfenced unit has copied; the shadows swap. A frame-fatal error that came before that bars it for good
(R31). -/
def execSnapshotComplete (s : State) : Out :=
  if !s.tel.pending || s.tel.lost || !s.snapWhole then .next s
  else .next { s with tel := { s.tel with
    shadow := s.tel.spare.filter (fun p => !s.unitFenced (s.cntUnit p.1)), spare := [], copied := [], pending := false, done := true,
    fenced := s.allUnits.any s.unitFenced, seq := (s.tel.seq + 1) % 65536 } }

/-- The instruction a wrapper holds; until an update it is WS_BYPASS (R162; log 123). -/
def State.wrapper (s : State) (w : Nat) : WrapperInstr := tblGetD s.wrappers w .bypass

/-- WRAPPER_INSTRUCTION_UPDATE (R162): three instructions are always available; Vodiand's own are refused unless
test_mode is 1. Wrappers 0 to 63 are the work bays', 64 the control bay's, 65 the management bay's. -/
def execWrapperInstructionUpdate (wrapper : BitVec 7) (instr : WrapperInstr) (s : State) : Out :=
  let w := wrapper.toNat
  let present := w < s.nBays || w == 64 || w == 65
  let own := instr == .scan || instr == .bankAccess
  .next (if present && (!own || s.pins.testMode) then { s with wrappers := tblSet s.wrappers w instr } else s)

/-- One cycle of pace_ref, or the same time of mgmt_clk in holdover: 10 ns (R539, R540; log 1). -/
def State.tick (s : State) : State :=
  if s.pace.counting then { s with pace := { s.pace with time := (s.pace.time + 10) % 2 ^ 64 } } else s

end Sys2Proof.Machine
end

