-- ==== Sys2Proof/Machine/Thermal.lean ====
section
/-! DEFINITION. Bay clocks and power states (R42 to R46, R151, R152, R553), sensors (R155, R156) and the thermal
governor (R548 to R552). -/

namespace Sys2Proof.Machine

/-! ## Clock steps (R151, R152) -/

/-- CLOCK_STEP_ACK (R151, R152): the new clock is measured; more than 1 % above its target is a clock fault (R44). -/
def execClockStepAck (k : BitVec 7) (mhz : Nat) (s : State) : Out :=
  let k := k.toNat
  let b := s.bay k
  let c := b.cstep
  if !c.req || c.ack then .fault (.portRule k)
  else
    let s := s.setBay k { b with
      cstep := { c with req := false, ack := true }, mhz := mhz, stopped := decide (c.mhz = 0), clkState := s.clockState k c.mhz }
    let s := (if k < 64 then s.count 2 k 10 1 else s).steppedTo k c.mhz
    .next (if c.mhz * 101 < mhz * 100 then s.fence k 1 else s)

/-- CLOCK_STEP_ACK_TIMEOUT (R152): no acknowledgement within 50 µs is a clock fault (R44). -/
def execClockStepAckTimeout (k : BitVec 7) (s : State) : Out :=
  let b := s.bay k.toNat
  if b.cstep.req && decide (b.cstep.at_ + 50000 ≤ s.now) then .next (s.fence k.toNat 1) else .next s

/-- CLOCK_STEP_ACK_LOWERED (R151): the channel is idle again. -/
def execClockStepAckLowered (k : BitVec 7) (s : State) : Out :=
  let b := s.bay k.toNat
  .next (State.nextStep k.toNat (s.setBay k.toNat { b with cstep := { b.cstep with ack := false } }))

/-- BAY_CLOCK_FAULT (R44). -/
def execBayClockFault (k : BitVec 6) (s : State) : Out := .next (s.fence k.toNat 1)

/-! ## DOZE (R45, R46) -/

/-- An open guaranteed stream's graph binds the bay (R46, R552). -/
def State.guaranteedBay (s : State) (k : Nat) : Bool := s.openStreams.any (fun p => p.2.2.guaranteed && hasBit (s.graphOf p.2.2).bays k)

/-- Nothing waits within the bay: no unit in progress, no beat to launch. -/
def Bay.quiet (b : Bay) : Bool := b.acc.isEmpty && b.heat.isEmpty && b.out.all (fun p => p.2.isEmpty)

/-- The bay has no work: nothing waits within it or at its mortises. -/
def State.bayIdle (s : State) (k : Nat) : Bool := (s.bay k).quiet && !s.mortiseBusy k

/-- BAY_DOZE_ENTRY: after 256 idle bay clocks in RUN (R45), never with an active guaranteed stream (R46). -/
def execBayDozeEntry (k : BitVec 6) (s : State) : Out :=
  let b := s.bay k.toNat
  if k.toNat < s.nBays && b.pstate == .run && s.bayIdle k.toNat && !s.guaranteedBay k.toNat then .next (s.setPState k.toNat .doze) else .next s

/-- A grant can arrive at a bay: a stream that has not halted has a graph that binds it (R45; log 109). -/
def State.bayGranted (s : State) (k : Nat) : Bool := s.openStreams.any (fun p => p.2.2.st != .halted && hasBit (s.graphOf p.2.2).bays k)

/-- BAY_WAKE: a transition has arrived at a mortise of the bay, or a grant arrives (R45). -/
def execBayWake (k : BitVec 6) (s : State) : Out :=
  if (s.bay k.toNat).pstate == .doze && (s.mortiseBusy k.toNat || s.bayGranted k.toNat) then .next (s.setPState k.toNat .run) else .next s

/-! ## Sensors (R155, R156) -/

/-- A die whose sensor is bad loses its sprint; the event is logged once (R156, R567). -/
def State.sensorFails (d cause : Nat) (s : State) : State :=
  let t := s.thermal d
  if t.sensorBad then s else
    let s := (s.setThermal d { t with sensorBad := true, sprintUntil := none }).logFrame stOk 4 6 d 0xFF cause
    s.forEach ((List.range s.nBays).filter (fun k => s.bayDie k == d && t.sprintUntil.isSome && s.bayBound k)) (fun k s => s.wantClock k (s.sustained k))

/-- The sensor temperature in °C (R155). -/
def sensorFp (t : BitVec 12) : Fp := fpDiv (fpOfInt t.toInt) 0x41800000

/-- THERMAL_UPDATE (R155, R156, R549). -/
def execThermalUpdate (die : BitVec 2) (temp : BitVec 12) (s : State) : Out :=
  let d := die.toNat
  let t := s.thermal d
  if s.frame.st == .reset || s.caps.dies ≤ d then .next s
  else if temp = 0x800 then .next ((s.setThermal d { t with valid := false, updAt := s.now }).sensorFails d 1)
  else
    let ts := sensorFp temp
    .next (s.setThermal d { t with
      temp := temp, valid := true, sensorBad := false, updAt := s.now, seen := true, t1 := if t.seen then t.t1 else ts, t2 := if t.seen then t.t2 else ts })

/-- SENSOR_STALE (R156): no update for 4 ms, or an invalid sensor. -/
def execSensorStale (die : BitVec 2) (s : State) : Out :=
  let d := die.toNat
  let t := s.thermal d
  if s.frame.st == .reset || s.caps.dies ≤ d then .next s
  else if t.seen && !t.valid then .next (s.sensorFails d 1)
  else if t.updAt + 4000000 ≤ s.now then .next (s.sensorFails d 2)
  else .next s

/-! ## The governor (R548 to R552) -/

/-- Entry i of the model of die d (R548). -/
def State.model (s : State) (d i : Nat) : Fp := tblGetD s.thermModel (8 * d + i) 0

/-- Largest sustained clock of a die's bays. -/
def State.dieSustained (s : State) (d : Nat) : Nat :=
  ((List.range s.nBays).filter (fun k => s.bayDie k == d)).foldl (fun n k => max n (s.sustained k)) 0

/-- The model of a die is valid (R548). -/
def State.modelValid (s : State) (d : Nat) : Bool :=
  let m := s.model d
  let tau : Fp := 0x38D1B717
  fpLt 0 (m 0) && fpLe tau (fpMul (m 0) (m 1)) && fpLt 0 (m 2) && fpLe tau (fpMul (m 2) (m 3)) && fpLt (m 4) (m 5) && fpLe (m 5) 0x42FA0000 &&
  fpLe 0x3F000000 (m 6) && fpLe (m 6) 0x41A00000 && fpLe (fpOfNat (s.dieSustained d)) (m 7) && fpLe (m 7) 0x44C80000 &&
  fpEq (m 7) (fpOfInt (fpFloor (m 7)))

/-- One step of the model at power P: dt = 10 µs, each operation in FP32 (R549). -/
def thermStep (m : Nat → Fp) (p ts : Fp) (t : Fp × Fp) : Fp × Fp :=
  let q1 := fpDiv (fpSub t.1 t.2) (m 0)
  let q2 := fpDiv (fpSub t.2 ts) (m 2)
  (fpAdd t.1 (fpDiv (fpMul 0x3727C5AC (fpSub p q1)) (m 1)), fpAdd t.2 (fpDiv (fpMul 0x3727C5AC (fpSub q1 q2)) (m 3)))

/-- The power estimate of a die with given clocks (R549; log 14): activity is the bay's units-in counter. -/
def State.dieActivity (s : State) (d : Nat) (clock : Nat → Nat) : Fp :=
  Config.powerEstimate (((List.range s.nBays).filter (fun k => s.bayDie k == d)).map (fun k =>
    (k, clock k, tblGetD s.tel.cnt (cntKey 2 k 6) 0)))

/-- The forecast of R550: T1 stays at or below TJ_LIMIT over the next 100 steps. -/
def forecast (m : Nat → Fp) (p ts : Fp) : Nat → Fp × Fp → Bool
  | 0, _ => true
  | n + 1, t => let t' := thermStep m p ts t; fpLe t'.1 (m 4) && forecast m p ts n t'

/-- The clock a bay is to have at its die's level (R550 to R552). -/
def State.targetClock (s : State) (d k : Nat) : Nat :=
  let t := s.thermal d
  let u := s.sustained k
  let g := s.guaranteedBay k
  if 4 ≤ t.level then 100
  else if t.level = 3 then (if g then u else 100)
  else if t.level = 2 then (if g then u else max 100 (u / 2))
  else if t.level = 0 && t.sprintUntil.isSome then (fpFloor (s.model d 7)).toNat
  else u

/-- Every bound bay of a die is sent to its target (R551); nothing is known of clocks before the first commit. -/
def State.steerDie (d : Nat) (s : State) : State :=
  if s.image.committed.isNone then s else
  s.forEach ((List.range s.nBays).filter (fun k => s.bayDie k == d)) (fun k s =>
    let s := s.nextStep k
    if s.bayBound k then s.wantClock k (s.targetClock d k) else s)

/-- A die's throttle level after a step (R551). A model that is not valid moves no level (log 25). -/
def Therm.levels (t : Therm) (m : Nat → Fp) (now : Nat) : Therm :=
  let cool := fpLt t.t1 (fpSub (m 4) (m 6))
  let since := if cool then (match t.coolSince with
    | some c => some c
    | none => some now) else none
  let stayed := fun (n : Nat) => match since with
    | some c => decide (c + n ≤ now)
    | none => false
  if fpLe (m 5) t.t1 then { t with level := 4, critical := true, coolSince := since }
  else if fpLt (m 4) t.t1 then
    let l := min 4 (t.level + 1)
    { t with level := l, critical := t.critical || l == 4, coolSince := since }
  else if t.critical then (if stayed 10000000 then { t with critical := false, level := 3, coolSince := some now } else { t with coolSince := since })
  else if 0 < t.level && stayed 1000000 then { t with level := t.level - 1, coolSince := some now }
  else { t with coolSince := since }

/-- One governor step of one die (R549, R551). -/
def State.governDie (d : Nat) (s : State) : State :=
  let t := s.thermal d
  let ts := sensorFp t.temp
  let p := s.dieActivity d (fun k => (s.bay k).mhz)
  let m := s.model d
  let ok := s.modelValid d
  let t' := if ok then let r := thermStep m p ts (t.t1, t.t2); { t with t1 := r.1, t2 := r.2, power := p } else { t with t1 := ts, power := p }
  let t' := if ok then t'.levels m s.now else t'
  let t' := { t' with
    energy := t.energy + (fpFloor (fpMul p 0x461C4000)).toNat,
    sprintUntil := if !ok || t'.level != 0 || t'.sensorBad then none else match t'.sprintUntil with
      | some u => if u ≤ s.now then none else some u
      | none => none }
  let s := s.setThermal d t'
  let s := if t.sprintUntil.isSome then s.count 9 d 0 10000 else s
  let s := if 2 ≤ t'.level then s.count 9 d 1 10000 else s
  let s := s.count 9 d 2 (t'.energy / 1000000 - t.energy / 1000000)
  let s := s.steerDie d
  if t'.level = 4 ∧ t.level ≠ 4 then
    (if s.frame.st == .running || s.frame.st == .walk then s.walkCause 1 else s.logFrame stOk 4 6 d 0xFF 4)
  else s

/-- GOVERNOR_STEP (R549 to R552, R531): every 10 µs, each die; WALK is left when its cause has cleared everywhere. -/
def execGovernorStep (v : MemView) (s : State) : Out :=
  let s := s.seeMem v
  if s.frame.st == .reset then .next s else
    let s := s.forEach (List.range s.caps.dies) State.governDie
    .next (if (List.range s.caps.dies).any (fun d => (s.thermal d).critical) then s else s.walkThermalClear)

/-- SPRINT_GRANT (R550): at each 1 ms grant point sprint is granted or renewed if the forecast holds. -/
def execSprintGrant (die : BitVec 2) (s : State) : Out :=
  let d := die.toNat
  let t := s.thermal d
  if s.frame.st == .reset || s.caps.dies ≤ d || s.image.committed.isNone then .next s
  else if (match t.sprintUntil with
      | some u => decide (s.now < u)
      | none => false) then .next s
  else
    let m := s.model d
    let clk := (fpFloor (m 7)).toNat
    let p := s.dieActivity d (fun k => if (s.bay k).pstate == .run || (s.bay k).pstate == .doze then clk else (s.bay k).mhz)
    let ok := s.modelValid d && t.level == 0 && !t.sensorBad && t.seen && forecast m p (sensorFp t.temp) 100 (t.t1, t.t2)
    .next (State.steerDie d (s.setThermal d { t with sprintUntil := if ok then some (s.now + 1000000) else none }))

end Sys2Proof.Machine
end

