-- ==== Sys2Proof/Machine/BankOps.lean ====
section
/-! DEFINITION. Bank ownership and the baton (R260 to R265), scrubbing (R258, R259) and marches of one bank
(R266 to R269). -/

namespace Sys2Proof.Machine

/-- A unit at a bay is for an engine slot: its stream's graph binds it there. -/
def State.tagSlot (s : State) (k slot : Nat) (t : UnitTag) : Bool := match s.byGidx t.stream with
  | some (_, _, x) => (s.slotsOf x.graph k).contains slot
  | none => false

/-- The engine of a slot has a unit: one that arrives, one that waits for a heat or for its stream (R400, R328, R373), in an intake bay the
record that it reads, in a pack bay a sample of which parts have come. -/
def State.slotBusy (s : State) (k slot : Nat) : Bool :=
  let y := s.bay k
  let kind := s.bayKind k
  y.acc.any (fun p => s.tagSlot k slot p.2.tag) || y.heat.any (fun h => s.tagSlot k slot h.data.tag) || y.held.any (fun h => s.tagSlot k slot h.2.tag) ||
  s.openStreams.any (fun p => (s.slotsOf p.2.2.graph k).contains slot &&
    ((kind == 1 && (match p.2.2.reading with
      | some r => s.intakeBay r.port == k
      | none => false)) ||
    (kind == 6 && p.2.2.inFlight.any (fun z => z.got != 0 || z.sideGot != 0))))

/-- A write of a block of a stream's batch is outstanding on a port. -/
def State.blockOut (s : State) (f i : Nat) : Bool := s.ports.any (fun p => p.2.writes.any (fun o => match o.req.owner with
  | .slotBlock g j _ _ => g == f && j == i
  | _ => false))

/-- BATON_OUT: the current owner has work in the bank (R261). An engine works on a unit; a stream is HALTED, or a block of its batch is
on its way; the steward copies a chunk, which begins and ends within the commands of a load; the march engine marches. -/
def State.batonOut (s : State) (b : Nat) : Bool :=
  let x := s.bank b
  if x.kind = 1 then s.slotBusy (b / 48) x.index
  else if x.kind = 2 then (match s.byGidx x.index with
    | some (f, i, y) => y.st == .halted || s.blockOut f i
    | none => false)
  else if x.kind = 3 then false
  else if x.kind = 4 then s.march.busy && (s.march.whole || s.march.runBank == b)
  else false

/-- Whether a BANK_OWNER write is refused (R265). -/
def State.ownerRefused (s : State) (b kind index : Nat) : Bool :=
  let k := b / 48
  s.frame.st != .running || s.fenced k || kind == 3 || decide (4 < kind) || ((kind == 0 || kind == 4) && index != 0) ||
  (kind == 1 && !(match s.image.committed with
    | some c => c.binds.any (fun x => x.bay == k && x.slot == index)
    | none => false)) ||
  (kind == 2 && !(match s.byGidx index with
    | some (_, _, y) => hasBit (s.graphOf y).bays k
    | none => false))

/-- A write of BANK_OWNER[b] (R262, R263, R265). -/
def State.bankOwnerWrite (b value : Nat) (s : State) : State :=
  let kind := fld value 0 3
  let index := fld value 4 10
  if !s.bankPresent b then s
  else if s.ownerRefused b kind index then s.modBank b (fun x => { x with refused := true })
  else
    let x := s.bank b
    if x.kind = kind ∧ x.index = index then s.setBank b { x with pending := none }
    else s.setBank b { x with pending := some ⟨kind, index, bitOf value 3, false⟩ }

/-- A handover is complete (R262): one that an image commit asked for loads the bank's pinned tables (R104; log 26). Any other leaves the
bank as it is, or as it was cleared (R264). -/
def State.handedOver (b : Nat) (load : Bool) (s : State) : State := if load then s.fillPinned b else s

/-- BANK_HANDOVER (R262, R264): once the baton is back, ownership passes and a clear begins where it is due. -/
def execBankHandover (b : BitVec 12) (s : State) : Out :=
  let n := b.toNat
  let x := s.bank n
  match x.pending with
  | none => .next s
  | some r =>
    if x.clearing || s.batonOut n || s.fenced (n / 48) || s.frame.st == .fatal then .next s else
      let fn := match s.byGidx r.index with
        | some (f, _, _) => f
        | none => 64
      let clear := r.clear || (x.kind == 2 && !(r.kind == 2 && fn == x.ownerFn))
      let s := s.setBank n { x with
        kind := r.kind, index := r.index, ownerFn := if r.kind = 2 then fn else 0, pending := none, clearing := clear, loaded := r.load }
      .next (if clear then s else s.handedOver n r.load)

/-- BANK_CLEAR_DONE (R262, R264). -/
def execBankClearDone (b : BitVec 12) (s : State) : Out :=
  let x := s.bank b.toNat
  if x.clearing then .next (((s.zeroBank b.toNat).modBank b.toNat (fun y => { y with clearing := false })).handedOver b.toNat x.loaded) else .next s

/-- Every open stream whose graph binds the bay halts (R259). -/
def State.haltBayStreams (k : Nat) (s : State) : State :=
  s.forEach (s.openStreams.filter (fun p => hasBit (s.graphOf p.2.2).bays k)) (fun p s => s.streamError p.1 p.2.1 stEcc 0)

/-- SCRUB_READ (R258, R259): in RUN and DOZE, not while the march engine owns the bank. The bits of `upset` have changed in the word
since it was written. What is corrected is written back; an uncorrectable word stays as it is. -/
def execScrubRead (b : BitVec 12) (upset : BitVec 576) (s : State) : Out :=
  let n := b.toNat
  let k := n / 48
  let x := s.bank n
  let p := (s.bay k).pstate
  if !s.bankPresent n || x.kind = 4 || !(p == .run || p == .doze) then .next s else
    let a := x.scrub
    let (w, s) := (s.setBank n { x with scrub := (a + 1) % 4096 }).word n a
    let w := ofRaw (rawOf w ^^^ upset)
    match readWord w with
    | some (_, 0) => .next s
    | some (v, m) => .next (((s.setWord n a v).modBank n (fun y => { y with corr := satAdd 255 y.corr m })).count 2 k 3 m)
    | none =>
      let s := (s.setWord n a w).modBank n (fun y => { y with uncorr := true })
      let s := (s.count 2 k 4 1).logFrame stEcc 4 0 (n % 48) k a
      .next (if s.pinnedWord n a then (s.haltBayStreams k).relays else s)

/-- A write of MARCH_CTRL (R268). -/
def State.marchCtrl (value : Nat) (s : State) : State :=
  let bank := fld value 4 12
  let s : State := { s with march := { s.march with mode := bitOf value 1, bank := bank } }
  if !bitOf value 0 then s
  else if !s.bankPresent bank || (s.bank bank).kind != 4 || s.march.busy || s.fenced (bank / 48) then { s with march := { s.march with refused := true } }
  else { s with march := { s.march with busy := true, whole := false, runBank := bank, runMode := bitOf value 1 } }

/-- MARCH_DONE (R266 to R269): the end of a march of one bank, or of a whole-frame march outside start-up (R164). -/
def execMarchDone (reads : List MarchRead) (s : State) : Out :=
  if !s.march.busy || s.frame.st == .selfTest then .next s
  else if s.march.whole then .next (s.marchAll s.reachableBanks (marchFailing reads))
  else
    let b := s.march.runBank
    let (bad, s) := if s.march.runMode then s.marchKeeps b reads else ((marchFailing reads).contains b, s.zeroBank b)
    let s : State := { s.modBank b (fun x => { x with marchFail := bad }) with
      march := { s.march with busy := false, done := true, fail := bad, stBank := b } }
    .next (if bad then s.marchFailed (b2n s.march.runMode) b else s)

end Sys2Proof.Machine
end

