-- ==== Sys2Proof/Machine/Hevc.lean ====
section
/-! DEFINITION. What the cache encoder writes around its slices (R357, R360, R363): parameter sets with HRD parameters, buffering-period,
picture-timing and decoding-unit information SEI, filler data. PRESUMED (log 126): the syntax is that of ITU-T H.265, clauses 7.3, D.2
and E.2; what it lets an encoder choose is the reference encoder model's (Config.encChoice). -/

namespace Sys2Proof.Machine

/-! ## The encoder's profile (R367) -/

def encW (body : Bytes) : Nat := leAt body 0x00 2
def encH (body : Bytes) : Nat := leAt body 0x02 2
def encGop (body : Bytes) : Nat := max 1 (leAt body 0x14 2)
def encFlag (body : Bytes) (n : Nat) : Bool := bitOf (leAt body 0x19 1) n
def encCbr (body : Bytes) : Bool := encFlag body 0
def encSubpic (body : Bytes) : Bool := encFlag body 1
def encDither (body : Bytes) : Bool := encFlag body 2
def encGrey (body : Bytes) : Bool := encFlag body 3
def encChans (body : Bytes) : Nat := if encGrey body then 1 else 3
def encFpsNum (body : Bytes) : Nat := max 1 (leAt body 0x10 2)
def encFpsDen (body : Bytes) : Nat := leAt body 0x12 2
def encSliceCtus (body : Bytes) : Nat := max 1 (leAt body 0x1A 2)
def encPool (body : Bytes) : Nat := leAt body 0x1C 1

/-- The coded size (R357). -/
def codedW (body : Bytes) : Nat := ceilDiv (encW body) 8 * 8
def codedH (body : Bytes) : Nat := ceilDiv (encH body) 8 * 8

/-- CTUs of a line and of a picture. -/
def ctuCols (body : Bytes) : Nat := ceilDiv (codedW body) 64
def ctuCount (body : Bytes) : Nat := ctuCols body * ceilDiv (codedH body) 64

/-- BITRATE in bit/s and CPB_SIZE in bits as they are signalled: multiples of 64 and of 16. -/
def hrdRate (body : Bytes) : Nat := max 1 (1000 * leAt body 0x04 4 / 64) * 64
def hrdCpb (body : Bytes) : Nat := max 1 (1000 * leAt body 0x08 4 / 16) * 16

/-! ## Bits -/

/-- u(n), most significant first. -/
def uBits (n v : Nat) : List Bool := (List.range n).map (fun k => bitOf v (n - 1 - k))

/-- ue(v). -/
def ueBits (v : Nat) : List Bool :=
  let n := Nat.log2 (v + 1)
  List.replicate n false ++ uBits (n + 1) (v + 1)

/-- se(v). -/
def seBits (v : Int) : List Bool := ueBits (if 0 < v then 2 * v.toNat - 1 else 2 * (-v).toNat)

def flagBit (b : Bool) : List Bool := [b]

/-- Bits laid into bytes, the last one filled with zeros. -/
def bitBytes (l : List Bool) : Bytes :=
  (chunks 8 l.length l).map (fun c => BitVec.ofNat 8 ((List.range 8).foldl (fun (v : Nat) k => 2 * v + b2n (c.getD k false)) 0))

/-- Emulation prevention. -/
def escapeNal : Nat → Bytes → Bytes
  | _, [] => []
  | z, b :: t => if 2 ≤ z ∧ b.toNat ≤ 3 then 3 :: b :: escapeNal (if b = 0 then 1 else 0) t else b :: escapeNal (if b = 0 then z + 1 else 0) t

/-- A NAL unit in the byte stream format: start code, type, layer 0, temporal sub-layer 0, payload with its trailing bits. -/
def nalOf (type : Nat) (bits : List Bool) : Bytes := [0, 0, 0, 1, BitVec.ofNat 8 (2 * type), 1] ++ escapeNal 0 (bitBytes (bits ++ [true]))

/-! ## HRD parameters (R360) -/

/-- hrd_parameters(1, 0): one schedule, NAL conformance. With SUBPIC the decoding-unit parameters go to their own SEI. -/
def hrdBits (body : Bytes) : List Bool :=
  let sub := encSubpic body
  let rate := ueBits (hrdRate body / 64 - 1)
  let size := ueBits (hrdCpb body / 16 - 1)
  [true, false, sub] ++ (if sub then uBits 8 0 ++ uBits 5 31 ++ [false] ++ uBits 5 31 else []) ++ uBits 4 0 ++ uBits 4 0 ++
  (if sub then uBits 4 0 else []) ++ uBits 5 31 ++ uBits 5 31 ++ uBits 5 31 ++ [true] ++ ueBits 0 ++ ueBits 0 ++
  rate ++ size ++ (if sub then size ++ rate else []) ++ flagBit (encCbr body)

/-- Timing: one tick is one picture. -/
def timingBits (body : Bytes) : List Bool := uBits 32 (encFpsDen body) ++ uBits 32 (encFpsNum body) ++ [false]

/-- profile_tier_level(1, 0): Main10, level 6.1 or below (R357). -/
def ptlBits (body : Bytes) : List Bool :=
  uBits 2 0 ++ uBits 1 (Config.encChoice body 0 % 2) ++ uBits 5 2 ++ uBits 32 0x20000000 ++ [true, false, false, true] ++ uBits 44 0 ++
  uBits 8 (min 183 (Config.encChoice body 1))

/-- The VPS. -/
def vpsNal (body : Bytes) : Bytes := nalOf 32 (uBits 4 0 ++ [true, true] ++ uBits 6 0 ++ uBits 3 0 ++ [true] ++ uBits 16 0xFFFF ++ ptlBits body ++
  [true] ++ ueBits 1 ++ ueBits 0 ++ ueBits 0 ++ uBits 6 0 ++ ueBits 0 ++ [true] ++ timingBits body ++ ueBits 1 ++ ueBits 0 ++ hrdBits body ++ [false])

/-- The SPS: 4:2:0 at 10 bits, CTUs of 64, the conformance window, no AMP, no SAO, no TMVP (R357), VUI with HRD parameters (R360). -/
def spsNal (body : Bytes) : Bytes :=
  let padW := (codedW body - encW body) / 2
  let padH := (codedH body - encH body) / 2
  nalOf 33 (uBits 4 0 ++ uBits 3 0 ++ [true] ++ ptlBits body ++ ueBits 0 ++ ueBits 1 ++ ueBits (codedW body) ++ ueBits (codedH body) ++
    flagBit (padW + padH != 0) ++ (if padW + padH = 0 then [] else ueBits 0 ++ ueBits padW ++ ueBits 0 ++ ueBits padH) ++ ueBits 2 ++ ueBits 2 ++
    ueBits (min 12 (Config.encChoice body 2)) ++ [true] ++ ueBits 1 ++ ueBits 0 ++ ueBits 0 ++ ueBits 0 ++ ueBits 3 ++
    ueBits (Config.encChoice body 3) ++ ueBits (Config.encChoice body 4) ++ ueBits (Config.encChoice body 5) ++ ueBits (Config.encChoice body 6) ++
    [false, false, false, false] ++ ueBits 1 ++ ueBits 1 ++ ueBits 0 ++ ueBits 0 ++ [true] ++ [false, false] ++
    flagBit (Config.encChoice body 7 % 2 == 1) ++ [true, false, false, false, false, false, false, false, false] ++ [true] ++ timingBits body ++
    [true] ++ hrdBits body ++ [false, false])

/-- The PPS: no transform skip, deblocking on (R357). -/
def ppsNal (body : Bytes) : Bytes :=
  let c := fun (n : Nat) => flagBit (Config.encChoice body n % 2 == 1)
  nalOf 34 (ueBits 0 ++ ueBits 0 ++ [false, false] ++ uBits 3 0 ++ c 8 ++ c 9 ++ ueBits 0 ++ ueBits 0 ++
    seBits ((Config.encChoice body 10 % 52 : Nat) - 26) ++ [false, false] ++ [false] ++ seBits 0 ++ seBits 0 ++
    [false, false, false, false, false, false] ++ c 11 ++ [false, false, false] ++ ueBits 0 ++ [false, false])

/-- An SEI message of a type in a NAL unit of its own. -/
def seiNal (type : Nat) (bits : List Bool) : Bytes :=
  let p := bitBytes (if bits.length % 8 = 0 then bits else bits ++ [true])
  nalOf 39 (uBits 8 type ++ uBits 8 p.length ++ p.flatMap (fun b => uBits 8 b.toNat))

/-- Buffering period: `delay` and `offset` in 90 kHz ticks. -/
def bpSei (body : Bytes) (delay offset : Nat) : Bytes :=
  let sub := encSubpic body
  seiNal 0 (ueBits 0 ++ (if sub then [] else [false]) ++ [false] ++ uBits 32 0 ++ uBits 32 delay ++ uBits 32 offset ++
    (if sub then uBits 32 delay ++ uBits 32 offset else []))

/-- Picture timing: ticks since the first picture of the buffering period before; output at removal. -/
def ptSei (body : Bytes) (ticks : Nat) : Bytes := seiNal 1 (uBits 32 (ticks - 1) ++ uBits 32 0 ++ (if encSubpic body then uBits 32 0 else []))

/-- Decoding unit information: every unit is removed with its picture. -/
def duSei (index : Nat) : Bytes := seiNal 130 (ueBits index ++ uBits 32 0 ++ [false])

/-- Filler data of `n` bytes; one NAL unit has no fewer than 6 (log 126). -/
def fillerNal (n : Nat) : Bytes := if n = 0 then [] else [0, 0, 1, 0x4C, 1] ++ List.replicate (n - 6) 0xFF ++ [0x80]

end Sys2Proof.Machine
end

