-- ==== Sys2Proof/Machine/Mix.lean ====
section
/-! DEFINITION. The keyed mixer and its draws (R283 to R289), and the keyed permutation (R291). -/

namespace Sys2Proof.Machine

/-- One step of the automaton (R283): rule 30 on odd steps, rule 150 on even ones, the key again after 8 and 16. -/
def mixStep (key : BitVec 128) (x : BitVec 128) (step : Nat) : BitVec 128 :=
  let l := x.rotateRight 1
  let r := x.rotateLeft 1
  let y := if step % 2 = 1 then l ^^^ (x ||| r) else l ^^^ x ^^^ r
  if step = 8 ∨ step = 16 then y ^^^ key.rotateLeft step else y

/-- The mixer (R283). -/
def mix (key ctr : BitVec 128) : BitVec 64 := ((List.range 24).foldl (fun x j => mixStep key x (j + 1)) (ctr ^^^ key)).truncate 64

/-- The key of an epoch (R284). -/
def epochKey (seed : BitVec 128) (e : Nat) : BitVec 128 := seed ^^^ BitVec.ofNat 128 ((e / 256) * 2 ^ 104)

/-- One draw (R284, R285): sample index, element block, purpose. -/
def drawAt (seed : BitVec 128) (e sample eblock purpose : Nat) : Nat :=
  (mix (epochKey seed e) (BitVec.ofNat 128 (sample % 2 ^ 64 * 2 ^ 64 + eblock % 2 ^ 48 * 2 ^ 16 + purpose * 256 + e % 256))).toNat

/-- What a draw is keyed by: seed, epoch, logical sample index (R292). -/
structure DrawKey where
  seed : BitVec 128
  epoch : Nat
  sample : Nat
  deriving DecidableEq, Repr

/-- The rounding nibble of element i (R288, R289). -/
def DrawKey.nibble (k : DrawKey) (purpose i : Nat) : Nat := fld (drawAt k.seed k.epoch k.sample (i / 16) purpose) (4 * (i % 16)) 4

/-- The mask of element i with probability P/256 (R288). -/
def DrawKey.yes (k : DrawKey) (purpose p i : Nat) : Bool := fld (drawAt k.seed k.epoch k.sample (i / 8) purpose) (8 * (i % 8)) 8 < p

/-- The uniform integer of element i in [0, n) (R288). -/
def DrawKey.uniform (k : DrawKey) (purpose n i : Nat) : Nat :=
  fld (drawAt k.seed k.epoch k.sample (i / 4) purpose) (16 * (i % 4)) 16 * n / 65536

/-- The least b with 2^b ≥ n (R291). -/
def ceilLog2 (n : Nat) : Nat := if n ≤ 1 then 0 else (n - 1).log2 + 1

/-- The Feistel network (R291). -/
def feistel (seed : BitVec 128) (e h level window x : Nat) : Nat :=
  let p := (List.range 4).foldl (fun (p : Nat × Nat) j =>
    let ctr := (level * 2 ^ 34 + j * 2 ^ 32 + p.2) % 2 ^ 64
    let f := (mix (epochKey seed e) (BitVec.ofNat 128 (ctr * 2 ^ 64 + window % 2 ^ 48 * 2 ^ 16 + 256 + e % 256))).toNat % 2 ^ h
    (p.2, p.1 ^^^ f)) (x / 2 ^ h, x % 2 ^ h)
  p.1 * 2 ^ h + p.2

/-- Cycle-walking (R291, R293); `fuel` bounds the walk by the size of the domain. -/
def cycleWalk (f : Nat → Nat) (n : Nat) : Nat → Nat → Nat
  | 0, x => x
  | fuel + 1, x => let y := f x; if y < n then y else cycleWalk f n fuel y

/-- The keyed bijection on [0, N) (R291). -/
def keyedPerm (seed : BitVec 128) (e level window n x : Nat) : Nat :=
  if n ≤ 1 then 0 else
    let h := (ceilLog2 n + 1) / 2
    cycleWalk (feistel seed e h level window) n (2 ^ (2 * h)) x

end Sys2Proof.Machine
end

