-- ==== Sys2Proof/Machine/Encode.lean ====
section
/-! DEFINITION. The cache encoder (R357 to R365, R367): conversion of pictures, rate control, the motion window, the reference in memory,
the clip record (R343, R461). How a CTU is coded is open: the reference encoder model (Config.hevcCtu; log 8). -/

namespace Sys2Proof.Machine

/-- One value rounded and clamped (R358): with DITHER by purpose 10 at its element. -/
def encRound (body : Bytes) (k : DrawKey) (elem : Nat) (hi : Int) (v : Fp) : Nat :=
  let n := if encDither body then fpStochInt (k.nibble 10 elem) v else fpToInt v
  (max 64 (min hi n)).toNat

/-- Y, Cb and Cr of one pixel from its normalised values (R358). -/
def encYcc (body : Bytes) (r g b : Fp) : Fp × Fp × Fp :=
  if encGrey body then (r, 0, 0)
  else
    let y := fpAdd (fpAdd (fpMul 0x3E59B3D0 r) (fpMul 0x3F371759 g)) (fpMul 0x3D93DD98 b)
    (y, fpMul (fpSub b y) 0x3F09F5F1, fpMul (fpSub r y) 0x3F228F7E)

/-- The planes of one picture of HWC values (R358). -/
def encPlanes (body : Bytes) (k : DrawKey) (vmax : Nat) (vals : Array Nat) : List Nat × List Nat × List Nat :=
  let w := encW body
  let h := encH body
  let c := encChans body
  let vm := fpOfNat vmax
  let px : Array (Fp × Fp × Fp) := Array.ofFn (fun i : Fin (w * h) =>
    let v := fun (j : Nat) => fpDiv (fpOfNat (vals.getD (i.val * c + j) 0)) vm
    encYcc body (v 0) (v 1) (v 2))
  let at_ := fun (x y : Nat) => px.getD (min y (h - 1) * w + min x (w - 1)) (0, 0, 0)
  let ys := (List.range (w * h)).map (fun i => encRound body k i 940 (fpAdd 0x42800000 (fpMul 0x445B0000 (px.getD i (0, 0, 0)).1)))
  let half := fun (pick : Fp × Fp × Fp → Fp) (base : Nat) =>
    (List.range ((h + 1) / 2)).flatMap (fun y => (List.range ((w + 1) / 2)).map (fun x =>
      let c4 := fpMul (fpSum [pick (at_ (2 * x) (2 * y)), pick (at_ (2 * x + 1) (2 * y)), pick (at_ (2 * x) (2 * y + 1)),
        pick (at_ (2 * x + 1) (2 * y + 1))]) 0x3E800000
      encRound body k (base + y * (w / 2) + x) 960 (fpAdd 0x44000000 (fpMul 0x44600000 c4))))
  (ys, half (fun p => p.2.1) (w * h), half (fun p => p.2.2) (w * h + (w / 2) * (h / 2)))

/-- The clip header and table of random-access points (R343, R364, R461). -/
def clipHeader (body : Bytes) (frames : Nat) (slices : List (Nat × Bytes)) : Bytes :=
  let gop := encGop body
  let raps := ceilDiv frames gop
  let size := slices.foldl (fun n s => n + s.2.length) 0
  let esOff := ceilDiv (32 + 8 * raps) 16 * 16
  let rap := (List.range raps).flatMap (fun k =>
    natLe 4 (k * gop) ++ natLe 4 ((slices.takeWhile (fun s => decide (s.1 < k * gop))).foldl (fun n s => n + s.2.length) 0))
  let h := natLe 4 0x504C4356 ++ [2, 0] ++ natLe 2 raps ++ natLe 4 frames ++ zeros 8 ++ natLe 4 esOff ++ natLe 4 size ++ zeros 4 ++ rap
  h ++ zeros (esOff - h.length)

/-! ## Rate control (R359 to R363) -/

/-- CPB fullness is counted in parts of a bit, of which a bit has this many: arrival is exact in them. -/
def cpbUnit (body : Bytes) : Nat := 90000 * encFpsNum body

/-- What arrives within INIT_DELAY, what arrives in one picture interval, what the CPB holds. -/
def cpbStart (body : Bytes) : Nat := hrdRate body * leAt body 0x0C 4 * encFpsNum body
def cpbInterval (body : Bytes) : Nat := hrdRate body * encFpsDen body * 90000
def cpbTop (body : Bytes) : Nat := hrdCpb body * cpbUnit body

/-- cap_n from the fullness before a picture is removed (R361). -/
def capOf (body : Bytes) (full : Nat) : Nat := full / cpbUnit body

/-- Bytes of filler after a picture of `bits` bits (R363): in CBR the excess over CPB_SIZE once the next interval has arrived; one NAL
unit has at least 6 (log 126). -/
def fillerBytes (body : Bytes) (full bits : Nat) : Nat :=
  let next := full - bits * cpbUnit body + cpbInterval body
  let excess := ceilDiv (next - cpbTop body) (8 * cpbUnit body)
  if encCbr body && 0 < excess then max 6 excess else 0

/-- Fullness before the next picture is removed: what the picture leaves and one interval, at most CPB_SIZE. -/
def cpbNext (body : Bytes) (full bits : Nat) : Nat := min (cpbTop body) (full - bits * cpbUnit body + cpbInterval body)

/-- The reserve while a CTU is coded (R361): CTUs after it, slices not yet started. -/
def encReserve (ctusAfter slicesAfter : Nat) : Nat := 16 * ctusAfter + 512 * slicesAfter

/-- The slice budget (R362). -/
def sliceBudget (cap used reserve ctus left : Nat) : Nat := (cap - used - reserve) * ctus / max 1 left

/-- Slice QP after a slice (R362). A budget of 0 is exceeded without measure: the QP rises by 4 (log 127). -/
def nextQp (body : Bytes) (qp bits budget : Nat) : Nat :=
  let up := if budget = 0 then 4 else min 4 (1 + 4 * (bits - budget) / budget)
  let q := if budget < bits then qp + up else if 4 * bits < 3 * budget then qp - 1 else qp
  max (leAt body 0x17 1) (min (leAt body 0x18 1) q)

/-- The motion window of a CTU (R359) as values: 320 × 192 luma, then two planes of 160 × 96, from a stored picture of the coded size.
What lies outside the picture has the nearest sample of its edge. -/
def motionWindow (body : Bytes) (ref : Array Nat) (ctu : Nat) : List Nat :=
  let w := codedW body
  let h := codedH body
  let x0 : Int := 64 * (ctu % ctuCols body : Nat) - 128
  let y0 : Int := 64 * (ctu / ctuCols body : Nat) - 64
  let plane := fun (base pw ph ww wh : Nat) (px py : Int) => (List.range (ww * wh)).map (fun i =>
    let x := (max 0 (min ((pw : Int) - 1) (px + (i % ww : Nat)))).toNat
    let y := (max 0 (min ((ph : Int) - 1) (py + (i / ww : Nat)))).toNat
    ref.getD (base + y * pw + x) 0)
  plane 0 w h 320 192 x0 y0 ++ plane (w * h) (w / 2) (h / 2) 160 96 (x0 / 2) (y0 / 2) ++
    plane (w * h + w * h / 4) (w / 2) (h / 2) 160 96 (x0 / 2) (y0 / 2)

/-- A picture that is being coded: bits written, whether CTUs are forced to skip or DC coding, the encoder model's state, its slices. -/
structure PicRun where
  used : Nat
  forced : Bool
  st : List Nat
  qp : Nat
  slices : List Bytes
  deriving DecidableEq, Repr

/-- What a picture's CTUs share: the profile, IDR, the source's values, the reference's, cap_n. -/
structure PicJob where
  body : Bytes
  idr : Bool
  src : List Nat
  ref : Array Nat
  cap : Nat
  deriving DecidableEq, Repr

/-- Bits that fill the last byte of a slice behind its last CTU. -/
def fillByte (last : Bool) (n : Nat) : List Bool := if last then List.replicate ((8 - n % 8) % 8) false else []

/-- One CTU (R361): coded into scratch; where it would not leave the reserve, it and every later CTU of the picture are skip or DC, in at
most 16 bits. Gives the bits of the slice so far, and the run. -/
def PicJob.ctu (j : PicJob) (ctu slicesAfter : Nat) (first last : Bool) (bits : List Bool) (x : PicRun) : List Bool × PicRun :=
  let e : EncCtu := ⟨j.body, j.idr, x.qp, ctu, first, last, j.src, if j.idr then [] else motionWindow j.body j.ref ctu, x.st⟩
  let done := fun (forced : Bool) (c : List Bool) (st : List Nat) =>
    let c := c ++ fillByte last (x.used + c.length)
    (bits ++ c, { x with used := x.used + c.length, forced := forced, st := st })
  let full := Config.hevcCtu e
  let n := full.1.length + (fillByte last (x.used + full.1.length)).length
  let least := Config.hevcSkip e
  if x.forced || decide (j.cap < x.used + n + encReserve (ctuCount j.body - 1 - ctu) slicesAfter) then done true (least.1.take 9) least.2
  else done false full.1 full.2

/-- The CTUs of a slice: `n` from CTU `ctu` on. -/
def PicJob.ctus (j : PicJob) (slicesAfter : Nat) : Nat → Nat → Bool → List Bool → PicRun → List Bool × PicRun
  | 0, _, _, bits, x => (bits, x)
  | n + 1, ctu, first, bits, x =>
    let (bits, x) := j.ctu ctu slicesAfter first (n == 0) bits x
    j.ctus slicesAfter n (ctu + 1) false bits x

/-- NAL unit type of a picture's slices (R357): an IDR picture, whose kind the encoder model chooses, or a picture that is a reference. -/
def sliceNal (body : Bytes) (idr : Bool) : Nat := if idr then 19 + Config.encChoice body 12 % 2 else 1

/-- A slice's NAL and segment header up to slice_type, which is I in an IDR picture and P elsewhere (R357). -/
def sliceStart (body : Bytes) (idr : Bool) (ctu : Nat) : List Bool :=
  uBits 8 (2 * sliceNal body idr) ++ uBits 8 1 ++ [ctu == 0] ++ (if idr then flagBit (Config.encChoice body 13 % 2 == 1) else []) ++ ueBits 0 ++
  (if ctu = 0 then [] else uBits (Nat.log2 (ctuCount body - 1) + 1) ctu) ++ ueBits (if idr then 2 else 1)

/-- One slice (R361, R362): with its start code and, with SUBPIC, its decoding unit information SEI the header takes at most 512 bits. -/
def PicJob.slice (j : PicJob) (index slicesAfter ctu n : Nat) (x : PicRun) : PicRun :=
  let budget := sliceBudget j.cap x.used (encReserve (ctuCount j.body - 1 - ctu) slicesAfter) n (ctuCount j.body - ctu)
  let pre := (if encSubpic j.body then duSei index else []) ++ [0, 0, 0, 1]
  let head := (sliceStart j.body j.idr ctu ++ Config.hevcHeader j.body j.idr x.qp ctu).take (512 - 8 * pre.length)
  let (bits, y) := j.ctus slicesAfter n ctu true head { x with used := x.used + 8 * pre.length + head.length }
  { y with qp := nextQp j.body x.qp (y.used - x.used) budget, slices := y.slices ++ [pre ++ bitBytes bits] }

/-- The slices of a picture from CTU `ctu` on. -/
def PicJob.slicesFrom (j : PicJob) : Nat → Nat → Nat → PicRun → PicRun
  | 0, _, _, x => x
  | k + 1, index, ctu, x =>
    let n := min (encSliceCtus j.body) (ctuCount j.body - ctu)
    j.slicesFrom k (index + 1) (ctu + n) (j.slice index k ctu n x)

/-- At the start of a clip. -/
def EncRun.start (body : Bytes) : EncRun := ⟨max (leAt body 0x17 1) (min (leAt body 0x18 1) (leAt body 0x16 1)), cpbStart body, 0⟩

/-- What stands before the first slice of picture n (R360): on an IDR picture the parameter sets and a buffering period, on every one the
picture timing. -/
def pictureHead (body : Bytes) (n : Nat) (x : EncRun) : Bytes :=
  let delay := x.full * 90000 / (cpbUnit body * hrdRate body)
  let room := hrdCpb body * 90000 / hrdRate body - delay
  (if n % encGop body = 0 then vpsNal body ++ spsNal body ++ ppsNal body ++ bpSei body delay room else []) ++ ptSei body (n - x.period)

/-- Codes picture n: its slices as units (R364), its reconstruction's values, what goes on. Parameter sets and SEI go with the first
slice, filler with the last. -/
def codePicture (body : Bytes) (n : Nat) (src : List Nat) (ref : Array Nat) (x : EncRun) : List Bytes × List Nat × EncRun :=
  let idr := n % encGop body == 0
  let head := pictureHead body n x
  let k := ceilDiv (ctuCount body) (encSliceCtus body)
  let j : PicJob := ⟨body, idr, src, ref, capOf body x.full⟩
  let r := j.slicesFrom k 0 0 ⟨8 * head.length, false, [], x.qp, []⟩
  let fill := fillerNal (fillerBytes body x.full r.used)
  let units := match r.slices with
    | [] => [head ++ fill]
    | a :: t => ((head ++ a) :: t).dropLast ++ [((head ++ a) :: t).getLast?.getD [] ++ fill]
  (units, Config.hevcRecon body r.st, ⟨r.qp, cpbNext body x.full (r.used + 8 * fill.length), if idr then n else x.period⟩)

/-! ## The reference in memory (R365, R367) -/

/-- Why a video engine stops: a rejection, a response that halts the stream (address, write), or what it waits for or lacks. -/
inductive VidStop where
  | reject (code detail : Nat)
  | resp (r : Resp) (addr : Nat) (write : Bool)
  /-- It waits for buffers of a pool (R275). -/
  | wait
  /-- What it has to write does not fit in its shard (R463). -/
  | past
  deriving DecidableEq, Repr

/-- A read of a video engine's reference: POISON rejects the sample. -/
def State.dpbRead (w : Party) (a n : Nat) (s : State) : Except VidStop Bytes × State := match s.readSpan w (spanFuel n) a n with
  | (.ok bs, s) => (.ok bs, s)
  | (.error (.poison, _), s) => (.error (.reject stPoison 0), s)
  | (.error (r, b), s) => (.error (.resp r b false), s)

/-- Bytes of a reconstructed picture at 2 B per value. -/
def reconBytes (body : Bytes) : Nat := 3 * codedW body * codedH body

/-- Bytes from an offset on of what buffers of a size hold one after the other; `fuel` bounds the pieces. -/
def State.buffersRead (w : Party) (size : Nat) (bufs : List Nat) : Nat → Nat → Nat → State → Except VidStop Bytes × State
  | 0, _, _, s => (.ok [], s)
  | fuel + 1, off, n, s =>
    if n = 0 ∨ size = 0 then (.ok [], s)
    else
      let k := min n (size - off % size)
      match bufs[off / size]? with
      | none => (.ok [], s)
      | some h => match s.dpbRead w (h + off % size) k with
        | (.error e, s) => (.error e, s)
        | (.ok bs, s) => match s.buffersRead w size bufs fuel (off + k) (n - k) with
          | (.ok more, s) => (.ok (bs ++ more), s)
          | (.error e, s) => (.error e, s)

/-- Bytes from an offset on into buffers of a size, used one after the other; `fuel` bounds the pieces. -/
def State.buffersWrite (w : Party) (size : Nat) (bufs : List Nat) : Nat → Nat → Bytes → State → Option VidStop × State
  | 0, _, _, s => (none, s)
  | fuel + 1, off, bs, s =>
    if bs.isEmpty ∨ size = 0 then (none, s)
    else
      let k := size - off % size
      match bufs[off / size]? with
      | none => (none, s)
      | some h => match s.writeSpan w (spanFuel k) (h + off % size) (bs.take k) with
        | (some (r, a), s) => (some (.resp r a true), s)
        | (none, s) => s.buffersWrite w size bufs fuel (off + k) (bs.drop k)

/-- What one step of the motion window loads (R359): the CTU column of a CTU, in those rows of its window that the picture has, as spans
(offset, bytes) of the stored picture. PRESUMED (log 8): a stored picture is its Y, Cb and Cr planes in raster order. -/
def windowSpans (body : Bytes) (ctu : Nat) : List (Nat × Nat) :=
  let w := codedW body
  let h := codedH body
  let c := ctu % ctuCols body
  let r := ctu / ctuCols body
  let rows := fun (base pw ph cw lo hi : Nat) => ((List.range ph).filter (fun y => decide (lo ≤ y) && decide (y < hi))).map (fun y =>
    (2 * (base + y * pw + cw * c), 2 * min cw (pw - cw * c)))
  rows 0 w h 64 (64 * r - 64) (64 * r + 128) ++ rows (w * h) (w / 2) (h / 2) 32 (32 * r - 32) (32 * r + 64) ++
    rows (w * h + w * h / 4) (w / 2) (h / 2) 32 (32 * r - 32) (32 * r + 64)

/-- The source of a picture: its planes, the last column and row repeated up to the coded size (R357). -/
def encSource (body : Bytes) (p : List Nat × List Nat × List Nat) : List Nat :=
  let fit := fun (w h cw ch : Nat) (a : Array Nat) => (List.range (cw * ch)).map (fun i => a.getD (min (i / cw) (h - 1) * w + min (i % cw) (w - 1)) 0)
  let w := encW body
  let h := encH body
  let half := fit ((w + 1) / 2) ((h + 1) / 2) (codedW body / 2) (codedH body / 2)
  fit w h (codedW body) (codedH body) p.1.toArray ++ half p.2.1.toArray ++ half p.2.2.toArray

/-- A clip being coded: the party of its accesses, its bay, the encoder's slot and profile, its draws, its buffers and their size. -/
structure EncJob where
  by_ : Party
  bay : Nat
  slot : Nat
  body : Bytes
  key : DrawKey
  bufs : List Nat
  size : Nat
  deriving DecidableEq, Repr

/-- The half of its buffers that holds the reconstruction of a picture: the halves take turns. -/
def EncJob.picture (e : EncJob) (n : Nat) : List Nat :=
  let half := e.bufs.length / 2
  if n % 2 = 0 then e.bufs.drop half else e.bufs.take half

/-- A column of the window is laid into the first of the five places that it has in the encoder's banks (R359; log 32). -/
def State.bankWindow (e : EncJob) (ctu : Nat) (bs : Bytes) (s : State) : State :=
  let banks := (s.slotBanks e.bay e.slot).filter (fun b => s.reaches b 1 e.slot)
  let n := ceilDiv bs.length 64
  s.writeRuns (bankRuns banks (n / 4096 + 2) (ctu % 5 * 576) n) ((chunks 64 bs.length bs).map wordOf)

/-- Spans of the reference into the values of a picture. -/
def State.loadSpans (e : EncJob) (bufs : List Nat) : List (Nat × Nat) → Bytes → Array Nat → State → Except VidStop (Bytes × Array Nat) × State
  | [], got, ref, s => (.ok (got, ref), s)
  | (off, n) :: t, got, ref, s => match s.buffersRead e.by_ e.size bufs (n + 1) off n with
    | (.error x, s) => (.error x, s)
    | (.ok bs, s) => s.loadSpans e bufs t (got ++ bs)
        (((chunks 2 bs.length bs).zipIdx).foldl (fun a p => a.setIfInBounds (off / 2 + p.2) (leNat p.1)) ref)

/-- The motion window slides over the reference, a CTU column at a time (R359). -/
def State.loadWindows (e : EncJob) (bufs : List Nat) : List Nat → Array Nat → State → Except VidStop (Array Nat) × State
  | [], ref, s => (.ok ref, s)
  | c :: t, ref, s => match s.loadSpans e bufs (windowSpans e.body c) [] ref with
    | (.error x, s) => (.error x, s)
    | (.ok (got, ref), s) => (s.bankWindow e c got).loadWindows e bufs t ref

/-- The slices of a picture that have not left go on their way: a slice's number in the clip, the bytes of the slices before it, the slice. -/
def State.sinkSlices (sink : Nat → Nat → Bytes → State → Option VidStop × State) : List Bytes → EncHold → State → Option VidStop × EncHold × State
  | [], h, s => (none, h, s)
  | u :: t, h, s =>
    let before := h.slices.foldl (fun n x => n + x.2.length) 0
    match sink h.slices.length before u s with
    | (some e, s) => (some e, h, s)
    | (none, s) => s.sinkSlices sink t { h with slices := h.slices ++ [(h.next, u)] } 

/-- Pictures are coded in order, `left` more of them; the reconstruction of each goes to memory and is the reference of the next (R357). A stop
leaves the encoder as it was at the start of its picture, with the slices that have left (R365). -/
def State.codePictures (e : EncJob) (src : Nat → State → Except VidStop (Nat × Array Nat) × State)
    (sink : Nat → Nat → Bytes → State → Option VidStop × State) : Nat → EncHold → State → Option VidStop × EncHold × State
  | 0, h, s => (none, h, s)
  | left + 1, h, s =>
    match src h.next s with
    | (.error x, s) => (some x, h, s)
    | (.ok p, s) =>
      let size := 3 * codedW e.body * codedH e.body / 2
      match (if h.next % encGop e.body = 0 then (.ok #[], s)
        else s.loadWindows e (e.picture (h.next - 1)) (List.range (ctuCount e.body)) (Array.replicate size 0)) with
      | (.error x, s) => (some x, h, s)
      | (.ok ref, s) =>
        let (units, recon, run) := codePicture e.body h.next (encSource e.body (encPlanes e.body e.key p.1 p.2)) ref h.run
        match s.buffersWrite e.by_ e.size (e.picture h.next) e.bufs.length 0 ((recon.flatMap (natLe 2) ++ zeros (reconBytes e.body)).take (reconBytes e.body)) with
        | (some x, s) => (some x, h, s)
        | (none, s) =>
          let sent := (h.slices.filter (fun x => x.1 == h.next)).length
          match s.sinkSlices sink (units.drop sent) h with
          | (some x, h, s) => (some x, h, s)
          | (none, h, s) => s.codePictures e src sink left { h with next := h.next + 1, run := run }

/-- Slices of a picture. -/
def pictureSlices (body : Bytes) : Nat := max 1 (ceilDiv (ctuCount body) (encSliceCtus body))

/-- Buffers of ENC_POOL that an encoder holds: two reconstructed pictures. -/
def State.encBuffers (s : State) (f : Nat) (body : Bytes) : Nat := match s.poolNo f (encPool body) with
  | some p => 2 * max 1 (ceilDiv (reconBytes body) (2 ^ (s.pool p).log2Size))
  | none => 2

/-- The encoder of a bay at work for a stream, which holds its buffers for `g`. -/
def State.encJob (w : Party) (f i g bay : Nat) (body : Bytes) (k : DrawKey) (s : State) : EncJob :=
  let (bufs, size) := match s.poolNo f (encPool body) with
    | some p => ((s.pool p).heldFor (sKey f i) g, 2 ^ (s.pool p).log2Size)
    | none => ([], 0)
  ⟨w, bay, 1, body, k, bufs, size⟩

/-- An encoder at the start of a clip. -/
def EncHold.start (body : Bytes) : EncHold := ⟨0, .start body, []⟩

/-- Values of a picture stored as U8 or U16. -/
def wordVals (bytesPer : Nat) (bs : Bytes) : Array Nat := ((chunks bytesPer bs.length bs).map leNat).toArray

end Sys2Proof.Machine
end

