-- ==== Sys2Proof/Machine/Errors.lean ====
section
/-! DEFINITION. Errors of the control and management bays (R517, R518, R526, R568), log rings (R521 to R523), the
notify port (R141 to R145), page-request groups (R143, R144, R248) and the relay port (R146, R147). -/

namespace Sys2Proof.Machine

/-! ## Uncorrectable codewords and the watchdog -/

/-- A pool of a halted function: disabled, its cache discarded (R517, R181). -/
def Pool.discard (p : Pool) : Pool :=
  { p with enabled := false, cache := [], waits := [], holders := [], stalled := false, ringCount := 0 }

/-- Every pool of a function, changed (R517, R181). -/
def State.dropPools (f : Nat) (s : State) : State :=
  { s with pools := tblMap (fun _ p => if p.assigned && p.fn == f then p.discard else p) s.pools }

/-- The queues of a halted function stop where they are; HEAD is not published again (R517). -/
def State.stopQueues (f : Nat) (s : State) : State :=
  let s : State := { s with queues := tblMap (fun k x => if k / 512 = f then { x with
    enabled := false, enabling := false, disabling := false, arrived := [], chain := none, broken := none, tailOut := false,
    tailAgain := false, tailValue := none, indexBlock := none, jobs := [] } else x) s.queues }
  s.dropReqs (fun r => match r.owner.queue? with
    | some (g, _) => g == f
    | none => false)

/-- A function's partition is lost (R517, R525): FUNCTION class, logged in both logs. -/
def State.haltFunction (f : Nat) (s : State) : State :=
  let s := s.logBoth f stEcc 2 3 0 0xFE 0
  if (s.func f).st = .halted ∨ (s.func f).st = .resetting then s
  else
    let s := s.stopQueues f
    let s := (s.dropPools f).abortWhere (fun g _ _ => g == f)
    s.modFunc f (fun x => { x with st := .halted, haltCode := stEcc })

/-- CONTROL_STATE_ECC (R517, R518, R528, R568). -/
def execControlStateEcc (store : CtrlStore) (s : State) : Out :=
  if s.frame.st == .reset then .next s else
  match store with
  | .partition fn => .next (if s.frame.st == .fatal || s.caps.funcs ≤ fn.toNat then s else s.haltFunction fn.toNat)
  | .queueManager => .next (s.frameFatal 2 0)
  | .pacer => .next (s.frameFatal 2 0)
  | .scheduler => .next (if s.frame.st == .running then s.walkCause 2 else if s.frame.st == .fatal then s else s.frameFatal 5 0)
  | .poolManager => .next (if s.frame.st == .running then s.walkCause 2 else if s.frame.st == .fatal then s else s.frameFatal 5 0)
  | .lockTables => .next (if s.frame.st == .running then s.walkCause 2 else if s.frame.st == .fatal then s else s.frameFatal 5 0)

/-- STEWARD_WATCHDOG_EXPIRY (R518). -/
def execStewardWatchdogExpiry (s : State) : Out := .next (if s.frame.st == .reset then s else s.frameFatal 4 0)

/-- MANAGEMENT_STORAGE_ECC (R511, R518): key-slot storage enters CRYPTO_ERROR, other storage is frame-fatal. During start-up the
entry ends in BOOT_FAIL; R174 names no BOOT_CAUSE for it, which is a free value (log 74). -/
def execManagementStorageEcc (store : MgmtStore) (s : State) : Out :=
  if s.frame.st == .reset then .next s else
  match store with
  | .keySlots =>
    let r := s.cryptoError 4
    if s.frame.st == .boot || s.frame.st == .selfTest then
      let (c, r) := r.draw 3
      .next { r with frame := { r.frame with st := .bootFail, bootCause := c } }
    else .next r
  | .other => .next (s.frameFatal 3 0)

/-- BAY_CONTROL_STATE_ECC (R526). -/
def execBayControlStateEcc (k : BitVec 6) (s : State) : Out := .next (if s.frame.st == .reset then s else s.fence k.toNat 4)

/-! ## Log rings -/

/-- Which log a command names. -/
def logFn : LogId → Option Nat
  | .frame => none
  | .func f => some f.toNat

/-- Entries that wait for their write are counted lost: their ring stops (R523; log 43). -/
def State.loseWaiting (log : Option Nat) (s : State) : State :=
  let r := s.logRing log
  let s := s.forEach r.waiting State.releaseUnit
  s.setLogRing log { r with waiting := [], lost := satAdd 0xFFFFFFFF r.lost r.waiting.length }

/-- LOG_ENTRY_WRITE (R521 to R523): the oldest waiting entry with its partner, as one granule. In FATAL only management
requests leave a port (R532), so a function log waits. -/
def execLogEntryWrite (log : LogId) (v : MemView) (s : State) : Out :=
  let s := s.seeMem v
  s.turn fun s =>
  let l := logFn log
  let r := s.logRing l
  match r.waiting with
  | [] => .next s
  | e :: rest =>
    if r.base = 0 ∨ r.fault ∨ (s.frame.st = .fatal ∧ l.isSome) then .next s else
      let m := e.seq % 256
      let mate := tblGetD r.written (m ^^^ 1) (zeros 32)
      let gran := if m % 2 = 0 then e.bytes ++ mate else mate ++ e.bytes
      match s.sysWrite (match l with | some f => .control f | none => .steward 0) (r.base + 64 * (m / 2)) gran with
      | (.okay, s) => .next ((s.setLogRing l { r with waiting := rest, written := tblSet r.written m e.bytes }).releaseUnit e)
      | (_, s) => .next ((s.setLogRing l { r with fault := true }).loseWaiting l)

/-- The effect of a write to ERR_LOG_BASE_HI (R522): a new ring at the address. -/
def State.logBaseWrite (log : Option Nat) (base : Nat) (s : State) : State :=
  let s := s.setLogRing log { s.logRing log with base := base / 64 * 64, fault := false, written := [] }
  if base / 64 = 0 then s.loseWaiting log else s

/-! ## The notify port -/

/-- notify_data of a MSG (R142). -/
def msgData (vector : Nat) (payload : Word) : BitVec 128 := BitVec.ofNat 128 (vector % 64 + payload.toNat * 2 ^ 32)

/-- NOTIFY_SEND (R145): PAGE_REQ first, then frame events, then other MSG. Senders that waited for a place go on. -/
def execNotifySend (s : State) : Out :=
  let n := s.notify
  match n.pages, n.events, n.msgs with
  | p :: t, _, _ => .next { s with notify := { n with pages := t, sent := some ⟨1, p.fn, p.data⟩ } }
  | [], e :: t, _ => .next { s with notify := { n with events := t, sent := some ⟨0, s.frame.eventFn, msgData s.frame.eventVector e.payload⟩ } }
  | [], [], m :: t => .next { s with notify := { n with msgs := t, sent := some ⟨0, m.fn, msgData m.vector m.payload⟩ } }.relays.catchUp.finishDrains
  | [], [], [] => .next s

/-! ## Page requests -/

/-- notify_data of a PAGE_REQ (R143). -/
def pageData (r : FaultRec) (last : Bool) (group : Nat) : BitVec 128 :=
  BitVec.ofNat 128 (b2n r.write + 2 * b2n last + group * 4 + r.page * 2 ^ 12 + r.token.toNat * 2 ^ 64)

/-- A request of a stream is outstanding on some port. -/
def State.streamOut (s : State) (f i : Nat) : Bool :=
  s.ports.any (fun p => (p.2.reads ++ p.2.writes).any (fun o => !o.drop && o.req.owner.stream? == some (f, i)))

/-- The lowest page-group index of a function that is free. -/
def State.freePageGroup (s : State) (f : Nat) : Option Nat := (List.range 512).find? (fun g => !(s.func f).pageGroups.contains g)

/-- PAGE_REQUEST_GROUP_SEND (R144, R248): once the stream's responses have returned, its function has a free group index
and the queue of 64 has room (R145). The lowest free index is taken (log 44). -/
def execPageRequestGroupSend (fn : BitVec 6) (stream : BitVec 10) (s : State) : Out :=
  let f := fn.toNat
  let i := stream.toNat
  let x := s.stream f i
  let ps := x.pagesToSend
  if x.st ≠ .halted ∨ ps.isEmpty ∨ x.pageGroupHeld ∨ s.streamOut f i ∨ 64 < s.notify.pages.length + ps.length ∨ s.frame.st = .fatal then .next s else
    match s.freePageGroup f with
    | none => .next s
    | some g =>
      let msgs := (ps.zipIdx).map (fun p => PageReq.mk f (pageData p.1 (p.2 + 1 == ps.length) g))
      let s := s.modFunc f (fun y => { y with pageGroups := if y.pageGroups.contains g then y.pageGroups else y.pageGroups ++ [g] })
      let s := s.setStream f i { x with pageGroup := g, pageGroupHeld := true, pagesToSend := [] }
      let s : State := { s with notify := { s.notify with pages := s.notify.pages ++ msgs } }
      .next (if x.haltCode = stTranslation then (s.faultRecord f i).relays else s)

/-! ## The relay port -/

/-- RELAY_PORT_SEND (R147). -/
def execRelayPortSend (s : State) : Out :=
  match s.relay.fifo with
  | [] => .next s
  | c :: t => .next { s with relay := { s.relay with fifo := t, sent := some c } }

end Sys2Proof.Machine
end

