-- ==== Sys2Proof/Machine/Pack.lean ====
section
/-! DEFINITION. The pack bay: places and slot images (R427 to R432), sequence packing (R433 to R435), and the start
of a batch's delivery (R246, R247, R425, R439). -/

namespace Sys2Proof.Machine

/-- A region offset of 0xFFFF_FFFF is absent (R427). -/
def regionAt (body : Bytes) (off : Nat) : Option Nat := let v := leAt body off 4; if v = 0xFFFFFFFF then none else some v

def packCompact (body : Bytes) : Bool := bitOf (leAt body 0x01 1) 0
def packTokBytes (body : Bytes) : Nat := if bitOf (leAt body 0x01 1) 1 then 2 else 4
def packSampleBytes (body : Bytes) : Nat := leAt body 0x04 4
def packStride (body : Bytes) : Nat := leAt body 0x08 4
def packSide (body : Bytes) : Nat := leAt body 0x0C 4
def packRowLen (body : Bytes) : Nat := leAt body 0x10 4
def packSlotBytes (body : Bytes) : Nat := leAt body 0x30 4
def packUnits (body : Bytes) : Nat := leAt body 0xC4 4
def packUnitBytes (body : Bytes) : Nat := packSampleBytes body / packUnits body

/-! ## Layout (R413, R428) -/

/-- The LAYOUT descriptor of a pack body. -/
def layoutOf (body : Bytes) : Bytes := bytesAt body 0x40 128

/-- Dimensions, element bytes, sizes and strides of a descriptor (R413). -/
def descDims (d : Bytes) : Nat := leAt d 0x08 1
def descElem (d : Bytes) : Nat := 2 ^ leAt d 0x09 1
def descSize (d : Bytes) (k : Nat) : Nat := leAt d (0x10 + 4 * k) 4
def descStride (d : Bytes) (k : Nat) : Int := signed 64 (leAt d (0x28 + 8 * k) 8)

/-- Byte offset of value n from BASE: n in mixed radix over the sizes, dimension 0 fastest (R428). -/
def layoutOffset (d : Bytes) (n : Nat) : Int :=
  ((List.range 6).foldl (fun (p : Nat × Int) k =>
    if k < descDims d then (p.1 / max 1 (descSize d k), p.2 + (p.1 % max 1 (descSize d k) : Nat) * descStride d k) else p) (n, 0)).2

/-- Values that the shape of a layout holds. -/
def layoutValues (d : Bytes) : Nat := (List.range (descDims d)).foldl (fun n k => n * descSize d k) 1

/-- Bytes laid at byte `at_` of a sample, as (offset in the place, bytes) (R428). They may begin within a value (R432). -/
def layBytes (body data : Bytes) (at_ : Nat) : List (Int × Bytes) :=
  let d := layoutOf body
  if descDims d = 0 then [(at_, data)]
  else
    let e := descElem d
    let h := min data.length ((e - at_ % e) % e)
    let rest := data.drop h
    ((if h = 0 then [] else [(at_, data.take h)]) ++ ((chunks e rest.length rest).zipIdx).map (fun p => (at_ + h + e * p.2, p.1))).map
      (fun p => ((leAt d 0 8 : Nat) + layoutOffset d (p.1 / e) + (p.1 % e : Nat), p.2))

/-- The layout's shape holds the first `n` bytes of a sample (R428). -/
def shapeHolds (body : Bytes) (n : Nat) : Bool :=
  let d := layoutOf body
  descDims d == 0 || decide (ceilDiv n (descElem d) ≤ layoutValues d)

/-- A sample fits its place (R428, R432). -/
def sampleFits (body : Bytes) (y : InFlight) : Bool :=
  if 0 < packUnits body then y.units.all (fun u => decide (u.1 < packUnits body) && decide (u.2.length ≤ packUnitBytes body) &&
    shapeHolds body (u.1 * packUnitBytes body + u.2.length))
  else decide (y.data.length ≤ packSampleBytes body) && shapeHolds body y.data.length

/-! ## Slot images (R428 to R434) -/

/-- The pad byte of a slot offset (R429). PAD repeats from the granule on (log 50); bytes of no region are 0. -/
def padByte (body : Bytes) (batch off : Nat) : Byte :=
  let within := fun (start : Option Nat) (len : Nat) => match start with
    | some a => decide (a ≤ off) && decide (off < a + len)
    | none => false
  if packSeq body then
    let s := packTokBytes body
    match regionAt body 0x18 with
    | some a => if within (some a) (batch * packRowLen body * s) then (natLe s (leAt body 0x34 4)).getD ((off - a) % s) 0 else 0
    | none => 0
  else if within (regionAt body 0x18) ((batch - 1) * packStride body + packSampleBytes body) then (natLe 4 (leAt body 0x34 4)).getD (off % 4) 0
  else if within (regionAt body 0x28) (8 * batch) then 0xFF
  else 0

/-- Bits of ordinals as bytes (R432). -/
def bitmapBytes (n : Nat) (ords : List Nat) : Bytes := natLe n ((ords.eraseDups).foldl (fun m u => m + 2 ^ u) 0)

/-- What a place lays into its slot in FIXED mode: (offset, bytes) (R428, R430 to R432). -/
def fixedWrites (body : Bytes) (y : Placed) : List (Int × Bytes) :=
  let i := y.place
  let put := fun (r : Option Nat) (off : Nat) (bs : Bytes) => match r with
    | some a => [((a + off : Nat) , bs)].map (fun p => ((p.1 : Int), p.2))
    | none => []
  let shift := fun (l : List (Int × Bytes)) => match regionAt body 0x18 with
    | some a => l.map (fun p => (p.1 + ((a + i * packStride body : Nat) : Int), p.2))
    | none => []
  let data := if !y.valid then [] else if 0 < packUnits body then y.units.flatMap (fun u => layBytes body u.2 (u.1 * packUnitBytes body))
    else layBytes body (y.data.take (packSampleBytes body)) 0
  shift data ++ put (regionAt body 0x28) (8 * i) (natLe 8 y.index) ++ put (regionAt body 0x24) i [if y.valid then 1 else 0] ++
  (if y.valid then put (regionAt body 0x2C) (i * packSide body) (y.side.take (packSide body)) else []) ++
  (if 0 < packUnits body ∧ y.valid then put (regionAt body 0xC0) (i * 8 * ceilDiv (packUnits body) 64)
    (bitmapBytes (8 * ceilDiv (packUnits body) 64) (y.units.map (·.1))) else [])

/-- Lays bytes at a signed offset; what lies outside the slot is dropped. -/
def layAt (img : Bytes) (off : Int) (bs : Bytes) : Bytes :=
  if off < 0 then overlay img 0 (bs.drop (-off).toNat) else overlay img off.toNat bs

/-- The image of a slot (R429): pad first, then every place laid over it. A row's bytes are its whole row (R434). -/
def slotImage (body : Bytes) (batch : Nat) (ps : List Placed) : Bytes :=
  let pad := (List.range (packSlotBytes body)).map (padByte body batch)
  (ps.flatMap (fun y =>
    if packSeq body then
      let l := packRowLen body
      let s := packTokBytes body
      let row := y.place * l
      let put := fun (r : Option Nat) (off : Nat) (bs : Bytes) => match r with
        | some a => [(((a + off : Nat) : Int), bs)]
        | none => []
      put (regionAt body 0x18) (row * s) y.data ++ put (regionAt body 0x1C) (4 * row) y.side ++
      y.units.flatMap (fun u => put (regionAt body 0x20) (4 * row) u.2) ++ put (regionAt body 0x24) y.place [if y.valid then 1 else 0]
    else fixedWrites body y)).foldl (fun img w => layAt img w.1 w.2) pad

/-! ## Rows (R433 to R435) -/

def Row.fresh : Row := ⟨[], [], [], 0, 0, []⟩

/-- Places a document or chunk in a row: the next segment identifier, positions from 0 (R434). -/
def Row.add (r : Row) (index : Nat) (tokens : List Nat) : Row :=
  { r with tokens := r.tokens ++ tokens, segs := r.segs ++ tokens.map (fun _ => r.segments + 1), poss := r.poss ++ List.range tokens.length,
           segments := r.segments + 1, indices := r.indices ++ [index] }

/-- Open rows oldest first, and rows in closing order. -/
structure Rows where
  openRows : List Row
  closed : List Row
  deriving DecidableEq, Repr

/-- Puts tokens into the first open row with room. -/
def putFirstFit (l index : Nat) (tokens : List Nat) : List Row → Option (List Row)
  | [] => none
  | r :: t => if r.tokens.length + tokens.length ≤ l then some (r.add index tokens :: t)
    else (putFirstFit l index tokens t).map (fun t => r :: t)

/-- Rows that are full close, oldest first (R433). -/
def Rows.closeFull (x : Rows) (l docs : Nat) : Rows :=
  let shut := fun (r : Row) => decide (l ≤ r.tokens.length) || decide (docs ≤ r.charged)
  ⟨x.openRows.filter (fun r => !shut r), x.closed ++ x.openRows.filter shut⟩

/-- First fit of one chunk (R433): if none fits a new row opens, the oldest closing first when OPEN_ROWS are open. -/
def Rows.place (x : Rows) (l openMax index : Nat) (tokens : List Nat) : Rows :=
  match putFirstFit l index tokens x.openRows with
  | some rs => ⟨rs, x.closed⟩
  | none =>
    let x := if openMax ≤ x.openRows.length then (match x.openRows with
      | r :: t => ⟨t, x.closed ++ [r]⟩
      | [] => x) else x
    ⟨x.openRows ++ [Row.fresh.add index tokens], x.closed⟩

/-- Charges a document to the oldest open row; with none open, a row opens for it (R433; log 51). -/
def Rows.charge (x : Rows) : Rows := match x.openRows with
  | r :: t => ⟨{ r with charged := r.charged + 1 } :: t, x.closed⟩
  | [] => ⟨[{ Row.fresh with charged := 1 }], x.closed⟩

/-- The chunks of a document by LONG (R435): 0 SPLIT, 1 TRUNCATE, 2 REJECT. -/
def docChunks (l long : Nat) (tokens : List Nat) : List (List Nat) :=
  if tokens.length ≤ l then (if tokens.isEmpty then [] else [tokens])
  else if long = 0 then chunks l tokens.length tokens
  else if long = 1 then [tokens.take l]
  else []

/-- A document is taken (R433 to R435). Rows close once it is placed (log 51). -/
def Rows.take (x : Rows) (body : Bytes) (index : Nat) (tokens : List Nat) : Rows :=
  let l := packRowLen body
  let docs := leAt body 0x14 4
  ((docChunks l (leAt body 0x02 1) tokens).foldl (fun x c => (x.place l (leAt body 0x03 1) index c).closeFull l (2 ^ 40)) x.charge).closeFull l docs

/-- A row as a placed sample: its tokens in `data`, segment identifiers in `side`, positions in `units` (R434); `index`
keeps the documents charged to it. -/
def Row.placed (r : Row) (body : Bytes) (batch place : Nat) : Placed :=
  ⟨batch, place, r.charged, !r.tokens.isEmpty, r.tokens.flatMap (natLe (packTokBytes body)), r.segs.flatMap (natLe 4), [(0, r.poss.flatMap (natLe 4))],
    r.indices⟩

/-! ## Errors of one sample (R515, R516) -/

/-- A SAMPLE-class error is counted (R547). -/
def State.sampleCount (f code bay : Nat) (s : State) : State :=
  let s := s.count 2 bay 7 1
  if code = stOverBound then s.count 8 f 0 1 else if code = stAuthFail then s.count 8 f 1 1 else s

/-- A SAMPLE-class error that no entry raised is logged in the function's log and counted (R516). -/
def State.sampleError (f i code bay detail : Nat) (s : State) : State := (s.logTo (some f) code 0 0 i bay detail).sampleCount f code bay

/-- A dispatched sample is finished: complete, or rejected or withdrawn (R431). -/
def State.sampleDone (f i : Nat) (y : InFlight) (s : State) : State :=
  s.modStream f i (fun x => { x with inFlight := x.inFlight.filter (fun z => z.index != y.index), ready := x.ready ++ [y] })

/-- A sample is rejected with a SAMPLE-class status (R431, R516). -/
def State.rejectSample (f i index code bay detail : Nat) (s : State) : State :=
  (s.sampleError f i code bay detail).sampleDone f i { InFlight.fresh index 0 with bad := true }

/-! ## Filling batches -/

/-- The ready sample the packer takes next: the run's next own index in REPRO, the first of the run to be complete in OPEN (R430, R433).
A sample of a later epoch waits until the run has all its own, in either mode (log 132). -/
def Stream.nextReady (x : Stream) (meet : Nat) : Option InFlight := do
  let r ← x.openRun? meet
  if x.openMode then x.ready.find? (fun y => (x.runOf y.index).base == r.base) else x.ready.find? (fun y => y.index == x.own meet r.base r.taken)

/-- Tokens of a document's bytes, 4 B each (R387). -/
def tokensOf (bs : Bytes) : List Nat := (chunks 4 bs.length bs).map leNat

/-- The packer takes the first sample of a later epoch: only now is the batch known with which the epoch begins, and with it the stage
boundary (R228, R430, R433). -/
def State.runStarts (f i : Nat) (seq : Bool) (r : EpochRun) (s : State) : State :=
  let x := s.stream f i
  let q := x.runs.findIdx (fun z => z.base == r.base)
  if r.taken ≠ 0 ∨ q = 0 then s else match x.runs[q - 1]? with
    | none => s
    | some p =>
      let n := if seq then ceilDiv (x.nextPlace + x.openRows.length) x.batch else x.runEnd s.meet p
      s.setStream f i { x with
        runs := x.runs.map (fun z => if z.base = r.base then { z with first := n } else z),
        boundaries := x.boundaries.set (x.boundaries.length - (x.runs.length - q)) n }

/-- The packer takes a sample in FIXED mode: its place, filled or padded (R430 to R432). A word of it that reads back as uncorrectable
rejects it (R259), in either mode. -/
def State.takeFixed (f i bay : Nat) (body : Bytes) (r : EpochRun) (y : InFlight) (s : State) : State :=
  let fits := sampleFits body y
  let lost := s.runsBad y.words
  let s := if y.bad then s else if lost then s.sampleError f i stEcc bay 0 else if !fits then s.sampleError f i stOverBound bay 0 else s
  let units := y.units.filter (fun u => !y.gone.contains u.1)
  let bad := y.bad || lost || !fits || (decide (0 < packUnits body) && units.isEmpty)
  let x := s.stream f i
  let skip := bad && packCompact body
  let n := r.first * x.batch + r.placed
  let r' := { r with taken := x.takenNext s.meet r, placed := if skip then r.placed else r.placed + 1 }
  let pl : Placed := ⟨n / x.batch, n % x.batch, y.index - r.base, !bad, y.data, y.side, units, [y.index - r.base]⟩
  let s := s.setStream f i { x with
    ready := x.ready.erase y, runs := x.runs.map (fun z => if z.base = r.base then r' else z),
    placed := if skip then x.placed else x.placed ++ [pl] }
  let s := if bad then s.count 4 x.gidx 2 1 else s
  let s := if skip then s else s.count 4 x.gidx 0 1
  if bad then s else s.count 4 x.gidx 1 1

/-- The packer takes a document in SEQ mode (R433 to R435); closed rows become places in closing order. -/
def State.takeDoc (f i bay : Nat) (body : Bytes) (r : EpochRun) (y : InFlight) (s : State) : State :=
  let tokens := tokensOf y.data
  let lost := !y.bad && s.runsBad y.words
  let s := if lost then s.sampleError f i stEcc bay 0 else s
  let y := { y with bad := y.bad || lost }
  let long := !y.bad && decide (packRowLen body < tokens.length) && leAt body 0x02 1 == 2
  let s := if long then s.sampleError f i stOverBound bay 0 else s
  let x := s.stream f i
  let rows := (Rows.mk x.openRows x.closedRows).take body (y.index - r.base) (if y.bad then [] else tokens)
  let s := s.setStream f i { x with
    ready := x.ready.filter (fun z => z.index != y.index), openRows := rows.openRows, closedRows := rows.closed,
    runs := x.runs.map (fun z => if z.base = r.base then { z with taken := x.takenNext s.meet z } else z) }
  if y.bad || long then s.count 4 x.gidx 2 1 else s

/-- Closed rows become the next places (R433). -/
def State.placeRows (f i : Nat) (body : Bytes) (s : State) : State :=
  let x := s.stream f i
  let ps := (x.closedRows.zipIdx).map (fun p => p.1.placed body ((x.nextPlace + p.2) / x.batch) ((x.nextPlace + p.2) % x.batch))
  let s := s.setStream f i { x with closedRows := [], placed := x.placed ++ ps, nextPlace := x.nextPlace + ps.length }
  (s.count 4 x.gidx 0 ps.length).count 4 x.gidx 1 (ps.filter (·.valid)).length

/-- The packer takes every sample it can (R430, R433); `n` bounds the count. -/
def State.takeReady (f i bay : Nat) (body : Bytes) : Nat → State → State
  | 0, s => s
  | n + 1, s =>
    let x := s.stream f i
    match x.nextReady s.meet, x.openRun? s.meet with
    | some y, some r =>
      let s := s.runStarts f i (packSeq body) r
      let r := ((s.stream f i).openRun? s.meet).getD r
      (if packSeq body then (s.takeDoc f i bay body r y).placeRows f i body else s.takeFixed f i bay body r y).takeReady f i bay body n
    | _, _ => s

/-- At the end of the source the open rows close, oldest first (R431, R433). -/
def State.closeRows (f i : Nat) (body : Bytes) (s : State) : State :=
  let x := s.stream f i
  if packSeq body && x.packedAll s.meet && !x.openRows.isEmpty then
    (s.setStream f i { x with closedRows := x.closedRows ++ x.openRows, openRows := [] }).placeRows f i body
  else s

/-- Whether batch k is complete: every place used, or the run or stream that fills it has ended (R431). -/
def Stream.batchFull (x : Stream) (meet : Nat) (seq : Bool) (k : Nat) : Bool :=
  let here := x.placed.filter (fun p => p.batch == k)
  decide (x.batch ≤ here.length) ||
  (if seq then x.packedAll meet && !here.isEmpty
   else
    let r := x.batchRun k
    x.runDone meet r && !here.isEmpty)

/-- Writes of the blocks of a transfer that are not delivered (R247, R249, R439). -/
def State.pushBlocks (f i : Nat) (s : State) : State :=
  let x := s.stream f i
  match x.xfer with
  | none => s
  | some t =>
    let base := x.slotBase + (t.batch % x.depth) * x.slotStride
    let (dl, per) := s.reqTime x t.batch
    let port := s.streamPort x
    s.forEach ((List.range (ceilDiv t.image.length 4096)).filter (fun b => !blockDone t.low t.done b)) (fun b s =>
      let data := (t.image.drop (4096 * b)).take 4096
      if (s.stream f i).st = .halted then s else s.pushReq port ⟨.write, base + 4096 * b, data.length / 64, f, false, 0, dl, per, x.gidx, .slotBlock f i t.batch b, data⟩)

/-- A complete batch whose slot is free starts its transfer (R425, R439). A restored stream that keeps DONE skips the
blocks it names, once (R483). -/
def State.startXfer (f i : Nat) (body : Bytes) (s : State) : State :=
  let x := s.stream f i
  let k := x.nextBatch
  if x.xfer.isSome || x.st == .halted || x.st == .free || !x.batchFull s.meet (packSeq body) k || decide (x.returned + x.depth ≤ k) then s
  else
    let ps := x.placed.filter (fun p => p.batch == k)
    let keep := x.keepDone.getD (0, 0)
    let img := slotImage body x.batch ps
    ((s.setStream f i { x with
      xfer := some ⟨k, img, keep.1, keep.2, 0, (ps.filter (·.valid)).length, ps⟩, keepDone := none, nextBatch := k + 1,
      placed := x.placed.filter (fun p => p.batch != k) }).streamWorks x.gidx).pushBlocks f i

/-- The packer goes on while its bay runs (R151): samples are taken, rows closed, a complete batch is sent. -/
def State.pump (f i : Nat) (s : State) : State :=
  let x := s.stream f i
  match s.packBody x.graph with
  | none => s
  | some (bay, body) =>
    if x.st == .halted || x.st == .free || !s.bayRuns bay then s
    else (((s.takeReady f i bay body (x.ready.length + 1)).closeRows f i body).startXfer f i body).wakeSamples f i

end Sys2Proof.Machine
end

