-- ==== Sys2Proof/Machine/Queues.lean ====
section
/-! DEFINITION. Work queues: enable and disable (R213 to R217), doorbells and fetch (R197 to R201), chains (R202,
R203), dispatch (R190, R204, R216), completion (R205 to R207), function resets (R180 to R182). -/

namespace Sys2Proof.Machine

/-! ## Requests of a queue -/

/-- A read of a queue's own memory (R187, R191), as the function's traffic on sill port 0. -/
def State.queueRead (f addr : Nat) (owner : Owner) (s : State) : State :=
  s.pushReq 0 ⟨.read, addr, 1, f, false, 0, none, 0, 0, owner, []⟩

/-- The read of a queue's index block is not back yet. -/
def State.indexAwaited (s : State) (f q : Nat) : Bool :=
  s.ports.any (fun p => (p.2.waiting ++ ((p.2.reads.filter (fun o => !o.drop)).map (·.req))).any (fun r => r.owner == .queueIndex f q))

/-- Slots of entry reads that are not back yet. -/
def State.awaited (s : State) (f q : Nat) (posted : Bool) : List Nat :=
  s.ports.flatMap (fun p => (p.2.waiting ++ ((p.2.reads.filter (fun o => !o.drop)).map (·.req))).filterMap (fun r => match r.owner with
    | .queueEntry g j slot b => if g = f ∧ j = q ∧ b = posted then some slot else none
    | _ => none))

/-! ## Enable and disable (R213 to R217) -/

/-- ENABLED, DISABLING or ENABLING is 1 (R213, R215). -/
def Queue.running (x : Queue) : Bool := x.enabled || x.disabling || x.enabling

/-- The checks of R214 that need no memory. -/
def State.enableStatic (s : State) (f : Nat) (x : Queue) : Bool :=
  (s.func f).st == .open_ && decide (6 ≤ x.log2) && decide (x.log2 ≤ 16) && decide (1 ≤ x.weight) && decide (x.weight ≤ 255) &&
  decide (1 ≤ x.burst) && decide (x.burst ≤ 64) && x.base % 64 == 0 && x.index % 64 == 0

/-- ENABLE (R213): the index block is read once the registers can be used (log 47). -/
def State.queueEnable (f q : Nat) (s : State) : State :=
  let x := s.queue f q
  if x.running then s
  else
    let s' := s.setQueue f q { x with enabling := true, indexBlock := none }
    if s.enableStatic f x then s'.queueRead f x.index (.queueIndex f q) else s'

/-- The record CHAIN_BROKEN of a chain is complete (R203): slots that broke it and entries under it in DETAIL. -/
def State.endBroken (f q : Nat) (s : State) : State :=
  let x := s.queue f q
  match x.broken with
  | none => s
  | some b =>
    let s := s.setQueue f q { x with broken := none }
    let s := s.errorRecord f q b.slot b.lap stChainBroken b.opcode b.user (b.breakSlot + b.count * 65536)
    s.modQueue f q (fun x => { x with jobs := x.jobs.map (fun j =>
      if j.started && !j.complete && decide (j.total ≤ j.acted) && j.waits.isNone && !j.fence then { j with complete := true } else j) })

/-- NOTIFY of an entry (R188, R211). -/
def entryNotify (bs : Bytes) : Bool := bitOf (leAt bs 0 4) 11

/-- The open chain breaks at a slot (R203): its entries are to complete under one record. -/
def State.breakChain (f q breakSlot : Nat) (s : State) : State :=
  let x := s.queue f q
  match x.chain with
  | none => s
  | some c =>
    let user := (c.entries.head?.map (fun e => entryUser e.2)).getD 0
    s.setQueue f q { x with
      chain := none, broken := some ⟨c.slot, c.lap, c.opcode, user, breakSlot, c.entries.length⟩,
      jobs := x.jobs ++ [⟨c.slot, c.lap, c.opcode, c.entries, c.entries.length, true, c.entries.length, false,
        c.entries.any (fun e => entryNotify e.2), false, none, none, x.gen⟩] }

/-- DISABLE (R203, R213, R217): no further slot is fetched; what is fetched through TAIL is used, dispatched and completes (log 45). -/
def State.queueDisable (f q : Nat) (s : State) : State :=
  let x := s.queue f q
  if x.enabling then s.setQueue f q { x with heldDisable := true }
  else if !x.enabled then s
  else ((s.dropQueueReads f q false).dropReqs (fun r => r.owner == .queueTail f q)).setQueue f q { x with
    enabled := false, disabling := true, arrived := x.arrived.filter (·.posted), tailOut := false, tailAgain := false, tailValue := none }

/-- A write of Q_CTRL (R213, R215). -/
def State.qCtrlWrite (f q value : Nat) (s : State) : State :=
  let x := s.queue f q
  if !x.present then s
  else
    let pre := fld value 10 6
    let x' := { x with
      nextHeadNotify := bitOf value 2, nextErrNotify := bitOf value 3, nextVector := fld value 4 6,
      prefetch := if x.running then x.prefetch else pre, cfgIgnored := x.cfgIgnored || (x.running && pre != x.prefetch) }
    let x' := if x.running then x' else { x' with headNotify := x'.nextHeadNotify, errNotify := x'.nextErrNotify, vector := x'.nextVector }
    let s := s.setQueue f q x'
    if bitOf value 1 then s.queueDisable f q else if bitOf value 0 then s.queueEnable f q else s

/-- A write of Q_SIZE, Q_BASE or Q_INDEX_ADDR (R215). -/
def State.qFixedWrite (f q : Nat) (g : Queue → Queue) (s : State) : State :=
  let x := s.queue f q
  if !x.present then s else if x.running then s.setQueue f q { x with cfgIgnored := true } else s.setQueue f q (g x)

/-- A write of Q_WEIGHT (R215). -/
def State.qWeightWrite (f q value : Nat) (s : State) : State :=
  let x := s.queue f q
  let w := fld value 0 8
  if !x.present then s
  else if x.running then s.setQueue f q (if w = 0 then { x with cfgIgnored := true } else { x with nextWeight := w })
  else s.setQueue f q { x with weight := w, nextWeight := w }

/-- A write of Q_BURST (R215). -/
def State.qBurstWrite (f q value : Nat) (s : State) : State :=
  let x := s.queue f q
  let w := fld value 0 7
  if !x.present then s
  else if x.running then s.setQueue f q (if w = 0 ∨ 64 < w then { x with cfgIgnored := true } else { x with nextBurst := w })
  else s.setQueue f q { x with burst := w, nextBurst := w }

/-- Q_ENABLE_CHECK (R193, R213, R214). Jobs dispatched before a fault of the queue run on beside those to come (R210; log 130). In FATAL
every queue stops where it is (R218). -/
def execQEnableCheck (fn : BitVec 6) (q : BitVec 9) (s : State) : Out :=
  let f := fn.toNat
  let q := q.toNat
  let x := s.queue f q
  let refuse := s.setQueue f q { x with enabling := false, heldDisable := false, enableRefused := true, indexBlock := none }
  if !x.enabling || !s.live then .next s
  else if !s.enableStatic f x then .next (refuse.dropQueueReads f q true)
  else match x.indexBlock with
    | none => .next (if s.indexAwaited f q then s else refuse)
    | some b =>
      let head := leAt b 0x08 4
      let errBase := leAt b 0x18 8
      let log2 := leAt b 0x20 1
      if x.size ≤ head ∨ errBase % 64 ≠ 0 ∨ log2 < 4 ∨ 12 < log2 then .next refuse
      else
        let s := s.setQueue f q { x with
          enabling := false, heldDisable := false, indexBlock := none, enabled := true, fault := false, faultCode := 0, head := head,
          lap := leAt b 0x0C 4, errCount := leAt b 0x10 4, errBase := errBase, errLog2 := log2, nextFetch := head, tail := head, tailOut := false,
          tailAgain := false, tailValue := none, arrived := [], chain := none, broken := none, jobs := x.jobs.filter (fun j => !j.complete),
          gen := x.gen + 1, visits := 0, errSince := false }
        .next (if x.heldDisable then s.queueDisable f q else s)

/-- Nothing of a disabling queue is left: no read of an entry before TAIL is out, every job is done, its error records are counted, HEAD is
published (R217). -/
def State.queueSettled (s : State) (f q : Nat) : Bool := (s.queue f q).quiet && (s.awaited f q true).isEmpty && !s.errorWaits f q

/-- Q_DISABLE_COMPLETE (R217). -/
def execQDisableComplete (fn : BitVec 6) (q : BitVec 9) (s : State) : Out :=
  let f := fn.toNat
  let x := s.queue f q.toNat
  if x.disabling && s.queueSettled f q.toNat && (s.func f).st != .resetting && s.live then .next (s.setQueue f q.toNat { x with disabling := false }) else .next s

/-! ## Doorbells and fetch (R197 to R201) -/

/-- A write of DOORBELL (R179, R197). One to a number the function does not have is counted where no register shows it (log 48). -/
def State.doorbell (f value : Nat) (s : State) : State :=
  let q := fld value 0 12
  let x := s.queue f q
  if 512 ≤ q ∨ !x.present then s.modFunc f (fun y => { y with lostBells := y.lostBells + 1 })
  else
    let s := s.count 5 x.qid 2 1
    if !x.enabled || (s.func f).st != .open_ then s.count 5 x.qid 3 1
    else if x.tailOut then s.setQueue f q { x with tailAgain := true }
    else (s.setQueue f q { x with tailOut := true, tailValue := none }).queueRead f x.index (.queueTail f q)

/-- Entry reads of consecutive slots. -/
def State.fetchSlots (f q : Nat) (posted : Bool) (n first : Nat) (s : State) : State :=
  let x := s.queue f q
  s.forEach (List.range n) (fun j s =>
    let slot := (first + j) % x.size
    s.queueRead f (x.base + 64 * slot) (.queueEntry f q slot posted))

/-- The TAIL to go by (R198): a value of 2^n or more is recorded and ignored. -/
def State.tailCheck (f q t : Nat) (s : State) : Nat × State :=
  let x := s.queue f q
  if x.size ≤ t then (x.tail, s.errorRecord f q 0xFFFFFFFF x.lap stMalformed 0 0 1) else (t, s.setQueue f q { x with tail := t })

/-- TAIL_READ (R197 to R200): the posted slots are fetched, and up to PREFETCH past TAIL more, as the frame chooses. Prefetched
entries not yet used are read again (R199; log 49). -/
def execTailRead (fn : BitVec 6) (q : BitVec 9) (extra : BitVec 6) (v : MemView) (s : State) : Out :=
  let s := s.seeMem v
  s.turn fun s =>
  let f := fn.toNat
  let q := q.toNat
  match (s.queue f q).tailValue with
  | none => .next s
  | some t =>
    if !s.live || !(s.queue f q).enabled then .next s else
      let (t, s) := s.tailCheck f q t
      let x := s.queue f q
      if !x.enabled then .next s else
        let s := s.dropQueueReads f q false
        let behind := (x.nextFetch + x.size - t % x.size) % x.size
        let n := if behind ≤ x.pre then 0 else x.size - behind
        let more := min (min extra.toNat (x.pre - if behind ≤ x.pre then behind else 0)) (x.size - 1 - (x.nextFetch + n + x.size - x.head) % x.size)
        let s := s.setQueue f q { x with
          tailOut := x.tailAgain, tailAgain := false, tailValue := none, nextFetch := (x.nextFetch + n) % x.size,
          arrived := x.arrived.filter (·.posted) }
        let s := (s.fetchSlots f q true n x.nextFetch).fetchSlots f q false more (x.nextFetch + n)
        .next (if x.tailAgain then s.queueRead f x.index (.queueTail f q) else s)

/-! ## Chains (R202, R203) -/

/-- PHASE of an entry matches the lap of its slot (R194). -/
def Queue.phaseOk (x : Queue) (slot : Nat) (bs : Bytes) : Bool := bitOf (leAt bs 0 4) 15 == (x.lapOf slot % 2 == 0)

/-- A job of entries that are all fetched (R202). -/
def mkJob (gen slot lap opcode : Nat) (entries : List (Nat × Bytes)) : Job :=
  let ctl := fun (e : Nat × Bytes) => leAt e.2 0 4
  ⟨slot, lap, opcode, entries, entries.length, false, 0, false, entries.any (fun e => entryNotify e.2), entries.any (fun e => bitOf (ctl e) 10), none, none, gen⟩

/-- An entry that completes on its own (R201, R210): its own record, and its slot for HEAD to pass. -/
def State.ownEntry (f q slot : Nat) (bs : Bytes) (code detail : Nat) (s : State) : State :=
  let x := s.queue f q
  let lap := x.lapOf slot
  let op := leAt bs 0 1
  let s := s.breakChain f q slot
  let s := s.errorRecord f q slot lap code op (entryUser bs) detail
  s.modQueue f q (fun x => { x with jobs := x.jobs ++ [⟨slot, lap, op, [(slot, bs)], 1, true, 1, true, code != stPoison && entryNotify bs, false, none, none, x.gen⟩] })

/-- A further entry completes under the record of a broken chain (R203). -/
def State.underBroken (f q slot : Nat) (bs : Bytes) (s : State) : State :=
  s.modQueue f q (fun x => { x with
    broken := x.broken.map (fun b => { b with count := b.count + 1 }),
    jobs := x.jobs ++ [⟨slot, x.lapOf slot, leAt bs 0 1, [(slot, bs)], 1, true, 1, false, entryNotify bs, false, none, none, x.gen⟩] })

/-- An entry starts a chain or is a job by itself (R202). -/
def State.startChain (f q slot : Nat) (bs : Bytes) (s : State) : State :=
  let x := s.queue f q
  let op := leAt bs 0 1
  if bitOf (leAt bs 0 4) 9 then s.setQueue f q { x with jobs := x.jobs ++ [mkJob x.gen slot (x.lapOf slot) op [(slot, bs)]] }
  else s.setQueue f q { x with chain := some ⟨slot, x.lapOf slot, op, [(slot, bs)]⟩ }

/-- One entry in slot order, with the PHASE of its lap (R202, R203). -/
def State.takeEntry (f q slot : Nat) (bs : Bytes) (s : State) : State :=
  let first := bitOf (leAt bs 0 4) 8
  let last := bitOf (leAt bs 0 4) 9
  let op := leAt bs 0 1
  let x := s.queue f q
  match x.broken, x.chain with
  | some _, _ => if first then (s.endBroken f q).startChain f q slot bs else s.underBroken f q slot bs
  | none, some c =>
    if first then ((s.breakChain f q slot).endBroken f q).startChain f q slot bs
    else if op ≠ c.opcode ∨ x.maxChain < c.entries.length + 1 then (s.breakChain f q slot).underBroken f q slot bs
    else
      let es := c.entries ++ [(slot, bs)]
      if last then s.setQueue f q { x with chain := none, jobs := x.jobs ++ [mkJob x.gen c.slot c.lap c.opcode es] }
      else s.setQueue f q { x with chain := some { c with entries := es } }
  | none, none =>
    if first then s.startChain f q slot bs
    else (s.setQueue f q { x with broken := some ⟨slot, x.lapOf slot, op, entryUser bs, slot, 0⟩ }).underBroken f q slot bs

/-- Skipping ends when every fetched entry has been used (R203). -/
def State.skipEnds (f q : Nat) (s : State) : State :=
  let x := s.queue f q
  if x.broken.isSome && x.arrived.isEmpty && (s.awaited f q true).isEmpty && (s.awaited f q false).isEmpty then s.endBroken f q else s

/-- The slot nearest after HEAD. -/
def Queue.nearest (x : Queue) (l : List Nat) : Option Nat :=
  l.foldl (fun o n => match o with
    | none => some n
    | some m => if (n + x.size - x.head) % x.size < (m + x.size - x.head) % x.size then some n else some m) none

/-- ENTRY_FETCH (R199, R201, R203, R210): the next slot in order is used, once its read has returned. When a queue that is being disabled
has used all it fetched, an open chain breaks at the next unfetched slot (R203). -/
def execEntryFetch (fn : BitVec 6) (q : BitVec 9) (v : MemView) (s : State) : Out :=
  let s := s.seeMem v
  s.turn fun s =>
  let f := fn.toNat
  let q := q.toNat
  let x := s.queue f q
  if !s.live || !(x.enabled || x.disabling) then .next s else
    let postedSlots := s.awaited f q true ++ (x.arrived.filter (·.posted)).map (·.slot)
    match x.nearest postedSlots with
    | some slot =>
      match x.arrived.find? (fun a => a.posted && a.slot == slot) with
      | none => .next s
      | some a =>
        let s := s.setQueue f q { x with arrived := x.arrived.erase a }
        if a.poison then .next ((s.ownEntry f q slot a.bytes stPoison 0).skipEnds f q)
        else if !x.phaseOk slot a.bytes then .next ((s.ownEntry f q slot a.bytes stMalformed 2).skipEnds f q)
        else .next ((s.takeEntry f q slot a.bytes).skipEnds f q)
    | none =>
      if x.disabling then .next ((s.breakChain f q x.nextFetch).endBroken f q) else
      match x.arrived.find? (fun a => a.slot == x.nextFetch) with
      | none => .next (s.skipEnds f q)
      | some a =>
        if a.poison || !x.phaseOk a.slot a.bytes then
          .next (((s.setQueue f q { x with arrived := [] }).dropQueueReads f q false).skipEnds f q)
        else
          let s := s.setQueue f q { x with arrived := x.arrived.erase a, nextFetch := (x.nextFetch + 1) % x.size }
          .next ((s.takeEntry f q a.slot a.bytes).skipEnds f q)

/-! ## Dispatch (R190, R204, R216) -/

/-- The status that the opcode checks give an entry, in the order of R190. -/
def State.opcodeCheck (s : State) (x : Queue) (op : Nat) : Nat :=
  if 0x0F < op then stBadOpcode
  else if !hasBit x.opcodeMask op then stAccessDenied
  else if s.frame.st == .walk && 1 < op then stAccessDenied
  else stOk

/-- Whether a job is defined over two entries (R565). -/
def pairJob (op : Nat) : Bool := op == 0x02 || op == 0x0C

/-- A job is dispatched: refused by R190, complete at once (NOP, R189), malformed by R565, or started. -/
def State.dispatchJob (f q : Nat) (j : Job) (s : State) : State :=
  let code := s.opcodeCheck (s.queue f q) j.opcode
  let s := s.modJob f q j (fun j => { j with started := true })
  if code ≠ stOk then
    if pairJob j.opcode then s.jobDone f q j code 0
    else s.forEach j.entries (fun e s => match s.jobAt f q e.1 with
      | some (j, bs) => s.entryDone f q j bs code 0
      | none => s)
  else if j.opcode = 0 then s.modJob f q j (fun j => { j with complete := true, acted := j.total })
  else if pairJob j.opcode && j.total != 2 then s.jobDone f q j stMalformed 24
  else s

/-- Jobs in slot order until `n` entries are dispatched; a FENCE job waits for every earlier one (R204, R216). -/
def State.dispatch (f q : Nat) : Nat → List Job → State → State
  | _, [], s => s
  | 0, _, s => s
  | n + 1, j :: rest, s =>
    if j.started then s.dispatch f q (n + 1) rest
    else
      let earlier := (s.queue f q).jobs.takeWhile (fun y => y.slot != j.slot)
      if j.fence && !earlier.all (·.complete) then s
      else (s.dispatchJob f q j).dispatch f q (n + 1 - j.total) rest

/-- The queue has fetched work (R216). -/
def Queue.hasWork (x : Queue) : Bool := (x.enabled || x.disabling) && x.jobs.any (fun j => !j.started)

/-- A new round (R215, R216). -/
def State.newRound (s : State) : State :=
  { s with queues := tblMap (fun _ x => { x with
    visits := 0, weight := x.nextWeight, burst := x.nextBurst, headNotify := x.nextHeadNotify, errNotify := x.nextErrNotify, vector := x.nextVector }) s.queues }

/-- A queue's turn in a round that spreads visits evenly (R216): its next visit lies no later in the round than that of any other queue
with work and visits left, the v-th of w visits lying at (2v + 1) / 2w of the round (log 46). -/
def State.visitDue (s : State) (x : Queue) : Bool :=
  s.allQueues.all (fun p => !p.2.2.hasWork || decide (p.2.2.weight ≤ p.2.2.visits) ||
    decide ((2 * x.visits + 1) * p.2.2.weight ≤ (2 * p.2.2.visits + 1) * x.weight))

/-- QUEUE_VISIT (R216): WEIGHT visits a round, BURST entries a visit. Between queues whose turns coincide the queue manager chooses
(log 46). -/
def execQueueVisit (fn : BitVec 6) (q : BitVec 9) (v : MemView) (s : State) : Out :=
  let s := s.seeMem v
  s.turn fun s =>
  let f := fn.toNat
  let q := q.toNat
  if !s.live || !(s.queue f q).hasWork then .next s else
    let due := s.allQueues.any (fun p => p.2.2.hasWork && decide (p.2.2.visits < p.2.2.weight))
    let s := if due then s else s.newRound
    let x := s.queue f q
    if x.weight ≤ x.visits || !s.visitDue x then .next s
    else .next ((s.setQueue f q { x with visits := x.visits + 1 }).dispatch f q x.burst x.jobs)

/-! ## Publication (R205 to R207, R211) -/

/-- The jobs that HEAD can pass: complete, each earlier one too (R205). -/
def Queue.passable (x : Queue) : List Job := x.own.takeWhile (·.complete)

/-- Entries of some jobs. -/
def entryCount (js : List Job) : Nat := js.foldl (fun n j => n + j.total) 0

/-- What a HEAD update that went out before adds, if it has not been taken up (R206; log 4). -/
def State.headAsked (s : State) (f q : Nat) : Option Nat :=
  let p := s.port 0
  ((p.answers.map (·.req) ++ (p.reads.filter (fun o => !o.drop)).map (·.req)).find? (fun r =>
    r.op == .fetchAdd && r.addr == (s.queue f q).index + 8 && r.fn == f && !r.mgmt)).map (·.operand.toNat)

/-- The jobs that the next HEAD passes: all it can, or those of the update that is on its way. -/
def State.passing (s : State) (f q : Nat) : List Job :=
  let x := s.queue f q
  match s.headAsked f q with
  | none => x.passable
  | some a => (((List.range (x.passable.length + 1)).map (fun k => x.passable.take k)).find? (fun js =>
      ((x.head + entryCount js) % x.size + 2 ^ 32 - x.head) % 2 ^ 32 == a)).getD x.passable

/-- HEAD is published: LAP first when it wraps (R206). -/
def State.publishHead (f q : Nat) (s : State) : State :=
  let x := s.queue f q
  let js := s.passing f q
  let n := entryCount js
  let pos := x.head + n
  let wraps := pos / x.size
  let head := pos % x.size
  let (ok, s) := if wraps = 0 then (true, s) else s.indexAdd f q 0x0C x.lap wraps
  if !ok then s else
    let (ok, s) := if head = x.head then (true, s) else s.indexAdd f q 0x08 x.head (head + 2 ^ 32 - x.head)
    if !ok then s else
      let s := s.modQueue f q (fun x => { x with head := head, lap := (x.lap + wraps) % 2 ^ 32, jobs := x.jobs.filter (fun j => x.old j && !j.complete) ++ x.own.drop js.length })
      let s := s.count 5 x.qid 0 n
      if x.headNotify || js.any (·.notify) then s.queueMsg f q else s

/-- JOB_COMPLETE_HEAD_PUBLISH (R205 to R207, R211): the error records of the queue are counted first. -/
def execJobCompleteHeadPublish (fn : BitVec 6) (q : BitVec 9) (v : MemView) (s : State) : Out :=
  let s := s.seeMem v
  s.turn fun s =>
  let x := s.queue fn.toNat q.toNat
  if !s.live || x.fault || x.passable.isEmpty || s.errorWaits fn.toNat q.toNat || !(x.enabled || x.disabling) then .next s else .next (s.publishHead fn.toNat q.toNat)

/-! ## Function resets (R180 to R182) -/

/-- The queue registers return to the image's defaults (R181, R212). -/
def Queue.defaulted (x : Queue) (d : QueueDef) : Queue :=
  { Queue.fresh with
    present := true, qid := d.qid, opcodeMask := d.opcodeMask, maxChain := d.maxChain, defaults := some d, log2 := d.log2,
    weight := d.weight, burst := d.burst, headNotify := bitOf d.flags 0, errNotify := bitOf d.flags 1, vector := d.vector,
    prefetch := d.prefetch, nextWeight := d.weight, nextBurst := d.burst, nextHeadNotify := bitOf d.flags 0,
    nextErrNotify := bitOf d.flags 1, nextVector := d.vector, disabling := x.disabling }

/-- A queue at a function reset (R181, R218). -/
def Queue.reset (x : Queue) : Queue := match x.defaults with
  | some d => x.defaulted d
  | none => x

/-- Counters of a function are 0 again (R181, R569): its queues, streams, pools and the function's own. A time that runs counts from now. -/
def State.clearFuncCounts (f : Nat) (s : State) : State :=
  let s : State := { s with
    pools := tblMap (fun _ p => if p.assigned && p.fn == f then { p with stallSince := s.now } else p) s.pools,
    streams := tblMap (fun k x => if k / 1024 = f then { x with voidSince := s.now } else x) s.streams }
  let s := s.forEach (s.allQueues.filter (fun p => p.1 == f)) (fun p s => s.clearCounts 5 p.2.2.qid)
  let s := s.forEach (s.openStreams.filter (fun p => p.1 == f)) (fun p s => s.clearCounts 4 p.2.2.gidx)
  let s := s.forEach (s.pools.filter (fun p => p.2.assigned && p.2.fn == f)) (fun p s => s.clearCounts 6 p.1)
  s.clearCounts 8 f

/-- Requests of a function's own traffic that no reset may leave behind (R181). -/
def Req.ofFunction (r : Req) (f : Nat) : Bool := !r.mgmt && r.fn == f

/-- A write of FUNC_RESET (R180, R181). In BOOT_FAIL no function opens (R176), so it is ignored there (log 122). -/
def State.funcReset (f value : Nat) (s : State) : State :=
  let x := s.func f
  if !bitOf value 0 || !(x.st == .open_ || x.st == .halted) || s.frame.st == .fatal || s.frame.st == .bootFail then s
  else
    let s := s.clearFuncCounts f
    let s : State := { s with queues := tblMap (fun k x => if k / 512 = f then x.reset else x) s.queues,
                              later := s.later.filter (fun l => l.queue?.all (fun p => p.1 != f)) }
    let s := s.dropReqs (fun r => r.ofFunction f)
    let s := (s.dropPools f).abortWhere (fun g _ _ => g == f)
    let s := s.forEach (s.func f).log.waiting State.releaseUnit
    s.modFunc f (fun x => { x with st := .resetting, resetKeys := bitOf value 1, pageGroups := [], log := .fresh, oobDrop := 0, lostBells := 0 })

/-- Writes of the function outstanding on some port (R181). -/
def State.funcWritesOut (s : State) (f : Nat) : Bool := s.ports.any (fun p => p.2.writes.any (fun o => o.req.ofFunction f))

/-- Messages of the function still queued (R181). -/
def State.funcMsgsOut (s : State) (f : Nat) : Bool :=
  s.notify.msgs.any (fun m => m.fn == f) || s.notify.pages.any (fun p => p.fn == f)

/-- Key slots of the function's range are zeroised (R180, R498). -/
def State.clearFuncKeys (f : Nat) (s : State) : State :=
  { s with sec := { s.sec with slots := s.sec.slots.filter (fun p => p.2.fn != f) } }

/-- A bank of an aborted stream of the function has not gone back to the bank plan (R181, R263). One in a fenced bay never does. -/
def State.funcBanksOut (s : State) (f : Nat) : Bool :=
  s.banks.any (fun p => p.2.kind == 2 && p.2.ownerFn == f && p.2.pending.isSome && !s.fenced (p.1 / 48))

/-- An ending record of a stream of the function has not been written (R181, R237). -/
def State.endingWaits (s : State) (f : Nat) : Bool := s.later.any (fun l => match l with
  | .ending g _ _ _ => g == f
  | _ => false)

/-- FUNC_RESET_COMPLETE (R181, R182): writes have returned, messages are sent, banks are back. DESIGN CHOICE (log 134): the manual does
not say when KEYS_CLEARED and HALT_CODE return to 0. A reset without KEYS leaves KEYS_CLEARED as it is; HALT_CODE is 0 from the
completion on. -/
def execFuncResetComplete (fn : BitVec 6) (s : State) : Out :=
  let f := fn.toNat
  let x := s.func f
  if x.st ≠ .resetting ∨ s.frame.st = .fatal ∨ s.frame.st = .bootFail ∨ s.funcWritesOut f ∨ s.funcMsgsOut f ∨ s.funcBanksOut f ∨ s.endingWaits f then .next s
  else
    let s := if x.resetKeys then s.clearFuncKeys f else s
    let s : State := { s with queues := tblMap (fun k x => if k / 512 = f then { x with disabling := false } else x) s.queues }
    .next (s.modFunc f (fun x => { x with st := .open_, keysCleared := x.keysCleared || x.resetKeys, resetKeys := false, haltCode := 0 }))

end Sys2Proof.Machine
end

