-- ==== Sys2Proof/Machine/UniClass.lean ====
section
/-! DEFINITION. The General_Category classes of Unicode and the Canonical_Combining_Class.
PRESUMED (log 103): the Unicode Character Database, version 15.1, which R375 and R376 name and do not print. -/

namespace Sys2Proof.Machine

def uniClassRuns0 : List (Nat × Nat) :=
  [(0x0, 6), (0x20, 5), (0x21, 3), (0x24, 4), (0x25, 3), (0x2B, 4), (0x2C, 3), (0x30, 2), (0x3A, 3), (0x3C, 4), (0x3F, 3), (0x41, 0),
    (0x5B, 3), (0x5E, 4), (0x5F, 3), (0x60, 4), (0x61, 0), (0x7B, 3), (0x7C, 4), (0x7D, 3), (0x7E, 4), (0x7F, 6), (0xA0, 5), (0xA1, 3),
    (0xA2, 4), (0xA7, 3), (0xA8, 4), (0xAA, 0), (0xAB, 3), (0xAC, 4), (0xAD, 6), (0xAE, 4), (0xB2, 2), (0xB4, 4), (0xB5, 0), (0xB6, 3),
    (0xB8, 4), (0xB9, 2), (0xBA, 0), (0xBB, 3), (0xBC, 2), (0xBF, 3), (0xC0, 0), (0xD7, 4), (0xD8, 0), (0xF7, 4), (0xF8, 0), (0x2C2, 4),
    (0x2C6, 0), (0x2D2, 4), (0x2E0, 0), (0x2E5, 4), (0x2EC, 0), (0x2ED, 4), (0x2EE, 0), (0x2EF, 4), (0x300, 1), (0x370, 0), (0x375, 4),
    (0x376, 0), (0x378, 6), (0x37A, 0), (0x37E, 3), (0x37F, 0), (0x380, 6), (0x384, 4), (0x386, 0), (0x387, 3), (0x388, 0), (0x38B, 6),
    (0x38C, 0), (0x38D, 6), (0x38E, 0), (0x3A2, 6), (0x3A3, 0), (0x3F6, 4), (0x3F7, 0), (0x482, 4), (0x483, 1), (0x48A, 0), (0x530, 6),
    (0x531, 0), (0x557, 6), (0x559, 0), (0x55A, 3), (0x560, 0), (0x589, 3), (0x58B, 6), (0x58D, 4), (0x590, 6)]

def uniClassRuns1 : List (Nat × Nat) :=
  [(0x591, 1), (0x5BE, 3), (0x5BF, 1), (0x5C0, 3), (0x5C1, 1), (0x5C3, 3), (0x5C4, 1), (0x5C6, 3), (0x5C7, 1), (0x5C8, 6), (0x5D0, 0),
    (0x5EB, 6), (0x5EF, 0), (0x5F3, 3), (0x5F5, 6), (0x606, 4), (0x609, 3), (0x60B, 4), (0x60C, 3), (0x60E, 4), (0x610, 1), (0x61B, 3),
    (0x61C, 6), (0x61D, 3), (0x620, 0), (0x64B, 1), (0x660, 2), (0x66A, 3), (0x66E, 0), (0x670, 1), (0x671, 0), (0x6D4, 3), (0x6D5, 0),
    (0x6D6, 1), (0x6DD, 6), (0x6DE, 4), (0x6DF, 1), (0x6E5, 0), (0x6E7, 1), (0x6E9, 4), (0x6EA, 1), (0x6EE, 0), (0x6F0, 2), (0x6FA, 0),
    (0x6FD, 4), (0x6FF, 0), (0x700, 3), (0x70E, 6), (0x710, 0), (0x711, 1), (0x712, 0), (0x730, 1), (0x74B, 6), (0x74D, 0), (0x7A6, 1),
    (0x7B1, 0), (0x7B2, 6), (0x7C0, 2), (0x7CA, 0), (0x7EB, 1), (0x7F4, 0), (0x7F6, 4), (0x7F7, 3), (0x7FA, 0), (0x7FB, 6), (0x7FD, 1),
    (0x7FE, 4), (0x800, 0), (0x816, 1), (0x81A, 0), (0x81B, 1), (0x824, 0), (0x825, 1), (0x828, 0), (0x829, 1), (0x82E, 6), (0x830, 3),
    (0x83F, 6), (0x840, 0), (0x859, 1), (0x85C, 6), (0x85E, 3), (0x85F, 6), (0x860, 0), (0x86B, 6), (0x870, 0), (0x888, 4), (0x889, 0),
    (0x88F, 6), (0x898, 1)]

def uniClassRuns2 : List (Nat × Nat) :=
  [(0x8A0, 0), (0x8CA, 1), (0x8E2, 6), (0x8E3, 1), (0x904, 0), (0x93A, 1), (0x93D, 0), (0x93E, 1), (0x950, 0), (0x951, 1), (0x958, 0),
    (0x962, 1), (0x964, 3), (0x966, 2), (0x970, 3), (0x971, 0), (0x981, 1), (0x984, 6), (0x985, 0), (0x98D, 6), (0x98F, 0), (0x991, 6),
    (0x993, 0), (0x9A9, 6), (0x9AA, 0), (0x9B1, 6), (0x9B2, 0), (0x9B3, 6), (0x9B6, 0), (0x9BA, 6), (0x9BC, 1), (0x9BD, 0), (0x9BE, 1),
    (0x9C5, 6), (0x9C7, 1), (0x9C9, 6), (0x9CB, 1), (0x9CE, 0), (0x9CF, 6), (0x9D7, 1), (0x9D8, 6), (0x9DC, 0), (0x9DE, 6), (0x9DF, 0),
    (0x9E2, 1), (0x9E4, 6), (0x9E6, 2), (0x9F0, 0), (0x9F2, 4), (0x9F4, 2), (0x9FA, 4), (0x9FC, 0), (0x9FD, 3), (0x9FE, 1), (0x9FF, 6),
    (0xA01, 1), (0xA04, 6), (0xA05, 0), (0xA0B, 6), (0xA0F, 0), (0xA11, 6), (0xA13, 0), (0xA29, 6), (0xA2A, 0), (0xA31, 6), (0xA32, 0),
    (0xA34, 6), (0xA35, 0), (0xA37, 6), (0xA38, 0), (0xA3A, 6), (0xA3C, 1), (0xA3D, 6), (0xA3E, 1), (0xA43, 6), (0xA47, 1), (0xA49, 6),
    (0xA4B, 1), (0xA4E, 6), (0xA51, 1), (0xA52, 6), (0xA59, 0), (0xA5D, 6), (0xA5E, 0), (0xA5F, 6), (0xA66, 2), (0xA70, 1), (0xA72, 0),
    (0xA75, 1), (0xA76, 3)]

def uniClassRuns3 : List (Nat × Nat) :=
  [(0xA77, 6), (0xA81, 1), (0xA84, 6), (0xA85, 0), (0xA8E, 6), (0xA8F, 0), (0xA92, 6), (0xA93, 0), (0xAA9, 6), (0xAAA, 0), (0xAB1, 6),
    (0xAB2, 0), (0xAB4, 6), (0xAB5, 0), (0xABA, 6), (0xABC, 1), (0xABD, 0), (0xABE, 1), (0xAC6, 6), (0xAC7, 1), (0xACA, 6), (0xACB, 1),
    (0xACE, 6), (0xAD0, 0), (0xAD1, 6), (0xAE0, 0), (0xAE2, 1), (0xAE4, 6), (0xAE6, 2), (0xAF0, 3), (0xAF1, 4), (0xAF2, 6), (0xAF9, 0),
    (0xAFA, 1), (0xB00, 6), (0xB01, 1), (0xB04, 6), (0xB05, 0), (0xB0D, 6), (0xB0F, 0), (0xB11, 6), (0xB13, 0), (0xB29, 6), (0xB2A, 0),
    (0xB31, 6), (0xB32, 0), (0xB34, 6), (0xB35, 0), (0xB3A, 6), (0xB3C, 1), (0xB3D, 0), (0xB3E, 1), (0xB45, 6), (0xB47, 1), (0xB49, 6),
    (0xB4B, 1), (0xB4E, 6), (0xB55, 1), (0xB58, 6), (0xB5C, 0), (0xB5E, 6), (0xB5F, 0), (0xB62, 1), (0xB64, 6), (0xB66, 2), (0xB70, 4),
    (0xB71, 0), (0xB72, 2), (0xB78, 6), (0xB82, 1), (0xB83, 0), (0xB84, 6), (0xB85, 0), (0xB8B, 6), (0xB8E, 0), (0xB91, 6), (0xB92, 0),
    (0xB96, 6), (0xB99, 0), (0xB9B, 6), (0xB9C, 0), (0xB9D, 6), (0xB9E, 0), (0xBA0, 6), (0xBA3, 0), (0xBA5, 6), (0xBA8, 0), (0xBAB, 6),
    (0xBAE, 0), (0xBBA, 6)]

def uniClassRuns4 : List (Nat × Nat) :=
  [(0xBBE, 1), (0xBC3, 6), (0xBC6, 1), (0xBC9, 6), (0xBCA, 1), (0xBCE, 6), (0xBD0, 0), (0xBD1, 6), (0xBD7, 1), (0xBD8, 6), (0xBE6, 2),
    (0xBF3, 4), (0xBFB, 6), (0xC00, 1), (0xC05, 0), (0xC0D, 6), (0xC0E, 0), (0xC11, 6), (0xC12, 0), (0xC29, 6), (0xC2A, 0), (0xC3A, 6),
    (0xC3C, 1), (0xC3D, 0), (0xC3E, 1), (0xC45, 6), (0xC46, 1), (0xC49, 6), (0xC4A, 1), (0xC4E, 6), (0xC55, 1), (0xC57, 6), (0xC58, 0),
    (0xC5B, 6), (0xC5D, 0), (0xC5E, 6), (0xC60, 0), (0xC62, 1), (0xC64, 6), (0xC66, 2), (0xC70, 6), (0xC77, 3), (0xC78, 2), (0xC7F, 4),
    (0xC80, 0), (0xC81, 1), (0xC84, 3), (0xC85, 0), (0xC8D, 6), (0xC8E, 0), (0xC91, 6), (0xC92, 0), (0xCA9, 6), (0xCAA, 0), (0xCB4, 6),
    (0xCB5, 0), (0xCBA, 6), (0xCBC, 1), (0xCBD, 0), (0xCBE, 1), (0xCC5, 6), (0xCC6, 1), (0xCC9, 6), (0xCCA, 1), (0xCCE, 6), (0xCD5, 1),
    (0xCD7, 6), (0xCDD, 0), (0xCDF, 6), (0xCE0, 0), (0xCE2, 1), (0xCE4, 6), (0xCE6, 2), (0xCF0, 6), (0xCF1, 0), (0xCF3, 1), (0xCF4, 6),
    (0xD00, 1), (0xD04, 0), (0xD0D, 6), (0xD0E, 0), (0xD11, 6), (0xD12, 0), (0xD3B, 1), (0xD3D, 0), (0xD3E, 1), (0xD45, 6), (0xD46, 1),
    (0xD49, 6), (0xD4A, 1)]

def uniClassRuns5 : List (Nat × Nat) :=
  [(0xD4E, 0), (0xD4F, 4), (0xD50, 6), (0xD54, 0), (0xD57, 1), (0xD58, 2), (0xD5F, 0), (0xD62, 1), (0xD64, 6), (0xD66, 2), (0xD79, 4),
    (0xD7A, 0), (0xD80, 6), (0xD81, 1), (0xD84, 6), (0xD85, 0), (0xD97, 6), (0xD9A, 0), (0xDB2, 6), (0xDB3, 0), (0xDBC, 6), (0xDBD, 0),
    (0xDBE, 6), (0xDC0, 0), (0xDC7, 6), (0xDCA, 1), (0xDCB, 6), (0xDCF, 1), (0xDD5, 6), (0xDD6, 1), (0xDD7, 6), (0xDD8, 1), (0xDE0, 6),
    (0xDE6, 2), (0xDF0, 6), (0xDF2, 1), (0xDF4, 3), (0xDF5, 6), (0xE01, 0), (0xE31, 1), (0xE32, 0), (0xE34, 1), (0xE3B, 6), (0xE3F, 4),
    (0xE40, 0), (0xE47, 1), (0xE4F, 3), (0xE50, 2), (0xE5A, 3), (0xE5C, 6), (0xE81, 0), (0xE83, 6), (0xE84, 0), (0xE85, 6), (0xE86, 0),
    (0xE8B, 6), (0xE8C, 0), (0xEA4, 6), (0xEA5, 0), (0xEA6, 6), (0xEA7, 0), (0xEB1, 1), (0xEB2, 0), (0xEB4, 1), (0xEBD, 0), (0xEBE, 6),
    (0xEC0, 0), (0xEC5, 6), (0xEC6, 0), (0xEC7, 6), (0xEC8, 1), (0xECF, 6), (0xED0, 2), (0xEDA, 6), (0xEDC, 0), (0xEE0, 6), (0xF00, 0),
    (0xF01, 4), (0xF04, 3), (0xF13, 4), (0xF14, 3), (0xF15, 4), (0xF18, 1), (0xF1A, 4), (0xF20, 2), (0xF34, 4), (0xF35, 1), (0xF36, 4),
    (0xF37, 1), (0xF38, 4)]

def uniClassRuns6 : List (Nat × Nat) :=
  [(0xF39, 1), (0xF3A, 3), (0xF3E, 1), (0xF40, 0), (0xF48, 6), (0xF49, 0), (0xF6D, 6), (0xF71, 1), (0xF85, 3), (0xF86, 1), (0xF88, 0),
    (0xF8D, 1), (0xF98, 6), (0xF99, 1), (0xFBD, 6), (0xFBE, 4), (0xFC6, 1), (0xFC7, 4), (0xFCD, 6), (0xFCE, 4), (0xFD0, 3), (0xFD5, 4),
    (0xFD9, 3), (0xFDB, 6), (0x1000, 0), (0x102B, 1), (0x103F, 0), (0x1040, 2), (0x104A, 3), (0x1050, 0), (0x1056, 1), (0x105A, 0),
    (0x105E, 1), (0x1061, 0), (0x1062, 1), (0x1065, 0), (0x1067, 1), (0x106E, 0), (0x1071, 1), (0x1075, 0), (0x1082, 1), (0x108E, 0),
    (0x108F, 1), (0x1090, 2), (0x109A, 1), (0x109E, 4), (0x10A0, 0), (0x10C6, 6), (0x10C7, 0), (0x10C8, 6), (0x10CD, 0), (0x10CE, 6),
    (0x10D0, 0), (0x10FB, 3), (0x10FC, 0), (0x1249, 6), (0x124A, 0), (0x124E, 6), (0x1250, 0), (0x1257, 6), (0x1258, 0), (0x1259, 6),
    (0x125A, 0), (0x125E, 6), (0x1260, 0), (0x1289, 6), (0x128A, 0), (0x128E, 6), (0x1290, 0), (0x12B1, 6), (0x12B2, 0), (0x12B6, 6),
    (0x12B8, 0), (0x12BF, 6), (0x12C0, 0), (0x12C1, 6), (0x12C2, 0), (0x12C6, 6), (0x12C8, 0), (0x12D7, 6), (0x12D8, 0), (0x1311, 6),
    (0x1312, 0), (0x1316, 6), (0x1318, 0), (0x135B, 6), (0x135D, 1), (0x1360, 3), (0x1369, 2), (0x137D, 6)]

def uniClassRuns7 : List (Nat × Nat) :=
  [(0x1380, 0), (0x1390, 4), (0x139A, 6), (0x13A0, 0), (0x13F6, 6), (0x13F8, 0), (0x13FE, 6), (0x1400, 3), (0x1401, 0), (0x166D, 4),
    (0x166E, 3), (0x166F, 0), (0x1680, 5), (0x1681, 0), (0x169B, 3), (0x169D, 6), (0x16A0, 0), (0x16EB, 3), (0x16EE, 2), (0x16F1, 0),
    (0x16F9, 6), (0x1700, 0), (0x1712, 1), (0x1716, 6), (0x171F, 0), (0x1732, 1), (0x1735, 3), (0x1737, 6), (0x1740, 0), (0x1752, 1),
    (0x1754, 6), (0x1760, 0), (0x176D, 6), (0x176E, 0), (0x1771, 6), (0x1772, 1), (0x1774, 6), (0x1780, 0), (0x17B4, 1), (0x17D4, 3),
    (0x17D7, 0), (0x17D8, 3), (0x17DB, 4), (0x17DC, 0), (0x17DD, 1), (0x17DE, 6), (0x17E0, 2), (0x17EA, 6), (0x17F0, 2), (0x17FA, 6),
    (0x1800, 3), (0x180B, 1), (0x180E, 6), (0x180F, 1), (0x1810, 2), (0x181A, 6), (0x1820, 0), (0x1879, 6), (0x1880, 0), (0x1885, 1),
    (0x1887, 0), (0x18A9, 1), (0x18AA, 0), (0x18AB, 6), (0x18B0, 0), (0x18F6, 6), (0x1900, 0), (0x191F, 6), (0x1920, 1), (0x192C, 6),
    (0x1930, 1), (0x193C, 6), (0x1940, 4), (0x1941, 6), (0x1944, 3), (0x1946, 2), (0x1950, 0), (0x196E, 6), (0x1970, 0), (0x1975, 6),
    (0x1980, 0), (0x19AC, 6), (0x19B0, 0), (0x19CA, 6), (0x19D0, 2), (0x19DB, 6), (0x19DE, 4), (0x1A00, 0), (0x1A17, 1), (0x1A1C, 6)]

def uniClassRuns8 : List (Nat × Nat) :=
  [(0x1A1E, 3), (0x1A20, 0), (0x1A55, 1), (0x1A5F, 6), (0x1A60, 1), (0x1A7D, 6), (0x1A7F, 1), (0x1A80, 2), (0x1A8A, 6), (0x1A90, 2),
    (0x1A9A, 6), (0x1AA0, 3), (0x1AA7, 0), (0x1AA8, 3), (0x1AAE, 6), (0x1AB0, 1), (0x1ACF, 6), (0x1B00, 1), (0x1B05, 0), (0x1B34, 1),
    (0x1B45, 0), (0x1B4D, 6), (0x1B50, 2), (0x1B5A, 3), (0x1B61, 4), (0x1B6B, 1), (0x1B74, 4), (0x1B7D, 3), (0x1B7F, 6), (0x1B80, 1),
    (0x1B83, 0), (0x1BA1, 1), (0x1BAE, 0), (0x1BB0, 2), (0x1BBA, 0), (0x1BE6, 1), (0x1BF4, 6), (0x1BFC, 3), (0x1C00, 0), (0x1C24, 1),
    (0x1C38, 6), (0x1C3B, 3), (0x1C40, 2), (0x1C4A, 6), (0x1C4D, 0), (0x1C50, 2), (0x1C5A, 0), (0x1C7E, 3), (0x1C80, 0), (0x1C89, 6),
    (0x1C90, 0), (0x1CBB, 6), (0x1CBD, 0), (0x1CC0, 3), (0x1CC8, 6), (0x1CD0, 1), (0x1CD3, 3), (0x1CD4, 1), (0x1CE9, 0), (0x1CED, 1),
    (0x1CEE, 0), (0x1CF4, 1), (0x1CF5, 0), (0x1CF7, 1), (0x1CFA, 0), (0x1CFB, 6), (0x1D00, 0), (0x1DC0, 1), (0x1E00, 0), (0x1F16, 6),
    (0x1F18, 0), (0x1F1E, 6), (0x1F20, 0), (0x1F46, 6), (0x1F48, 0), (0x1F4E, 6), (0x1F50, 0), (0x1F58, 6), (0x1F59, 0), (0x1F5A, 6),
    (0x1F5B, 0), (0x1F5C, 6), (0x1F5D, 0), (0x1F5E, 6), (0x1F5F, 0), (0x1F7E, 6), (0x1F80, 0), (0x1FB5, 6), (0x1FB6, 0), (0x1FBD, 4)]

def uniClassRuns9 : List (Nat × Nat) :=
  [(0x1FBE, 0), (0x1FBF, 4), (0x1FC2, 0), (0x1FC5, 6), (0x1FC6, 0), (0x1FCD, 4), (0x1FD0, 0), (0x1FD4, 6), (0x1FD6, 0), (0x1FDC, 6),
    (0x1FDD, 4), (0x1FE0, 0), (0x1FED, 4), (0x1FF0, 6), (0x1FF2, 0), (0x1FF5, 6), (0x1FF6, 0), (0x1FFD, 4), (0x1FFF, 6), (0x2000, 5),
    (0x200B, 6), (0x2010, 3), (0x2028, 5), (0x202A, 6), (0x202F, 5), (0x2030, 3), (0x2044, 4), (0x2045, 3), (0x2052, 4), (0x2053, 3),
    (0x205F, 5), (0x2060, 6), (0x2070, 2), (0x2071, 0), (0x2072, 6), (0x2074, 2), (0x207A, 4), (0x207D, 3), (0x207F, 0), (0x2080, 2),
    (0x208A, 4), (0x208D, 3), (0x208F, 6), (0x2090, 0), (0x209D, 6), (0x20A0, 4), (0x20C1, 6), (0x20D0, 1), (0x20F1, 6), (0x2100, 4),
    (0x2102, 0), (0x2103, 4), (0x2107, 0), (0x2108, 4), (0x210A, 0), (0x2114, 4), (0x2115, 0), (0x2116, 4), (0x2119, 0), (0x211E, 4),
    (0x2124, 0), (0x2125, 4), (0x2126, 0), (0x2127, 4), (0x2128, 0), (0x2129, 4), (0x212A, 0), (0x212E, 4), (0x212F, 0), (0x213A, 4),
    (0x213C, 0), (0x2140, 4), (0x2145, 0), (0x214A, 4), (0x214E, 0), (0x214F, 4), (0x2150, 2), (0x2183, 0), (0x2185, 2), (0x218A, 4),
    (0x218C, 6), (0x2190, 4), (0x2308, 3), (0x230C, 4), (0x2329, 3), (0x232B, 4), (0x2427, 6), (0x2440, 4), (0x244B, 6), (0x2460, 2)]

def uniClassRuns10 : List (Nat × Nat) :=
  [(0x249C, 4), (0x24EA, 2), (0x2500, 4), (0x2768, 3), (0x2776, 2), (0x2794, 4), (0x27C5, 3), (0x27C7, 4), (0x27E6, 3), (0x27F0, 4),
    (0x2983, 3), (0x2999, 4), (0x29D8, 3), (0x29DC, 4), (0x29FC, 3), (0x29FE, 4), (0x2B74, 6), (0x2B76, 4), (0x2B96, 6), (0x2B97, 4),
    (0x2C00, 0), (0x2CE5, 4), (0x2CEB, 0), (0x2CEF, 1), (0x2CF2, 0), (0x2CF4, 6), (0x2CF9, 3), (0x2CFD, 2), (0x2CFE, 3), (0x2D00, 0),
    (0x2D26, 6), (0x2D27, 0), (0x2D28, 6), (0x2D2D, 0), (0x2D2E, 6), (0x2D30, 0), (0x2D68, 6), (0x2D6F, 0), (0x2D70, 3), (0x2D71, 6),
    (0x2D7F, 1), (0x2D80, 0), (0x2D97, 6), (0x2DA0, 0), (0x2DA7, 6), (0x2DA8, 0), (0x2DAF, 6), (0x2DB0, 0), (0x2DB7, 6), (0x2DB8, 0),
    (0x2DBF, 6), (0x2DC0, 0), (0x2DC7, 6), (0x2DC8, 0), (0x2DCF, 6), (0x2DD0, 0), (0x2DD7, 6), (0x2DD8, 0), (0x2DDF, 6), (0x2DE0, 1),
    (0x2E00, 3), (0x2E2F, 0), (0x2E30, 3), (0x2E50, 4), (0x2E52, 3), (0x2E5E, 6), (0x2E80, 4), (0x2E9A, 6), (0x2E9B, 4), (0x2EF4, 6),
    (0x2F00, 4), (0x2FD6, 6), (0x2FF0, 4), (0x3000, 5), (0x3001, 3), (0x3004, 4), (0x3005, 0), (0x3007, 2), (0x3008, 3), (0x3012, 4),
    (0x3014, 3), (0x3020, 4), (0x3021, 2), (0x302A, 1), (0x3030, 3), (0x3031, 0), (0x3036, 4), (0x3038, 2), (0x303B, 0), (0x303D, 3)]

def uniClassRuns11 : List (Nat × Nat) :=
  [(0x303E, 4), (0x3040, 6), (0x3041, 0), (0x3097, 6), (0x3099, 1), (0x309B, 4), (0x309D, 0), (0x30A0, 3), (0x30A1, 0), (0x30FB, 3),
    (0x30FC, 0), (0x3100, 6), (0x3105, 0), (0x3130, 6), (0x3131, 0), (0x318F, 6), (0x3190, 4), (0x3192, 2), (0x3196, 4), (0x31A0, 0),
    (0x31C0, 4), (0x31E4, 6), (0x31EF, 4), (0x31F0, 0), (0x3200, 4), (0x321F, 6), (0x3220, 2), (0x322A, 4), (0x3248, 2), (0x3250, 4),
    (0x3251, 2), (0x3260, 4), (0x3280, 2), (0x328A, 4), (0x32B1, 2), (0x32C0, 4), (0x3400, 0), (0x4DC0, 4), (0x4E00, 0), (0xA48D, 6),
    (0xA490, 4), (0xA4C7, 6), (0xA4D0, 0), (0xA4FE, 3), (0xA500, 0), (0xA60D, 3), (0xA610, 0), (0xA620, 2), (0xA62A, 0), (0xA62C, 6),
    (0xA640, 0), (0xA66F, 1), (0xA673, 3), (0xA674, 1), (0xA67E, 3), (0xA67F, 0), (0xA69E, 1), (0xA6A0, 0), (0xA6E6, 2), (0xA6F0, 1),
    (0xA6F2, 3), (0xA6F8, 6), (0xA700, 4), (0xA717, 0), (0xA720, 4), (0xA722, 0), (0xA789, 4), (0xA78B, 0), (0xA7CB, 6), (0xA7D0, 0),
    (0xA7D2, 6), (0xA7D3, 0), (0xA7D4, 6), (0xA7D5, 0), (0xA7DA, 6), (0xA7F2, 0), (0xA802, 1), (0xA803, 0), (0xA806, 1), (0xA807, 0),
    (0xA80B, 1), (0xA80C, 0), (0xA823, 1), (0xA828, 4), (0xA82C, 1), (0xA82D, 6), (0xA830, 2), (0xA836, 4), (0xA83A, 6), (0xA840, 0)]

def uniClassRuns12 : List (Nat × Nat) :=
  [(0xA874, 3), (0xA878, 6), (0xA880, 1), (0xA882, 0), (0xA8B4, 1), (0xA8C6, 6), (0xA8CE, 3), (0xA8D0, 2), (0xA8DA, 6), (0xA8E0, 1),
    (0xA8F2, 0), (0xA8F8, 3), (0xA8FB, 0), (0xA8FC, 3), (0xA8FD, 0), (0xA8FF, 1), (0xA900, 2), (0xA90A, 0), (0xA926, 1), (0xA92E, 3),
    (0xA930, 0), (0xA947, 1), (0xA954, 6), (0xA95F, 3), (0xA960, 0), (0xA97D, 6), (0xA980, 1), (0xA984, 0), (0xA9B3, 1), (0xA9C1, 3),
    (0xA9CE, 6), (0xA9CF, 0), (0xA9D0, 2), (0xA9DA, 6), (0xA9DE, 3), (0xA9E0, 0), (0xA9E5, 1), (0xA9E6, 0), (0xA9F0, 2), (0xA9FA, 0),
    (0xA9FF, 6), (0xAA00, 0), (0xAA29, 1), (0xAA37, 6), (0xAA40, 0), (0xAA43, 1), (0xAA44, 0), (0xAA4C, 1), (0xAA4E, 6), (0xAA50, 2),
    (0xAA5A, 6), (0xAA5C, 3), (0xAA60, 0), (0xAA77, 4), (0xAA7A, 0), (0xAA7B, 1), (0xAA7E, 0), (0xAAB0, 1), (0xAAB1, 0), (0xAAB2, 1),
    (0xAAB5, 0), (0xAAB7, 1), (0xAAB9, 0), (0xAABE, 1), (0xAAC0, 0), (0xAAC1, 1), (0xAAC2, 0), (0xAAC3, 6), (0xAADB, 0), (0xAADE, 3),
    (0xAAE0, 0), (0xAAEB, 1), (0xAAF0, 3), (0xAAF2, 0), (0xAAF5, 1), (0xAAF7, 6), (0xAB01, 0), (0xAB07, 6), (0xAB09, 0), (0xAB0F, 6),
    (0xAB11, 0), (0xAB17, 6), (0xAB20, 0), (0xAB27, 6), (0xAB28, 0), (0xAB2F, 6), (0xAB30, 0), (0xAB5B, 4), (0xAB5C, 0), (0xAB6A, 4)]

def uniClassRuns13 : List (Nat × Nat) :=
  [(0xAB6C, 6), (0xAB70, 0), (0xABE3, 1), (0xABEB, 3), (0xABEC, 1), (0xABEE, 6), (0xABF0, 2), (0xABFA, 6), (0xAC00, 0), (0xD7A4, 6),
    (0xD7B0, 0), (0xD7C7, 6), (0xD7CB, 0), (0xD7FC, 6), (0xF900, 0), (0xFA6E, 6), (0xFA70, 0), (0xFADA, 6), (0xFB00, 0), (0xFB07, 6),
    (0xFB13, 0), (0xFB18, 6), (0xFB1D, 0), (0xFB1E, 1), (0xFB1F, 0), (0xFB29, 4), (0xFB2A, 0), (0xFB37, 6), (0xFB38, 0), (0xFB3D, 6),
    (0xFB3E, 0), (0xFB3F, 6), (0xFB40, 0), (0xFB42, 6), (0xFB43, 0), (0xFB45, 6), (0xFB46, 0), (0xFBB2, 4), (0xFBC3, 6), (0xFBD3, 0),
    (0xFD3E, 3), (0xFD40, 4), (0xFD50, 0), (0xFD90, 6), (0xFD92, 0), (0xFDC8, 6), (0xFDCF, 4), (0xFDD0, 6), (0xFDF0, 0), (0xFDFC, 4),
    (0xFE00, 1), (0xFE10, 3), (0xFE1A, 6), (0xFE20, 1), (0xFE30, 3), (0xFE53, 6), (0xFE54, 3), (0xFE62, 4), (0xFE63, 3), (0xFE64, 4),
    (0xFE67, 6), (0xFE68, 3), (0xFE69, 4), (0xFE6A, 3), (0xFE6C, 6), (0xFE70, 0), (0xFE75, 6), (0xFE76, 0), (0xFEFD, 6), (0xFF01, 3),
    (0xFF04, 4), (0xFF05, 3), (0xFF0B, 4), (0xFF0C, 3), (0xFF10, 2), (0xFF1A, 3), (0xFF1C, 4), (0xFF1F, 3), (0xFF21, 0), (0xFF3B, 3),
    (0xFF3E, 4), (0xFF3F, 3), (0xFF40, 4), (0xFF41, 0), (0xFF5B, 3), (0xFF5C, 4), (0xFF5D, 3), (0xFF5E, 4), (0xFF5F, 3), (0xFF66, 0)]

def uniClassRuns14 : List (Nat × Nat) :=
  [(0xFFBF, 6), (0xFFC2, 0), (0xFFC8, 6), (0xFFCA, 0), (0xFFD0, 6), (0xFFD2, 0), (0xFFD8, 6), (0xFFDA, 0), (0xFFDD, 6), (0xFFE0, 4),
    (0xFFE7, 6), (0xFFE8, 4), (0xFFEF, 6), (0xFFFC, 4), (0xFFFE, 6), (0x10000, 0), (0x1000C, 6), (0x1000D, 0), (0x10027, 6),
    (0x10028, 0), (0x1003B, 6), (0x1003C, 0), (0x1003E, 6), (0x1003F, 0), (0x1004E, 6), (0x10050, 0), (0x1005E, 6), (0x10080, 0),
    (0x100FB, 6), (0x10100, 3), (0x10103, 6), (0x10107, 2), (0x10134, 6), (0x10137, 4), (0x10140, 2), (0x10179, 4), (0x1018A, 2),
    (0x1018C, 4), (0x1018F, 6), (0x10190, 4), (0x1019D, 6), (0x101A0, 4), (0x101A1, 6), (0x101D0, 4), (0x101FD, 1), (0x101FE, 6),
    (0x10280, 0), (0x1029D, 6), (0x102A0, 0), (0x102D1, 6), (0x102E0, 1), (0x102E1, 2), (0x102FC, 6), (0x10300, 0), (0x10320, 2),
    (0x10324, 6), (0x1032D, 0), (0x10341, 2), (0x10342, 0), (0x1034A, 2), (0x1034B, 6), (0x10350, 0), (0x10376, 1), (0x1037B, 6),
    (0x10380, 0), (0x1039E, 6), (0x1039F, 3), (0x103A0, 0), (0x103C4, 6), (0x103C8, 0), (0x103D0, 3), (0x103D1, 2), (0x103D6, 6),
    (0x10400, 0), (0x1049E, 6), (0x104A0, 2), (0x104AA, 6), (0x104B0, 0), (0x104D4, 6), (0x104D8, 0), (0x104FC, 6), (0x10500, 0),
    (0x10528, 6), (0x10530, 0), (0x10564, 6), (0x1056F, 3), (0x10570, 0), (0x1057B, 6), (0x1057C, 0), (0x1058B, 6)]

def uniClassRuns15 : List (Nat × Nat) :=
  [(0x1058C, 0), (0x10593, 6), (0x10594, 0), (0x10596, 6), (0x10597, 0), (0x105A2, 6), (0x105A3, 0), (0x105B2, 6), (0x105B3, 0),
    (0x105BA, 6), (0x105BB, 0), (0x105BD, 6), (0x10600, 0), (0x10737, 6), (0x10740, 0), (0x10756, 6), (0x10760, 0), (0x10768, 6),
    (0x10780, 0), (0x10786, 6), (0x10787, 0), (0x107B1, 6), (0x107B2, 0), (0x107BB, 6), (0x10800, 0), (0x10806, 6), (0x10808, 0),
    (0x10809, 6), (0x1080A, 0), (0x10836, 6), (0x10837, 0), (0x10839, 6), (0x1083C, 0), (0x1083D, 6), (0x1083F, 0), (0x10856, 6),
    (0x10857, 3), (0x10858, 2), (0x10860, 0), (0x10877, 4), (0x10879, 2), (0x10880, 0), (0x1089F, 6), (0x108A7, 2), (0x108B0, 6),
    (0x108E0, 0), (0x108F3, 6), (0x108F4, 0), (0x108F6, 6), (0x108FB, 2), (0x10900, 0), (0x10916, 2), (0x1091C, 6), (0x1091F, 3),
    (0x10920, 0), (0x1093A, 6), (0x1093F, 3), (0x10940, 6), (0x10980, 0), (0x109B8, 6), (0x109BC, 2), (0x109BE, 0), (0x109C0, 2),
    (0x109D0, 6), (0x109D2, 2), (0x10A00, 0), (0x10A01, 1), (0x10A04, 6), (0x10A05, 1), (0x10A07, 6), (0x10A0C, 1), (0x10A10, 0),
    (0x10A14, 6), (0x10A15, 0), (0x10A18, 6), (0x10A19, 0), (0x10A36, 6), (0x10A38, 1), (0x10A3B, 6), (0x10A3F, 1), (0x10A40, 2),
    (0x10A49, 6), (0x10A50, 3), (0x10A59, 6), (0x10A60, 0), (0x10A7D, 2), (0x10A7F, 3), (0x10A80, 0), (0x10A9D, 2), (0x10AA0, 6)]

def uniClassRuns16 : List (Nat × Nat) :=
  [(0x10AC0, 0), (0x10AC8, 4), (0x10AC9, 0), (0x10AE5, 1), (0x10AE7, 6), (0x10AEB, 2), (0x10AF0, 3), (0x10AF7, 6), (0x10B00, 0),
    (0x10B36, 6), (0x10B39, 3), (0x10B40, 0), (0x10B56, 6), (0x10B58, 2), (0x10B60, 0), (0x10B73, 6), (0x10B78, 2), (0x10B80, 0),
    (0x10B92, 6), (0x10B99, 3), (0x10B9D, 6), (0x10BA9, 2), (0x10BB0, 6), (0x10C00, 0), (0x10C49, 6), (0x10C80, 0), (0x10CB3, 6),
    (0x10CC0, 0), (0x10CF3, 6), (0x10CFA, 2), (0x10D00, 0), (0x10D24, 1), (0x10D28, 6), (0x10D30, 2), (0x10D3A, 6), (0x10E60, 2),
    (0x10E7F, 6), (0x10E80, 0), (0x10EAA, 6), (0x10EAB, 1), (0x10EAD, 3), (0x10EAE, 6), (0x10EB0, 0), (0x10EB2, 6), (0x10EFD, 1),
    (0x10F00, 0), (0x10F1D, 2), (0x10F27, 0), (0x10F28, 6), (0x10F30, 0), (0x10F46, 1), (0x10F51, 2), (0x10F55, 3), (0x10F5A, 6),
    (0x10F70, 0), (0x10F82, 1), (0x10F86, 3), (0x10F8A, 6), (0x10FB0, 0), (0x10FC5, 2), (0x10FCC, 6), (0x10FE0, 0), (0x10FF7, 6),
    (0x11000, 1), (0x11003, 0), (0x11038, 1), (0x11047, 3), (0x1104E, 6), (0x11052, 2), (0x11070, 1), (0x11071, 0), (0x11073, 1),
    (0x11075, 0), (0x11076, 6), (0x1107F, 1), (0x11083, 0), (0x110B0, 1), (0x110BB, 3), (0x110BD, 6), (0x110BE, 3), (0x110C2, 1),
    (0x110C3, 6), (0x110D0, 0), (0x110E9, 6), (0x110F0, 2), (0x110FA, 6), (0x11100, 1), (0x11103, 0), (0x11127, 1), (0x11135, 6)]

def uniClassRuns17 : List (Nat × Nat) :=
  [(0x11136, 2), (0x11140, 3), (0x11144, 0), (0x11145, 1), (0x11147, 0), (0x11148, 6), (0x11150, 0), (0x11173, 1), (0x11174, 3),
    (0x11176, 0), (0x11177, 6), (0x11180, 1), (0x11183, 0), (0x111B3, 1), (0x111C1, 0), (0x111C5, 3), (0x111C9, 1), (0x111CD, 3),
    (0x111CE, 1), (0x111D0, 2), (0x111DA, 0), (0x111DB, 3), (0x111DC, 0), (0x111DD, 3), (0x111E0, 6), (0x111E1, 2), (0x111F5, 6),
    (0x11200, 0), (0x11212, 6), (0x11213, 0), (0x1122C, 1), (0x11238, 3), (0x1123E, 1), (0x1123F, 0), (0x11241, 1), (0x11242, 6),
    (0x11280, 0), (0x11287, 6), (0x11288, 0), (0x11289, 6), (0x1128A, 0), (0x1128E, 6), (0x1128F, 0), (0x1129E, 6), (0x1129F, 0),
    (0x112A9, 3), (0x112AA, 6), (0x112B0, 0), (0x112DF, 1), (0x112EB, 6), (0x112F0, 2), (0x112FA, 6), (0x11300, 1), (0x11304, 6),
    (0x11305, 0), (0x1130D, 6), (0x1130F, 0), (0x11311, 6), (0x11313, 0), (0x11329, 6), (0x1132A, 0), (0x11331, 6), (0x11332, 0),
    (0x11334, 6), (0x11335, 0), (0x1133A, 6), (0x1133B, 1), (0x1133D, 0), (0x1133E, 1), (0x11345, 6), (0x11347, 1), (0x11349, 6),
    (0x1134B, 1), (0x1134E, 6), (0x11350, 0), (0x11351, 6), (0x11357, 1), (0x11358, 6), (0x1135D, 0), (0x11362, 1), (0x11364, 6),
    (0x11366, 1), (0x1136D, 6), (0x11370, 1), (0x11375, 6), (0x11400, 0), (0x11435, 1), (0x11447, 0), (0x1144B, 3), (0x11450, 2)]

def uniClassRuns18 : List (Nat × Nat) :=
  [(0x1145A, 3), (0x1145C, 6), (0x1145D, 3), (0x1145E, 1), (0x1145F, 0), (0x11462, 6), (0x11480, 0), (0x114B0, 1), (0x114C4, 0),
    (0x114C6, 3), (0x114C7, 0), (0x114C8, 6), (0x114D0, 2), (0x114DA, 6), (0x11580, 0), (0x115AF, 1), (0x115B6, 6), (0x115B8, 1),
    (0x115C1, 3), (0x115D8, 0), (0x115DC, 1), (0x115DE, 6), (0x11600, 0), (0x11630, 1), (0x11641, 3), (0x11644, 0), (0x11645, 6),
    (0x11650, 2), (0x1165A, 6), (0x11660, 3), (0x1166D, 6), (0x11680, 0), (0x116AB, 1), (0x116B8, 0), (0x116B9, 3), (0x116BA, 6),
    (0x116C0, 2), (0x116CA, 6), (0x11700, 0), (0x1171B, 6), (0x1171D, 1), (0x1172C, 6), (0x11730, 2), (0x1173C, 3), (0x1173F, 4),
    (0x11740, 0), (0x11747, 6), (0x11800, 0), (0x1182C, 1), (0x1183B, 3), (0x1183C, 6), (0x118A0, 0), (0x118E0, 2), (0x118F3, 6),
    (0x118FF, 0), (0x11907, 6), (0x11909, 0), (0x1190A, 6), (0x1190C, 0), (0x11914, 6), (0x11915, 0), (0x11917, 6), (0x11918, 0),
    (0x11930, 1), (0x11936, 6), (0x11937, 1), (0x11939, 6), (0x1193B, 1), (0x1193F, 0), (0x11940, 1), (0x11941, 0), (0x11942, 1),
    (0x11944, 3), (0x11947, 6), (0x11950, 2), (0x1195A, 6), (0x119A0, 0), (0x119A8, 6), (0x119AA, 0), (0x119D1, 1), (0x119D8, 6),
    (0x119DA, 1), (0x119E1, 0), (0x119E2, 3), (0x119E3, 0), (0x119E4, 1), (0x119E5, 6), (0x11A00, 0), (0x11A01, 1), (0x11A0B, 0)]

def uniClassRuns19 : List (Nat × Nat) :=
  [(0x11A33, 1), (0x11A3A, 0), (0x11A3B, 1), (0x11A3F, 3), (0x11A47, 1), (0x11A48, 6), (0x11A50, 0), (0x11A51, 1), (0x11A5C, 0),
    (0x11A8A, 1), (0x11A9A, 3), (0x11A9D, 0), (0x11A9E, 3), (0x11AA3, 6), (0x11AB0, 0), (0x11AF9, 6), (0x11B00, 3), (0x11B0A, 6),
    (0x11C00, 0), (0x11C09, 6), (0x11C0A, 0), (0x11C2F, 1), (0x11C37, 6), (0x11C38, 1), (0x11C40, 0), (0x11C41, 3), (0x11C46, 6),
    (0x11C50, 2), (0x11C6D, 6), (0x11C70, 3), (0x11C72, 0), (0x11C90, 6), (0x11C92, 1), (0x11CA8, 6), (0x11CA9, 1), (0x11CB7, 6),
    (0x11D00, 0), (0x11D07, 6), (0x11D08, 0), (0x11D0A, 6), (0x11D0B, 0), (0x11D31, 1), (0x11D37, 6), (0x11D3A, 1), (0x11D3B, 6),
    (0x11D3C, 1), (0x11D3E, 6), (0x11D3F, 1), (0x11D46, 0), (0x11D47, 1), (0x11D48, 6), (0x11D50, 2), (0x11D5A, 6), (0x11D60, 0),
    (0x11D66, 6), (0x11D67, 0), (0x11D69, 6), (0x11D6A, 0), (0x11D8A, 1), (0x11D8F, 6), (0x11D90, 1), (0x11D92, 6), (0x11D93, 1),
    (0x11D98, 0), (0x11D99, 6), (0x11DA0, 2), (0x11DAA, 6), (0x11EE0, 0), (0x11EF3, 1), (0x11EF7, 3), (0x11EF9, 6), (0x11F00, 1),
    (0x11F02, 0), (0x11F03, 1), (0x11F04, 0), (0x11F11, 6), (0x11F12, 0), (0x11F34, 1), (0x11F3B, 6), (0x11F3E, 1), (0x11F43, 3),
    (0x11F50, 2), (0x11F5A, 6), (0x11FB0, 0), (0x11FB1, 6), (0x11FC0, 2), (0x11FD5, 4), (0x11FF2, 6), (0x11FFF, 3), (0x12000, 0)]

def uniClassRuns20 : List (Nat × Nat) :=
  [(0x1239A, 6), (0x12400, 2), (0x1246F, 6), (0x12470, 3), (0x12475, 6), (0x12480, 0), (0x12544, 6), (0x12F90, 0), (0x12FF1, 3),
    (0x12FF3, 6), (0x13000, 0), (0x13430, 6), (0x13440, 1), (0x13441, 0), (0x13447, 1), (0x13456, 6), (0x14400, 0), (0x14647, 6),
    (0x16800, 0), (0x16A39, 6), (0x16A40, 0), (0x16A5F, 6), (0x16A60, 2), (0x16A6A, 6), (0x16A6E, 3), (0x16A70, 0), (0x16ABF, 6),
    (0x16AC0, 2), (0x16ACA, 6), (0x16AD0, 0), (0x16AEE, 6), (0x16AF0, 1), (0x16AF5, 3), (0x16AF6, 6), (0x16B00, 0), (0x16B30, 1),
    (0x16B37, 3), (0x16B3C, 4), (0x16B40, 0), (0x16B44, 3), (0x16B45, 4), (0x16B46, 6), (0x16B50, 2), (0x16B5A, 6), (0x16B5B, 2),
    (0x16B62, 6), (0x16B63, 0), (0x16B78, 6), (0x16B7D, 0), (0x16B90, 6), (0x16E40, 0), (0x16E80, 2), (0x16E97, 3), (0x16E9B, 6),
    (0x16F00, 0), (0x16F4B, 6), (0x16F4F, 1), (0x16F50, 0), (0x16F51, 1), (0x16F88, 6), (0x16F8F, 1), (0x16F93, 0), (0x16FA0, 6),
    (0x16FE0, 0), (0x16FE2, 3), (0x16FE3, 0), (0x16FE4, 1), (0x16FE5, 6), (0x16FF0, 1), (0x16FF2, 6), (0x17000, 0), (0x187F8, 6),
    (0x18800, 0), (0x18CD6, 6), (0x18D00, 0), (0x18D09, 6), (0x1AFF0, 0), (0x1AFF4, 6), (0x1AFF5, 0), (0x1AFFC, 6), (0x1AFFD, 0),
    (0x1AFFF, 6), (0x1B000, 0), (0x1B123, 6), (0x1B132, 0), (0x1B133, 6), (0x1B150, 0), (0x1B153, 6), (0x1B155, 0), (0x1B156, 6)]

def uniClassRuns21 : List (Nat × Nat) :=
  [(0x1B164, 0), (0x1B168, 6), (0x1B170, 0), (0x1B2FC, 6), (0x1BC00, 0), (0x1BC6B, 6), (0x1BC70, 0), (0x1BC7D, 6), (0x1BC80, 0),
    (0x1BC89, 6), (0x1BC90, 0), (0x1BC9A, 6), (0x1BC9C, 4), (0x1BC9D, 1), (0x1BC9F, 3), (0x1BCA0, 6), (0x1CF00, 1), (0x1CF2E, 6),
    (0x1CF30, 1), (0x1CF47, 6), (0x1CF50, 4), (0x1CFC4, 6), (0x1D000, 4), (0x1D0F6, 6), (0x1D100, 4), (0x1D127, 6), (0x1D129, 4),
    (0x1D165, 1), (0x1D16A, 4), (0x1D16D, 1), (0x1D173, 6), (0x1D17B, 1), (0x1D183, 4), (0x1D185, 1), (0x1D18C, 4), (0x1D1AA, 1),
    (0x1D1AE, 4), (0x1D1EB, 6), (0x1D200, 4), (0x1D242, 1), (0x1D245, 4), (0x1D246, 6), (0x1D2C0, 2), (0x1D2D4, 6), (0x1D2E0, 2),
    (0x1D2F4, 6), (0x1D300, 4), (0x1D357, 6), (0x1D360, 2), (0x1D379, 6), (0x1D400, 0), (0x1D455, 6), (0x1D456, 0), (0x1D49D, 6),
    (0x1D49E, 0), (0x1D4A0, 6), (0x1D4A2, 0), (0x1D4A3, 6), (0x1D4A5, 0), (0x1D4A7, 6), (0x1D4A9, 0), (0x1D4AD, 6), (0x1D4AE, 0),
    (0x1D4BA, 6), (0x1D4BB, 0), (0x1D4BC, 6), (0x1D4BD, 0), (0x1D4C4, 6), (0x1D4C5, 0), (0x1D506, 6), (0x1D507, 0), (0x1D50B, 6),
    (0x1D50D, 0), (0x1D515, 6), (0x1D516, 0), (0x1D51D, 6), (0x1D51E, 0), (0x1D53A, 6), (0x1D53B, 0), (0x1D53F, 6), (0x1D540, 0),
    (0x1D545, 6), (0x1D546, 0), (0x1D547, 6), (0x1D54A, 0), (0x1D551, 6), (0x1D552, 0), (0x1D6A6, 6), (0x1D6A8, 0), (0x1D6C1, 4)]

def uniClassRuns22 : List (Nat × Nat) :=
  [(0x1D6C2, 0), (0x1D6DB, 4), (0x1D6DC, 0), (0x1D6FB, 4), (0x1D6FC, 0), (0x1D715, 4), (0x1D716, 0), (0x1D735, 4), (0x1D736, 0),
    (0x1D74F, 4), (0x1D750, 0), (0x1D76F, 4), (0x1D770, 0), (0x1D789, 4), (0x1D78A, 0), (0x1D7A9, 4), (0x1D7AA, 0), (0x1D7C3, 4),
    (0x1D7C4, 0), (0x1D7CC, 6), (0x1D7CE, 2), (0x1D800, 4), (0x1DA00, 1), (0x1DA37, 4), (0x1DA3B, 1), (0x1DA6D, 4), (0x1DA75, 1),
    (0x1DA76, 4), (0x1DA84, 1), (0x1DA85, 4), (0x1DA87, 3), (0x1DA8C, 6), (0x1DA9B, 1), (0x1DAA0, 6), (0x1DAA1, 1), (0x1DAB0, 6),
    (0x1DF00, 0), (0x1DF1F, 6), (0x1DF25, 0), (0x1DF2B, 6), (0x1E000, 1), (0x1E007, 6), (0x1E008, 1), (0x1E019, 6), (0x1E01B, 1),
    (0x1E022, 6), (0x1E023, 1), (0x1E025, 6), (0x1E026, 1), (0x1E02B, 6), (0x1E030, 0), (0x1E06E, 6), (0x1E08F, 1), (0x1E090, 6),
    (0x1E100, 0), (0x1E12D, 6), (0x1E130, 1), (0x1E137, 0), (0x1E13E, 6), (0x1E140, 2), (0x1E14A, 6), (0x1E14E, 0), (0x1E14F, 4),
    (0x1E150, 6), (0x1E290, 0), (0x1E2AE, 1), (0x1E2AF, 6), (0x1E2C0, 0), (0x1E2EC, 1), (0x1E2F0, 2), (0x1E2FA, 6), (0x1E2FF, 4),
    (0x1E300, 6), (0x1E4D0, 0), (0x1E4EC, 1), (0x1E4F0, 2), (0x1E4FA, 6), (0x1E7E0, 0), (0x1E7E7, 6), (0x1E7E8, 0), (0x1E7EC, 6),
    (0x1E7ED, 0), (0x1E7EF, 6), (0x1E7F0, 0), (0x1E7FF, 6), (0x1E800, 0), (0x1E8C5, 6), (0x1E8C7, 2), (0x1E8D0, 1), (0x1E8D7, 6)]

def uniClassRuns23 : List (Nat × Nat) :=
  [(0x1E900, 0), (0x1E944, 1), (0x1E94B, 0), (0x1E94C, 6), (0x1E950, 2), (0x1E95A, 6), (0x1E95E, 3), (0x1E960, 6), (0x1EC71, 2),
    (0x1ECAC, 4), (0x1ECAD, 2), (0x1ECB0, 4), (0x1ECB1, 2), (0x1ECB5, 6), (0x1ED01, 2), (0x1ED2E, 4), (0x1ED2F, 2), (0x1ED3E, 6),
    (0x1EE00, 0), (0x1EE04, 6), (0x1EE05, 0), (0x1EE20, 6), (0x1EE21, 0), (0x1EE23, 6), (0x1EE24, 0), (0x1EE25, 6), (0x1EE27, 0),
    (0x1EE28, 6), (0x1EE29, 0), (0x1EE33, 6), (0x1EE34, 0), (0x1EE38, 6), (0x1EE39, 0), (0x1EE3A, 6), (0x1EE3B, 0), (0x1EE3C, 6),
    (0x1EE42, 0), (0x1EE43, 6), (0x1EE47, 0), (0x1EE48, 6), (0x1EE49, 0), (0x1EE4A, 6), (0x1EE4B, 0), (0x1EE4C, 6), (0x1EE4D, 0),
    (0x1EE50, 6), (0x1EE51, 0), (0x1EE53, 6), (0x1EE54, 0), (0x1EE55, 6), (0x1EE57, 0), (0x1EE58, 6), (0x1EE59, 0), (0x1EE5A, 6),
    (0x1EE5B, 0), (0x1EE5C, 6), (0x1EE5D, 0), (0x1EE5E, 6), (0x1EE5F, 0), (0x1EE60, 6), (0x1EE61, 0), (0x1EE63, 6), (0x1EE64, 0),
    (0x1EE65, 6), (0x1EE67, 0), (0x1EE6B, 6), (0x1EE6C, 0), (0x1EE73, 6), (0x1EE74, 0), (0x1EE78, 6), (0x1EE79, 0), (0x1EE7D, 6),
    (0x1EE7E, 0), (0x1EE7F, 6), (0x1EE80, 0), (0x1EE8A, 6), (0x1EE8B, 0), (0x1EE9C, 6), (0x1EEA1, 0), (0x1EEA4, 6), (0x1EEA5, 0),
    (0x1EEAA, 6), (0x1EEAB, 0), (0x1EEBC, 6), (0x1EEF0, 4), (0x1EEF2, 6), (0x1F000, 4), (0x1F02C, 6), (0x1F030, 4), (0x1F094, 6)]

def uniClassRuns24 : List (Nat × Nat) :=
  [(0x1F0A0, 4), (0x1F0AF, 6), (0x1F0B1, 4), (0x1F0C0, 6), (0x1F0C1, 4), (0x1F0D0, 6), (0x1F0D1, 4), (0x1F0F6, 6), (0x1F100, 2),
    (0x1F10D, 4), (0x1F1AE, 6), (0x1F1E6, 4), (0x1F203, 6), (0x1F210, 4), (0x1F23C, 6), (0x1F240, 4), (0x1F249, 6), (0x1F250, 4),
    (0x1F252, 6), (0x1F260, 4), (0x1F266, 6), (0x1F300, 4), (0x1F6D8, 6), (0x1F6DC, 4), (0x1F6ED, 6), (0x1F6F0, 4), (0x1F6FD, 6),
    (0x1F700, 4), (0x1F777, 6), (0x1F77B, 4), (0x1F7DA, 6), (0x1F7E0, 4), (0x1F7EC, 6), (0x1F7F0, 4), (0x1F7F1, 6), (0x1F800, 4),
    (0x1F80C, 6), (0x1F810, 4), (0x1F848, 6), (0x1F850, 4), (0x1F85A, 6), (0x1F860, 4), (0x1F888, 6), (0x1F890, 4), (0x1F8AE, 6),
    (0x1F8B0, 4), (0x1F8B2, 6), (0x1F900, 4), (0x1FA54, 6), (0x1FA60, 4), (0x1FA6E, 6), (0x1FA70, 4), (0x1FA7D, 6), (0x1FA80, 4),
    (0x1FA89, 6), (0x1FA90, 4), (0x1FABE, 6), (0x1FABF, 4), (0x1FAC6, 6), (0x1FACE, 4), (0x1FADC, 6), (0x1FAE0, 4), (0x1FAE9, 6),
    (0x1FAF0, 4), (0x1FAF9, 6), (0x1FB00, 4), (0x1FB93, 6), (0x1FB94, 4), (0x1FBCB, 6), (0x1FBF0, 2), (0x1FBFA, 6), (0x20000, 0),
    (0x2A6E0, 6), (0x2A700, 0), (0x2B73A, 6), (0x2B740, 0), (0x2B81E, 6), (0x2B820, 0), (0x2CEA2, 6), (0x2CEB0, 0), (0x2EBE1, 6),
    (0x2EBF0, 0), (0x2EE5E, 6), (0x2F800, 0), (0x2FA1E, 6), (0x30000, 0), (0x3134B, 6), (0x31350, 0), (0x323B0, 6), (0xE0100, 1)]

def uniClassRuns25 : List (Nat × Nat) :=
  [(0xE01F0, 6)]

/-- Where the major class of General_Category changes: first code point and class, 0 to 6 for L, M, N, P, S, Z and C (R376). -/
def uniClassRuns : List (Nat × Nat) :=
  uniClassRuns0 ++ uniClassRuns1 ++ uniClassRuns2 ++ uniClassRuns3 ++ uniClassRuns4 ++ uniClassRuns5 ++ uniClassRuns6 ++
    uniClassRuns7 ++ uniClassRuns8 ++ uniClassRuns9 ++ uniClassRuns10 ++ uniClassRuns11 ++ uniClassRuns12 ++ uniClassRuns13 ++
    uniClassRuns14 ++ uniClassRuns15 ++ uniClassRuns16 ++ uniClassRuns17 ++ uniClassRuns18 ++ uniClassRuns19 ++ uniClassRuns20 ++
    uniClassRuns21 ++ uniClassRuns22 ++ uniClassRuns23 ++ uniClassRuns24 ++ uniClassRuns25

def uniCccRuns0 : List (Nat × Nat) :=
  [(0x300, 230), (0x315, 232), (0x316, 220), (0x31A, 232), (0x31B, 216), (0x31C, 220), (0x321, 202), (0x323, 220), (0x327, 202),
    (0x329, 220), (0x334, 1), (0x339, 220), (0x33D, 230), (0x345, 240), (0x346, 230), (0x347, 220), (0x34A, 230), (0x34D, 220),
    (0x34F, 0), (0x350, 230), (0x353, 220), (0x357, 230), (0x358, 232), (0x359, 220), (0x35B, 230), (0x35C, 233), (0x35D, 234),
    (0x35F, 233), (0x360, 234), (0x362, 233), (0x363, 230), (0x370, 0), (0x483, 230), (0x488, 0), (0x591, 220), (0x592, 230),
    (0x596, 220), (0x597, 230), (0x59A, 222), (0x59B, 220), (0x59C, 230), (0x5A2, 220), (0x5A8, 230), (0x5AA, 220), (0x5AB, 230),
    (0x5AD, 222), (0x5AE, 228), (0x5AF, 230), (0x5B0, 10), (0x5B1, 11), (0x5B2, 12), (0x5B3, 13), (0x5B4, 14), (0x5B5, 15), (0x5B6, 16),
    (0x5B7, 17), (0x5B8, 18), (0x5B9, 19), (0x5BB, 20), (0x5BC, 21), (0x5BD, 22), (0x5BE, 0), (0x5BF, 23), (0x5C0, 0), (0x5C1, 24),
    (0x5C2, 25), (0x5C3, 0), (0x5C4, 230), (0x5C5, 220), (0x5C6, 0), (0x5C7, 18), (0x5C8, 0), (0x610, 230), (0x618, 30), (0x619, 31),
    (0x61A, 32), (0x61B, 0), (0x64B, 27), (0x64C, 28), (0x64D, 29), (0x64E, 30), (0x64F, 31), (0x650, 32), (0x651, 33), (0x652, 34),
    (0x653, 230), (0x655, 220), (0x657, 230), (0x65C, 220), (0x65D, 230)]

def uniCccRuns1 : List (Nat × Nat) :=
  [(0x65F, 220), (0x660, 0), (0x670, 35), (0x671, 0), (0x6D6, 230), (0x6DD, 0), (0x6DF, 230), (0x6E3, 220), (0x6E4, 230), (0x6E5, 0),
    (0x6E7, 230), (0x6E9, 0), (0x6EA, 220), (0x6EB, 230), (0x6ED, 220), (0x6EE, 0), (0x711, 36), (0x712, 0), (0x730, 230), (0x731, 220),
    (0x732, 230), (0x734, 220), (0x735, 230), (0x737, 220), (0x73A, 230), (0x73B, 220), (0x73D, 230), (0x73E, 220), (0x73F, 230),
    (0x742, 220), (0x743, 230), (0x744, 220), (0x745, 230), (0x746, 220), (0x747, 230), (0x748, 220), (0x749, 230), (0x74B, 0),
    (0x7EB, 230), (0x7F2, 220), (0x7F3, 230), (0x7F4, 0), (0x7FD, 220), (0x7FE, 0), (0x816, 230), (0x81A, 0), (0x81B, 230), (0x824, 0),
    (0x825, 230), (0x828, 0), (0x829, 230), (0x82E, 0), (0x859, 220), (0x85C, 0), (0x898, 230), (0x899, 220), (0x89C, 230), (0x8A0, 0),
    (0x8CA, 230), (0x8CF, 220), (0x8D4, 230), (0x8E2, 0), (0x8E3, 220), (0x8E4, 230), (0x8E6, 220), (0x8E7, 230), (0x8E9, 220),
    (0x8EA, 230), (0x8ED, 220), (0x8F0, 27), (0x8F1, 28), (0x8F2, 29), (0x8F3, 230), (0x8F6, 220), (0x8F7, 230), (0x8F9, 220),
    (0x8FB, 230), (0x900, 0), (0x93C, 7), (0x93D, 0), (0x94D, 9), (0x94E, 0), (0x951, 230), (0x952, 220), (0x953, 230), (0x955, 0),
    (0x9BC, 7), (0x9BD, 0), (0x9CD, 9), (0x9CE, 0)]

def uniCccRuns2 : List (Nat × Nat) :=
  [(0x9FE, 230), (0x9FF, 0), (0xA3C, 7), (0xA3D, 0), (0xA4D, 9), (0xA4E, 0), (0xABC, 7), (0xABD, 0), (0xACD, 9), (0xACE, 0), (0xB3C, 7),
    (0xB3D, 0), (0xB4D, 9), (0xB4E, 0), (0xBCD, 9), (0xBCE, 0), (0xC3C, 7), (0xC3D, 0), (0xC4D, 9), (0xC4E, 0), (0xC55, 84), (0xC56, 91),
    (0xC57, 0), (0xCBC, 7), (0xCBD, 0), (0xCCD, 9), (0xCCE, 0), (0xD3B, 9), (0xD3D, 0), (0xD4D, 9), (0xD4E, 0), (0xDCA, 9), (0xDCB, 0),
    (0xE38, 103), (0xE3A, 9), (0xE3B, 0), (0xE48, 107), (0xE4C, 0), (0xEB8, 118), (0xEBA, 9), (0xEBB, 0), (0xEC8, 122), (0xECC, 0),
    (0xF18, 220), (0xF1A, 0), (0xF35, 220), (0xF36, 0), (0xF37, 220), (0xF38, 0), (0xF39, 216), (0xF3A, 0), (0xF71, 129), (0xF72, 130),
    (0xF73, 0), (0xF74, 132), (0xF75, 0), (0xF7A, 130), (0xF7E, 0), (0xF80, 130), (0xF81, 0), (0xF82, 230), (0xF84, 9), (0xF85, 0),
    (0xF86, 230), (0xF88, 0), (0xFC6, 220), (0xFC7, 0), (0x1037, 7), (0x1038, 0), (0x1039, 9), (0x103B, 0), (0x108D, 220), (0x108E, 0),
    (0x135D, 230), (0x1360, 0), (0x1714, 9), (0x1716, 0), (0x1734, 9), (0x1735, 0), (0x17D2, 9), (0x17D3, 0), (0x17DD, 230), (0x17DE, 0),
    (0x18A9, 228), (0x18AA, 0), (0x1939, 222), (0x193A, 230), (0x193B, 220), (0x193C, 0), (0x1A17, 230)]

def uniCccRuns3 : List (Nat × Nat) :=
  [(0x1A18, 220), (0x1A19, 0), (0x1A60, 9), (0x1A61, 0), (0x1A75, 230), (0x1A7D, 0), (0x1A7F, 220), (0x1A80, 0), (0x1AB0, 230),
    (0x1AB5, 220), (0x1ABB, 230), (0x1ABD, 220), (0x1ABE, 0), (0x1ABF, 220), (0x1AC1, 230), (0x1AC3, 220), (0x1AC5, 230), (0x1ACA, 220),
    (0x1ACB, 230), (0x1ACF, 0), (0x1B34, 7), (0x1B35, 0), (0x1B44, 9), (0x1B45, 0), (0x1B6B, 230), (0x1B6C, 220), (0x1B6D, 230),
    (0x1B74, 0), (0x1BAA, 9), (0x1BAC, 0), (0x1BE6, 7), (0x1BE7, 0), (0x1BF2, 9), (0x1BF4, 0), (0x1C37, 7), (0x1C38, 0), (0x1CD0, 230),
    (0x1CD3, 0), (0x1CD4, 1), (0x1CD5, 220), (0x1CDA, 230), (0x1CDC, 220), (0x1CE0, 230), (0x1CE1, 0), (0x1CE2, 1), (0x1CE9, 0),
    (0x1CED, 220), (0x1CEE, 0), (0x1CF4, 230), (0x1CF5, 0), (0x1CF8, 230), (0x1CFA, 0), (0x1DC0, 230), (0x1DC2, 220), (0x1DC3, 230),
    (0x1DCA, 220), (0x1DCB, 230), (0x1DCD, 234), (0x1DCE, 214), (0x1DCF, 220), (0x1DD0, 202), (0x1DD1, 230), (0x1DF6, 232),
    (0x1DF7, 228), (0x1DF9, 220), (0x1DFA, 218), (0x1DFB, 230), (0x1DFC, 233), (0x1DFD, 220), (0x1DFE, 230), (0x1DFF, 220), (0x1E00, 0),
    (0x20D0, 230), (0x20D2, 1), (0x20D4, 230), (0x20D8, 1), (0x20DB, 230), (0x20DD, 0), (0x20E1, 230), (0x20E2, 0), (0x20E5, 1),
    (0x20E7, 230), (0x20E8, 220), (0x20E9, 230), (0x20EA, 1), (0x20EC, 220), (0x20F0, 230), (0x20F1, 0), (0x2CEF, 230), (0x2CF2, 0)]

def uniCccRuns4 : List (Nat × Nat) :=
  [(0x2D7F, 9), (0x2D80, 0), (0x2DE0, 230), (0x2E00, 0), (0x302A, 218), (0x302B, 228), (0x302C, 232), (0x302D, 222), (0x302E, 224),
    (0x3030, 0), (0x3099, 8), (0x309B, 0), (0xA66F, 230), (0xA670, 0), (0xA674, 230), (0xA67E, 0), (0xA69E, 230), (0xA6A0, 0),
    (0xA6F0, 230), (0xA6F2, 0), (0xA806, 9), (0xA807, 0), (0xA82C, 9), (0xA82D, 0), (0xA8C4, 9), (0xA8C5, 0), (0xA8E0, 230), (0xA8F2, 0),
    (0xA92B, 220), (0xA92E, 0), (0xA953, 9), (0xA954, 0), (0xA9B3, 7), (0xA9B4, 0), (0xA9C0, 9), (0xA9C1, 0), (0xAAB0, 230), (0xAAB1, 0),
    (0xAAB2, 230), (0xAAB4, 220), (0xAAB5, 0), (0xAAB7, 230), (0xAAB9, 0), (0xAABE, 230), (0xAAC0, 0), (0xAAC1, 230), (0xAAC2, 0),
    (0xAAF6, 9), (0xAAF7, 0), (0xABED, 9), (0xABEE, 0), (0xFB1E, 26), (0xFB1F, 0), (0xFE20, 230), (0xFE27, 220), (0xFE2E, 230),
    (0xFE30, 0), (0x101FD, 220), (0x101FE, 0), (0x102E0, 220), (0x102E1, 0), (0x10376, 230), (0x1037B, 0), (0x10A0D, 220), (0x10A0E, 0),
    (0x10A0F, 230), (0x10A10, 0), (0x10A38, 230), (0x10A39, 1), (0x10A3A, 220), (0x10A3B, 0), (0x10A3F, 9), (0x10A40, 0), (0x10AE5, 230),
    (0x10AE6, 220), (0x10AE7, 0), (0x10D24, 230), (0x10D28, 0), (0x10EAB, 230), (0x10EAD, 0), (0x10EFD, 220), (0x10F00, 0),
    (0x10F46, 220), (0x10F48, 230), (0x10F4B, 220), (0x10F4C, 230), (0x10F4D, 220), (0x10F51, 0), (0x10F82, 230), (0x10F83, 220)]

def uniCccRuns5 : List (Nat × Nat) :=
  [(0x10F84, 230), (0x10F85, 220), (0x10F86, 0), (0x11046, 9), (0x11047, 0), (0x11070, 9), (0x11071, 0), (0x1107F, 9), (0x11080, 0),
    (0x110B9, 9), (0x110BA, 7), (0x110BB, 0), (0x11100, 230), (0x11103, 0), (0x11133, 9), (0x11135, 0), (0x11173, 7), (0x11174, 0),
    (0x111C0, 9), (0x111C1, 0), (0x111CA, 7), (0x111CB, 0), (0x11235, 9), (0x11236, 7), (0x11237, 0), (0x112E9, 7), (0x112EA, 9),
    (0x112EB, 0), (0x1133B, 7), (0x1133D, 0), (0x1134D, 9), (0x1134E, 0), (0x11366, 230), (0x1136D, 0), (0x11370, 230), (0x11375, 0),
    (0x11442, 9), (0x11443, 0), (0x11446, 7), (0x11447, 0), (0x1145E, 230), (0x1145F, 0), (0x114C2, 9), (0x114C3, 7), (0x114C4, 0),
    (0x115BF, 9), (0x115C0, 7), (0x115C1, 0), (0x1163F, 9), (0x11640, 0), (0x116B6, 9), (0x116B7, 7), (0x116B8, 0), (0x1172B, 9),
    (0x1172C, 0), (0x11839, 9), (0x1183A, 7), (0x1183B, 0), (0x1193D, 9), (0x1193F, 0), (0x11943, 7), (0x11944, 0), (0x119E0, 9),
    (0x119E1, 0), (0x11A34, 9), (0x11A35, 0), (0x11A47, 9), (0x11A48, 0), (0x11A99, 9), (0x11A9A, 0), (0x11C3F, 9), (0x11C40, 0),
    (0x11D42, 7), (0x11D43, 0), (0x11D44, 9), (0x11D46, 0), (0x11D97, 9), (0x11D98, 0), (0x11F41, 9), (0x11F43, 0), (0x16AF0, 1),
    (0x16AF5, 0), (0x16B30, 230), (0x16B37, 0), (0x16FF0, 6), (0x16FF2, 0), (0x1BC9E, 1), (0x1BC9F, 0), (0x1D165, 216), (0x1D167, 1)]

def uniCccRuns6 : List (Nat × Nat) :=
  [(0x1D16A, 0), (0x1D16D, 226), (0x1D16E, 216), (0x1D173, 0), (0x1D17B, 220), (0x1D183, 0), (0x1D185, 230), (0x1D18A, 220),
    (0x1D18C, 0), (0x1D1AA, 230), (0x1D1AE, 0), (0x1D242, 230), (0x1D245, 0), (0x1E000, 230), (0x1E007, 0), (0x1E008, 230), (0x1E019, 0),
    (0x1E01B, 230), (0x1E022, 0), (0x1E023, 230), (0x1E025, 0), (0x1E026, 230), (0x1E02B, 0), (0x1E08F, 230), (0x1E090, 0),
    (0x1E130, 230), (0x1E137, 0), (0x1E2AE, 230), (0x1E2AF, 0), (0x1E2EC, 230), (0x1E2F0, 0), (0x1E4EC, 232), (0x1E4EE, 220),
    (0x1E4EF, 230), (0x1E4F0, 0), (0x1E8D0, 220), (0x1E8D7, 0), (0x1E944, 230), (0x1E94A, 7), (0x1E94B, 0)]

/-- Where the Canonical_Combining_Class changes: first code point and class; 0 before the first. -/
def uniCccRuns : List (Nat × Nat) :=
  uniCccRuns0 ++ uniCccRuns1 ++ uniCccRuns2 ++ uniCccRuns3 ++ uniCccRuns4 ++ uniCccRuns5 ++ uniCccRuns6

end Sys2Proof.Machine
end

