-- ==== Sys2Proof/Machine/Unicode.lean ====
section
/-! DEFINITION. Normalisation by Unicode (R375): NFC and NFKC of a segment, and the Stream-Safe count. PRESUMED (log 103): the
algorithms of UAX #15 and of the Hangul syllables, which R375 names and does not print. -/

namespace Sys2Proof.Machine

/-- The value of the run that a number lies in; `d` before the first run. -/
def runValue (n : Nat) : Nat → List (Nat × Nat) → Nat
  | d, [] => d
  | d, (a, v) :: t => if n < a then d else runValue n v t

/-- The major class of General_Category: 0 to 6 for L, M, N, P, S, Z and C (R376). -/
def uniClass (n : Nat) : Nat := runValue n 6 uniClassRuns

/-- The Canonical_Combining_Class; a code point of class 0 is a starter. -/
def uniCcc (n : Nat) : Nat := runValue n 0 uniCccRuns

/-- The parts of a Hangul syllable. -/
def hangulParts (n : Nat) : Option (List Nat) :=
  if n < 0xAC00 ∨ 0xD7A3 < n then none
  else
    let k := n - 0xAC00
    let lv := [0x1100 + k / 588, 0x1161 + k % 588 / 28]
    some (if k % 28 = 0 then lv else lv ++ [0x11A7 + k % 28])

/-- One step of a decomposition; with `compat` also the compatibility ones. -/
def uniStep (compat : Bool) (n : Nat) : Option (List Nat) :=
  (hangulParts n).or (((uniComposed.find? (fun r => r.1 == n)).map (fun r => [r.2.1, r.2.2])).or
    (((uniCanonical.find? (fun r => r.1 == n)).map (·.2)).or
      (if compat then (uniCompat.find? (fun r => r.1 == n)).map (·.2) else none)))

/-- The full decomposition of a code point; no chain of steps in the data is as long as the fuel. -/
def uniDecompose (compat : Bool) : Nat → Nat → List Nat
  | 0, n => [n]
  | fuel + 1, n => match uniStep compat n with
    | none => [n]
    | some l => l.flatMap (uniDecompose compat fuel)

/-- The decomposition for a form: NFC decomposes canonically, NFKC by compatibility too. -/
def formParts (form n : Nat) : List Nat := if n < 0xA0 then [n] else uniDecompose (form == 2) 8 n

/-- The composite of two code points. -/
def uniCompose (a b : Nat) : Option Nat :=
  if 0x1100 ≤ a ∧ a < 0x1113 ∧ 0x1161 ≤ b ∧ b < 0x1176 then some (0xAC00 + ((a - 0x1100) * 21 + (b - 0x1161)) * 28)
  else if 0xAC00 ≤ a ∧ a ≤ 0xD7A3 ∧ (a - 0xAC00) % 28 = 0 ∧ 0x11A7 < b ∧ b < 0x11C3 then some (a + (b - 0x11A7))
  else (uniComposed.find? (fun r => r.2.1 == a && r.2.2 == b)).map (·.1)

/-- Canonical order: by combining class, code points of one class as they came. -/
def cccInsert (n : Nat) : List Nat → List Nat
  | [] => [n]
  | m :: t => if uniCcc n < uniCcc m then n :: m :: t else m :: cccInsert n t

/-- Composes a starter with the non-starters after it, in canonical order; one is blocked by a kept one of its own class. -/
def segCompose (s : Nat) : List Nat → List Nat → List Nat
  | kept, [] => s :: kept
  | kept, n :: t =>
    match (if kept.getLast?.any (fun m => uniCcc m == uniCcc n) then none else uniCompose s n) with
    | some c => segCompose c kept t
    | none => segCompose s (kept ++ [n]) t

/-- The normal form of a segment: a starter and non-starters, decomposed; at the start of a text it may have no starter. -/
def segForm : List Nat → List Nat
  | [] => []
  | n :: t =>
    if uniCcc n = 0 then segCompose n [] (t.foldl (fun l m => cccInsert m l) [])
    else (n :: t).foldl (fun l m => cccInsert m l) []

/-- The Stream-Safe Text Format of UAX #15: the count of non-starters after a code point, and whether U+034F goes before it. -/
def safeCount (marks n : Nat) : Bool × Nat :=
  let d := formParts 2 n
  let lead := (d.takeWhile (fun m => uniCcc m != 0)).length
  let cut := decide (30 < marks + lead)
  let marks := if cut then 0 else marks
  (cut, if lead = d.length then marks + lead else (d.reverse.takeWhile (fun m => uniCcc m != 0)).length)

end Sys2Proof.Machine
end

