-- ==== Sys2Proof/Machine/Text.lean ====
section
/-! DEFINITION. Text: UTF-8 (R374), vocabularies (R377 to R383), grammars (R452, R453), hashes and sketches (R385 to R387), and the stages
that take a document in buffer by buffer (R369 to R376). -/

namespace Sys2Proof.Machine

/-! ## UTF-8 (R374) -/

/-- What the decoder gives: a code point, or an invalid maximal subpart with its offset. -/
inductive Utf8 where
  | cp (n : Nat)
  | bad (off : Nat) (bs : Bytes)
  deriving DecidableEq, Repr

/-- Whether a byte may continue a sequence: the lead decides the range of the second byte. -/
def utf8Next (lead second b : Nat) : Bool :=
  let lo := if !(second == 1) then 0x80 else if lead = 0xE0 then 0xA0 else if lead = 0xF0 then 0x90 else 0x80
  let hi := if !(second == 1) then 0xBF else if lead = 0xED then 0x9F else if lead = 0xF4 then 0x8F else 0xBF
  lo ≤ b && b ≤ hi

/-- Bytes of a sequence by its lead byte; 0 for a byte that starts none. -/
def utf8Len (lead : Nat) : Nat :=
  if lead < 0x80 then 1 else if lead < 0xC2 then 0 else if lead < 0xE0 then 2 else if lead < 0xF0 then 3 else if lead < 0xF5 then 4 else 0

/-- The longest prefix of continuation bytes after the lead, at most `n`. -/
def utf8Cont (lead : Nat) : Nat → Nat → Bytes → Bytes
  | 0, _, _ => []
  | _, _, [] => []
  | n + 1, j, b :: t => if utf8Next lead j b.toNat then b :: utf8Cont lead n (j + 1) t else []

/-- The code point of a complete sequence. -/
def utf8Value (bs : Bytes) : Nat := match bs with
  | [] => 0
  | l :: t => t.foldl (fun v b => v * 64 + b.toNat % 64) (if t.isEmpty then l.toNat else l.toNat % 2 ^ (6 - t.length))

/-- Decodes bytes from an offset on; the rest is an incomplete but valid prefix at the end. -/
def utf8Decode : Nat → Nat → Bytes → List Utf8 × Bytes
  | 0, _, _ => ([], [])
  | _, _, [] => ([], [])
  | fuel + 1, off, b :: t =>
    let n := utf8Len b.toNat
    if n = 0 then
      let r := utf8Decode fuel (off + 1) t
      (.bad off [b] :: r.1, r.2)
    else
      let c := utf8Cont b.toNat (n - 1) 1 t
      let rest := t.drop c.length
      if c.length + 1 = n then
        let r := utf8Decode fuel (off + n) rest
        (.cp (utf8Value (b :: c)) :: r.1, r.2)
      else if rest.isEmpty then ([], b :: c)
      else
        let r := utf8Decode fuel (off + 1 + c.length) rest
        (.bad off (b :: c) :: r.1, r.2)

/-- The UTF-8 bytes of a code point. -/
def utf8Encode (n : Nat) : Bytes :=
  if n < 0x80 then natLe 1 n
  else if n < 0x800 then [BitVec.ofNat 8 (0xC0 + n / 64), BitVec.ofNat 8 (0x80 + n % 64)]
  else if n < 0x10000 then [BitVec.ofNat 8 (0xE0 + n / 4096), BitVec.ofNat 8 (0x80 + n / 64 % 64), BitVec.ofNat 8 (0x80 + n % 64)]
  else [BitVec.ofNat 8 (0xF0 + n / 262144), BitVec.ofNat 8 (0x80 + n / 4096 % 64), BitVec.ofNat 8 (0x80 + n / 64 % 64), BitVec.ofNat 8 (0x80 + n % 64)]

/-! ## Vocabularies (R377 to R382, R455) -/

def vocMagic : Nat := 0x42434F56

def vocType (v : Bytes) : Nat := leAt v 0x04 1
def vocPolicy (v : Bytes) : Nat := leAt v 0x05 1
def vocMaxLen (v : Bytes) : Nat := leAt v 0x06 1
def vocTokens (v : Bytes) : Nat := leAt v 0x08 4
def vocMerges (v : Bytes) : Nat := leAt v 0x0C 4

/-- BYTE_BASE; all ones means none. -/
def vocByteBase (v : Bytes) : Option Nat := let b := leAt v 0x10 4; if b = 0xFFFFFFFF then none else some b

def vocBos (v : Bytes) : Nat := leAt v 0x18 4
def vocEos (v : Bytes) : Nat := leAt v 0x1C 4

/-- Word t of the string section (R455). -/
def vocOff (v : Bytes) (t : Nat) : Nat := leAt v (leAt v 0x30 8 + 4 * t) 4

/-- Bit 31, or BOS_ID or EOS_ID: a special token (R455). -/
def vocSpecial (v : Bytes) (t : Nat) : Bool := bitOf (vocOff v t) 31 || t == vocBos v || t == vocEos v

/-- The string of a token (R455). -/
def vocString (v : Bytes) (t : Nat) : Bytes :=
  let area := leAt v 0x30 8 + 4 * (vocTokens v + 1)
  let a := vocOff v t % 2 ^ 31
  bytesAt v (area + a) (vocOff v (t + 1) % 2 ^ 31 - a)

/-- Whether a token is one of the 256 byte tokens. -/
def vocIsByte (v : Bytes) (t : Nat) : Bool := match vocByteBase v with
  | some b => b ≤ t && t < b + 256
  | none => false

/-- A merge record by rank (R377). -/
def vocMerge (v : Bytes) (r : Nat) : Nat × Nat × Nat :=
  let o := leAt v 0x20 8 + 12 * r
  (leAt v o 4, leAt v (o + 4) 4, leAt v (o + 8) 4)

/-- The checks at first use (R379, R455). `u16` is OUT_U16 of the profile. -/
def vocValid (v : Bytes) (u16 : Bool) : Bool :=
  let n := vocTokens v
  leAt v 0 4 == vocMagic && (vocType v == 1 || vocType v == 2) && vocPolicy v ≤ 2 && 1 ≤ vocMaxLen v && vocMaxLen v ≤ 64 &&
  256 ≤ n && n ≤ 262144 && vocMerges v ≤ (if vocType v = 1 then n - 256 else 0) && leAt v 0x40 8 ≤ 12 * max n (vocMerges v) + 4096 &&
  (match vocByteBase v with
    | some b => b + 256 ≤ n
    | none => vocType v == 2 && vocPolicy v != 1) &&
  (vocType v == 1 || (leAt v 0x14 4 < n || (vocByteBase v).isSome)) &&
  (List.range (vocMerges v)).all (fun r => let m := vocMerge v r; m.1 < n && m.2.1 < n && m.2.2 < n) &&
  !(u16 && 65536 < n) &&
  (List.range n).all (fun t =>
    let a := vocOff v t % 2 ^ 31
    let b := vocOff v (t + 1) % 2 ^ 31
    a ≤ b && b - a ≤ vocMaxLen v && (match vocByteBase v with
      | some k => if k ≤ t ∧ t < k + 256 then vocString v t == [BitVec.ofNat 8 (t - k)] else true
      | none => true))

/-- The rank and result of a pair. -/
def vocRank (v : Bytes) (a b : Nat) : Option (Nat × Nat) :=
  (List.range (vocMerges v)).findSome? (fun r => let m := vocMerge v r; if m.1 = a ∧ m.2.1 = b then some (r, m.2.2) else none)

/-- The pair of lowest rank, leftmost among equals: (rank, position, result). -/
def bestPair (v : Bytes) : Nat → List Nat → Option (Nat × Nat × Nat)
  | at_, a :: b :: t =>
    let rest := bestPair v (at_ + 1) (b :: t)
    match vocRank v a b, rest with
    | some (r, c), some (r', p) => if r ≤ r' then some (r, at_, c) else some (r', p)
    | some (r, c), none => some (r, at_, c)
    | none, x => x
  | _, _ => none

/-- Merging until no pair has a rank (R381); each merge shortens the list. -/
def bpeMerge (v : Bytes) : Nat → List Nat → List Nat
  | 0, l => l
  | fuel + 1, l => match bestPair v 0 l with
    | some (_, p, c) => bpeMerge v fuel (l.take p ++ [c] ++ l.drop (p + 2))
    | none => l

/-- Byte-level BPE of a piece (R381). -/
def bpe (v : Bytes) (piece : Bytes) : List Nat :=
  bpeMerge v piece.length (piece.map (fun b => (vocByteBase v).getD 0 + b.toNat))

/-- Tokens that can end at byte `j` of a piece: (length, token), longest first (R382). DEDUCED (log 145): a byte token matches nothing here,
since R382 gives code points that no token covers to the byte tokens. -/
def tokensAt (v : Bytes) (piece : Bytes) (j : Nat) : List (Nat × Nat) :=
  ((List.range (min j (vocMaxLen v))).map (· + 1)).reverse.flatMap (fun n =>
    let w := bytesAt piece (j - n) n
    ((List.range (vocTokens v)).filter (fun t => !vocIsByte v t && vocString v t == w)).map (fun t => (n, t)))

/-- A sum of scores, added left to right (R382): nothing before the first token. -/
def scoreAdd (sum : Option Fp) (sc : Fp) : Fp := match sum with
  | none => sc
  | some s => fpAdd s sc

/-- A sum is larger than another (R382). -/
def scoreLess (a b : Option Fp) : Bool := match a, b with
  | some a, some b => fpLt a b
  | _, _ => false

/-- The best segmentation up to each byte of a stretch, from the sum before it (R382): a sum and the tokens of the stretch, or none. -/
def unigramTable (v : Bytes) (sum : Option Fp) (piece : Bytes) : List (Option (Option Fp × List Nat)) :=
  ((List.range piece.length).map (· + 1)).foldl (fun tab j =>
    let best := (tokensAt v piece j).foldl (fun (o : Option (Option Fp × List Nat)) p =>
      match tab.getD (j - p.1) none with
      | none => o
      | some (sum, ts) =>
        let s := some (scoreAdd sum (BitVec.ofNat 32 (leAt v (leAt v 0x28 8 + 4 * p.2) 4)))
        match o with
        | some (b, _) => if scoreLess b s then some (s, ts ++ [p.2]) else o
        | none => some (s, ts ++ [p.2])) none
    tab ++ [best]) [some (sum, [])]

/-- A code point that no token covers (R382). -/
def uncovered (v : Bytes) (cp : Nat) : List Nat := match vocByteBase v with
  | some b => (utf8Encode cp).map (fun x => b + x.toNat)
  | none => [leAt v 0x14 4]

/-- Whether some token's match in the piece covers byte `j`. -/
def coveredAt (v : Bytes) (piece : Bytes) (j : Nat) : Bool :=
  (List.range (vocMaxLen v)).any (fun d =>
    let e := j + 1 + d
    e ≤ piece.length && (tokensAt v piece e).any (fun p => e - p.1 ≤ j))

/-- Splits a piece at code points that no token covers: covered stretches and single code points. -/
def coverSplit (v : Bytes) (piece : Bytes) : Nat → List Nat → List (Sum (List Nat) Nat)
  | _, [] => []
  | off, c :: t =>
    let n := (utf8Encode c).length
    let rest := coverSplit v piece (off + n) t
    if (List.range n).any (fun j => !coveredAt v piece (off + j)) then .inr c :: rest
    else match rest with
      | .inl r :: rs => .inl (c :: r) :: rs
      | rs => .inl [c] :: rs

/-- One part of a piece after a sum and tokens. A stretch with no segmentation is encoded code point by code point (log 55). -/
def unigramPart (v : Bytes) (st : Option Fp × List Nat) (part : Sum (List Nat) Nat) : Option Fp × List Nat := match part with
  | .inr c => (st.1, st.2 ++ uncovered v c)
  | .inl cs =>
    let bs := cs.flatMap utf8Encode
    match (unigramTable v st.1 bs).getD bs.length none with
    | some (sum, ts) => (sum, st.2 ++ ts)
    | none => (st.1, st.2 ++ cs.flatMap (uncovered v))

/-- Unigram tokens of a piece (R382): the scores of the whole piece are one sum. -/
def unigram (v : Bytes) (cps : List Nat) : List Nat :=
  ((coverSplit v (cps.flatMap utf8Encode) 0 cps).foldl (unigramPart v) (none, [])).2

/-- The tokens of a piece (R381, R382). -/
def pieceTokens (v : Bytes) (cps : List Nat) : List Nat := if vocType v = 1 then bpe v (cps.flatMap utf8Encode) else unigram v cps

/-! ## Grammars (R452, R453) -/

/-- The checks of a grammar's header against its table's size and the vocabulary (R452, R453). `banks` is GRAMMAR_BANKS. -/
def gramHeadOk (h v : Bytes) (size banks : Nat) : Bool :=
  let states := leAt h 0x04 4
  let n := leAt h 0x08 4
  let classes := leAt h 0x0C 4
  leAt h 0 4 == 0x4B534D47 && decide (1 ≤ states) && decide (states ≤ 65536) && n == vocTokens v && decide (1 ≤ classes) && decide (classes ≤ 4096) &&
  decide (leAt h 0x10 4 < states) && leAt h 0x28 8 % 64 == 0 && leAt h 0x30 8 % 64 == 0 && decide (leAt h 0x18 8 + states ≤ size) &&
  decide (leAt h 0x20 8 + 2 * n ≤ size) && decide (leAt h 0x28 8 + states * ceilDiv n 512 * 64 ≤ size) &&
  decide (leAt h 0x30 8 + 2 * (states * classes) ≤ size) && decide (64 + states + 2 * n ≤ (banks - 1) * 262144)

def GramRef.states (g : GramRef) : Nat := leAt g.header 0x04 4
def GramRef.tokens (g : GramRef) : Nat := leAt g.header 0x08 4
def GramRef.classes (g : GramRef) : Nat := leAt g.header 0x0C 4
def GramRef.start (g : GramRef) : Nat := leAt g.header 0x10 4

/-- ACCEPT and EMPTY of a state (R452). -/
def GramRef.accept (g : GramRef) (s : Nat) : Bool := bitOf (leAt g.info s 1) 0
def GramRef.empty (g : GramRef) (s : Nat) : Bool := bitOf (leAt g.info s 1) 1

/-- Lines of a state's mask, and where line j of state s lies (R452). -/
def GramRef.maskLines (g : GramRef) : Nat := ceilDiv g.tokens 512
def GramRef.maskAt (g : GramRef) (s j : Nat) : Nat := leAt g.header 0x28 8 + (s * g.maskLines + j) * 64

/-- Where the next state of a state by a token lies (R452). -/
def GramRef.nextAt (g : GramRef) (s k : Nat) : Nat := leAt g.header 0x30 8 + 2 * (s * g.classes + leAt g.class_ (2 * k) 2)

/-- Lines that the banks hold beside the resident part (R453). -/
def GramRef.room (g : GramRef) (banks : Nat) : Nat := (banks * 262144 - (64 + g.states + 2 * g.tokens)) / 64

/-- What the sampler knows of a request's grammar state: ACCEPT, EMPTY, its mask. -/
structure GramRow where
  accept : Bool
  empty : Bool
  mask : Bytes
  deriving DecidableEq, Repr

/-- A token is allowed (R452): its bit, or EOS_ID in an accepting state. -/
def GramRow.allows (r : GramRow) (v : Bytes) (k : Nat) : Bool := bitOf (leAt r.mask (k / 8) 1) (k % 8) || (r.accept && k == vocEos v)

/-! ## Sketches (R386) -/

/-- base of a shingle (R386): the keyed mix of its four words. -/
def shingleBase (k : BitVec 128) (t : List Nat) : BitVec 64 :=
  mix k (BitVec.ofNat 128 ((List.range 4).foldl (fun c j => c + t.getD j 0xFFFFFFFF * 2 ^ (32 * j)) 0))

/-- The sketch with one more shingle (R386). -/
def sketchAdd (k : BitVec 128) (t : List Nat) (m : List (BitVec 64)) : List (BitVec 64) :=
  let s := shingleBase k t
  m.zipIdx.map (fun p =>
    let c : BitVec 128 := BitVec.ofNat 128 ((p.2 + 1) * 2 ^ 64)
    let v := (mix k c ||| 1) * s + mix k (c ||| 1)
    if v.toNat < p.1.toNat then v else p.1)

/-! ## A document, buffer by buffer (R369 to R376, R383) -/

/-- What a document's text passes through: the profile of its engine and its vocabulary. -/
structure TextEnv where
  body : Bytes
  vocab : Bytes
  deriving DecidableEq, Repr

def TextEnv.flag (e : TextEnv) (j : Nat) : Bool := bitOf (leAt e.body 0x68 2) j
def TextEnv.norm (e : TextEnv) : Nat := leAt e.body 0x5C 1
def TextEnv.group (e : TextEnv) (cls : Nat) : Nat := leAt e.body (0x60 + cls) 1
def TextEnv.seed (e : TextEnv) : BitVec 128 := BitVec.ofNat 128 (leAt e.body 0x70 16)
def TextEnv.shingle (e : TextEnv) : Nat := leAt e.body 0x5F 1

/-- The text state at the start of a document: BOS_ID counts in the run (R383). -/
def TextEnv.start (e : TextEnv) : TextState :=
  { taken := 0, begun := false, pend := [], marks := 0, seg := [], group := 0, piece := [], run := 0, norm := 0,
    hash := if e.flag 3 then sha256Iv else [], tail := [], tokens := [], count := b2n (e.flag 1), gram := none, checked := 0,
    mins := if e.flag 4 then List.replicate 128 (BitVec.allOnes 64) else [] }

/-- A text engine at work: its text state, and the status and DETAIL with which the document is rejected. After a rejection nothing more
happens to it. -/
structure TextRun where
  st : TextState
  err : Option (Nat × Nat)
  deriving DecidableEq, Repr

/-- The document is rejected. -/
def TextRun.fail (code detail : Nat) (r : TextRun) : TextRun := { r with err := r.err.or (some (code, detail)) }

/-- A step of the text state, unless the document has been rejected. -/
def TextRun.on (r : TextRun) (g : TextState → TextRun) : TextRun := if r.err.isSome then r else g r.st

/-- One more token of the run (R383), and the shingle that it ends (R386). -/
def TextRun.token (e : TextEnv) (r : TextRun) (t : Nat) : TextRun := r.on fun x =>
  let ts := t :: x.tokens
  let sh := (ts.take e.shingle).reverse
  if leAt e.body 0x58 4 < x.count + 1 then r.fail stOverBound 0
  else ⟨{ x with
    tokens := ts, count := x.count + 1,
    mins := if sh.length = e.shingle then sketchAdd e.seed sh x.mins else x.mins }, none⟩

/-- The open piece ends and is tokenised. -/
def TextRun.endPiece (e : TextEnv) (r : TextRun) : TextRun := r.on fun x =>
  (if x.piece.isEmpty then [] else pieceTokens e.vocab x.piece).foldl (TextRun.token e) ⟨{ x with piece := [] }, none⟩

/-- A code point joins the open piece, which is cut first after DIGIT_RUN code points in the group of class N, or where it would pass
MAX_PIECE bytes (rules 4 and 5 of R376). -/
def TextRun.join (e : TextEnv) (n : Nat) (r : TextRun) : TextRun := r.on fun x =>
  let run := leAt e.body 0x5E 1
  let full := decide (0 < run) && x.group == e.group 2 && x.run == run
  let long := decide (leAt e.body 0x5D 1 < ((x.piece ++ [n]).flatMap utf8Encode).length)
  let r := if full || long then TextRun.endPiece e ⟨x, none⟩ else ⟨x, none⟩
  r.on fun y => ⟨{ y with piece := y.piece ++ [n], run := if full then 1 else min 255 (y.run + 1) }, none⟩

/-- The open piece ends, and another begins with these code points. -/
def TextRun.next (e : TextEnv) (group : Nat) (ns : List Nat) (r : TextRun) : TextRun :=
  ns.foldl (fun r n => r.join e n) ((r.endPiece e).on fun x => ⟨{ x with group := group, piece := [], run := 0 }, none⟩)

/-- Pre-tokenisation of one code point (R376): a mark joins the piece before it; a code point of the same group joins unless its group is
SINGLE; a space directly before another group goes with it under SPACE_JOIN. -/
def TextRun.cut (e : TextEnv) (n : Nat) (r : TextRun) : TextRun := r.on fun x =>
  let cls := uniClass n
  let g := if cls = 1 ∧ !x.piece.isEmpty then x.group else e.group cls
  if x.piece.isEmpty then r.next e g [n]
  else if cls = 1 then r.join e n
  else if g ≠ x.group ∧ e.flag 0 ∧ x.piece.getLast? = some 0x20 then TextRun.next e g [0x20, n] ⟨{ x with piece := x.piece.dropLast }, none⟩
  else if g ≠ x.group ∨ (leAt e.body 0x67 1).testBit g then r.next e g [n]
  else r.join e n

/-- Bytes are passed to pre-tokenisation: they count towards MAX_NORM (R375), and the duplicate hash takes them (R385). -/
def TextRun.pass (e : TextEnv) (bs : Bytes) (r : TextRun) : TextRun := r.on fun x =>
  let h := if e.flag 3 then sha256Feed (x.hash, x.tail) bs else (x.hash, x.tail)
  if leAt e.body 0x54 4 < x.norm + bs.length then r.fail stOverBound 0
  else ⟨{ x with norm := x.norm + bs.length, hash := h.1, tail := h.2 }, none⟩

/-- A code point of the normalised text. -/
def TextRun.put (e : TextEnv) (r : TextRun) (n : Nat) : TextRun := (r.pass e (utf8Encode n)).cut e n

/-- The open segment ends. -/
def TextRun.endSeg (e : TextEnv) (r : TextRun) : TextRun := r.on fun x => (segForm x.seg).foldl (TextRun.put e) ⟨{ x with seg := [] }, none⟩

/-- A decomposed code point comes to the open segment. A starter ends it, unless it composes with it. -/
def TextRun.part (e : TextEnv) (r : TextRun) (n : Nat) : TextRun := r.on fun x =>
  if uniCcc n ≠ 0 then ⟨{ x with seg := x.seg ++ [n] }, none⟩
  else match (match segForm x.seg with
      | [a] => uniCompose a n
      | _ => none) with
    | some c => ⟨{ x with seg := [c] }, none⟩
    | none => (r.endSeg e).on fun y => ⟨{ y with seg := [n] }, none⟩

/-- A code point comes to the normaliser (R375). -/
def TextRun.point (e : TextEnv) (n : Nat) (r : TextRun) : TextRun := r.on fun x =>
  if e.norm = 0 then r.put e n
  else
    let (cut, marks) := safeCount x.marks n
    ((if cut then [0x34F] else []) ++ formParts e.norm n).foldl (TextRun.part e) ⟨{ x with marks := marks }, none⟩

/-- A byte that BYTES puts out: a token and a piece of its own; it ends the open segment and the open piece (R374). -/
def TextRun.raw (e : TextEnv) (r : TextRun) (b : Byte) : TextRun :=
  TextRun.token e ((((r.endSeg e).endPiece e).on fun x => ⟨{ x with marks := 0 }, none⟩).pass e [b]) ((vocByteBase e.vocab).getD 0 + b.toNat)

/-- What the decoder gives (R374): a first U+FEFF is removed under STRIP_BOM; POLICY decides about an invalid subpart. -/
def TextRun.unit (e : TextEnv) (r : TextRun) (u : Utf8) : TextRun := r.on fun x =>
  let r' : TextRun := ⟨{ x with begun := true }, none⟩
  match u with
  | .cp n => if n = 0xFEFF ∧ !x.begun ∧ e.flag 5 then r' else r'.point e n
  | .bad off bs =>
    if vocPolicy e.vocab = 2 then r.fail stUtf8 off
    else if vocPolicy e.vocab = 1 then bs.foldl (TextRun.raw e) r'
    else r'.point e 0xFFFD

/-- One input buffer (R370), up to MAX_BYTES of the document. -/
def TextRun.feed (e : TextEnv) (bs : Bytes) (r : TextRun) : TextRun := r.on fun x =>
  let room := leAt e.body 0x50 4 - x.taken
  let all := x.pend ++ bs.take room
  let d := utf8Decode (all.length + 1) (x.taken - x.pend.length) all
  let r := d.1.foldl (TextRun.unit e) ⟨{ x with taken := x.taken + (bs.take room).length, pend := d.2 }, none⟩
  if room < bs.length then r.fail stOverBound 0 else r

/-- The document ends: a sequence cut short, the open segment and piece, the shingle of a short document, EOS_ID (R374, R383, R386). -/
def TextRun.finish (e : TextEnv) (r : TextRun) : TextRun :=
  let r := r.on fun x => if x.pend.isEmpty then r else TextRun.unit e ⟨{ x with pend := [] }, none⟩ (.bad (x.taken - x.pend.length) x.pend)
  ((r.endSeg e).endPiece e).on fun x =>
    let n := x.tokens.length
    if leAt e.body 0x58 4 < x.count + b2n (e.flag 2) then TextRun.fail stOverBound 0 ⟨x, none⟩
    else ⟨{ x with count := x.count + b2n (e.flag 2), mins := if 0 < n ∧ n < e.shingle then sketchAdd e.seed x.tokens.reverse x.mins else x.mins }, none⟩

/-- What a document gives: its run with BOS and EOS, and its sidecar. -/
structure DocOut where
  tokens : List Nat
  side : Option Bytes
  deriving DecidableEq, Repr

/-- What a document that has ended gives (R383, R385 to R387). -/
def TextState.out (e : TextEnv) (x : TextState) : DocOut :=
  ⟨(if e.flag 1 then [vocBos e.vocab] else []) ++ x.tokens.reverse ++ (if e.flag 2 then [vocEos e.vocab] else []),
   if e.flag 3 || e.flag 4 then some ((if e.flag 3 then (sha256End (x.hash, x.tail) x.norm).take 8 else []) ++ x.mins.flatMap (fun m => natLe 8 m.toNat))
   else none⟩

/-- A whole document in its buffers, apart from the grammar check. -/
def textOf (e : TextEnv) (bufs : List Bytes) : Except (Nat × Nat) DocOut :=
  let r := (bufs.foldl (fun (r : TextRun) b => r.feed e b) ⟨e.start, none⟩).finish e
  match r.err with
  | some x => .error x
  | none => .ok (r.st.out e)

end Sys2Proof.Machine
end

