-- ==== Sys2Proof/Machine/Units.lean ====
section
/-! DEFINITION. Units on their way through a graph: beats (R55 to R60), the way from bay to bay (R468, R469; log 54),
tables read on demand (R104 to R106), and what reaches the packer. -/

namespace Sys2Proof.Machine

/-! ## Beats -/

/-- Bytes of the units of R60 that a picture is cut into on a route: of 8 rows each where the route's unit is the block row
group, else the whole (log 110). -/
def groupBytes (kind : Nat) (t : UnitTag) (len : Nat) : Nat :=
  if kind = 1 ∧ 0 < t.height ∧ len % t.height = 0 then len / t.height * 8 else len

/-- The beats of one unit of R60. An empty unit is one beat. -/
def framed (tag : UnitTag) (bs : Bytes) : List Beat :=
  let cs := if bs.isEmpty then [[]] else chunks 32 bs.length bs
  let n := cs.length
  (cs.zipIdx).map (fun p => beatOf p.1 (if n = 1 then 4 else if p.2 = 0 then 2 else if p.2 + 1 = n then 3 else 1) tag)

/-- The beats of what an engine sends, on a route of a unit kind (R60, R94, R317). -/
def unitBeats (kind : Nat) (u : DataUnit) : List Beat :=
  let tag := { u.tag with len := u.bytes.length }
  let n := groupBytes kind tag tag.len
  if n = 0 then framed tag [] else (chunks n tag.len u.bytes).flatMap (framed tag)

/-- A REJECT beat (R60). -/
def rejectBeat (code : Nat) (tag : UnitTag) : Beat := beatOf (natLe 32 code) 5 { tag with len := 0 }

/-- The unit kind of the route that leaves a tenon (R60, R94); a sample where no route does. -/
def State.unitKind (s : State) (bay tenon : Nat) : Nat :=
  match s.image.committed.bind (fun c => c.routes.find? (fun r => r.tenonBay == bay && r.tenonPort == tenon)) with
  | some r => r.unit
  | none => 2

/-- What an engine sends waits at a tenon, as the units of its route. -/
def State.putUnit (bay tenon : Nat) (u : DataUnit) (s : State) : State := s.putBeats bay tenon (unitBeats (s.unitKind bay tenon) u)

/-! ## Where a unit goes -/

/-- The order of bay types along a graph: intake, video, image, text, judge, pack. -/
def stageRank (kind : Nat) : Nat := if kind = 1 then 0 else if kind = 3 then 1 else if kind = 2 then 2 else kind

/-- The engines that a graph binds with codes of some kind, with their profile bodies, in ascending bay and slot order (R468). -/
def State.stageEngines (s : State) (g : Nat) (takes : Nat → Bool) : List (Nat × Bytes) := match s.image.committed with
  | some c =>
    let bs := (c.bound g).filter (fun b => takes b.1.engine)
    (sortBy (fun (a b : BayBind × Profile) => decide (a.1.bay * 8 + a.1.slot ≤ b.1.bay * 8 + b.1.slot)) bs).map (fun b => (b.1.bay, b.2.body))
  | none => []

/-- The work queued for a bay (R469), in beats: at the tenons and on the routes that lead to it, in its mortise FIFOs, and in the units it
collects and keeps. DESIGN CHOICE (log 54): what counts as queued work, and how much. -/
def State.queuedWork (s : State) (k : Nat) : Nat :=
  let rs : List RouteCfg := match s.image.committed with
    | some c => c.routes.filter (fun r => r.mortiseBay == k)
    | none => []
  let b := s.bay k
  rs.foldl (fun n r =>
    let x := s.route r.route
    n + (tblGetD (s.bay r.tenonBay).out r.tenonPort []).length + (x.links.filter (fun l => l.beat.isSome)).length + x.fifo.length) 0 +
  (b.acc.map (fun a => a.2.bytes) ++ b.held.map (fun h => h.2.bytes) ++ b.heat.map (fun h => h.data.bytes)).foldl (fun n bs => n + 1 + bs.length / 32) 0

/-- The bay with the least queued work; the first among equals. -/
def State.leastBusy (s : State) (bays : List Nat) : Option Nat :=
  (bays.foldl (fun (o : Option (Nat × Nat)) k =>
    let n := s.queuedWork k
    match o with
    | some (m, _) => if n < m then some (n, k) else o
    | none => some (n, k)) none).map (·.2)

/-- Whether an engine takes a unit as it comes to a bay of its type: a coded sample its decoder, a clip the video decoder, a picture what
follows the image decoders or the encoder (R316, R355). -/
def engineTakes (t : UnitTag) (e : Nat) : Bool :=
  if e / 256 = 2 then (if t.stage = 0 ∧ 1 ≤ t.kind ∧ t.kind ≤ 3 then e == 0x0200 + t.kind else decide (0x0204 ≤ e))
  else if e / 256 = 3 then e == (if t.stage = 0 ∧ t.kind = 4 then 0x0301 else 0x0302)
  else true

/-- The route, among some that lead to bays of one type, for a unit of logical index p (R468, R469): to engine p mod n of those that the
graph binds for the stage in REPRO, to the one with the least queued work in OPEN. Where no route leads to that engine (log 54), the routes
there are count instead. -/
def State.pickRoute (s : State) (x : Stream) (t : UnitTag) (p : Nat) (cs : List RouteCfg) : Option RouteCfg :=
  let cs := sortBy (fun (a b : RouteCfg) => decide (a.mortiseBay * 8 + a.tenonPort ≤ b.mortiseBay * 8 + b.tenonPort)) cs
  let kind := (cs.head?.map (fun r => s.bayKind r.mortiseBay)).getD 0
  let bays := ((s.stageEngines x.graph (fun e => e / 256 == kind && engineTakes t e)).map (·.1)).eraseDups
  let fit := cs.filter (fun r => bays.contains r.mortiseBay)
  let fit := if fit.isEmpty then cs else fit
  if x.openMode then (s.leastBusy (fit.map (·.mortiseBay))).bind (fun k => fit.find? (fun r => r.mortiseBay == k))
  else (cs.find? (fun r => some r.mortiseBay == bays[p % max 1 bays.length]?)).or fit[p % max 1 fit.length]?

/-- The tenon for a unit of logical index p (R468, R469; log 54). `same` allows a further bay of the same type, `side` is a tenon kept
for sidecars. -/
def State.outTenon (s : State) (x : Stream) (bay p : Nat) (t : UnitTag) (same : Bool) (side : Option Nat) : Option Nat :=
  let g := s.graphOf x
  let here := stageRank (s.bayKind bay)
  let rank := fun (r : RouteCfg) => stageRank (s.bayKind r.mortiseBay)
  let rs := (s.routesFrom g bay).filter (fun r => (here < rank r || (same && here == rank r)) && some r.tenonPort != side)
  let rs := if rs.isEmpty then s.routesFrom g bay else rs
  match rs.map rank with
  | [] => none
  | k :: ks =>
    let next := ks.foldl min k
    (s.pickRoute x t p (rs.filter (fun r => rank r == next))).map (·.tenonPort)

/-- The stream that a tag names, if the dispatch it belongs to is still in flight. -/
def State.tagStream (s : State) (t : UnitTag) : Option (Nat × Nat × Stream) := match s.byGidx t.stream with
  | some (f, i, x) => if x.inFlight.any (fun y => y.index == t.sampleIx && y.gen == t.gen) then some (f, i, x) else none
  | none => none

/-- The tenon by which a unit leaves a bay. -/
def State.unitTenon (s : State) (bay : Nat) (t : UnitTag) (same : Bool) (side : Option Nat) : Option Nat := match s.byGidx t.stream with
  | none => none
  | some (_, _, x) => s.outTenon x bay (t.sampleIx - (x.runOf t.sampleIx).base) t same side

/-- Sends a unit out of a bay towards the next stage; with no route it goes nowhere. -/
def State.sendUnit (bay : Nat) (u : DataUnit) (same : Bool) (side : Option Nat) (s : State) : State :=
  match s.unitTenon bay u.tag same side with
  | none => s
  | some t => s.putUnit bay t u

/-- What keys the draws of a sample (R284, R292). -/
def Stream.drawKey (x : Stream) (g : Nat) : DrawKey := let r := x.runOf g; ⟨x.seed, r.epoch, g - r.base⟩

/-! ## Rejections downstream (R60, R348, R373, R406) -/

/-- A REJECT beat leaves a bay towards the packer (R60); with no route the sample is withdrawn at once. -/
def State.sendReject (bay code : Nat) (tag : UnitTag) (s : State) : State := match s.byGidx tag.stream with
  | none => s
  | some (f, i, x) =>
    match s.outTenon x bay (tag.sampleIx - (x.runOf tag.sampleIx).base) tag false none with
    | some t => s.putBeats bay t [rejectBeat code tag]
    | none => s.sampleDone f i { InFlight.fresh tag.sampleIx tag.gen with bad := true }

/-- A sample is rejected in a bay: its record, and a REJECT beat towards the packer (R60, R516). -/
def State.rejectAt (f i bay : Nat) (tag : UnitTag) (code detail : Nat) (s : State) : State :=
  (s.sampleError f i code bay detail).sendReject bay code { tag with role := 0 }

/-! ## Arrival at the packer -/

/-- Changes the sample in flight that a tag names. -/
def State.modFlight (f i : Nat) (t : UnitTag) (g : InFlight → InFlight) (s : State) : State :=
  s.modStream f i (fun x => { x with inFlight := x.inFlight.map (fun y => if y.index = t.sampleIx ∧ y.gen = t.gen then g y else y) })

/-- One more part in `d` of the sample has arrived (log 12). -/
def InFlight.addPart (y : InFlight) (d : Nat) : InFlight :=
  let n := y.got * d + y.den
  let g := max 1 (Nat.gcd n (y.den * d))
  { y with got := n / g, den := y.den * d / g }

/-- Every part of the sample and every sidecar has arrived. -/
def InFlight.whole (y : InFlight) : Bool := y.got == y.want * y.den && y.sideGot == y.sideWant

/-- A sample whose units are all there is handed to the packer. -/
def State.settleFlight (f i : Nat) (t : UnitTag) (s : State) : State :=
  match (s.stream f i).inFlight.find? (fun y => y.index == t.sampleIx && y.gen == t.gen) with
  | some y => if y.whole then (s.sampleDone f i y).pump f i else s
  | none => s

/-- Tokens of 2 bytes as tokens of 4 bytes (R383, R433). -/
def widenTokens (bs : Bytes) : Bytes := (chunks 2 bs.length bs).flatMap (fun c => padTo 4 c)

/-- A unit reaches the pack bay (R428, R432). A mask unit follows the sample's bytes in arrival order. -/
def State.packUnit (u : DataUnit) (s : State) : State := match s.tagStream u.tag with
  | none => s
  | some (f, i, x) =>
    let t := u.tag
    let body := ((s.packBody x.graph).map (·.2)).getD []
    let lay := decide (0 < packUnits body)
    let bytes := if packSeq body && t.width == 2 then widenTokens u.bytes else u.bytes
    (s.modFlight f i t (fun y =>
      if t.role = 2 then { y with side := y.side ++ u.bytes, sideGot := y.sideGot + 1, words := y.words ++ u.words }
      else
        let y := { y.addPart t.den with sideWant := y.sideWant + t.sides, kind := t.kind, words := y.words ++ u.words }
        if lay && t.role == 0 then { y with units := y.units ++ [(t.ordinal, bytes)] } else { y with data := y.data ++ bytes })).settleFlight f i t

/-- A REJECT beat reaches the pack bay: the whole sample, or one unit of it (R406), is withdrawn. `role` 3 marks the
withdrawal of one unit. -/
def State.packReject (t : UnitTag) (s : State) : State := match s.tagStream t with
  | none => s
  | some (f, i, _) =>
    if t.role = 3 then
      (s.modFlight f i t (fun y => { y.addPart t.den with kind := t.kind, gone := y.gone ++ [t.ordinal] })).settleFlight f i t
    else (s.sampleDone f i { InFlight.fresh t.sampleIx t.gen with bad := true }).pump f i

/-! ## Tables read on demand (R101 to R106) -/

/-- The reference of a table in the committed image. -/
def State.tableRef (s : State) (id : Nat) : Option TableRef := s.image.committed.bind (fun c => c.tables.find? (fun t => t.id == id))

/-- Reads the chunks of a table from memory, each checked (R105): the bytes, or the failing response, or none when a
digest fails. `mgmt` accesses halt nothing by themselves. -/
def State.readChunks (w : Party) (addr : Nat) : Nat → Nat → List Bytes → State → Except (Option (Resp × Nat)) Bytes × State
  | _, _, [], s => (.ok [], s)
  | at_, left, d :: ds, s =>
    let n := min left 65536
    match s.sysRead w (addr + at_) n with
    | (.okay, bs, s) =>
      if sha256 bs != d then (.error none, s)
      else match s.readChunks w addr (at_ + n) (left - n) ds with
        | (.ok rest, s) => (.ok (bs ++ rest), s)
        | (e, s) => (e, s)
    | (r, _, s) => (.error (some (r, addr + at_)), s)

/-- The engine slot of a stream's graph in a bay whose profile names a table. -/
def State.tableSlot (s : State) (g k id : Nat) : Option Nat := s.image.committed.bind (fun c =>
  ((c.bound g).find? (fun x => x.1.bay == k && (profileTables c.tables x.1.engine x.2.body).contains id)).map (·.1.slot))

/-- Who reads a table: a stream in a bay, for one of its batches (R231). -/
structure Site where
  fn : Nat
  stream : Nat
  bay : Nat
  batch : Nat
  deriving DecidableEq, Repr

/-- Bytes of a table for a stream in a bay: of a pinned one from the banks of its engine, which waits until it reaches them (R260); of another
from memory, by the chunks in which they lie, each checked (R105). None: the stream waits, or has halted, by AUTH_FAIL naming the table
(R106) or by the response (R248, R566). -/
def State.tableBytes (w : Site) (id off len : Nat) (s : State) : Option Bytes × State :=
  let x := s.stream w.fn w.stream
  match tblGet? s.image.pinned id with
  | some bs => (match s.tableSlot x.graph w.bay id with
    | none => (some (bytesAt bs off len), s)
    | some slot => match s.pinnedTable w.bay slot id with
      | (some bs, s) => (some (bytesAt bs off len), s)
      | (none, s) => (none, s.mustWait .blocked))
  | none =>
    match s.tableRef id, s.image.committed.bind (fun c => c.tableMap.find? (fun m => m.id == id)) with
    | some t, some m =>
      let c := off / 65536
      let n := ceilDiv (off + len) 65536 - c
      match s.readChunks (s.party w.fn x w.batch) m.dataAddr (65536 * c) (t.size - 65536 * c) ((m.chunks.drop c).take n) with
      | (.ok bs, s) => (some (bytesAt bs (off - 65536 * c) len), s)
      | (.error none, s) => (none, (s.streamError w.fn w.stream stAuthFail id).relays)
      | (.error (some (r, a)), s) => (none, (s.streamResp w.fn w.stream a false r).relays)
    | _, _ => (none, (s.streamError w.fn w.stream stUnsupported id).relays)

/-- A whole table. -/
def State.streamTable (w : Site) (id : Nat) (s : State) : Option Bytes × State :=
  s.tableBytes w id 0 (((s.tableRef id).map (·.size)).getD 0)

/-- Keeps a unit at a bay until its stream resumes (R328, R373). -/
def State.holdUnit (bay mortise : Nat) (u : DataUnit) (s : State) : State := s.modBay bay (fun b => { b with held := b.held ++ [(mortise, u)] })

/-! ## Units in the banks (R257, R259, R260) -/

/-- The engine slot that takes a unit in a bay, and the banks that the plan gives it for units: those after its pinned tables, in a judge
bay after its weight banks too (R399; log 32). -/
def State.unitArea (s : State) (k : Nat) (t : UnitTag) : Option (Nat × List Nat) := do
  let (_, _, x) ← s.byGidx t.stream
  let slot ← (s.slotsOf x.graph k).head?
  let weights := if s.bayKind k = 5 then ((s.image.committed.bind (fun c => (c.bound x.graph).find? (fun b => b.1.bay == k && b.1.slot == slot))).map
    (fun b => leAt b.2.body 6 1)).getD 0 else 0
  return (slot, (s.slotBanks k slot).drop (ceilDiv (s.pinWords k slot) 4096 + weights))

/-- The engine reaches a bank for a unit (R260). Where the plan gives it none, nothing holds the unit back. -/
def State.canLand (s : State) (k : Nat) (t : UnitTag) : Bool := match s.unitArea k t with
  | some (slot, area) => area.isEmpty || area.any (fun b => s.reaches b 1 slot)
  | none => true

/-- Runs of words in a bay that units hold which have not been processed; in a pack bay also those of samples that are not packed. -/
def State.usedRuns (s : State) (k : Nat) : List (Nat × Nat) :=
  (s.bay k).held.flatMap (fun h => h.2.words) ++ (s.bay k).heat.flatMap (fun h => h.data.words) ++
  (if s.bayKind k = 6 then s.openStreams.flatMap (fun p => (p.2.2.inFlight ++ p.2.2.ready).flatMap (fun y => y.words)) else [])

/-- Two lists of runs share a word. -/
def runsMeet (a b : List (Nat × Nat)) : Bool := a.any (fun r => b.any (fun q => decide (r.1 < q.1 + q.2) && decide (q.1 < r.1 + r.2)))

/-- Where `n` words go in some banks: from the lowest position, a bank's first word or the end of a run in use, from which no word is in use;
where there is none, from the first word (log 32). -/
def freeRuns (banks : List Nat) (used : List (Nat × Nat)) (n : Nat) : List (Nat × Nat) :=
  let fuel := n / 4096 + 2
  let ends := used.filterMap (fun r => (banks.findIdx? (· == r.1 / 4096)).map (fun j => 4096 * j + r.1 % 4096 + r.2))
  let at_ := sortBy (fun (a b : Nat) => decide (a ≤ b)) (0 :: ends)
  ((at_.map (fun p => bankRuns banks fuel p n)).find? (fun rs => !runsMeet rs used)).getD (bankRuns banks fuel 0 n)

/-- The lowest place of the activation banks that no waiting unit has (R399; log 32). -/
def State.heatPlace (s : State) (k : Nat) : Nat :=
  let used := (s.bay k).heat.map (·.place)
  ((List.range (used.length + 1)).find? (fun n => !used.contains n)).getD 0

/-- A unit's codewords are written into banks of the engine that takes it (R57, R257): in a judge bay at its place of the activation banks,
ACT_BYTES for each place (R399), elsewhere where there is room (log 32). The runs that hold it. -/
def State.landUnit (k : Nat) (t : UnitTag) (codes : List Codeword) (s : State) : List (Nat × Nat) × State := match s.unitArea k t with
  | none => ([], s)
  | some (slot, area) =>
    let banks := area.filter (fun b => s.reaches b 1 slot)
    let ws := (chunks 4 codes.length codes).map (fun c => c ++ List.replicate (4 - c.length) ⟨0, 0⟩)
    let rs := if s.bayKind k = 5 then bankRuns banks (ws.length / 4096 + 2) (s.heatPlace k * s.actWords k slot) ws.length
      else freeRuns banks (s.usedRuns k) ws.length
    (rs, s.writeRuns rs ws)

end Sys2Proof.Machine
end

