-- ==== Sys2Proof/Machine/TextOps.lean ====
section
/-! DEFINITION. The text engine at work: which vocabulary a document uses (R380), first-use checks (R379, R453), what
leaves the bay (R383, R387), and documents fed by SAMPLE jobs (R370 to R373). -/

namespace Sys2Proof.Machine

/-- The profile body of an engine code that a graph binds in a bay. -/
def State.bayProfile (s : State) (g bay engine : Nat) : Option Bytes := match s.image.committed with
  | some c => ((c.bound g).find? (fun x => x.1.bay == bay && x.1.engine == engine)).map (·.2.body)
  | none => none

/-- Whether a graph binds an engine code anywhere. -/
def State.bindsEngine (s : State) (g engine : Nat) : Bool := match s.image.committed with
  | some c => (c.bound g).any (fun x => x.1.engine == engine)
  | none => false

/-- What stops a document: a rejection, or its stream, which has halted or waits. -/
inductive TextStop where
  | rejected (code detail : Nat)
  | halted
  deriving DecidableEq, Repr

/-- The slot that KIND_VOCAB gives a kind (R380). -/
def kindSlot (body : Bytes) (kind : Nat) : Option Nat :=
  ((List.range 8).find? (fun j => kind != 0 && leAt body (0x40 + 2 * j) 1 == kind)).map (fun j => leAt body (0x41 + 2 * j) 1)

/-- A vocabulary at a use (R377, R379): its bytes; one that fails its checks halts the stream. -/
def State.vocabAt (w : Site) (body : Bytes) (id : Nat) (s : State) : Option Bytes × State :=
  match s.streamTable w id with
  | (none, s) => (none, s)
  | (some v, s) =>
    if (s.tableRef id).any (fun t => t.kind == 1) && vocValid v (bitOf (leAt body 0x68 2) 7) then (some v, s)
    else (none, (s.streamError w.fn w.stream stUnsupported id).relays)

/-- The vocabulary of a document (R379, R380): its bytes, or a rejection, or a halt. -/
def State.docVocab (w : Site) (body : Bytes) (vocab kind : Nat) (s : State) : Except TextStop Bytes × State :=
  match (if vocab = 0xFF then kindSlot body kind else some vocab) with
  | none => (.error (.rejected stUnsupported 0), s)
  | some slot =>
    let id := if slot < 16 then leAt body (4 * slot) 4 else 0
    if id = 0 then (.error (.rejected stUnsupported 0), s) else
      match s.vocabAt w body id with
      | (some v, s) => (.ok v, s)
      | (none, s) => (.error .halted, s)

/-! ## Grammars in the banks (R453) -/

/-- A grammar fails its checks: the stream halts (R453). -/
def State.gramBad (w : Site) (id : Nat) (s : State) : State := (s.streamError w.fn w.stream stUnsupported id).relays

/-- The header, INFO and CLASS of a grammar are read and checked at its first use (R453). -/
def State.gramLoad (w : Site) (t : TableRef) (v : Bytes) (banks : Nat) (s : State) : Option GramRef × State :=
  match s.tableBytes w t.id 0 64 with
  | (none, s) => (none, s)
  | (some h, s) =>
    if t.kind ≠ 2 ∨ !gramHeadOk h v t.size banks then (none, s.gramBad w t.id)
    else match s.tableBytes w t.id (leAt h 0x18 8) (leAt h 0x04 4) with
      | (none, s) => (none, s)
      | (some info, s) => match s.tableBytes w t.id (leAt h 0x20 8) (2 * leAt h 0x08 4) with
        | (none, s) => (none, s)
        | (some cls, s) =>
          let g : GramRef := ⟨t, h, info, cls, []⟩
          if (List.range g.tokens).all (fun k => decide (leAt cls (2 * k) 2 < g.classes)) then
            (some g, s.modStream w.fn w.stream (fun x => { x with grams := tblSet x.grams w.bay g }))
          else (none, s.gramBad w t.id)

/-- The grammar of a text profile, in the banks from its first use on (R453). A patch that brings another table brings a first use. -/
def State.gramAt (w : Site) (body v : Bytes) (s : State) : Option GramRef × State :=
  let id := leAt body 0x6C 4
  match s.tableRef id with
  | none => (none, s.gramBad w id)
  | some t => match tblGet? (s.stream w.fn w.stream).grams w.bay with
    | some g =>
      if g.table = t then (if g.tokens = vocTokens v then (some g, s) else (none, s.gramBad w id))
      else s.gramLoad w t v (leAt body 0x80 1)
    | none => s.gramLoad w t v (leAt body 0x80 1)

/-- A line of a grammar: from the banks, or fetched on a miss (R105, R453). DESIGN CHOICE (log 143): a full cache drops its oldest line. -/
def State.gramLine (w : Site) (g : GramRef) (banks off : Nat) (s : State) : Option Bytes × State :=
  match ((tblGet? (s.stream w.fn w.stream).grams w.bay).bind (fun g => g.lines.find? (fun l => l.1 == off))) with
  | some l => (some l.2, s)
  | none => match s.tableBytes w g.table.id off 64 with
    | (none, s) => (none, s)
    | (some bs, s) => (some bs, s.modStream w.fn w.stream (fun x => { x with
        grams := tblSet x.grams w.bay { (tblGetD x.grams w.bay g) with
          lines := ((off, bs) :: (tblGetD x.grams w.bay g).lines).take (g.room banks) } }))

/-- The next state by a token (R452); one out of range fails the use (R453). -/
def State.gramNext (w : Site) (g : GramRef) (banks st k : Nat) (s : State) : Option Nat × State :=
  let a := g.nextAt st k
  match s.gramLine w g banks (a / 64 * 64) with
  | (none, s) => (none, s)
  | (some l, s) =>
    let n := leAt l (a % 64) 2
    if n < g.states then (some n, s) else (none, s.gramBad w g.table.id)

/-- The whole mask of a state, line by line from the j-th. -/
def State.gramMask (w : Site) (g : GramRef) (banks st : Nat) : Nat → Nat → State → Option Bytes × State
  | 0, _, s => (some [], s)
  | n + 1, j, s => match s.gramLine w g banks (g.maskAt st j) with
    | (none, s) => (none, s)
    | (some l, s) => match s.gramMask w g banks st n (j + 1) with
      | (none, s) => (none, s)
      | (some r, s) => (some (l ++ r), s)

/-- What a request's state allows (R452). -/
def State.gramRow (w : Site) (g : GramRef) (banks st : Nat) (s : State) : Option GramRow × State :=
  match s.gramMask w g banks st g.maskLines 0 with
  | (some m, s) => (some ⟨g.accept st, g.empty st, m⟩, s)
  | (none, s) => (none, s)

/-- Tokens of a document are checked against a grammar, from a state on (R384): the state after them, or why it stops. `ix` numbers the
first of them. -/
def State.gramTokens (w : Site) (g : GramRef) (banks : Nat) : Nat → Nat → List Nat → State → Except TextStop Nat × State
  | st, _, [], s => (.ok st, s)
  | st, ix, k :: t, s =>
    if g.empty st then (.error (.rejected stGrammarDead (ix + 2 ^ 32)), s)
    else match s.gramLine w g banks (g.maskAt st (k / 512)) with
      | (none, s) => (.error .halted, s)
      | (some l, s) =>
        if !bitOf (leAt l (k % 512 / 8) 1) (k % 8) then (.error (.rejected stGrammarDead (ix + 2 * 2 ^ 32)), s)
        else match s.gramNext w g banks st k with
          | (none, s) => (.error .halted, s)
          | (some n, s) => s.gramTokens w g banks n (ix + 1) t

/-- The grammar check on the tokens that are new since the last one (R384); at the end of the document the state must accept. -/
def State.docGrammar (w : Site) (e : TextEnv) (kind : Nat) (last : Bool) (x : TextState) (s : State) : Except TextStop TextState × State :=
  if !e.flag 6 || kind != 7 then (.ok x, s)
  else match s.gramAt w e.body e.vocab with
    | (none, s) => (.error .halted, s)
    | (some g, s) =>
      match s.gramTokens w g (leAt e.body 0x80 1) (x.gram.getD g.start) x.checked (x.tokens.reverse.drop x.checked) with
      | (.error r, s) => (.error r, s)
      | (.ok st, s) =>
        if last && !g.accept st then (.error (.rejected stGrammarDead (x.tokens.length + 3 * 2 ^ 32)), s)
        else (.ok { x with gram := some st, checked := x.tokens.length }, s)

/-! ## The stages at work (R369) -/

/-- One input buffer of a document passes through the stages, the last with the document's end (R369, R373): the text state after it and
the vocabulary, or why it stops. Tokens that came before an error are checked first. -/
def State.textBuffer (w : Site) (body : Bytes) (vocab kind : Nat) (x : Option TextState) (bs : Bytes) (last : Bool) (s : State) :
    Except TextStop (TextEnv × TextState) × State :=
  match s.docVocab w body vocab kind with
  | (.error r, s) => (.error r, s)
  | (.ok v, s) =>
    let e : TextEnv := ⟨body, v⟩
    let r := TextRun.feed e bs ⟨x.getD e.start, none⟩
    let r := if last then r.finish e else r
    match s.docGrammar w e kind (last && r.err.isNone) r.st with
    | (.error e, s) => (.error e, s)
    | (.ok y, s) => match r.err with
      | some (code, detail) => (.error (.rejected code detail), s)
      | none => (.ok (e, y), s)

/-- Sends a token run and its sidecar (R383, R387). -/
def State.sendRun (bay : Nat) (body : Bytes) (tag : UnitTag) (o : DocOut) (s : State) : State :=
  let w := if bitOf (leAt body 0x68 2) 7 then 2 else 4
  let t := { tag with role := 0, ordinal := 0, width := w, sides := b2n o.side.isSome }
  let s := s.sendUnit bay ⟨o.tokens.flatMap (natLe w), t, []⟩ false (o.side.map (fun _ => leAt body 0x6A 1))
  match o.side with
  | some d => s.putUnit bay (leAt body 0x6A 1) ⟨d, { t with role := 2, sides := 0 }, []⟩
  | none => s

/-- A raw document that intake sent reaches a text bay: it passes whole through the stages (R369). -/
def State.textUnit (bay mortise : Nat) (u : DataUnit) (s : State) : State := match s.tagStream u.tag with
  | none => s
  | some (f, i, x) =>
    if x.st == .halted then s.holdUnit bay mortise u else
    match s.bayProfile x.graph bay 0x0401 with
    | none => s.sendUnit bay u false none
    | some body =>
      match s.textBuffer ⟨f, i, bay, s.sampleBatch x u.tag.sampleIx⟩ body 0xFF u.tag.kind none u.bytes true with
      | (.ok (e, y), s) => s.sendRun bay body u.tag (y.out e)
      | (.error (.rejected code detail), s) => s.rejectAt f i bay u.tag code detail
      | (.error .halted, s) => s.holdUnit bay mortise u

/-! ## Documents of SAMPLE jobs (R371 to R373) -/

/-- The text bay for a stream's sample of logical index p (R468, R469). -/
def State.textBay (s : State) (x : Stream) (p : Nat) : Option Nat :=
  let bs := s.stageEngines x.graph (fun e => e == 0x0401)
  if x.openMode then s.leastBusy (bs.map (·.1)) else (bs[p % max 1 bs.length]?).map (·.1)

/-- The sample that a document is. -/
def Stream.docFlight (x : Stream) (d : OpenDoc) : Option InFlight := x.inFlight.find? (fun y => y.index == d.index && y.gen == d.gen)

/-- Its logical index (R285). -/
def Stream.docLogical (x : Stream) (d : OpenDoc) : Nat := d.index - (x.runOf d.index).base

/-- The tag of its units. -/
def Stream.docTag (x : Stream) (d : OpenDoc) : UnitTag := { UnitTag.fresh x.gidx d.index d.gen with kind := d.kind }

/-- A dispatch takes the next own index (R292, R485). -/
def State.dispatchSample (f i kind : Nat) (s : State) : State :=
  let x := s.stream f i
  let base := (x.runOf x.position).base
  let n := s.genCtr
  let s : State := { s with genCtr := n + 1 }
  s.setStream f i { x with
    inFlight := x.inFlight ++ [{ InFlight.fresh x.position n with kind := kind }],
    position := x.after s.meet x.position base }

/-- The first SAMPLE of a stream begins its run; a guaranteed stream whose start is not given starts then (log 56). -/
def State.sampleRunStart (f i : Nat) (s : State) : State :=
  let x := s.stream f i
  if !x.runs.isEmpty then s
  else s.setStream f i { x with
    runs := [⟨0, x.epoch, none, 0, 0, 0, none⟩], position := x.nextOwn s.meet 0 0, sourced := true,
    t0 := if x.t0Given then x.t0 else s.now, t0Given := true }

/-- A document starts: it is dispatched with the next own index (R292, R372, R485), to the text bay that R468 or R469 names. -/
def State.docOpen (f i vocab kind : Nat) (s : State) : State :=
  let s := s.sampleRunStart f i
  let x := s.stream f i
  let bay := (s.textBay x (x.position - (x.runOf x.position).base)).getD 0
  let body := (s.bayProfile x.graph bay 0x0401).getD []
  let d : OpenDoc := ⟨vocab, kind, none, x.position, s.genCtr, bay, TextEnv.start ⟨body, []⟩⟩
  (s.dispatchSample f i kind).modStream f i (fun x => { x with doc := some d })

/-- The open document is rejected (R372, R373): a REJECT beat withdraws it; its later jobs complete with the same status. A document that
ends with this is closed. -/
def State.docReject (f i code : Nat) (more : Bool) (s : State) : State :=
  let x := s.stream f i
  match x.doc with
  | none => s
  | some d =>
    let s := s.setStream f i { x with doc := if more then some { d with rejected := d.rejected.or (some code) } else none }
    if d.rejected.isSome || (x.docFlight d).isNone then s
    else (s.sampleCount f code d.bay).sendReject d.bay code (x.docTag d)

/-- Bytes of the open document have been read, the last ones with its end (R370 to R373): what becomes of it. A halt keeps the text state as
it was. -/
def State.docTake (f i : Nat) (bs : Bytes) (last : Bool) (s : State) : Option TextStop × State :=
  let x := s.stream f i
  match x.doc with
  | none => (none, s)
  | some d => match s.bayProfile x.graph d.bay 0x0401 with
    | none => (some (.rejected stUnsupported 0), s.docReject f i stUnsupported !last)
    | some body =>
      match s.textBuffer ⟨f, i, d.bay, s.sampleBatch x d.index⟩ body d.vocab d.kind (some d.text) bs last with
      | (.error (.rejected code detail), s) => (some (.rejected code detail), s.docReject f i code !last)
      | (.error .halted, s) => (some .halted, s)
      | (.ok (e, y), s) =>
        if last then (none, (s.sendRun d.bay body (x.docTag d) (y.out e)).modStream f i (fun x => { x with doc := none }))
        else (none, s.modStream f i (fun x => { x with doc := some { d with text := y } }))

end Sys2Proof.Machine
end

