-- ==== Sys2Proof/Machine/Streams.lean ====
section
/-! DEFINITION. Descriptor entries that act on streams (R204, R222 to R227, R237 to R239, R249, R274, R307, R308, R372,
R543) and the return of slots (R426). -/

namespace Sys2Proof.Machine

/-! ## How an entry acts (R189, R190, R204, R565) -/

/-- An opcode that changes its stream's state and takes in no input (R204). -/
def changesState (op : Nat) : Bool := op == 0x03 || op == 0x0B || op == 0x0D || op == 0x0E

/-- An earlier job of the queue that names one of the same streams has not taken in all its inputs, or has writes to make (R204). A
transfer whose stream has halted holds back later transfers, not the STREAM_RESUME or STREAM_CLOSE that it waits for (log 53). -/
def State.heldBack (s : State) (f q : Nat) (j : Job) : Bool :=
  ((s.queue f q).jobs.takeWhile (fun y => !(y.slot == j.slot && y.gen == j.gen))).any (fun y =>
    let common := y.names.filter (fun n => j.names.contains n)
    !y.complete && decide (y.acted < y.total) && !common.isEmpty &&
      !(y.progress.isSome && changesState j.opcode && common.all (fun n => (s.stream f n).st == .halted)))

/-- The job whose entry in a slot may act now as this opcode. -/
def State.readyEntry (s : State) (op f q slot : Nat) : Option (Job × Bytes) := match s.jobAt f q slot with
  | some (j, bs) => if s.live && j.opcode == op && !s.heldBack f q j then some (j, bs) else none
  | none => none

/-- One entry acts: in WALK everything but COPY completes with ACCESS_DENIED (R190). -/
def State.runEntry (op f q slot : Nat) (v : MemView) (body : Job → Bytes → State → State) (s : State) : Out :=
  let s := s.seeMem v
  s.turn fun s =>
  match s.readyEntry op f q slot with
  | none => .next s
  | some (j, bs) =>
    if s.frame.st == .walk && op != 1 then
      .next (if pairJob op then s.jobDone f q j stAccessDenied 0 else s.entryDone f q j bs stAccessDenied 0)
    else .next (body j bs s)

/-! ## Ends of streams -/

/-- The oldest finished batch is delivered, and what waited for that goes on. -/
def State.deliverHead (f i : Nat) (time : Option Nat) (s : State) : State :=
  if (s.stream f i).finished.isEmpty then s else (((s.releaseHead f i time).pump f i).wakeSamples f i).finishDrain f i

/-! ## STREAM_OPEN (R222 to R227, R424) -/

/-- The fields of the second entry of STREAM_OPEN and CONTEXT_RESTORE that are out of range (R424). -/
def State.targetBad (s : State) (g depth : Nat) (e : Bytes) : Bool :=
  let slot := match s.packBody g with
    | some (_, body) => packSlotBytes body
    | none => 0
  let log2 := leAt e 0x20 1
  leAt e 0x08 8 % 4096 != 0 || leAt e 0x10 8 % 4096 != 0 || decide (leAt e 0x10 8 < slot) || leAt e 0x18 8 % 64 != 0 || decide (log2 < 4) ||
  decide (16 < log2) || decide (2 ^ log2 < depth + 8) || decide (63 < leAt e 0x21 1) || decide (s.meet ≤ leAt e 0x23 1)

/-- The admission sum of R226 as a fraction: samples per second of the open guaranteed streams of a graph. -/
def State.reservedRate (s : State) (g : Nat) : Nat × Nat :=
  (s.openStreams.filter (fun p => p.2.2.guaranteed && p.2.2.graph == g)).foldl
    (fun a p => (a.1 * p.2.2.period + p.2.2.batch * 1000000000 * a.2, a.2 * p.2.2.period)) (0, 1)

/-- The rate check of R226. -/
def State.admits (s : State) (g batch period : Nat) : Bool :=
  let r := s.reservedRate g
  let guar := ((s.graph? g).map (·.guarRate)).getD 0
  decide (r.1 * period + batch * 1000000000 * r.2 ≤ guar * (r.2 * period))

/-- The graph binds a fenced bay (R527). -/
def State.graphFenced (s : State) (g : Graph) : Bool := (List.range s.nBays).any (fun k => hasBit g.bays k && s.fenced k)

/-- The frame's mode is among the image's MODES (R88, R223). -/
def State.modeAdmitted (s : State) : Bool := match s.image.committed with
  | some c => bitOf c.modes (if s.frame.openMode then 0 else 1)
  | none => false

/-- A patch that is draining affects the graph (R113). DESIGN CHOICE (log 118): a graph uses a route when the committed route joins a
patched bay to a bay of the graph. -/
def State.patchAffects (s : State) (g : Graph) : Bool :=
  if s.image.st != .draining then false else match s.image.staged, s.image.committed with
  | some p, some c =>
    (List.range 64).any (fun k => hasBit g.bays k && hasBit p.patchBays k) ||
    c.routes.any (fun r => (hasBit p.patchBays r.tenonBay && hasBit g.bays r.mortiseBay) || (hasBit p.patchBays r.mortiseBay && hasBit g.bays r.tenonBay))
  | _, _ => false

/-- The pool check of R279. -/
def State.poolsReady (s : State) (f g : Nat) : Bool :=
  (s.poolNeeds g).all (fun n => match s.poolNo f n.1 with
    | none => false
    | some p =>
      let x := s.pool p
      let sum := (s.openStreams.filter (fun y => y.1 == f)).foldl (fun a y => a + s.reservation y.2.2.graph n.1) (s.reservation g n.1)
      x.enabled && (s.frame.openMode || decide (sum ≤ x.added)))

/-- A graph with a judge engine (R402). -/
def State.judgeGraph (s : State) (g : Nat) : Bool := s.bindsEngine g 0x0501

/-- The ACCESS_DENIED checks of a CONTEXT_RESTORE (R482, R527): the DETAIL of the first that fails. R113, R279 and R402 name STREAM_OPEN
alone. -/
def State.restoreDenied (s : State) (g : Graph) (guaranteed : Bool) (batch period : Nat) : Option Nat :=
  if s.graphFenced g then some 24
  else if 1024 ≤ s.openStreams.length then some 17
  else if !s.modeAdmitted then some 18
  else if guaranteed && !s.admits g.num batch period then some 16
  else none

/-- The ACCESS_DENIED checks of a STREAM_OPEN (R113, R223, R226, R279, R402, R527): the DETAIL of the first that fails. -/
def State.openDenied (s : State) (f : Nat) (g : Graph) (guaranteed : Bool) (batch period : Nat) : Option Nat :=
  if s.graphFenced g then some 24
  else if 1024 ≤ s.openStreams.length then some 17
  else if !s.modeAdmitted then some 18
  else if s.patchAffects g then some 19
  else if guaranteed && !s.admits g.num batch period then some 16
  else if !s.poolsReady f g.num then some 21
  else if s.judgeGraph g.num && decide (s.heat.size < s.heat.need) then some 22
  else none

/-- The DETAIL of the first MALFORMED_ENTRY check that STREAM_OPEN fails (R223, R424, R431). -/
def State.openMalformed (s : State) (f : Nat) (a b : Bytes) : Option Nat :=
  let i := leAt a 0x08 2
  let fl := leAt a 0x0D 1
  let cls := leAt a 0x0C 1
  let batch := leAt a 0x24 4
  let t0 := leAt a 0x30 8
  let depth := leAt a 0x38 1
  if 1023 < i ∨ (s.stream f i).st ≠ .free then some 16
  else match s.graph? (leAt a 0x0A 2) with
  | none => some 17
  | some g =>
    if 1 < cls ∨ batch = 0 ∨ g.maxBatch < batch ∨ (cls = 1 ∧ leAt a 0x28 8 = 0) then some 18
    else if depth < 2 ∨ 64 < depth then some 19
    else if t0 ≠ 0 ∧ t0 < s.now then some 20
    else if bitOf fl 0 && (1023 < leAt a 0x0E 2 || (s.stream f (leAt a 0x0E 2)).st == .free ||
        s.openStreams.any (fun p => p.1 == f && p.2.2.follows == some (leAt a 0x0E 2))) then some 21
    else if s.targetBad g.num depth b then some 24
    else if cls == 1 && (match s.packBody g.num with
        | some (_, body) => packCompact body
        | none => false) then some 25
    else none

/-- The delivery target of a second entry (R424). -/
def Stream.withTarget (x : Stream) (e : Bytes) : Stream :=
  { x with
    slotBase := leAt e 0x08 8, slotStride := leAt e 0x10 8, relayBase := leAt e 0x18 8, relayLog2 := leAt e 0x20 1, vector := leAt e 0x21 1,
    notify := bitOf (leAt e 0x22 1) 0, self := leAt e 0x23 1 }

/-- The stream that an admitted STREAM_OPEN makes (R222). -/
def State.openedStream (s : State) (f : Nat) (a b : Bytes) (g : Graph) (gidx : Nat) : Stream :=
  let fl := leAt a 0x0D 1
  let t0 := leAt a 0x30 8
  let guar := leAt a 0x0C 1 == 1
  { Stream.fresh with
    st := .filling, gidx := gidx, guaranteed := guar, grouped := bitOf fl 1, openMode := s.frame.openMode, graph := g.num,
    seed := BitVec.ofNat 128 (leAt a 0x10 16), firstEpoch := leAt a 0x20 4, epoch := leAt a 0x20 4, batch := leAt a 0x24 4,
    period := leAt a 0x28 8, t0 := if t0 = 0 ∧ g.direction = 1 then s.now else t0, t0Given := !(t0 == 0 && g.direction == 0), t0Open := t0,
    depth := leAt a 0x38 1, follows := if bitOf fl 0 then some (leAt a 0x0E 2) else none, hurdle := bitOf fl 0 && g.boundary == 1,
    before := if bitOf fl 0 && g.boundary == 1 then let y := s.stream f (leAt a 0x0E 2); some (y.gidx, y.graph) else none,
    boundaries := if bitOf fl 0 then [0] else [] : Stream }.withTarget b

/-- The second entry of a two-entry job. -/
def Job.second (j : Job) : Bytes := (j.entries.getD 1 (0, [])).2

/-- A stream is opened (R220, R546). -/
def State.openAt (f i : Nat) (gidx : Nat) (x : Stream) (s : State) : State := (s.setStream f i x).clearCounts 4 gidx

/-- STREAM_OPEN. -/
def State.streamOpen (f q : Nat) (j : Job) (a : Bytes) (s : State) : State :=
  let b := j.second
  match s.openMalformed f a b with
  | some d => s.jobDone f q j stMalformed d
  | none =>
    match s.graph? (leAt a 0x0A 2) with
    | none => s.jobDone f q j stMalformed 17
    | some g =>
      match s.openDenied f g (leAt a 0x0C 1 == 1) (leAt a 0x24 4) (leAt a 0x28 8), s.freeGidx with
      | some d, _ => s.jobDone f q j stAccessDenied d
      | none, none => s.jobDone f q j stAccessDenied 17
      | none, some gidx => (s.openAt f (leAt a 0x08 2) gidx (s.openedStream f a b g gidx)).jobDone f q j stOk 0

def execStreamOpen (fn : BitVec 6) (q : BitVec 9) (slot : BitVec 16) (v : MemView) (s : State) : Out :=
  s.runEntry 0x02 fn.toNat q.toNat slot.toNat v (State.streamOpen fn.toNat q.toNat)

/-! ## STREAM_CLOSE (R223, R236, R237, R373) -/

/-- No further sample is dispatched (R237): the record being read is given up, an open document has ended. -/
def State.stopDispatch (f i : Nat) (s : State) : State :=
  let s := s.dropReqs (fun r => match r.owner with
    | .streamRead g k _ _ => g == f && k == i
    | _ => false)
  let y := s.stream f i
  let s := if !y.runs.isEmpty && !y.flushSent then s.sendFlush f i else s
  s.modStream f i (fun x => { x with
    st := .draining, ended := true, reading := none,
    runs := x.runs.map (fun r => match r.stop with
      | some e => if x.position < e ∧ r.base ≤ x.position then { r with stop := some x.position } else r
      | none => { r with stop := some x.position }) })

/-- A draining stream's open document ends as if its last buffer had ended (R373); an error is logged, since no job found it (R516). Whether
it has ended: not when the stream halts or waits. -/
def State.endDoc (f i : Nat) (s : State) : Bool × State :=
  match (s.stream f i).doc with
  | none => (true, s)
  | some d =>
    if d.rejected.isSome then (true, s.modStream f i (fun x => { x with doc := none }))
    else match s.docTake f i [] true with
      | (none, s) => (true, s)
      | (some (.rejected code detail), s) => (true, s.logTo (some f) code 0 0 i d.bay detail)
      | (some .halted, s) => (false, s)

/-- STREAM_CLOSE. -/
def State.streamClose (f q : Nat) (j : Job) (bs : Bytes) (s : State) : State :=
  let i := leAt bs 0x08 2
  let mode := leAt bs 0x0A 1
  let x := s.stream f i
  if 1023 < i ∨ x.st = .free then s.entryDone f q j bs stMalformed 22
  else if 1 < mode then s.entryDone f q j bs stMalformed 23
  else if mode = 1 ∨ x.st = .halted then (s.entryDone f q j bs stOk 0).abortStream f i
  else
    match s.endDoc f i with
    | (false, s) => s
    | (true, s) =>
      let s := if x.st = .draining then s else s.stopDispatch f i
      (((s.entryWaits f q j (sKey f i) none).pump f i).finishDrain f i)

def execStreamClose (fn : BitVec 6) (q : BitVec 9) (slot : BitVec 16) (v : MemView) (s : State) : Out :=
  s.runEntry 0x03 fn.toNat q.toNat slot.toNat v (State.streamClose fn.toNat q.toNat)

/-! ## SHARD_LIST (R305, R307, R308, R310, R311) -/

/-- An entry of a shard list (R307), with the key that the list binds (R498). -/
def shardOf (e : Bytes) (keySlot keyGen : Nat) : Shard :=
  ⟨leAt e 0 8, leAt e 8 8, leAt e 0x10 8, leAt e 0x18 1, leAt e 0x19 1, leAt e 0x1C 4, keySlot, keyGen⟩

/-- The checks of R308 on one entry. -/
def Shard.bad (x : Shard) : Bool :=
  x.format == 0 || decide (3 < x.format) || x.addr % 64 != 0 || decide (x.size < 64) ||
  x.indexAddr % 64 != 0 || (x.codec != 0 && x.indexAddr != 0)

/-- The list is appended, and sealed with SEAL; FINAL ends the source (R310, R311; log 58). -/
def Stream.appendShards (x : Stream) (l : List Shard) (sealIt final : Bool) (thresh now : Nat) : Stream :=
  let all := x.pendingShards ++ l
  let shut := sealIt || final
  { x with
    pendingShards := if shut then [] else all, sealed_ := if shut then some (all, final) else x.sealed_,
    firstSeal := if shut && x.restored then x.firstSeal.or (some (all, final)) else x.firstSeal,
    source := if x.liveSource then x.source ++ l else x.source, sourceFinal := if x.liveSource && shut then final else x.sourceFinal,
    liveSource := x.liveSource && !shut, finalSeen := x.finalSeen || final, authThresh := thresh,
    t0 := if shut && x.guaranteed && !x.t0Given then now else x.t0, t0Given := x.t0Given || (shut && x.guaranteed) }

/-- The key that a list names (R308, R498): the generation of its slot, or nothing when it may not be used. -/
def State.listKey (f slot : Nat) (s : State) : Option Nat × State :=
  if slot = 0xFFFF then (some 0, s)
  else if 1023 < slot then (none, s)
  else match s.ownedSlot f slot with
    | (some k, s) => (if k.keyType ≤ 1 then some k.gen else none, s)
    | (none, s) => (none, s)

/-- SHARD_LIST. -/
def State.shardList (f q : Nat) (j : Job) (bs : Bytes) (s : State) : State :=
  let i := leAt bs 0x08 2
  let fl := leAt bs 0x0A 1
  let n := leAt bs 0x0C 4
  let addr := leAt bs 0x10 8
  let slot := leAt bs 0x18 2
  let x := s.stream f i
  if 1023 < i ∨ x.st = .free ∨ (s.graphOf x).direction ≠ 0 then s.entryDone f q j bs stMalformed 16
  else if n = 0 ∨ 65536 < n ∨ addr % 64 ≠ 0 then s.entryDone f q j bs stMalformed 17
  else
    let (r, data, s) := s.sysRead (.control f) addr (32 * n)
    if r != .okay then s.entryDone f q j bs (respCode r) 0
    else
      let es := (List.range n).map (fun k => shardOf (bytesAt data (32 * k) 32) slot 0)
      if es.any Shard.bad then s.entryDone f q j bs stMalformed 18
      else if x.finalSeen then s.entryDone f q j bs stMalformed 19
      else match s.listKey f slot with
        | (none, s) => s.entryDone f q j bs stAccessDenied 0
        | (some gen, s) =>
          let l := es.map (fun e => { e with keyGen := gen })
          (s.modStream f i (fun x => x.appendShards l (bitOf fl 0) (bitOf fl 1) (leAt bs 0x1A 2) s.now)).entryDone f q j bs stOk 0

def execShardList (fn : BitVec 6) (q : BitVec 9) (slot : BitVec 16) (v : MemView) (s : State) : Out :=
  s.runEntry 0x04 fn.toNat q.toNat slot.toNat v (State.shardList fn.toNat q.toNat)

/-- The earlier stage has dispatched its last sample (R244). -/
def State.predecessorDone (s : State) (f : Nat) (x : Stream) : Bool := match x.follows with
  | some i =>
    let y := s.stream f i
    y.sourceEnded && match y.runs.getLast? with
      | some r => (match r.stop with
        | some e => decide (e ≤ y.position)
        | none => true)
      | none => true
  | none => true

/-- A return entry of a later stage waits: for its hurdle (R245), or for the last sample of the feed stream it follows (R244; log 133). -/
def State.stageWaits (s : State) (f : Nat) (x : Stream) : Bool := x.hurdle || match x.follows with
  | some i => (s.graphOf (s.stream f i)).direction == 0 && !s.predecessorDone f x
  | none => false

/-! ## SAMPLE (R371 to R373) -/

/-- A job of a document ends with a status: the document is rejected with it, unless it has been (R372, R373). -/
def State.sampleRefused (f q i : Nat) (j : Job) (bs : Bytes) (code detail : Nat) (s : State) : State :=
  ((s.docReject f i code (bitOf (leAt bs 0x0B 1) 0)).entryDone f q j bs code detail).pump f i

/-- One buffer of the open document has been read (R370 to R373). -/
def State.docBuffer (f q i : Nat) (j : Job) (bs : Bytes) (d : OpenDoc) (data : Bytes) (s : State) : State :=
  let more := bitOf (leAt bs 0x0B 1) 0
  let p := (s.stream f i).docLogical d
  match s.docTake f i data (!more) with
  | (none, s) => if more then s.entryDone f q j bs stOk 0 else (s.entryWaits f q j (sKey f i) (some p)).pump f i
  | (some (.rejected code detail), s) => (s.entryDone f q j bs code detail).pump f i
  | (some .halted, s) => s

/-- A SAMPLE job of an open document (R372): a bad field, and an earlier rejection, end it; else its buffer is read. -/
def State.sampleJob (f q i : Nat) (j : Job) (bs : Bytes) (d : OpenDoc) (s : State) : State :=
  let x := s.stream f i
  let vocab := leAt bs 0x0A 1
  let n := leAt bs 0x0C 4
  let addr := leAt bs 0x10 8
  let body := (s.bayProfile x.graph d.bay 0x0401).getD []
  if (15 < vocab ∧ vocab ≠ 0xFF) ∨ n = 0 ∨ leAt body 0x50 4 < n then s.sampleRefused f q i j bs stMalformed 16
  else match d.rejected with
    | some code => s.sampleRefused f q i j bs code 0
    | none =>
      match s.sysRead (s.sampleParty f x d.index) addr n with
      | (.okay, data, s) => s.docBuffer f q i j bs d data
      | (.poison, _, s) => s.sampleRefused f q i j bs stPoison 0
      | (r, _, s) => (s.streamResp f i addr false r).relays

/-- A document may start (R244, R245, R469, R511): in OPEN none at or beyond L + 512 is taken. -/
def State.docMayStart (s : State) (f : Nat) (x : Stream) : Bool :=
  let low := x.inFlight.foldl (fun m y => min m y.index) x.position
  !(x.openMode && decide (low + 512 ≤ x.position)) && !x.hurdle && s.predecessorDone f x && !(s.sec.cryptoError && x.encrypted)

/-- SAMPLE: one buffer of a document (R372). The first job opens the document, also when its fields are bad (log 146). -/
def State.sampleEntry (f q : Nat) (j : Job) (bs : Bytes) (s : State) : State :=
  let i := leAt bs 0x08 2
  let x := s.stream f i
  if 1023 < i ∨ x.st = .free ∨ x.st = .draining ∨ !s.bindsEngine x.graph 0x0401 ∨ (s.graphOf x).direction ≠ 0 then
    s.entryDone f q j bs stMalformed 16
  else if x.st = .halted ∨ (x.doc.isNone ∧ !s.docMayStart f x) then s
  else
    let s' := if x.doc.isNone then s.docOpen f i (leAt bs 0x0A 1) (leAt bs 0x18 1) else s
    match (s'.stream f i).doc with
    | none => s
    | some d => if s.bayRuns d.bay then s'.sampleJob f q i j bs d else s

def execSample (fn : BitVec 6) (q : BitVec 9) (slot : BitVec 16) (v : MemView) (s : State) : Out :=
  s.runEntry 0x05 fn.toNat q.toNat slot.toNat v (State.sampleEntry fn.toNat q.toNat)

/-! ## POOL_FILL (R272, R274) -/

/-- The handles of a list that some check refuses. -/
def State.poolFill (f q : Nat) (j : Job) (bs : Bytes) (s : State) : State :=
  let n := leAt bs 0x0C 4
  let addr := leAt bs 0x10 8
  match s.poolNo f (leAt bs 0x08 1) with
  | none => s.entryDone f q j bs stMalformed 16
  | some p =>
    let x := s.pool p
    if !x.enabled then s.entryDone f q j bs stMalformed 16
    else if n = 0 ∨ 65536 < n ∨ addr % 64 ≠ 0 then s.entryDone f q j bs stMalformed 17
    else
      let (r, data, s) := s.sysRead (.control f) addr (8 * n)
      let hs := (List.range n).map (fun k => leAt data (8 * k) 8)
      if r != .okay then s.entryDone f q j bs (respCode r) 0
      else if !hs.all x.validHandle then s.entryDone f q j bs stMalformed 18
      else if x.buffers < x.free + n then s.entryDone f q j bs stMalformed 19
      else ((s.modPool p (fun x => { x with added := x.added + n })).addHandles p hs).watchPools.entryDone f q j bs stOk 0

def execPoolFill (fn : BitVec 6) (q : BitVec 9) (slot : BitVec 16) (v : MemView) (s : State) : Out :=
  s.runEntry 0x0A fn.toNat q.toNat slot.toNat v (State.poolFill fn.toNat q.toNat)

/-! ## LOCK_GROUP (R223, R238, R239) -/

/-- The streams that an entry binds. -/
def groupMembers (bs : Bytes) : List Nat := (List.range (leAt bs 0x0B 1)).map (fun k => leAt bs (0x10 + 2 * k) 2)

/-- The group that a first binder makes (R238). -/
def State.newGroup (bs : Bytes) (x : Stream) : LockGroup :=
  ⟨leAt bs 0x09 1, leAt bs 0x0A 1, leAt bs 0x0C 4, [], x.batch, x.period, x.depth, x.t0Open, 0⟩

/-- Whether a stream fits a group (R239). -/
def LockGroup.fits (g : LockGroup) (x : Stream) : Bool :=
  x.batch == g.batch && x.period == g.period && x.depth == g.depth && x.group.isNone &&
  (g.mode == 0 || (x.guaranteed && x.t0Open != 0 && x.t0Open == g.t0))

/-- LOCK_GROUP. -/
def State.bindGroup (f q : Nat) (j : Job) (bs : Bytes) (s : State) : State :=
  let gn := leAt bs 0x08 1
  let size := leAt bs 0x09 1
  let mode := leAt bs 0x0A 1
  let n := leAt bs 0x0B 1
  let ms := groupMembers bs
  if 63 < gn ∨ size < 2 ∨ 64 < size ∨ 1 < mode ∨ n = 0 ∨ 16 < n then s.entryDone f q j bs stMalformed 23
  else if ms.any (fun i => 1023 < i || (s.stream f i).st == .free) then s.entryDone f q j bs stMalformed 22
  else if ms.any (fun i => !(s.stream f i).grouped) then s.entryDone f q j bs stMalformed 23
  else
    let old := s.group gn
    let g := if old.size = 0 then State.newGroup bs (s.stream f (ms.headD 0)) else old
    if g.size ≠ size ∨ g.mode ≠ mode ∨ g.ticket ≠ leAt bs 0x0C 4 ∨ !ms.all (fun i => g.fits (s.stream f i)) ∨ ms.eraseDups.length ≠ n ∨
        g.size < g.members.length + n then s.entryDone f q j bs stAccessDenied 20
    else
      let s := s.setGroup gn { g with members := g.members ++ ms.map (sKey f) }
      (s.forEach ms (fun i s => s.modStream f i (fun x => { x with group := some gn, loose := false }))).entryDone f q j bs stOk 0

def execLockGroup (fn : BitVec 6) (q : BitVec 9) (slot : BitVec 16) (v : MemView) (s : State) : Out :=
  s.runEntry 0x0E fn.toNat q.toNat slot.toNat v (State.bindGroup fn.toNat q.toNat)

/-! ## SNAPSHOT (R543) -/

/-- SNAPSHOT: AT 0 means 10 µs from now. -/
def State.snapshotEntry (f q : Nat) (j : Job) (bs : Bytes) (s : State) : State :=
  let at_ := if leAt bs 0x08 8 = 0 then s.now + 10000 else leAt bs 0x08 8
  match s.snapCheck at_ with
  | .pending => s.entryDone f q j bs stAccessDenied 16
  | .late => s.entryDone f q j bs stMalformed 16
  | .armed => (s.armSnap at_).entryDone f q j bs stOk 0

def execSnapshot (fn : BitVec 6) (q : BitVec 9) (slot : BitVec 16) (v : MemView) (s : State) : Out :=
  s.runEntry 0x0F fn.toNat q.toNat slot.toNat v (State.snapshotEntry fn.toNat q.toNat)

/-! ## STREAM_RESUME (R241, R249, R253, R254, R305, R484) -/

/-- The check of a source (R479): CRC-32C over SHARD_SIZE, FORMAT, CODEC and SAMPLES of each entry. -/
def sourceCrc (l : List Shard) : Word := crc32c (l.flatMap (fun e => natLe 8 e.size ++ natLe 1 e.format ++ natLe 1 e.codec ++ natLe 4 e.samples))

/-- The sealed source that a restored feed stream may take (R484). -/
def Stream.restoreSource (x : Stream) : Option (List Shard × Bool) := match x.firstSeal, x.srcCheck with
  | some (l, fin), some (n, c) => if l.length = n ∧ sourceCrc l = c then some (l, fin) else none
  | _, _ => none

/-- Requests of a stream that are still on some port. -/
def State.streamReqs (s : State) (f i : Nat) : List Req :=
  s.ports.flatMap (fun p => (p.2.waiting ++ ((p.2.reads ++ p.2.writes).filter (fun o => !o.drop)).map (·.req)).filter
    (fun r => r.owner.stream? == some (f, i)))

/-- The pieces of a read: offset from its first granule, and granules. No piece crosses a 4 KiB boundary (R120). -/
def Reading.pieces (t : Reading) : List (Nat × Nat) :=
  let g := t.addr / 64 * 64
  let stop := ceilDiv (t.addr + t.size) 64 * 64
  (List.range (ceilDiv stop 4096 - g / 4096)).map (fun k =>
    let a := max g ((g / 4096 + k) * 4096)
    let b := min stop ((g / 4096 + k + 1) * 4096)
    (a - g, (b - a) / 64))

/-- Every piece has arrived. -/
def Reading.complete (t : Reading) : Bool := t.pieces.all (fun p => (tblGet? t.got p.1).isSome)

/-- The bytes of a complete read. -/
def Reading.bytes (t : Reading) : Bytes :=
  bytesAt (t.pieces.flatMap (fun p => bytesAt (tblGetD t.got p.1 []) 0 (64 * p.2))) (t.addr % 64) t.size

/-- The pieces of the record being read that are neither there nor on their way are asked for (R249). -/
def State.reissueReads (f i : Nat) (s : State) : State :=
  let x := s.stream f i
  match x.reading with
  | none => s
  | some t =>
    let out := (s.streamReqs f i).filterMap (fun r => match r.owner with
      | .streamRead _ _ ix off => if ix = t.index then some off else none
      | _ => none)
    let (dl, per) := s.reqTime x (s.sampleBatch x t.index)
    s.forEach (t.pieces.filter (fun p => !(tblGet? t.got p.1).isSome && !out.contains p.1)) (fun p s =>
      if (s.stream f i).st = .halted then s else s.pushReq t.port ⟨.read, t.addr / 64 * 64 + p.1, p.2, f, false, 0, dl, per, x.gidx, .streamRead f i t.index p.1, []⟩)

/-- The blocks of the transfer that are neither delivered nor on their way are written again (R249). -/
def State.reissueBlocks (f i : Nat) (s : State) : State :=
  let x := s.stream f i
  match x.xfer with
  | none => s
  | some t =>
    let out := (s.streamReqs f i).filterMap (fun r => match r.owner with
      | .slotBlock _ _ b k => if b = t.batch then some k else none
      | _ => none)
    let base := x.slotBase + (t.batch % x.depth) * x.slotStride
    let (dl, per) := s.reqTime x t.batch
    s.forEach ((List.range (ceilDiv t.image.length 4096)).filter (fun b => !blockDone t.low t.done b && !out.contains b)) (fun b s =>
      let data := (t.image.drop (4096 * b)).take 4096
      if (s.stream f i).st = .halted then s else s.pushReq (s.streamPort x) ⟨.write, base + 4096 * b, data.length / 64, f, false, 0, dl, per, x.gidx, .slotBlock f i t.batch b, data⟩)

/-- A halted stream runs again (R236, R249, R253, R305). The record of a translation fault whose page requests were never sent comes
first (R248). -/
def State.resumeStream (f i : Nat) (s : State) : State :=
  let s := if (s.stream f i).faultOpen then s.faultRecord f i else s
  let x := s.stream f i
  let s := if x.pageGroupHeld then s.modFunc f (fun y => { y with pageGroups := y.pageGroups.filter (· != x.pageGroup) }) else s
  let src := x.restoreSource
  let s := s.setStream f i { x with
    st := if x.haltedFrom = .draining ∧ !x.restored then .draining else .filling, restored := false, authCount := 0, faults := [],
    pagesToSend := [], pageGroup := 0, pageGroupHeld := false,
    source := if x.restored then (src.map (·.1)).getD [] else x.source, sourceFinal := if x.restored then (src.map (·.2)).getD false else x.sourceFinal,
    sourced := x.sourced || x.restored, srcCheck := if x.restored then none else x.srcCheck }
  let s := if x.guaranteed then s.rearmStream f i else s
  (((s.watchPools.reissueReads f i).reissueBlocks f i).relays.pump f i).finishDrains

/-! ## RELAY_RETURN (R228, R425, R426, R438) -/

/-- The batches whose records wait for room in the ring (R438). -/
def Stream.roomWaits (x : Stream) : List Nat := if x.relayRoom then [] else (x.waitingRecs.filter (·.data)).map (·.batch)

/-- A write of RELAY_RETURN: the oldest delivered batches are returned; an unusable one is logged. -/
def State.relayReturn (f value : Nat) (s : State) : State :=
  let i := fld value 0 10
  let n := fld value 16 7
  let x := s.stream f i
  if x.st = .free ∨ n = 0 ∨ x.delivered < x.returned + n then s.logTo (some f) stOk 4 3 i 0xFE value
  else
    let s := s.setStream f i { x with
      returned := x.returned + n, unacked := 0,
      retTimes := (List.range n).foldl (fun t k => tblSet t (x.returned + k) s.now) x.retTimes,
      roomTimes := x.roomWaits.foldl (fun t k => tblSet t k s.now) x.roomTimes }
    (s.relays.pump f i).finishDrains

/-! ## Deliveries (R240, R436 to R439) -/

/-- A transfer whose every block has returned OKAY becomes a finished batch (R437, R439). -/
def State.finishXfer (f i : Nat) (s : State) : State :=
  let x := s.stream f i
  match x.xfer with
  | some t =>
    if ceilDiv t.image.length 4096 ≤ t.low then
      s.setStream f i { x with xfer := none, finished := x.finished ++ [⟨t.batch, t.valid, if t.time = 0 then s.now else t.time, t.places⟩] }
    else s
  | none => s

/-- The pack bay of a stream's graph works (R151). -/
def State.packRuns (s : State) (x : Stream) : Bool := match s.packBody x.graph with
  | some (bay, _) => s.bayRuns bay
  | none => true

/-- BATCH_DELIVER (R240, R244, R437). -/
def execBatchDeliver (fn : BitVec 6) (stream : BitVec 10) (v : MemView) (s : State) : Out :=
  let s := s.seeMem v
  s.turn fun s =>
  let f := fn.toNat
  let i := stream.toNat
  let x := s.stream f i
  if !s.live || !s.packRuns x || x.st == .free || x.st == .halted then .next s
  else
    let s := s.finishXfer f i
    let y := s.stream f i
    if (y.grouped && !y.loose) || y.follows.isSome then .next ((s.pump f i).finishDrain f i)
    else if y.finished.isEmpty then .next ((s.pump f i).finishDrain f i)
    else .next (s.deliverHead f i none)

/-- LOCK_GROUP_RELEASE (R240, R241). -/
def execLockGroupRelease (group : BitVec 6) (v : MemView) (s : State) : Out :=
  let s := s.seeMem v
  s.turn fun s =>
  let g := s.group group.toNat
  match s.releaseInstant g with
  | none => .next s
  | some t =>
    if !s.live || s.now < t then .next s
    else
      let time := s.releaseTime t
      .next (s.forEach g.members (fun k s => s.deliverHead (k / 1024) (k % 1024) (some time)))

/-! ## Schedules and epochs (R222, R243 to R245, R310, R311) -/

/-- SCHEDULE_START (R222, R236, R311): at T0 a guaranteed feed stream, halted or not, needs a sealed source. -/
def execScheduleStart (fn : BitVec 6) (stream : BitVec 10) (v : MemView) (s : State) : Out :=
  let s := s.seeMem v
  s.turn fun s =>
  let f := fn.toNat
  let i := stream.toNat
  let x := s.stream f i
  if !s.live || x.st == .free || !x.guaranteed || x.sourced || !x.t0Given || decide (s.now < x.t0) then .next s
  else if x.sealed_.isSome || !x.runs.isEmpty || (s.graphOf x).direction == 1 then .next (s.setStream f i { x with sourced := true })
  else .next (s.abortStream f i)

/-- WINDOW and SHUFFLE of the intake profile of a graph (R313). -/
def State.intakeBody (s : State) (g : Nat) : Option Bytes := match s.image.committed with
  | some c => ((c.bound g).find? (fun x => x.1.engine / 256 == 1)).map (·.2.body)
  | none => none

/-- The stream may read unsealed shards (R311). -/
def State.readsLive (s : State) (x : Stream) : Bool := match s.intakeBody x.graph with
  | some b => !x.guaranteed && !bitOf (leAt b 0x0C 1) 0 && leAt b 0x08 4 == 1
  | none => false

/-- A new epoch begins at a running index (R292, R310); the first one is no boundary. -/
def State.beginEpoch (f i base epoch : Nat) (first : Bool) (list : List Shard) (final live : Bool) (s : State) : State :=
  let x := s.stream f i
  let n := match x.runs.getLast? with
    | some r => if s.packsSeq x.graph then ceilDiv (x.nextPlace + x.openRows.length) x.batch else x.runEnd s.meet r
    | none => 0
  let old := x.runs.map (fun r => { r with src := r.src.or (some (x.source.length, sourceCrc x.source)) })
  let hurdle := x.hurdle || (!first && (s.graphOf x).boundary == 1)
  s.setStream f i { x with
    epoch := epoch, runs := old ++ [⟨base, epoch, none, 0, 0, n, none⟩], position := x.nextOwn s.meet base base, source := list, sourceFinal := final,
    liveSource := live, shardPorts := [], counts := [], windows := [], ahead := [], hurdle := hurdle,
    boundaries := if first then x.boundaries else x.boundaries ++ [n] }

/-- The source ends after its last sample under FINAL (R236, R310). -/
def State.endSource (f i : Nat) (s : State) : State :=
  ((s.modStream f i (fun x => { x with ended := true, st := .draining })).pump f i).finishDrain f i

/-- EPOCH_START (R243, R244, R310). The next epoch starts once the last one's last sample is dispatched. -/
def execEpochStart (fn : BitVec 6) (stream : BitVec 10) (v : MemView) (s : State) : Out :=
  let s := s.seeMem v
  s.turn fun s =>
  let f := fn.toNat
  let i := stream.toNat
  let x := s.stream f i
  if !s.live || x.ended || (s.graphOf x).direction != 0 || !(x.st == .filling || x.st == .running) || (x.guaranteed && !x.sourced) then .next s
  else match x.runs.getLast? with
    | none =>
      if !s.predecessorDone f x then .next s
      else match x.sealed_ with
        | some (l, fin) => .next (s.beginEpoch f i 0 x.epoch true l fin false)
        | none => .next (if s.readsLive x then s.beginEpoch f i 0 x.epoch true x.pendingShards false true else s)
    | some r =>
      match r.stop with
      | none => .next s
      | some e =>
        if x.position < e then .next s
        else if x.sourceFinal then .next (s.endSource f i)
        else
          let span := x.batch * s.meet
          let base := ceilDiv e span * span
          let (l, fin) := x.sealed_.getD (x.source, x.sourceFinal)
          .next (s.beginEpoch f i base ((x.epoch + 1) % 2 ^ 32) false l fin false)

end Sys2Proof.Machine
end

