-- ==== Sys2Proof/Machine/Decomp.lean ====
section
/-! DEFINITION. The codecs of intake (R303): Deflate, zlib, gzip, LZ4 frames. PRESUMED (log 8): the
formats are those of the RFCs and of the LZ4 frame format, which the manual names. -/

namespace Sys2Proof.Machine

/-- What decompression gives: the output, or why it stops. `damaged` carries the offset in the stored payload. -/
inductive CodecOut where
  | ok (bs : Bytes)
  | damaged (off : Nat)
  | over
  | unsupported
  deriving DecidableEq, Repr

/-! ## Deflate -/

/-- How a stage of a decoder ends: at the byte where the data is damaged, or at the byte whose output would pass the limit. -/
inductive Stop where
  | bad (pos : Nat)
  | over (pos : Nat)
  deriving DecidableEq, Repr

/-- Bits `pos` to `pos + n - 1` of a string, least significant first. -/
def bitsAt (src : Array Byte) (pos : Nat) : Nat → Except Stop Nat
  | 0 => .ok 0
  | n + 1 =>
    if 8 * src.size ≤ pos then .error (.bad (pos / 8))
    else (bitsAt src (pos + 1) n).map (fun r => b2n ((src.getD (pos / 8) 0).getLsbD (pos % 8)) + 2 * r)

/-- A canonical prefix code: symbols by length. -/
structure Huff where
  counts : List Nat
  syms : List Nat
  deriving DecidableEq, Repr

/-- The code of a list of lengths. -/
def Huff.of (lens : List Nat) : Huff :=
  ⟨(List.range 16).map (fun n => if n = 0 then 0 else (lens.filter (· == n)).length),
   (List.range 15).flatMap (fun n => (lens.zipIdx.filter (fun p => p.1 == n + 1)).map (·.2))⟩

/-- Codes left over: negative when over-subscribed, zero when complete. -/
def Huff.left (h : Huff) : Int := (List.range 15).foldl (fun (l : Int) n => if l < 0 then l else 2 * l - (h.counts.getD (n + 1) 0 : Int)) 1

/-- A complete code, or no code at all, or a single code of one bit. -/
def Huff.good (h : Huff) : Bool := h.left == 0 || h.syms.isEmpty || (decide (h.syms.length = 1) && h.counts.getD 1 0 == 1)

/-- One symbol. -/
def Huff.read (h : Huff) (src : Array Byte) : Nat → Nat → Nat → Nat → Nat → Nat → Except Stop (Nat × Nat)
  | 0, _, _, _, _, pos => .error (.bad (pos / 8))
  | fuel + 1, len, code, first, index, pos =>
    match bitsAt src pos 1 with
    | .error e => .error e
    | .ok b =>
      let code := code + b
      let c := h.counts.getD len 0
      if code < first + c then .ok (h.syms.getD (index + code - first) 0, pos + 1)
      else h.read src fuel (len + 1) (2 * code) (2 * (first + c)) (index + c) (pos + 1)

/-- A symbol of a code at a bit position. -/
def Huff.symbol (h : Huff) (src : Array Byte) (pos : Nat) : Except Stop (Nat × Nat) := h.read src 15 1 0 0 0 pos

def lengthBase : List Nat := [3, 4, 5, 6, 7, 8, 9, 10, 11, 13, 15, 17, 19, 23, 27, 31, 35, 43, 51, 59, 67, 83, 99, 115, 131, 163, 195, 227, 258]
def lengthExtra : List Nat := [0, 0, 0, 0, 0, 0, 0, 0, 1, 1, 1, 1, 2, 2, 2, 2, 3, 3, 3, 3, 4, 4, 4, 4, 5, 5, 5, 5, 0]

/-- Base and extra bits of a distance symbol. -/
def distOf (s : Nat) : Nat × Nat := if s < 2 then (s + 1, 0) else (((2 + s % 2) <<< (s / 2 - 1)) + 1, s / 2 - 1)

/-- Copies `n` bytes from `d` back. -/
def copyBack (d : Nat) : Nat → Array Byte → Array Byte
  | 0, out => out
  | n + 1, out => copyBack d n (out.push (out.getD (out.size - d) 0))

/-- Symbols of a block until its end. -/
def inflateCodes (src : Array Byte) (limit : Nat) (lit dist : Huff) : Nat → Nat → Array Byte → Except Stop (Nat × Array Byte)
  | 0, pos, _ => .error (.bad (pos / 8))
  | fuel + 1, pos, out =>
    match lit.symbol src pos with
    | .error e => .error e
    | .ok (s, pos) =>
      if s < 256 then (if limit ≤ out.size then .error (.over (pos / 8)) else inflateCodes src limit lit dist fuel pos (out.push (BitVec.ofNat 8 s)))
      else if s = 256 then .ok (pos, out)
      else if 285 < s then .error (.bad (pos / 8))
      else match bitsAt src pos (lengthExtra.getD (s - 257) 0) with
        | .error e => .error e
        | .ok x =>
          let n := lengthBase.getD (s - 257) 0 + x
          match dist.symbol src (pos + lengthExtra.getD (s - 257) 0) with
          | .error e => .error e
          | .ok (ds, pos) =>
            if 29 < ds then .error (.bad (pos / 8))
            else match bitsAt src pos (distOf ds).2 with
              | .error e => .error e
              | .ok y =>
                let d := (distOf ds).1 + y
                if out.size < d then .error (.bad (pos / 8))
                else if limit < out.size + n then .error (.over (pos / 8))
                else inflateCodes src limit lit dist fuel (pos + (distOf ds).2) (copyBack d n out)

/-- Code lengths of a dynamic block. -/
def readLengths (src : Array Byte) (h : Huff) (total : Nat) : Nat → Nat → List Nat → Except Stop (List Nat × Nat)
  | 0, pos, _ => .error (.bad (pos / 8))
  | fuel + 1, pos, acc =>
    if total ≤ acc.length then (if acc.length = total then .ok (acc, pos) else .error (.bad (pos / 8)))
    else match h.symbol src pos with
      | .error e => .error e
      | .ok (s, pos) =>
        if s < 16 then readLengths src h total fuel pos (acc ++ [s])
        else
          let (bits, base) := if s = 16 then (2, 3) else if s = 17 then (3, 3) else (7, 11)
          if s = 16 ∧ acc.isEmpty then .error (.bad (pos / 8))
          else match bitsAt src pos bits with
            | .error e => .error e
            | .ok x => readLengths src h total fuel (pos + bits) (acc ++ List.replicate (base + x) (if s = 16 then acc.getLast?.getD 0 else 0))

def clenOrder : List Nat := [16, 17, 18, 0, 8, 7, 9, 6, 10, 5, 11, 4, 12, 3, 13, 2, 14, 1, 15]

/-- The two codes of a dynamic block. -/
def dynamicCodes (src : Array Byte) (pos : Nat) : Except Stop (Huff × Huff × Nat) := do
  let nlen := (← bitsAt src pos 5) + 257
  let ndist := (← bitsAt src (pos + 5) 5) + 1
  let ncode := (← bitsAt src (pos + 10) 4) + 4
  let cl ← (List.range ncode).mapM (fun j => bitsAt src (pos + 14 + 3 * j) 3)
  let lens := (List.range 19).map (fun s => (clenOrder.zipIdx.find? (fun p => p.1 == s)).elim 0 (fun p => cl.getD p.2 0))
  let h := Huff.of lens
  if h.left != 0 || 286 < nlen then .error (.bad (pos / 8))
  let (ls, pos) ← readLengths src h (nlen + ndist) (nlen + ndist + 1) (pos + 14 + 3 * ncode) []
  let lit := Huff.of (ls.take nlen)
  let dist := Huff.of (ls.drop nlen)
  if ls.getD 256 0 == 0 || !lit.good || !dist.good then .error (.bad (pos / 8))
  return (lit, dist, pos)

/-- The codes of a fixed block. -/
def fixedLit : Huff := Huff.of (List.replicate 144 8 ++ List.replicate 112 9 ++ List.replicate 24 7 ++ List.replicate 8 8)
def fixedDist : Huff := Huff.of (List.replicate 30 5)

/-- Blocks until the last one: the bit position after it and the output. -/
def inflateBlocks (src : Array Byte) (limit : Nat) : Nat → Nat → Array Byte → Except Stop (Nat × Array Byte)
  | 0, pos, _ => .error (.bad (pos / 8))
  | fuel + 1, pos, out => do
    let last ← bitsAt src pos 1
    let kind ← bitsAt src (pos + 1) 2
    let syms := 8 * src.size + 1
    let (p, o) ← (if kind = 0 then
        let a := (pos + 3 + 7) / 8
        let n := (src.getD a 0).toNat + 256 * (src.getD (a + 1) 0).toNat
        let m := (src.getD (a + 2) 0).toNat + 256 * (src.getD (a + 3) 0).toNat
        if src.size < a + 4 + n ∨ n + m ≠ 0xFFFF then .error (.bad a)
        else if limit < out.size + n then .error (.over (a + 4 + (limit - out.size)))
        else .ok (8 * (a + 4 + n), out ++ src.extract (a + 4) (a + 4 + n))
      else if kind = 1 then inflateCodes src limit fixedLit fixedDist syms (pos + 3) out
      else if kind = 2 then (dynamicCodes src (pos + 3)).bind (fun c => inflateCodes src limit c.1 c.2.1 syms c.2.2 out)
      else .error (.bad (pos / 8)))
    if last = 1 then .ok (p, o) else inflateBlocks src limit fuel p o

/-- Raw Deflate from a byte on: the byte after it and the output, at most `limit` bytes. -/
def inflateAt (src : Array Byte) (limit at_ : Nat) : Except Stop (Nat × Array Byte) :=
  (inflateBlocks src limit (8 * src.size + 1) (8 * at_) #[]).map (fun p => ((p.1 + 7) / 8, p.2))

/-- A stop as a result. -/
def Stop.out : Stop → CodecOut
  | .bad p => .damaged p
  | .over _ => .over

/-- Deflate (RFC 1951). -/
def deflateRaw (limit : Nat) (bs : Bytes) : CodecOut := match inflateAt bs.toArray limit 0 with
  | .ok (_, o) => .ok o.toList
  | .error e => e.out

/-- zlib (RFC 1950): CM 8, FDICT rejected, Adler-32 checked. -/
def zlib (limit : Nat) (bs : Bytes) : CodecOut :=
  let cmf := leAt bs 0 1
  let flg := leAt bs 1 1
  if bs.length < 2 ∨ cmf % 16 ≠ 8 ∨ 7 < cmf / 16 ∨ (256 * cmf + flg) % 31 ≠ 0 then .damaged 0
  else if bitOf flg 5 then .unsupported
  else match inflateAt bs.toArray limit 2 with
    | .error e => e.out
    | .ok (p, o) => if bs.length < p + 4 ∨ beAt bs p 4 ≠ adler32 o.toList then .damaged p else .ok o.toList

/-- Length of a zero-terminated string at an offset, terminator included. -/
def zstrLen (bs : Bytes) (off : Nat) : Nat := ((bs.drop off).takeWhile (· != 0)).length + 1

/-- The header of a gzip member (RFC 1952): its length, or why it is refused. -/
def gzipHeader (bs : Bytes) : Except CodecOut Nat :=
  let flg := leAt bs 3 1
  if bs.length < 18 ∨ leAt bs 0 2 ≠ 0x8B1F ∨ 31 < flg then .error (.damaged 0)
  else if leAt bs 2 1 ≠ 8 then .error .unsupported
  else
    let p := 10
    let p := if bitOf flg 2 then p + 2 + leAt bs p 2 else p
    let p := if bitOf flg 3 then p + zstrLen bs p else p
    let p := if bitOf flg 4 then p + zstrLen bs p else p
    if bitOf flg 1 then
      (if leAt bs p 2 = (crc32 (bs.take p)).toNat % 65536 then .ok (p + 2) else .error (.damaged p))
    else .ok p

/-- Members of a gzip file. -/
def gzipMembers (limit : Nat) : Nat → Nat → Bytes → Bytes → CodecOut
  | 0, at_, _, _ => .damaged at_
  | fuel + 1, at_, out, bs =>
    match gzipHeader bs with
    | .error (.damaged p) => .damaged (at_ + p)
    | .error e => e
    | .ok h =>
      match inflateAt bs.toArray (limit - out.length) h with
      | .error (.bad p) => .damaged (at_ + p)
      | .error (.over _) => .over
      | .ok (p, o) =>
        let o := o.toList
        if bs.length < p + 8 ∨ leAt bs p 4 ≠ (crc32 o).toNat ∨ leAt bs (p + 4) 4 ≠ o.length % 2 ^ 32 then .damaged (at_ + p)
        else if bs.length ≤ p + 8 then .ok (out ++ o)
        else gzipMembers limit fuel (at_ + p + 8) (out ++ o) (bs.drop (p + 8))

/-- gzip (RFC 1952). -/
def gzip (limit : Nat) (bs : Bytes) : CodecOut := gzipMembers limit bs.length 0 [] bs

/-! ## LZ4 frames -/

def xxP1 : Word := 2654435761
def xxP2 : Word := 2246822519
def xxP3 : Word := 3266489917
def xxP4 : Word := 668265263
def xxP5 : Word := 374761393

def xxRound (acc lane : Word) : Word := (acc + lane * xxP2).rotateLeft 13 * xxP1

/-- xxHash32 with seed 0, the check of LZ4 frames. PRESUMED (log 9). -/
def xxh32 (bs : Bytes) : Word :=
  let n := bs.length
  let full := n / 16 * 16
  let lanes := (List.range (n / 16)).foldl (fun (st : List Word) k =>
    (List.range 4).map (fun j => xxRound (st.getD j 0) (strWord (bytesAt bs (16 * k + 4 * j) 4) 0)))
    [xxP1 + xxP2, xxP2, 0, 0 - xxP1]
  let h : Word := if n < 16 then xxP5
    else (lanes.getD 0 0).rotateLeft 1 + (lanes.getD 1 0).rotateLeft 7 + (lanes.getD 2 0).rotateLeft 12 + (lanes.getD 3 0).rotateLeft 18
  let h := h + BitVec.ofNat 32 n
  let words := (n - full) / 4
  let h := (List.range words).foldl (fun (h : Word) k => (h + strWord (bytesAt bs (full + 4 * k) 4) 0 * xxP3).rotateLeft 17 * xxP4) h
  let h := (bs.drop (full + 4 * words)).foldl (fun (h : Word) b => (h + b.zeroExtend 32 * xxP5).rotateLeft 11 * xxP1) h
  let h := (h ^^^ (h >>> 15)) * xxP2
  let h := (h ^^^ (h >>> 13)) * xxP3
  h ^^^ (h >>> 16)

/-- A length continued in bytes of 255. -/
def lz4Len (src : Array Byte) : Nat → Nat → Nat → Nat × Nat
  | 0, pos, n => (n, pos)
  | fuel + 1, pos, n =>
    let b := (src.getD pos 0).toNat
    if b = 255 then lz4Len src fuel (pos + 1) (n + 255) else (n + b, pos + 1)

/-- Sequences of a block; `base` is where its history begins in the output. -/
def lz4Block (src : Array Byte) (limit base stop : Nat) : Nat → Nat → Array Byte → Except Stop (Array Byte)
  | 0, pos, _ => .error (.bad pos)
  | fuel + 1, pos, out =>
    if stop ≤ pos then .error (.bad pos)
    else
      let tok := (src.getD pos 0).toNat
      let (lit, p) := if tok / 16 = 15 then lz4Len src src.size (pos + 1) 15 else (tok / 16, pos + 1)
      if stop < p + lit then .error (.bad p)
      else if limit < out.size + lit then .error (.over p)
      else
        let out := out ++ src.extract p (p + lit)
        let p := p + lit
        if p = stop then .ok out
        else
          let d := (src.getD p 0).toNat + 256 * (src.getD (p + 1) 0).toNat
          let (m, q) := if tok % 16 = 15 then lz4Len src src.size (p + 2) 15 else (tok % 16, p + 2)
          if stop < q ∨ d = 0 ∨ out.size < base + d then .error (.bad p)
          else if limit < out.size + m + 4 then .error (.over p)
          else lz4Block src limit base stop fuel q (copyBack d (m + 4) out)

/-- Blocks of a frame: the position after the end mark and the output. -/
def lz4Blocks (src : Array Byte) (limit blockMax : Nat) (indep sums : Bool) : Nat → Nat → Array Byte → Except Stop (Nat × Array Byte)
  | 0, pos, _ => .error (.bad pos)
  | fuel + 1, pos, out =>
    if src.size < pos + 4 then .error (.bad pos)
    else
      let w := leNat (src.extract pos (pos + 4)).toList
      let n := w % 2 ^ 31
      if w = 0 then .ok (pos + 4, out)
      else if blockMax < n ∨ src.size < pos + 4 + n + 4 * b2n sums then .error (.bad pos)
      else
        let data := src.extract (pos + 4) (pos + 4 + n)
        if sums && leNat (src.extract (pos + 4 + n) (pos + 8 + n)).toList != (xxh32 data.toList).toNat then .error (.bad pos)
        else
          let base := if indep then out.size else out.size - 65536
          let r := if bitOf w 31 then (if limit < out.size + n then .error (.over (pos + 4)) else .ok (out ++ data))
            else lz4Block src limit base (pos + 4 + n) (n + 1) (pos + 4) out
          match r with
          | .error e => .error e
          | .ok o => if blockMax < o.size - out.size then .error (.bad pos) else lz4Blocks src limit blockMax indep sums fuel (pos + 4 + n + 4 * b2n sums) o

/-- LZ4 frames. A legacy frame or a dictionary is not supported; checks apply when present. -/
def lz4Frame (limit : Nat) (bs : Bytes) : CodecOut :=
  let flg := leAt bs 4 1
  let bd := leAt bs 5 1
  if leAt bs 0 4 = 0x184C2102 then .unsupported
  else if bs.length < 11 ∨ leAt bs 0 4 ≠ 0x184D2204 ∨ flg / 64 ≠ 1 ∨ bitOf flg 1 ∨ bd / 16 < 4 ∨ 7 < bd / 16 ∨ bd % 16 ≠ 0 then .damaged 0
  else if bitOf flg 0 then .unsupported
  else
    let d := 2 + 8 * b2n (bitOf flg 3)
    let hc := leAt bs (4 + d) 1
    if (xxh32 (bytesAt bs 4 d)).toNat / 256 % 256 ≠ hc then .damaged 4
    else match lz4Blocks bs.toArray limit (2 ^ (8 + 2 * (bd / 16))) (bitOf flg 5) (bitOf flg 4) (bs.length + 1) (5 + d) #[] with
      | .error e => e.out
      | .ok (p, o) =>
        let o := o.toList
        if bitOf flg 2 && (decide (bs.length < p + 4) || leAt bs p 4 != (xxh32 o).toNat) then .damaged p
        else if bitOf flg 3 && leAt bs 6 8 != o.length then .damaged p
        else .ok o

end Sys2Proof.Machine
end

