-- ==== Sys2Proof/Machine/Zstd.lean ====
section
/-! DEFINITION. Zstandard (RFC 8878), the codec of intake with several frames and skippable frames (R303), and the choice of
codec (R296). PRESUMED (log 8): the format is that of the RFC, which the manual names. -/

namespace Sys2Proof.Machine

/-! ## Bit streams that are read from their end -/

/-- `n` bits from bit `pos` on, least significant first. -/
def bitsLe (src : Array Byte) (pos : Nat) : Nat → Nat
  | 0 => 0
  | n + 1 => b2n ((src.getD (pos / 8) 0).getLsbD (pos % 8)) + 2 * bitsLe src (pos + 1) n

/-- The bits of bytes `lo` to `hi - 1` below the end mark, the highest set bit of the last byte. -/
def backStart (src : Array Byte) (lo hi : Nat) : Except Stop Nat :=
  let last := (src.getD (hi - 1) 0).toNat
  if hi ≤ lo ∨ src.size < hi ∨ last = 0 then .error (.bad lo) else .ok (8 * (hi - lo - 1) + Nat.log2 last)

/-- The next `n` bits of a stream at byte `lo` of which `left` bits are left. -/
def backBits (src : Array Byte) (lo left n : Nat) : Except Stop (Nat × Nat) :=
  if left < n then .error (.bad lo) else .ok (bitsLe src (8 * lo + (left - n)) n, left - n)

/-- The next `n` bits, zeros past the stream's end. -/
def backPeek (src : Array Byte) (lo left n : Nat) : Nat :=
  if left < n then bitsLe src (8 * lo) left <<< (n - left) else bitsLe src (8 * lo + (left - n)) n

/-! ## Finite state entropy tables -/

/-- One state of a table: its symbol, the bits read to leave it, and the base of the next state. -/
structure FseRow where
  sym : Nat
  bits : Nat
  base : Nat
  deriving DecidableEq, Repr

/-- A table of 2^log states. -/
structure FseTable where
  log : Nat
  rows : Array FseRow
  deriving DecidableEq, Repr

def FseTable.row (t : FseTable) (st : Nat) : FseRow := t.rows.getD st ⟨0, 0, 0⟩

/-- A table whose one state always gives the same symbol. -/
def FseTable.single (sym : Nat) : FseTable := ⟨0, #[⟨sym, 0, 0⟩]⟩

/-- The rows of states in order; `next` counts the states of each symbol met so far. -/
def fseRows (log : Nat) : List Nat → Array Nat → Array FseRow → Array FseRow
  | [], _, acc => acc
  | s :: t, next, acc =>
    let n := next.getD s 1
    let k := log - Nat.log2 n
    fseRows log t (next.setIfInBounds s (n + 1)) (acc.push ⟨s, k, (n <<< k) - 2 ^ log⟩)

/-- The table of a normalised distribution; -1 stands for a probability below 1. -/
def fseTable (log : Nat) (norm : List Int) : FseTable :=
  let size := 2 ^ log
  let low := (norm.zipIdx.filter (fun p => p.1 == -1)).map (·.2)
  let high := size - low.length
  let step := size / 2 + size / 8 + 3
  let places := ((List.range size).map (fun k => (k * step) % size)).filter (· < high)
  let syms := norm.zipIdx.flatMap (fun p => List.replicate p.1.toNat p.2)
  let cells := (places.zip syms).foldl (fun (a : Array Nat) p => a.setIfInBounds p.1 p.2) (Array.replicate size 0)
  let cells := low.zipIdx.foldl (fun (a : Array Nat) p => a.setIfInBounds (size - 1 - p.2) p.1) cells
  ⟨log, fseRows log cells.toList (norm.map (fun p => if p = -1 then 1 else p.toNat)).toArray #[]⟩

/-- Probabilities of 0 that follow one: two bits say how many, 3 says that two more bits follow. -/
def fseZeros (src : Array Byte) : Nat → Nat → List Int → Except Stop (List Int × Nat)
  | 0, pos, _ => .error (.bad (pos / 8))
  | fuel + 1, pos, norm => do
    let r ← bitsAt src pos 2
    let norm := norm ++ List.replicate r 0
    if r = 3 then fseZeros src fuel (pos + 2) norm else .ok (norm, pos + 2)

/-- The probabilities of a table description; `rest` is what is left to give away. -/
def fseNorm (src : Array Byte) (most : Nat) : Nat → Nat → Nat → List Int → Except Stop (List Int × Nat)
  | 0, pos, _, _ => .error (.bad (pos / 8))
  | fuel + 1, pos, rest, norm =>
    if rest = 0 then (if most < norm.length then .error (.bad (pos / 8)) else .ok (norm, pos))
    else if most ≤ norm.length then .error (.bad (pos / 8))
    else do
      let k := Nat.log2 (rest + 1) + 1
      let spare := 2 ^ k - 1 - (rest + 1)
      let low ← bitsAt src pos (k - 1)
      let (v, pos) ← (if low < spare then .ok (low, pos + k - 1)
        else (bitsAt src (pos + k - 1) 1).map (fun b => (if b = 0 then low else low + 2 ^ (k - 1) - spare, pos + k)))
      let p : Int := (v : Int) - 1
      let norm := norm ++ [p]
      if p = 0 then
        let (norm, pos) ← fseZeros src (8 * src.size + 1) pos norm
        fseNorm src most fuel pos rest norm
      else fseNorm src most fuel pos (rest - p.natAbs) norm

/-- A table description at a byte, with at most `most` symbols and an accuracy of at most `maxLog`: the table and the byte
after the description. -/
def fseRead (src : Array Byte) (at_ most maxLog : Nat) : Except Stop (FseTable × Nat) := do
  let log := (← bitsAt src (8 * at_) 4) + 5
  if maxLog < log then .error (.bad at_)
  let (norm, pos) ← fseNorm src most (most + 1) (8 * at_ + 4) (2 ^ log) []
  return (fseTable log norm, (pos + 7) / 8)

/-! ## Huffman codes of literals -/

/-- A decoding table: the longest code, and for each of its values the symbol and the length of its code. -/
structure LitCode where
  bits : Nat
  cells : Array (Nat × Nat)
  deriving DecidableEq, Repr

/-- The code of all weights but the last, which makes the code complete. -/
def litCode (ws : List Nat) : Option LitCode :=
  let sum := ws.foldl (fun (a : Nat) w => a + (if w = 0 then 0 else 2 ^ (w - 1))) 0
  let bits := Nat.log2 sum + 1
  let left := 2 ^ bits - sum
  if sum = 0 ∨ 11 < bits ∨ 2 ^ Nat.log2 left ≠ left ∨ 255 < ws.length then none
  else
    let all := (ws ++ [Nat.log2 left + 1]).zipIdx
    some ⟨bits, ((List.range bits).flatMap (fun w => (all.filter (fun p => p.1 == w + 1)).flatMap (fun p =>
      List.replicate (2 ^ w) (p.2, bits - w)))).toArray⟩

/-- Weights that two states of one table give in turn, newest first. -/
def fseWeights (src : Array Byte) (t : FseTable) (lo : Nat) : Nat → Nat → Nat → Nat → List Nat → Except Stop (List Nat)
  | 0, _, _, _, _ => .error (.bad lo)
  | fuel + 1, left, one, two, acc =>
    let r := t.row one
    match backBits src lo left r.bits with
    | .error _ => .ok ((t.row two).sym :: r.sym :: acc)
    | .ok (b, left) => fseWeights src t lo fuel left two (r.base + b) (r.sym :: acc)

/-- A Huffman tree description: the code, and the byte after it. -/
def litTree (src : Array Byte) (at_ : Nat) : Except Stop (LitCode × Nat) := do
  let h ← (bitsAt src (8 * at_) 8)
  let (ws, next) ← (if 128 ≤ h then
      let n := h - 127
      if src.size < at_ + 1 + (n + 1) / 2 then .error (.bad at_)
      else .ok ((List.range n).map (fun j => bitsLe src (8 * (at_ + 1 + j / 2) + 4 * (1 - j % 2)) 4), at_ + 1 + (n + 1) / 2)
    else do
      let (t, lo) ← fseRead src (at_ + 1) 256 6
      let stop := at_ + 1 + h
      if stop ≤ lo then .error (.bad at_)
      let left ← backStart src lo stop
      let (one, left) ← backBits src lo left t.log
      let (two, left) ← backBits src lo left t.log
      let ws ← fseWeights src t lo 256 left one two []
      .ok (ws.reverse, stop))
  match litCode ws with
  | none => .error (.bad at_)
  | some c => .ok (c, next)

/-- `n` literals of one stream, which they use up. -/
def litStream (src : Array Byte) (c : LitCode) (lo : Nat) : Nat → Nat → Array Byte → Except Stop (Array Byte)
  | 0, left, out => if left = 0 then .ok out else .error (.bad lo)
  | n + 1, left, out =>
    let (s, k) := c.cells.getD (backPeek src lo left c.bits) (0, 1)
    if left < k then .error (.bad lo) else litStream src c lo n (left - k) (out.push (BitVec.ofNat 8 s))

/-- `n` literals from bytes `lo` to `hi - 1`. -/
def litRun (src : Array Byte) (c : LitCode) (lo hi n : Nat) (out : Array Byte) : Except Stop (Array Byte) := do
  litStream src c lo n (← backStart src lo hi) out

/-- The literals of a block from byte `at_` on: the literals, the byte after their section, and the code that a later block
may use again. -/
def literals (src : Array Byte) (at_ stop most : Nat) (old : Option LitCode) :
    Except Stop (Array Byte × Nat × Option LitCode) := do
  let kind := bitsLe src (8 * at_) 2
  let form := bitsLe src (8 * at_ + 2) 2
  if kind < 2 then
    let (head, n) := if form % 2 = 0 then (1, bitsLe src (8 * at_ + 3) 5)
      else if form = 1 then (2, bitsLe src (8 * at_ + 4) 12) else (3, bitsLe src (8 * at_ + 4) 20)
    let size := if kind = 0 then n else 1
    if stop < at_ + head + size ∨ most < n then .error (.bad at_)
    let body := if kind = 0 then src.extract (at_ + head) (at_ + head + n) else Array.replicate n (src.getD (at_ + head) 0)
    return (body, at_ + head + size, old)
  else
    let (head, w) := if form < 2 then (3, 10) else if form = 2 then (4, 14) else (5, 18)
    let n := bitsLe src (8 * at_ + 4) w
    let size := bitsLe src (8 * at_ + 4 + w) w
    let lo := at_ + head
    let hi := lo + size
    if stop < hi ∨ most < n then .error (.bad at_)
    let (c, lo) ← (if kind = 2 then litTree src lo else match old with
      | none => .error (.bad at_)
      | some c => .ok (c, lo))
    if hi < lo then .error (.bad at_)
    if form = 0 then return (← litRun src c lo hi n #[], hi, some c)
    let quarter := (n + 3) / 4
    let a := lo + 6 + bitsLe src (8 * lo) 16
    let b := a + bitsLe src (8 * lo + 16) 16
    let d := b + bitsLe src (8 * lo + 32) 16
    if hi < d ∨ hi < lo + 6 ∨ n < 3 * quarter then .error (.bad at_)
    let out ← litRun src c (lo + 6) a quarter #[]
    let out ← litRun src c a b quarter out
    let out ← litRun src c b d quarter out
    return (← litRun src c d hi (n - 3 * quarter) out, hi, some c)

/-! ## Sequences -/

/-- Base and extra bits of a literal length code. -/
def litLen (c : Nat) : Nat × Nat :=
  if c < 16 then (c, 0)
  else ([16, 18, 20, 22, 24, 28, 32, 40, 48].getD (c - 16) (2 ^ (c - 19)), [1, 1, 1, 1, 2, 2, 3, 3, 4].getD (c - 16) (c - 19))

/-- Base and extra bits of a match length code. -/
def matchLen (c : Nat) : Nat × Nat :=
  if c < 32 then (c + 3, 0)
  else ([35, 37, 39, 41, 43, 47, 51, 59, 67, 83, 99].getD (c - 32) (2 ^ (c - 36) + 3), [1, 1, 1, 1, 2, 2, 3, 3, 4, 4, 5].getD (c - 32) (c - 36))

def litLenDefault : FseTable := fseTable 6
  [4, 3, 2, 2, 2, 2, 2, 2, 2, 2, 2, 2, 2, 1, 1, 1, 2, 2, 2, 2, 2, 2, 2, 2, 2, 3, 2, 1, 1, 1, 1, 1, -1, -1, -1, -1]

def matchLenDefault : FseTable := fseTable 6
  ([1, 4, 3, 2, 2, 2, 2, 2, 2] ++ List.replicate 37 1 ++ List.replicate 7 (-1))

def offsetDefault : FseTable := fseTable 5
  [1, 1, 1, 1, 1, 1, 2, 2, 2, 1, 1, 1, 1, 1, 1, 1, 1, 1, 1, 1, 1, 1, 1, 1, -1, -1, -1, -1, -1]

/-- What a block leaves for the next one of its frame: the literals' code, the three tables, the last three offsets. -/
structure ZHistory where
  code : Option LitCode
  ll : Option FseTable
  ofs : Option FseTable
  ml : Option FseTable
  reps : Nat × Nat × Nat
  deriving DecidableEq, Repr

/-- The history at the start of a frame. -/
def ZHistory.start : ZHistory := ⟨none, none, none, none, (1, 4, 8)⟩

/-- One table of a sequences section in the mode given: predefined, one symbol, described, repeated. -/
def seqTable (src : Array Byte) (at_ stop mode syms maxLog : Nat) (dflt : FseTable) (old : Option FseTable) :
    Except Stop (FseTable × Nat) :=
  if mode = 0 then .ok (dflt, at_)
  else if mode = 1 then
    (let s := (src.getD at_ 0).toNat
     if stop ≤ at_ ∨ syms ≤ s then .error (.bad at_) else .ok (FseTable.single s, at_ + 1))
  else if mode = 2 then
    (match fseRead src at_ syms maxLog with
     | .error e => .error e
     | .ok (t, p) => if stop < p then .error (.bad at_) else .ok (t, p))
  else match old with
    | none => .error (.bad at_)
    | some t => .ok (t, at_)

/-- The offset that a value stands for, and the last three offsets after it; 0 is no offset. -/
def offsetOf (v ll : Nat) (reps : Nat × Nat × Nat) : Nat × (Nat × Nat × Nat) :=
  let (a, b, c) := reps
  if 3 < v then (v - 3, (v - 3, a, b))
  else
    let k := if ll = 0 then v else v - 1
    if k = 0 then (a, reps)
    else if k = 1 then (b, (b, a, c))
    else if k = 2 then (c, (c, a, b))
    else (a - 1, (a - 1, a, b))

/-- Literals and matches of `n` sequences; `used` literals are already out. -/
def sequences (src lits : Array Byte) (lo window limit : Nat) (tl tf tm : FseTable) :
    Nat → Nat → Nat → Nat → Nat → Nat → Nat × Nat × Nat → Array Byte → Except Stop (Array Byte × (Nat × Nat × Nat))
  | 0, left, _, _, _, used, reps, out =>
    let out' := out ++ lits.extract used lits.size
    if left ≠ 0 then .error (.bad lo) else if limit < out'.size then .error (.over lo) else .ok (out', reps)
  | n + 1, left, sl, so, sm, used, reps, out => do
    let rl := tl.row sl
    let ro := tf.row so
    let rm := tm.row sm
    let (x, left) ← backBits src lo left ro.sym
    let (y, left) ← backBits src lo left (matchLen rm.sym).2
    let (z, left) ← backBits src lo left (litLen rl.sym).2
    let ll := (litLen rl.sym).1 + z
    let ml := (matchLen rm.sym).1 + y
    let (d, reps) := offsetOf (2 ^ ro.sym + x) ll reps
    if lits.size < used + ll then .error (.bad lo)
    let out := out ++ lits.extract used (used + ll)
    if d = 0 ∨ out.size < d ∨ window < d then .error (.bad lo)
    if limit < out.size + ml then .error (.over lo)
    let out := copyBack d ml out
    if n = 0 then sequences src lits lo window limit tl tf tm 0 left sl so sm (used + ll) reps out
    else do
      let (u, left) ← backBits src lo left rl.bits
      let (v, left) ← backBits src lo left rm.bits
      let (w, left) ← backBits src lo left ro.bits
      sequences src lits lo window limit tl tf tm n left (rl.base + u) (ro.base + w) (rm.base + v) (used + ll) reps out

/-- A compressed block from byte `at_` to byte `stop - 1`: the output so far, and the history. -/
def zstdBlock (src : Array Byte) (at_ stop most window limit : Nat) (h : ZHistory) (out : Array Byte) :
    Except Stop (Array Byte × ZHistory) := do
  if stop ≤ at_ then .error (.bad at_)
  let (lits, p, code) ← literals src at_ stop most h.code
  if stop ≤ p then .error (.bad at_)
  let h := { h with code := code }
  let b := (src.getD p 0).toNat
  let (n, p) := if b < 128 then (b, p + 1) else if b < 255 then (256 * (b - 128) + (src.getD (p + 1) 0).toNat, p + 2)
    else (bitsLe src (8 * (p + 1)) 16 + 0x7F00, p + 3)
  if n = 0 then
    if p ≠ stop then .error (.bad p)
    if limit < out.size + lits.size then .error (.over p)
    return (out ++ lits, h)
  let modes := (src.getD p 0).toNat
  if stop ≤ p ∨ modes % 4 ≠ 0 then .error (.bad p)
  let (tl, p) ← seqTable src (p + 1) stop (modes / 64) 36 9 litLenDefault h.ll
  let (tf, p) ← seqTable src p stop (modes / 16 % 4) 32 8 offsetDefault h.ofs
  let (tm, p) ← seqTable src p stop (modes / 4 % 4) 53 9 matchLenDefault h.ml
  let left ← backStart src p stop
  let (sl, left) ← backBits src p left tl.log
  let (so, left) ← backBits src p left tf.log
  let (sm, left) ← backBits src p left tm.log
  let (o, reps) ← sequences src lits p window limit tl tf tm n left sl so sm 0 h.reps out
  if most < o.size - out.size then .error (.bad at_)
  return (o, { h with ll := some tl, ofs := some tf, ml := some tm, reps := reps })

/-- The blocks of a frame: the byte after the last one, and the output. -/
def zstdBlocks (src : Array Byte) (most window limit : Nat) : Nat → Nat → ZHistory → Array Byte → Except Stop (Nat × Array Byte)
  | 0, at_, _, _ => .error (.bad at_)
  | fuel + 1, at_, h, out => do
    let w ← bitsAt src (8 * at_) 24
    let kind := w / 2 % 4
    let n := w / 8
    let p := at_ + 3
    let size := if kind = 1 then 1 else n
    if kind = 3 ∨ most < n ∨ src.size < p + size then .error (.bad at_)
    let (out, h) ← (if kind = 2 then zstdBlock src p (p + n) most window limit h out
      else if limit < out.size + n then .error (.over p)
      else .ok (out ++ (if kind = 0 then src.extract p (p + n) else Array.replicate n (src.getD p 0)), h))
    if w % 2 = 1 then .ok (p + size, out) else zstdBlocks src most window limit fuel (p + size) h out

/-! ## Frames -/

def xyP1 : BitVec 64 := 0x9E3779B185EBCA87
def xyP2 : BitVec 64 := 0xC2B2AE3D27D4EB4F
def xyP3 : BitVec 64 := 0x165667B19E3779F9
def xyP4 : BitVec 64 := 0x85EBCA77C2B2AE63
def xyP5 : BitVec 64 := 0x27D4EB2F165667C5

def xyRound (acc lane : BitVec 64) : BitVec 64 := (acc + lane * xyP2).rotateLeft 31 * xyP1

/-- xxHash64 with seed 0, the check of Zstandard frames. PRESUMED (log 9). -/
def xxh64 (a : Array Byte) : BitVec 64 :=
  let n := a.size
  let lane := fun (p k : Nat) => BitVec.ofNat 64 (leNat (a.extract p (p + k)).toList)
  let lanes := (List.range (n / 32)).foldl (fun (st : List (BitVec 64)) k =>
    (List.range 4).map (fun j => xyRound (st.getD j 0) (lane (32 * k + 8 * j) 8)))
    [xyP1 + xyP2, xyP2, 0, 0 - xyP1]
  let l := fun (j : Nat) => lanes.getD j 0
  let h : BitVec 64 := if n < 32 then xyP5
    else (List.range 4).foldl (fun (h : BitVec 64) j => (h ^^^ xyRound 0 (l j)) * xyP1 + xyP4)
      ((l 0).rotateLeft 1 + (l 1).rotateLeft 7 + (l 2).rotateLeft 12 + (l 3).rotateLeft 18)
  let h := h + BitVec.ofNat 64 n
  let full := n / 32 * 32
  let words := (n - full) / 8
  let h := (List.range words).foldl (fun (h : BitVec 64) k => (h ^^^ xyRound 0 (lane (full + 8 * k) 8)).rotateLeft 27 * xyP1 + xyP4) h
  let p := full + 8 * words
  let h := if n < p + 4 then h else (h ^^^ lane p 4 * xyP1).rotateLeft 23 * xyP2 + xyP3
  let p := if n < p + 4 then p else p + 4
  let h := (a.extract p n).toList.foldl (fun (h : BitVec 64) b => (h ^^^ b.zeroExtend 64 * xyP5).rotateLeft 11 * xyP1) h
  let h := (h ^^^ (h >>> 33)) * xyP2
  let h := (h ^^^ (h >>> 29)) * xyP3
  h ^^^ (h >>> 32)

/-- The fields of a frame header: its length, Window_Size, Dictionary_ID, Frame_Content_Size when present, the flag of the
content checksum, the reserved bit. -/
structure ZHeader where
  length : Nat
  window : Nat
  dictionary : Nat
  content : Option Nat
  checked : Bool
  reserved : Bool
  deriving DecidableEq, Repr

/-- The header of a frame, magic number included. -/
def zstdHeader (bs : Bytes) : ZHeader :=
  let d := leAt bs 4 1
  let single := bitOf d 5
  let dictLen := [0, 1, 2, 4].getD (d % 4) 0
  let p := 5 + b2n (!single)
  let sizeLen := [b2n single, 2, 4, 8].getD (d / 64) 0
  let size := leAt bs (p + dictLen) sizeLen + (if sizeLen = 2 then 256 else 0)
  let wd := leAt bs 5 1
  let wb := 2 ^ (10 + wd / 8)
  ⟨p + dictLen + sizeLen, if single then size else wb + wb / 8 * (wd % 8), leAt bs p dictLen,
    if sizeLen = 0 then none else some size, bitOf d 2, bitOf d 3⟩

/-- One frame at the start of the bytes: the byte after it, and its content of at most `limit` bytes. -/
def zstdFrame (limit : Nat) (bs : Bytes) : Except Stop (Nat × Array Byte) := do
  let h := zstdHeader bs
  if bs.length < h.length ∨ h.reserved then .error (.bad 0)
  let src := bs.toArray
  let (p, out) ← zstdBlocks src (min h.window 131072) h.window limit (bs.length + 1) h.length .start #[]
  if (match h.content with | some n => n != out.size | none => false) then .error (.bad p)
  if h.checked then
    if bs.length < p + 4 ∨ leAt bs p 4 ≠ (xxh64 out).toNat % 2 ^ 32 then .error (.bad p)
    return (p + 4, out)
  return (p, out)

/-- Zstandard frames one after the other; skippable frames are passed over (R303). -/
def zstdFrames (limit : Nat) : Nat → Nat → Bytes → Bytes → CodecOut
  | 0, at_, _, _ => .damaged at_
  | fuel + 1, at_, out, bs =>
    if bs.isEmpty then .ok out
    else if leAt bs 0 4 / 16 = 0x184D2A5 then
      (if bs.length < 8 + leAt bs 4 4 then .damaged at_ else zstdFrames limit fuel (at_ + 8 + leAt bs 4 4) out (bs.drop (8 + leAt bs 4 4)))
    else if leAt bs 0 4 ≠ 0xFD2FB528 then .damaged at_
    else if 8 * 2 ^ 20 < (zstdHeader bs).window ∨ (zstdHeader bs).dictionary ≠ 0 then .unsupported
    else match zstdFrame (limit - out.length) bs with
      | .error (.bad p) => .damaged (at_ + p)
      | .error (.over _) => .over
      | .ok (n, o) => zstdFrames limit fuel (at_ + n) (out ++ o.toList) (bs.drop n)

/-- A codec of R296: 0 none, 1 Deflate, 2 zlib, 3 gzip, 4 Zstandard, 5 LZ4; others are rejected. -/
def decompress (codec limit : Nat) (bs : Bytes) : CodecOut :=
  if codec = 0 then (if limit < bs.length then .over else .ok bs)
  else if codec = 1 then deflateRaw limit bs
  else if codec = 2 then zlib limit bs
  else if codec = 3 then gzip limit bs
  else if codec = 4 then (if bs.isEmpty then .damaged 0 else zstdFrames limit bs.length 0 [] bs)
  else if codec = 5 then lz4Frame limit bs
  else .unsupported

end Sys2Proof.Machine
end

