-- ==== Sys2Proof/Machine/Intake.lean ====
section
/-! DEFINITION. Intake: shards and the records in them (R295 to R302, R309, R312), the order of an epoch (R291, R292,
R294), the checks of R304 to R306, and SHUFFLE_WINDOW_BUILD and INTAKE_RECORD. -/

namespace Sys2Proof.Machine

/-! ## The intake profile (R313) -/

def inMaxStored (body : Bytes) : Nat := leAt body 0x00 4
def inMaxRaw (body : Bytes) : Nat := leAt body 0x04 4
def inWindow (body : Bytes) : Nat := max 1 (leAt body 0x08 4)
def inShuffle (body : Bytes) : Bool := bitOf (leAt body 0x0C 1) 0
def inCodec (body : Bytes) (c : Nat) : Bool := decide (c ≤ 5) && bitOf (leAt body 0x0D 1) c
def inTarGroup (body : Bytes) : Bool := bitOf (leAt body 0x0E 1) 0
def inLpCrc (body : Bytes) : Bool := bitOf (leAt body 0x0E 1) 1
def inRequireEnc (body : Bytes) : Bool := bitOf (leAt body 0x0E 1) 2

/-- A kind that R296 does not reserve. -/
def kindKnown (k : Nat) : Bool := (1 ≤ k && k ≤ 7) || 128 ≤ k

/-- The tenons that KIND_MAP gives a kind. -/
def kindTenons (body : Bytes) (kind : Nat) : List Nat :=
  if !kindKnown kind then [] else
    ((List.range 8).filter (fun j => leAt body (0x10 + 2 * j) 1 == kind)).map (fun j => leAt body (0x11 + 2 * j) 1)

/-- The kind of every length-prefixed record: the first of KIND_MAP (R301; log 60). -/
def lpKind (body : Bytes) : Nat := leAt body 0x10 1

/-- The kind that TAR_EXT gives an extension; 0 for none (R300). -/
def extKind (body ext : Bytes) : Nat :=
  match (List.range 8).find? (fun j => leAt body (0x20 + 4 * j) 1 != 0 && (bytesAt body (0x20 + 4 * j) 3).takeWhile (· != 0) == ext) with
  | some j => leAt body (0x23 + 4 * j) 1
  | none => 0

/-! ## Records of a container -/

/-- One part of a sample: a ustar member's data, or a record's payload. -/
structure Part where
  off : Nat
  len : Nat
  kind : Nat
  deriving DecidableEq, Repr

/-- One sample as it lies in its shard, from `start` to `stop`. -/
structure Member where
  start : Nat
  stop : Nat
  parts : List Part
  /-- What members of one ustar group share (R300). -/
  name : Option Bytes
  /-- Rejected by its header (R300). -/
  unsup : Bool
  /-- Offset of a header check that failed. -/
  damaged : Option Nat
  deriving DecidableEq, Repr

/-- Why a shard cannot be read (R309): a status of its own, or a response at an address. -/
inductive ShardStop where
  | code (c : Nat)
  | resp (addr : Nat) (r : Resp)
  deriving DecidableEq, Repr

/-- How bytes of a shard are looked at: offset and length. -/
abbrev Look := Nat → Nat → Except ShardStop Bytes

/-- A string up to its first NUL. -/
def cstr (bs : Bytes) : Bytes := bs.takeWhile (· != 0)

/-- An octal field. -/
def octal (bs : Bytes) : Nat :=
  (bs.filter (fun b => decide (0x30 ≤ b.toNat) && decide (b.toNat ≤ 0x37))).foldl (fun n b => 8 * n + (b.toNat - 0x30)) 0

/-- The size field: octal, or base-256 when its first bit is set (R300). -/
def tarSize (h : Bytes) : Nat :=
  let fd := bytesAt h 124 12
  if bitOf (leAt fd 0 1) 7 then beNat fd % 2 ^ 95 else octal fd

/-- A header checksum: the sum of the header with its checksum field as spaces. -/
def tarSum (h : Bytes) : Nat := (overlay h 148 (List.replicate 8 0x20)).foldl (fun n b => n + b.toNat) 0

/-- The name of a member. -/
def tarName (h : Bytes) : Bytes :=
  let p := cstr (bytesAt h 345 155)
  if p.isEmpty then cstr (bytesAt h 0 100) else p ++ [0x2F] ++ cstr (bytesAt h 0 100)

/-- What follows the last '/'. -/
def baseName (n : Bytes) : Bytes := (n.reverse.takeWhile (· != 0x2F)).reverse

/-- The name up to the first '.' after the last '/' (R300). -/
def groupName (n : Bytes) : Bytes := n.take (n.length - (baseName n).length) ++ (baseName n).takeWhile (· != 0x2E)

/-- What follows the last '.' of the last component; empty without one. -/
def extName (n : Bytes) : Bytes := let b := baseName n; if b.contains 0x2E then (b.reverse.takeWhile (· != 0x2E)).reverse else []

/-- A ustar member as a sample of its own. A directory has no data. -/
def tarMember (body h : Bytes) (off : Nat) : Member :=
  let n := tarSize h
  let flag := leAt h 156 1
  let wide := bitOf (leAt h 124 1) 7
  let name := tarName h
  ⟨off, off + 512 + ceilDiv n 512 * 512, if flag = 0x35 then [] else [⟨off + 512, n, extKind body (extName name)⟩], some (groupName name),
    (flag != 0x30 && flag != 0 && flag != 0x35) || wide, if tarSum h = octal (bytesAt h 148 8) then none else some (off + 148)⟩

/-- A member joins the sample before it (R300). -/
def joinMember (group : Bool) (acc : List Member) (m : Member) : List Member := match acc with
  | a :: t =>
    if group && !a.unsup && !m.unsup && !a.parts.isEmpty && !m.parts.isEmpty && a.name == m.name && decide (a.parts.length < 8) then
      { a with stop := m.stop, parts := a.parts ++ m.parts, damaged := a.damaged.or m.damaged } :: t
    else m :: acc
  | [] => [m]

/-- Walks a ustar shard (R300), newest sample first; a shard without its end blocks is damaged (R309). -/
def tarWalk (look : Look) (body : Bytes) (size : Nat) : Nat → Nat → List Member → Except ShardStop (List Member)
  | 0, _, _ => .error (.code stDamaged)
  | fuel + 1, off, acc =>
    if size < off + 1024 then .error (.code stDamaged)
    else do
      let h ← look off 512
      if h.all (· == 0) then
        let e ← look (off + 512) 512
        if e.all (· == 0) then return acc.reverse else .error (.code stDamaged)
      else
        let m := tarMember body h off
        tarWalk look body size fuel m.stop (if leAt h 156 1 = 0x35 ∧ m.damaged.isNone then acc else joinMember (inTarGroup body) acc m)

/-- Walks a length-prefixed shard (R301), newest first. A record that runs past the shard's end is damaged (log 60). -/
def lpWalk (look : Look) (body : Bytes) (size : Nat) : Nat → Nat → List Member → Except ShardStop (List Member)
  | 0, _, acc => .ok acc.reverse
  | fuel + 1, off, acc =>
    if size ≤ off then .ok acc.reverse
    else if size < off + 4 then .error (.code stDamaged)
    else do
      let n := leNat (← look off 4)
      if n = 0xFFFFFFFF then return acc.reverse
      else
        let stop := off + 4 + n + (if inLpCrc body then 4 else 0)
        if size < stop then .error (.code stDamaged)
        else lpWalk look body size fuel stop (⟨off, stop, [⟨off + 4, n, lpKind body⟩], none, false, none⟩ :: acc)

/-- A member of a stave shard: one record of `len` stored bytes and a tag. -/
def staveMember (off len tag : Nat) : Member := ⟨off, off + ceilDiv (16 + len + tag) 64 * 64, [], none, false, none⟩

/-- Walks the records of an unindexed stave shard (R296). -/
def staveWalk (look : Look) (size tag : Nat) : Nat → Nat → List Member → Except ShardStop (List Member)
  | 0, _, acc => .ok acc.reverse
  | n + 1, off, acc =>
    if size < off + 16 then .error (.code stDamaged)
    else do
      let h ← look off 16
      let m := staveMember off (leAt h 0 4) tag
      staveWalk look size tag n m.stop (m :: acc)

/-- The header of a stave shard passes (R295, R309). -/
def staveHeaderOk (h : Bytes) : Bool :=
  leAt h 0 4 == 0x53565453 && leAt h 4 2 == 1 && leAt h 0x3C 4 == (crc32c (h.take 0x3C)).toNat && decide (1 ≤ leAt h 8 4) && decide (leAt h 8 4 ≤ 2 ^ 24)

def staveEnc (h : Bytes) : Bool := bitOf (leAt h 6 2) 0
def staveIndexed (h : Bytes) : Bool := bitOf (leAt h 6 2) 1
def staveTag (h : Bytes) : Nat := if staveEnc h then 16 else 0

/-- The records of a stave shard (R295 to R297, R309). -/
def staveMembers (look : Look) (size window : Nat) : Except ShardStop (List Member) := do
  let h ← look 0 64
  if !staveHeaderOk h then .error (.code stDamaged)
  else
    let n := leAt h 8 4
    if staveIndexed h then
      let ix ← look (leAt h 0x18 8) (8 * n + 4)
      if leAt ix (8 * n) 4 ≠ (crc32c (ix.take (8 * n))).toNat then .error (.code stDamaged)
      else
        let offs := (List.range n).map (fun j => leAt ix (8 * j) 8)
        if offs.headD 0 ≠ 0x40 ∨ offs.any (fun o => o % 64 != 0 || decide (size < o + 16)) then .error (.code stDamaged)
        else offs.mapM (fun o => do
          let r ← look o 16
          return staveMember o (leAt r 0 4) (staveTag h))
    else if 1 < window then .error (.code stUnsupported)
    else staveWalk look size (staveTag h) n 0x40 []

/-- The ustar members between two offsets, directories with a good header left out. -/
def tarSpan (look : Look) (body : Bytes) (stop : Nat) : Nat → Nat → Except ShardStop (List Member)
  | 0, _ => .ok []
  | fuel + 1, off =>
    if stop < off + 512 then .ok []
    else do
      let h ← look off 512
      let m := tarMember body h off
      let rest ← tarSpan look body stop fuel m.stop
      return if leAt h 156 1 = 0x35 ∧ m.damaged.isNone then rest else m :: rest

/-- One sample of an external index (R307): LENGTH bytes from OFFSET on. Its headers are read there; a sample without a member, and data
that runs past LENGTH or past the shard, are damaged (log 60). -/
def indexedSample (look : Look) (body : Bytes) (format size off len : Nat) : Except ShardStop Member :=
  let stop := off + len
  let broken (d : Nat) : Member := ⟨off, min stop size, [], none, false, some d⟩
  if size < stop then .ok (broken off)
  else if format = 2 then do
    let ms ← tarSpan look body stop (len / 512 + 1) off
    let ps := ms.flatMap (·.parts)
    return match ps.find? (fun p => decide (stop < p.off + p.len)) with
      | some p => broken p.off
      | none =>
        if ps.isEmpty ∨ 8 < ps.length then broken (((ms.filterMap (·.damaged)).head?).getD off)
        else ⟨off, stop, ps, none, ms.any (·.unsup), (ms.filterMap (·.damaged)).head?⟩
  else if len < 4 then .ok (broken off)
  else do
    let n := leNat (← look off 4)
    return if stop < off + 4 + n + (if inLpCrc body then 4 else 0) then broken off
      else ⟨off, stop, [⟨off + 4, n, lpKind body⟩], none, false, none⟩

/-- The samples that an external index names (R307): as many as the shard holds (R309). -/
def indexedMembers (ix : Nat → Except ShardStop Bytes) (look : Look) (body : Bytes) (format size n : Nat) (ms : List Member) :
    Except ShardStop (List Member) := do
  let ix ← ix (16 * n)
  if ms.length ≠ n then .error (.code stDamaged)
  else (List.range n).mapM (fun j => indexedSample look body format size (leAt ix (16 * j) 8) (leAt ix (16 * j + 8) 4))

/-! ## Looking at a shard -/

/-- What a read of the licensee's memory would give, without traffic (log 4). -/
def State.peek (s : State) (addr len : Nat) : Except ShardStop Bytes := match (respOf s.resp addr len).getD .decerr with
  | .okay => .ok (memReadBytes s.mem addr len)
  | r => .error (.resp addr r)

/-- The content of a shard with a whole-shard codec (R302, R309). -/
def State.shardContent (s : State) (body : Bytes) (sh : Shard) : Except ShardStop Bytes :=
  if !inCodec body sh.codec then .error (.code stUnsupported)
  else do
    let bs ← s.peek sh.addr sh.size
    match decompress sh.codec (2 ^ 64) bs with
    | .ok out => return out
    | .damaged _ => .error (.code stDamaged)
    | .over => .error (.code stDamaged)
    | .unsupported => .error (.code stUnsupported)

/-- The samples of a shard, and its content when it has a whole-shard codec. -/
def State.shardMembers (s : State) (body : Bytes) (sh : Shard) : Except ShardStop (List Member × Option Bytes) := do
  if sh.format = 1 then
    let ms ← staveMembers (fun o n => s.peek (sh.addr + o) n) sh.size (inWindow body)
    return (ms, none)
  else if !inCodec body sh.codec ∨ (sh.indexAddr = 0 ∧ 1 < inWindow body) then .error (.code stUnsupported)
  else
    let c ← if sh.codec = 0 then .ok none else (s.shardContent body sh).map some
    let size := match c with
      | some bs => bs.length
      | none => sh.size
    let look : Look := fun o n => match c with
      | some bs => .ok (bytesAt bs o n)
      | none => s.peek (sh.addr + o) n
    let ms ← if sh.format = 2 then tarWalk look body size (size / 512 + 1) 0 [] else lpWalk look body size (size + 1) 0 []
    let ms ← if sh.indexAddr = 0 then .ok ms else indexedMembers (fun n => s.peek sh.indexAddr n) look body sh.format size sh.samples ms
    return (ms, c)

/-- The traffic of reading a shard's header and index, or all of a shard with a whole-shard codec (R302, R312). -/
def State.headerTraffic (w : Party) (sh : Shard) (s : State) : State :=
  let rd := fun (a n : Nat) (s : State) => if n = 0 then s else (s.sysRead w a n).2.2
  if sh.format = 1 then
    let h := memReadBytes s.mem sh.addr 64
    let s := rd sh.addr 64 s
    if staveHeaderOk h && staveIndexed h then rd (sh.addr + leAt h 0x18 8) (8 * leAt h 8 4 + 4) s else s
  else rd sh.addr (if sh.codec = 0 then 0 else sh.size) (if sh.indexAddr = 0 then s else rd sh.indexAddr (16 * sh.samples) s)

/-! ## The order of an epoch (R291, R292, R312) -/

/-- The source shard of a shard position (R292). -/
def Stream.shardOrder (x : Stream) (body : Bytes) (pos : Nat) : Nat :=
  if inShuffle body then (tblGet? x.ahead pos).getD (keyedPerm x.seed x.epoch 0 0 x.source.length pos) else pos

/-- The shard positions known once the shard at `pos` is read: that one and the next 64 (R294). -/
def Stream.planAhead (x : Stream) (body : Bytes) (pos : Nat) : Tbl Nat :=
  if !inShuffle body then x.ahead
  else (((List.range 65).map (· + pos)).filter (fun p => decide (p < x.source.length))).foldl (fun t p => tblSet t p (x.shardOrder body p)) x.ahead

/-- The shard at a position of the epoch. -/
def Stream.shardAt (x : Stream) (body : Bytes) (pos : Nat) : Option Shard :=
  if x.source.length ≤ pos then none else x.source[x.shardOrder body pos]?

/-- Reads that wait on a port or are on their way (R312). -/
def Port.readLoad (p : Port) : Nat := (p.waiting.filter (fun r => r.op != .write)).length + p.reads.length

/-- The port of a shard position (R312). -/
def State.choosePort (s : State) (x : Stream) (pos : Nat) : Nat := (tblGet? x.shardPorts pos).getD <|
  let ps := (List.range 8).filter (fun n => hasBit (s.graphOf x).ports n)
  if x.openMode then
    ((ps.foldl (fun (o : Option (Nat × Nat)) n =>
      let l := (s.port n).readLoad
      match o with
      | some (m, _) => if l < m then some (l, n) else o
      | none => some (l, n)) none).map (·.2)).getD 0
  else ps.getD (pos % max 1 ps.length) 0

/-- A shard cannot be read: its stream halts (R309). -/
def State.shardStop (f i : Nat) (e : ShardStop) (s : State) : State := match e with
  | .code c => (s.streamError f i c 0).relays
  | .resp a r => (s.streamResp f i a false r).relays

/-- Where the search for an element of the epoch's sequence ends. -/
inductive Found where
  | at_ (pos k : Nat)
  | ended
  | stopped
  deriving DecidableEq, Repr

/-- The number of samples of a shard that its source entry or its header gives (R295, R307). -/
def State.samplesGiven (s : State) (sh : Shard) : Option Nat :=
  if sh.format = 1 then (match s.peek sh.addr 64 with
    | .ok h => if staveHeaderOk h then some (leAt h 8 4) else none
    | .error _ => none)
  else if sh.indexAddr ≠ 0 then some sh.samples else none

/-- A shard whose n samples stand from element a on in the sequence holds no index of the stream's own in a window that touches it (R312,
R485). -/
def Stream.foreign (x : Stream) (meet : Nat) (body : Bytes) (a n : Nat) : Bool :=
  let w := max 1 (inWindow body)
  let base := (x.runOf x.position).base
  decide (base + ceilDiv (a + n) w * w ≤ x.nextOwn meet base (base + a / w * w))

/-- Finds element `e` of the sequence, reading the headers it needs (R292, R312). Of a shard of other frames' samples no more is read than
its header, where nothing else gives its number of samples (R485; log 150); `fuel` is the number of shards. -/
def State.findElem (f i : Nat) (body : Bytes) : Nat → Nat → Nat → State → Found × State
  | 0, _, _, s => (.ended, s)
  | fuel + 1, pos, e, s =>
    let x := s.stream f i
    match tblGet? x.counts pos, x.shardAt body pos with
    | some n, _ => if e < n then (.at_ pos e, s) else s.findElem f i body fuel (pos + 1) (e - n)
    | none, none => (.ended, s)
    | none, some sh =>
      let a := (x.counts.filter (fun p => decide (p.1 < pos))).foldl (fun n p => n + p.2) 0
      match (s.samplesGiven sh).filter (fun n => decide (n ≤ e) && x.foreign s.meet body a n) with
      | some n =>
        let s := if sh.format = 1 then (s.sysRead { s.sampleParty f x x.position with port := s.choosePort x pos } sh.addr 64).2.2 else s
        (s.modStream f i (fun x => { x with counts := tblSet x.counts pos n })).findElem f i body fuel (pos + 1) (e - n)
      | none =>
      let port := s.choosePort x pos
      let s := s.setStream f i { x with shardPorts := tblSet x.shardPorts pos port, ahead := x.planAhead body pos }
      let m := if s.portUp port then s.shardMembers body sh else .error (.resp sh.addr .decerr)
      let s := s.headerTraffic { s.sampleParty f x x.position with port := port } sh
      match m with
      | .error er => (.stopped, s.shardStop f i er)
      | .ok (ms, _) =>
        let s := s.modStream f i (fun x => { x with counts := tblSet x.counts pos ms.length })
        if e < ms.length then (.at_ pos e, s) else s.findElem f i body fuel (pos + 1) (e - ms.length)

/-- The epoch's length, once every header is read and no shard is to come. -/
def Stream.epochTotal (x : Stream) : Option Nat :=
  if !x.liveSource && decide (x.counts.length = x.source.length) then some (x.counts.foldl (fun n p => n + p.2) 0) else none

/-- The end of the epoch becomes known (R310); past it the FLUSH beats of the boundary go out (R60). -/
def State.settleStop (f i : Nat) (s : State) : State :=
  let x := s.stream f i
  match x.runs.getLast?, x.epochTotal with
  | some r, some n =>
    if r.stop.isSome then s
    else
      let s := s.setStream f i { x with runs := x.runs.map (fun z => if z.base = r.base then { z with stop := some (r.base + n) } else z) }
      if r.base + n ≤ x.position then (s.sendFlush f i).pump f i else s
  | _, _ => s

/-- The end of the epoch, if the position has just passed it. -/
def State.passStop (f i old : Nat) (s : State) : State :=
  let x := s.stream f i
  match x.runs.getLast? with
  | some r => match r.stop with
    | some e => if old < e ∧ e ≤ x.position then s.sendFlush f i else s
    | none => s
  | none => s

/-- The stream may dispatch now (R236, R243, R245, R248, R469). A draining one has samples left only after a pre-emption. -/
def State.mayDispatch (s : State) (x : Stream) : Bool :=
  s.live && (x.st == .filling || x.st == .running || x.st == .draining) && (s.graphOf x).direction == 0 && !x.hurdle && (!x.guaranteed || x.sourced) &&
  (match x.runs.getLast? with
    | some r => (match r.stop with
      | some e => decide (x.position < e)
      | none => x.st != .draining)
    | none => false) &&
  (!x.openMode || decide (x.position < x.inFlight.foldl (fun m y => min m y.index) x.position + 512))

/-- The logical index of the position within its epoch (R292). -/
def Stream.logical (x : Stream) : Nat := x.position - (x.runOf x.position).base

/-- The bank in which an intake bay keeps a stream's window tables: one of those that the plan gives its engine, by the stream's frame-wide
index (R294; log 32). -/
def State.windowBank (s : State) (x : Stream) (bay : Nat) : Option Nat := match s.image.committed with
  | some c => do
    let b ← (c.bound x.graph).find? (fun p => p.1.bay == bay && p.1.engine / 256 == 1)
    let l := (s.slotBanks bay b.1.slot).filter (fun n => s.reaches n 1 b.1.slot)
    l[x.gidx % max 1 l.length]?
  | none => none

/-- The word of a window's entry: the windows take the halves of the bank in turn, 2 B for each entry. -/
def windowWord (win k : Nat) : Nat := win % 2 * 2048 + k / 32

/-- Every intake bay of the graph writes a window's table into its bank (R294). -/
def State.putWindow (x : Stream) (win : Nat) (t : List Nat) (s : State) : State :=
  let bs := t.flatMap (natLe 2)
  s.forEach (List.range s.nBays) (fun bay s => match s.windowBank x bay with
    | some b => s.forEach (List.range (ceilDiv bs.length 64)) (fun j s => s.setWord b (windowWord win (32 * j)) (wordOf (padTo 64 (bytesAt bs (64 * j) 64))))
    | none => s)

/-- The word of the table that gives the position's element is known to be bad (R259). -/
def State.windowBad (s : State) (x : Stream) (bay : Nat) (body : Bytes) : Bool :=
  let p := x.logical
  let w := inWindow body
  decide (1 < w) && (match s.windowBank x bay with
    | some b => s.wordBad (wordKey b (windowWord (p / w) (p % w)))
    | none => false)

/-- SHUFFLE_WINDOW_BUILD (R294): the window of the position, or the next one. -/
def execShuffleWindowBuild (fn : BitVec 6) (stream : BitVec 10) (v : MemView) (s : State) : Out :=
  let s := s.seeMem v
  s.turn fun s =>
  let f := fn.toNat
  let i := stream.toNat
  let x := s.stream f i
  match s.intakeBody x.graph with
  | none => .next s
  | some body =>
    let w := inWindow body
    if !s.mayDispatch x || w ≤ 1 then .next s
    else
      let cur := x.logical / w
      let win := if (tblGet? x.windows cur).isSome then cur + 1 else cur
      if (tblGet? x.windows win).isSome then .next s
      else
        match s.findElem f i body (x.source.length + 1) 0 ((win + 1) * w - 1) with
        | (.stopped, s) => .next s
        | (r, s) =>
          let s := s.settleStop f i
          let y := s.stream f i
          let n := match r with
            | .at_ _ _ => w
            | _ => y.epochTotal.getD 0 - win * w
          if n = 0 then .next s
          else
            let t := (List.range n).map (keyedPerm y.seed y.epoch 1 win n)
            .next ((s.setStream f i { y with windows := (tblSet y.windows win t).filter (fun p => decide (cur ≤ p.1)) }).putWindow y win t)

/-- The element of the sequence at the position (R292); none while its window's table is not built (R294). -/
def Stream.element (x : Stream) (body : Bytes) : Option Nat :=
  let p := x.logical
  let w := inWindow body
  if w ≤ 1 then some p
  else (tblGet? x.windows (p / w)).map (fun t => p / w * w + t.getD (p % w) 0)

/-! ## The checks of R304 to R306 -/

/-- The sample at the position is rejected in the intake bay, and the position moves on (R304, R431). -/
def State.intakeReject (f i bay code detail : Nat) (s : State) : State :=
  let x := s.stream f i
  let s := s.modStream f i (fun x => { x with
    reading := none, inFlight := x.inFlight ++ [InFlight.fresh x.position s.genCtr], position := x.after s.meet x.position (x.runOf x.position).base })
  ((s.rejectSample f i x.position code bay detail).passStop f i x.position).pump f i

/-- A check halts the stream; the record is read again after a resume (R305, R306, R308). -/
def State.intakeHalt (f i code : Nat) (s : State) : State :=
  ((s.modStream f i (fun x => { x with reading := none })).streamError f i code 0).relays

/-- The tenon of a part (R313, R468, R469): of those that KIND_MAP gives its kind. -/
def State.partTenon (s : State) (x : Stream) (bay : Nat) (body : Bytes) (kind : Nat) : Nat :=
  let ts := kindTenons body kind
  let rs := (s.routesFrom (s.graphOf x) bay).filter (fun r => ts.contains r.tenonPort)
  ((s.pickRoute x { UnitTag.fresh x.gidx x.position 0 with kind := kind } x.logical rs).map (·.tenonPort)).getD (ts.headD 0)

/-- The sample at the position is released to the bays that decode it: one unit per part (R300, R304). -/
def State.intakeRelease (f i bay : Nat) (body : Bytes) (parts : List (Nat × Bytes)) (s : State) : State :=
  let x := s.stream f i
  let gen := s.genCtr
  let ts := parts.map (fun p => s.partTenon x bay body p.1)
  let s := s.modStream f i (fun x => { x with reading := none })
  let s := s.dispatchSample f i ((parts.head?.map (·.1)).getD 0)
  let s := s.modStream f i (fun y => { y with inFlight := y.inFlight.map (fun z => if z.gen = gen then { z with want := parts.length } else z) })
  let s := s.forEach ((parts.zip ts).zipIdx) (fun p s =>
    s.putUnit bay p.1.2 ⟨p.1.1.2, { UnitTag.fresh x.gidx x.position gen with kind := p.1.1.1, ordinal := p.2 }, []⟩)
  (s.passStop f i x.position).pump f i

/-- What a check of a record gives. -/
inductive Verdict where
  | pass (bytes : Bytes)
  | reject (code detail : Nat)
  | halt (code : Nat)
  deriving DecidableEq, Repr

/-- Steps 6 and 7 of R304. -/
def unpackPayload (codec raw off : Nat) (body stored : Bytes) : Verdict :=
  let fit := fun (out : Bytes) =>
    if raw < out.length ∨ inMaxRaw body < out.length then Verdict.reject stOverBound 0
    else if out.length < raw then .reject stDamaged off else .pass out
  if codec = 0 then fit stored
  else match decompress codec (min raw (inMaxRaw body)) stored with
    | .ok out => fit out
    | .damaged d => .reject stDamaged (off + d)
    | .over => .reject stOverBound 0
    | .unsupported => .reject stUnsupported 0

/-- The key of a shard's list, as bound when the list was appended (R298, R306, R308, R498). -/
def State.boundKey (f slot gen : Nat) (s : State) : Except Nat Bytes × State :=
  if s.sec.cryptoError then (.error stCrypto, s)
  else if slot = 0xFFFF then (.error stAccessDenied, s)
  else match s.ownedSlot f slot with
    | (some k, s) => (if k.gen = gen ∧ k.keyType ≤ 1 then .ok k.key else .error stAccessDenied, s)
    | (none, s) => (.error (if s.sec.cryptoError then stCrypto else stAccessDenied), s)

/-- Steps 2 to 7 on a stave record (R298, R304): `hd` is the shard header, `k` its index, `off` its offset. -/
def State.checkStave (f : Nat) (body : Bytes) (sh : Shard) (hd : Bytes) (k off : Nat) (poison : Bool) (rec_ : Bytes) (s : State) : Verdict × State :=
  let len := leAt rec_ 0 4
  let raw := leAt rec_ 4 4
  let codec := leAt rec_ 9 1
  let tag := bytesAt rec_ (16 + len) (staveTag hd)
  let stored := bytesAt rec_ 16 len
  if (kindTenons body (leAt rec_ 8 1)).isEmpty || !inCodec body codec then (.reject stUnsupported 0, s)
  else if !staveEnc hd && inRequireEnc body then (.reject stUnsupported 0, s)
  else if poison then (.reject stPoison 0, s)
  else if (crc32c (rec_.take 12 ++ stored ++ tag)).toNat ≠ leAt rec_ 12 4 then (.reject stDamaged (off + 12), s)
  else if !staveEnc hd then (unpackPayload codec raw (off + 16) body stored, s)
  else match s.boundKey f sh.keySlot sh.keyGen with
    | (.error c, s) => (.halt c, s)
    | (.ok key, s) => match gcmDec key (bytesAt hd 0x20 8 ++ natLe 4 k) (hd.take 0x3C ++ rec_.take 12) stored tag with
      | none => (.reject stAuthFail 0, s)
      | some pt => (unpackPayload codec raw (off + 16) body pt, s)

/-- Steps 1 to 7 on a ustar or length-prefixed sample (R300 to R302, R304); `rec_` holds the shard's bytes from `m.start` on. -/
def checkPlain (body : Bytes) (format : Nat) (m : Member) (poison : Bool) (rec_ : Bytes) : Except (Nat × Nat) (List (Nat × Bytes)) :=
  if m.unsup || m.parts.any (fun p => (kindTenons body p.kind).isEmpty) || inRequireEnc body then .error (stUnsupported, 0)
  else if poison then .error (stPoison, 0)
  else match m.damaged with
    | some d => .error (stDamaged, d)
    | none =>
      let ps := m.parts.map (fun p => (p.kind, bytesAt rec_ (p.off - m.start) p.len))
      match (if format = 3 ∧ inLpCrc body then m.parts else []).find? (fun p =>
          (crc32c (bytesAt rec_ (p.off - m.start) p.len)).toNat != leAt rec_ (p.off - m.start + p.len) 4) with
      | some p => .error (stDamaged, p.off + p.len)
      | none => .ok ps

/-- Stored bytes of a sample without a record header (R304, step 1). -/
def Member.stored (m : Member) : Nat := m.parts.foldl (fun n p => n + p.len) 0

/-- A tag failure is counted; one above AUTH_THRESH halts the stream (R305). -/
def State.authFailed (f i bay : Nat) (s : State) : State :=
  let x := s.stream f i
  let n := x.authCount + 1
  let s := s.setStream f i { x with authCount := n }
  if x.authThresh < n then (s.count 8 f 1 1).intakeHalt f i stAuthFail else s.intakeReject f i bay stAuthFail 0

/-- A verdict takes effect. -/
def State.applyVerdict (f i bay kind : Nat) (body : Bytes) (v : Verdict) (s : State) : State := match v with
  | .pass bs => s.intakeRelease f i bay body [(kind, bs)]
  | .reject c d => if c = stAuthFail then s.authFailed f i bay else s.intakeReject f i bay c d
  | .halt c => s.intakeHalt f i c

/-- Buffers that a decrypted record needs of the profile's POOL (R304): its stored bytes in whole buffers, at least one. -/
def State.stagingNeed (s : State) (f : Nat) (body rec_ : Bytes) : Nat := match s.poolNo f (leAt body 0x0F 1) with
  | some p => max 1 (ceilDiv (leAt rec_ 0 4) (2 ^ (s.pool p).log2Size))
  | none => 1

/-- The record has been read: it is released or rejected (R304). What an encrypted one decrypts to is held in buffers of the profile's
POOL, for which the record waits (R275), until its verdict; a halted stream keeps them (R248). -/
def State.judgeRecord (f i : Nat) (body : Bytes) (sh : Shard) (port k : Nat) (m : Member) (poison : Bool) (rec_ : Bytes) (s : State) : State :=
  let bay := s.intakeBay port
  let hd := memReadBytes s.mem sh.addr 64
  -- an encrypted stream stalls during a self-test (R508)
  if (sh.format = 1 ∧ staveEnc hd ∧ s.sec.selftestBusy) ∨ !s.bayRuns bay then s
  else
  let g := (s.stream f i).position
  let sealed_ := decide (sh.format = 1) && staveEnc hd
  let (ready, s) := if sealed_ then s.holdBuffers f i (leAt body 0x0F 1) g (s.stagingNeed f body rec_) else (true, s)
  if !ready then s
  else
  let s := (s.modBay bay (fun b => { b with taken := b.taken + 1 })).count 2 bay 6 1
  let settle := fun (s : State) => if sealed_ && (s.stream f i).position != g then s.dropBuffers f i (leAt body 0x0F 1) g else s
  if sh.format = 1 then
    let s := if staveEnc hd then s.modStream f i (fun x => { x with encrypted := true }) else s
    let (v, s) := s.checkStave f body sh hd k m.start poison rec_
    settle (s.applyVerdict f i bay (leAt rec_ 8 1) body v)
  else match checkPlain body sh.format m poison rec_ with
    | .ok ps => s.intakeRelease f i bay body ps
    | .error (c, d) => s.intakeReject f i bay c d

/-- A complete record has its turn in its intake bay: no other that waits there goes before it (R235). -/
def State.intakeTurn (s : State) (f i : Nat) (t : Reading) : Bool :=
  let bay := s.intakeBay t.port
  let best := (s.bay bay).bestTurn
  let x := s.stream f i
  s.openStreams.all (fun p => (p.1 == f && p.2.1 == i) || match p.2.2.reading with
    | some u => !(u.complete && s.intakeBay u.port == bay && s.mayDispatch p.2.2) || s.awaitsBuffer (sKey p.1 p.2.1) ||
      dueBefore best (s.unitDue x t.index) (s.unitDue p.2.2 u.index)
    | none => true)

/-- A record that is at hand already, out of a shard with a whole-shard codec. -/
def Reading.whole (index port : Nat) (bs : Bytes) : Reading :=
  let t : Reading := ⟨index, 0, bs.length, port, [], false⟩
  { t with got := t.pieces.map (fun p => (p.1, bytesAt bs p.1 (64 * p.2))) }

/-- The reading of the record at the position begins, unless its bounds reject it unread (R304 step 1). -/
def State.startRecord (f i : Nat) (body : Bytes) (sh : Shard) (port k : Nat) (m : Member) (content : Option Bytes) (s : State) : State :=
  let x := s.stream f i
  let bay := s.intakeBay port
  let s := s.engineWorks x.graph bay
  match content with
  | some bs =>
    if m.unsup then (s.count 2 bay 6 1).intakeReject f i bay stUnsupported 0
    else if inMaxStored body < m.stored ∨ inMaxRaw body < m.stored then (s.count 2 bay 6 1).intakeReject f i bay stOverBound 0
    else
      let t := Reading.whole x.position port (bytesAt bs m.start (m.stop - m.start))
      let s := s.modStream f i (fun y => { y with reading := some t })
      if s.intakeTurn f i t then s.judgeRecord f i body sh port k m false t.bytes else s
  | none =>
    let go := fun (s : State) => (s.modStream f i (fun y => { y with
      reading := some ⟨x.position, sh.addr + m.start, m.stop - m.start, port, [], false⟩ })).reissueReads f i
    if sh.format = 1 then
      match s.sysRead { s.sampleParty f x x.position with port := port } (sh.addr + m.start) 16 with
      | (.okay, h, s') =>
        if inMaxStored body < leAt h 0 4 ∨ inMaxRaw body < leAt h 4 4 then (s'.count 2 bay 6 1).intakeReject f i bay stOverBound 0 else go s
      | (.poison, _, s') => (s'.count 2 bay 6 1).intakeReject f i bay stPoison 0
      | (r, _, s') => (s'.streamResp f i (sh.addr + m.start) false r).relays
    else if m.unsup then (s.count 2 bay 6 1).intakeReject f i bay stUnsupported 0
    else if inMaxStored body < m.stored ∨ inMaxRaw body < m.stored then (s.count 2 bay 6 1).intakeReject f i bay stOverBound 0
    else go s

/-- The record at the position goes on: it is found, read, and then checked (R292, R304, R306). None is begun while DEPTH batches wait
for the consumer (R241). -/
def State.intakeStep (f i : Nat) (body : Bytes) (s : State) : State :=
  let x := s.stream f i
  match x.element body with
  | none => s
  | some e =>
    match s.findElem f i body (x.source.length + 1) 0 e with
    | (.stopped, s) => s
    | (.ended, s) => s.settleStop f i
    | (.at_ pos k, s) =>
      let s := s.settleStop f i
      let x := s.stream f i
      match x.shardAt body pos with
      | none => s
      | some sh => match s.shardMembers body sh with
        | .error er => s.shardStop f i er
        | .ok (ms, content) => match ms[k]? with
          | none => s.shardStop f i (.code stDamaged)
          | some m =>
            let port := tblGetD x.shardPorts pos 0
            match x.reading with
            | none =>
              if s.sec.cryptoError && (x.encrypted || inRequireEnc body) then s.intakeHalt f i stCrypto
              else if !s.depthRoom x then s
              else if s.windowBad x (s.intakeBay port) body then s.intakeReject f i (s.intakeBay port) stEcc 0
              else s.startRecord f i body sh port k m content
            | some t => if t.complete && s.intakeTurn f i t then s.judgeRecord f i body sh t.port k m t.poison t.bytes else s

/-- INTAKE_RECORD. -/
def execIntakeRecord (fn : BitVec 6) (stream : BitVec 10) (v : MemView) (s : State) : Out :=
  let s := s.seeMem v
  s.turn fun s =>
  let f := fn.toNat
  let i := stream.toNat
  match s.intakeBody (s.stream f i).graph with
  | none => .next s
  | some body =>
    if !s.mayDispatch (s.stream f i) then .next s
    else
      let s := s.settleStop f i
      if s.mayDispatch (s.stream f i) then .next (s.intakeStep f i body) else .next s

end Sys2Proof.Machine
end

