-- ==== Sys2Proof/Machine/Copy.lean ====
section
/-! DEFINITION. COPY (R315, R501): plain, verify, decrypt, XTS. -/

namespace Sys2Proof.Machine

/-- Whether a copy goes on: not yet, or with the status and DETAIL that end it. -/
abbrev CopyEnd := Option (Nat × Nat)

/-- Pieces that a copy can have: source and destination cross pages at different places. -/
def copyFuel (n : Nat) : Nat := 2 * (n / 4096) + 3

/-- Copies a span unchanged, one piece after the other (MODE 0); the bytes written so far stay. -/
def State.copyPlain (f : Nat) : Nat → Nat → Nat → Nat → State → CopyEnd × State
  | 0, _, _, _, s => (none, s)
  | fuel + 1, src, dst, n, s =>
    if n = 0 then (none, s)
    else
      let k := min n (min (4096 - src % 4096) (4096 - dst % 4096))
      match s.sysRead (.control f) src k with
      | (.okay, bs, s) => match s.sysWrite (.control f) dst bs with
        | (.okay, s) => s.copyPlain f fuel (src + k) (dst + k) (n - k)
        | (r, s) => (some (respCode r, 0), s)
      | (r, _, s) => (some (respCode r, 0), s)

/-- A span is written at the destination. -/
def State.copyOut (f dst : Nat) (bs : Bytes) (s : State) : CopyEnd × State :=
  match s.writeSpan (.control f) (spanFuel bs.length) dst bs with
  | (none, s) => (none, s)
  | (some (r, _), s) => (some (respCode r, 0), s)

/-- MODE 3 and 4: data units of 4 KiB (R501). -/
def State.copyXts (f : Nat) (enc : Bool) (key : Bytes) : Nat → Nat → Nat → Nat → State → CopyEnd × State
  | 0, _, _, _, s => (none, s)
  | n + 1, tweak, src, dst, s =>
    match s.readSpan (.control f) 3 src 4096 with
    | (.error (r, _), s) => (some (respCode r, 0), s)
    | (.ok bs, s) => match s.copyOut f dst (xtsUnit enc key tweak bs) with
      | (none, s) => s.copyXts f enc key n (tweak + 1) (src + 4096) (dst + 4096)
      | e => e

/-- The header of a decrypted shard (R315). -/
def clearHeader (h : Bytes) : Bytes :=
  let b := overlay h 6 (natLe 2 (leAt h 6 2 / 2 * 2))
  overlay b 0x3C (natLe 4 (crc32c (b.take 0x3C)).toNat)

/-- A record with a plaintext payload, its tag zeroed and REC_CRC recomputed (R315). Without ENCRYPTED there is no tag
for the CRC to cover (R296; log 61). -/
def clearRecord (rec_ plain : Bytes) : Bytes :=
  let b := overlay (overlay rec_ 16 plain) (16 + plain.length) (zeros 16)
  overlay b 12 (natLe 4 (crc32c (rec_.take 12 ++ plain)).toNat)

/-- The checks of R304, except the bounds and those of a profile, on one record of a copy: its status and DETAIL, or its
stored payload in plaintext. -/
def checkCopied (hd : Bytes) (key : Option Bytes) (k off : Nat) (rec_ : Bytes) : Except (Nat × Nat) Bytes :=
  let len := leAt rec_ 0 4
  let raw := leAt rec_ 4 4
  let codec := leAt rec_ 9 1
  let tag := bytesAt rec_ (16 + len) (staveTag hd)
  let stored := bytesAt rec_ 16 len
  let unpack := fun (bs : Bytes) => if codec = 0 then CodecOut.ok bs else decompress codec raw bs
  let finish := fun (pt : Bytes) => match unpack pt with
    | .ok out => if raw < out.length then Except.error (stOverBound, 0) else if out.length < raw then .error (stDamaged, off + 16) else .ok pt
    | .damaged d => .error (stDamaged, off + 16 + d)
    | .over => .error (stOverBound, 0)
    | .unsupported => .error (stUnsupported, 0)
  if !kindKnown (leAt rec_ 8 1) || 5 < codec then .error (stUnsupported, 0)
  else if (crc32c (rec_.take 12 ++ stored ++ tag)).toNat ≠ leAt rec_ 12 4 then .error (stDamaged, off + 12)
  else if !staveEnc hd then finish stored
  else match key with
    | none => .error (stAccessDenied, 0)
    | some key => match gcmDec key (bytesAt hd 0x20 8 ++ natLe 4 k) (hd.take 0x3C ++ rec_.take 12) stored tag with
      | none => .error (stAuthFail, 0)
      | some pt => finish pt

/-- The records of a copied shard, each checked before it is written. -/
def State.copyRecords (f : Nat) (decrypt : Bool) (hd : Bytes) (key : Option Bytes) (src dst : Nat) : Nat → List Member → State → CopyEnd × State
  | _, [], s => (none, s)
  | k, m :: t, s =>
    match s.readSpan (.control f) (spanFuel (m.stop - m.start)) (src + m.start) (m.stop - m.start) with
    | (.error (r, _), s) => (some (respCode r, 0), s)
    | (.ok bs, s) => match checkCopied hd key k m.start bs with
      | .error e => (some e, s)
      | .ok pt => match s.copyOut f (dst + m.start) (if decrypt && staveEnc hd then clearRecord bs pt else bs) with
        | (none, s) => s.copyRecords f decrypt hd key src dst (k + 1) t
        | e => e

/-- MODE 1 and 2: a stave shard (R295 to R298, R309). What lies behind its records is copied as it is. -/
def State.copyShard (f slot : Nat) (decrypt : Bool) (src dst n : Nat) (s : State) : CopyEnd × State :=
  match staveMembers (fun o k => s.peek (src + o) k) n 1 with
  | .error (.code c) => (some (c, 0), s)
  | .error (.resp _ r) => (some (respCode r, 0), s)
  | .ok ms =>
    -- LENGTH bounds the shard: a record that runs past it is damaged
    if ms.any (fun m => decide (n < m.stop)) then (some (stDamaged, 0), s)
    else match s.sysRead (.control f) src 64 with
    | (.okay, hd, s) =>
      let (key, s) := if staveEnc hd then s.ownedSlot f slot else (none, s)
      let key := if 1023 < slot then none else key.bind (fun k => if k.keyType ≤ 1 then some k.key else none)
      if s.sec.cryptoError then (some (stCrypto, 0), s)
      else if staveEnc hd && key.isNone then (some (stAccessDenied, 0), s)
      else match s.copyOut f dst (if decrypt then clearHeader hd else hd) with
        | (some e, s) => (some e, s)
        | (none, s) => match s.copyRecords f decrypt hd key src dst 0 ms with
          | (some e, s) => (some e, s)
          | (none, s) =>
            let last := ms.foldl (fun a m => max a m.stop) 64
            s.copyPlain f (copyFuel (n - last)) (src + last) (dst + last) (n - last)
    | (r, _, s) => (some (respCode r, 0), s)

/-- The modes of COPY. -/
def State.copyMode (f mode src dst n slot tweak : Nat) (s : State) : CopyEnd × State :=
  if mode = 0 then s.copyPlain f (copyFuel n) src dst n
  else if s.sec.cryptoError then (some (stCrypto, 0), s)
  else if mode ≤ 2 then s.copyShard f slot (mode == 2) src dst n
  else match (if 1023 < slot then (none, s) else s.ownedSlot f slot) with
    | (some k, s) =>
      if k.keyType = 2 then s.copyXts f (mode == 3) k.key (n / 4096) tweak src dst else (some (stAccessDenied, 0), s)
    | (none, s) => (some (if s.sec.cryptoError then stCrypto else stAccessDenied, 0), s)

/-- COPY. Modes 1 to 4 wait for a self-test (R508). -/
def State.copyEntry (f q : Nat) (j : Job) (bs : Bytes) (s : State) : State :=
  let src := leAt bs 0x08 8
  let dst := leAt bs 0x10 8
  let n := leAt bs 0x18 8
  let mode := leAt bs 0x20 1
  if src % 64 ≠ 0 ∨ dst % 64 ≠ 0 ∨ n % 64 ≠ 0 ∨ 2 ^ 40 < n ∨ ((mode = 3 ∨ mode = 4) ∧ n % 4096 ≠ 0) then s.entryDone f q j bs stMalformed 16
  else if 0 < n ∧ src < dst + n ∧ dst < src + n then s.entryDone f q j bs stMalformed 17
  else if 4 < mode then s.entryDone f q j bs stMalformed 18
  else if mode ≠ 0 ∧ s.sec.selftestBusy then s
  else match s.copyMode f mode src dst n (leAt bs 0x22 2) (leAt bs 0x28 8) with
    | (none, s) => s.entryDone f q j bs stOk 0
    | (some (c, d), s) => s.entryDone f q j bs c d

def execCopy (fn : BitVec 6) (q : BitVec 9) (slot : BitVec 16) (v : MemView) (s : State) : Out :=
  s.runEntry 0x01 fn.toNat q.toNat slot.toNat v (State.copyEntry fn.toNat q.toNat)

end Sys2Proof.Machine
end

