-- ==== Sys2Proof/Machine/Movers.lean ====
section
/-! DEFINITION. Block transfers: GATHER and SCATTER (R413 to R423). -/

namespace Sys2Proof.Machine

/-! ## Descriptors and blocks (R413 to R416) -/

def descTranspose (d : Bytes) : Bool := bitOf (leAt d 0x0A 2) 0
def descRows (d : Bytes) : Nat := leAt d 0x58 2
def descOwners (d : Bytes) : Nat := leAt d 0x5C 4

/-- Elements of a block row (R414). -/
def descE (d : Bytes) : Nat := 128 / descElem d

/-- Blocks in a dimension (R414); 1 for unused ones. -/
def descGrid (d : Bytes) (k : Nat) : Nat :=
  if descDims d ≤ k then 1
  else if k = 0 then ceilDiv (descSize d 0) (descE d)
  else if k = 1 then ceilDiv (descSize d 1) (descRows d) else descSize d k

/-- Blocks of the grid. -/
def descBlocks (d : Bytes) : Nat := (List.range 6).foldl (fun n k => n * descGrid d k) 1

/-- The linear number of in-bounds coordinates (R414). -/
def descLinear (d : Bytes) (c : List Nat) : Nat := ((List.range 6).reverse).foldl (fun n k => n * descGrid d k + c.getD k 0) 0

/-- The coordinates of a linear block. -/
def descCoords (d : Bytes) (n : Nat) : List Nat :=
  ((List.range 6).foldl (fun (p : Nat × List Nat) k => (p.1 / max 1 (descGrid d k), p.2 ++ [p.1 % max 1 (descGrid d k)])) (n, [])).2

/-- A descriptor valid for block transfers (R415). -/
def descValid (d : Bytes) : Bool :=
  decide (1 ≤ descDims d) && decide (descDims d ≤ 6) && decide (leAt d 0x09 1 ≤ 3) && decide (1 ≤ descRows d) && decide (descRows d ≤ 128) &&
  descStride d 0 == (descElem d : Int) && decide (descBlocks d < 2 ^ 40)

/-- A destination (R415). -/
def descDest (d : Bytes) : Bool :=
  leAt d 0 8 % 64 == 0 && (List.range 6).all (fun k => k == 0 || descStride d k % 64 == 0) && descSize d 0 * descElem d % 64 == 0 &&
  !descTranspose d

/-- A source (R416). -/
def descSource (d : Bytes) : Bool := !descTranspose d || descRows d == descE d

/-- Byte i of a FILL block is byte i mod 4 of FILL (R420). -/
def fillBytes (d : Bytes) (off n : Nat) : Bytes := (List.range n).map (fun i => (natLe 4 (leAt d 0x0C 4)).getD ((off + i) % 4) 0)

/-- Bytes of a block. -/
def blockBytes (d : Bytes) : Nat := 128 * descRows d

/-- The address of row r of a block, and its bytes within SIZE; 0 beyond it (R414, R420). -/
def rowSpan (d : Bytes) (base : Nat) (c : List Nat) (r : Nat) : Nat × Nat :=
  let e0 := c.getD 0 0 * descE d
  let i1 := c.getD 1 0 * descRows d + r
  let s1 := if descDims d ≤ 1 then 1 else descSize d 1
  let off : Int := e0 * descElem d + (if descDims d ≤ 1 then 0 else i1 * descStride d 1) +
    ((List.range 4).foldl (fun (a : Int) k => if k + 2 < descDims d then a + c.getD (k + 2) 0 * descStride d (k + 2) else a) 0)
  (((base : Int) + off).emod (2 ^ 64) |>.toNat, if s1 ≤ i1 then 0 else min (descE d) (descSize d 0 - e0) * descElem d)

/-- A block transposed element by element (R416). -/
def transposeBlock (d : Bytes) (bs : Bytes) : Bytes :=
  let e := descElem d
  let n := descE d
  (List.range n).flatMap (fun r => (List.range n).flatMap (fun c => bytesAt bs ((c * n + r) * e) e))

/-! ## Owner tables (R422, R423) -/

/-- Entries of an owner table: first, last, frame, base. -/
def ownerEntries (bs : Bytes) (n : Nat) : List (Nat × Nat × Nat × Nat) :=
  (List.range n).map (fun k => (leAt bs (32 * k) 8, leAt bs (32 * k + 8) 8, leAt bs (32 * k + 16) 1, leAt bs (32 * k + 24) 8))

/-- A valid table (R422). -/
def ownersValid (meet : Nat) (l : List (Nat × Nat × Nat × Nat)) : Bool :=
  l.all (fun e => decide (e.1 ≤ e.2.1) && decide (e.2.2.1 < meet)) && (l.zip (l.drop 1)).all (fun p => decide (p.1.2.1 < p.2.1))

/-- Who owns a block, and its base. -/
inductive Owned where
  | base (frame a : Nat)
  | nobody
  deriving DecidableEq, Repr

/-- The owner of a block; without a table the descriptor's BASE (R413, R422). -/
def ownerOf (d tab : Bytes) (self n : Nat) : Owned :=
  if descOwners d = 0 then .base self (leAt d 0 8)
  else match (ownerEntries tab (descOwners d)).find? (fun e => decide (e.1 ≤ n) && decide (n ≤ e.2.1)) with
    | some e => .base e.2.2.1 e.2.2.2
    | none => .nobody

/-! ## Blocks move -/

/-- What moving a block gives: done, or the response that stops it, its address, and whether it was a write. -/
abbrev BlockEnd := Option (Resp × Nat × Bool)

/-- Reads the rows of an in-bounds block (R414, R420). -/
def State.readRows (w : Party) (d : Bytes) (base : Nat) (c : List Nat) : List Nat → State → Except (Resp × Nat) Bytes × State
  | [], s => (.ok [], s)
  | r :: t, s =>
    let (a, n) := rowSpan d base c r
    match s.readSpan w 3 a n with
    | (.error e, s) => (.error e, s)
    | (.ok bs, s) => match s.readRows w d base c t with
      | (.ok rest, s) => (.ok (bs ++ fillBytes d (128 * r + n) (128 - n) ++ rest), s)
      | (e, s) => (e, s)

/-- The bytes of a source block, transposed on load (R416); a block that nobody owns is out of bounds (R423). -/
def State.readBlock (w : Party) (d tab : Bytes) (c : List Nat) (s : State) : Except (Resp × Nat) Bytes × State :=
  match ownerOf d tab 0 (descLinear d c) with
  | .nobody => (.ok (fillBytes d 0 (blockBytes d)), s)
  | .base _ a => match s.readRows w d a c (List.range (descRows d)) with
    | (.ok bs, s) => (.ok (if descTranspose d then transposeBlock d bs else bs), s)
    | (e, s) => (e, s)

/-- Writes the rows of a block; what lies beyond SIZE is not written (R421). -/
def State.writeRows (w : Party) (d : Bytes) (base : Nat) (c : List Nat) (bs : Bytes) : List Nat → State → BlockEnd × State
  | [], s => (none, s)
  | r :: t, s =>
    let (a, n) := rowSpan d base c r
    match s.writeSpan w 3 a (bytesAt bs (128 * r) n) with
    | (none, s) => s.writeRows w d base c bs t
    | (some (r, a), s) => (some (r, a, true), s)

/-- One block dropped (R421, R423). -/
def State.oobDrop (f : Nat) (s : State) : State := s.modFunc f (fun x => { x with oobDrop := satAdd 0xFFFFFFFF x.oobDrop 1 })

/-- A destination block is written where this frame owns it, skipped where another does, dropped where nobody does (R423). -/
def State.writeBlock (w : Party) (f self : Nat) (d tab : Bytes) (c : List Nat) (bs : Bytes) (s : State) : BlockEnd × State :=
  match ownerOf d tab self (descLinear d c) with
  | .nobody => (none, s.oobDrop f)
  | .base frame a => if frame = self then s.writeRows w d a c bs (List.range (descRows d)) else (none, s)

/-- The coordinates of list entry j, if it is in bounds (R418, R420). -/
def listCoords (d list : Bytes) (j : Nat) : Option (List Nat) :=
  let n := descDims d
  let cs := (List.range n).map (fun k => signed 32 (leAt list (4 * (n * j + k)) 4))
  if (cs.zipIdx).all (fun p => decide (0 ≤ p.1) && decide (p.1 < (descGrid d p.2 : Int))) then some (cs.map (·.toNat)) else none

/-- The coordinates of a linear block, if the grid has it. -/
def linearCoords (d : Bytes) (n : Nat) : Option (List Nat) := if n < descBlocks d then some (descCoords d n) else none

/-- One entry of a transfer. `last` is the block that the coalescer holds: its coordinates and bytes (R420). -/
def State.moveBlock (w : Party) (f self : Nat) (src dst tsrc tdst : Bytes) (from_ to_ : Option (List Nat)) (last : Option (List Nat × Bytes))
    (s : State) : BlockEnd × Option (List Nat × Bytes) × State :=
  match to_ with
  | none => (none, last, s.oobDrop f)
  | some c =>
    let (got, s) := match from_, last with
      | none, _ => (Except.ok (fillBytes src 0 (blockBytes src)), s)
      | some a, some (b, bs) => if a = b then (.ok bs, s) else s.readBlock w src tsrc a
      | some a, none => s.readBlock w src tsrc a
    match got with
    | .error (r, a) => (some (r, a, false), last, s)
    | .ok bs =>
      let (e, s) := s.writeBlock w f self dst tdst c bs
      (e, from_.map (fun a => (a, bs)), s)

/-- Blocks from j on, until one stops the transfer: (blocks done, what stopped it). -/
def State.moveBlocks (w : Party) (f self : Nat) (src dst tsrc tdst : Bytes) (ends : Nat → Option (List Nat) × Option (List Nat)) :
    Nat → Nat → Option (List Nat × Bytes) → State → Nat × BlockEnd × State
  | 0, j, _, s => (j, none, s)
  | n + 1, j, last, s =>
    match s.moveBlock w f self src dst tsrc tdst (ends j).1 (ends j).2 last with
    | (none, last, s) => s.moveBlocks w f self src dst tsrc tdst ends n (j + 1) last
    | (some e, _, s) => (j, some e, s)

/-- The transfer of an entry goes on (R248, R418). -/
def State.moveOn (gather : Bool) (f q i : Nat) (j : Job) (bs : Bytes) (p : Progress) (s : State) : State :=
  let src := p.held.getD 0 []
  let dst := p.held.getD 1 []
  let list := p.held.getD 2 []
  let x := s.stream f i
  let start := leAt bs 0x28 8
  let count := leAt bs 0x0C 4
  let ends := fun k => if gather then (listCoords src list k, linearCoords dst (start + k)) else (linearCoords src (start + k), listCoords dst list k)
  let s := s.streamWorks x.gidx
  let (k, e, s) := s.moveBlocks (s.party f x x.delivered) f x.self src dst (p.held.getD 3 []) (p.held.getD 4 []) ends (count - p.done) p.done none
  match e with
  | none => s.entryDone f q j bs stOk 0
  | some (r, a, write) =>
    let s := s.modJob f q j (fun j => { j with progress := some { p with done := k } })
    (s.streamResp f i a write r).relays

/-- Reads several spans for an entry; the first that is not OKAY gives its status. -/
def State.readAll (w : Party) : List (Nat × Nat) → State → Except Nat (List Bytes) × State
  | [], s => (.ok [], s)
  | (a, n) :: t, s =>
    match s.readSpan w (spanFuel n) a n with
    | (.error (r, _), s) => (.error (respCode r), s)
    | (.ok bs, s) => match s.readAll w t with
      | (.ok rest, s) => (.ok (bs :: rest), s)
      | (e, s) => (e, s)

/-- What a descriptor's owner table is read from. -/
def ownerSpan (d : Bytes) : Nat × Nat := (leAt d 0x60 8, 32 * descOwners d)

/-- The owner tables are read before the first block (R422, R423). A read of one that is not OKAY halts the stream, as every access of the
transfer does but those of R419 (R248, R418); after a resume it is made again. -/
def State.moveTables (gather : Bool) (f q i : Nat) (j : Job) (bs : Bytes) (p : Progress) (s : State) : State :=
  let x := s.stream f i
  let src := p.held.getD 0 []
  let dst := p.held.getD 1 []
  let s := s.modJob f q j (fun j => { j with progress := some p })
  match s.readSpan (s.party f x x.delivered) (spanFuel (ownerSpan src).2) (ownerSpan src).1 (ownerSpan src).2 with
  | (.error (r, a), s) => (s.streamResp f i a false r).relays
  | (.ok ts, s) => match s.readSpan (s.party f x x.delivered) (spanFuel (ownerSpan dst).2) (ownerSpan dst).1 (ownerSpan dst).2 with
    | (.error (r, a), s) => (s.streamResp f i a false r).relays
    | (.ok td, s) =>
      if !ownersValid s.meet (ownerEntries ts (descOwners src)) || !ownersValid s.meet (ownerEntries td (descOwners dst)) then
        s.entryDone f q j bs stMalformed 19
      else
        let p : Progress := { p with held := p.held ++ [ts, td] }
        (s.modJob f q j (fun j => { j with progress := some p })).moveOn gather f q i { j with progress := some p } bs p

/-- A transfer begins (R418, R419, R422). -/
def State.moveStart (gather : Bool) (f q i : Nat) (j : Job) (bs : Bytes) (s : State) : State :=
  let w := s.party f (s.stream f i) (s.stream f i).delivered
  let count := leAt bs 0x0C 4
  let sa := leAt bs 0x10 8
  let da := leAt bs 0x18 8
  match s.readAll w [(sa, 128), (da, 128)] with
  | (.error c, s) => s.entryDone f q j bs c 0
  | (.ok ds, s) =>
    let src := ds.getD 0 []
    let dst := ds.getD 1 []
    if sa % 64 ≠ 0 ∨ da % 64 ≠ 0 ∨ !descValid src ∨ !descValid dst ∨ !descSource src ∨ !descDest dst ∨ descElem src ≠ descElem dst ∨
        descRows src ≠ descRows dst then s.entryDone f q j bs stMalformed 17
    else if count = 0 ∨ 2 ^ 24 < count ∨ leAt bs 0x20 8 % 64 ≠ 0 then s.entryDone f q j bs stMalformed 18
    else if 4096 < descOwners src ∨ 4096 < descOwners dst ∨ (0 < descOwners src ∧ (ownerSpan src).1 % 64 ≠ 0) ∨
        (0 < descOwners dst ∧ (ownerSpan dst).1 % 64 ≠ 0) then s.entryDone f q j bs stMalformed 19
    else
      let dims := descDims (if gather then src else dst)
      match s.readAll w [(leAt bs 0x20 8, 4 * dims * count)] with
      | (.error c, s) => s.entryDone f q j bs c 0
      | (.ok l, s) => s.moveTables gather f q i j bs ⟨0, [], ds ++ l, none, .fresh 0⟩

/-- GATHER and SCATTER. While its stream is halted a transfer waits (R248). -/
def State.moveEntry (gather : Bool) (f q : Nat) (j : Job) (bs : Bytes) (s : State) : State :=
  let i := leAt bs 0x08 2
  let x := s.stream f i
  if 1023 < i ∨ x.st = .free ∨ (s.packBody x.graph).isNone then s.entryDone f q j bs stMalformed 16
  else if x.st = .halted then s
  else match j.progress with
    | some p => if p.held.length = 3 then s.moveTables gather f q i j bs p else s.moveOn gather f q i j bs p
    | none => s.moveStart gather f q i j bs

def execGather (fn : BitVec 6) (q : BitVec 9) (slot : BitVec 16) (v : MemView) (s : State) : Out :=
  s.runEntry 0x06 fn.toNat q.toNat slot.toNat v (State.moveEntry true fn.toNat q.toNat)

def execScatter (fn : BitVec 6) (q : BitVec 9) (slot : BitVec 16) (v : MemView) (s : State) : Out :=
  s.runEntry 0x07 fn.toNat q.toNat slot.toNat v (State.moveEntry false fn.toNat q.toNat)

end Sys2Proof.Machine
end

