-- ==== Sys2Proof/Machine/Returns.lean ====
section
/-! DEFINITION. The return direction: RETURN_LOGITS (R441 to R457) and RETURN_WRITE (R458 to R465). -/

namespace Sys2Proof.Machine

/-! ## The sampler (R446 to R448, R452, R454) -/

/-- A candidate: token, its scaled logit. -/
abbrev Cand := Nat × Fp

/-- Candidate `a` ranks before `b` (R447): larger value, then lower identifier. -/
def candBefore (a b : Cand) : Bool := fpLt b.2 a.2 || (fpEq a.2 b.2 && decide (a.1 < b.1))

/-- Puts a candidate into a ranked list of at most `k`. -/
def candInsert (k : Nat) (c : Cand) (l : List Cand) : List Cand :=
  (l.takeWhile (fun x => candBefore x c) ++ c :: l.dropWhile (fun x => candBefore x c)).take k

/-- The first `k` by rank. -/
def candTop (k : Nat) (l : List Cand) : List Cand := l.foldl (fun r c => candInsert k c r) []

/-- The best by rank. -/
def candBest (l : List Cand) : Option Cand := (candTop 1 l).head?

/-- +infinity becomes the largest finite value (R446). -/
def capInf (x : Fp) : Fp := if x = 0x7F800000 then 0x7F7FFFFF else x

/-- Candidates of a row (R446): index, logit, scaled logit. -/
def rowCands (tokens : Nat) (inv : Fp) (xs : List Fp) : List Cand :=
  ((xs.zipIdx).filter (fun p => decide (p.2 < tokens) && !fpIsNan p.1 && p.1 != 0xFF800000)).filterMap (fun p =>
    let z := capInf (if inv &&& 0x7FFFFFFF = 0 then capInf p.1 else fpMul (capInf p.1) inv)
    if fpIsNan z || z == 0xFF800000 then none else some (p.2, z))

/-- The prefix that top-p keeps (R447). -/
def topP (bound : Fp) : Fp → List (Cand × Fp) → List (Cand × Fp)
  | _, [] => []
  | c, p :: t => let c := fpAdd c p.2; if fpLe bound c then [p] else p :: topP bound c t

/-- The draw past the allowed candidates (R447). -/
def pickDraw (t : Fp) : Fp → List (Cand × Fp) → Option Nat
  | _, [] => none
  | _, [p] => some p.1.1
  | c, p :: r => let c := fpAdd c p.2; if fpLt t c then some p.1.1 else pickDraw t c r

/-- One row through the sampler: the token and whether it is a fallback; none when no allowed candidate exists. -/
def sampleRow (k : DrawKey) (step topK : Nat) (topPv : Fp) (greedy : Bool) (allowed : Nat → Bool) (cs : List Cand) : Option (Nat × Bool) :=
  if greedy then (candBest (cs.filter (fun c => allowed c.1))).map (fun c => (c.1, false))
  else
    let c1 := candTop topK cs
    let m := (c1.head?.map (·.2)).getD 0
    let e := c1.map (fun c => (c, fpExp (fpSub c.2 m)))
    let c2 := topP (fpMul topPv (fpSum (e.map (·.2)))) 0 e
    let c3 := c2.filter (fun p => allowed p.1.1)
    if c3.isEmpty then (candBest (cs.filter (fun c => allowed c.1))).map (fun c => (c.1, true))
    else
      let s2 := fpSum (c3.map (·.2))
      let u0 := k.uniform 8 65536 (4 * step)
      let u1 := k.uniform 8 65536 (4 * step + 1)
      let xr := fpMul (fpOfNat (u0 * 256 + u1 / 256)) 0x33800000
      (pickDraw (fpMul xr s2) 0 c3).map (fun t => (t, false))

/-! ## Request state records (R444) -/

/-- The part of a record that the frame changes. -/
structure ReqState where
  step : Nat
  gstate : Nat
  status : Nat
  flags : Nat
  textLen : Nat
  pend : Bytes
  deriving DecidableEq, Repr

def reqOf (r : Bytes) : ReqState :=
  ⟨leAt r 0x08 4, leAt r 0x0C 4, leAt r 0x1A 1, leAt r 0x1B 1, leAt r 0x2C 4, bytesAt r 0x39 (min 3 (leAt r 0x38 1))⟩

/-- The record with its changed part. -/
def reqBytes (r : Bytes) (q : ReqState) : Bytes :=
  let r := overlay r 0x08 (natLe 4 q.step ++ natLe 4 q.gstate)
  let r := overlay r 0x1A (natLe 1 q.status ++ natLe 1 q.flags)
  overlay (overlay r 0x2C (natLe 4 q.textLen)) 0x38 (natLe 1 q.pend.length ++ (q.pend ++ zeros 3).take 3)

/-- A field of a record is out of range (R443, R444). -/
def reqBad (g : Option GramRef) (r : Bytes) : Bool :=
  let inv : Fp := BitVec.ofNat 32 (leAt r 0x10 4)
  let p : Fp := BitVec.ofNat 32 (leAt r 0x14 4)
  !(fpLe 0 inv && fpLe inv 0x47800000) || !(fpLt 0 p && fpLe p 0x3F800000) || leAt r 0x18 2 == 0 || decide (1024 < leAt r 0x18 2) ||
  leAt r 0x1C 4 == 0 || decide (2 ^ 24 < leAt r 0x1C 4) || decide (3 < leAt r 0x38 1) ||
  (match g with
    | some g => decide (g.states ≤ leAt r 0x0C 4)
    | none => false)

/-- Ends a request with a status (R444). -/
def ReqState.finish (q : ReqState) (status flags : Nat) : ReqState := { q with status := status, flags := Nat.lor q.flags (1 + flags) }

/-! ## Detokenising (R455 to R457) -/

/-- What detokenising gives: text to write, and the status that ends the request, with flags. -/
structure Detok where
  text : Bytes
  stop : Option (Nat × Nat)
  deriving DecidableEq, Repr

/-- One decoded item under the vocabulary's policy. -/
def utf8Out (policy : Nat) : Utf8 → Except Unit Bytes
  | .cp n => .ok (utf8Encode n)
  | .bad _ bs => if policy = 0 then .ok [0xEF, 0xBF, 0xBD] else if policy = 1 then .ok bs else .error ()

/-- Items are written until one does not fit or is rejected. -/
def detokItems (policy room : Nat) : List Utf8 → Bytes → Detok
  | [], acc => ⟨acc, none⟩
  | u :: t, acc => match utf8Out policy u with
    | .error _ => ⟨acc, some (stUtf8, 0)⟩
    | .ok bs => if room < acc.length + bs.length then ⟨acc, some (stOverBound, 4)⟩ else detokItems policy room t (acc ++ bs)

/-- Bytes appended to the pending ones: what is written, and what stays pending (R456). -/
def detokBytes (v : Bytes) (room : Nat) (bs : Bytes) : Detok × Bytes :=
  let d := utf8Decode (bs.length + 1) 0 bs
  (detokItems (vocPolicy v) room d.1 [], d.2)

/-- Pending bytes of a request that ends form a sequence cut short (R456). An earlier end status stays; TRUNCATED is set where they pass
TEXT_CAP (R457). -/
def ReqState.flush (v : Bytes) (cap : Nat) (q : ReqState) : Bytes × ReqState :=
  if q.pend.isEmpty then ([], q)
  else
    let d := detokItems (vocPolicy v) (cap - q.textLen) [.bad 0 q.pend] []
    let q := { q with pend := [], textLen := q.textLen + d.text.length }
    (d.text, match d.stop with
      | some (c, fl) => if q.status = stOk then q.finish c fl else { q with flags := Nat.lor q.flags fl }
      | none => q)

/-! ## One row (R445 to R451) -/

/-- What a row does: its result token, its new record, writes of its token log and its text, and the log entry of an end. -/
structure RowOut where
  token : Nat
  req : ReqState
  writes : List (Nat × Bytes)
  err : Option (Nat × Nat)
  deriving DecidableEq, Repr

/-- An ended request: its pending bytes are flushed. -/
def rowEnd (v r : Bytes) (text : Nat) (token : Nat) (q : ReqState) (writes : List (Nat × Bytes)) (detail : Nat) : RowOut :=
  let (bs, q') := q.flush v (leAt r 0x28 4)
  ⟨token, q', writes ++ (if bs.isEmpty then [] else [(text + q.textLen, bs)]), if q'.status = stOk then none else some (q'.status, detail)⟩

/-- The bytes that a token's text has (R455): none for a special token. -/
def tokenText (v : Bytes) (k : Nat) : Bytes :=
  if vocSpecial v k then [] else if vocIsByte v k then [BitVec.ofNat 8 (k - (vocByteBase v).getD 0)] else vocString v k

/-- A sampled token is handled (R449); `next` is the grammar's state after it. -/
def rowToken (next : Option Nat) (v r : Bytes) (q : ReqState) (k : Nat) (fallback : Bool) : RowOut :=
  let text := leAt r 0x20 8
  let tok := leAt r 0x30 8
  let step := q.step
  let w1 := if tok = 0 then [] else [(tok + 4 * step, natLe 4 k)]
  let (d, pend) := detokBytes v (leAt r 0x28 4 - q.textLen) (q.pend ++ tokenText v k)
  let w2 := if d.text.isEmpty then [] else [(text + q.textLen, d.text)]
  let q := { q with
    gstate := next.getD q.gstate, flags := if fallback then Nat.lor q.flags 2 else q.flags, step := step + 1,
    textLen := q.textLen + d.text.length, pend := if d.stop.isSome then [] else pend }
  match d.stop with
  | some (c, fl) => rowEnd v r text k (q.finish c fl) (w1 ++ w2) step
  | none =>
    let past := decide (leAt r 0x1C 4 ≤ step + 1)
    if past || k == vocEos v || k == leAt r 0x3C 4 then rowEnd v r text k (q.finish stOk (if past then 4 else 0)) (w1 ++ w2) step
    else ⟨k, q, w1 ++ w2, none⟩

/-- What the sampler finds in a row (R445 to R454): the request's end, or a token and whether it is a fallback. -/
def rowPick (seed : BitVec 128) (epoch : Nat) (g : Option GramRow) (v r : Bytes) (xs : List Fp) : Except RowOut (Nat × Bool) :=
  let q := reqOf r
  let inv : Fp := BitVec.ofNat 32 (leAt r 0x10 4)
  let cs := rowCands (vocTokens v) inv xs
  let dead := g.any (fun g => g.empty && !g.accept)
  let allowed := fun (k : Nat) => g.all (fun g => g.allows v k)
  let ends := fun (code : Nat) => rowEnd v r (leAt r 0x20 8) 0xFFFFFFFF (q.finish code 0) [] q.step
  if cs.isEmpty then .error (ends stDamaged)
  else if dead then .error (ends stGrammarDead)
  else match sampleRow ⟨seed, epoch, leAt r 0 8⟩ q.step (leAt r 0x18 2) (BitVec.ofNat 32 (leAt r 0x14 4)) (inv &&& 0x7FFFFFFF == 0) allowed cs with
    | some p => .ok p
    | none => .error (ends stDamaged)

/-- A result entry (R450). -/
def resultBytes (token status flags : Nat) : Bytes := natLe 4 token ++ natLe 1 status ++ natLe 1 flags ++ zeros 2

/-- The logits of a row, widened (R442, R446). -/
def rowLogits (fmt : Nat) (bs : Bytes) : List Fp :=
  if fmt = 0 then (chunks 4 bs.length bs).map (fun c => BitVec.ofNat 32 (leNat c))
  else (chunks 2 bs.length bs).map (fun c => if fmt = 1 then fpOfBf16 (leNat c) else fpOfHalf (leNat c))

/-! ## RETURN_LOGITS -/

/-- The text engine of a return graph: bay and profile (R388, R441). -/
def State.returnText (s : State) (g : Nat) : Option (Nat × Bytes) := match s.profileOf g 0x0402 with
  | some p => some p
  | none => s.profileOf g 0x0401

/-- Writes in order; what stops them. -/
def State.writeList (w : Party) : List (Nat × Bytes) → State → Option (Resp × Nat) × State
  | [], s => (none, s)
  | (a, bs) :: t, s =>
    match s.writeSpan w (spanFuel bs.length) a bs with
    | (none, s) => s.writeList w t
    | e => e

/-- What the rows of an entry work with. -/
structure RowEnv where
  site : Site
  by_ : Party
  vocab : Bytes
  grammar : Option GramRef
  banks : Nat
  entry : Bytes
  reqs : Bytes
  deriving DecidableEq, Repr

/-- What stops a row: a response (address, write), or its stream has halted or waits for a grammar's lines. -/
inductive RowStop where
  | resp (r : Resp) (addr : Nat) (write : Bool)
  | halted
  deriving DecidableEq, Repr

/-- The grammar's mask for a request's state, none without a grammar. -/
def State.rowMask (w : RowEnv) (st : Nat) (s : State) : Except RowStop (Option GramRow) × State := match w.grammar with
  | none => (.ok none, s)
  | some g => match s.gramRow w.site g w.banks st with
    | (some r, s) => (.ok (some r), s)
    | (none, s) => (.error .halted, s)

/-- The grammar's state after a token. -/
def State.rowNext (w : RowEnv) (st k : Nat) (s : State) : Except RowStop (Option Nat) × State := match w.grammar with
  | none => (.ok none, s)
  | some g => match s.gramNext w.site g w.banks st k with
    | (some n, s) => (.ok (some n), s)
    | (none, s) => (.error .halted, s)

/-- What a row does, once its logits are there. -/
def State.rowRun (w : RowEnv) (rec_ : Bytes) (xs : List Fp) (s : State) : Except RowStop RowOut × State :=
  let x := s.stream w.site.fn w.site.stream
  let q := reqOf rec_
  match s.rowMask w q.gstate with
  | (.error e, s) => (.error e, s)
  | (.ok m, s) => match rowPick x.seed x.epoch m w.vocab rec_ xs with
    | .error o => (.ok o, s)
    | .ok (k, fb) => match s.rowNext w q.gstate k with
      | (.error e, s) => (.error e, s)
      | (.ok n, s) => (.ok (rowToken n w.vocab rec_ q k fb), s)

/-- Writes of a row. -/
def State.rowPut (w : RowEnv) (l : List (Nat × Bytes)) (s : State) : Option RowStop × State := match s.writeList w.by_ l with
  | (none, s) => (none, s)
  | (some (r, a), s) => (some (.resp r a true), s)

/-- Row j of an entry: what stops it, and whether its record is refused by R443. -/
def State.returnRow (w : RowEnv) (j : Nat) (s : State) : Option RowStop × Bool × State :=
  let bs := w.entry
  let fmt := leAt bs 0x0A 1
  let ra := leAt bs 0x20 8 + 64 * leAt w.reqs (4 * j) 4
  let result := leAt bs 0x30 8 + 8 * j
  match s.readSpan w.by_ 3 ra 64 with
  | (.error (r, a), s) => (some (.resp r a false), false, s)
  | (.ok rec_, s) =>
    let q := reqOf rec_
    if bitOf q.flags 0 then
      let (e, s) := s.rowPut w [(result, resultBytes 0xFFFFFFFF q.status q.flags)]
      (e, false, s)
    else if reqBad w.grammar rec_ then
      let (e, s) := s.rowPut w [(result, resultBytes 0xFFFFFFFF stMalformed q.flags)]
      (e, true, s)
    else
      let n := leAt bs 0x1C 4 * (if fmt = 0 then 4 else 2)
      match s.readSpan w.by_ (spanFuel n) (leAt bs 0x10 8 + j * leAt bs 0x18 4) n with
      | (.error (r, a), s) => (some (.resp r a false), false, s)
      | (.ok lg, s) => match s.rowRun w rec_ (rowLogits fmt lg) with
        | (.error e, s) => (some e, false, s)
        | (.ok o, s) =>
          match s.rowPut w (o.writes ++ [(result, resultBytes o.token o.req.status o.req.flags), (ra, reqBytes rec_ o.req)]) with
          | (none, s) => (none, false, match o.err with
            | some (c, d) => s.sampleError w.site.fn w.site.stream c w.site.bay d
            | none => s)
          | (e, s) => (e, false, s)

/-- Rows from j on (R451): rows done, the first refused row, what stopped them. -/
def State.returnRows (w : RowEnv) : Nat → Nat → Option Nat → State → Nat × Option Nat × Option RowStop × State
  | 0, j, bad, s => (j, bad, none, s)
  | n + 1, j, bad, s =>
    match s.returnRow w j with
    | (none, b, s) => s.returnRows w n (j + 1) (bad.or (if b then some j else none))
    | (some e, _, s) => (j, bad, some e, s)

/-- A body field of RETURN_LOGITS is out of range (R442, R443). -/
def logitsBad (body bs : Bytes) : Bool :=
  let fmt := leAt bs 0x0A 1
  let slot := leAt bs 0x0B 1
  let rows := leAt bs 0x0C 4
  let vlen := leAt bs 0x1C 4
  decide (2 < fmt) || decide (15 < slot) || rows == 0 || decide (65536 < rows) || leAt bs 0x10 8 % 64 != 0 || leAt bs 0x18 4 % 64 != 0 ||
  vlen == 0 || decide (262144 < vlen) || decide (leAt bs 0x18 4 < vlen * (if fmt = 0 then 4 else 2)) || leAt bs 0x20 8 % 64 != 0 ||
  leAt bs 0x28 8 % 64 != 0 || leAt bs 0x30 8 % 64 != 0 || leAt body (4 * slot) 4 == 0

/-- The tables of a return entry (R379, R453): a failing one halts the stream. -/
def State.returnTables (w : Site) (body : Bytes) (slot : Nat) (s : State) : Option (Bytes × Option GramRef) × State :=
  match s.vocabAt w body (leAt body (4 * slot) 4) with
  | (none, s) => (none, s)
  | (some v, s) =>
    if leAt body 0x6C 4 = 0 then (some (v, none), s)
    else match s.gramAt w body v with
      | (none, s) => (none, s)
      | (some g, s) => (some (v, some g), s)

/-- RETURN_LOGITS. DESIGN CHOICE (log 147): the manual gives the rows of a return stream no batch; its accesses carry the deadline of batch
x.delivered, the first (R24, R231). -/
def State.returnLogits (f q : Nat) (j : Job) (bs : Bytes) (s : State) : State :=
  let i := leAt bs 0x08 2
  let x := s.stream f i
  let rows := leAt bs 0x0C 4
  match s.returnText x.graph with
  | none => s.entryDone f q j bs stMalformed 16
  | some (bay, body) =>
    if 1023 < i ∨ x.st = .free ∨ (s.graphOf x).direction ≠ 1 then s.entryDone f q j bs stMalformed 16
    else if logitsBad body bs then s.entryDone f q j bs stMalformed 17
    else if x.st = .halted ∨ s.stageWaits f x ∨ !s.bayRuns bay then s
    else
      let w := s.party f x x.delivered
      match s.readSpan w (spanFuel (4 * rows)) (leAt bs 0x28 8) (4 * rows) with
      | (.error (r, a), s) => (s.streamResp f i a false r).relays
      | (.ok reqs, s) =>
        let ids := (List.range rows).map (fun k => leAt reqs (4 * k) 4)
        if ids.eraseDups.length ≠ rows then s.entryDone f q j bs stMalformed 18
        else match s.returnTables ⟨f, i, bay, x.delivered⟩ body (leAt bs 0x0B 1) with
          | (none, s) => s
          | (some (v, g), s) =>
            let p := j.progress.getD ⟨0, [], [], none, .fresh 0⟩
            let (k, bad, e, s) := s.returnRows ⟨⟨f, i, bay, x.delivered⟩, w, v, g, leAt body 0x80 1, bs, reqs⟩ (rows - p.done) p.done p.bad
            let kept := fun (s : State) => s.modJob f q j (fun j => { j with progress := some { p with done := k, bad := bad } })
            match e, bad with
            | some (.resp r a write), _ => ((kept s).streamResp f i a write r).relays
            | some .halted, _ => kept s
            | none, some b => s.entryDone f q j bs stMalformed (19 + b * 2 ^ 32)
            | none, none => s.entryDone f q j bs stOk 0

def execReturnLogits (fn : BitVec 6) (q : BitVec 9) (slot : BitVec 16) (v : MemView) (s : State) : Out :=
  s.runEntry 0x08 fn.toNat q.toNat slot.toNat v (State.returnLogits fn.toNat q.toNat)

/-! ## RETURN_WRITE -/

/-- An item of the list (R458). -/
structure OutItem where
  src : Nat
  len : Nat
  kind : Nat
  source : Nat
  fmt : Nat
  deriving DecidableEq, Repr

def itemOf (bs : Bytes) : OutItem := ⟨leAt bs 0 8, leAt bs 8 4, leAt bs 12 1, leAt bs 13 1, leAt bs 14 1⟩

/-- A field of an item is out of range (R458, R459). -/
def OutItem.bad (t : OutItem) : Bool :=
  !kindKnown t.kind || decide (2 < t.source) || (t.source == 1 && t.kind != 5) || (t.source == 2 && (t.kind != 4 || decide (1 < t.fmt) || t.len == 0))

/-- For what a stream holds its encoder's buffers in a RETURN_WRITE whose items count from `base`; no item has this number. -/
def encHold (base : Nat) : Nat := 2 ^ 64 + base

/-- Bytes of a record with its padding. -/
def recordSize (enc : Bool) (n : Nat) : Nat := ceilDiv (16 + n + (if enc then 16 else 0)) 64 * 64

/-- The shard header (R295, R458, R462). -/
def shardHeader (enc : Bool) (count keyId shardId indexOff : Nat) (salt : Bytes) : Bytes :=
  let h := natLe 4 0x53565453 ++ natLe 2 1 ++ natLe 2 (b2n enc + 2) ++ natLe 4 count ++ natLe 4 keyId ++ natLe 8 shardId ++ natLe 8 indexOff ++
    salt ++ zeros 20
  h ++ natLe 4 (crc32c h).toNat

/-- One record (R296, R298, R460, R462). -/
def shardRecord (key : Option Bytes) (hd salt : Bytes) (k : Nat) (it : OutItem) (bs : Bytes) : Bytes :=
  let h := natLe 4 bs.length ++ natLe 4 bs.length ++ natLe 1 it.kind ++ [0, 0, 0]
  let body := match key with
    | some key => let (ct, tag) := gcmEnc key (salt ++ natLe 4 k) (hd.take 0x3C ++ h) bs; ct ++ tag
    | none => bs
  padTo 64 (h ++ natLe 4 (crc32c (h ++ body)).toNat ++ body)

/-- The shard from its first record to its index, its header, and its size. -/
def shardImage (key : Option Bytes) (salt : Bytes) (keyId shardId : Nat) (l : List (Nat × OutItem × Bytes)) : Bytes × Bytes × Nat :=
  let enc := key.isSome
  let end_ := l.foldl (fun _ p => p.1 + recordSize enc p.2.2.length) 64
  let hd := shardHeader enc l.length keyId shardId end_ salt
  let recs := (l.zipIdx).flatMap (fun p => shardRecord key hd salt p.2 p.1.2.1 p.1.2.2)
  let offs := l.flatMap (fun p => natLe 8 p.1)
  let index := padTo 64 (offs ++ natLe 4 (crc32c offs).toNat)
  (recs ++ index, hd, end_ + index.length)

/-- Bytes at an offset of a region, cut at its 4 KiB blocks (R465). -/
def cutBlocks (base : Nat) : Nat → Nat → Bytes → List (Nat × Bytes)
  | 0, _, _ => []
  | fuel + 1, off, bs =>
    if bs.isEmpty then [] else
      let k := 4096 - off % 4096
      (base + off, bs.take k) :: cutBlocks base fuel (off + k) (bs.drop k)

/-- Bytes written at an offset of a region. -/
def regionWrites (base off : Nat) (bs : Bytes) : List (Nat × Bytes) := cutBlocks base (bs.length / 4096 + 2) off bs

/-- Writes from the k-th on; what stops them, and how many are done. -/
def State.writeFrom (w : Party) : List (Nat × Bytes) → Nat → State → Nat × Option (Resp × Nat) × State
  | [], k, s => (k, none, s)
  | (a, bs) :: t, k, s =>
    match s.writeSpan w (spanFuel bs.length) a bs with
    | (none, s) => s.writeFrom w t (k + 1)
    | (some e, s) => (k, some e, s)

/-- The bay and body of the intake engine of a graph. -/
def State.intakeBay? (s : State) (g : Nat) : Option (Nat × Bytes) := match s.image.committed with
  | some c => ((c.bound g).find? (fun x => x.1.engine / 256 == 1)).map (fun x => (x.1.bay, x.2.body))
  | none => none

/-- A body field of RETURN_WRITE is out of range (R458, R459). -/
def writeBad (bs : Bytes) : Bool :=
  let n := leAt bs 0x0C 4
  n == 0 || decide (65536 < n) || leAt bs 0x10 8 % 64 != 0 || leAt bs 0x18 8 % 64 != 0 || leAt bs 0x20 8 % 64 != 0 || leAt bs 0x38 8 % 64 != 0

/-- A RETURN_WRITE whose checks have passed: who writes, its body, its key when it seals, its intake bay and profile, its encoder's bay and
profile, its items, its salt. -/
structure WriteJob where
  by_ : Party
  fn : Nat
  stream : Nat
  seed : BitVec 128
  epoch : Nat
  bs : Bytes
  key : Option Bytes
  bay : Nat
  intake : Bytes
  encBay : Nat
  enc : Bytes
  items : List OutItem
  salt : Bytes
  deriving DecidableEq, Repr

/-- The region, whether a record of a payload fits at an offset beside the index (R463), the pool for slices that wait to be sealed (R461). -/
def WriteJob.base (w : WriteJob) : Nat := leAt w.bs 0x18 8
def WriteJob.fits (w : WriteJob) (off n : Nat) : Bool :=
  decide (off + recordSize w.key.isSome n + ceilDiv (8 * w.items.length + 4) 64 * 64 ≤ leAt w.bs 0x20 8)
def WriteJob.pool (w : WriteJob) : Nat := leAt w.intake 0x0F 1
def WriteJob.maxStored (w : WriteJob) : Nat := inMaxStored w.intake
def WriteJob.encodes (w : WriteJob) : Bool := w.items.any (fun t => t.source == 2)

/-- A read for an item: POISON skips it (R465). -/
def State.itemRead (w : WriteJob) (a n : Nat) (s : State) : Except VidStop Bytes × State := match s.readSpan w.by_ (spanFuel n) a n with
  | (.ok bs, s) => (.ok bs, s)
  | (.error (.poison, _), s) => (.error (.reject stPoison 0), s)
  | (.error (r, a), s) => (.error (.resp r a false), s)

/-- The payload of an item that is stored as it is (R458, R460); what does not fit is not read. -/
def State.itemBytes (w : WriteJob) (off : Nat) (t : OutItem) (s : State) : Except VidStop Bytes × State :=
  let get := fun (a n : Nat) (s : State) =>
    if w.maxStored < n then (Except.error (.reject stOverBound 0), s)
    else if !w.fits off n then (.error .past, s)
    else s.itemRead w a n
  if t.source = 0 then get t.src t.len s
  else match s.itemRead w t.src 64 with
    | (.ok r, s) => if !bitOf (leAt r 0x1B 1) 0 || leAt r 0x1A 1 != stOk then (.error (.reject stOverBound 0), s) else get (leAt r 0x20 8) (leAt r 0x2C 4) s
    | p => p

/-- Where the slices of a clip of `n` pictures begin in its payload (R461). -/
def clipStart (enc : Bytes) (n : Nat) : Nat := ceilDiv (32 + 8 * ceilDiv n (encGop enc)) 16 * 16

/-- What a clip has so far takes of a payload with one more slice: it is too long, or does not fit (R460, R463), or goes on. -/
def WriteJob.clipRoom (w : WriteJob) (off : Nat) (t : OutItem) (used : Nat) : Option VidStop :=
  let n := clipStart w.enc t.len + used
  if w.maxStored < n then some (.reject stOverBound 0) else if !w.fits off n then some .past else none

/-- A slice of a clip as it leaves the encoder (R461): without ENCRYPT it is written at its final offset; with it, it waits in buffers of the
intake profile's POOL, of which it takes as many as it needs (R275). -/
def State.clipSlice (w : WriteJob) (item off : Nat) (t : OutItem) (before : Nat) (u : Bytes) (s : State) : Option VidStop × State :=
  match w.clipRoom off t (before + u.length) with
  | some e => (some e, s)
  | none =>
    if w.key.isNone then
      match s.writeSpan w.by_ (spanFuel u.length) (w.base + off + 16 + clipStart w.enc t.len + before) u with
      | (none, s) => (none, s)
      | (some (r, a), s) => (some (.resp r a true), s)
    else match s.poolNo w.fn w.pool with
      | none => (some .wait, s)
      | some p =>
        let size := 2 ^ (s.pool p).log2Size
        match s.holdBuffers w.fn w.stream w.pool item (ceilDiv (before + u.length) size) with
        | (false, s) => (some .wait, s)
        | (true, s) => s.buffersWrite w.by_ size ((s.pool p).heldFor (sKey w.fn w.stream) item) (u.length / size + 2) before u

/-- The source picture `n` of a clip. -/
def State.clipPicture (w : WriteJob) (t : OutItem) (n : Nat) (s : State) : Except VidStop (Nat × Array Nat) × State :=
  let per := encW w.enc * encH w.enc * encChans w.enc * (1 + t.fmt)
  match s.itemRead w (t.src + n * per) per with
  | (.ok bs, s) => (.ok (if t.fmt = 0 then 255 else 65535, wordVals (1 + t.fmt) bs), s)
  | (.error e, s) => (.error e, s)

/-- A clip is coded from where it is (R364, R365, R460, R461). -/
def State.itemClip (w : WriteJob) (item base off : Nat) (t : OutItem) (h : EncHold) (s : State) : Option VidStop × EncHold × State :=
  if 4096 < ceilDiv t.len (encGop w.enc) then (some (.reject stOverBound 0), h, s)
  else
    s.codePictures (s.encJob w.by_ w.fn w.stream (encHold base) w.encBay w.enc ⟨w.seed, w.epoch, item⟩) (State.clipPicture w t)
      (fun _ before u s => s.clipSlice w item off t before u) (t.len - h.next) h

/-- What is kept of a clip of this entry. -/
def ShardRun.clip (r : ShardRun) (w : WriteJob) (n : Nat) : EncHold := (tblGet? r.clips n).getD (.start w.enc)

/-- The bytes of a coded clip's slices, and the clip's header (R343, R461). -/
def EncHold.stream (h : EncHold) : Bytes := h.slices.flatMap (·.2)
def WriteJob.clipHead (w : WriteJob) (t : OutItem) (h : EncHold) : Bytes := clipHeader w.enc t.len h.slices

/-- The writes of a record that is not sealed (R461): whole; of a clip whose slices are there, its headers and its padding. -/
def WriteJob.plainWrites (w : WriteJob) (off : Nat) (t : OutItem) (payload : Bytes) : List (Nat × Bytes) :=
  let rec_ := shardRecord none [] [] 0 t payload
  if t.source = 2 then
    regionWrites w.base off (rec_.take (16 + clipStart w.enc t.len)) ++ regionWrites w.base (off + 16 + payload.length) (rec_.drop (16 + payload.length))
  else regionWrites w.base off rec_

/-- Item n of a shard that is not sealed goes into its record: what stops it, how far it is. -/
def State.plainItem (w : WriteJob) (n : Nat) (t : OutItem) (p : Progress) (s : State) : Option VidStop × Progress × State :=
  let r := p.shard
  let (stop, payload, p, s) : Option VidStop × Bytes × Progress × State :=
    if t.source = 2 then
      let (e, h, s) := s.itemClip w (r.base + n) r.base r.off t (r.clip w n)
      (e, w.clipHead t h ++ h.stream, { p with shard := { r with clips := [(n, h)] } }, s)
    else match s.itemBytes w r.off t with
      | (.ok bs, s) => (none, bs, p, s)
      | (.error e, s) => (some e, [], p, s)
  match stop with
  | some e => (some e, p, s)
  | none => match s.writeFrom w.by_ ((w.plainWrites r.off t payload).drop p.done) p.done with
    | (k, some (x, a), s) => (some (.resp x a true), { p with done := k }, s)
    | (_, none, s) => (none, { p with
        done := 0, shard := { r with item := n + 1, off := r.off + recordSize false payload.length, offs := r.offs ++ [r.off], clips := [] } }, s)

/-- The items of a shard that is not sealed, from the next one on. A skipped one is logged (R460, R465); one that does not fit ends them
(R463): neither it nor any later one is read further. -/
def State.plainItems (w : WriteJob) : List (OutItem × Nat) → Progress → State → Option VidStop × Progress × State
  | [], p, s => (none, p, s)
  | (t, n) :: rest, p, s =>
    match s.plainItem w n t p with
    | (none, p, s) => s.plainItems w rest p
    | (some (.reject c _), p, s) => (s.sampleError w.fn w.stream c w.bay 0).plainItems w rest
        { p with done := 0, shard := { p.shard with item := n + 1, skipped := p.shard.skipped + 1, clips := [] } }
    | (some .past, p, s) => (none, { p with done := 0, shard := { p.shard with past := some n, clips := [] } }, s)
    | (some e, p, s) => (some e, p, s)

/-- The end of a shard (R462 to R464): its index, its header, its result. -/
def WriteJob.ending (w : WriteJob) (r : ShardRun) : List (Nat × Bytes) :=
  let offs := r.offs.flatMap (natLe 8)
  let index := padTo 64 (offs ++ natLe 4 (crc32c offs).toNat)
  let hd := shardHeader false r.offs.length (leAt w.bs 0x2C 4) (leAt w.bs 0x30 8) r.off (zeros 8)
  regionWrites w.base r.off index ++
    [(w.base, hd), (leAt w.bs 0x38 8, natLe 4 r.offs.length ++ natLe 4 r.skipped ++ natLe 8 (r.off + index.length) ++ zeros 48)]

/-- The payload of item n of a shard that is sealed: the slices of a clip come back from their buffers. -/
def State.sealedItem (w : WriteJob) (n off : Nat) (t : OutItem) (r : ShardRun) (s : State) : Except VidStop Bytes × ShardRun × State :=
  if t.source ≠ 2 then
    let (x, s) := s.itemBytes w off t
    (x, r, s)
  else
    let (e, h, s) := s.itemClip w (r.base + n) r.base off t (r.clip w n)
    let r := { r with clips := tblSet r.clips n h }
    match e, s.poolNo w.fn w.pool with
    | some e, _ => (.error e, r, s)
    | none, none => (.error .wait, r, s)
    | none, some p =>
      let size := 2 ^ (s.pool p).log2Size
      match s.buffersRead w.by_ size ((s.pool p).heldFor (sKey w.fn w.stream) (r.base + n)) (h.stream.length / size + 2) 0 h.stream.length with
      | (.ok bs, s) => (.ok (w.clipHead t h ++ bs), r, s)
      | (.error e, s) => (.error e, r, s)

/-- The payloads of a shard that is sealed, each with its offset, up to the first that does not fit (R463). DEDUCED (log 148): all of them come
before the first record is sealed, since the AAD of every record holds the shard's record count and index offset (R298). -/
def State.sealedItems (w : WriteJob) : List (OutItem × Nat) → Nat → List (Nat × OutItem × Bytes) → ShardRun → State →
    Except VidStop (List (Nat × OutItem × Bytes)) × ShardRun × State
  | [], _, l, r, s => (.ok l, r, s)
  | (t, n) :: rest, off, l, r, s =>
    match s.sealedItem w n off t r with
    | (.ok bs, r, s) => s.sealedItems w rest (off + recordSize true bs.length) (l ++ [(off, t, bs)]) { r with item := max r.item (n + 1) }
    | (.error (.reject c _), r, s) =>
      if n < r.item then s.sealedItems w rest off l r
      else (s.sampleError w.fn w.stream c w.bay 0).sealedItems w rest off l { r with item := n + 1, skipped := r.skipped + 1 }
    | (.error .past, r, s) => (.ok l, { r with past := some n }, s)
    | (.error e, r, s) => (.error e, r, s)

/-- The writes of a sealed shard in order (R462, R464, R465): records and index by 4 KiB blocks, the header last, then the result. -/
def WriteJob.sealedWrites (w : WriteJob) (l : List (Nat × OutItem × Bytes)) (skipped : Nat) : List (Nat × Bytes) :=
  let (body, hd, size) := shardImage w.key w.salt (leAt w.bs 0x2C 4) (leAt w.bs 0x30 8) l
  regionWrites w.base 64 body ++ [(w.base, hd), (leAt w.bs 0x38 8, natLe 4 l.length ++ natLe 4 skipped ++ natLe 8 size ++ zeros 48)]

/-- A shard from its progress on: what stops it, how far it is. -/
def State.shardRun (w : WriteJob) (p : Progress) (s : State) : Option VidStop × Progress × State :=
  if w.key.isNone then
    match s.plainItems w (if p.shard.past.isSome then [] else w.items.zipIdx.drop p.shard.item) p with
    | (some e, p, s) => (some e, p, s)
    | (none, p, s) => match s.writeFrom w.by_ ((w.ending p.shard).drop p.done) p.done with
      | (k, some (r, a), s) => (some (.resp r a true), { p with done := k }, s)
      | (_, none, s) => (none, p, s)
  else match s.sealedItems w w.items.zipIdx 64 [] p.shard with
    | (.error e, r, s) => (some e, { p with shard := r }, s)
    | (.ok l, r, s) =>
      let p := { p with shard := r }
      match s.writeFrom w.by_ ((w.sealedWrites l r.skipped).drop p.done) p.done with
      | (k, some (x, a), s) => (some (.resp x a true), { p with done := k }, s)
      | (_, none, s) => (none, p, s)

/-- What a RETURN_WRITE held is released. -/
def State.releaseShard (w : WriteJob) (base : Nat) (s : State) : State :=
  let s := if w.key.isSome then s.forEach (List.range w.items.length) (fun n s => s.dropBuffers w.fn w.stream w.pool (base + n)) else s
  if w.encodes then s.dropBuffers w.fn w.stream (encPool w.enc) (encHold base) else s

/-- A RETURN_WRITE goes on from its progress (R248, R461 to R465); an encoder needs its buffers first (R275). -/
def State.writeOn (q : Nat) (j : Job) (w : WriteJob) (p : Progress) (s : State) : State :=
  let keep := fun (p : Progress) (s : State) => s.modJob w.fn q j (fun j => { j with progress := some p })
  let (ready, s) := if w.encodes then s.holdBuffers w.fn w.stream (encPool w.enc) (encHold p.shard.base) (s.encBuffers w.fn w.enc) else (true, s)
  if !ready then keep p s
  else match s.shardRun w p with
    | (some (.resp r a write), p, s) => ((keep p s).streamResp w.fn w.stream a write r).relays
    | (some _, p, s) => keep p s
    | (none, p, s) =>
      (s.releaseShard w p.shard.base).entryDone w.fn q j w.bs (if p.shard.past.isSome then stOverBound else stOk) (p.shard.past.getD 0)

/-- The key as it was when the entry began (R459). -/
def State.writeAgain (q : Nat) (j : Job) (w : WriteJob) (p : Progress) (s : State) : State :=
  let w := { w with salt := p.salt }
  if !bitOf (leAt w.bs 0x0A 1) 0 then s.writeOn q j w p
  else match s.boundKey w.fn (leAt w.bs 0x28 2) (leNat (p.held.getD 0 [])) with
    | (.error c, s) => (s.modJob w.fn q j (fun j => { j with progress := some p })).intakeHalt w.fn w.stream c
    | (.ok key, s) => s.writeOn q j { w with key := some key } p

/-- A RETURN_WRITE begins: its items take the stream's next logical sample indices, so that no two samples share a draw (R285, R287; log 125). -/
def State.writeBegin (q : Nat) (j : Job) (w : WriteJob) (gen : Nat) (salt : Bytes) (s : State) : State :=
  let base := (s.stream w.fn w.stream).items
  (s.modStream w.fn w.stream (fun y => { y with items := y.items + w.items.length })).writeAgain q j w ⟨0, salt, [natLe 8 gen], none, .fresh base⟩

/-- The key that a RETURN_WRITE names, and its salt (R459, R462, R498); a slot seals 2^32 shards (R500). -/
def State.writeKey (f slot : Nat) (s : State) : Except Nat (Nat × Bytes) × State :=
  match (if 1023 < slot then (none, s) else s.ownedSlot f slot) with
  | (some k, s) =>
    if 1 < k.keyType then (.error stAccessDenied, s)
    else if 2 ^ 32 ≤ k.shards then (.error stAccessDenied, s)
    else match s.drbgGen 8 with
      | (some salt, s) => (.ok (k.gen, salt), { s with sec := { s.sec with slots := tblSet s.sec.slots slot { k with shards := k.shards + 1 } } })
      | (none, s) => (.error stCrypto, s)
  | (none, s) => (.error (if s.sec.cryptoError then stCrypto else stAccessDenied), s)

/-- RETURN_WRITE. Under ENCRYPT it waits for a self-test (R508). DESIGN CHOICE (log 147): its accesses carry the deadline of the first batch, as
those of RETURN_LOGITS do (R24, R231). -/
def State.returnWrite (f q : Nat) (j : Job) (bs : Bytes) (s : State) : State :=
  let i := leAt bs 0x08 2
  let x := s.stream f i
  let enc := bitOf (leAt bs 0x0A 1) 0
  match s.packBody x.graph, s.intakeBay? x.graph with
  | some _, some (bay, body) =>
    let (encBay, encBody) := (s.profileOf x.graph 0x0302).getD (0, [])
    let n := leAt bs 0x0C 4
    if 1023 < i ∨ x.st = .free ∨ (s.graphOf x).direction ≠ 1 then s.entryDone f q j bs stMalformed 16
    else if writeBad bs then s.entryDone f q j bs stMalformed 17
    else if x.st = .halted ∨ (enc ∧ s.sec.selftestBusy) ∨ s.stageWaits f x ∨ !s.bayRuns bay then s
    else
      match s.readSpan (s.party f x x.delivered) (spanFuel (16 * n)) (leAt bs 0x10 8) (16 * n) with
      | (.error (r, a), s) => (s.streamResp f i a false r).relays
      | (.ok l, s) =>
        let items := (List.range n).map (fun k => itemOf (bytesAt l (16 * k) 16))
        let w : WriteJob := ⟨s.party f x x.delivered, f, i, x.seed, x.epoch, bs, none, bay, body, encBay, encBody, items, []⟩
        if w.encodes && s.bindsEngine x.graph 0x0302 && !s.bayRuns encBay then s
        else match j.progress with
        | some p => s.writeAgain q j w p
        | none =>
          if w.encodes && !s.bindsEngine x.graph 0x0302 then s.entryDone f q j bs stMalformed 16
          else if items.any OutItem.bad then s.entryDone f q j bs stMalformed 17
          else if !enc && inRequireEnc body then s.entryDone f q j bs stMalformed 18
          else if !enc then s.writeBegin q j w 0 (zeros 8)
          else if s.sec.cryptoError then s.intakeHalt f i stCrypto
          else match s.writeKey f (leAt bs 0x28 2) with
            | (.ok (gen, salt), s) => s.writeBegin q j w gen salt
            | (.error c, s) => if c = stCrypto then s.intakeHalt f i stCrypto else s.entryDone f q j bs c 0
  | _, _ => s.entryDone f q j bs stMalformed 16

def execReturnWrite (fn : BitVec 6) (q : BitVec 9) (slot : BitVec 16) (v : MemView) (s : State) : Out :=
  s.runEntry 0x09 fn.toNat q.toNat slot.toNat v (State.returnWrite fn.toNat q.toNat)

end Sys2Proof.Machine
end

