-- ==== Sys2Proof/Machine/Context.lean ====
section
/-! DEFINITION. Saved streams: CONTEXT_SAVE (R476 to R480) and CONTEXT_RESTORE (R481 to R484). -/

namespace Sys2Proof.Machine

/-! ## What a context holds (R478 to R480) -/

/-- The engine type codes that a graph binds, ascending (R479). -/
def State.engineTypes (s : State) (g : Nat) : List Nat := match s.image.committed with
  | some c => let l := (c.bound g).map (·.1.engine); (List.range 65536).filter (fun e => l.contains e)
  | none => []

/-- A stream needs a spill (R478). -/
def State.needsSpill (s : State) (x : Stream) : Bool := s.packsSeq x.graph || x.doc.isSome

/-- Places of a stream that are not in a delivered batch. -/
def Stream.heldPlaces (x : Stream) : List Placed :=
  (x.posted ++ x.finished).flatMap (·.places) ++ ((x.xfer.map (·.places)).getD []) ++ x.placed

/-- Indices over all epochs that wait between dispatch and packer. The open document is not among them (R479). -/
def Stream.waitingIndices (x : Stream) : List Nat :=
  let doc := x.doc.map (·.index)
  (x.inFlight ++ x.ready).map (·.index) |>.filter (fun g => some g != doc)

/-- The epoch that a context names: the one of the lowest sample neither in a delivered batch nor in the spill. -/
def Stream.savedRun (x : Stream) (seq : Bool) : EpochRun :=
  match (if seq then [] else x.heldPlaces.map (·.batch)) with
  | k :: ks => x.batchRun (ks.foldl min k)
  | [] => x.runOf (x.waitingIndices.foldl min x.position)

/-- Logical indices of an epoch that are pending: neither delivered nor spilled (R479). -/
def Stream.pendingLogical (x : Stream) (seq : Bool) (r : EpochRun) : List Nat :=
  let mine := fun (g : Nat) => (x.runOf g).base == r.base
  (if seq then [] else (x.heldPlaces.filter (fun p => (x.batchRun p.batch).base == r.base)).flatMap (·.samples)) ++
  ((x.position :: x.waitingIndices).filter mine).map (· - r.base)

/-- DLOW of R479. -/
def Stream.dlow (x : Stream) (meet : Nat) (seq : Bool) (r : EpochRun) : Nat := match x.pendingLogical seq r with
  | [] => x.nextOwn meet r.base (r.stop.getD x.position) - r.base
  | a :: t => t.foldl min a

/-- TAKEN of R479: no bit in REPRO. -/
def Stream.takenMap (x : Stream) (meet : Nat) (seq : Bool) (r : EpochRun) : Nat :=
  let low := x.dlow meet seq r
  let pend := x.pendingLogical seq r
  if !x.openMode then 0
  else (List.range 512).foldl (fun m j =>
    let p := low + j
    let g := r.base + p
    let own := x.nextOwn meet r.base g == g
    let gone := decide (g < x.position) || x.skip.contains g
    if own && gone && !pend.contains p then m + 2 ^ j else m) 0

/-- LOW and DONE of batch NEXT_BATCH (R479): a finished batch has every block behind LOW; a restored stream that keeps DONE has what its
context said. -/
def Stream.savedXfer (x : Stream) (slotBytes : Nat) : Nat × Nat := match x.posted ++ x.finished, x.xfer with
  | _ :: _, _ => (ceilDiv slotBytes 4096, 0)
  | [], some t => (t.low, t.done.toNat)
  | [], none => match x.keepDone with
    | some (low, d) => (low, d.toNat)
    | none => (0, 0)

/-- S and the check of the epoch's source (R479): of a restored stream that has not resumed, what its context said; before the first
epoch, of the list sealed for it. -/
def Stream.savedSource (x : Stream) (r : EpochRun) : Nat × Word := match x.srcCheck with
  | some c => c
  | none =>
    let l := if x.runs.isEmpty then (x.sealed_.map (·.1)).getD x.pendingShards else x.source
    r.src.getD (l.length, sourceCrc l)

/-! ## The text state (R371, R479, R480)

DESIGN CHOICE (log 144): R479 gives the text state 256 B and R480 the running state 1,136 B, and neither gives the places within. -/

/-- TEXT: what the open document is, its pending bytes, its open segment and its open piece. -/
def OpenDoc.textBytes (d : OpenDoc) (logical : Nat) : Bytes :=
  let x := d.text
  let piece := x.piece.flatMap utf8Encode
  bytesAt (natLe 1 d.vocab ++ natLe 1 d.kind ++ natLe 1 (d.rejected.getD 0) ++ natLe 1 (b2n x.begun + 2 * b2n x.gram.isSome) ++
    natLe 1 x.pend.length ++ bytesAt x.pend 0 3 ++ natLe 4 x.taken ++ natLe 4 x.norm ++ natLe 8 logical ++
    natLe 1 x.marks ++ natLe 1 x.seg.length ++ natLe 1 x.run ++ natLe 1 x.group ++ natLe 2 (x.gram.getD 0) ++ natLe 1 piece.length ++ zeros 1 ++
    bytesAt (x.seg.flatMap (natLe 3)) 0 93 ++ piece) 0 256

/-- The running SHA-256 and the MinHash state. -/
def OpenDoc.runBytes (d : OpenDoc) : Bytes :=
  bytesAt (d.text.hash.flatMap (fun w => natLe 4 w.toNat)) 0 32 ++ bytesAt d.text.tail 0 64 ++
  bytesAt (d.text.mins.flatMap (fun m => natLe 8 m.toNat)) 0 1024 ++ zeros 16

/-- The text state back from its bytes, in an engine of that profile: `ctx` from TEXT on, the tokens, `run` the running state. -/
def restoredText (body ctx run : Bytes) (tokens : List Nat) : TextState :=
  let e : TextEnv := ⟨body, []⟩
  let norm := leAt ctx 12 4
  let gram := if bitOf (leAt ctx 3 1) 1 then some (leAt ctx 28 2) else none
  { taken := leAt ctx 8 4, begun := bitOf (leAt ctx 3 1) 0, pend := bytesAt ctx 5 (min 3 (leAt ctx 4 1)), marks := leAt ctx 24 1,
    seg := (List.range (min 31 (leAt ctx 25 1))).map (fun k => leAt ctx (32 + 3 * k) 3), group := leAt ctx 27 1,
    piece := (utf8Decode 256 0 (bytesAt ctx 125 (min 128 (leAt ctx 30 1)))).1.filterMap (fun u => match u with
      | .cp n => some n
      | .bad _ _ => none),
    run := leAt ctx 26 1, norm := norm,
    hash := if e.flag 3 then (List.range 8).map (fun k => BitVec.ofNat 32 (leAt run (4 * k) 4)) else [],
    tail := if e.flag 3 then bytesAt run 32 (norm % 64) else [],
    tokens := tokens.reverse, count := b2n (e.flag 1) + tokens.length, gram := gram, checked := if gram.isSome then tokens.length else 0,
    mins := if e.flag 4 then (List.range 128).map (fun k => BitVec.ofNat 64 (leAt run (96 + 8 * k) 8)) else [] }

/-- The statuses with which a document can have been rejected (R373, R514). -/
def docStatuses : List Nat := [stMalformed, stAccessDenied, stOverBound, stDamaged, stAuthFail, stUtf8, stGrammarDead, stUnsupported, stPoison, stEcc]

/-- What is saved of an open document: TEXT, its tokens, its running state. -/
def Stream.savedText (x : Stream) : Option (Bytes × List Nat × Bytes) :=
  x.doc.map (fun d => (d.textBytes (x.docLogical d), d.text.tokens.reverse, d.runBytes))

/-! ## The spill (R480) -/

/-- A row of the spill: FREE, CHARGED, SEGMENTS, OPEN, then its three arrays padded to ROW_LEN (R434, R480). -/
def spillRow (body : Bytes) (r : Row) (open_ : Bool) : Bytes :=
  let l := packRowLen body
  let w := packTokBytes body
  let pad := List.replicate (l - r.tokens.length) 0
  natLe 4 (l - r.tokens.length) ++ natLe 4 r.charged ++ natLe 4 r.segments ++ natLe 4 (b2n open_) ++
  (r.tokens ++ pad.map (fun _ => leAt body 0x34 4)).flatMap (natLe w) ++ (r.segs ++ pad).flatMap (natLe 4) ++ (r.poss ++ pad).flatMap (natLe 4)

/-- A closed row back from its place. -/
def Placed.row (y : Placed) (body : Bytes) : Row :=
  let w := packTokBytes body
  let words := fun (n : Nat) (bs : Bytes) => (chunks n bs.length bs).map leNat
  let segs := words 4 y.side
  ⟨words w y.data, segs, (y.units.flatMap (fun u => words 4 u.2)), y.index, segs.foldl max 0, []⟩

/-- The rows of the spill in order: closed ones in closing order, then open ones oldest first. -/
def Stream.spillRows (x : Stream) (body : Bytes) : List (Row × Bool) :=
  (x.heldPlaces.map (fun y => (y.row body, false))) ++ x.closedRows.map (fun r => (r, false)) ++ x.openRows.map (fun r => (r, true))

/-- The spill, padded with zeros to a multiple of 4 KiB. Tokens of the open document take 4 bytes each (log 144). -/
def State.spillBytes (s : State) (x : Stream) : Bytes :=
  let body := ((s.packBody x.graph).map (·.2)).getD []
  let rows := if s.packsSeq x.graph then x.spillRows body else []
  let text := x.savedText
  let toks := (text.map (fun t => t.2.1)).getD []
  let rest := rows.flatMap (fun r => spillRow body r.1 r.2) ++ toks.flatMap (natLe 4) ++
    (match text with
      | some t => bytesAt t.2.2 0 1136
      | none => [])
  let all := padTo 4096 (zeros 64 ++ rest)
  natLe 4 0x50535443 ++ natLe 4 rows.length ++ natLe 4 toks.length ++ zeros 48 ++ natLe 4 (crc32c (all.drop 64)).toNat ++ all.drop 64

/-! ## The context (R479) -/

/-- A context with its CRC. -/
def withCtxCrc (b : Bytes) : Bytes := let c := bytesAt b 0 508; c ++ natLe 4 (crc32c c).toNat

/-- The context of a stream whose spill takes `spill4k` units. A return stream's holds the graph's fields, SEED and EPOCH
only (R480). -/
def State.contextBytes (s : State) (x : Stream) (spill4k : Nat) : Bytes :=
  let feed := (s.graphOf x).direction == 0
  let seq := s.packsSeq x.graph
  let r := x.savedRun seq
  let src := x.savedSource r
  let low := x.dlow s.meet seq r
  let slot := ((s.packBody x.graph).map (fun b => packSlotBytes b.2)).getD 0
  let xf := x.savedXfer slot
  let text := x.savedText
  let head := natLe 4 0x53585443 ++ natLe 2 1 ++
    natLe 2 (b2n (!x.openMode) + 2 * b2n x.guaranteed + 4 * b2n x.doc.isSome + 8 * b2n (0 < spill4k)) ++
    bytesAt (tblGetD s.image.graphDigests x.graph []) 0 32 ++
    (List.range 16).flatMap (fun j => natLe 2 ((s.engineTypes x.graph).getD j 0)) ++ natLe 2 s.meet ++ natLe 1 (s.graphOf x).direction ++ zeros 1 ++
    natLe 4 x.batch ++ natLe 16 x.seed.toNat ++ natLe 4 (if feed then r.epoch else x.epoch)
  withCtxCrc (if feed then
    head ++ natLe 4 src.1 ++ natLe 4 src.2.toNat ++ natLe 4 spill4k ++ natLe 8 x.delivered ++ natLe 8 low ++ natLe 8 xf.1 ++ natLe 8 xf.2 ++
    natLe 64 (x.takenMap s.meet seq r) ++ bytesAt ((text.map (·.1)).getD []) 0 256
  else head ++ zeros 8 ++ natLe 4 spill4k)

/-! ## CONTEXT_SAVE -/

/-- A block transfer or return entry of the stream is under way (R477). -/
def State.movingEntry (s : State) (f i : Nat) : Bool :=
  s.allQueues.any (fun p => p.1 == f && p.2.2.jobs.any (fun j =>
    decide (6 ≤ j.opcode) && decide (j.opcode ≤ 9) && j.started && !j.complete &&
    (j.entries.drop j.acted).any (fun e => (entryStreams j.opcode e.2).contains i)))

/-- CONTEXT_SAVE (R476 to R478): the spill first, the context last. -/
def State.saveEntry (f q : Nat) (j : Job) (bs : Bytes) (s : State) : State :=
  let i := leAt bs 0x08 2
  let x := s.stream f i
  let ctx := leAt bs 0x10 8
  let addr := leAt bs 0x18 8
  let cap := if addr = 0 then 0 else leAt bs 0x20 8
  let need := s.needsSpill x
  let spill := if need then s.spillBytes x else []
  let units := spill.length / 4096
  if 1023 < i ∨ x.st = .free then s.entryDone f q j bs stMalformed 16
  else if ctx % 64 ≠ 0 ∨ addr % 4096 ≠ 0 ∨ leAt bs 0x20 8 % 4096 ≠ 0 then s.entryDone f q j bs stMalformed 17
  else if need ∧ cap < spill.length then s.entryDone f q j bs stMalformed (18 + units * 2 ^ 32)
  else if s.movingEntry f i then s.entryDone f q j bs stMalformed 19
  else if need ∧ x.guaranteed ∧ x.st ≠ .halted then s.entryDone f q j bs stAccessDenied 23
  else
    match s.writeSpan (.control f) (spanFuel spill.length) addr spill with
    | (some (r, _), s) => s.entryDone f q j bs (respCode r) 0
    | (none, s) => match s.sysWrite (.control f) ctx (s.contextBytes x units) with
      | (.okay, s) => s.entryDone f q j bs stOk 0
      | (r, s) => s.entryDone f q j bs (respCode r) 0

def execContextSave (fn : BitVec 6) (q : BitVec 9) (slot : BitVec 16) (v : MemView) (s : State) : Out :=
  s.runEntry 0x0B fn.toNat q.toNat slot.toNat v (State.saveEntry fn.toNat q.toNat)

/-! ## CONTEXT_RESTORE (R481 to R483) -/

/-- The checks of R482 on the entries and the context's BATCH: the DETAIL of the first that fails. -/
def State.restoreMalformed (s : State) (f : Nat) (a b ctx : Bytes) : Option Nat :=
  let i := leAt a 0x08 2
  let cls := leAt a 0x0C 1
  let depth := leAt a 0x0E 1
  if 1023 < i ∨ (s.stream f i).st ≠ .free then some 16
  else match s.graph? (leAt a 0x0A 2) with
  | none => some 17
  | some g =>
    if 1 < cls ∨ g.maxBatch < leAt ctx 0x4C 4 ∨ (cls = 1 ∧ leAt a 0x20 8 = 0) then some 18
    else if depth < 2 ∨ 64 < depth then some 19
    else if s.targetBad g.num depth b then some 24
    else none

/-- MAGIC, FMT_VERSION and CRC of a context (R482). -/
def ctxGood (c : Bytes) : Bool :=
  leAt c 0 4 == 0x53585443 && leAt c 4 2 == 1 && leAt c 0x1FC 4 == (crc32c (c.take 0x1FC)).toNat

/-- MAGIC and CRC of a spill (R482). -/
def spillGood (p : Bytes) : Bool := leAt p 0 4 == 0x50535443 && leAt p 0x3C 4 == (crc32c (p.drop 64)).toNat

/-- The engine types and meet size of a context suit this frame and image (R482). -/
def State.ctxFits (s : State) (c : Bytes) : Bool :=
  let codes := (List.range 16).map (fun j => leAt c (0x28 + 2 * j) 2)
  codes.all (fun e => e == 0 || s.caps.bays.any (fun b => (enginesOf b.kind).contains e)) && leAt c 0x48 2 == s.meet

/-- A row read back from a spill, and whether it was open. -/
def rowOfSpill (body p : Bytes) (off : Nat) : Row × Bool :=
  let l := packRowLen body
  let w := packTokBytes body
  let n := l - min l (leAt p off 4)
  let arr := fun (base width : Nat) => (List.range n).map (fun t => leAt p (base + width * t) width)
  (⟨arr (off + 16) w, arr (off + 16 + l * w) 4, arr (off + 16 + l * w + 4 * l) 4, leAt p (off + 4) 4, leAt p (off + 8) 4, []⟩, leAt p (off + 12) 4 != 0)

/-- Bytes of a row in a spill. -/
def spillRowBytes (body : Bytes) : Nat := 16 + packRowLen body * (packTokBytes body + 8)

/-- The rows of a spill: closed ones, open ones. -/
def spillRowsOf (body p : Bytes) : List Row × List Row :=
  let rs := (List.range (leAt p 4 4)).map (fun k => rowOfSpill body p (64 + k * spillRowBytes body))
  ((rs.filter (fun r => !r.2)).map (·.1), (rs.filter (fun r => r.2)).map (·.1))

/-- The document that a context and spill hold open, on the target's text bay for its index (R468, R469, R483); its sample gets the next
generation. Rows come before its tokens in the spill of a graph that packs in SEQ mode only (R480). -/
def State.restoredDoc (s : State) (x : Stream) (ctx spill : Bytes) : Option OpenDoc :=
  if !bitOf (leAt ctx 6 2) 2 then none
  else
    let body := ((s.packBody x.graph).map (·.2)).getD []
    let off := 64 + (if packSeq body then leAt spill 4 4 * spillRowBytes body else 0)
    let n := leAt spill 8 4
    let text := bytesAt ctx 0xD0 256
    let p := leAt text 16 8
    let bay := (s.textBay x p).getD 0
    some ⟨leAt text 0 1, leAt text 1 1, if docStatuses.contains (leAt text 2 1) then some (leAt text 2 1) else none, p, s.genCtr, bay,
      restoredText ((s.bayProfile x.graph bay 0x0401).getD []) text (bytesAt spill (off + 4 * n) 1136)
        ((List.range n).map (fun t => leAt spill (off + 4 * t) 4))⟩

/-- The feed stream's place in its epoch (R483). Its running indices begin anew with this epoch. The packer goes on with the lowest index
that nothing accounts for: the open document, or one from DLOW on; in OPEN it counts those accounted for. -/
def State.restorePlace (s : State) (x : Stream) (a ctx spill : Bytes) : Stream :=
  let nb := leAt ctx 0x70 8
  let low := leAt ctx 0x78 8
  let map := leAt ctx 0x90 64
  let seq := s.packsSeq x.graph
  let body := ((s.packBody x.graph).map (·.2)).getD []
  let rows := if seq then spillRowsOf body spill else ([], [])
  let doc := s.restoredDoc x ctx spill
  let docIx := match doc with
    | some d => if d.rejected.isNone then [d.index] else []
    | none => []
  let taken := (((List.range 512).filter (fun j => hasBit map j)).map (fun j => low + j)).filter (fun p => !docIx.contains p)
  let passed := docIx.flatMap (fun p => ((List.range (min 511 (low - p - 1))).map (fun j => p + 1 + j)).filter (fun g => x.nextOwn s.meet 0 g == g))
  let keep := bitOf (leAt a 0x0D 1) 0 && bitOf (leAt ctx 6 2) 0 && !s.frame.openMode
  let kind := (doc.map (·.kind)).getD 0
  let next := docIx.foldl min low
  let y := { x with
    nextBatch := nb, delivered := nb, returned := nb, nextPlace := nb * x.batch, skip := taken ++ docIx,
    known := taken ++ passed, openRows := rows.2, closedRows := rows.1, doc := doc, inFlight := docIx.map (fun p => { InFlight.fresh p s.genCtr with kind := kind }),
    srcCheck := some (leAt ctx 0x64 4, BitVec.ofNat 32 (leAt ctx 0x68 4)),
    keepDone := if keep then some (leAt ctx 0x80 8, BitVec.ofNat 64 (leAt ctx 0x88 8)) else none }
  let behind :=
    if x.openMode then x.ownCount s.meet 0 low + taken.length - (docIx.filter (fun p => decide (p < low))).length
    else y.passKnown s.meet 0 y.known.length (x.ownCount s.meet 0 next)
  { y with runs := [⟨0, x.epoch, none, behind, 0, nb, none⟩], position := y.nextFree s.meet 0 y.skip.length low }

/-- The stream that a restore makes: HALTED with HALT_CODE OK (R483). -/
def State.restoredStream (s : State) (a b ctx spill : Bytes) (g : Graph) (gidx : Nat) : Stream :=
  let x := ({ Stream.fresh with
    st := .halted, haltedFrom := .filling, restored := true, gidx := gidx, guaranteed := leAt a 0x0C 1 == 1, grouped := bitOf (leAt a 0x0D 1) 1,
    openMode := s.frame.openMode, graph := g.num, seed := BitVec.ofNat 128 (leAt ctx 0x50 16), firstEpoch := leAt ctx 0x60 4,
    epoch := leAt ctx 0x60 4, batch := leAt ctx 0x4C 4, period := leAt a 0x20 8, t0 := s.now, t0Given := true,
    depth := leAt a 0x0E 1 : Stream }).withTarget b
  if g.direction = 0 then s.restorePlace x a ctx spill else x

/-- CONTEXT_RESTORE once the context has been read. -/
def State.restoreWith (f q : Nat) (j : Job) (a ctx : Bytes) (s : State) : State :=
  let b := j.second
  let units := leAt ctx 0x6C 4
  match s.restoreMalformed f a b ctx, s.graph? (leAt a 0x0A 2) with
  | some d, _ => s.jobDone f q j stMalformed d
  | none, none => s.jobDone f q j stMalformed 17
  | none, some g =>
    if !ctxGood ctx then s.jobDone f q j stMalformed 27
    else match s.readSpan (.control f) (spanFuel (units * 4096)) (leAt a 0x18 8) (units * 4096) with
      | (.error (r, _), s) => s.jobDone f q j (respCode r) 0
      | (.ok spill, s) =>
        if 0 < units ∧ !spillGood spill then s.jobDone f q j stMalformed 27
        else if !s.ctxFits ctx then s.jobDone f q j stCtx 0
        else if bytesAt ctx 8 32 ≠ bytesAt (tblGetD s.image.graphDigests g.num []) 0 32 then s.jobDone f q j stMalformed 28
        else match s.restoreDenied g (leAt a 0x0C 1 == 1) (leAt ctx 0x4C 4) (leAt a 0x20 8), s.freeGidx with
          | some d, _ => s.jobDone f q j stAccessDenied d
          | none, none => s.jobDone f q j stAccessDenied 17
          | none, some gidx =>
            let x := s.restoredStream a b ctx spill g gidx
            let s : State := { s with genCtr := s.genCtr + 1 }
            (s.openAt f (leAt a 0x08 2) gidx x).jobDone f q j stOk 0

/-- CONTEXT_RESTORE. -/
def State.restoreEntry (f q : Nat) (j : Job) (a : Bytes) (s : State) : State :=
  match s.sysRead (.control f) (leAt a 0x10 8) 512 with
  | (.okay, ctx, s) => s.restoreWith f q j a ctx
  | (r, _, s) => s.jobDone f q j (respCode r) 0

def execContextRestore (fn : BitVec 6) (q : BitVec 9) (slot : BitVec 16) (v : MemView) (s : State) : Out :=
  s.runEntry 0x0C fn.toNat q.toNat slot.toNat v (State.restoreEntry fn.toNat q.toNat)

end Sys2Proof.Machine
end

