-- ==== Sys2Proof/Machine/Png.lean ====
section
/-! DEFINITION. PNG (R319 to R321, R324): chunks, filters, Adam7, palettes and transparency. -/

namespace Sys2Proof.Machine

/-- A decoder's result: a status code and DETAIL, or a value. -/
abbrev ImgRes (α : Type) := Except (Nat × Nat) α

/-- A decoded picture before stage 3: `chans` colour channels, then alpha if there is one, HWC. -/
structure RawImg where
  w : Nat
  h : Nat
  chans : Nat
  alpha : Bool
  vmax : Nat
  vals : Array Nat
  deriving DecidableEq, Repr

/-! ## The image profile (R341) -/

def imMaxW (b : Bytes) : Nat := leAt b 0x00 2
def imMaxH (b : Bytes) : Nat := leAt b 0x02 2
def imMaxPix (b : Bytes) : Nat := leAt b 0x04 4
def imFormat (b : Bytes) (i : Nat) : Bool := bitOf (leAt b 0x08 1) i
def imProgBytes (b : Bytes) : Nat := leAt b 0x09 1 * 262144
def imFp (b : Bytes) (off : Nat) : Fp := BitVec.ofNat 32 (leAt b off 4)
def imFill (b : Bytes) : Fp := imFp b 0x0C
def imFlag (b : Bytes) (i : Nat) : Bool := bitOf (leAt b 0x29 1) i
def imMaxCut (b : Bytes) : Nat := leAt b 0x8C 4

/-- The declared size is within the profile's bounds (R321). -/
def sizeFits (b : Bytes) (w h : Nat) : Bool := decide (w ≤ imMaxW b) && decide (h ≤ imMaxH b) && decide (w * h ≤ imMaxPix b)

/-! ## Chunks -/

/-- A PNG chunk: its offset, its type, its data. -/
structure PngChunk where
  off : Nat
  kind : Bytes
  data : Bytes
  deriving DecidableEq, Repr

/-- The chunks in order, and the fault that ends the walk, if any. -/
def pngChunks : Nat → Nat → Bytes → List PngChunk × Option (Nat × Nat)
  | 0, off, _ => ([], some (stDamaged, off))
  | fuel + 1, off, bs =>
    let n := beAt bs 0 4
    if bs.length < 12 + n then ([], some (stDamaged, off))
    else
      let body := bytesAt bs 4 (4 + n)
      let c : PngChunk := ⟨off, body.take 4, body.drop 4⟩
      if (crc32 body).toNat ≠ beAt bs (8 + n) 4 then ([], some (stDamaged, off + 8 + n))
      else if c.kind = ascii "IEND" then ([c], if bs.length = 12 + n then none else some (stDamaged, off + 12 + n))
      else
        let (l, e) := pngChunks fuel (off + 12 + n) (bs.drop (12 + n))
        (c :: l, e)

/-- A chunk type whose first letter is upper case is critical. -/
def pngCritical (k : Bytes) : Bool := !bitOf (leAt k 0 1) 5

/-- Channels of a colour type as coded. -/
def pngChans (ctype : Nat) : Nat := if ctype = 2 then 3 else if ctype = 4 then 2 else if ctype = 6 then 4 else 1

/-! ## Scanlines -/

/-- The Paeth predictor. -/
def paeth (a b c : Int) : Int :=
  let p := a + b - c
  let pa := (p - a).natAbs
  let pb := (p - b).natAbs
  let pc := (p - c).natAbs
  if pa ≤ pb ∧ pa ≤ pc then a else if pb ≤ pc then b else c

/-- One scanline unfiltered: `bpp` bytes per pixel, the line above. -/
def pngLine (filter bpp : Nat) (above line : Array Byte) : Array Byte :=
  line.toList.zipIdx.foldl (fun (out : Array Byte) p =>
    let i := p.2
    let a := if i < bpp then 0 else (out.getD (i - bpp) 0).toNat
    let b := (above.getD i 0).toNat
    let c := if i < bpp then 0 else (above.getD (i - bpp) 0).toNat
    let add := if filter = 1 then a else if filter = 2 then b else if filter = 3 then (a + b) / 2
      else if filter = 4 then (paeth a b c).toNat else 0
    out.push (p.1 + BitVec.ofNat 8 add)) #[]

/-- `h` scanlines of `row` bytes from byte `at_`: their bytes in order; the position of a filter type above 4, or of a byte
of value `top` or more, a palette index beyond PLTE. -/
def pngLines (src : Array Byte) (top row bpp : Nat) : Nat → Nat → Array Byte → Array Byte → Except Nat (Array Byte)
  | 0, _, _, acc => .ok acc
  | h + 1, at_, above, acc =>
    let f := (src.getD at_ 0).toNat
    if 4 < f then .error at_
    else
      let l := pngLine f bpp above (src.extract (at_ + 1) (at_ + 1 + row))
      match l.findIdx? (fun b => decide (top ≤ b.toNat)) with
      | some i => .error (at_ + 1 + i)
      | none => pngLines src top row bpp h (at_ + 1 + row) l (acc ++ l)

/-- The passes of Adam7: x0, y0, dx, dy. -/
def adam7 : List (Nat × Nat × Nat × Nat) :=
  [(0, 0, 8, 8), (4, 0, 8, 8), (0, 4, 4, 8), (2, 0, 4, 4), (0, 2, 2, 4), (1, 0, 2, 2), (0, 1, 1, 2)]

/-- Width and height of a pass. -/
def passSize (w h : Nat) (p : Nat × Nat × Nat × Nat) : Nat × Nat := (ceilDiv (w - p.1) p.2.2.1, ceilDiv (h - p.2.1) p.2.2.2)

/-- Bytes of the filtered scanlines. -/
def pngFiltered (w h bpp : Nat) (passes : List (Nat × Nat × Nat × Nat)) : Nat :=
  passes.foldl (fun n p => let (pw, ph) := passSize w h p; if pw = 0 then n else n + ph * (1 + pw * bpp)) 0

/-- The pixels of all passes laid into the picture's bytes. -/
def pngPasses (src : Array Byte) (top w h bpp : Nat) : List (Nat × Nat × Nat × Nat) → Nat → Array Byte → Except Nat (Array Byte)
  | [], _, pic => .ok pic
  | p :: t, at_, pic =>
    let (pw, ph) := passSize w h p
    if pw = 0 ∨ ph = 0 then pngPasses src top w h bpp t at_ pic
    else do
      let px ← pngLines src top (pw * bpp) bpp ph at_ #[] #[]
      let pic := (List.range (pw * ph)).foldl (fun (a : Array Byte) i =>
        let x := p.1 + i % pw * p.2.2.1
        let y := p.2.1 + i / pw * p.2.2.2
        (List.range bpp).foldl (fun a k => a.setIfInBounds ((y * w + x) * bpp + k) (px.getD (i * bpp + k) 0)) a) pic
      pngPasses src top w h bpp t (at_ + ph * (1 + pw * bpp)) pic

/-! ## The picture -/

/-- The value of channel `c` of coded pixel `i`. -/
def pngVal (px : Array Byte) (wide : Bool) (n i c : Nat) : Nat :=
  if wide then (px.getD ((i * n + c) * 2) 0).toNat * 256 + (px.getD ((i * n + c) * 2 + 1) 0).toNat else (px.getD (i * n + c) 0).toNat

/-- The picture of the coded pixels: palettes and tRNS applied (R319). -/
def pngPicture (w h ctype : Nat) (wide : Bool) (plte : Bytes) (trns : Option Bytes) (px : Array Byte) : RawImg :=
  let n := pngChans ctype
  let vmax := if wide then 65535 else 255
  let one := fun (i : Nat) (l : List Nat) => l.map (pngVal px wide n i)
  let key := fun (t : Bytes) (l : List Nat) => l.map (fun c => beAt t (2 * c) 2 % (vmax + 1))
  let build := fun (chans : Nat) (alpha : Bool) (f : Nat → List Nat) =>
    RawImg.mk w h chans alpha vmax (((List.range (w * h)).flatMap f).toArray)
  if ctype = 3 then
    let rgb := fun (i : Nat) => let e := (px.getD i 0).toNat; [leAt plte (3 * e) 1, leAt plte (3 * e + 1) 1, leAt plte (3 * e + 2) 1]
    match trns with
    | none => build 3 false rgb
    | some t => build 3 true (fun i => let e := (px.getD i 0).toNat; rgb i ++ [if e < t.length then leAt t e 1 else 255])
  else if ctype = 4 then build 1 true (fun i => one i [0, 1])
  else if ctype = 6 then build 3 true (fun i => one i [0, 1, 2, 3])
  else
    let cs := if ctype = 2 then [0, 1, 2] else [0]
    match trns with
    | none => build cs.length false (fun i => one i cs)
    | some t => build cs.length true (fun i => one i cs ++ [if one i cs = key t cs then 0 else vmax])

/-- Where byte `n` of the concatenated IDAT data lies in the sample; past all of it, the byte after the last chunk's data. -/
def idatOffset (n : Nat) : List PngChunk → Nat
  | [] => 0
  | [c] => c.off + 8 + min n c.data.length
  | c :: t => if n < c.data.length then c.off + 8 + n else idatOffset (n - c.data.length) t

/-- Where in the IDAT data byte `n` of the decompressed scanlines comes from: the symbol whose output passes `n` bytes. -/
def scanPlace (data : Bytes) (n : Nat) : Nat := match inflateAt data.toArray n 2 with
  | .error (.over p) => p
  | .error (.bad p) => p
  | .ok (p, _) => p

/-- A PNG sample (R319 to R321). -/
def pngDecode (body bs : Bytes) : ImgRes RawImg :=
  if bytesAt bs 0 8 ≠ [0x89, 0x50, 0x4E, 0x47, 0x0D, 0x0A, 0x1A, 0x0A] then .error (stDamaged, 0)
  else
    let (cs, fault) := pngChunks (bs.length / 12 + 1) 8 (bs.drop 8)
    match cs with
    | [] => .error (fault.getD (stDamaged, 8))
    | hd :: _ =>
      let d := hd.data
      let w := beAt d 0 4
      let h := beAt d 4 4
      let depth := beAt d 8 1
      let ctype := beAt d 9 1
      let inter := beAt d 12 1
      let known := [ascii "IHDR", ascii "PLTE", ascii "IDAT", ascii "IEND"]
      if hd.kind ≠ ascii "IHDR" ∨ d.length ≠ 13 ∨ w = 0 ∨ h = 0 then .error (stDamaged, 8)
      else if !(List.contains [0, 2, 3, 4, 6] ctype) || !(depth == 8 || (depth == 16 && ctype != 3)) || decide (1 < inter) || beAt d 10 2 != 0 ||
          !imFormat body (if inter = 1 then 3 else 2) then .error (stUnsupported, 0)
      else
        let bpp := pngChans ctype * depth / 8
        if !sizeFits body w h || (inter == 1 && decide (imProgBytes body < w * h * bpp)) then .error (stOverBound, 0)
        else if cs.any (fun c => c.kind == ascii "acTL" || (pngCritical c.kind && !known.contains c.kind)) then .error (stUnsupported, 0)
        else match fault with
          | some e => .error e
          | none =>
            let idat := cs.filter (fun c => c.kind == ascii "IDAT")
            let get := fun (k : String) => (cs.find? (fun c => c.kind == ascii k)).map (·.data)
            let passes := if inter = 1 then adam7 else [(0, 0, 1, 1)]
            let want := pngFiltered w h bpp passes
            let data := idat.flatMap (·.data)
            let palette := (get "PLTE").getD []
            let damaged := fun (n : Nat) => (Except.error (stDamaged, idatOffset n idat) : ImgRes RawImg)
            match zlib want data with
            | .damaged n => damaged n
            | .over => damaged (scanPlace data want)
            | .unsupported => damaged 1
            | .ok out =>
              if out.length < want then damaged (scanPlace data out.length)
              else match pngPasses out.toArray (if ctype = 3 then palette.length / 3 else 256) w h bpp passes 0 (Array.replicate (w * h * bpp) 0) with
                | .error n => damaged (scanPlace data n)
                | .ok px => .ok (pngPicture w h ctype (depth == 16) palette (get "tRNS") px)

end Sys2Proof.Machine
end

