-- ==== Sys2Proof/Machine/Fits.lean ====
section
/-! DEFINITION. FITS (R319, R321, R326, R327, R329): headers, HDUs, images plain and tile-compressed, the CUTCAT
catalogue. -/

namespace Sys2Proof.Machine

/-! ## Numbers in headers -/

/-- A decimal m × 10^e, rounded once. -/
def fpOfDecimal (neg : Bool) (m : Nat) (e : Int) : Fp :=
  if 0 ≤ e then fpRound neg (m * 10 ^ (min e 400).toNat) 0
  else
    let d := 10 ^ (min (-e) 2000).toNat
    let k := 100 + Nat.log2 (d + 1)
    let v := m * 2 ^ k
    fpRound neg (2 * (v / d) + b2n (v % d ≠ 0)) (-(k : Int) - 1)

def isDigit (b : Byte) : Bool := decide (0x30 ≤ b.toNat) && decide (b.toNat ≤ 0x39)

/-- Decimal digits at the front: their value and what follows. -/
def digits : Bytes → Nat → Nat × Bytes
  | [], v => (v, [])
  | b :: t, v => if isDigit b then digits t (10 * v + (b.toNat - 0x30)) else (v, b :: t)

/-- A sign at the front. -/
def signAt : Bytes → Bool × Bytes
  | 0x2D :: t => (true, t)
  | 0x2B :: t => (false, t)
  | t => (false, t)

/-- Strips spaces in front. -/
def skipSp (b : Bytes) : Bytes := b.dropWhile (· == 0x20)

/-- A number of a header value: sign, digits, power of ten; none if it is no number. -/
def parseNum (b : Bytes) : Option (Bool × Nat × Int) :=
  let (neg, b) := signAt (skipSp b)
  let (ip, r) := digits b 0
  let n0 := b.length - r.length
  let (m, e, r', n1) : Nat × Int × Bytes × Nat := match r with
    | 0x2E :: t => let (v, r') := digits t ip; (v, -((t.length - r'.length : Nat) : Int), r', t.length - r'.length)
    | _ => (ip, 0, r, 0)
  if n0 + n1 = 0 then none
  else match r' with
    | c :: t =>
      if c = 0x45 ∨ c = 0x44 ∨ c = 0x65 ∨ c = 0x64 then
        let (en, t) := signAt t
        let (x, _) := digits t 0
        some (neg, m, e + (if en then -(x : Int) else x))
      else some (neg, m, e)
    | [] => some (neg, m, e)

/-! ## Headers -/

/-- One header: its 80-byte cards up to END. -/
abbrev Cards := List Bytes

/-- The value field of the first card with a keyword. -/
def cardVal (cs : Cards) (key : String) : Option Bytes :=
  let k := ascii key
  (cs.find? (fun c => c.take 8 == k ++ List.replicate (8 - k.length) 0x20 && bytesAt c 8 2 == [0x3D, 0x20])).map (fun c => skipSp (c.drop 10))

/-- The same by the 8 bytes of a keyword. -/
def cardValRaw (cs : Cards) (key : Bytes) : Option Bytes :=
  (cs.find? (fun c => c.take 8 == key && bytesAt c 8 2 == [0x3D, 0x20])).map (fun c => skipSp (c.drop 10))

/-- An integer value. -/
def asInt (v : Option Bytes) : Option Int := v.bind (fun b => match parseNum b with
  | some (neg, m, 0) => some (if neg then -(m : Int) else m)
  | some (neg, m, e) => if 0 ≤ e then some ((if neg then -1 else 1) * (m * 10 ^ e.toNat : Nat)) else
      (if m % 10 ^ (-e).toNat = 0 then some ((if neg then -1 else 1) * (m / 10 ^ (-e).toNat : Nat)) else none)
  | none => none)

def cardInt (cs : Cards) (key : String) : Option Int := asInt (cardVal cs key)

def cardNat (cs : Cards) (key : String) (d : Nat) : Nat := ((cardInt cs key).map Int.toNat).getD d

/-- An FP32 value. -/
def cardFp (cs : Cards) (key : String) : Option Fp := (cardVal cs key).bind (fun b => (parseNum b).map (fun n => fpOfDecimal n.1 n.2.1 n.2.2))

/-- A string value without its trailing spaces. -/
def cardStr (cs : Cards) (key : String) : Option Bytes := (cardVal cs key).bind (fun b => match b with
  | 0x27 :: t => some (((t.takeWhile (· != 0x27)).reverse.dropWhile (· == 0x20)).reverse)
  | _ => none)

/-- A logical value. -/
def cardTrue (cs : Cards) (key : String) : Bool := ((cardVal cs key).map (fun b => b.take 1 == [0x54])).getD false

/-- NAXISn and the like. -/
def numKey (base : String) (n : Nat) : String := base ++ toString n

/-- The header at the start of bytes: its cards and its length in blocks (R319, R321). -/
def fitsHeader (bs : Bytes) : Nat → Nat → ImgRes (Cards × Nat)
  | 0, _ => .error (stOverBound, 0)
  | fuel + 1, blk =>
    if bs.length < 2880 * (blk + 1) then .error (stDamaged, 2880 * blk)
    else
      let cards := (List.range 36).map (fun k => bytesAt bs (2880 * blk + 80 * k) 80)
      match cards.findIdx? (fun c => c.take 8 == ascii "END     ") with
      | some n => .ok (cards.take n, blk + 1)
      | none => do
        let (rest, b) ← fitsHeader bs fuel (blk + 1)
        return (cards ++ rest, b)

/-- Bytes of an HDU's data by its size keywords, unpadded. -/
def hduData (cs : Cards) : Nat :=
  let n := cardNat cs "NAXIS" 0
  let prod := (List.range n).foldl (fun p k => p * cardNat cs (numKey "NAXIS" (k + 1)) 0) 1
  if n = 0 then 0 else ((cardInt cs "BITPIX").getD 8).natAbs / 8 * cardNat cs "GCOUNT" 1 * (cardNat cs "PCOUNT" 0 + prod)

/-- One HDU: offsets of header and data, cards, data length. -/
structure Hdu where
  off : Nat
  dataOff : Nat
  cards : Cards
  len : Nat
  deriving DecidableEq, Repr

/-- The HDUs of a sample; the first fault ends the walk. -/
def fitsWalk : Nat → Nat → Bytes → List Hdu × Option (Nat × Nat)
  | 0, _, _ => ([], none)
  | fuel + 1, off, bs =>
    if bs.isEmpty then ([], none)
    else match fitsHeader bs 64 0 with
      | .error (c, d) => ([], some (c, if c = stOverBound then 0 else off + d))
      | .ok (cs, n) =>
        let h : Hdu := ⟨off, off + 2880 * n, cs, hduData cs⟩
        let step := 2880 * n + ceilDiv h.len 2880 * 2880
        let (l, e) := fitsWalk fuel (off + step) (bs.drop step)
        (h :: l, e)

/-! ## Raw pixels -/

/-- A pixel as stored: an integer, or an FP32 pattern. -/
inductive FitsPix where
  | int (v : Int)
  | fp (v : Fp)
  deriving DecidableEq, Repr

/-- A decoded FITS frame with its scaling header. -/
structure FitsImg where
  w : Nat
  h : Nat
  cards : Cards
  blank : Option Int
  vals : Array FitsPix
  deriving DecidableEq, Repr

/-- A big-endian pixel of a BITPIX. -/
def fitsPix (bitpix : Int) (bs : Bytes) : FitsPix :=
  if bitpix = 8 then .int (beNat bs) else if bitpix = 16 then .int (signed 16 (beNat bs))
  else if bitpix = 32 then .int (signed 32 (beNat bs)) else .fp (BitVec.ofNat 32 (beNat bs))

/-- A frame's width and height by a prefix of its size keywords, if they are admitted (R319). -/
def fitsSize (cs : Cards) (p : String) : Option (Nat × Nat) :=
  let n := cardNat cs (p ++ "NAXIS") 0
  if n = 2 ∨ (n = 3 ∧ cardNat cs (p ++ "NAXIS3") 0 = 1) then some (cardNat cs (p ++ "NAXIS1") 0, cardNat cs (p ++ "NAXIS2") 0) else none

/-- A primary image. -/
def fitsPlain (body bs : Bytes) (h : Hdu) : ImgRes FitsImg :=
  let bp := (cardInt h.cards "BITPIX").getD 0
  match fitsSize h.cards "" with
  | none => .error (stUnsupported, 0)
  | some (w, ht) =>
    if !([8, 16, 32, -32].contains bp) || !imFormat body 4 then .error (stUnsupported, 0)
    else if !sizeFits body w ht then .error (stOverBound, 0)
    else
      let n := bp.natAbs / 8
      if bs.length < h.dataOff + n * w * ht then .error (stDamaged, bs.length)
      else .ok ⟨w, ht, h.cards, if bp = -32 then none else cardInt h.cards "BLANK",
        ((chunks n (w * ht) (bytesAt bs h.dataOff (n * w * ht))).map (fitsPix bp)).toArray⟩

/-! ## Rice tiles -/

/-- Bits of a tile from a position, most significant first; none past the end. -/
def riceBits (src : Array Byte) (pos n : Nat) : Option Nat :=
  if 8 * src.size < pos + n then none
  else some ((List.range n).foldl (fun v k => 2 * v + b2n ((src.getD ((pos + k) / 8) 0).getLsbD (7 - (pos + k) % 8))) 0)

/-- Zero bits before the next one bit. -/
def riceZeros (src : Array Byte) : Nat → Nat → Nat → Option (Nat × Nat)
  | 0, _, _ => none
  | fuel + 1, pos, n => match riceBits src pos 1 with
    | none => none
    | some 0 => riceZeros src fuel (pos + 1) (n + 1)
    | some _ => some (n, pos + 1)

/-- A mapped difference. -/
def riceDiff (v : Nat) : Int := if v % 2 = 0 then (v / 2 : Nat) else -((v / 2 : Nat) : Int) - 1

/-- Values of one block: `fs` is its split less one. -/
def riceValues (src : Array Byte) (fsMax bits : Nat) (fs : Int) : Nat → Nat → Int → List Int → Option (Nat × Int × List Int)
  | 0, pos, last, acc => some (pos, last, acc)
  | n + 1, pos, last, acc =>
    if fs < 0 then riceValues src fsMax bits fs n pos last (last :: acc)
    else if fs = fsMax then match riceBits src pos bits with
      | none => none
      | some v => let x := signed bits ((last + riceDiff v).emod (2 ^ bits)).toNat; riceValues src fsMax bits fs n (pos + bits) x (x :: acc)
    else match riceZeros src (8 * src.size + 1) pos 0 with
      | none => none
      | some (z, pos) => match riceBits src pos fs.toNat with
        | none => none
        | some v =>
          let x := signed bits ((last + riceDiff (z * 2 ^ fs.toNat + v)).emod (2 ^ bits)).toNat
          riceValues src fsMax bits fs n (pos + fs.toNat) x (x :: acc)

/-- Blocks until `left` values are there; newest first. -/
def riceBlocks (src : Array Byte) (bytepix block : Nat) : Nat → Nat → Nat → Int → List Int → Option (List Int)
  | 0, _, _, _, acc => some acc
  | fuel + 1, left, pos, last, acc =>
    if left = 0 then some acc
    else
      let fb := if bytepix = 1 then 3 else if bytepix = 2 then 4 else 5
      let fm := if bytepix = 1 then 6 else if bytepix = 2 then 14 else 25
      match riceBits src pos fb with
      | none => none
      | some f => match riceValues src fm (8 * bytepix) ((f : Int) - 1) (min block left) (pos + fb) last acc with
        | none => none
        | some (pos, last, acc) => riceBlocks src bytepix block fuel (left - min block left) pos last acc

/-- A RICE_1 tile of `n` values. PRESUMED (log 8): the tile format of FITS 4.0. -/
def riceTile (bs : Bytes) (bytepix block n : Nat) : Option (List Int) :=
  let first := signed (8 * bytepix) (beAt bs 0 bytepix)
  if bs.length < bytepix then none
  else (riceBlocks bs.toArray bytepix (max 1 block) n n (8 * bytepix) first []).map List.reverse

/-! ## Tile-compressed images -/

/-- Columns of a binary table: (name, format, byte offset in a row). -/
def tableCols (cs : Cards) : List (Bytes × Bytes × Nat) :=
  let width := fun (f : Bytes) =>
    let (r, t) := digits f 0
    let r := if isDigit (f.headD 0) then r else 1
    let u := match t.headD 0 with
      | 0x50 => 8
      | 0x51 => 16
      | 0x44 => 8
      | 0x4B => 8
      | 0x4D => 16
      | 0x43 => 8
      | 0x4A => 4
      | 0x45 => 4
      | 0x49 => 2
      | 0x58 => 0
      | _ => 1
    if t.headD 0 = 0x58 then ceilDiv r 8 else r * u
  ((List.range (cardNat cs "TFIELDS" 0)).foldl (fun (p : Nat × List (Bytes × Bytes × Nat)) k =>
    let f := (cardStr cs (numKey "TFORM" (k + 1))).getD []
    (p.1 + width f, p.2 ++ [((cardStr cs (numKey "TTYPE" (k + 1))).getD [], f, p.1)])) (0, [])).2

def findCol (cols : List (Bytes × Bytes × Nat)) (name : String) : Option (Bytes × Nat) :=
  (cols.find? (fun c => c.1 == ascii name)).map (fun c => (c.2.1, c.2.2))

/-- A variable-length array of a row: its elements and its offset in the heap. -/
def heapEntry (bs : Bytes) (fmt : Bytes) (at_ : Nat) : Nat × Nat :=
  if fmt.contains 0x51 then (beAt bs at_ 8, beAt bs (at_ + 8) 8) else (beAt bs at_ 4, beAt bs (at_ + 4) 4)

/-- The value that a tile-compression parameter has. -/
def zParam (cs : Cards) (name : String) (d : Nat) : Nat :=
  ((List.range 9).findSome? (fun k => if cardStr cs (numKey "ZNAME" (k + 1)) = some (ascii name) then
    (cardInt cs (numKey "ZVAL" (k + 1))).map Int.toNat else none)).getD d

/-- The values of one tile. -/
def tilePix (rice : Bool) (cs : Cards) (bp : Int) (bs : Bytes) (n : Nat) : Option (List FitsPix) :=
  if rice then
    (riceTile bs (zParam cs "BYTEPIX" 4) (zParam cs "BLOCKSIZE" 32) n).map (fun l => l.map (fun v =>
      FitsPix.int (if bp = 8 then v.emod 256 else if bp = 16 then signed 16 (v.emod 65536).toNat else v)))
  else
    let w := bp.natAbs / 8
    if bs.length < n * w then none else some ((chunks w n bs).map (fitsPix bp))

/-- The tiles of an image in order. A tile that gives too few values is a fault at its end; one beyond the sample, at the
sample's end. -/
def tileAll (rice : Bool) (bs : Bytes) (h : Hdu) (bp : Int) (w ht rows : Nat) (fmt : Bytes) (col : Nat) (unc : Option (Bytes × Nat)) :
    Nat → Nat → Array FitsPix → ImgRes (Array FitsPix)
  | 0, _, acc => .ok acc
  | k + 1, t, acc =>
    let rowLen := cardNat h.cards "NAXIS1" 0
    let base := h.dataOff + t * rowLen
    let heap := h.dataOff + cardNat h.cards "THEAP" (rowLen * cardNat h.cards "NAXIS2" 0)
    let (len, off) := heapEntry bs fmt (base + col)
    let used := match unc with
      | some (f, c) => (heapEntry bs f (base + c)).1
      | none => 0
    if 0 < used then .error (stUnsupported, 0)
    else
      let n := w * min rows (ht - t * rows)
      if bs.length < heap + off + len then .error (stDamaged, bs.length)
      else match tilePix rice h.cards bp (bytesAt bs (heap + off) len) n with
        | none => .error (stDamaged, heap + off + len)
        | some l => if l.length ≠ n then .error (stDamaged, heap + off + len) else tileAll rice bs h bp w ht rows fmt col unc k (t + 1) (acc ++ l.toArray)

/-- A tile-compressed image extension. -/
def fitsTiled (body bs : Bytes) (h : Hdu) : ImgRes FitsImg :=
  let cs := h.cards
  let bp := (cardInt cs "ZBITPIX").getD 0
  let kind := (cardStr cs "ZCMPTYPE").getD []
  let rice := kind == ascii "RICE_1"
  match fitsSize cs "Z", findCol (tableCols cs) "COMPRESSED_DATA" with
  | some (w, ht), some (fmt, col) =>
    let rows := max 1 (cardNat cs "ZTILE2" 1)
    let bytepix := zParam cs "BYTEPIX" 4
    if !(rice || kind == ascii "NOCOMPRESS") || !([8, 16, 32].contains bp) || cardNat cs "ZTILE1" w != w || (cardVal cs "ZQUANTIZ").isSome ||
        !imFormat body (if rice then 5 else 4) || (rice && !([1, 2, 4].contains bytepix)) then .error (stUnsupported, 0)
    else if !sizeFits body w ht then .error (stOverBound, 0)
    else if bs.length < h.dataOff + h.len then .error (stDamaged, bs.length)
    else do
      let px ← tileAll rice bs h bp w ht rows fmt col (findCol (tableCols cs) "UNCOMPRESSED_DATA") (ceilDiv ht rows) 0 #[]
      return ⟨w, ht, cs, (cardInt cs "ZBLANK").or (cardInt cs "BLANK"), px⟩
  | _, _ => .error (stUnsupported, 0)

/-! ## The catalogue (R329) -/

/-- The rows of CUTCAT: X, Y, ID. None without the extension. -/
def cutCat (bs : Bytes) (hs : List Hdu) (bound : Nat) : ImgRes (List (Int × Int × Nat)) :=
  match hs.find? (fun h => cardStr h.cards "EXTNAME" == some (ascii "CUTCAT") && cardStr h.cards "XTENSION" == some (ascii "BINTABLE")) with
  | none => .ok []
  | some h =>
    let cols := tableCols h.cards
    match findCol cols "X", findCol cols "Y", findCol cols "ID" with
    | some (fx, x), some (fy, y), some (fi, i) =>
      let n := cardNat h.cards "NAXIS2" 0
      let w := cardNat h.cards "NAXIS1" 0
      let one := fun (f : Bytes) (c : String) => f == ascii ("1" ++ c) || f == ascii c
      if !one fx "J" || !one fy "J" || !one fi "K" then .error (stUnsupported, 0)
      else if bound < n then .error (stOverBound, 0)
      else if bs.length < h.dataOff + n * w then .error (stDamaged, bs.length)
      else .ok ((List.range n).map (fun r =>
        let b := h.dataOff + r * w
        (signed 32 (beAt bs (b + x) 4), signed 32 (beAt bs (b + y) 4), beAt bs (b + i) 8)))
    | _, _, _ => .error (stUnsupported, 0)

/-- A FITS sample: its frame and the rows of its catalogue. -/
def fitsDecode (body bs : Bytes) : ImgRes (FitsImg × List (Int × Int × Nat)) :=
  let (hs, fault) := fitsWalk (bs.length / 2880 + 1) 0 bs
  match hs with
  | [] => .error (fault.getD (stDamaged, 0))
  | p :: t =>
    let tiled := t.find? (fun h => cardTrue h.cards "ZIMAGE")
    let walked := decide (0 < imMaxCut body) || cardNat p.cards "NAXIS" 0 == 0
    match (if walked then fault else none) with
    | some (c, d) => .error (c, d)
    | none => do
      let cat ← if 0 < imMaxCut body then cutCat bs t (imMaxCut body) else .ok []
      let img ← if cardNat p.cards "NAXIS" 0 = 0 then (match tiled with
        | some h => fitsTiled body bs h
        | none => .error (stUnsupported, 0)) else fitsPlain body bs p
      return (img, cat)

end Sys2Proof.Machine
end

