-- ==== Sys2Proof/Machine/Jpeg.lean ====
section
/-! DEFINITION. JPEG (R319 to R323): markers, Huffman scans baseline and progressive, upsampling and colour. The inverse
DCT is open (log 8). -/

namespace Sys2Proof.Machine

/-! ## Markers -/

/-- A marker segment; a scan also has its entropy-coded intervals, each byte with its offset. -/
structure JSeg where
  code : Nat
  off : Nat
  body : Bytes
  parts : List (List (Byte × Nat))
  /-- Its restart markers: number and offset. -/
  rsts : List (Nat × Nat)
  /-- Offset of the byte behind its data. -/
  fin : Nat
  deriving DecidableEq, Repr

/-- Entropy-coded bytes up to a marker: intervals, restart markers, and what follows the marker's 0xFF. Lists are newest
first. -/
def jEntropy : Bytes → Nat → Bool → List (Byte × Nat) → List (List (Byte × Nat)) → List (Nat × Nat) →
    List (List (Byte × Nat)) × List (Nat × Nat) × Option (Bytes × Nat)
  | [], _, _, cur, parts, rsts => ((cur :: parts), rsts, none)
  | b :: t, off, ff, cur, parts, rsts =>
    if ff then
      if b = 0 then jEntropy t (off + 1) false ((0xFF, off - 1) :: cur) parts rsts
      else if b = 0xFF then jEntropy t (off + 1) true cur parts rsts
      else if 0xD0 ≤ b.toNat ∧ b.toNat ≤ 0xD7 then jEntropy t (off + 1) false [] (cur :: parts) ((b.toNat - 0xD0, off - 1) :: rsts)
      else (cur :: parts, rsts, some (b :: t, off))
    else if b = 0xFF then jEntropy t (off + 1) true cur parts rsts
    else jEntropy t (off + 1) false ((b, off) :: cur) parts rsts

/-- The segments from a marker on, and the fault that ends the walk without EOI. TEM, the reserved markers, EXP and JPGn are
no accepted option (R319). -/
def jWalk : Nat → Bytes → Nat → List JSeg × Option (Nat × Nat)
  | 0, _, off => ([], some (stDamaged, off))
  | fuel + 1, bs, off =>
    let c := leAt bs 1 1
    if bs.length < 2 ∨ leAt bs 0 1 ≠ 0xFF then ([], some (stDamaged, off))
    else if c = 0xFF then jWalk fuel (bs.drop 1) (off + 1)
    else if c = 0xD9 then ([⟨c, off, [], [], [], off⟩], none)
    else if (0x01 ≤ c ∧ c ≤ 0xBF) ∨ c = 0xDF ∨ (0xF0 ≤ c ∧ c ≤ 0xFD) then ([], some (stUnsupported, 0))
    else if c = 0xD8 ∨ c = 0 ∨ (0xD0 ≤ c ∧ c ≤ 0xD7) then ([], some (stDamaged, off))
    else
      let n := beAt bs 2 2
      if n < 2 ∨ bs.length < 2 + n then ([], some (stDamaged, off))
      else
        let body := bytesAt bs 4 (n - 2)
        let rest := bs.drop (2 + n)
        if c = 0xDA then
          match jEntropy rest (off + 2 + n) false [] [] [] with
          | (ps, rs, none) => ([⟨c, off, body, (ps.map List.reverse).reverse, rs.reverse, off + bs.length⟩], some (stDamaged, off + bs.length))
          | (ps, rs, some (more, at_)) =>
            let (l, e) := jWalk fuel (0xFF :: more) (at_ - 1)
            (⟨c, off, body, (ps.map List.reverse).reverse, rs.reverse, at_ - 1⟩ :: l, e)
        else
          let (l, e) := jWalk fuel rest (off + 2 + n)
          (⟨c, off, body, [], [], off⟩ :: l, e)

/-! ## Huffman -/

/-- The bits of one restart interval. -/
structure JSrc where
  data : Array (Byte × Nat)
  fin : Nat

/-- Offset in the sample of a bit position. -/
def JSrc.at_ (j : JSrc) (pos : Nat) : Nat := (j.data[pos / 8]?.map (·.2)).getD j.fin

/-- One bit, most significant first. -/
def JSrc.bit (j : JSrc) (pos : Nat) : ImgRes Nat := match j.data[pos / 8]? with
  | some b => .ok (b2n (b.1.getLsbD (7 - pos % 8)))
  | none => .error (stDamaged, j.fin)

/-- `n` bits as a number. -/
def JSrc.bits (j : JSrc) (pos : Nat) : Nat → ImgRes Nat
  | 0 => .ok 0
  | n + 1 => do
    let hi ← j.bits pos n
    let b ← j.bit (pos + n)
    return 2 * hi + b

/-- One symbol of a canonical code and the position behind it. -/
def JSrc.symbol (j : JSrc) (h : Huff) : Nat → Nat → Nat → Nat → Nat → Nat → ImgRes (Nat × Nat)
  | 0, _, _, _, _, pos => .error (stDamaged, j.at_ pos)
  | fuel + 1, len, code, first, index, pos => do
    let b ← j.bit pos
    let code := code + b
    let c := h.counts.getD len 0
    if code < first + c then return (h.syms.getD (index + code - first) 0, pos + 1)
    else j.symbol h fuel (len + 1) (2 * code) (2 * (first + c)) (index + c) (pos + 1)

def JSrc.sym (j : JSrc) (h : Huff) (pos : Nat) : ImgRes (Nat × Nat) := j.symbol h 16 1 0 0 0 pos

/-- A signed value of `s` bits (T.81 EXTEND). -/
def jExtend (v s : Nat) : Int := if s = 0 then 0 else if v < 2 ^ (s - 1) then (v : Int) - (2 ^ s - 1) else v

/-- The tables of one DHT segment: (class × 16 + id, code). A code that does not fit its lengths is invalid. -/
def jTables : Nat → Bytes → Option (List (Nat × Huff))
  | 0, _ => none
  | fuel + 1, bs =>
    if bs.isEmpty then some []
    else
      let tc := leAt bs 0 1
      let counts := (List.range 16).map (fun k => leAt bs (1 + k) 1)
      let n := counts.foldl (· + ·) 0
      let h : Huff := ⟨0 :: counts, (List.range n).map (fun k => leAt bs (17 + k) 1)⟩
      let left := (List.range 16).foldl (fun (l : Int) k => if l < 0 then l else 2 * l - (counts.getD k 0 : Int)) 1
      if bs.length < 17 + n ∨ 1 < tc / 16 ∨ 3 < tc % 16 ∨ left < 0 ∨ 256 < n then none
      else (jTables fuel (bs.drop (17 + n))).map (fun l => (tc, h) :: l)

/-- Natural position of zigzag position k. -/
def zigzag : Array Nat :=
  #[0, 1, 8, 16, 9, 2, 3, 10, 17, 24, 32, 25, 18, 11, 4, 5, 12, 19, 26, 33, 40, 48, 41, 34, 27, 20, 13, 6, 7, 14, 21, 28, 35, 42, 49, 56, 57,
    50, 43, 36, 29, 22, 15, 23, 30, 37, 44, 51, 58, 59, 52, 45, 38, 31, 39, 46, 53, 60, 61, 54, 47, 55, 62, 63]

/-- The tables of one DQT segment: (id, 64 values in zigzag order). -/
def jQuants : Nat → Bytes → Option (List (Nat × List Nat))
  | 0, _ => none
  | fuel + 1, bs =>
    if bs.isEmpty then some []
    else
      let p := leAt bs 0 1
      let w := if p / 16 = 0 then 1 else 2
      if 1 < p / 16 ∨ 3 < p % 16 ∨ bs.length < 1 + 64 * w then none
      else (jQuants fuel (bs.drop (1 + 64 * w))).map (fun l => (p % 16, (List.range 64).map (fun k => beAt bs (1 + w * k) w)) :: l)

/-! ## The frame -/

/-- A component: identifier, sampling, quantiser, its blocks padded to whole MCUs, its blocks in a scan of its own. -/
structure JComp where
  id : Nat
  hs : Nat
  vs : Nat
  tq : Nat
  bw : Nat
  bh : Nat
  ownW : Nat
  ownH : Nat
  deriving DecidableEq, Repr

structure JFrame where
  prog : Bool
  w : Nat
  h : Nat
  comps : List JComp
  deriving DecidableEq, Repr

/-- Everything the decoder holds between segments. -/
structure JDec where
  frame : Option JFrame
  quants : Tbl (List Nat)
  tables : Tbl Huff
  ri : Nat
  rgb : Bool
  /-- Coefficients of each component, 64 per block in zigzag order, and the quantiser latched for it. -/
  coefs : Array (Array Int)
  latched : Tbl (List Nat)
  scans : Nat

/-- The frame header of SOF0 or SOF2 (R319 to R321). -/
def jFrame (body : Bytes) (s : JSeg) : ImgRes JFrame :=
  let b := s.body
  let prog := s.code == 0xC2
  let h := beAt b 1 2
  let w := beAt b 3 2
  let n := leAt b 5 1
  let raw := (List.range n).map (fun k => (leAt b (6 + 3 * k) 1, leAt b (7 + 3 * k) 1, leAt b (8 + 3 * k) 1))
  let samp := raw.map (fun c => c.2.1)
  if b.length ≠ 6 + 3 * n then .error (stDamaged, s.off)
  else if leAt b 0 1 ≠ 8 ∨ h = 0 ∨ (n ≠ 1 ∧ n ≠ 3) then .error (stUnsupported, 0)
  else if n = 3 ∧ !([[0x11, 0x11, 0x11], [0x21, 0x11, 0x11], [0x22, 0x11, 0x11]].contains samp) then .error (stUnsupported, 0)
  else if !imFormat body (b2n prog) then .error (stUnsupported, 0)
  else if w = 0 ∨ raw.any (fun c => decide (3 < c.2.2) || c.2.1 / 16 == 0 || c.2.1 % 16 == 0 || decide (4 < c.2.1 / 16) || decide (4 < c.2.1 % 16)) then
    .error (stDamaged, s.off)
  else if !sizeFits body w h then .error (stOverBound, 0)
  else
    let hm := if n = 1 then 1 else samp.foldl (fun m v => max m (v / 16)) 1
    let vm := if n = 1 then 1 else samp.foldl (fun m v => max m (v % 16)) 1
    let mx := ceilDiv w (8 * hm)
    let my := ceilDiv h (8 * vm)
    let comps := raw.map (fun c =>
      let hs := if n = 1 then 1 else c.2.1 / 16
      let vs := if n = 1 then 1 else c.2.1 % 16
      (⟨c.1, hs, vs, c.2.2, mx * hs, my * vs, ceilDiv (ceilDiv (w * hs) hm) 8, ceilDiv (ceilDiv (h * vs) vm) 8⟩ : JComp))
    let need := comps.foldl (fun a c => a + 128 * c.bw * c.bh) 0
    if prog ∧ imProgBytes body < need then .error (stOverBound, 0) else .ok ⟨prog, w, h, comps⟩

/-! ## Scans -/

/-- What a scan's blocks share: spectral selection and approximation. -/
structure JParam where
  prog : Bool
  ss : Nat
  se : Nat
  ah : Nat
  al : Nat

/-- What a scan carries from block to block. -/
structure JRun where
  pos : Nat
  pred : Array Int
  eob : Nat
  coefs : Array (Array Int)

/-- Sets a coefficient. -/
def setCoef (co : Array (Array Int)) (c i : Nat) (v : Int) : Array (Array Int) := co.modify c (fun a => a.setIfInBounds i v)

def getCoef (co : Array (Array Int)) (c i : Nat) : Int := (co.getD c #[]).getD i 0

/-- A coefficient in range, of what the categories of T.81 give for 8-bit samples (R319). DEDUCED (log 152): after the point transform. -/
def jInRange (dc : Bool) (v : Int) : Bool := decide (v.natAbs ≤ if dc then 2047 else 1023)

/-- The DC coefficient of a block. -/
def jDc (j : JSrc) (p : JParam) (tab : Huff) (c base : Nat) (r : JRun) : ImgRes JRun :=
  if p.ah = 0 then do
    let (s, pos) ← j.sym tab r.pos
    if 11 < s then .error (stDamaged, j.at_ r.pos)
    else
      let v ← j.bits pos s
      let dc := r.pred.getD c 0 + jExtend v s
      if !jInRange true (dc * 2 ^ p.al) then .error (stDamaged, j.at_ r.pos)
      else return { r with pos := pos + s, pred := r.pred.setIfInBounds c dc, coefs := setCoef r.coefs c base (dc * 2 ^ p.al) }
  else do
    let b ← j.bit r.pos
    let v := getCoef r.coefs c base + b * 2 ^ p.al
    if !jInRange true v then .error (stDamaged, j.at_ r.pos)
    else return { r with pos := r.pos + 1, coefs := setCoef r.coefs c base v }

/-- AC coefficients of a block, first pass, from zigzag position k; `fuel` bounds the symbols. -/
def jAc (j : JSrc) (p : JParam) (tab : Huff) (c base : Nat) : Nat → Nat → JRun → ImgRes JRun
  | 0, _, r => .ok r
  | fuel + 1, k, r =>
    if p.se < k then .ok r
    else do
      let (rs, pos) ← j.sym tab r.pos
      let run := rs / 16
      let s := rs % 16
      if s = 0 then
        if run = 15 then jAc j p tab c base fuel (k + 16) { r with pos := pos }
        else if run = 0 then return { r with pos := pos }
        else if !p.prog then .error (stDamaged, j.at_ r.pos)
        else
          let e ← j.bits pos run
          return { r with pos := pos + run, eob := 2 ^ run - 1 + e }
      else
        let k := k + run
        if p.se < k ∨ 10 < s then .error (stDamaged, j.at_ r.pos)
        else
          let n ← j.bits pos s
          let v := jExtend n s * 2 ^ p.al
          if !jInRange false v then .error (stDamaged, j.at_ r.pos)
          else jAc j p tab c base fuel (k + 1) { r with pos := pos + s, coefs := setCoef r.coefs c (base + k) v }

/-- Refines the coefficients from k on until `zeros` zero ones have been passed and another is met; `fuel` bounds k. -/
def jRefine (j : JSrc) (p : JParam) (c base : Nat) : Nat → Nat → Nat → JRun → ImgRes (Nat × JRun)
  | 0, k, _, r => .ok (k, r)
  | fuel + 1, k, zeros, r =>
    if p.se < k then .ok (k, r)
    else
      let v := getCoef r.coefs c (base + k)
      if v = 0 then (if zeros = 0 then .ok (k, r) else jRefine j p c base fuel (k + 1) (zeros - 1) r)
      else do
        let b ← j.bit r.pos
        let m : Int := 2 ^ p.al
        let v' := if b = 1 ∧ v.natAbs / 2 ^ p.al % 2 = 0 then (if 0 ≤ v then v + m else v - m) else v
        if !jInRange false v' then .error (stDamaged, j.at_ r.pos)
        else jRefine j p c base fuel (k + 1) zeros { r with pos := r.pos + 1, coefs := setCoef r.coefs c (base + k) v' }

/-- AC coefficients of a block, refinement pass. -/
def jAcRefine (j : JSrc) (p : JParam) (tab : Huff) (c base : Nat) : Nat → Nat → JRun → ImgRes JRun
  | 0, _, r => .ok r
  | fuel + 1, k, r =>
    if p.se < k then .ok r
    else do
      let (rs, pos) ← j.sym tab r.pos
      let run := rs / 16
      let s := rs % 16
      if 1 < s then .error (stDamaged, j.at_ r.pos)
      else if s = 0 ∧ run < 15 then
        let e ← j.bits pos run
        let (_, r) ← jRefine j p c base 64 k 64 { r with pos := pos + run }
        return { r with eob := 2 ^ run - 1 + e }
      else
        let sign ← if s = 1 then j.bit pos else .ok 0
        let (k, r') ← jRefine j p c base 64 k run { r with pos := pos + s }
        if s = 1 ∧ (p.se < k ∨ !jInRange false (2 ^ p.al)) then .error (stDamaged, j.at_ r.pos)
        else
          let r' := if s = 1 then { r' with coefs := setCoef r'.coefs c (base + k) (if sign = 1 then 2 ^ p.al else -(2 ^ p.al)) } else r'
          jAcRefine j p tab c base fuel (k + 1) r'

/-- One block of a scan. -/
def jBlock (j : JSrc) (p : JParam) (dc ac : Option Huff) (c base : Nat) (r : JRun) : ImgRes JRun := do
  let bad : Nat × Nat := (stDamaged, j.at_ r.pos)
  let r ← if p.ss = 0 then (match dc with
      | some t => jDc j p t c base r
      | none => if p.ah = 0 then .error bad else jDc j p ⟨[], []⟩ c base r) else .ok r
  if p.se = 0 then return r
  else if 0 < r.eob then
    if p.ah = 0 then return { r with eob := r.eob - 1 }
    else
      let (_, r) ← jRefine j p c base 64 (max 1 p.ss) 64 r
      return { r with eob := r.eob - 1 }
  else match ac with
    | none => .error bad
    | some t => if p.ah = 0 then jAc j p t c base 64 (max 1 p.ss) r else jAcRefine j p t c base 64 (max 1 p.ss) r

/-- Blocks in order: component, base, tables. -/
def jBlocks (j : JSrc) (p : JParam) : List (Nat × Nat × Option Huff × Option Huff) → JRun → ImgRes JRun
  | [], r => .ok r
  | (c, base, dc, ac) :: t, r => do
    let r ← jBlock j p dc ac c base r
    jBlocks j p t r

/-- The restart intervals of a scan: blocks, data and the offset where the data ends. -/
def jIntervals (p : JParam) : List (List (Nat × Nat × Option Huff × Option Huff) × List (Byte × Nat) × Nat) → Array (Array Int) →
    ImgRes (Array (Array Int))
  | [], co => .ok co
  | (bl, src, fin) :: t, co => do
    let r ← jBlocks ⟨src.toArray, fin⟩ p bl ⟨0, #[0, 0, 0], 0, co⟩
    jIntervals p t r.coefs

/-- The blocks of a scan, by MCU. -/
def jMcus (f : JFrame) (cs : List (Nat × JComp × Option Huff × Option Huff)) : List (List (Nat × Nat × Option Huff × Option Huff)) :=
  match cs with
  | [(i, c, dc, ac)] => (List.range (c.ownW * c.ownH)).map (fun m => [(i, 64 * (m / c.ownW * c.bw + m % c.ownW), dc, ac)])
  | _ =>
    let c0 := f.comps.headD ⟨0, 1, 1, 0, 0, 0, 0, 0⟩
    let mx := c0.bw / c0.hs
    (List.range (mx * (c0.bh / c0.vs))).map (fun m => cs.flatMap (fun (i, c, dc, ac) =>
      (List.range (c.hs * c.vs)).map (fun k => (i, 64 * ((m / mx * c.vs + k / c.hs) * c.bw + m % mx * c.hs + k % c.hs), dc, ac))))

/-- One scan (SOS). A restart marker out of sequence, or one too many, is a fault at that marker; a missing one is a fault where
the data ends. -/
def jScan (d : JDec) (f : JFrame) (s : JSeg) : ImgRes JDec :=
  let b := s.body
  let n := leAt b 0 1
  let bad : Nat × Nat := (stDamaged, s.off)
  let p : JParam := ⟨f.prog, if f.prog then leAt b (1 + 2 * n) 1 else 0, if f.prog then leAt b (2 + 2 * n) 1 else 63,
    if f.prog then leAt b (3 + 2 * n) 1 / 16 else 0, if f.prog then leAt b (3 + 2 * n) 1 % 16 else 0⟩
  let cs := (List.range n).filterMap (fun k =>
    let t := leAt b (2 + 2 * k) 1
    (f.comps.zipIdx.find? (fun c => c.1.id == leAt b (1 + 2 * k) 1)).map (fun c =>
      (c.2, c.1, tblGet? d.tables (t / 16), tblGet? d.tables (16 + t % 16))))
  let legal := n == cs.length && decide (1 ≤ n) && decide (n ≤ f.comps.length) && b.length == 4 + 2 * n && decide (p.ss ≤ p.se) && decide (p.se ≤ 63) &&
    decide (p.al ≤ 13) && (p.ah == 0 || p.ah == p.al + 1) && (!f.prog || (if p.ss = 0 then p.se == 0 else n == 1))
  if !legal then .error bad
  else
    let mcus := jMcus f cs
    let groups := if d.ri = 0 then [mcus.flatten] else (chunks d.ri mcus.length mcus).map List.flatten
    let early := (s.rsts.zipIdx).find? (fun r => r.1.1 != r.2 % 8 || decide (groups.length ≤ r.2 + 1))
    let whole := groups.zip (s.parts.zip (s.rsts.map (·.2) ++ [s.fin]))
    do
      let co ← jIntervals p (match early with | some r => whole.take (r.2 + 1) | none => whole) d.coefs
      let _ ← (match early with
        | some r => .error (stDamaged, r.1.2)
        | none => if s.parts.length < groups.length then .error (stDamaged, s.fin) else .ok () : ImgRes Unit)
      let latched := cs.foldl (fun t c => if (tblGet? t c.1).isSome then t else tblSet t c.1 (tblGetD d.quants c.2.1.tq [])) d.latched
      if latched.any (fun q => q.2.isEmpty) then .error bad
      else return { d with coefs := co, latched := latched, scans := d.scans + 1 }

/-- One segment. -/
def jSegment (body : Bytes) (scanTotal : Nat) (d : JDec) (s : JSeg) : ImgRes JDec :=
  let c := s.code
  let bad : Nat × Nat := (stDamaged, s.off)
  if c = 0xC4 then (match jTables (s.body.length + 1) s.body with
    | some l => .ok { d with tables := l.foldl (fun t x => tblSet t x.1 x.2) d.tables }
    | none => .error bad)
  else if c = 0xDB then (match jQuants (s.body.length + 1) s.body with
    | some l => .ok { d with quants := l.foldl (fun t x => tblSet t x.1 x.2) d.quants }
    | none => .error bad)
  else if c = 0xDD then .ok { d with ri := beAt s.body 0 2 }
  else if c = 0xC0 ∨ c = 0xC2 then
    if d.frame.isSome then .error bad
    else do
      let f ← jFrame body s
      if f.prog ∧ 64 < scanTotal then .error (stOverBound, 0)
      else return { d with frame := some f, coefs := (f.comps.map (fun k => Array.replicate (64 * k.bw * k.bh) 0)).toArray }
  else if (0xC1 ≤ c ∧ c ≤ 0xCF) ∨ c = 0xDC ∨ c = 0xDE then .error (stUnsupported, 0)
  else if c = 0xEE ∧ s.body.take 5 = ascii "Adobe" ∧ 12 ≤ s.body.length then .ok { d with rgb := leAt s.body 11 1 == 0 }
  else if c = 0xDA then (match d.frame with
    | some f => jScan d f s
    | none => .error bad)
  else .ok d

/-- Segments in order. -/
def jSegments (body : Bytes) (scanTotal : Nat) : List JSeg → JDec → ImgRes JDec
  | [], d => .ok d
  | s :: t, d => do
    let d ← jSegment body scanTotal d s
    jSegments body scanTotal t d

/-! ## Samples and colour (R322, R323) -/

/-- The samples of a component, block rows laid side by side: width of a line, values. -/
def jPlane (c : JComp) (co : Array Int) (q : List Nat) : Nat × Array Nat :=
  let stride := 8 * c.bw
  (stride, (List.range (c.bw * c.bh)).foldl (fun (pl : Array Nat) b =>
    let blk := (List.range 64).foldl (fun (a : Array Int) k => a.setIfInBounds (zigzag.getD k 0) (co.getD (64 * b + k) 0 * (q.getD k 0 : Int)))
      (Array.replicate 64 0)
    let px := (Config.jpegIdct blk.toList).toArray
    (List.range 64).foldl (fun (pl : Array Nat) k =>
      pl.setIfInBounds ((b / c.bw * 8 + k / 8) * stride + b % c.bw * 8 + k % 8) ((px.getD k 0).val)) pl) (Array.replicate (64 * c.bw * c.bh) 0))

/-- A neighbour's coordinate, held within the plane. -/
def sideOf (even : Bool) (c n : Nat) : Nat := if even then c - 1 else min (n - 1) (c + 1)

/-- An upsampled chroma value at (x, y) (R322); `pw`, `ph` are the plane's own size. -/
def upsample (two22 two20 : Bool) (pl : Nat × Array Nat) (pw ph x y : Nat) : Nat :=
  let at_ := fun (i j : Nat) => pl.2.getD (j * pl.1 + i) 0
  if two20 then
    let cx := x / 2
    let cy := y / 2
    let nx := sideOf (x % 2 == 0) cx pw
    let ny := sideOf (y % 2 == 0) cy ph
    (9 * at_ cx cy + 3 * at_ nx cy + 3 * at_ cx ny + at_ nx ny + 8) >>> 4
  else if two22 then
    let cx := x / 2
    (3 * at_ cx y + at_ (sideOf (x % 2 == 0) cx pw) y + 2) >>> 2
  else at_ x y

/-- YCbCr to RGB (R323). -/
def yccToRgb (y cb cr : Nat) : List Nat :=
  let b : Int := cb - 128
  let r : Int := cr - 128
  let cl := fun (v : Int) => (max 0 (min 255 v)).toNat
  [cl (y + (91881 * r + 32768) / 65536), cl (y + (-22554 * b - 46802 * r + 32768) / 65536), cl (y + (116130 * b + 32768) / 65536)]

/-- The picture of a decoded JPEG. -/
def jPicture (d : JDec) (f : JFrame) : RawImg :=
  let planes := (f.comps.zipIdx.map (fun c => jPlane c.1 (d.coefs.getD c.2 #[]) (tblGetD d.latched c.2 []))).toArray
  let pl := fun (k : Nat) => planes.getD k (0, #[])
  match f.comps with
  | c0 :: _ :: _ =>
    let t22 := c0.hs == 2 && c0.vs == 1
    let t20 := c0.hs == 2 && c0.vs == 2
    let pw := ceilDiv f.w c0.hs
    let ph := ceilDiv f.h c0.vs
    ⟨f.w, f.h, 3, false, 255, ((List.range (f.w * f.h)).flatMap (fun i =>
      let x := i % f.w
      let y := i / f.w
      let a := (pl 0).2.getD (y * (pl 0).1 + x) 0
      let b := upsample t22 t20 (pl 1) pw ph x y
      let c := upsample t22 t20 (pl 2) pw ph x y
      if d.rgb then [a, b, c] else yccToRgb a b c)).toArray⟩
  | _ => ⟨f.w, f.h, 1, false, 255, ((List.range (f.w * f.h)).map (fun i => (pl 0).2.getD (i / f.w * (pl 0).1 + i % f.w) 0)).toArray⟩

/-- A JPEG sample (R319 to R323). -/
def jpegDecode (body bs : Bytes) : ImgRes RawImg :=
  if bytesAt bs 0 2 ≠ [0xFF, 0xD8] then .error (stDamaged, 0)
  else
    let (segs, fault) := jWalk (bs.length + 1) (bs.drop 2) 2
    let total := (segs.filter (fun s => s.code == 0xDA)).length
    match jSegments body total segs ⟨none, [], [], 0, false, #[], [], 0⟩ with
    | .error e => .error e
    | .ok d => match fault, d.frame with
      | some e, _ => .error e
      | none, none => .error (stDamaged, 2)
      | none, some f => if d.scans = 0 then .error (stDamaged, bs.length) else .ok (jPicture d f)

end Sys2Proof.Machine
end

