-- ==== Sys2Proof/Machine/Image.lean ====
section
/-! DEFINITION. The image path (R316 to R340): channels, calibration, cutouts, crop, resize, flip, warp, jitter,
normalising, dropping, output formats, and a sample's way through an image bay (log 54). -/

namespace Sys2Proof.Machine

/-- A picture from stage 3 or 4 on: FP32 values in HWC order, alpha last; the mask of R327. -/
structure Pic where
  w : Nat
  h : Nat
  c : Nat
  alpha : Bool
  vmax : Nat
  fits : Bool
  px : Array Fp
  mask : Option (Array Nat)
  deriving DecidableEq, Repr

/-- Colour channels. -/
def Pic.colours (p : Pic) : Nat := if p.alpha then p.c - 1 else p.c

/-- A value of a pixel. -/
def Pic.at_ (p : Pic) (x y c : Nat) : Fp := p.px.getD ((y * p.w + x) * p.c + c) 0

def Pic.maskAt (p : Pic) (x y : Nat) : Nat := match p.mask with
  | some m => m.getD (y * p.w + x) 0
  | none => 0

/-- A picture of a new size, value by value. -/
def Pic.build (p : Pic) (w h : Nat) (val : Nat → Nat → Nat → Fp) (mask : Nat → Nat → Nat) : Pic :=
  { p with
    w := w, h := h, px := Array.ofFn (fun i : Fin (w * h * p.c) => val (i.val / p.c % w) (i.val / p.c / w) (i.val % p.c)),
    mask := p.mask.map (fun _ => Array.ofFn (fun i : Fin (w * h) => mask (i.val % w) (i.val / w))) }

/-! ## Stage 3 (R324) -/

/-- Luma in integers. -/
def lumaOf (r g b : Nat) : Nat := (19595 * r + 38470 * g + 7471 * b + 32768) / 65536

/-- Channels, FP32 and alpha (R324). -/
def stage3 (body : Bytes) (r : RawImg) : Pic :=
  let want := leAt body 0x0A 1
  let mode := leAt body 0x0B 1
  let n := r.chans + b2n r.alpha
  let colour := fun (i : Nat) =>
    let v := fun (k : Nat) => r.vals.getD (i * n + k) 0
    if want = 1 then [if r.chans = 1 then v 0 else lumaOf (v 0) (v 1) (v 2)]
    else if r.chans = 1 then [v 0, v 0, v 0] else [v 0, v 1, v 2]
  let hasA := r.alpha || want == 4
  let a := fun (i : Nat) => if r.alpha then r.vals.getD (i * n + r.chans) 0 else r.vmax
  let vm := fpOfNat r.vmax
  let keep := hasA && mode == 1 && want == 4
  let pixel := fun (i : Nat) =>
    let cs := (colour i).map fpOfNat
    if hasA && mode == 2 then
      let al := fpOfNat (a i)
      cs.map (fun v => fpDiv (fpAdd (fpMul v al) (fpMul (imFill body) (fpSub vm al))) vm)
    else if keep then cs ++ [fpOfNat (a i)] else cs
  ⟨r.w, r.h, (if want = 1 then 1 else 3) + b2n keep, keep, r.vmax, false, ((List.range (r.w * r.h)).flatMap pixel).toArray, none⟩

/-! ## Stage 4 (R325 to R327) -/

/-- A calibration frame: T_DARK and its planes. -/
structure Cal where
  tDark : Fp
  bias : Option (Array Fp)
  dark : Option (Array Fp)
  flat : Option (Array Fp)
  deriving DecidableEq, Repr

/-- The planes of a calibration table that fits a frame (R325, R326). -/
def calOf (t : Bytes) (detector w h : Nat) : Option Cal :=
  let flags := leAt t 0x14 1
  if leAt t 0 4 ≠ 0x4C414343 ∨ leAt t 4 4 ≠ detector ∨ leAt t 8 4 ≠ w ∨ leAt t 0x0C 4 ≠ h then none
  else
    let plane := fun (k : Nat) => if !bitOf flags k then none
      else
        let before := ((List.range k).filter (fun j => bitOf flags j)).length
        let arr := t.toArray
        some (Array.ofFn (fun i : Fin (w * h) =>
          let o := 64 + 4 * (before * w * h + i.val)
          (BitVec.ofNat 32 ((arr.getD o 0).toNat + 256 * (arr.getD (o + 1) 0).toNat + 65536 * (arr.getD (o + 2) 0).toNat +
            16777216 * (arr.getD (o + 3) 0).toNat) : Fp)))
    some ⟨BitVec.ofNat 32 (leAt t 0x10 4), plane 0, plane 1, plane 2⟩

/-- One calibrated pixel and its mask (R327). -/
def calPixel (body : Bytes) (img : FitsImg) (cal : Option Cal) (scale : Fp) (i : Nat) : Fp × Nat :=
  let bscale := (cardFp img.cards "BSCALE").getD 0x3F800000
  let bzero := (cardFp img.cards "BZERO").getD 0
  let plane := fun (p : Option (Option (Array Fp))) (d : Fp) => match p.join with
    | some a => a.getD i 0
    | none => d
  let go := fun (v : Fp) =>
    let p := fpAdd (fpMul v bscale) bzero
    let m := if fpLe (imFp body 0x20) p then 2 else 0
    match cal with
    | none => (p, m)
    | some c =>
      let d := fpMul (plane (some c.dark) 0) scale
      let a := fpSub (fpSub p (plane (some c.bias) 0)) d
      let f := plane (some c.flat) 0x3F800000
      if fpEq f 0 then (imFp body 0x1C, m + 4) else (fpMul (fpMul a f) (imFp body 0x90), m)
  match img.vals.getD i (.int 0) with
  | .int v => if some v = img.blank then (imFp body 0x1C, 1) else go (fpOfInt v)
  | .fp v => if fpIsNan v then (fpAdd v v, 1) else go v

/-- Stage 4: the calibrated frame. -/
def stage4 (body : Bytes) (img : FitsImg) (cal : Option Cal) : Pic :=
  let texp := (cardFp img.cards "EXPTIME").getD (imFp body 0x24)
  let s := match cal with
    | some c => fpDiv texp c.tDark
    | none => 0
  let px := Array.ofFn (fun i : Fin (img.w * img.h) => calPixel body img cal s i.val)
  ⟨img.w, img.h, 1, false, 65535, true, px.map (·.1), if imFlag body 0 then some (px.map (·.2)) else none⟩

/-! ## Stages 5 to 7 (R330 to R334) -/

/-- A cutout around (X, Y) (R330). -/
def cutout (body : Bytes) (p : Pic) (x y : Int) : Pic :=
  let cw := leAt body 0x88 2
  let ch := leAt body 0x8A 2
  let x0 := x - (cw / 2 : Nat)
  let y0 := y - (ch / 2 : Nat)
  let inside := fun (i j : Nat) => decide (0 ≤ x0 + i) && decide (x0 + i < (p.w : Int)) && decide (0 ≤ y0 + j) && decide (y0 + j < (p.h : Int))
  p.build cw ch (fun i j c => if inside i j then p.at_ (x0 + i).toNat (y0 + j).toNat c else imFill body)
    (fun i j => if inside i j then p.maskAt (x0 + i).toNat (y0 + j).toNat else 8)

/-- A cutout's first row. -/
def cutRow (body : Bytes) (y : Int) : Int := y - (leAt body 0x8A 2 / 2 : Nat)

/-- The crop window: x0, y0, cw, ch (R332). What a NaN, which an infinite R_HI can give, rounds to is a free value (log 151). -/
def cropWindow (body : Bytes) (k : DrawKey) (w h : Nat) : Nat × Nat × Nat × Nat :=
  let mode := leAt body 0x28 1
  let lim := fun (n m : Nat) => max 1 (min n m)
  let cw := lim (leAt body 0x2A 2) w
  let ch := lim (leAt body 0x2C 2) h
  let draw := fun (cw ch : Nat) => (k.uniform 2 (w - cw + 1) 2, k.uniform 2 (h - ch + 1) 3, cw, ch)
  if mode = 0 then (0, 0, w, h)
  else if mode = 1 then ((w - cw) / 2, (h - ch) / 2, cw, ch)
  else if mode = 2 then draw cw ch
  else
    let span := fun (lo hi : Fp) (u : Nat) => fpAdd lo (fpDiv (fpMul (fpSub hi lo) (fpOfNat u)) 0x47800000)
    let f := span (imFp body 0x38) (imFp body 0x3C) (k.uniform 2 65536 0)
    let r := span (imFp body 0x40) (imFp body 0x44) (k.uniform 2 65536 1)
    let a := fpMul (fpMul (fpOfNat w) (fpOfNat h)) f
    let size := fun (v : Fp) (n : Nat) => if fpVal v = .nan then 1 + Config.nanRound v % n else (fpClampInt v 1 n).toNat
    draw (size (fpSqrt (fpMul a r)) w) (size (fpSqrt (fpDiv a r)) h)

/-- Stage 6. -/
def stage6 (body : Bytes) (k : DrawKey) (p : Pic) : Pic :=
  let (x0, y0, cw, ch) := cropWindow body k p.w p.h
  p.build cw ch (fun x y c => p.at_ (x0 + x) (y0 + y) c) (fun x y => p.maskAt (x0 + x) (y0 + y))

/-- A band of a kernel table: MIN_RATIO, TAPS, coefficients by phase and tap (R333). -/
structure KBand where
  minRatio : Fp
  taps : Nat
  coefs : Array Fp
  deriving DecidableEq, Repr

/-- The bands from an offset on. -/
def kernelBands (t : Bytes) : Nat → Nat → Option (List KBand)
  | 0, _ => some []
  | n + 1, off =>
    let taps := leAt t (off + 4) 1
    if taps < 2 ∨ 16 < taps ∨ taps % 2 ≠ 0 ∨ t.length < off + 8 + 256 * taps then none
    else (kernelBands t n (off + 8 + 256 * taps)).map (fun l =>
      ⟨BitVec.ofNat 32 (leAt t off 4), taps, ((List.range (64 * taps)).map (fun k => (BitVec.ofNat 32 (leAt t (off + 8 + 4 * k) 4) : Fp))).toArray⟩ :: l)

/-- A kernel table (R333); none when it is malformed. -/
def kernelOf (t : Bytes) : Option (List KBand) :=
  let n := leAt t 4 4
  if leAt t 0 4 ≠ 0x4B5A5352 ∨ n < 1 ∨ 32 < n then none
  else match kernelBands t n 16 with
    | none => none
    | some l => if (l.zip (l.drop 1)).all (fun p => fpLt p.1.minRatio p.2.minRatio) then some l else none

/-- The taps of output index i: source indices with their coefficients (R334). DEDUCED (log 151): where s − k rounds to 1, the phase is 63,
the last of those that R334 gives. -/
def resizeTaps (bands : List KBand) (src dst i : Nat) : List (Nat × Fp) :=
  let rho := fpDiv (fpOfNat src) (fpOfNat dst)
  let s := fpSub (fpMul (fpAdd (fpOfNat i) 0x3F000000) rho) 0x3F000000
  let k := fpFloor s
  let ph := min 63 (fpFloor (fpMul (fpSub s (fpOfInt k)) 0x42800000)).toNat
  let band := ((bands.filter (fun b => fpLe b.minRatio rho)).getLast?).getD (bands.headD ⟨0, 0, #[]⟩)
  (List.range band.taps).map (fun (j : Nat) =>
    ((max 0 (min ((src : Int) - 1) (k - (band.taps / 2 : Nat) + 1 + (j : Int)))).toNat, band.coefs.getD (ph * band.taps + j) 0))

/-- The nearest source index of output index i. -/
def nearestIx (src dst i : Nat) : Nat := min (src - 1) ((2 * i + 1) * src / (2 * dst))

/-- One axis value (R334). -/
def resizeVal (taps : List (Nat × Fp)) (get : Nat → Fp) : Fp := taps.foldl (fun acc t => fpAdd acc (fpMul t.2 (get t.1))) 0

/-- Stage 7: rows first, then columns; an axis of equal sizes is copied. -/
def stage7 (bands : List KBand) (ow oh : Nat) (p : Pic) : Pic :=
  let wide := if p.w = ow then p
    else
      let tx := (Array.ofFn (fun i : Fin ow => resizeTaps bands p.w ow i.val))
      p.build ow p.h (fun x y c => resizeVal (tx.getD x []) (fun q => p.at_ q y c)) (fun x y => p.maskAt (nearestIx p.w ow x) y)
  if wide.h = oh then wide
  else
    let ty := (Array.ofFn (fun i : Fin oh => resizeTaps bands wide.h oh i.val))
    wide.build ow oh (fun x y c => resizeVal (ty.getD y []) (fun q => wide.at_ x q c)) (fun x y => wide.maskAt x (nearestIx wide.h oh y))

/-! ## Stages 8 to 12 (R335 to R338) -/

/-- Stage 8. -/
def stage8 (body : Bytes) (k : DrawKey) (p : Pic) : Pic :=
  let hf := k.yes 3 (leAt body 0x32 2) 0
  let vf := k.yes 3 (leAt body 0x34 2) 1
  let fx := fun (x : Nat) => if hf then p.w - 1 - x else x
  let fy := fun (y : Nat) => if vf then p.h - 1 - y else y
  p.build p.w p.h (fun x y c => p.at_ (fx x) (fy y) c) (fun x y => p.maskAt (fx x) (fy y))

/-- The matrices of a warp table (R336); none when it is malformed. -/
def warpOf (t : Bytes) : Option (List (Fp × Fp × Fp × Fp)) :=
  let n := leAt t 4 4
  if leAt t 0 4 ≠ 0x50524157 ∨ n < 1 ∨ 64 < n ∨ t.length < 16 + 16 * n then none
  else some ((List.range n).map (fun k => (imFp t (16 + 16 * k), imFp t (20 + 16 * k), imFp t (24 + 16 * k), imFp t (28 + 16 * k))))

/-- The source point of an output pixel (R336). -/
def warpPoint (m : Fp × Fp × Fp × Fp) (w h : Nat) (tx ty : Fp) (x y : Nat) : Fp × Fp :=
  let cx := fpDiv (fpOfNat w) 0x40000000
  let cy := fpDiv (fpOfNat h) 0x40000000
  let dx := fpSub (fpAdd (fpOfNat x) 0x3F000000) cx
  let dy := fpSub (fpAdd (fpOfNat y) 0x3F000000) cy
  let line := fun (a b c t : Fp) => fpSub (fpAdd (fpAdd (fpAdd (fpMul a dx) (fpMul b dy)) c) t) 0x3F000000
  (line m.1 m.2.1 cx tx, line m.2.2.1 m.2.2.2 cy ty)

/-- The whole number below a coordinate; none for an infinity or a NaN, whose floor is no place in an image. -/
def fpCell (a : Fp) : Option Int := match fpVal a with
  | .fin _ _ _ => some (fpFloor a)
  | _ => none

/-- What stands at integer coordinates, or `out` outside the image. -/
def Pic.inside {α : Type} (p : Pic) (x y : Option Int) (get : Nat → Nat → α) (out : α) : α := match x, y with
  | some x, some y => if 0 ≤ x ∧ x < p.w ∧ 0 ≤ y ∧ y < p.h then get x.toNat y.toNat else out
  | _, _ => out

/-- A value at integer coordinates; outside the image it is FILL. -/
def Pic.fillAt (p : Pic) (fill : Fp) (x y : Option Int) (c : Nat) : Fp := p.inside x y (fun x y => p.at_ x y c) fill

/-- Stage 9. -/
def stage9 (body : Bytes) (ms : List (Fp × Fp × Fp × Fp)) (k : DrawKey) (p : Pic) : Pic :=
  let m := ms.getD (k.uniform 5 ms.length 0) (0, 0, 0, 0)
  let shift := fun (e : Nat) => fpMul (imFp body 0x50) (fpSub (fpDiv (fpMul 0x40000000 (fpOfNat (k.uniform 5 65536 e))) 0x47800000) 0x3F800000)
  let tx := shift 1
  let ty := shift 2
  let val := fun (x y c : Nat) =>
    let (sx, sy) := warpPoint m p.w p.h tx ty x y
    let frac := fun (a : Fp) => fpSub a ((fpCell a).elim a fpOfInt)
    let fx := frac sx
    let fy := frac sy
    let g := fun (i j : Int) => p.fillAt (imFill body) ((fpCell sx).map (· + i)) ((fpCell sy).map (· + j)) c
    let mixUp := fun (a b f : Fp) => fpAdd a (fpMul f (fpSub b a))
    mixUp (mixUp (g 0 0) (g 1 0) fx) (mixUp (g 0 1) (g 1 1) fx) fy
  let mask := fun (x y : Nat) =>
    let (sx, sy) := warpPoint m p.w p.h tx ty x y
    p.inside (fpCell (fpAdd sx 0x3F000000)) (fpCell (fpAdd sy 0x3F000000)) p.maskAt 8
  p.build p.w p.h val mask

/-- Changes the colour channels of every pixel at once. -/
def Pic.mapColours (p : Pic) (f : List Fp → List Fp) : Pic :=
  let n := p.colours
  { p with px := ((List.range (p.w * p.h)).flatMap (fun i =>
      f ((List.range n).map (fun c => p.px.getD (i * p.c + c) 0)) ++ (if p.alpha then [p.px.getD (i * p.c + n) 0] else []))).toArray }

/-- Stage 10 (R337). -/
def stage10 (body : Bytes) (k : DrawKey) (p : Pic) : Pic :=
  let kf := fun (off e : Nat) =>
    let j := imFp body off
    fpAdd (fpSub 0x3F800000 j) (fpDiv (fpMul (fpMul 0x40000000 j) (fpOfNat (k.uniform 4 65536 e))) 0x47800000)
  let kb := kf 0x54 0
  let kc := kf 0x58 1
  let ks := kf 0x5C 2
  let mid := imFp body 0x60
  let hi := fpOfNat p.vmax
  let cl := fun (v : Fp) => if p.fits then v else fpClamp v 0 hi
  p.mapColours (fun vs =>
    let vs := vs.map (fun v => cl (fpMul v kb))
    let vs := vs.map (fun v => cl (fpAdd (fpMul (fpSub v mid) kc) mid))
    match vs with
    | [r, g, b] =>
      let y := fpAdd (fpAdd (fpMul 0x3E991687 r) (fpMul 0x3F1645A2 g)) (fpMul 0x3DE978D5 b)
      [r, g, b].map (fun v => cl (fpAdd y (fpMul (fpSub v y) ks)))
    | vs => vs)

/-- Stage 11 (R338). -/
def stage11 (body : Bytes) (p : Pic) : Pic :=
  p.mapColours (fun vs => vs.zipIdx.map (fun v => fpMul (fpSub v.1 (imFp body (0x64 + 4 * v.2))) (imFp body (0x70 + 4 * v.2))))

/-- Stage 12 (R338): `base` is the first pixel's element. -/
def stage12 (body : Bytes) (k : DrawKey) (base : Nat) (p : Pic) : Pic :=
  let drop := Array.ofFn (fun i : Fin (p.w * p.h) => k.yes 6 (leAt body 0x36 2) (base + i.val))
  { p with px := Array.ofFn (fun i : Fin (p.w * p.h * p.c) => if drop.getD (i.val / p.c) false then imFill body else p.px.getD i.val 0) }

/-! ## Stage 13 (R339, R340) -/

/-- A narrow floating format: mantissa bits, exponent of the smallest step, largest finite code, what overflow gives, NaN. -/
structure FpFmt where
  man : Nat
  lo : Int
  top : Nat
  inf : Nat
  nan : Nat
  bytes : Nat
  deriving DecidableEq, Repr

/-- The formats 3 to 6 of R339. -/
def fmtOf (f : Nat) : FpFmt :=
  if f = 3 then ⟨7, -133, 0x7F7F, 0x7F80, 0x7FC0, 2⟩
  else if f = 4 then ⟨10, -24, 0x7BFF, 0x7C00, 0x7E00, 2⟩
  else if f = 5 then ⟨3, -9, 0x7E, 0x7F, 0x7F, 1⟩
  else ⟨2, -16, 0x7B, 0x7C, 0x7E, 1⟩

/-- The magnitude of m × 2^e in a narrow format: one step up from the truncation as `up` says of the remaining
fraction r / 2^n. -/
def narrowMag (f : FpFmt) (m : Nat) (e : Int) (up : Nat → Nat → Nat → Nat) : Nat :=
  let q : Int := max f.lo ((Nat.log2 m : Int) + e - f.man)
  let sh := q - e
  let n := if sh ≤ 0 then m * 2 ^ (-sh).toNat else let k := sh.toNat; m / 2 ^ k + up (m / 2 ^ k) (m % 2 ^ k) k
  (q - f.lo).toNat * 2 ^ f.man + n

/-- The largest finite value of a format is exceeded. -/
def pastTop (f : FpFmt) (m : Nat) (e : Int) : Bool :=
  let tm := 2 ^ f.man + f.top % 2 ^ f.man
  let te : Int := (f.top / 2 ^ f.man : Nat) - 1 + f.lo
  let lo := min e te
  decide (tm * 2 ^ (te - lo).toNat < m * 2 ^ (e - lo).toNat)

/-- Conversion to a narrow format (R289, R339, R340): `nib` is the rounding nibble with SR. -/
def narrow (f : FpFmt) (saturate : Bool) (nib : Option Nat) (v : Fp) : Nat :=
  let sign := fun (neg : Bool) (mag : Nat) => b2n neg * 2 ^ (8 * f.bytes - 1) + mag
  let past := fun (neg : Bool) => if saturate then sign neg f.top else if f.inf = f.nan then f.nan else sign neg f.inf
  match fpVal v with
  | .nan => f.nan
  | .inf neg => past neg
  | .fin neg m e =>
    if m = 0 then sign neg 0
    else if pastTop f m e then past neg
    else
      let mag := narrowMag f m e (fun q r k => match nib with
        | some n => b2n (n < shiftRne (16 * r) k)
        | none => if 2 * r < 2 ^ k then 0 else if 2 ^ k < 2 * r then 1 else q % 2)
      if f.top < mag then past neg else sign neg mag

/-- One output value (R339): its bytes; `i` is its rounding element. -/
def outValue (body : Bytes) (k : DrawKey) (i : Nat) (v : Fp) : Bytes :=
  let fmt := leAt body 0x7C 1
  let y := fpAdd (fpMul v (imFp body 0x80)) (imFp body 0x84)
  if fmt = 0 then natLe 1 (fpClampInt y 0 255).toNat
  else if fmt = 1 then natLe 2 (fpClampInt y 0 65535).toNat
  else if fmt = 2 then natLe 4 y.toNat
  else
    let f := fmtOf fmt
    natLe f.bytes (narrow f (imFlag body 1) (if imFlag body 2 then some (k.nibble 7 i) else none) y)

/-- Stage 13: `base` is the first value's element (R331, R356). -/
def stage13 (body : Bytes) (k : DrawKey) (base : Nat) (p : Pic) : Bytes :=
  p.px.toList.zipIdx.flatMap (fun v => outValue body k (base + v.2) v.1)

/-! ## A sample in an image bay -/

/-- The profile for an engine's stages: the bay's own binding first, then the graph's first (log 54). -/
def State.imageProfile (s : State) (g bay engine : Nat) : Option Bytes := match s.bayProfile g bay engine with
  | some b => some b
  | none => (s.profileOf g engine).map (·.2)

/-- What the stages give: a picture per unit, a rejection, or a halted stream. -/
inductive PicResult where
  | pics (l : List Pic)
  | reject (code detail : Nat)
  | halted
  deriving DecidableEq, Repr

/-- A table that the stages read; a malformed one halts the stream with FORMAT_UNSUPPORTED (R333; log 54). -/
def State.stageTable (w : Site) (id : Nat) (parse : Bytes → Option α) (s : State) : Option α × State :=
  match s.streamTable w id with
  | (none, s) => (none, s)
  | (some t, s) => match parse t with
    | some a => (some a, s)
    | none => (none, (s.streamError w.fn w.stream stUnsupported id).relays)

/-- Stages 4 and 5 on a FITS frame (R326 to R330). -/
def State.calibrate (w : Site) (body : Bytes) (img : FitsImg) (s : State) : Except PicResult Pic × State :=
  let base := leAt body 0x10 4
  if base = 0 then (.ok (stage4 body img none), s)
  else match asInt (cardValRaw img.cards (bytesAt body 0x14 8)) with
    | none => (.error (.reject stUnsupported 0), s)
    | some n =>
      if n < 0 ∨ 255 < n ∨ (s.tableRef (base + n.toNat)).isNone then (.error (.reject stUnsupported 0), s)
      else match s.streamTable w (base + n.toNat) with
        | (none, s) => (.error .halted, s)
        | (some t, s) => match calOf t n.toNat img.w img.h with
          | none => (.error (.reject stUnsupported 0), s)
          | some c => (.ok (stage4 body img (some c)), s)

/-- Stages 6 and 7 (R332 to R334): off with cutouts. -/
def State.cropResize (w : Site) (g : Nat) (k : DrawKey) (p : Pic) (s : State) : Option Pic × State :=
  match s.imageProfile g w.bay 0x0206 with
  | none => (some p, s)
  | some body =>
    let p := stage6 body k p
    let ow := leAt body 0x2E 2
    let oh := leAt body 0x30 2
    if p.w = ow ∧ p.h = oh then (some p, s)
    else match s.stageTable w (leAt body 0x48 4) kernelOf with
      | (some bands, s) => (some (stage7 bands ow oh p), s)
      | (none, s) => (none, s)

/-- Stages 8 to 12 of one picture. `ord` is the cutout or frame it is (R331, R356). -/
def State.augment (w : Site) (g : Nat) (k : DrawKey) (ord : Nat) (p : Pic) (s : State) : Option Pic × State :=
  let point := s.imageProfile g w.bay 0x0208
  let p := match point with
    | some body => stage8 body k p
    | none => p
  let (p?, s) : Option Pic × State := match s.imageProfile g w.bay 0x0207 with
    | some body =>
      if imFlag body 3 && leAt body 0x4C 4 != 0 then
        match s.stageTable w (leAt body 0x4C 4) warpOf with
        | (some ms, s) => (some (stage9 body ms k p), s)
        | (none, s) => (none, s)
      else (some p, s)
    | none => (some p, s)
  match p?, point with
  | none, _ => (none, s)
  | some p, none => (some p, s)
  | some p, some body =>
    let p := if imFlag body 4 then stage10 body k p else p
    let p := if imFlag body 5 then stage11 body p else p
    (some (stage12 body k (ord * p.w * p.h) p), s)

/-- The pictures of a sample, in order, through stages 8 to 12. -/
def State.augmentAll (w : Site) (g : Nat) (k : DrawKey) : List (Nat × Pic) → State → Option (List (Nat × Pic)) × State
  | [], s => (some [], s)
  | (n, p) :: t, s => match s.augment w g k n p with
    | (none, s) => (none, s)
    | (some p, s) => match s.augmentAll w g k t with
      | (none, s) => (none, s)
      | (some l, s) => (some ((n, p) :: l), s)

/-- One picture to send: its number, the catalogue's ID, the picture. -/
structure PicOut where
  ord : Nat
  id : Nat
  pic : Pic
  deriving DecidableEq, Repr

/-- The cutouts of a frame in the order in which they leave (R330). -/
def cutoutsOf (body : Bytes) (p : Pic) (rows : List (Int × Int × Nat)) : List PicOut :=
  (sortBy (fun (a b : (Int × Int × Nat) × Nat) => decide (cutRow body a.1.2.1 ≤ cutRow body b.1.2.1)) rows.zipIdx).map (fun r =>
    ⟨r.2, r.1.2.2, cutout body p r.1.1 r.1.2.1⟩)

/-- Stages 1 to 7 of a coded sample. -/
def State.imageFront (w : Site) (g : Nat) (k : DrawKey) (kind : Nat) (bytes : Bytes) (s : State) : Except PicResult (List PicOut) × State :=
  let one := fun (p : Pic) (s : State) => match s.cropResize w g k p with
    | (some p, s) => ((Except.ok [PicOut.mk 0 0 p] : Except PicResult (List PicOut)), s)
    | (none, s) => (.error .halted, s)
  match s.imageProfile g w.bay (0x0200 + kind) with
  | none => (.error (.reject stUnsupported 0), s)
  | some body =>
    if kind = 3 then
      match fitsDecode body bytes with
      | .error (c, d) => (.error (.reject c d), s)
      | .ok (img, rows) =>
        let calBody := (s.imageProfile g w.bay 0x0205).getD (overlay body 0x10 (zeros 4))
        match s.calibrate w calBody img with
        | (.error e, s) => (.error e, s)
        | (.ok p, s) => if 0 < imMaxCut body then (.ok (cutoutsOf calBody p rows), s) else one p s
    else
      match (if kind = 1 then jpegDecode body bytes else pngDecode body bytes) with
      | .error (c, d) => (.error (.reject c d), s)
      | .ok raw => one (stage3 ((s.imageProfile g w.bay 0x0204).getD body) raw) s

/-- A frame of a clip enters at stage 3 (R355). -/
def frameRaw (t : UnitTag) (bytes : Bytes) : RawImg :=
  let w := if t.vmax = 65535 then 2 else 1
  ⟨t.width, t.height, t.chans, false, t.vmax, ((chunks w bytes.length bytes).map leNat).toArray⟩

/-- Sends the finished pictures of a unit (R317, R327, R330): each with its mask unit, if it has one. -/
def State.sendPics (bay : Nat) (u : DataUnit) (k : DrawKey) (body? : Option Bytes) (l : List PicOut) (s : State) : State :=
  let t := u.tag
  let each := max 1 l.length
  if l.isEmpty then s.sendReject bay stOk { t with role := 3, ordinal := 2 ^ 32, stage := 14 }
  else s.forEach l (fun o s =>
    let p := o.pic
    let den := t.den * each * (if p.mask.isSome then 2 else 1)
    let bytes := match body? with
      | some body => stage13 body k (o.ord * p.w * p.h * p.c) p
      | none => p.px.toList.flatMap (fun v => natLe 4 v.toNat)
    let tag := { t with stage := 14, ordinal := o.ord, width := p.w, height := p.h, chans := p.c, vmax := p.vmax, den := den, extra := o.id, role := 0 }
    let s := s.sendUnit bay ⟨bytes, tag, []⟩ false none
    match p.mask with
    | some m => s.sendUnit bay ⟨m.toList.map (BitVec.ofNat 8), { tag with role := 1 }, []⟩ false none
    | none => s)

/-- The pictures of a unit from stage 8 on. -/
def State.imageBack (w : Site) (g : Nat) (u : DataUnit) (k : DrawKey) (ps : List PicOut) (s : State) : Option Unit × State :=
  match s.augmentAll w g k (ps.map (fun o => (o.ord, o.pic))) with
  | (none, s) => (none, s)
  | (some l, s) =>
    (some (), s.sendPics w.bay u k (s.imageProfile g w.bay 0x0208) ((ps.zip l).map (fun x => { x.1 with pic := x.2.2 })))

/-- A unit reaches an image bay (R316, R328): a coded sample, or a frame of a clip. What needs no work here passes on. A
stream that halts meanwhile processes it again after its resume. -/
def State.imageUnit (bay mortise : Nat) (u : DataUnit) (s : State) : State := match s.tagStream u.tag with
  | none => s
  | some (f, i, x) =>
    let t := u.tag
    let g := x.graph
    let k := x.drawKey t.sampleIx
    let w : Site := ⟨f, i, bay, s.sampleBatch x t.sampleIx⟩
    let work := t.role == 0 && (t.stage == 3 || (t.stage == 0 && decide (1 ≤ t.kind) && decide (t.kind ≤ 3)))
    if x.st == .halted then s.holdUnit bay mortise u
    else if !work then s.sendUnit bay u true none
    else
      let front : Except PicResult (List PicOut) × State :=
        if t.stage = 3 then
          match s.cropResize w g k (stage3 ((s.imageProfile g bay 0x0204).getD []) (frameRaw t u.bytes)) with
          | (some p, s) => (.ok [⟨t.ordinal, t.extra, p⟩], s)
          | (none, s) => (.error .halted, s)
        else s.imageFront w g k t.kind u.bytes
      match front with
      | (.error (.reject c d), s) => s.rejectAt f i bay t c d
      | (.error _, s) => s.holdUnit bay mortise u
      | (.ok ps, s) => match s.imageBack w g u k ps with
        | (some _, s) => s
        | (none, s) => s.holdUnit bay mortise u

end Sys2Proof.Machine
end

