-- ==== Sys2Proof/Machine/Judge.lean ====
section
/-! DEFINITION. Judge bays: programs (R393 to R397), the arithmetic (R390 to R392), the heat copy (R402 to R404),
verdicts (R405 to R408), segments (R409) and JUDGE_HEAT_START (R400). -/

namespace Sys2Proof.Machine

/-! ## Arithmetic (R391, R392) -/

/-- acc + a × b, exact and rounded once (R391). -/
def fpFma (acc a b : Fp) : Fp :=
  match fpVal a, fpVal b with
  | .fin s m e, .fin t n g => match fpVal acc with
    | .fin u k h =>
      let lo := min (e + g) h
      let v := scaled (s != t) (m * n) (e + g) lo + scaled u k h lo
      if v = 0 then fpSign ((s != t) && u) 0 else fpRound (decide (v < 0)) v.natAbs lo
    | _ => fpAdd acc 0
  | _, _ => fpAdd acc (fpMul a b)

/-- Bytes of a value by OUT_FMT code (R339). -/
def fmtBytes (f : Nat) : Nat := if f = 0 then 1 else if f = 2 then 4 else if f = 5 ∨ f = 6 then 1 else 2

/-- An 8-bit float widened exactly. -/
def widen8 (e4 : Bool) (v : Nat) : Fp :=
  let neg := bitOf v 7
  let man := if e4 then 3 else 2
  let m := fld v 0 man
  let ex := fld v man (7 - man)
  let lo : Int := if e4 then -9 else -16
  if e4 ∧ v % 128 = 127 then fpSign neg 0x7FC00000
  else if !e4 ∧ ex = 31 then (if m = 0 then fpInf neg else fpSign neg 0x7FC00000)
  else if ex = 0 then fpRound neg m lo else fpRound neg (m + 2 ^ man) (lo + ex - 1)

/-- A stored value widened exactly to FP32. -/
def widen (f v : Nat) : Fp :=
  if f ≤ 1 then fpOfNat v else if f = 2 then BitVec.ofNat 32 v else if f = 3 then fpOfBf16 v else if f = 4 then fpOfHalf v
  else widen8 (f == 5) v

/-- A value converted to a format, as its code (R392). -/
def toFmt (f : Nat) (saturate : Bool) (v : Fp) : Nat := if f = 2 then v.toNat else narrow (fmtOf f) saturate none v

/-! ## Programs and layers (R393 to R395) -/

def jpLayers (p : Bytes) : Nat := leAt p 4 2
def jpInFmt (p : Bytes) : Nat := leAt p 6 1
def jpInCount (p : Bytes) : Nat := leAt p 8 4
def jpWeights (p : Bytes) : Nat := leAt p 0x10 4
def jpEmit (p : Bytes) : Nat := leAt p 0x14 2
def jpVerdict (p : Bytes) : Nat := leAt p 0x16 2

/-- A layer descriptor. -/
def layerOf (p : Bytes) (n : Nat) : Bytes := bytesAt p (0x40 + 64 * n) 64

def lyOp (l : Bytes) : Nat := leAt l 0 1
def lyOut (l : Bytes) : Nat := leAt l 3 1
def lyFlag (l : Bytes) (i : Nat) : Bool := bitOf (leAt l 4 1) i
def lyDim (l : Bytes) (k : Nat) : Nat := leAt l (0x0C + 4 * k) 4
def lyFp (l : Bytes) (off : Nat) : Fp := BitVec.ofNat 32 (leAt l off 4)

/-- GEOM of CONV2D. -/
structure Geom where
  kh : Nat
  kw : Nat
  sy : Nat
  sx : Nat
  py : Nat
  px : Nat
  deriving DecidableEq, Repr

def geomOf (l : Bytes) : Geom := let g := lyDim l 4; ⟨fld g 24 8, fld g 16 8, fld g 12 4, fld g 8 4, fld g 4 4, fld g 0 4⟩

/-- Output size of CONV2D. -/
def convSize (l : Bytes) : Nat × Nat :=
  let g := geomOf l
  ((lyDim l 0 + 2 * g.py - g.kh) / max 1 g.sy + 1, (lyDim l 1 + 2 * g.px - g.kw) / max 1 g.sx + 1)

/-- Input values that a layer takes from each source. -/
def lyInputs (l : Bytes) : Nat :=
  let op := lyOp l
  if op = 1 then lyDim l 0 * lyDim l 1 else if op = 2 then lyDim l 0 * lyDim l 1 * lyDim l 2
  else if 7 ≤ op then lyDim l 0 * lyDim l 1 else lyDim l 0

/-- Output values of a layer. -/
def lyOutputs (l : Bytes) : Nat :=
  let op := lyOp l
  if op = 1 then lyDim l 0 * lyDim l 2
  else if op = 2 then let (h, w) := convSize l; h * w * lyDim l 3
  else if op = 9 then lyDim l 0 * lyDim l 2 * 2
  else lyInputs l

/-- K and N of a weight matrix. -/
def lyKN (l : Bytes) : Nat × Nat :=
  if lyOp l = 1 then (lyDim l 1, lyDim l 2) else let g := geomOf l; (g.kh * g.kw * lyDim l 2, lyDim l 3)

/-- The byte ranges of the weights table that a layer reads: (offset, length). -/
def lyRanges (l : Bytes) : List (Nat × Nat) :=
  let w := leAt l 0x28 8
  let b := leAt l 0x30 8
  let op := lyOp l
  if op = 1 ∨ op = 2 then
    let (k, n) := lyKN l
    (w, k * n * fmtBytes (leAt l 2 1)) :: (if lyFlag l 0 then [(b, 4 * n)] else [])
  else if op = 8 then [(w, 4 * lyDim l 1), (b, 4 * lyDim l 1)]
  else []

/-! ## Layers at work (R395, R396) -/

/-- A little-endian field of an array. -/
def arrLe (a : Array Byte) (off n : Nat) : Nat := leNat ((List.range n).map (fun k => a.getD (off + k) 0))

/-- A dot-product layer: its rows are functions of k (R391, R395). -/
def macLayer (l : Bytes) (wt : Array Byte) (rows : Nat) (a : Nat → Nat → Fp) : Array Fp :=
  let (kk, nn) := lyKN l
  let wf := leAt l 2 1
  let wb := fmtBytes wf
  let wo := leAt l 0x28 8
  let w := Array.ofFn (fun i : Fin (kk * nn) => widen wf (arrLe wt (wo + wb * i.val) wb))
  let bias := fun (n : Nat) => if lyFlag l 0 then (BitVec.ofNat 32 (arrLe wt (leAt l 0x30 8 + 4 * n) 4) : Fp) else 0
  Array.ofFn (fun i : Fin (rows * nn) =>
    let r := i.val / nn
    let n := i.val % nn
    (List.range kk).foldl (fun acc k => fpFma acc (a r k) (w.getD (k * nn + n) 0)) (bias n))

/-- GELU (R396). -/
def gelu (x : Fp) : Fp :=
  let u := fpMul (fpAdd (fpMul (fpMul (fpMul x x) x) 0x3D372713) x) 0x3F4C422A
  fpMul (fpMul x 0x3F000000) (fpAdd (fpTanh u) 0x3F800000)

/-- SILU (R396). -/
def silu (x : Fp) : Fp := fpDiv x (fpAdd (fpExp (fpNeg x)) 0x3F800000)

/-- SOFTMAX of a row (R396). -/
def softmaxRow (x : List Fp) : List Fp :=
  match x.find? fpIsNan with
  | some n => x.map (fun _ => fpAdd n n)
  | none =>
    let m := (x.drop 1).foldl fpMax (x.headD 0)
    let e := x.map (fun v => fpExp (fpSub v m))
    let s := fpSum e
    e.map (fun v => fpDiv v s)

/-- LAYERNORM of a row (R396). -/
def normRow (eps : Fp) (gamma beta : Nat → Fp) (x : List Fp) : List Fp :=
  let n := fpOfNat x.length
  let mu := fpDiv (fpSum x) n
  let d := x.map (fun v => fpSub v mu)
  let v := fpDiv (fpSum (d.map (fun t => fpMul t t))) n
  let r := fpRsqrt (fpAdd v eps)
  d.zipIdx.map (fun t => fpAdd (fpMul (fpMul t.1 r) (gamma t.2)) (beta t.2))

/-- Whether the first value ranks before the second in TOPK: NaN below −infinity, lower index on ties (R395). -/
def topBefore (a b : Fp × Nat) : Bool :=
  if fpIsNan a.1 then fpIsNan b.1 && decide (a.2 ≤ b.2)
  else if fpIsNan b.1 then true
  else fpLt b.1 a.1 || (fpEq a.1 b.1 && decide (a.2 ≤ b.2))

/-- TOPK of a row: pairs of index and value. -/
def topkRow (k : Nat) (x : List Fp) : List Fp :=
  ((sortBy topBefore x.zipIdx).take k).flatMap (fun p => [(BitVec.ofNat 32 p.2 : Fp), p.1])

/-- A MAC operand on load (R392): one stored in another format than the layer's is converted. -/
def onLoad (l : Bytes) (fmt : Nat) (v : Fp) : Fp :=
  let f := leAt l 1 1
  if fmt = f then v else widen f (toFmt f (lyFlag l 1) v)

/-- The FP32 results of a layer before dropout and conversion (R395, R396); `fmt` is the stored format of the first source. -/
def layerValues (l : Bytes) (wt : Array Byte) (fmt : Nat) (a b : Array Fp) : Array Fp :=
  let op := lyOp l
  let conv := onLoad l fmt
  let rows := fun (f : List Fp → List Fp) =>
    ((List.range (lyDim l 0)).flatMap (fun r => f ((List.range (lyDim l 1)).map (fun i => a.getD (r * lyDim l 1 + i) 0)))).toArray
  let wfp := fun (off n : Nat) => (BitVec.ofNat 32 (arrLe wt (leAt l off 8 + 4 * n) 4) : Fp)
  if op = 1 then
    let ac := a.map conv
    macLayer l wt (lyDim l 0) (fun r k => ac.getD (r * lyDim l 1 + k) 0)
  else if op = 2 then
    let ac := a.map conv
    let g := geomOf l
    let (_, w') := convSize l
    let (h', _) := convSize l
    let ci := lyDim l 2
    macLayer l wt (h' * w') (fun r k =>
      let c := k % ci
      let kx := k / ci % g.kw
      let ky := k / ci / g.kw
      let y : Int := (r / w' * g.sy + ky : Nat) - (g.py : Int)
      let x : Int := (r % w' * g.sx + kx : Nat) - (g.px : Int)
      if 0 ≤ y ∧ y < (lyDim l 0 : Int) ∧ 0 ≤ x ∧ x < (lyDim l 1 : Int) then ac.getD ((y.toNat * lyDim l 1 + x.toNat) * ci + c) 0 else 0)
  else if op = 3 then
    let sub := lyDim l 1
    Array.ofFn (fun i : Fin (lyDim l 0) =>
      let v := a.getD i.val 0
      if sub = 0 then fpAdd v (b.getD i.val 0) else if sub = 1 then fpMul v (b.getD i.val 0)
      else fpAdd (fpMul v (lyFp l 0x38)) (lyFp l 0x3C))
  else if op = 4 then a.map (fun v => if fpIsNan v || fpLt 0 v then v else 0)
  else if op = 5 then a.map gelu
  else if op = 6 then a.map silu
  else if op = 7 then rows softmaxRow
  else if op = 8 then rows (normRow (lyFp l 0x38) (wfp 0x28) (wfp 0x30))
  else rows (topkRow (lyDim l 2))

/-- A layer's stored output as codes of its OUT_FMT: dropout, then conversion (R392, R397). -/
def layerCodes (l : Bytes) (n ord : Nat) (k : DrawKey) (vals : Array Fp) : Array Nat :=
  let out := Array.ofFn (fun i : Fin vals.size =>
    let v := vals.getD i.val 0
    if lyFlag l 2 && k.yes 9 (leAt l 0x0A 2) ((ord * 256 + n) * 2 ^ 24 + i.val) then (0 : Fp) else v)
  out.map (fun v => if lyOp l = 9 then v.toNat else toFmt (lyOut l) (lyFlag l 1) v)

/-- Runs the layers from n on; `outs` holds the codes of the earlier ones. -/
def runLayers (p : Bytes) (wt : Array Byte) (ord : Nat) (k : DrawKey) (input : Array Fp) : Nat → Nat → Array (Array Nat) → Array (Array Nat)
  | 0, _, outs => outs
  | fuel + 1, n, outs =>
    let l := layerOf p n
    let src := fun (off : Nat) =>
      let v := leAt l off 2
      if v = 0xFFFF then input else (outs.getD v #[]).map (widen (lyOut (layerOf p v)))
    let fmt := if leAt l 6 2 = 0xFFFF then jpInFmt p else lyOut (layerOf p (leAt l 6 2))
    runLayers p wt ord k input fuel (n + 1) (outs.push (layerCodes l n ord k (layerValues l wt fmt (src 6) (src 8))))

/-- A unit through a program: the codes of every layer. -/
def runProgram (p : Bytes) (wt : Array Byte) (k : DrawKey) (ord : Nat) (bytes : Bytes) : Array (Array Nat) :=
  let f := jpInFmt p
  let w := fmtBytes f
  let input := ((chunks w bytes.length bytes).map (fun c => widen f (leNat c))).toArray
  runLayers p wt ord k input (jpLayers p) 0 #[]

/-! ## Verdicts (R405 to R408) -/

/-- What the last segment says of a unit: drop, NaN, class or score index, V. -/
structure Verdict3 where
  drop : Bool
  nan : Bool
  cls : Nat
  v : List Fp
  deriving DecidableEq, Repr

/-- R405 on the outputs of a unit. -/
def verdictOf (body p : Bytes) (outs : Array (Array Nat)) : Verdict3 :=
  let n := jpVerdict p
  let score := leAt body 0x0A 1 == 0
  let ix := leAt body 0x0C 4
  if n = 0xFFFF then ⟨false, false, if score then ix else 0, []⟩
  else
    let l := layerOf p n
    let all := ((outs.getD n #[]).map (widen (lyOut l))).toList
    let top := lyOp l == 9
    let v := if top then (chunks 2 all.length all).map (fun c => c.getD 1 0) else all
    if score then
      let x := v.getD ix 0
      let t := imFp body 0x10
      let keep := if bitOf (leAt body 0x09 1) 4 then fpLe x t else fpLe t x
      ⟨!keep, fpIsNan x, ix, v⟩
    else
      let nan := v.any fpIsNan
      let best := (v.zipIdx.foldl (fun (m : Option (Fp × Nat)) x => match m with
        | none => some x
        | some y => if fpLt y.1 x.1 then some x else some y) none).map (·.2)
      let cls := if top then (all.headD 0).toNat else best.getD 0
      ⟨nan || (decide (cls < 64) && bitOf (leAt body 0x14 8) cls), nan, cls, v⟩

/-- The sidecar of a unit (R407). -/
def judgeSide (body : Bytes) (ord : Nat) (d : Verdict3) : Bytes :=
  let n := leAt body 0x1C 1
  natLe 2 ord ++ natLe 1 (b2n d.drop + 2 * b2n d.nan) ++ natLe 1 n ++ natLe 4 d.cls ++ (List.range n).flatMap (fun i => natLe 4 (d.v.getD i 0).toNat)

/-- The bytes of a layer's output. -/
def layerBytes (p : Bytes) (outs : Array (Array Nat)) (n : Nat) : Bytes :=
  (outs.getD n #[]).toList.flatMap (natLe (fmtBytes (lyOut (layerOf p n))))

/-- The last segment of a graph emits (R409). -/
def State.lastEmits (s : State) (g : Nat) : Bool := match s.image.committed with
  | some c => (c.bound g).any (fun x => x.1.engine == 0x0501 && leAt x.2.body 0x1D 1 == 0 && bitOf (leAt x.2.body 0x09 1) 2)
  | none => false

/-- What becomes of one unit after its program (R405 to R409). -/
def State.judgeOut (bay : Nat) (body p : Bytes) (outs : Array (Array Nat)) (h : HeatUnit) (g : Nat) (s : State) : State :=
  let t := h.data.tag
  let act := fun (i : Nat) => bitOf (leAt body 0x09 1) i
  let emit := layerBytes p outs (jpEmit p)
  let orig := h.orig.getD h.data
  if leAt body 0x1D 1 = 1 then
    match s.unitTenon bay t true none with
    | none => s
    | some n =>
      let s := if s.lastEmits g then s else s.putUnit bay n ⟨orig.bytes, { orig.tag with role := 5 }, []⟩
      s.putUnit bay n ⟨emit, { t with role := 4 }, []⟩
  else
    let d := verdictOf body p outs
    if d.drop && act 0 then
      let s := s.count 2 bay 8 1
      let s := if d.nan then s.count 2 bay 9 1 else s
      s.sendReject bay stOk { t with role := if act 3 then 3 else 0 }
    else
      let side := leAt body 0x0B 1
      let tag := { orig.tag with role := 0, sides := orig.tag.sides + b2n (act 1) }
      let s := s.sendUnit bay ⟨if act 2 then emit else orig.bytes, tag, []⟩ false (if act 1 then some side else none)
      if act 1 then s.putUnit bay side ⟨judgeSide body t.ordinal d, { tag with role := 2, sides := 0 }, []⟩ else s

/-! ## The heat copy (R402 to R404) -/

/-- Bytes that a weights table's region takes. -/
def heatBytes (size : Nat) : Nat := ceilDiv (ceilDiv size 65536 * 65600) 4096 * 4096

/-- The weights tables that bound judge programs name, ascending, from profiles and pinned programs (R402). -/
def heatTables (binds : List (BayBind × Bytes)) (pinned : Tbl Bytes) : List Nat :=
  let ids := binds.filterMap (fun x => if x.1.engine = 0x0501 then (tblGet? pinned (leAt x.2 0 4)).map jpWeights else none)
  sortBy (fun (a b : Nat) => decide (a ≤ b)) (ids.filter (· != 0)).eraseDups

/-- Profiles of all bindings of a configuration. -/
def ImgCfg.allBound (c : ImgCfg) : List (BayBind × Bytes) :=
  c.binds.filterMap (fun b => (c.profiles.find? (fun p => p.num == b.profile)).map (fun p => (b, p.body)))

/-- The size of a table of the committed image. -/
def State.tableSize (s : State) (id : Nat) : Nat := ((s.tableRef id).map (·.size)).getD 0

/-- The address of a chunk's record (R402). -/
def State.recordAddr (s : State) (id c : Nat) : Nat :=
  let ts := match s.image.committed with
    | some cf => heatTables cf.allBound s.image.pinned
    | none => []
  s.heat.base + (ts.takeWhile (· != id)).foldl (fun n t => n + heatBytes (s.tableSize t)) 0 + 65600 * c

/-- The port of a chunk (R403). -/
def State.chunkPort (_s : State) (ports c : Nat) : Nat :=
  let ps := (List.range 8).filter (fun n => hasBit ports n)
  ps.getD (c % max 1 ps.length) 0

/-- The IV of a record (R403). -/
def heatIv (id c gen : Nat) : Bytes := natLe 4 id ++ natLe 4 c ++ natLe 4 gen

/-- Why a heat stops: the status and DETAIL for its streams, or the response of a table read. -/
inductive HeatStop where
  | code (c detail : Nat)
  | resp (addr : Nat) (r : Resp)
  deriving DecidableEq, Repr

/-- The status of a heat-copy access that failed (R404). -/
def heatStop (r : Resp) : HeatStop := match r with
  | .poison => .code stPoison 0
  | _ => .code stAccessDenied 0

/-- The key and generation of the next seal (R403). Where the generation would wrap a new heat key is drawn first, and every record
stops being valid (R500). -/
def State.sealKey (key : Bytes) (s : State) : Option (Bytes × Nat) × State :=
  if s.sec.sealGen < 2 ^ 32 then (some (key, s.sec.sealGen), s)
  else match s.drbgGen 32 with
    | (some k, s) => (some (k, 0), { s with sec := { s.sec with heatKey := some k, sealGen := 0, heatValid := [] } })
    | (none, s) => (none, s)

/-- One chunk for a heat: from its record, or from the table and then sealed (R403, R404). -/
def State.heatChunk (port : Nat) (key : Bytes) (id c : Nat) (s : State) : Except HeatStop Bytes × State :=
  let n := min 65536 (s.tableSize id - 65536 * c)
  let addr := s.recordAddr id c
  let slot := id * 2 ^ 32 + c
  let drop := fun (s : State) => ({ s with sec := { s.sec with heatValid := tblDel s.sec.heatValid slot } } : State)
  match tblGet? s.sec.heatValid slot with
  | some gen => match s.sysRead (.steward port) addr 65600 with
    | (.okay, bs, s) => match gcmDec key (heatIv id c gen) [] (bytesAt bs 0 n) (bytesAt bs n 16) with
      | some pt => (.ok pt, s)
      | none => (.error (.code stAuthFail id), drop s)
    | (r, _, s) => (.error (heatStop r), drop s)
  | none =>
    let m := s.image.committed.bind (fun cf => cf.tableMap.find? (fun m => m.id == id))
    let at_ := (m.map (·.dataAddr)).getD 0 + 65536 * c
    match s.sysRead (.steward port) at_ n with
    | (.okay, bs, s) =>
      if some (sha256 bs) ≠ m.bind (fun m => m.chunks[c]?) then (.error (.code stAuthFail id), s)
      else
        match s.sealKey key with
        | (none, s) => (.error (.code stCrypto 0), s)
        | (some (key, gen), s) =>
          let (ct, tag) := gcmEnc key (heatIv id c gen) [] bs
          let s : State := { s with sec := { s.sec with sealGen := gen + 1 } }
          match s.sysWrite (.steward port) addr (bytesAt (ct ++ tag) 0 65600) with
          | (.okay, s) => (.ok bs, { s with sec := { s.sec with heatValid := tblSet s.sec.heatValid slot gen } })
          | (r, s) => (.error (heatStop r), s)
    | (r, _, s) => (.error (.resp at_ r), s)

/-- The weight banks of a judge slot: those after its pinned tables (R399). -/
def State.weightBanks (s : State) (k slot : Nat) (body : Bytes) : List Nat :=
  ((s.slotBanks k slot).drop (ceilDiv (s.pinWords k slot) 4096)).take (leAt body 6 1)

/-- Chunk number `j` of a heat comes over one of the weight routes and into one half of the weight banks (R401): the routes, and the halves,
take the chunks in turn (log 141). -/
def State.putWeights (k slot : Nat) (body : Bytes) (j : Nat) (bs : Bytes) (s : State) : State :=
  let m := leAt body 8 1 + j % max 1 (leAt body 7 1)
  let s := match s.image.committed.bind (fun c => c.routes.find? (fun r => r.mortiseBay == k && r.mortisePort == m)) with
    | some r => s.count 3 r.route 0 (ceilDiv bs.length 32)
    | none => s
  let banks := s.weightBanks k slot body
  let n := ceilDiv bs.length 64
  s.writeRuns (bankRuns banks (n / 4096 + 2) (j % 2 * (2048 * banks.length)) n) ((chunks 64 bs.length bs).map wordOf)

/-- The chunks of a heat in the order of its layers, laid into the weights table's bytes; `j` counts them. -/
def State.heatChunks (g : Graph) (k slot : Nat) (body : Bytes) (id : Nat) : Nat → List Nat → Array Byte → State →
    Except HeatStop (Array Byte) × State
  | _, [], wt, s => (.ok wt, s)
  | j, c :: t, wt, s => match s.heatChunk (s.chunkPort g.ports c) (s.sec.heatKey.getD []) id c with
    | (.ok bs, s) => (s.putWeights k slot body j bs).heatChunks g k slot body id (j + 1) t
        (bs.zipIdx.foldl (fun a p => a.setIfInBounds (65536 * c + p.2) p.1) wt)
    | (.error e, s) => (.error e, s)

/-- The chunks that a heat streams: layer by layer, those in which the layer's weights and biases lie, ascending (R401). -/
def neededChunks (p : Bytes) (size : Nat) : List Nat :=
  (List.range (jpLayers p)).flatMap (fun n =>
    let rs := lyRanges (layerOf p n)
    (List.range (ceilDiv size 65536)).filter (fun c => rs.any (fun r => decide (r.1 < 65536 * (c + 1)) && decide (65536 * c < r.1 + r.2))))

/-- The heat key; after a zeroisation a new one is drawn (R403). -/
def State.heatKeyOf (s : State) : Option Bytes × State := match s.sec.heatKey with
  | some k => (some k, s)
  | none => match s.drbgGen 32 with
    | (some k, s) => (some k, { s with sec := { s.sec with heatKey := some k } })
    | (none, s) => (none, s)

/-- The weights of a heat (R401 to R404). -/
def State.heatWeights (g : Graph) (k slot : Nat) (body p : Bytes) (s : State) : Except HeatStop (Array Byte) × State :=
  let id := jpWeights p
  let cs := if id = 0 then [] else neededChunks p (s.tableSize id)
  if cs.isEmpty then (.ok #[], s)
  else match s.heatKeyOf with
    | (none, s) => (.error (.code stCrypto 0), s)
    | (some _, s) => s.heatChunks g k slot body id 0 cs (Array.replicate (s.tableSize id) 0)

/-! ## Heats (R400, R401) -/

/-- Whether unit a runs before unit b, both waiting in arrival order (R235). -/
def State.heatBefore (s : State) (best : Bool) (a b : HeatUnit) : Bool :=
  let due := fun (h : HeatUnit) => match s.tagStream h.data.tag with
    | some (_, _, x) => s.unitDue x h.data.tag.sampleIx
    | none => (none, h.data.tag.stream)
  dueBefore best (due a) (due b)

/-- Units of a bay that a heat may take: their streams run. -/
def State.heatReady (s : State) (bay : Nat) : List HeatUnit :=
  sortBy (s.heatBefore (s.bay bay).bestTurn) ((s.bay bay).heat.filter (fun h => match s.tagStream h.data.tag with
    | some (_, _, x) => x.st != .halted
    | none => false))

/-- The graph that FLUSH beats of a frame-wide index pass through: that of an earlier stage for which a hurdle waits (R245), else of the
open stream. -/
def State.flushGraph (s : State) (gx : Nat) : Option Graph :=
  match s.openStreams.findSome? (fun p => if p.2.2.hurdle then p.2.2.before.bind (fun b => if b.1 = gx then some b.2 else none) else none) with
  | some n => s.graph? n
  | none => (s.byGidx gx).map (fun p => s.graphOf p.2.2)

/-- A heat of a graph is due (R400): MICRO_BATCH units wait, the oldest has waited MB_WAIT_US, or a FLUSH beat of a stream of the graph has
arrived. -/
def State.heatDue (s : State) (bay g : Nat) (body : Bytes) (us : List HeatUnit) : Bool :=
  !us.isEmpty && (decide (leAt body 4 2 ≤ us.length) || us.any (fun h => decide (h.time + 1000 * leAt body 0x1E 2 ≤ s.now)) ||
    (s.bay bay).flushed.any (fun k => (s.flushGraph (k / 8)).any (fun y => y.num == g)))

/-- The units that wait for a heat of a graph, among some. -/
def State.unitsOf (s : State) (g : Nat) (us : List HeatUnit) : List HeatUnit := us.filter (fun h => match s.tagStream h.data.tag with
  | some (_, _, y) => y.graph == g
  | none => false)

/-- The graph whose heat starts: the first that is due, in the order of the units (R235, R400), with its profile and units. -/
def State.heatOf (s : State) (k : Nat) (us : List HeatUnit) : Option (Graph × Bytes × List HeatUnit) :=
  let gs := (us.filterMap (fun h => (s.tagStream h.data.tag).map (fun p => p.2.2.graph))).eraseDups
  gs.findSome? (fun g => match s.bayProfile g k 0x0501, s.graph? g with
    | some body, some y =>
      let mine := s.unitsOf g us
      if s.heatDue k g body mine then some (y, body, mine.take (leAt body 4 2)) else none
    | _, _ => none)

/-- The streams of some units. -/
def State.heatStreams (s : State) (us : List HeatUnit) : List (Nat × Nat) :=
  ((us.filterMap (fun h => s.tagStream h.data.tag)).map (fun p => (p.1, p.2.1))).eraseDups

/-- A heat stops: every stream with a unit in it halts (R106, R404); the units wait. -/
def State.heatFails (us : List HeatUnit) (e : HeatStop) (s : State) : State :=
  (s.forEach (s.heatStreams us) (fun p s => match e with
    | .code c d => s.streamError p.1 p.2 c d
    | .resp a r => s.streamResp p.1 p.2 a false r)).relays

/-- The input of a program: the unit, or the output of the segment before. DESIGN CHOICE (log 142): by R409 that output and the original
are together the input; the program takes both, one after the other, where its IN_COUNT covers both, and the output alone where it covers
no more. None where it covers neither (log 65). -/
def heatInput (p : Bytes) (h : HeatUnit) : Option Bytes :=
  let n := jpInCount p * fmtBytes (jpInFmt p)
  let pair := h.data.bytes ++ (h.orig.map (·.bytes)).getD []
  if h.data.bytes.length = n then some h.data.bytes else if h.orig.isSome && pair.length == n then some pair else none

/-- One unit of a heat. A word of the activation banks that reads back as uncorrectable rejects its sample (R59, R259), and so does a
length other than that of the program's input (log 65). -/
def State.heatUnit (bay : Nat) (body p : Bytes) (wt : Array Byte) (h : HeatUnit) (s : State) : State :=
  match s.tagStream h.data.tag with
  | none => s
  | some (f, i, x) =>
    let t := h.data.tag
    if s.runsBad h.data.words || (match h.orig with
        | some o => s.runsBad o.words
        | none => false) then s.rejectAt f i bay t stEcc 0
    else match heatInput p h with
      | none => s.rejectAt f i bay t stOverBound 0
      | some bs => s.judgeOut bay body p (runProgram p wt (x.drawKey t.sampleIx) t.ordinal bs) h x.graph

/-- A heat over chosen units. -/
def State.runHeat (bay slot : Nat) (body p : Bytes) (g : Graph) (us : List HeatUnit) (s : State) : State :=
  if s.sec.cryptoError && jpWeights p != 0 then s.heatFails us (.code stCrypto 0)
  else match s.heatWeights g bay slot body p with
    | (.error e, s) => s.heatFails us e
    | (.ok wt, s) =>
      let s := s.modBay bay (fun b => { b with heat := b.heat.filter (fun h => !us.contains h), taken := b.taken + 1 })
      s.forEach us (State.heatUnit bay body p wt)

/-- Units whose dispatch is no longer in flight leave the bay. -/
def State.dropStale (bay : Nat) (s : State) : State :=
  s.modBay bay (fun b => { b with heat := b.heat.filter (fun h => (s.tagStream h.data.tag).isSome) })

/-- FLUSH beats that wait in a bay for its work to be done go on (R60). DESIGN CHOICE (log 108): the manual does not say when a bay
with several input routes passes a FLUSH on; here it waits for one on every input route of the graph and for its own work of the
stream, and then sends one on every route of the graph that leaves it. -/
def State.passFlush (bay : Nat) (s : State) : State :=
  let b := s.bay bay
  s.forEach (b.flushed.map (· / 8)).eraseDups (fun gx s => match s.flushGraph gx with
    | none => s.modBay bay (fun b => { b with flushed := b.flushed.filter (fun k => k / 8 != gx) })
    | some g =>
      let ins : List RouteCfg := match s.image.committed with
        | some c => c.routes.filter (fun r => r.mortiseBay == bay && hasBit g.bays bay && hasBit g.bays r.tenonBay)
        | none => []
      let got := fun (m : Nat) => (s.bay bay).flushed.contains (gx * 8 + m)
      let work := (s.bay bay).heat.any (fun h => h.data.tag.stream == gx) || (s.bay bay).held.any (fun h => h.2.tag.stream == gx)
      if ins.all (fun r => got r.mortisePort) && !work then
        let s := s.forEach (s.routesFrom g bay) (fun r s => s.putBeats bay r.tenonPort [flushBeat gx])
        s.modBay bay (fun b => { b with flushed := b.flushed.filter (fun k => k / 8 != gx) })
      else s)

/-- The engine reaches its weight banks and a bank for activations (R260, R399). -/
def State.heatBanks (s : State) (k slot : Nat) (body : Bytes) : Bool :=
  (s.weightBanks k slot body).all (fun b => s.reaches b 1 slot) &&
  (s.slotBanks k slot).any (fun b => !(s.weightBanks k slot body).contains b && s.reaches b 1 slot)

/-- JUDGE_HEAT_START (R400, R401). A heat waits for a self-test (R508) and for its banks (R260). -/
def execJudgeHeatStart (bay : BitVec 6) (v : MemView) (s : State) : Out :=
  let s := s.seeMem v
  s.turn fun s =>
  let k := bay.toNat
  if s.frame.st != .running || !s.bayRuns k || s.sec.selftestBusy then .next s
  else
    let s := s.dropStale k
    match s.heatOf k (s.heatReady k) with
    | none => .next s
    | some (g, body, us) => match (s.slotsOf g.num k).head? with
      | none => .next s
      | some slot => if !s.heatBanks k slot body then .next s else match s.pinnedTable k slot (leAt body 0 4) with
        | (some p, s) => .next ((s.runHeat k slot body p g us).passFlush k)
        | (none, s) => .next s

/-! ## Arrival -/

/-- A unit reaches a judge bay (R400, R409): it waits for a heat, at a place of the activation banks. An original waits for the output it
goes with. -/
def State.judgeUnit (bay mortise : Nat) (u : DataUnit) (s : State) : State := match s.tagStream u.tag with
  | none => s
  | some (_, _, x) =>
    let t := u.tag
    let same := fun (h : Nat × DataUnit) => h.2.tag.stream == t.stream && h.2.tag.sampleIx == t.sampleIx && h.2.tag.gen == t.gen &&
      h.2.tag.ordinal == t.ordinal
    if (s.bayProfile x.graph bay 0x0501).isNone then s.sendUnit bay u true none
    else if t.role = 0 then s.modBay bay (fun b => { b with heat := b.heat ++ [⟨u, none, s.now, s.heatPlace bay⟩] })
    else if t.role = 5 then s.holdUnit bay mortise u
    else if t.role = 4 then
      let o := ((s.bay bay).held.find? (fun h => same h && h.2.tag.role == 5)).map (·.2)
      s.modBay bay (fun b => { b with
        held := b.held.filter (fun h => !(same h && h.2.tag.role == 5)), heat := b.heat ++ [⟨u, some (o.getD u), s.now, s.heatPlace bay⟩] })
    else s.sendUnit bay u true none

end Sys2Proof.Machine
end

