-- ==== Sys2Proof/Machine/Scarf.lean ====
section
/-! DEFINITION. The scarf bridges: flits, credits, link-level retry (R71, R75 to R83), and the loss of boundaries (R84, R85,
R154). -/

namespace Sys2Proof.Machine

/-! ## Flits (R75) -/

/-- The first 480 bits of a flit with the CRC over them. -/
def sealFlit (v : Nat) : BitVec 512 := BitVec.ofNat 512 (v % 2 ^ 480 + (crc32c (natLe 60 v)).toNat * 2 ^ 480)

/-- A BEAT flit. ACK_SEQ is always meaningful here: it starts at 255, the number before the first (log 41). -/
def beatFlit (seq ack route creditRoute creditCount : Nat) (b : Beat) : BitVec 512 :=
  sealFlit (1 + seq * 2 ^ 2 + ack * 2 ^ 10 + 2 ^ 18 + route * 2 ^ 19 + b.mark.toNat * 2 ^ 28 + creditRoute * 2 ^ 32 + creditCount * 2 ^ 41 +
    b.data.toNat * 2 ^ 64 + b.check.toNat * 2 ^ 320)

/-- A NAK flit (R81). -/
def nakFlit (ack : Nat) : BitVec 512 := sealFlit (3 + ack * 2 ^ 10 + 2 ^ 18)

/-- A SERVICE flit: lane 0 carries the message of a control or management bay (R71). -/
def serviceFlit (seq ack creditRoute creditCount : Nat) (message : BitVec 288) : BitVec 512 :=
  sealFlit (2 + seq * 2 ^ 2 + ack * 2 ^ 10 + 2 ^ 18 + creditRoute * 2 ^ 32 + creditCount * 2 ^ 41 + message.toNat * 2 ^ 64)

/-- An IDLE flit: an acknowledgement and credits alone (R75). -/
def idleFlit (ack creditRoute creditCount : Nat) : BitVec 512 :=
  sealFlit (ack * 2 ^ 10 + 2 ^ 18 + creditRoute * 2 ^ 32 + creditCount * 2 ^ 41)

/-- The route whose credits the next flit returns: that of the oldest credit to be returned (R78). -/
def LaneEnd.creditRoute (e : LaneEnd) : Nat := (e.returns.head?.map (·.1)).getD 0

/-- The credits of that route to be returned. -/
def LaneEnd.owed (e : LaneEnd) : List (Nat × Nat) := e.returns.filter (fun p => p.1 == e.creditRoute)

/-- CREDIT_COUNT of the next flit: at most 63 (R75). -/
def LaneEnd.creditCount (e : LaneEnd) : Nat := min 63 e.owed.length

/-- A flit has gone out: the credits it returns are no longer owed. -/
def LaneEnd.sent (flit : BitVec 512) (e : LaneEnd) : LaneEnd :=
  { e with tx := [flit], returns := e.returns.filter (fun p => p.1 != e.creditRoute) ++ e.owed.drop e.creditCount,
           spaced := min 15 (e.spaced + 1) }

/-- A numbered flit has gone out: it is kept for a replay (R82). -/
def LaneEnd.sentKept (flit : BitVec 512) (now : Nat) (e : LaneEnd) : LaneEnd :=
  { e.sent flit with nextSeq := (e.nextSeq + 1) % 256, replay := e.replay ++ [⟨e.nextSeq, flit, now⟩] }

/-- The bridge takes the route's beat and sends it, if the route has a credit there and fewer than 64 flits of the lane are
unacknowledged (R78, R82). -/
def State.sendBeat (bn : Nat) (side : Bool) (ln r : Nat) (s : State) : State :=
  match s.crossingAt bn side ln r with
  | none => s
  | some (j, _) =>
    let y := s.route r
    let e := s.laneEnd bn side ln
    match (y.link j).beat, y.credits.getD j 0 with
    | some beat, c + 1 =>
      if !s.boundaryUp bn || 64 ≤ e.replay.length then s else
        let e' := e.sentKept (beatFlit e.nextSeq e.rxGood r e.creditRoute e.creditCount beat) s.now
        let s := s.setRoute r { y with credits := y.credits.set j c }
        ((s.setLaneEnd bn side ln { e' with tags := e.tags ++ [(e.nextSeq, beat.tag)] }).count 7 bn 0 1).acceptLink r j
    | _, _ => s

/-- A service message goes out on lane 0, at most one flit in 16 there, if fewer than 64 flits are unacknowledged (R71, R82). -/
def State.sendService (bn : Nat) (side : Bool) (ln : Nat) (message : BitVec 288) (s : State) : State :=
  let e := s.laneEnd bn side ln
  if !s.boundaryUp bn || ln != 0 || 64 ≤ e.replay.length || e.spaced < 15 then s
  else s.setLaneEnd bn side ln
    { e.sentKept (serviceFlit e.nextSeq e.rxGood e.creditRoute e.creditCount message) s.now with spaced := 0 }

/-- An IDLE flit goes out (R75, R78): it has no number and is not kept. DESIGN CHOICE (log 136): the manual does not say how the credits
of an IDLE flit that arrives with a bad CRC come back; here they are lost. -/
def State.sendIdle (bn : Nat) (side : Bool) (ln : Nat) (s : State) : State :=
  let e := s.laneEnd bn side ln
  if !s.boundaryUp bn then s else s.setLaneEnd bn side ln (e.sent (idleFlit e.rxGood e.creditRoute e.creditCount))

/-- SCARF_FLIT_SEND (R71, R75, R78, R82). Every flit carries what the receiver next to its sender has to acknowledge and return. -/
def execScarfFlitSend (b : BitVec 2) (side : Bool) (lane : BitVec 3) (what : FlitKind) (s : State) : Out :=
  match what with
  | .beat route => .next (s.sendBeat b.toNat side lane.toNat route.toNat)
  | .service m => .next (s.sendService b.toNat side lane.toNat m)
  | .idle => .next (s.sendIdle b.toNat side lane.toNat)

/-- Flits up to ACK_SEQ are acknowledged (R82). -/
def LaneEnd.acked (e : LaneEnd) (ack : Nat) : LaneEnd :=
  if e.replay.any (fun x => x.seq == ack) then
    let rest := (e.replay.dropWhile (fun x => x.seq != ack)).drop 1
    { e with replay := rest, fails := 0 }
  else e

/-- Credits come back to the sender of a route (R78), never above what the image grants. -/
def State.creditBack (b : Nat) (side : Bool) (lane route n : Nat) (s : State) : State := match s.crossingAt b side lane route with
  | some (j, x) =>
    let y := s.route route
    s.setRoute route { y with credits := y.credits.set j (min x.credits (y.credits.getD j 0 + n)) }
  | none => s

/-- Flits since the latest SERVICE flit once every unacknowledged flit has been sent again (R71, R82). -/
def LaneEnd.respaced (e : LaneEnd) : Nat := e.replay.foldl (fun n f => if flitType f.flit = 2 then 0 else min 15 (n + 1)) e.spaced

/-- A failure of the oldest unacknowledged flit: the eighth in a row takes the boundary down (R84); otherwise every
unacknowledged flit is sent again in order, unchanged (R82, R83). -/
def State.resend (b : Nat) (side : Bool) (lane : Nat) (s : State) : State :=
  let e := s.laneEnd b side lane
  match e.replay with
  | [] => s
  | f :: _ =>
    let n := if e.failSeq = f.seq then e.fails + 1 else 1
    let s := (s.setLaneEnd b side lane { e with
      failSeq := f.seq, fails := n, tx := e.replay.map (·.flit), replay := e.replay.map (fun x => { x with at_ := s.now }),
      spaced := e.respaced }).count 7 b 1 1
    if 8 ≤ n then s.boundariesDown [b] else s

/-- A NAK reaches a sender (R82). -/
def State.nakReceived (b : Nat) (side : Bool) (lane ack : Nat) (s : State) : State :=
  (s.setLaneEnd b side lane ((s.laneEnd b side lane).acked ack)).resend b side lane

/-- SCARF_NAK_RECEIVE (R82, R84). -/
def execScarfNakReceive (b : BitVec 2) (side : Bool) (lane : BitVec 3) (ackSeq : BitVec 8) (s : State) : Out :=
  if !s.boundaryUp b.toNat then .next s else .next (s.nakReceived b.toNat side lane.toNat ackSeq.toNat)

/-- SCARF_REPLAY_TIMEOUT (R82): no acknowledgement 1 µs after a flit was sent. -/
def execScarfReplayTimeout (b : BitVec 2) (side : Bool) (lane : BitVec 3) (s : State) : Out :=
  match (s.laneEnd b.toNat side lane.toNat).replay with
  | f :: _ => if s.boundaryUp b.toNat && decide (f.at_ + 1000 ≤ s.now) then .next (s.resend b.toNat side lane.toNat) else .next s
  | [] => .next s

/-- What a good flit carries for the sender next to its receiver (R75): an acknowledgement and credits. -/
def State.flitNews (b : Nat) (side : Bool) (lane : Nat) (f : BitVec 512) (s : State) : State :=
  let s := if flitAckValid f then s.setLaneEnd b side lane ((s.laneEnd b side lane).acked (flitAck f)) else s
  s.creditBack b side lane (fld f.toNat 32 9) (fld f.toNat 41 6)

/-- A flit is discarded; the first one of a run is answered with a NAK (R81). -/
def State.flitBad (b : Nat) (side : Bool) (lane : Nat) (s : State) : State :=
  let e := s.laneEnd b side lane
  if e.discarding then s
  else (s.setLaneEnd b side lane { e with discarding := true, tx := [nakFlit e.rxGood], spaced := min 15 (e.spaced + 1) }).count 7 b 2 1

/-- The beat of a BEAT flit, with the tag its sender holds beside it (log 12). -/
def State.flitBeat (b : Nat) (side : Bool) (lane : Nat) (f : BitVec 512) (s : State) : Option Beat :=
  let e := s.laneEnd b (!side) lane
  (e.tags.find? (fun p => p.1 == flitSeq f)).map (fun p =>
    ⟨BitVec.ofNat 256 (f.toNat / 2 ^ 64), BitVec.ofNat 32 (f.toNat / 2 ^ 320), BitVec.ofNat 4 (f.toNat / 2 ^ 28), p.2⟩)

/-- SCARF_FLIT_RECEIVE (R81): the end on `side` of a lane receives a flit. Service flits keep the sequence; what they
carry takes effect in its own command (R71; log 42); one on a lane other than 0 is never sent and only keeps the sequence. -/
def execScarfFlitReceive (b : BitVec 2) (side : Bool) (lane : BitVec 3) (flit : BitVec 512) (s : State) : Out :=
  let bn := b.toNat
  let ln := lane.toNat
  let e := s.laneEnd bn side ln
  if !s.boundaryUp bn then .next s
  else if !flitCrcGood flit then .next (s.flitBad bn side ln)
  else if flitType flit = 0 then .next (s.flitNews bn side ln flit)
  else if flitType flit = 3 then .next (s.nakReceived bn side ln (flitAck flit))
  else if flitSeq flit ≠ (e.rxGood + 1) % 256 then .next (s.flitBad bn side ln)
  else
    let beat := s.flitBeat bn side ln flit
    let far := s.laneEnd bn (!side) ln
    let s := s.setLaneEnd bn (!side) ln { far with tags := far.tags.filter (fun p => p.1 != flitSeq flit) }
    let s := s.setLaneEnd bn side ln { s.laneEnd bn side ln with rxGood := flitSeq flit, discarding := false }
    let s := s.flitNews bn side ln flit
    let r := fld flit.toNat 19 9
    if flitType flit = 2 then .next (if ln = 0 then s.count 7 bn 4 1 else s)
    else match beat, s.crossingAt bn (!side) ln r with
      | some beat, some (j, x) =>
        let e := s.laneEnd bn side ln
        .next ((s.setLaneEnd bn side ln { e with slots := e.slots ++ [(r, beat)] }).driveLink r (j + 1) x)
      | _, _ => .next s

/-- LINK_UP_LOSS (R84). -/
def execLinkUpLoss (b : BitVec 2) (s : State) : Out :=
  let n := b.toNat
  if (boundariesOf s.caps.dies).length ≤ n || s.frame.st == .reset || !(s.boundary n).linkUp then .next s
  else .next ((s.setBoundary n { s.boundary n with linkUp := false }).boundariesDown [n])

/-- DIE_ISO_ASSERT (R85, R154, R172): dies 1 to CAP_DIES - 1; every boundary of the die goes down. While por_n is low the level is noted, and
the die is isolated from the start. -/
def execDieIsoAssert (die : BitVec 2) (s : State) : Out :=
  let d := die.toNat
  if d = 0 || s.caps.dies ≤ d || s.pins.dieIso.contains d then .next s
  else
    let p := { s.pins with dieIso := s.pins.dieIso ++ [d], dieIsoDone := s.pins.dieIsoDone ++ [d] }
    .next (({ s with pins := p } : State).boundariesDown ((s.boundariesAt d).filter s.boundaryUp))

end Sys2Proof.Machine
end

