-- ==== Sys2Proof/Machine/VideoHead.lean ====
section
/-! DEFINITION. What the frame itself reads of an elementary stream: access units that RAP[] names (R344, R345), parameter sets
and sequence headers (R346, R347, R354), options below them (R346). PRESUMED (log 8): the elements lie where ITU-T H.264,
ITU-T H.265 and the AV1 specification put them. -/

namespace Sys2Proof.Machine

/-! ## Bits in order, most significant first -/

/-- A reader of bits: its state is the bit position; none past the end. -/
abbrev BitRd := StateT Nat Option

/-- u(n). -/
def rdU (a : Array Byte) (n : Nat) : BitRd Nat := fun p =>
  if 8 * a.size < p + n then none
  else some ((List.range n).foldl (fun (v : Nat) k => 2 * v + b2n ((a.getD ((p + k) / 8) 0).getLsbD (7 - (p + k) % 8))) 0, p + n)

/-- u(1) as a flag. -/
def rdFlag (a : Array Byte) : BitRd Bool := do return (← rdU a 1) == 1

/-- Zeros before the next 1, at most `n`; the 1 is read. -/
def rdZeros (a : Array Byte) : Nat → BitRd Nat
  | 0 => fun _ => none
  | n + 1 => do if (← rdU a 1) = 1 then return 0 else return (← rdZeros a n) + 1

/-- ue(v). -/
def rdUe (a : Array Byte) : BitRd Nat := do
  let z ← rdZeros a 33
  return 2 ^ z - 1 + (← rdU a z)

/-- se(v). -/
def rdSe (a : Array Byte) : BitRd Int := do
  let k ← rdUe a
  return if k % 2 = 1 then ((k / 2 : Nat) : Int) + 1 else -((k / 2 : Nat) : Int)

/-- `n` times. -/
def rdMany {α : Type} (r : BitRd α) : Nat → BitRd (List α)
  | 0 => return []
  | n + 1 => do return (← r) :: (← rdMany r n)

/-- What is read when a flag is 1. -/
def rdIf (c : Bool) (r : BitRd Nat) (dflt : Nat) : BitRd Nat := if c then r else return dflt

/-- A syntax element is in its range, or the parameter set is damaged (R348). -/
def rdMust (c : Bool) : BitRd Unit := fun p => if c then some ((), p) else none

/-- ue(v) up to a bound. -/
def rdUeTo (a : Array Byte) (top : Nat) : BitRd Nat := do
  let v ← rdUe a
  rdMust (decide (v ≤ top))
  return v

/-! ## NAL units of a byte stream (Annex B of H.264 and of H.265) -/

/-- The start codes of a byte stream: where their zeros begin, and the byte after them. -/
def nalStarts : Nat → Nat → Bytes → List (Nat × Nat)
  | _, _, [] => []
  | p, z, b :: t => if b = 1 ∧ 2 ≤ z then (p - z, p + 1) :: nalStarts (p + 1) 0 t else nalStarts (p + 1) (if b = 0 then z + 1 else 0) t

/-- The bytes of a NAL unit without emulation prevention, up to the next start code; `z` zeros have gone before. -/
def nalBytes : Nat → Bytes → Bytes
  | _, [] => []
  | z, b :: t => if 2 ≤ z ∧ b.toNat ≤ 1 then [] else if 2 ≤ z ∧ b = 3 then nalBytes 0 t else b :: nalBytes (if b = 0 then z + 1 else 0) t

/-- The NAL unit at an offset, where zeros and a 1 begin it. -/
def nalAt (es : Bytes) (off : Nat) : Option Bytes :=
  let l := es.drop off
  let z := (l.takeWhile (· == 0)).length
  if 2 ≤ z ∧ leAt l z 1 = 1 then some (nalBytes 0 (l.drop (z + 1))) else none

/-- nal_unit_type of AVC (codec 1) and HEVC. -/
def nalType (codec b : Nat) : Nat := if codec = 1 then b % 32 else b / 2 % 64

/-- A NAL unit that carries a slice. -/
def nalVcl (codec t : Nat) : Bool := if codec = 1 then decide (1 ≤ t) && decide (t ≤ 5) else decide (t ≤ 31)

/-- After it the next NAL unit begins an access unit, unless it carries a further slice. -/
def nalEnds (codec t : Nat) : Bool := nalVcl codec t || (if codec = 1 then [10, 11, 12, 19].contains t else [36, 37, 38, 40, 45, 46, 47].contains t)

/-- A NAL unit that counts for access units: its types that are not specified, and layers above 0 (R346), are passed over. -/
def nalCounts (codec b0 b1 : Nat) : Bool :=
  if codec = 1 then decide (1 ≤ b0 % 32) && decide (b0 % 32 ≤ 23) else b0 % 2 == 0 && decide (b1 < 8) && decide (nalType 2 b0 < 48)

/-- An offset is where an access unit of an IDR (AVC) or IRAP (HEVC) picture begins (R344). -/
def nalRap (codec : Nat) (es : Bytes) (off : Nat) : Bool :=
  let a := es.toArray
  let byte := fun (k : Nat) => (a.getD k 0).toNat
  let ns := (nalStarts 0 0 es).filter (fun n => nalCounts codec (byte n.2) (byte (n.2 + 1)))
  let ty := fun (n : Nat × Nat) => nalType codec (byte n.2)
  let before := ns.filter (fun n => n.2 < off + 3)
  let here := ns.filter (fun n => off + 3 ≤ n.2)
  (match here.head? with
    | some n => decide (n.1 ≤ off)
    | none => false) &&
  (match before.getLast? with
    | some n => nalEnds codec (ty n)
    | none => true) &&
  (match here.find? (fun n => nalVcl codec (ty n)) with
    | some n => (if codec = 1 then ty n == 5 && decide (128 ≤ byte (n.2 + 1)) else decide (16 ≤ ty n) && decide (ty n ≤ 23) && decide (128 ≤ byte (n.2 + 2)))
    | none => false)

/-! ## Open bitstream units of AV1 -/

/-- leb128, at most 8 bytes: value and length. -/
def leb128 (a : Array Byte) : Nat → Nat → Option (Nat × Nat)
  | 0, _ => none
  | n + 1, p =>
    if a.size ≤ p then none
    else
      let b := (a.getD p 0).toNat
      if b < 128 then some (b, 1) else (leb128 a n (p + 1)).map (fun r => (b - 128 + 128 * r.1, r.2 + 1))

/-- The unit at an offset: type, first byte of its payload, the payload's length. -/
def obuAt (a : Array Byte) (off : Nat) : Option (Nat × Nat × Nat) :=
  let b := (a.getD off 0).toNat
  let p := off + 1 + b / 4 % 2
  if a.size ≤ off ∨ 128 ≤ b ∨ b / 2 % 2 = 0 then none
  else (leb128 a 8 p).bind (fun r => if a.size < p + r.2 + r.1 then none else some (b / 8 % 16, p + r.2, r.1))

/-- Whether the first frame after a sequence header is a shown key frame; `reduced` is reduced_still_picture_header. -/
def obuKey (a : Array Byte) (reduced : Bool) : Nat → Nat → Bool
  | 0, _ => false
  | fuel + 1, off => match obuAt a off with
    | none => false
    | some (t, p, n) =>
      if t = 3 ∨ t = 6 then reduced || (a.getD p 0).toNat / 16 == 1
      else if t = 2 then false else obuKey a reduced fuel (p + n)

/-- A temporal unit that starts with a sequence header and a shown key frame; its delimiter may stand before (R344). -/
def obuRap (es : Bytes) (off : Nat) : Bool :=
  let a := es.toArray
  let first := match obuAt a off with
    | some (2, p, n) => p + n
    | _ => off
  match obuAt a first with
  | some (1, p, n) => obuKey a ((a.getD p 0).toNat / 8 % 2 == 1) es.length (p + n)
  | _ => false

/-- An entry of RAP[] points where R344 wants it. -/
def rapGood (codec : Nat) (es : Bytes) (off : Nat) : Bool := if codec = 3 then obuRap es off else nalRap codec es off

/-- The stream is in the length-delimited format of AV1's Annex B: a temporal unit holds a frame unit, which holds a temporal
delimiter, each after its length. -/
def annexB (es : Bytes) : Bool :=
  let a := es.toArray
  ((leb128 a 8 0).bind (fun t => (leb128 a 8 t.2).bind (fun f => (leb128 a 8 (t.2 + f.2)).map (fun o =>
    decide (t.1 + t.2 ≤ a.size) && decide (f.1 + f.2 ≤ t.1) && decide (o.1 + o.2 ≤ f.1) && decide (1 ≤ o.1) &&
      (a.getD (t.2 + f.2 + o.2) 0).toNat / 8 == 2)))).getD false

/-- The length-delimited format of AV1, or units without a size field (R344, R346). -/
def obuNoSize (codec : Nat) (es : Bytes) : Bool := codec == 3 && (leAt es 0 1 / 2 % 2 == 0 || annexB es)

/-! ## Parameter sets -/

/-- What R346, R347, R354 and R355 want to know of a parameter set: whether R346 accepts it, its bit of CODECS (R366), the declared
size, the columns and rows cut off at the left, right, top and bottom of a frame that leaves, the bit depth, the pictures that decoding
needs to hold, the matrix code, full range. -/
structure VidHead where
  accepted : Bool
  codec : Nat
  w : Nat
  h : Nat
  cut : Nat × Nat × Nat × Nat
  depth : Nat
  dpb : Nat
  matrix : Nat
  full : Bool
  deriving DecidableEq, Repr

/-- Width of a frame that leaves (R355). -/
def VidHead.outW (p : VidHead) : Nat := p.w - p.cut.1 - p.cut.2.1

/-- Height of a frame that leaves (R355). -/
def VidHead.outH (p : VidHead) : Nat := p.h - p.cut.2.2.1 - p.cut.2.2.2

/-- A cropping rectangle in 4:2:0, which leaves some of the picture (R348): what it cuts off. -/
def rdCrop (a : Array Byte) (w h : Nat) : BitRd (Nat × Nat × Nat × Nat) := do
  let l ← rdUe a
  let r ← rdUe a
  let t ← rdUe a
  let b ← rdUe a
  rdMust (decide (2 * (l + r) < w) && decide (2 * (t + b) < h))
  return (2 * l, 2 * r, 2 * t, 2 * b)

/-- Colour description of a video usability section: matrix code and full range (E.1 of both standards). -/
def rdColour (a : Array Byte) : BitRd (Nat × Bool) := do
  if ← rdFlag a then
    if (← rdU a 8) = 255 then let _ ← rdU a 32
  if ← rdFlag a then let _ ← rdU a 1
  if ← rdFlag a then
    let _ ← rdU a 3
    let full ← rdFlag a
    if ← rdFlag a then
      let _ ← rdU a 16
      return (← rdU a 8, full)
    return (2, full)
  return (2, false)

/-- A scaling list of AVC: `n` elements from the last and the next scale. -/
def rdScale (a : Array Byte) : Nat → Int → Int → BitRd Unit
  | 0, _, _ => return ()
  | n + 1, last, next => do
    if next = 0 then rdScale a n last next
    else
      let d ← rdSe a
      rdMust (decide (-128 ≤ d) && decide (d ≤ 127))
      let x := (last + d + 256) % 256
      rdScale a n (if x = 0 then last else x) x

/-- The scaling lists from number k on. -/
def rdScales (a : Array Byte) : Nat → Nat → BitRd Unit
  | 0, _ => return ()
  | n + 1, k => do
    if ← rdFlag a then rdScale a (if k < 6 then 16 else 64) 8 8
    rdScales a n (k + 1)

/-- HRD parameters of AVC. -/
def rdAvcHrd (a : Array Byte) : BitRd Unit := do
  let n ← rdUeTo a 31
  let _ ← rdU a 8
  let _ ← rdMany (do let _ ← rdUe a; let _ ← rdUe a; rdU a 1) (n + 1)
  let _ ← rdU a 20

/-- MaxDpbMbs by level (table A-1 of H.264). -/
def avcDpbMbs (level : Nat) (oneB : Bool) : Nat :=
  if level ≤ 10 ∨ (level = 11 ∧ oneB) then 396 else if level = 11 then 900 else if level ≤ 20 then 2376 else if level = 21 then 4752
  else if level ≤ 30 then 8100 else if level = 31 then 18000 else if level = 32 then 20480 else if level ≤ 41 then 32768
  else if level = 42 then 34816 else if level = 50 then 110400 else 184320

/-- A sequence parameter set of AVC (7.3.2.1.1 and E.1.1 of H.264), header byte left out. -/
def rdAvc (a : Array Byte) : BitRd VidHead := do
  let prof ← rdU a 8
  let cons ← rdU a 8
  let level ← rdU a 8
  let _ ← rdUeTo a 31
  let high := [100, 110, 122, 244, 44, 83, 86, 118, 128, 138, 139, 134, 135].contains prof
  let chroma ← rdIf high (rdUeTo a 3) 1
  let _ ← rdIf (chroma == 3) (rdU a 1) 0
  let luma ← rdIf high (rdUeTo a 6) 0
  let cdepth ← rdIf high (rdUeTo a 6) 0
  let _ ← rdIf high (rdU a 1) 0
  if high then
    if ← rdFlag a then rdScales a (if chroma = 3 then 12 else 8) 0
  let _ ← rdUeTo a 12
  let poc ← rdUeTo a 2
  if poc = 0 then let _ ← rdUeTo a 12
  if poc = 1 then
    let _ ← rdU a 1
    let _ ← rdSe a
    let _ ← rdSe a
    let n ← rdUeTo a 255
    let _ ← rdMany (rdSe a) n
  let _ ← rdUeTo a 16
  let _ ← rdU a 1
  let wMbs := (← rdUe a) + 1
  let units := (← rdUe a) + 1
  let frames ← rdFlag a
  if !frames then let _ ← rdU a 1
  let _ ← rdU a 1
  let hMbs := if frames then units else 2 * units
  let cut ← (do if ← rdFlag a then rdCrop a (16 * wMbs) (16 * hMbs) else return (0, 0, 0, 0) : BitRd (Nat × Nat × Nat × Nat))
  let byLevel := if bitOf cons 4 && [44, 86, 100, 110, 122, 244].contains prof then 0
    else min 16 (avcDpbMbs level (bitOf cons 4) / max 1 (wMbs * hMbs))
  let ok := ([66, 77, 100].contains prof) && decide (level ≤ 52) && chroma == 1 && luma == 0 && cdepth == 0 && frames
  if !(← rdFlag a) then return ⟨ok, 0, 16 * wMbs, 16 * hMbs, cut, 8 + luma, byLevel, 2, false⟩
  let (m, full) ← rdColour a
  if ← rdFlag a then let _ ← rdMany (rdUe a) 2
  if ← rdFlag a then let _ ← rdU a 65
  let nal ← rdFlag a
  if nal then rdAvcHrd a
  let vcl ← rdFlag a
  if vcl then rdAvcHrd a
  if nal || vcl then let _ ← rdU a 1
  let _ ← rdU a 1
  if ← rdFlag a then
    let _ ← rdU a 1
    let l ← rdMany (rdUeTo a 16) 6
    return ⟨ok, 0, 16 * wMbs, 16 * hMbs, cut, 8 + luma, l.getD 5 0, m, full⟩
  return ⟨ok, 0, 16 * wMbs, 16 * hMbs, cut, 8 + luma, byLevel, m, full⟩

/-- Scaling list data of HEVC (7.3.4): sizes 0 to 3, six lists each, of the largest size two. -/
def rdHevcScale (a : Array Byte) : List Nat → BitRd Unit
  | [] => return ()
  | size :: t => do
    if ← rdFlag a then
      if 1 < size then let _ ← rdSe a
      let _ ← rdMany (rdSe a) (min 64 (2 ^ (4 + 2 * size)))
    else let _ ← rdUe a
    rdHevcScale a t

/-- Differences that count up or down from 0. -/
def pocSums (sign : Int) : Int → List (Nat × Nat) → List Int
  | _, [] => []
  | p, d :: t => let q := p + sign * ((d.1 : Int) + 1); q :: pocSums sign q t

/-- A short-term reference picture set of HEVC (7.3.7, 7.4.8): the negative and the positive differences of order count, in
order, after those of the sets before it. -/
def rdRps (a : Array Byte) (first : Bool) (old : List Int × List Int) : BitRd (List Int × List Int) := do
  let inter ← rdIf (!first) (rdU a 1) 0
  if inter = 1 then
    let sign ← rdU a 1
    let d : Int := ((← rdUeTo a 32767) : Int) + 1
    let delta := if sign = 1 then -d else d
    let uses ← rdMany (do if (← rdU a 1) = 1 then return true else rdFlag a) (old.1.length + old.2.length + 1)
    let neg := old.1.zipIdx.map (fun p => (p.1 + delta, uses.getD p.2 false))
    let pos := old.2.zipIdx.map (fun p => (p.1 + delta, uses.getD (old.1.length + p.2) false))
    let own := [(delta, uses.getD (old.1.length + old.2.length) false)]
    let pick := fun (f : Int → Bool) (l : List (Int × Bool)) => (l.filter (fun p => p.2 && f p.1)).map (·.1)
    return (pick (fun x => decide (x < 0)) (pos.reverse ++ own ++ neg), pick (fun x => decide (0 < x)) (neg.reverse ++ own ++ pos))
  else
    let n ← rdUeTo a 16
    let m ← rdUeTo a (16 - n)
    let neg ← rdMany (do return (← rdUeTo a 32767, ← rdU a 1)) n
    let pos ← rdMany (do return (← rdUeTo a 32767, ← rdU a 1)) m
    return (pocSums (-1) 0 neg, pocSums 1 0 pos)

/-- The sets of a parameter set, one after another. -/
def rdRpss (a : Array Byte) : Nat → Bool → List Int × List Int → BitRd Unit
  | 0, _, _ => return ()
  | n + 1, first, old => do rdRpss a n false (← rdRps a first old)

/-- A sequence parameter set of HEVC (7.3.2.2 and E.2.1 of H.265), header bytes left out. -/
def rdHevc (a : Array Byte) : BitRd VidHead := do
  let _ ← rdU a 4
  let layers ← rdU a 3
  let _ ← rdU a 1
  let _ ← rdU a 3
  let prof ← rdU a 5
  let compat ← rdU a 32
  let _ ← rdU a 48
  let level ← rdU a 8
  let subs ← rdMany (do return (← rdFlag a, ← rdFlag a)) layers
  if 0 < layers then let _ ← rdU a (2 * (8 - layers))
  let _ ← subs.mapM (fun x => do
    let _ ← rdIf x.1 (rdU a 88) 0
    rdIf x.2 (rdU a 8) 0)
  rdMust (decide (layers ≤ 6))
  let _ ← rdUeTo a 15
  let chroma ← rdUeTo a 3
  let _ ← rdIf (chroma == 3) (rdU a 1) 0
  let w ← rdUe a
  let h ← rdUe a
  let cut ← (do if ← rdFlag a then rdCrop a w h else return (0, 0, 0, 0) : BitRd (Nat × Nat × Nat × Nat))
  let luma ← rdUeTo a 8
  let cdepth ← rdUeTo a 8
  let log2Poc := (← rdUeTo a 12) + 4
  let all ← rdFlag a
  let order ← rdMany (do
    let n ← rdUeTo a 15
    let _ ← rdUeTo a n
    let _ ← rdUe a
    return n + 1) (if all then layers + 1 else 1)
  let minCb := (← rdUeTo a 3) + 3
  let ctb := minCb + (← rdUeTo a 3)
  let minTb := (← rdUeTo a 3) + 2
  let maxTb := minTb + (← rdUeTo a 3)
  rdMust (decide (4 ≤ ctb) && decide (ctb ≤ 6) && decide (minTb < minCb) && decide (maxTb ≤ min ctb 5) && decide (0 < w) && decide (0 < h) &&
    w % 2 ^ minCb == 0 && h % 2 ^ minCb == 0)
  let _ ← rdMany (rdUeTo a (ctb - minTb)) 2
  if ← rdFlag a then
    if ← rdFlag a then rdHevcScale a (List.replicate 6 0 ++ List.replicate 6 1 ++ List.replicate 6 2 ++ List.replicate 2 3)
  let _ ← rdU a 2
  if ← rdFlag a then
    let _ ← rdU a 8
    let _ ← rdMany (rdUeTo a 3) 2
    let _ ← rdU a 1
  let sets ← rdUeTo a 64
  rdRpss a sets true ([], [])
  if ← rdFlag a then
    let n ← rdUeTo a 32
    let _ ← rdMany (rdU a (log2Poc + 1)) n
  let _ ← rdU a 2
  let main := (prof == 1 || bitOf compat 30) && luma == 0 && cdepth == 0
  let main10 := (prof == 2 || bitOf compat 29) && decide (luma ≤ 2) && decide (cdepth ≤ 2)
  let ok := (main || main10) && decide (level ≤ 183) && chroma == 1
  let head : VidHead := ⟨ok, if main then 1 else 2, w, h, cut, 8 + max luma cdepth, order.getLast?.getD 1, 2, false⟩
  if !(← rdFlag a) then return head
  let (m, full) ← rdColour a
  if ← rdFlag a then let _ ← rdMany (rdUe a) 2
  let _ ← rdU a 1
  let field ← rdFlag a
  return { head with accepted := ok && !field, matrix := m, full := full }

/-- An operating point of a sequence header: seq_level_idx. -/
def rdAv1Point (a : Array Byte) (model : Option Nat) (delay : Bool) : BitRd Nat := do
  let _ ← rdU a 12
  let level ← rdU a 5
  let _ ← rdIf (decide (7 < level)) (rdU a 1) 0
  match model with
  | some n => if ← rdFlag a then let _ ← rdU a (2 * n + 1)
  | none => pure ()
  if delay then
    if ← rdFlag a then let _ ← rdU a 4
  return level

/-- A sequence header of AV1 (5.5 of its specification). The 8 reference frames are what decoding holds. -/
def rdAv1 (a : Array Byte) : BitRd VidHead := do
  let prof ← rdU a 3
  let _ ← rdU a 1
  let reduced ← rdFlag a
  let levels ← (if reduced then return [← rdU a 5]
    else do
      let mut model : Option Nat := none
      if ← rdFlag a then
        let _ ← rdU a 64
        if ← rdFlag a then
          let z ← rdZeros a 33
          let _ ← rdU a z
        if ← rdFlag a then
          model := some ((← rdU a 5) + 1)
          let _ ← rdU a 42
      let delay ← rdFlag a
      let n ← rdU a 5
      rdMany (rdAv1Point a model delay) (n + 1))
  let wb ← rdU a 4
  let hb ← rdU a 4
  let w := (← rdU a (wb + 1)) + 1
  let h := (← rdU a (hb + 1)) + 1
  if !reduced then
    if ← rdFlag a then let _ ← rdU a 7
  let _ ← rdU a 3
  if !reduced then
    let _ ← rdU a 4
    let hint ← rdFlag a
    if hint then let _ ← rdU a 2
    let force ← rdIf (!(← rdFlag a)) (rdU a 1) 2
    if 0 < force then
      if !(← rdFlag a) then let _ ← rdU a 1
    if hint then let _ ← rdU a 3
  let _ ← rdU a 3
  let deep ← rdFlag a
  let twelve ← rdIf (prof == 2 && deep) (rdU a 1) 0
  let mono ← rdIf (prof != 1) (rdU a 1) 0
  let colour ← rdIf (← rdFlag a) (rdU a 24) 0x020202
  let srgb := colour == 0x010D00
  let range ← rdIf (mono == 1 || !srgb) (rdU a 1) 1
  let ok := prof == 0 && mono == 0 && twelve == 0 && !srgb && levels.all (fun l => decide (l ≤ 16))
  return ⟨ok, if deep then 4 else 3, w, h, (0, 0, 0, 0), if deep then 10 else 8, 8, colour % 256, range == 1⟩

/-- The parameter set or sequence header at an offset. -/
def headAt (codec : Nat) (es : Bytes) (off : Nat) : Option VidHead :=
  if codec = 3 then (match obuAt es.toArray off with
    | some (1, p, n) => ((rdAv1 (es.toArray.extract p (p + n))).run 0).map (·.1)
    | _ => none)
  else match nalAt es off with
    | some bs =>
      if codec = 1 then (if leAt bs 0 1 % 32 = 7 then ((rdAvc (bs.drop 1).toArray).run 0).map (·.1) else none)
      else if leAt bs 0 1 / 2 % 64 = 33 then ((rdHevc (bs.drop 2).toArray).run 0).map (·.1) else none
    | none => none

/-- A picture parameter set of AVC has several slice groups or redundant pictures, which are options of Baseline alone (R346). -/
def rdBaseline (a : Array Byte) : BitRd Bool := do
  let _ ← rdUe a
  let _ ← rdUe a
  let _ ← rdU a 2
  if 0 < (← rdUe a) then return true
  let _ ← rdMany (rdUe a) 2
  let _ ← rdU a 3
  let _ ← rdMany (rdSe a) 3
  let _ ← rdU a 2
  rdFlag a

/-- A unit is an option that R346 rejects wherever it stands: NAL units of SVC and MVC, slice groups, redundant pictures, a tile
list. -/
def unitRejected (codec : Nat) (es : Bytes) (off : Nat) : Bool :=
  if codec = 3 then (match obuAt es.toArray off with
    | some (t, _, _) => t == 8
    | none => false)
  else if codec = 1 then (match nalAt es off with
    | some bs =>
      let t := leAt bs 0 1 % 32
      [14, 15, 20].contains t || (t == 8 && ((rdBaseline (bs.drop 1).toArray).run 0).any (·.1))
    | none => false)
  else false

/-- nal_unit_type of the NAL unit of HEVC at an offset. -/
def hevcType (es : Bytes) (off : Nat) : Option Nat := (nalAt es off).map (fun bs => leAt bs 0 1 / 2 % 64)

/-- A NAL unit of HEVC of a layer above 0, which is discarded (R346). -/
def layerAbove (codec : Nat) (es : Bytes) (off : Nat) : Bool :=
  codec == 2 && ((nalAt es off).map (fun bs => leAt bs 0 1 % 2 == 1 || decide (8 ≤ leAt bs 1 1))).getD false

/-- A RASL picture of HEVC (R351). -/
def isRasl (codec : Nat) (es : Bytes) (off : Nat) : Bool := codec == 2 && (hevcType es off == some 8 || hevcType es off == some 9)

/-- An IRAP picture of HEVC. -/
def isIrap (codec : Nat) (es : Bytes) (off : Nat) : Bool := codec == 2 && (hevcType es off).any (fun t => decide (16 ≤ t) && decide (t ≤ 23))

/-- first_mb_in_slice of a slice of AVC. -/
def sliceFirst (codec : Nat) (es : Bytes) (off : Nat) : Option Nat :=
  if codec ≠ 1 then none
  else match nalAt es off with
    | some bs => let t := leAt bs 0 1 % 32; if t = 1 ∨ t = 5 then ((rdUe (bs.drop 1).toArray).run 0).map (·.1) else none
    | none => none

/-- The units of an AV1 stream from an offset on. -/
def obuOffsets (a : Array Byte) : Nat → Nat → List Nat
  | 0, _ => []
  | fuel + 1, off => match obuAt a off with
    | none => []
    | some (_, p, n) => off :: obuOffsets a fuel (p + n)

/-- Where units stand, from an offset on, that R346 rejects. -/
def rejectedUnits (codec : Nat) (es : Bytes) (start : Nat) : List Nat :=
  ((if codec = 3 then obuOffsets es.toArray es.length start else (nalStarts 0 0 es).map (·.1)).filter (fun o => decide (start ≤ o))).filter
    (unitRejected codec es)

end Sys2Proof.Machine
end

