-- ==== Sys2Proof/Machine/Video.lean ====
section
/-! DEFINITION. Video bays: clips (R343 to R345), frame selection (R349 to R351), bounds (R347, R351, R353), colour (R354,
R355), and the cache encoder in a feed graph (R357 to R364). How pictures are decoded is open (log 8). -/

namespace Sys2Proof.Machine

/-! ## The decoder's profile (R366) -/

def vdCodecs (b : Bytes) : Nat := leAt b 0x0C 1
def vdFrames (b : Bytes) : Nat := leAt b 0x10 2
def vdStride (b : Bytes) : Nat := leAt b 0x12 2

/-! ## The clip (R343 to R345) -/

/-- A clip header's checks: FRAME_COUNT, the entries of RAP[], the elementary stream. -/
structure Clip where
  codec : Nat
  count : Nat
  raps : List (Nat × Nat)
  esOff : Nat
  es : Bytes
  deriving DecidableEq, Repr

/-- The bits of CODECS that a codec may use (R366). -/
def codecMask (c : Nat) : Nat := if c = 1 then 1 else if c = 2 then 6 else 24

/-- Reads a clip header (R343 to R345, R366). -/
def clipOf (body bs : Bytes) : ImgRes Clip :=
  let codec := leAt bs 4 1
  let n := leAt bs 6 2
  let fc := leAt bs 8 4
  let eo := leAt bs 0x14 4
  let en := leAt bs 0x18 4
  let raps := (List.range n).map (fun k => (leAt bs (0x20 + 8 * k) 4, leAt bs (0x24 + 8 * k) 4))
  if bs.length < 32 ∨ leAt bs 0 4 ≠ 0x504C4356 then .error (stDamaged, 0)
  else if codec = 0 ∨ 3 < codec then .error (stDamaged, 4)
  else if n = 0 ∨ 4096 < n then .error (stDamaged, 6)
  else if fc = 0 then .error (stDamaged, 8)
  else if eo % 16 ≠ 0 ∨ eo < 0x20 + 8 * n then .error (stDamaged, 0x14)
  else if 65536 < fc then .error (stOverBound, 0)
  else if codecMask codec &&& vdCodecs body = 0 then .error (stUnsupported, 0)
  else if leAt body 0x08 4 < en then .error (stOverBound, 0)
  else if bs.length < eo + en then .error (stDamaged, bs.length)
  else if raps.head? ≠ some (0, 0) ∨ (raps.zip (raps.drop 1)).any (fun p => decide (p.2.1 ≤ p.1.1) || decide (p.2.2 ≤ p.1.2)) then .error (stDamaged, 0x20)
  else
    let es := bytesAt bs eo en
    if obuNoSize codec es then .error (stUnsupported, 0)
    else match raps.find? (fun r => !rapGood codec es r.2) with
      | some r => .error (stDamaged, eo + r.2)
      | none => .ok ⟨codec, fc, raps, eo, es⟩

/-! ## Selection (R349, R350) -/

/-- Frame f of a sample: its number in the clip, and whether it stands in for one beyond the end. -/
def pickFrame (body : Bytes) (k : DrawKey) (fc f : Nat) : Nat × Bool :=
  let sel := leAt body 0x0D 1
  let n := vdFrames body
  let st := vdStride body
  let raw :=
    if sel = 0 then some (f * st)
    else if sel = 1 then (if fc ≤ (n - 1) * st then none else some (k.uniform 2 (fc - (n - 1) * st) 4 + f * st))
    else
      let a := f * fc / n
      let b := (f + 1) * fc / n
      if b ≤ a then none else some (a + k.uniform 2 (b - a) (4 + f))
  match raw with
  | some t => if t < fc then (t, false) else (fc - 1, true)
  | none => (fc - 1, true)

/-! ## Colour (R354, R355) -/

/-- KY, KR, KGb, KGr, KB of a matrix code. -/
def matrixOf (m : Nat) : Option (Int × Int × Int × Int × Int) :=
  if m = 1 ∨ m = 2 then some (76309, 117489, -13975, -34925, 138438)
  else if m = 5 ∨ m = 6 then some (76309, 104597, -25675, -53279, 132201)
  else if m = 9 then some (76309, 110014, -12277, -42627, 140363) else none

/-- The matrix code and range can be converted. -/
def matrixOk (m : Nat) (full : Bool) : Bool := if full then m == 5 || m == 6 else (matrixOf m).isSome

/-- One pixel to RGB at bit depth d. -/
def videoRgb (m : Nat) (full : Bool) (d y cb cr : Nat) : List Nat :=
  let top : Int := 2 ^ d - 1
  let cl := fun (v : Int) => (max 0 (min top v)).toNat
  let b : Int := cb - 2 ^ (d - 1)
  let r : Int := cr - 2 ^ (d - 1)
  if full then
    [cl (y + (91881 * r + 32768) / 65536), cl (y + (-22554 * b - 46802 * r + 32768) / 65536), cl (y + (116130 * b + 32768) / 65536)]
  else match matrixOf m with
    | some (ky, kr, kgb, kgr, kb) =>
      let y' : Int := y - 16 * 2 ^ (d - 8)
      [cl ((ky * y' + kr * r + 32768) / 65536), cl ((ky * y' + kgb * b + kgr * r + 32768) / 65536), cl ((ky * y' + kb * b + 32768) / 65536)]
    | none => [y, cb, cr]

/-- A picture as it is stored: Y, Cb and Cr planes of values of `n` bytes. -/
def storedPlanes (w h n : Nat) (bs : Bytes) : Array Nat × Array Nat × Array Nat :=
  let v := ((chunks n bs.length bs).map leNat).toArray
  let c := (w + 1) / 2 * ((h + 1) / 2)
  (v.extract 0 (w * h), v.extract (w * h) (w * h + c), v.extract (w * h + c) (w * h + 2 * c))

/-- A part of a plane that is `pw` wide. -/
def cutPlane (pw x0 y0 w h : Nat) (pl : Array Nat) : Array Nat := Array.ofFn (n := w * h) (fun i => pl.getD ((y0 + i / w) * pw + x0 + i % w) 0)

/-- The bytes of an output frame (R354, R355). It leaves as its standard puts it out, without what the parameter set cuts off (log 8). -/
def frameBytes (colour : Nat) (p : VidHead) (stored : Bytes) : Bytes :=
  let w := p.outW
  let h := p.outH
  let d := p.depth
  let m := p.matrix
  let full := p.full
  let pw := (w + 1) / 2
  let ph := (h + 1) / 2
  let (ys, bs, rs) := storedPlanes p.w p.h (if d = 8 then 1 else 2) stored
  let ya := cutPlane p.w p.cut.1 p.cut.2.2.1 w h ys
  let chroma := cutPlane ((p.w + 1) / 2) (p.cut.1 / 2) (p.cut.2.2.1 / 2) pw ph
  let ba := chroma bs
  let ra := chroma rs
  let put := fun (v : Nat) => if d = 8 then natLe 1 v else natLe 2 (v * 64 + v / 16)
  (List.range (w * h)).flatMap (fun i =>
    let px := i % w
    let py := i / w
    let yv := ya.getD i 0
    if colour = 2 then put yv
    else
      let b := upsample false true (pw, ba) pw ph px py
      let r := upsample false true (pw, ra) pw ph px py
      (if colour = 0 then videoRgb m full d yv b r else [yv, b, r]).flatMap put)

/-! ## Decoding a sample (R347 to R353) -/

/-- A decoded frame: number in the clip, width, height, bit depth, bytes. -/
abbrev VidFrame := Nat × Nat × Nat × Nat × Bytes

/-- Checks a parameter set (R346, R347, R354, R366). -/
def parCheck (body : Bytes) (p : VidHead) : Option (Nat × Nat) :=
  if !p.accepted || !bitOf (vdCodecs body) p.codec || (leAt body 0x0E 1 == 0 && !matrixOk p.matrix p.full) then some (stUnsupported, 0)
  else if leAt body 0 2 < p.w ∨ leAt body 2 2 < p.h ∨ leAt body 4 4 < p.w * p.h ∨ leAt body 0x16 1 < p.dpb then some (stOverBound, 0)
  else none

/-- Bytes of a picture in memory (R352). -/
def picBytes (p : VidHead) : Nat := p.w * p.h * (if p.depth = 8 then 3 else 6) / 2

/-- Bytes of its three planes; with an odd side a little more. -/
def picStore (p : VidHead) : Nat := (p.w * p.h + 2 * ((p.w + 1) / 2 * ((p.h + 1) / 2))) * (if p.depth = 8 then 1 else 2)

/-- Buffers of DPB_POOL that a decoder holds (R352). -/
def dpbBuffers (body : Bytes) : Nat := leAt body 0x16 1 + 1

/-- What a decoder has come to: the next frame in output order, the pictures decoded and those met, the parameter set in force, the
first macroblock of the last slice of the picture, IRAP pictures met, the decoded picture buffer (picture, buffer, parameter
set), the buffers that are free, the frames kept, where the stream has units that R346 rejects. -/
structure VidRun where
  next : Nat
  pics : Nat
  met : Nat
  par : Option VidHead
  mb : Nat
  iraps : Nat
  dpb : List (Nat × Nat × VidHead)
  free : List Nat
  kept : List VidFrame
  bars : List Nat
  deriving DecidableEq, Repr

/-- What a picture fetches of its references, up to the declared cost `limit` in quarters of a byte (R353). One that is not held is
missing (R348). -/
def State.dpbFetch (w : Party) (off limit : Nat) (dpb : List (Nat × Nat × VidHead)) :
    List (Nat × Nat × Nat) → Nat → Bytes → State → Except VidStop Bytes × State
  | [], _, acc, s => (.ok acc, s)
  | (pic, at_, n) :: t, done, acc, s =>
    match dpb.find? (fun d => d.1 == pic) with
    | none => (.error (.reject stDamaged off), s)
    | some (_, h, p) =>
      if picStore p < at_ + n then (.error (.reject stDamaged off), s)
      else if limit < 4 * (done + n) then (.error (.reject stOverBound 0), s)
      else match s.dpbRead w (h + at_) n with
        | (.ok bs, s) => s.dpbFetch w off limit dpb t (done + n) (acc ++ bs)
        | (.error e, s) => (.error e, s)

/-- One picture: it fetches its references, is decoded, and is written into a free buffer of DPB_POOL (R352). -/
def State.dpbPicture (w : Party) (body : Bytes) (c : Clip) (start off : Nat) (fetches : List (Nat × Nat × Nat)) (x : VidRun) (s : State) :
    Except VidStop VidRun × State :=
  let fault : VidStop := .reject stDamaged (c.esOff + off)
  match x.par, x.free with
  | none, _ => (.error fault, s)
  | some _, [] => (.error (.reject stOverBound 0), s)
  | some p, h :: free =>
    if leAt body 0x14 2 < x.pics + 1 then (.error (.reject stOverBound 0), s)
    else match s.dpbFetch w (c.esOff + off) (leAt body 0x17 1 * picBytes p) x.dpb fetches 0 [] with
      | (.error e, s) => (.error e, s)
      | (.ok refs, s) =>
        let bs := (Config.videoSamples c.codec c.es start x.met refs ++ zeros (picStore p)).take (picStore p)
        match s.writeSpan w (spanFuel bs.length) h bs with
        | (some (r, a), s) => (.error (.resp r a true), s)
        | (none, s) => (.ok { x with pics := x.pics + 1, met := x.met + 1, mb := 0, dpb := x.dpb ++ [(x.met, h, p)], free := free }, s)

/-- Where in the elementary stream an event stands that begins something. -/
def eventOff : VideoEvent → Option Nat
  | .params off => some off
  | .unit off => some off
  | .picture off _ => some off
  | .damaged off => some off
  | .drop _ => none
  | .output _ => none

/-- Follows the decoder until frame `last` is out; `wanted` are the frames to keep. Slices of one picture out of order are
arbitrary slice order (R346). Units of layers above 0 and the RASL pictures of the first IRAP picture are passed over (R346,
R351). The sample is rejected once the decoder comes to a unit, or past one, that R346 rejects. -/
def State.runDecoder (w : Party) (body : Bytes) (c : Clip) (start : Nat) (wanted : List Nat) (last : Nat) :
    List VideoEvent → VidRun → State → Except VidStop (List VidFrame) × State
  | [], _, s => (.error (.reject stDamaged c.esOff), s)
  | e :: t, x, s =>
    if (eventOff e).any (fun off => x.bars.any (fun o => decide (o ≤ off))) then (.error (.reject stUnsupported 0), s) else match e with
    | .params off =>
      if layerAbove c.codec c.es off then s.runDecoder w body c start wanted last t x
      else match headAt c.codec c.es off with
        | none => (.error (.reject stDamaged (c.esOff + off)), s)
        | some p => match parCheck body p with
          | some (code, detail) => (.error (.reject code detail), s)
          | none => s.runDecoder w body c start wanted last t { x with par := some p }
    | .unit off =>
      let m := sliceFirst c.codec c.es off
      if layerAbove c.codec c.es off then s.runDecoder w body c start wanted last t x
      else if m.any (fun m => decide (m < x.mb)) then (.error (.reject stUnsupported 0), s)
      else s.runDecoder w body c start wanted last t { x with mb := m.getD x.mb }
    | .picture off fetches =>
      if layerAbove c.codec c.es off || (isRasl c.codec c.es off && decide (x.iraps ≤ 1)) then
        s.runDecoder w body c start wanted last t { x with met := x.met + 1 }
      else match s.dpbPicture w body c start off fetches { x with iraps := x.iraps + b2n (isIrap c.codec c.es off) } with
        | (.error e, s) => (.error e, s)
        | (.ok x, s) => s.runDecoder w body c start wanted last t x
    | .drop pic =>
      let gone := x.dpb.filter (fun d => d.1 == pic)
      s.runDecoder w body c start wanted last t { x with dpb := x.dpb.filter (fun d => d.1 != pic), free := x.free ++ gone.map (·.2.1) }
    | .damaged off => (.error (.reject stDamaged (c.esOff + off)), s)
    | .output pic =>
      match x.dpb.find? (fun d => d.1 == pic) with
      | none => s.runDecoder w body c start wanted last t x
      | some (_, h, p) =>
        let y := { x with next := x.next + 1 }
        if !wanted.contains x.next then s.runDecoder w body c start wanted last t y
        else match s.dpbRead w h (picStore p) with
          | (.error e, s) => (.error e, s)
          | (.ok bs, s) =>
            let shown := if c.codec = 3 ∧ bitOf (leAt body 0x0F 1) 0 then Config.videoGrain c.es start pic bs else bs
            let kept := x.kept ++ [(x.next, p.outW, p.outH, p.depth, frameBytes (leAt body 0x0E 1) p shown)]
            if x.next = last then (.ok kept, s) else s.runDecoder w body c start wanted last t { y with kept := kept }

/-- The frames of a sample in selection order: number, REPEAT, width, height, bit depth, bytes (R349 to R351). `bufs` are the buffers of
the decoded picture buffer. -/
def State.clipFrames (w : Party) (body : Bytes) (k : DrawKey) (c : Clip) (bufs : List Nat) (s : State) :
    Except VidStop (List (Nat × Bool × Nat × Nat × Nat × Bytes)) × State :=
  let picks := (List.range (vdFrames body)).map (pickFrame body k c.count)
  let nums := picks.map (·.1)
  let first := nums.foldl min (nums.headD 0)
  let start := (c.raps.filter (fun r => decide (r.1 ≤ first))).getLast?.getD (0, 0)
  match s.runDecoder w body c start.2 nums (nums.foldl max 0) (Config.videoDecode c.codec c.es start.2)
      ⟨start.1, 0, 0, none, 0, 0, [], bufs, [], rejectedUnits c.codec c.es start.2⟩ with
  | (.error e, s) => (.error e, s)
  | (.ok fs, s) =>
    match picks.mapM (fun p => (fs.find? (fun x => x.1 == p.1)).map (fun x => (p.1, p.2, x.2.1, x.2.2))) with
    | some l => (.ok l, s)
    | none => (.error (.reject stDamaged c.esOff), s)

/-- A clip reaches a video bay: its frames leave one after another, or the sample is rejected (R348, R355). It waits for the buffers
of its decoded picture buffer (R275, R352), and keeps them over a halt, after which it is decoded again (R248). -/
def State.decodeClip (f i bay mortise : Nat) (body : Bytes) (k : DrawKey) (u : DataUnit) (s : State) : State :=
  let pool := leAt body 0x18 1
  let g := u.tag.sampleIx
  match clipOf body u.bytes with
  | .error (c, d) => s.rejectAt f i bay u.tag c d
  | .ok c =>
    let (ready, s) := s.holdBuffers f i pool g (dpbBuffers body)
    if !ready then s.holdUnit bay mortise u
    else
      let bufs := match s.poolNo f pool with
        | some p => (s.pool p).heldFor (sKey f i) g
        | none => []
      match s.clipFrames (s.sampleParty f (s.stream f i) g) body k c bufs with
      | (.error (.resp r a write), s) => ((s.streamResp f i a write r).relays).holdUnit bay mortise u
      | (.error .wait, s) => s.holdUnit bay mortise u
      | (.error .past, s) => s.holdUnit bay mortise u
      | (.error (.reject c d), s) => (s.dropBuffers f i pool g).rejectAt f i bay u.tag c d
      | (.ok fs, s) =>
        let chans := if leAt body 0x0E 1 = 2 then 1 else 3
        (s.dropBuffers f i pool g).forEach fs.zipIdx (fun p s =>
          let (num, rep, w, h, depth, bytes) := p.1
          s.sendUnit bay ⟨bytes, { u.tag with
            stage := 3, ordinal := p.2, extra := num, repeated := rep, width := w, height := h, chans := chans,
            vmax := if depth = 8 then 255 else 65535, den := u.tag.den * max 1 fs.length }, []⟩ false none)

/-! ## The encoder in a feed graph (R358, R364) -/

/-- A picture of a unit, if it has the size, channels and format that the encoder takes (R358). -/
def encPicture (body : Bytes) (u : DataUnit) : Option (Nat × Array Nat) :=
  let n := encW body * encH body * encChans body
  if u.tag.width ≠ encW body ∨ u.tag.height ≠ encH body ∨ u.tag.chans ≠ encChans body then none
  else if u.bytes.length = n then some (255, wordVals 1 u.bytes)
  else if u.bytes.length = 2 * n then some (65535, wordVals 2 u.bytes)
  else none

/-- Units that an encoder holds for one sample. -/
def State.encHeld (s : State) (bay : Nat) (t : UnitTag) : List (Nat × DataUnit) :=
  (s.bay bay).held.filter (fun h => h.2.tag.stream == t.stream && h.2.tag.sampleIx == t.sampleIx && h.2.tag.gen == t.gen)

/-- Clips of other samples that a bay's encoder codes. -/
def Bay.codingBut (b : Bay) (t : UnitTag) : List (Nat × Nat × Nat × EncHold) :=
  b.coding.filter (fun c => !(c.1 == t.stream && c.2.1 == t.sampleIx && c.2.2.1 == t.gen))

/-- They are given up, with what the encoder keeps of the clip. -/
def State.encDrop (bay : Nat) (t : UnitTag) (s : State) : State :=
  s.modBay bay (fun b => { b with
    held := b.held.filter (fun h => !(h.2.tag.stream == t.stream && h.2.tag.sampleIx == t.sampleIx && h.2.tag.gen == t.gen)), coding := b.codingBut t })

/-- All parts of a sample have come: the sum of 1/den is the number of parts dispatched (log 12). -/
def partsWhole (want : Nat) (dens : List Nat) : Bool :=
  let r := dens.foldl (fun (a : Nat × Nat) d => (a.1 * d + a.2, a.2 * d)) (0, 1)
  r.1 == want * r.2

/-- A unit of a coded clip: `n` of `all`, the header last (R364). -/
def sliceUnit (t : UnitTag) (n all : Nat) (bs : Bytes) : DataUnit := ⟨bs, { t with role := 0, stage := 14, ordinal := n, den := all, extra := 0, sides := 0 }, []⟩

/-- The sample's pictures are coded: its slices leave as they are coded, the clip header last (R364). It waits for the buffers of ENC_POOL
(R275); what an encoder holds of a sample stays while its stream is halted, and it goes on from the picture it was at (R365). -/
def State.encodeSample (f i bay : Nat) (body : Bytes) (k : DrawKey) (t : UnitTag) (us : List DataUnit) (s : State) : State :=
  let data := sortBy (fun (a b : DataUnit) => decide (a.tag.ordinal ≤ b.tag.ordinal)) (us.filter (fun u => u.tag.role == 0))
  let pics := data.filterMap (encPicture body)
  if us.any (fun u => s.runsBad u.words) then (s.encDrop bay t).rejectAt f i bay t stEcc 0
  else if pics.length ≠ data.length then (s.encDrop bay t).rejectAt f i bay t stOverBound 0
  else if pics.isEmpty then (s.encDrop bay t).sendReject bay stOk { t with role := 0 }
  else
    let g := t.sampleIx
    let (ready, s) := s.holdBuffers f i (encPool body) g (s.encBuffers f body)
    if !ready then s
    else
      let all := pics.length * pictureSlices body + 1
      let old := (((s.bay bay).coding.find? (fun c => c.1 == t.stream && c.2.1 == t.sampleIx && c.2.2.1 == t.gen)).map (·.2.2.2)).getD (.start body)
      let s := s.modFlight f i t (fun y => { y with want := 1 })
      match s.codePictures (s.encJob (s.sampleParty f (s.stream f i) g) f i g bay body k) (fun n s => (.ok (pics.getD n (0, #[])), s))
        (fun n _ u s => (none, s.sendUnit bay (sliceUnit t n all u) false none)) (pics.length - old.next) old with
      | (some (.reject c d), _, s) => ((s.dropBuffers f i (encPool body) g).encDrop bay t).rejectAt f i bay t c d
      | (some stop, h, s) =>
        let s := s.modBay bay (fun b => { b with coding := b.codingBut t ++ [(t.stream, t.sampleIx, t.gen, h)] })
        (match stop with
          | .resp r a write => (s.streamResp f i a write r).relays
          | _ => s)
      | (none, h, s) =>
        ((s.dropBuffers f i (encPool body) g).encDrop bay t).sendUnit bay (sliceUnit t (all - 1) all (clipHeader body pics.length h.slices)) false none

/-- A picture reaches an encoder: the sample is coded once all of it is there. -/
def State.encodeUnit (f i bay mortise : Nat) (body : Bytes) (k : DrawKey) (want : Nat) (u : DataUnit) (s : State) : State :=
  let s := s.holdUnit bay mortise u
  let us := (s.encHeld bay u.tag).map (·.2)
  if partsWhole want (us.map (·.tag.den)) then s.encodeSample f i bay body k u.tag us else s

/-- A unit reaches a video bay. -/
def State.videoUnit (bay mortise : Nat) (u : DataUnit) (s : State) : State := match s.tagStream u.tag with
  | none => s
  | some (f, i, x) =>
    let t := u.tag
    let k := x.drawKey t.sampleIx
    let want := ((x.inFlight.find? (fun y => y.index == t.sampleIx && y.gen == t.gen)).map (·.want)).getD 1
    if x.st == .halted then s.holdUnit bay mortise u
    else match s.bayProfile x.graph bay 0x0301, s.bayProfile x.graph bay 0x0302 with
      | some body, enc =>
        if t.role = 0 ∧ t.kind = 4 ∧ t.stage = 0 then s.decodeClip f i bay mortise body k u
        else match enc with
          | some e => if t.role = 0 ∨ t.role = 3 then s.encodeUnit f i bay mortise e k want u else s.sendUnit bay u true none
          | none => s.sendUnit bay u true none
      | none, some e => if t.role = 0 ∨ t.role = 3 then s.encodeUnit f i bay mortise e k want u else s.sendUnit bay u true none
      | none, none => s.sendUnit bay u true none

/-- A REJECT beat reaches a video bay: what an encoder holds of the sample is given up; one unit withdrawn alone counts as
come (R406). -/
def State.videoReject (bay mortise code : Nat) (t : UnitTag) (s : State) : State := match s.tagStream t with
  | none => s
  | some (f, i, x) =>
    match s.bayProfile x.graph bay 0x0302 with
    | some e =>
      if t.role = 3 then
        let want := ((x.inFlight.find? (fun y => y.index == t.sampleIx && y.gen == t.gen)).map (·.want)).getD 1
        s.encodeUnit f i bay mortise e (x.drawKey t.sampleIx) want ⟨[], t, []⟩
      else (s.encDrop bay t).sendReject bay code t
    | none => s.sendReject bay code t

end Sys2Proof.Machine
end

