-- ==== Sys2Proof/Machine/ImageCheck.lean ====
section
/-! DEFINITION. What the steward checks of an image: header and directory (R87 to R89), sections (R90 to R95, R563), profile
bodies (R313, R341, R352, R366, R367, R388, R411, R427), the structure of R111, judge programs (R390, R393, R394, R397 to
R399). A failure is the pair DETAIL, SECTION of R112. -/

namespace Sys2Proof.Machine

/-- A check's result: nothing, or DETAIL and SECTION. -/
abbrev Chk := Option (Nat × Nat)

/-- The first failure of a list of checks. -/
def firstBad (l : List Chk) : Chk := l.findSome? id

/-- A condition that must hold. -/
def need (ok : Bool) (detail sect : Nat) : Chk := if ok then none else some (detail, sect)

abbrev dLayout := 0x03
abbrev dType := 0x0B
abbrev dFormat := 0x0C
abbrev dRoute := 0x0D
abbrev dBank := 0x0E
abbrev dAbsent := 0x0F
abbrev dFenced := 0x10
abbrev dScope := 0x13
abbrev noSection := 0x7F

/-! ## Header and directory (R87 to R89) -/

def hdKind (h : Bytes) : Nat := leAt h 0x0C 4
def hdSigned (h : Bytes) : Nat := leAt h 0x10 8
def hdCount (h : Bytes) : Nat := leAt h 0x18 4
def hdDir (h : Bytes) : Nat := leAt h 0x1C 4
def hdSig (h : Bytes) : Nat := leAt h 0x98 4
def hdPatch (h : Bytes) : Nat := leAt h 0x60 8

/-- The header checks of R88, and of R87 as far as the header tells, in the order of the codes of R112. -/
def checkHeader (h : Bytes) : Chk :=
  let k := hdKind h
  let n := hdSigned h
  firstBad [
    need (leAt h 0 4 == 0x4C4E4741 && leAt h 0x08 4 == 256) 0x01 noSection,
    need (leAt h 4 2 == 1 && leAt h 6 2 == 2) 0x02 noSection,
    need ((k == 1 || k == 2) && n % 64 == 0 && decide (n ≤ 67108864) && decide (512 ≤ n) && decide (1 ≤ hdCount h) && decide (hdCount h ≤ 64) &&
      hdDir h % 64 == 0 && decide (256 ≤ hdDir h) && hdSig h == n - 256 && decide (hdDir h + 32 * hdCount h ≤ hdSig h) &&
      decide (1 ≤ leAt h 0x54 4) && decide (leAt h 0x54 4 ≤ 256) && decide (leAt h 0x59 1 ≤ 3) &&
      (k == 2 || (hdPatch h == 0 && (bytesAt h 0x68 48).all (· == 0)))) dLayout noSection]

/-- A directory entry with its index (R89). -/
structure SecDir where
  ix : Nat
  type_ : Nat
  count : Nat
  offset : Nat
  size : Nat
  deriving DecidableEq, Repr

/-- The directory in the signed bytes. -/
def directory (img h : Bytes) : List SecDir :=
  (List.range (hdCount h)).map (fun k =>
    let e := hdDir h + 32 * k
    ⟨k, leAt img e 4, leAt img (e + 4) 4, leAt img (e + 8) 8, leAt img (e + 16) 8⟩)

/-- Two byte ranges share a byte. -/
def overlaps (a n b m : Nat) : Bool := a < b + m && b < a + n && 0 < n && 0 < m

/-- R87: sections on 64 B boundaries, inside the signed part, overlapping nothing. -/
def checkLayout (h : Bytes) (ds : List SecDir) : Chk :=
  firstBad (ds.map (fun d =>
    need (d.offset % 64 == 0 && decide (d.offset + d.size ≤ hdSig h) && !overlaps d.offset d.size 0 256 &&
      !overlaps d.offset d.size (hdDir h) (32 * hdCount h) &&
      !ds.any (fun e => decide (e.ix < d.ix) && overlaps d.offset d.size e.offset e.size)) dLayout d.ix))

/-! ## Profile bodies -/

def within (v lo hi : Nat) : Bool := lo ≤ v && v ≤ hi

/-- Fields at (offset, size) that must lie between two bounds. -/
def ranges (b : Bytes) (l : List (Nat × Nat × Nat × Nat)) : Bool := l.all (fun r => within (leAt b r.1 r.2.1) r.2.2.1 r.2.2.2)

def fpBetween (b : Bytes) (off : Nat) (lo hi : Fp) : Bool := let v := lyFp b off; fpLe lo v && fpLe v hi

/-- KIND fields: an entry in use names a kind of R296. -/
def kindOrNone (k : Nat) : Bool := k == 0 || kindKnown k

/-- Up to three ASCII bytes, padded with NUL (R313). -/
def extOk (b : Bytes) : Bool := b.all (fun c => decide (c.toNat < 128)) && (b.dropWhile (· != 0)).all (· == 0)

/-- R313. -/
def intakeOk (b : Bytes) : Bool :=
  ranges b [(0x00, 4, 64, 67108864), (0x04, 4, 1, 268435456), (0x08, 4, 1, 65536)] &&
  (List.range 8).all (fun j => kindOrNone (leAt b (0x10 + 2 * j) 1) && decide (leAt b (0x11 + 2 * j) 1 ≤ 7) && kindOrNone (leAt b (0x23 + 4 * j) 1) &&
    extOk (bytesAt b (0x20 + 4 * j) 3))

/-- R341; ALPHA 1 requires CHANNELS 4 (R324). -/
def imageOk (b : Bytes) : Bool :=
  ranges b [(0x00, 2, 1, 16384), (0x02, 2, 1, 65535), (0x09, 1, 0, 12), (0x0B, 1, 0, 2), (0x28, 1, 0, 3), (0x2A, 2, 1, 16384),
    (0x2C, 2, 1, 65535), (0x2E, 2, 1, 16384), (0x30, 2, 1, 65535), (0x32, 2, 0, 256), (0x34, 2, 0, 256), (0x36, 2, 0, 256),
    (0x7C, 1, 0, 6), (0x88, 2, 1, 1024), (0x8A, 2, 1, 1024), (0x8C, 4, 0, 65536)] &&
  (leAt b 0x0A 1 == 1 || leAt b 0x0A 1 == 3 || leAt b 0x0A 1 == 4) && (!bitOf (leAt b 0x08 1) 4 || leAt b 0x0A 1 == 1) && (leAt b 0x0B 1 != 1 || leAt b 0x0A 1 == 4) &&
  fpLt 0 (lyFp b 0x38) && fpLe (lyFp b 0x38) (lyFp b 0x3C) && fpLe (lyFp b 0x3C) 0x3F800000 && fpLt 0 (lyFp b 0x40) &&
  fpLe (lyFp b 0x40) (lyFp b 0x44) && fpBetween b 0x54 0 0x3F800000 && fpBetween b 0x58 0 0x3F800000 && fpBetween b 0x5C 0 0x3F800000

/-- R352 as far as the profile tells, R366. MAX_RAW, the bound of MAX_CODED, is the graph's. -/
def vdecOk (b : Bytes) : Bool :=
  ranges b [(0x00, 2, 16, 8192), (0x02, 2, 16, 4352), (0x04, 4, 0, 35651584), (0x08, 4, 1, 2 ^ 32 - 1), (0x0D, 1, 0, 2), (0x0E, 1, 0, 2),
    (0x10, 2, 1, 256), (0x12, 2, 1, 256), (0x14, 2, 1, 4096), (0x16, 1, 1, 17), (0x17, 1, 4, 32)] && decide (leAt b 0x16 1 + 1 ≤ leAt b 0x1C 4)

/-- R367. -/
def vencOk (b : Bytes) : Bool :=
  ranges b [(0x00, 2, 16, 8192), (0x02, 2, 16, 4352), (0x14, 2, 1, 1024), (0x18, 1, 0, 51), (0x1A, 2, 1, 8704)] &&
  decide (leAt b 0x0C 4 * leAt b 0x04 4 ≤ 90000 * leAt b 0x08 4) && leAt b 0x10 2 != 0 && leAt b 0x12 2 != 0 &&
  decide (leAt b 0x17 1 ≤ leAt b 0x16 1) && decide (leAt b 0x16 1 ≤ leAt b 0x18 1)

/-- R388. -/
def textOk (b : Bytes) : Bool :=
  let mb := leAt b 0x50 4
  let mn := leAt b 0x54 4
  ranges b [(0x50, 4, 1, 268435456), (0x5C, 1, 0, 2), (0x5D, 1, 1, 128), (0x5E, 1, 0, 16), (0x5F, 1, 1, 4), (0x6A, 1, 0, 7), (0x80, 1, 0, 8)] &&
  within mn mb (18 * mb) && within (leAt b 0x58 4) 1 (mn + 2) && (List.range 7).all (fun j => decide (leAt b (0x60 + j) 1 ≤ 7)) &&
  (List.range 8).all (fun j => kindOrNone (leAt b (0x40 + 2 * j) 1) && decide (leAt b (0x41 + 2 * j) 1 ≤ 15))

/-- R411. -/
def judgeOk (b : Bytes) : Bool :=
  ranges b [(0x04, 2, 1, 1024), (0x06, 1, 2, 16), (0x07, 1, 1, 4), (0x08, 1, 0, 7), (0x0A, 1, 0, 1), (0x0B, 1, 0, 7), (0x1C, 1, 1, 64),
    (0x1D, 1, 0, 1), (0x1E, 2, 1, 65535)] && decide (leAt b 0x08 1 + leAt b 0x07 1 ≤ 8)

/-- The end of the furthest region of a slot of n places (R424, R427, R432, R434). -/
def slotExtent (b : Bytes) (n : Nat) : Nat :=
  let reg := fun (off len : Nat) => match regionAt b off with
    | some a => if len = 0 then 0 else a + len
    | none => 0
  let row := packRowLen b
  let rs := if packSeq b then [reg 0x18 (n * row * packTokBytes b), reg 0x1C (4 * n * row), reg 0x20 (4 * n * row), reg 0x24 n]
    else [reg 0x18 ((n - 1) * packStride b + packSampleBytes b), reg 0x24 n, reg 0x28 (8 * n), reg 0xC0 (8 * n * ceilDiv (packUnits b) 64)]
  (rs ++ [reg 0x2C (n * packSide b)]).foldl max 0

/-- R427; the strides of LAYOUT are multiples of the element size (R428). -/
def packOk (b : Bytes) : Bool :=
  let d := layoutOf b
  ranges b [(0x00, 1, 0, 1), (0x0C, 4, 0, 4096)] && packSlotBytes b % 64 == 0 &&
  (if packSeq b then ranges b [(0x02, 1, 0, 2), (0x03, 1, 1, 64), (0x10, 4, 1, 1048576)] && within (leAt b 0x14 4) 1 (packRowLen b)
   else ranges b [(0x04, 4, 1, 67108864), (0xC4, 4, 0, 65536)] && decide (packSampleBytes b ≤ packStride b) && decide (descDims d ≤ 6) &&
     decide (leAt d 0x09 1 ≤ 3) && (descDims d == 0 || (List.range 6).all (fun k => descStride d k % descElem d == 0)))

/-- BODY_SIZE of an engine code (R563); none for a code that R562 does not list. -/
def bodySize (e : Nat) : Option Nat :=
  if (enginesOf 1).contains e then some 80 else if (enginesOf 2).contains e then some 160 else if e = 0x0301 then some 32
  else if e = 0x0302 then some 48 else if (enginesOf 4).contains e then some 144 else if e = 0x0501 then some 48
  else if (enginesOf 6).contains e then some 208 else none

def bodyOk (e : Nat) (b : Bytes) : Bool :=
  if e / 256 = 1 then intakeOk b else if e / 256 = 2 then imageOk b else if e = 0x0301 then vdecOk b else if e = 0x0302 then vencOk b
  else if e / 256 = 4 then textOk b else if e / 256 = 5 then judgeOk b else packOk b

/-! ## Sections (R90 to R95, R212, R224, R563) -/

/-- The records of a section, `w` bytes each; none when they run past its size. DESIGN CHOICE (log 138): R89 does not say what a SIZE
larger than the records need means; it is accepted, and the bytes after the last record are not read as records. -/
def records (img : Bytes) (d : SecDir) (w : Nat) : Option (List Bytes) :=
  if d.size < d.count * w then none else some ((List.range d.count).map (fun k => bytesAt img (d.offset + w * k) w))

/-- PROFILES records from an offset; none when one is not well formed (R563). -/
def profileRecs (img : Bytes) (stop : Nat) : Nat → Nat → Option (List Profile)
  | 0, _ => some []
  | n + 1, at_ =>
    let e := leAt img (at_ + 2) 2
    let b := leAt img (at_ + 4) 4
    if stop < at_ + 16 then none
    else match bodySize e with
      | none => none
      | some m =>
        if b ≠ m ∨ stop < at_ + 16 + b ∨ 4095 < leAt img at_ 2 then none
        else (profileRecs img stop n (at_ + ceilDiv (16 + b) 16 * 16)).map (fun l => ⟨leAt img at_ 2, e, bytesAt img (at_ + 16) b⟩ :: l)

def platformOf (r : Bytes) : Platform :=
  let ws := fun (off n : Nat) => (List.range n).map (fun k => leAt r (off + 2 * k) 2)
  ⟨ws 0 64, leAt r 0x80 2, ws 0x84 8, ws 0x94 8, ws 0xA4 4, ws 0xAC 4⟩

def routeOf (r : Bytes) : RouteCfg :=
  let p := leAt r 7 1
  ⟨leAt r 0 2, leAt r 2 1, leAt r 3 1, leAt r 4 1, leAt r 5 1, leAt r 6 1, fld p 0 2, fld p 2 2, fld p 4 4, leAt r 8 2, leAt r 0xA 1,
    leAt r 0xB 1, leAt r 0xC 1, leAt r 0xD 1, leAt r 0xE 2⟩

def queueOf (r : Bytes) : QueueDef :=
  ⟨leAt r 0 2, leAt r 2 1, leAt r 3 1, leAt r 4 1, leAt r 5 1, leAt r 6 1, leAt r 7 1, leAt r 8 4, leAt r 0xC 2, leAt r 0xE 2, leAt r 0x10 1⟩

def graphRec (r : Bytes) : Graph :=
  ⟨leAt r 0 2, leAt r 2 1, leAt r 3 1, leAt r 4 1, leAt r 5 1, leAt r 8 8, leAt r 0x10 4, leAt r 0x14 4, leAt r 0x18 4, leAt r 0x1C 4,
    leAt r 0x20 4, leAt r 0x24 4⟩

/-- No value twice. -/
def distinct (l : List Nat) : Bool := l.eraseDups.length == l.length

/-- What a load knows while it stages. -/
structure Loading where
  caps : Caps
  fenced : List Nat
  hdr : Bytes
  old : Option ImgCfg
  deriving DecidableEq, Repr

def Loading.patch (l : Loading) : Bool := hdKind l.hdr == 2
def Loading.inPatch (l : Loading) (k : Nat) : Bool := !l.patch || hasBit (hdPatch l.hdr) k

/-- The ranges of R93. DESIGN CHOICE (log 138): R93 states no range for CTRL_MHZ and lists no rejection for it, so a value of 0 or above
1,600 is accepted and the control bay's clock is stepped to it. -/
def checkPlatform (l : Loading) (i : Nat) (p : Platform) : Chk :=
  need ((List.range 64).all (fun k => if k < l.caps.bays.length then within (p.bayMhz.getD k 0) 100 1600 else p.bayMhz.getD k 0 == 0) &&
    (List.range 8).all (fun n => if n < l.caps.portDie.length then within (p.portMhz.getD n 0) 1 1600 else p.portMhz.getD n 0 == 0)) dFormat i

def kindOfBay (c : Caps) (k : Nat) : Nat := (c.bays[k]?.map (·.kind)).getD 0

def checkBankplan (l : Loading) (i : Nat) (ps : List BankPlan) : Chk :=
  firstBad (ps.zipIdx.map (fun p =>
    let x := p.1
    firstBad [
      need (decide (x.bank < banksOfKind (kindOfBay l.caps x.bay)) && !((ps.take p.2).any (fun y => y.bay == x.bay && y.bank == x.bank)) &&
        decide (x.kind ≤ 4) && x.kind != 2 && decide (x.index ≤ (if x.kind = 1 then 7 else 0))) dBank i,
      need (l.inPatch x.bay) dScope i]))

/-- The BAYBIND checks of R91, R92, R111 that need only their record. DESIGN CHOICE (log 138): the spec gives failures within one section
no order; in every section they are found record by record, and for one record here in the order SECTION_FORMAT, ENGINE_ABSENT,
PATCH_SCOPE, BAY_FENCED. -/
def checkBinds (l : Loading) (i : Nat) (bs : List BayBind) : Chk :=
  firstBad (bs.zipIdx.map (fun p =>
    let x := p.1
    firstBad [
      need (decide (x.slot ≤ 7) && decide (x.graph ≤ 255) && decide (x.profile ≤ 4095) &&
        !((bs.take p.2).any (fun y => y.bay == x.bay && y.slot == x.slot && y.graph == x.graph))) dFormat i,
      need (x.engine != 0 && (enginesOf (kindOfBay l.caps x.bay)).getD x.slot 0 == x.engine) dAbsent i,
      need (l.inPatch x.bay) dScope i,
      need (!l.fenced.contains x.bay) dFenced i]))

def checkProfiles (i : Nat) (ps : List Profile) : Chk :=
  need (distinct (ps.map (·.num)) && ps.all (fun p => bodyOk p.engine p.body)) dFormat i

/-- Field ranges and patch scope of ROUTES (R94, R77, R111; the credits of a second crossing: log 128). DESIGN CHOICE (log 138): R94
states no range for TENON_BAY and MORTISE_BAY; one that names no present bay is a field out of range, SECTION_FORMAT. -/
def checkRouteFields (l : Loading) (i : Nat) (rs : List RouteCfg) : Chk :=
  firstBad (rs.map (fun r => firstBad [
    need (decide (r.route ≤ 511) && decide (r.tenonBay < l.caps.bays.length) && decide (r.mortiseBay < l.caps.bays.length) &&
      decide (r.tenonPort ≤ 7) && decide (r.mortisePort ≤ 7) && within r.unit 1 3 && decide (r.crossings ≤ 2) && decide (r.lane1 ≤ 7) &&
      decide (r.lane2 ≤ 7) && within r.declRate 1 1200 && (r.crossings == 0 || within r.credits1 4 48) &&
      (r.crossings != 2 || r.credits2 == 0 || within r.credits2 4 48)) dFormat i,
    need (!l.patch || hasBit (hdPatch l.hdr) r.tenonBay || hasBit (hdPatch l.hdr) r.mortiseBay) dScope i]))

def checkQueues (l : Loading) (i : Nat) (qs : List QueueDef) : Chk :=
  need (qs.all (fun q => decide (q.qid ≤ 4095) && decide (q.func < l.caps.funcs) && within q.log2 6 16 && within q.weight 1 255 && within q.burst 1 64 &&
      decide (q.vector ≤ 63) && within q.maxChain 1 256 && decide (q.prefetch ≤ 32)) &&
    distinct (qs.map (·.qid)) && decide (qs.length ≤ l.caps.queues) &&
    (List.range l.caps.funcs).all (fun f =>
      let ns := (qs.filter (fun q => q.func == f)).map (·.localQ)
      distinct ns && ns.all (fun n => decide (n < ns.length)) && decide (ns.length ≤ 512))) dFormat i

def checkGraphs (l : Loading) (i : Nat) (gs : List Graph) : Chk :=
  let dies := fun (m : Nat) => ((List.range 8).filter (fun d => hasBit m d)).length
  firstBad [
    need (gs.all (fun g => decide (g.num ≤ 255) && decide (g.direction ≤ 1) && decide (g.boundary ≤ 1) && decide (g.guarRate ≤ g.bound * 4 / 5) &&
        !(g.boundary == 0 && decide (3 ≤ dies g.dies)) && !(g.boundary == 1 && g.hurdleNs == 0) &&
        (List.range 64).all (fun k => !hasBit g.bays k || (decide (k < l.caps.bays.length) && hasBit g.dies ((l.caps.bays[k]?.map (·.die)).getD 0)))) &&
      distinct (gs.map (·.num))) dFormat i,
    need (!l.patch || gs.all (fun g => (List.range 64).all (fun k => !hasBit g.bays k || hasBit (hdPatch l.hdr) k))) dScope i]

/-- Section types an image may carry, and must carry (R90). -/
def typeAllowed (patch : Bool) (t : Nat) : Bool := within t 1 8 && !(patch && (t == 1 || t == 7))
def typesRequired (patch : Bool) : List Nat := if patch then [3, 4, 5] else [1, 3, 4, 5, 6, 7, 8]

/-- One section, checked and staged into a configuration. DESIGN CHOICE (log 114): R101 does not say what a TABLE_ID that two
TABLEREF records give means; here it is SECTION_FORMAT. -/
def stageSection (l : Loading) (img : Bytes) (d : SecDir) (c : ImgCfg) : Except (Nat × Nat) ImgCfg :=
  let i := d.ix
  let fin := fun (k : Chk) (r : ImgCfg) => match k with
    | some e => Except.error e
    | none => Except.ok r
  let recs := fun (w : Nat) (g : List Bytes → Except (Nat × Nat) ImgCfg) => match records img d w with
    | some rs => g rs
    | none => Except.error (dFormat, i)
  match d.type_ with
  | 1 => recs 192 (fun rs => match rs with
    | [r] => fin (checkPlatform l i (platformOf r)) { c with platform := platformOf r }
    | _ => .error (dFormat, i))
  | 2 => recs 48 (fun rs =>
    let ts := rs.map (fun r => (⟨leAt r 0 4, leAt r 4 2, leAt r 6 2, leAt r 8 8, bytesAt r 0x10 32⟩ : TableRef))
    fin (need (decide (ts.length ≤ 4096) && distinct (ts.map (·.id)) && ts.all (fun t => within t.kind 1 7)) dFormat i) { c with tables := ts })
  | 3 => recs 4 (fun rs =>
    let ps := rs.map (fun r => (⟨leAt r 0 1, leAt r 1 1, leAt r 2 1, leAt r 3 1⟩ : BankPlan))
    fin (checkBankplan l i ps) { c with bankPlan := ps })
  | 4 => recs 16 (fun rs =>
    let bs := rs.map (fun r => (⟨leAt r 0 1, leAt r 1 1, leAt r 2 2, leAt r 4 2, leAt r 6 2⟩ : BayBind))
    fin (checkBinds l i bs) { c with binds := bs, bindSection := i })
  | 5 => match profileRecs img (d.offset + d.size) d.count d.offset with
    | some ps => fin (firstBad [need (decide (ps.length ≤ 4096)) dFormat i, checkProfiles i ps]) { c with profiles := ps }
    | none => .error (dFormat, i)
  | 6 => recs 16 (fun rs => fin (checkRouteFields l i (rs.map routeOf)) { c with routes := rs.map routeOf, hasRoutes := true })
  | 7 => recs 32 (fun rs => fin (checkQueues l i (rs.map queueOf)) { c with queues := rs.map queueOf })
  | _ => recs 64 (fun rs => fin (checkGraphs l i (rs.map graphRec)) { c with graphs := rs.map graphRec, hasGraphs := true })

/-! ## What a patch leaves standing (R100, R114) -/

/-- The configuration in force after a patch. Profiles of the base keep apart from the patch's under numbers no image can
name, so that bays outside the patch keep theirs (R115; log 27). -/
def ImgCfg.over (p base : ImgCfg) : ImgCfg :=
  let out := fun (k : Nat) => !hasBit p.patchBays k
  let kept := base.binds.filter (fun b => out b.bay)
  { base with
    kind := p.kind, patchBays := p.patchBays, digest := p.digest, bindSection := p.bindSection,
    hasRoutes := p.hasRoutes, hasGraphs := p.hasGraphs,
    tables := base.tables.filter (fun t => !p.tables.any (fun u => u.id == t.id)) ++ p.tables,
    tableMap := base.tableMap.filter (fun t => !p.tables.any (fun u => u.id == t.id)) ++ p.tableMap,
    bankPlan := base.bankPlan.filter (fun b => out b.bay) ++ p.bankPlan,
    binds := kept.map (fun b => { b with profile := b.profile + 4096 }) ++ p.binds,
    profiles := (base.profiles.filter (fun x => kept.any (fun b => b.profile == x.num))).map (fun x => { x with num := x.num + 4096 }) ++ p.profiles,
    routes := if p.hasRoutes then base.routes.filter (fun r => out r.tenonBay && out r.mortiseBay) ++ p.routes else base.routes,
    graphs := base.graphs.filter (fun g => !p.graphs.any (fun h => h.num == g.num)) ++ p.graphs }

/-! ## The structure of an image (R92, R111) -/

/-- The boundary and side of each crossing of a route, or none when its PATH does not fit (R70, R111). -/
def pathOf (c : Caps) (r : RouteCfg) : Option (List (Nat × Bool × Nat × Nat)) :=
  let die := fun (k : Nat) => (c.bays[k]?.map (·.die)).getD 0
  let a := die r.tenonBay
  let z := die r.mortiseBay
  let hop := fun (d e lane cr : Nat) => (boundaryOf c.dies d e).map (fun b => (b.1, b.2, lane, cr))
  if r.crossings = 0 then
    (if a = z ∧ r.through = 0 ∧ r.lane1 = 0 ∧ r.credits1 = 0 ∧ r.lane2 = 0 ∧ r.credits2 = 0 then some [] else none)
  else if r.crossings = 1 then
    (if a ≠ z ∧ r.through = 0 ∧ r.lane2 = 0 ∧ r.credits2 = 0 then (hop a z r.lane1 r.credits1).map (fun x => [x]) else none)
  else if a = z ∨ r.through = a ∨ r.through = z then none
  else match hop a r.through r.lane1 r.credits1, hop r.through z r.lane2 r.credits2 with
    | some x, some y => some [x, y]
    | _, _ => none

/-- The route checks of R111 over the routes that will stand: R62, PATH, R77, R80, R95. -/
def routesOk (c : Caps) (rs : List RouteCfg) : Bool :=
  let xs := rs.map (fun r => (r, pathOf c r))
  let hops : List ((Nat × Bool × Nat × Nat) × Nat) := xs.flatMap (fun x => ((x.2.getD []).map (fun h => (h, x.1.declRate))))
  distinct (rs.map (·.route)) && distinct (rs.map (fun r => r.tenonBay * 8 + r.tenonPort)) && distinct (rs.map (fun r => r.mortiseBay * 8 + r.mortisePort)) &&
  xs.all (fun x => match x.2 with
    | none => false
    | some hs => hs.all (fun h => within h.2.2.2 4 48 && decide (x.1.declRate * 40 ≤ h.2.2.2 * 1000))) &&
  hops.all (fun h =>
    let same : List ((Nat × Bool × Nat × Nat) × Nat) := hops.filter (fun g => g.1.1 == h.1.1 && g.1.2.1 == h.1.2.1 && g.1.2.2.1 == h.1.2.2.1)
    decide (same.foldl (fun (n : Nat) g => n + g.1.2.2.2) 0 ≤ 192) &&
    decide (same.foldl (fun (n : Nat) g => n + g.2) 0 ≤ (if h.1.2.2.1 = 0 then 1675 else 1800)))

/-- DESIGN CHOICE (log 138): R91 names no code for a bound bay with a bank that no BANKPLAN entry names; here it is BANK_PLAN with the
index of the BANKPLAN section. Entries for bays that the image does not bind are accepted.
The checks of R91, R92, R111, R479 and R563 that need more than the section they concern: each is made once the last of
the sections it needs has completed, here one of type `t`, after those of the types `seen`. `c` is what is staged, `m` what will
stand. -/
def checkAcross (l : Loading) (ds : List SecDir) (c m : ImgCfg) (seen : List Nat) (t : Nat) : Chk :=
  let sect := fun (t : Nat) => ((ds.find? (fun d => d.type_ == t)).map (·.ix)).getD noSection
  let due := fun (ts : List Nat) => ts.contains t && ts.all (fun u => u == t || seen.contains u || !ds.any (fun d => d.type_ == u))
  let when := fun (ts : List Nat) (k : Chk) => if due ts then k else none
  let banks := fun (k : Nat) => (List.range (banksOfKind (kindOfBay l.caps k))).all (fun b => c.bankPlan.any (fun p => p.bay == k && p.bank == b))
  let graphs := if l.patch && !ds.any (fun d => d.type_ == 8) then m.graphs else c.graphs
  firstBad [
    when [3, 4] (need (c.binds.all (fun b => banks b.bay)) dBank (sect 3)),
    when [4, 8] (need (c.binds.all (fun b => match graphs.find? (fun g => g.num == b.graph) with
      | some g => hasBit g.bays b.bay
      | none => false)) dFormat (sect 4)),
    when [4, 5] (need (c.binds.all (fun b => match c.profiles.find? (fun p => p.num == b.profile) with
      | some p => p.engine == b.engine
      | none => false)) dFormat (sect 4)),
    when [4, 8] (need (m.graphs.all (fun g => decide (((m.binds.filter (fun b => b.graph == g.num)).map (·.engine)).eraseDups.length ≤ 16)))
      dFormat (sect 8)),
    when [4, 5, 8] (need (m.binds.all (fun b => match m.profiles.find? (fun p => p.num == b.profile), m.graphs.find? (fun g => g.num == b.graph) with
      | some p, some g =>
        if p.engine / 256 = 6 then decide (slotExtent p.body g.maxBatch ≤ packSlotBytes p.body)
        else if p.engine = 0x0301 then (m.bound b.graph).all (fun x => x.1.engine / 256 != 1 || decide (leAt p.body 0x08 4 ≤ leAt x.2.body 0x04 4))
        else true
      | _, _ => true)) dFormat (sect 5)),
    when [6] (need (routesOk l.caps m.routes) dRoute (sect 6))]

/-! ## Judge programs (R390, R393, R394, R397 to R399) -/

/-- Operand formats that one MAC layer may mix (R390). -/
def fmtsMix (a w : Nat) : Bool := within a 3 6 && within w 3 6 && ((decide (5 ≤ a) && decide (5 ≤ w)) || a == w)

/-- One layer against the program and the size of its weights table. -/
def layerOk (p : Bytes) (wsize n : Nat) : Bool :=
  let l := layerOf p n
  let op := lyOp l
  let src := fun (off : Nat) => leAt l off 2
  let srcOk := fun (s : Nat) => s == 0xFFFF || decide (s < n)
  let vals := fun (s : Nat) => if s = 0xFFFF then jpInCount p else lyOutputs (layerOf p s)
  let two := op == 3 && decide (lyDim l 1 ≤ 1)
  let g := geomOf l
  within op 1 9 && within (lyOut l) 2 6 && decide (leAt l 0x0A 2 ≤ 256) && srcOk (src 6) && srcOk (src 8) &&
  vals (src 6) == lyInputs l && (!two || vals (src 8) == lyInputs l) &&
  (if op = 1 ∨ op = 2 then fmtsMix (leAt l 1 1) (leAt l 2 1) else true) &&
  (if op = 2 then within g.kh 1 16 && within g.kw 1 16 && within g.sy 1 15 && within g.sx 1 15 &&
      decide (g.kh ≤ lyDim l 0 + 2 * g.py) && decide (g.kw ≤ lyDim l 1 + 2 * g.px) else true) &&
  (if op = 3 then decide (lyDim l 1 ≤ 2) else true) &&
  (if op = 9 then within (lyDim l 2) 1 64 && decide (lyDim l 2 ≤ lyDim l 1) && lyOut l == 2 else true) &&
  (!lyFlag l 2 || decide (lyOutputs l ≤ 2 ^ 24)) &&
  (lyRanges l).all (fun r => decide (r.1 + r.2 ≤ wsize))

/-- A bound program with its profile (R393, R394, R398). -/
def programOk (body p : Bytes) (wsize : Nat) : Bool :=
  let n := jpLayers p
  let named := fun (v : Nat) => v == 0xFFFF || decide (v < n)
  leAt p 0 4 == 0x4744554A && within n 1 256 && decide (64 + 64 * n ≤ p.length) && decide (jpInFmt p ≤ 6) && named (jpEmit p) && named (jpVerdict p) &&
  (List.range n).all (layerOk p wsize) &&
  leAt p 0x0C 4 == (List.range n).foldl (fun a k => a + lyOutputs (layerOf p k) * fmtBytes (lyOut (layerOf p k))) (jpInCount p * fmtBytes (jpInFmt p)) &&
  (jpVerdict p == 0xFFFF ||
    (let l := layerOf p (jpVerdict p); decide (leAt body 0x0C 4 < (if lyOp l = 9 then lyOutputs l / 2 else lyOutputs l))))

/-- Judge profiles bound by the staged image: the program is named, PINNED, in order, and the activations fit (R393, R399). -/
def checkJudges (m : ImgCfg) (pinned : Tbl Bytes) (binds : List BayBind) (sect : Nat) : Chk :=
  firstBad ((binds.filter (fun b => b.engine == 0x0501)).map (fun b =>
    match m.profiles.find? (fun p => p.num == b.profile) with
    | none => none
    | some pr =>
      let id := leAt pr.body 0 4
      match m.tables.find? (fun t => t.id == id), tblGet? pinned id with
      | some t, some p =>
        let wsize := ((m.tables.find? (fun t => t.id == jpWeights p)).map (·.size)).getD 0
        let mine := (m.bankPlan.filter (fun x => x.bay == b.bay && x.kind == 1 && x.index == b.slot)).length
        let act := mine - ceilDiv p.length 262144 - leAt pr.body 6 1
        need (bitOf t.flags 0 && programOk pr.body p wsize && decide (leAt pr.body 4 2 * leAt p 0x0C 4 ≤ act * 262144)) dFormat sect
      | _, _ => some (dFormat, sect)))

end Sys2Proof.Machine
end

