-- ==== Sys2Proof/Machine/Truss.lean ====
section
/-! DEFINITION. The truss: launching and accepting beats (R49 to R54), their check at the consumer (R55 to R61), fenced
bays (R67), the hurdle (R245), and the resume of a stream with the units its engines hold (R249, R328, R373). -/

namespace Sys2Proof.Machine

/-! ## Beats at their consumer (R57 to R59) -/

/-- What the consumer of a beat finds: the data bits, corrected symbols, uncorrectable codewords. -/
def Beat.read (b : Beat) : Nat × Nat × Nat :=
  let lo := b.data.extractLsb' 0 128
  let hi := b.data.extractLsb' 128 128
  let a := readCodeword lo (b.check.extractLsb' 0 16)
  let z := readCodeword hi (b.check.extractLsb' 16 16)
  let val := fun (o : Option (BitVec 128 × Nat)) (d : BitVec 128) => ((o.map (·.1)).getD d).toNat
  let fix := fun (o : Option (BitVec 128 × Nat)) => (o.map (·.2)).getD 0
  (val a lo + val z hi * 2 ^ 128, fix a + fix z, b2n a.isNone + b2n z.isNone)

/-- The two codewords of a beat (R55). -/
def Beat.codes (b : Beat) : List Codeword :=
  [⟨b.data.extractLsb' 0 128, b.check.extractLsb' 0 16⟩, ⟨b.data.extractLsb' 128 128, b.check.extractLsb' 16 16⟩]

/-! ## What an engine does with a unit -/

/-- A unit reaches the engine of a bay. -/
def State.unitAt (bay mortise : Nat) (u : DataUnit) (s : State) : State :=
  match s.bayKind bay with
  | 2 => s.imageUnit bay mortise u
  | 3 => s.videoUnit bay mortise u
  | 4 => s.textUnit bay mortise u
  | 5 => s.judgeUnit bay mortise u
  | 6 => s.packUnit u
  | _ => s.sendUnit bay u true none

/-- What a bay holds of a sample is given up. -/
def State.giveUp (bay : Nat) (t : UnitTag) (s : State) : State :=
  (s.encDrop bay t).modBay bay (fun b => { b with
    heat := b.heat.filter (fun h => !(h.data.tag.stream == t.stream && h.data.tag.sampleIx == t.sampleIx && h.data.tag.gen == t.gen)) })

/-- A REJECT beat reaches a bay (R60). -/
def State.rejectArrives (bay mortise code : Nat) (t : UnitTag) (s : State) : State :=
  match s.bayKind bay with
  | 3 => s.videoReject bay mortise code t
  | 6 => s.packReject t
  | _ => if t.role = 3 then s.sendReject bay code t else (s.giveUp bay t).sendReject bay code t

/-- A unit is lost to an uncorrectable codeword (R59) or to lost framing (R61): its sample is rejected. -/
def State.unitLost (bay : Nat) (t : UnitTag) (s : State) : State := match s.tagStream t with
  | some (f, i, _) => ((s.giveUp bay t).rejectAt f i bay t stEcc 0).pump f i
  | none => s

/-! ## Arrival at a mortise -/

/-- The units being collected at a mortise. -/
def State.setAcc (bay mortise : Nat) (a : Option UnitAcc) (s : State) : State := s.modBay bay (fun b => { b with
  acc := match a with
    | some a => tblSet b.acc mortise a
    | none => b.acc.filter (fun p => p.1 != mortise) })

/-- What an engine kept is processed. A word that reads back as uncorrectable rejects its sample (R59, R259). -/
def State.unitAgain (bay mortise : Nat) (u : DataUnit) (s : State) : State :=
  if s.runsBad u.words then s.unitLost bay u.tag else s.unitAt bay mortise u

/-- Everything an engine sent together has arrived: it is written into the banks of the engine that takes it (R257), and handed to it, or
lost (R59). -/
def State.unitDone (bay mortise : Nat) (a : UnitAcc) (s : State) : State :=
  let s := s.setAcc bay mortise none
  let s := match s.byGidx a.tag.stream with
    | some (_, _, x) => s.engineWorks x.graph bay
    | none => s
  let (rs, s) := s.landUnit bay a.tag a.codes
  if a.bad then s.unitLost bay a.tag else s.unitAt bay mortise ⟨a.bytes, a.tag, rs⟩

/-- A unit of R60 ends: it is cut to its length. A picture that comes in several units waits for the rest of them. -/
def State.unitEnds (bay mortise kind : Nat) (a : UnitAcc) (s : State) : State :=
  let s := s.count 2 bay 6 1
  let want := min a.tag.len (a.start + groupBytes kind a.tag a.tag.len)
  let a := { a with bytes := a.bytes.take want }
  if want < a.tag.len then s.setAcc bay mortise (some a) else s.unitDone bay mortise a

/-- What has been collected when a unit of R60 begins: the earlier units of the same picture, or nothing. -/
def State.accBegins (s : State) (bay mortise : Nat) (t : UnitTag) : UnitAcc :=
  match tblGet? (s.bay bay).acc mortise with
  | some a => if a.tag = t then { a with start := a.bytes.length } else ⟨[], t, false, 0, []⟩
  | none => ⟨[], t, false, 0, []⟩

/-- A mark with odd parity or a reserved kind (R60, R61). -/
def markBad (m : BitVec 4) : Bool :=
  let k := fld m.toNat 0 3
  markOf k != m || k == 0 || k == 7

/-- A FLUSH beat has arrived at a mortise (R60). -/
def State.noteFlush (bay mortise gidx : Nat) (s : State) : State :=
  let k := gidx * 8 + mortise
  s.modBay bay (fun y => { y with flushed := if y.flushed.contains k then y.flushed else y.flushed ++ [k] })

/-- Framing on a route is lost (R61): the stream whose beat it was halts, and its sample is lost. -/
def State.loseFraming (r : Nat) (c : RouteCfg) (b : Beat) (s : State) : State :=
  let s := (s.setRoute r { s.route r with lostFraming := true }).setAcc c.mortiseBay c.mortisePort none
  let s := match s.byGidx b.tag.stream with
    | some (f, i, _) => (s.streamError f i stEcc 0).relays
    | none => s
  s.unitLost c.mortiseBay b.tag

/-- An engine reads a beat from its mortise (R57 to R61). A REJECT beat with an uncorrectable codeword rejects its sample for
that; a FLUSH beat with one is still the boundary of its stream (log 111). Beats of units that the mortise still takes while its
route is drained after lost framing are lost with their samples (log 76). -/
def State.beatRead (r : Nat) (c : RouteCfg) (b : Beat) (s : State) : State :=
  let bay := c.mortiseBay
  let m := c.mortisePort
  let s := s.count 3 r 0 1
  let k := fld b.mark.toNat 0 3
  if markBad b.mark then s.loseFraming r c b
  else if (s.route r).lostFraming && decide (k ≤ 4) then s.unitLost bay b.tag
  else
    let (d, fixed, lost) := b.read
    let s := (s.count 3 r 1 fixed).count 3 r 2 lost
    if k = 5 then (if lost = 0 then s.rejectArrives bay m (d % 256) b.tag else s.unitLost bay b.tag)
    else if k = 6 then s.noteFlush bay m (if lost = 0 then d % 1024 else b.tag.stream)
    else
      let old := if k = 1 ∨ k = 3 then (tblGet? (s.bay bay).acc m).getD ⟨[], b.tag, false, 0, []⟩ else s.accBegins bay m b.tag
      let a : UnitAcc := { old with bytes := old.bytes ++ natLe 32 d, bad := old.bad || decide (0 < lost), codes := old.codes ++ b.codes }
      if k = 1 ∨ k = 2 then s.setAcc bay m (some a) else s.unitEnds bay m c.unit a

/-- A beat that goes on with a unit whose first beat has been launched. -/
def Beat.goesOn (b : Beat) : Bool := fld b.mark.toNat 0 3 == 1 || fld b.mark.toNat 0 3 == 3

/-- The tenon of a route is within a unit: the rest of it is still to be launched. -/
def State.midUnit (s : State) (c : RouteCfg) : Bool := match tblGetD (s.bay c.tenonBay).out c.tenonPort [] with
  | b :: _ => b.goesOn
  | [] => false

/-- A route that lost framing is armed again once it is drained (R61): the unit under way at its tenon has been launched, and
every stage is empty. Units behind it wait at the tenon until then. -/
def State.rearmDrained (r : Nat) (c : RouteCfg) (s : State) : State :=
  if (s.route r).lostFraming && !s.midUnit c && s.stagesEmpty r c then s.setRoute r { s.route r with lostFraming := false } else s

/-- A unit that a video bay keeps and that waits for no buffer any more: its stream runs and has been granted what it asked for (R275). -/
def State.clipReady (s : State) (u : DataUnit) : Bool := u.tag.role == 0 && match s.tagStream u.tag with
  | some (f, i, x) => x.st != .halted && !s.awaitsBuffer (sKey f i)
  | none => false

/-- Units that an engine kept while their stream was halted or its bay stood still are processed (R151, R328, R373). -/
def State.wakeHeld (bay : Nat) (s : State) : State :=
  let us := (s.bay bay).held.filter (fun h => match s.byGidx h.2.tag.stream with
    | some (_, _, x) => x.st != .halted
    | none => true)
  if s.bayKind bay = 3 ∨ us.isEmpty ∨ !s.bayRuns bay then s
  else
    let s := s.modBay bay (fun b => { b with held := b.held.filter (fun h => !us.contains h) })
    (s.forEach us (fun h => State.unitAgain bay h.1 h.2)).passFlush bay

/-- When a unit is due at its engine (R235). -/
def State.dueOf (s : State) (u : DataUnit) : Option Nat × Nat := match s.tagStream u.tag with
  | some (_, _, x) => s.unitDue x u.tag.sampleIx
  | none => (none, u.tag.stream)

/-- What a video bay keeps for want of buffers is decoded or coded once it has them (R352), by deadline (R235); pictures of a sample that is
not whole stay. -/
def State.wakeClips (bay : Nat) (s : State) : State :=
  let us := sortBy (fun a b => dueBefore (s.bay bay).bestTurn (s.dueOf a.2) (s.dueOf b.2)) ((s.bay bay).held.filter (fun h => s.clipReady h.2))
  if s.bayKind bay ≠ 3 ∨ us.isEmpty ∨ !s.bayRuns bay then s
  else
    let s := s.modBay bay (fun b => { b with held := b.held.filter (fun h => !us.contains h) })
    (s.forEach us (fun h => State.unitAgain bay h.1 h.2)).passFlush bay

/-- A beat that its engine can take now: it reaches a bank for the data of a unit (R257, R260). -/
def State.canRead (s : State) (bay : Nat) (b : Beat) : Bool :=
  let k := fld b.mark.toNat 0 3
  k == 5 || k == 6 || markBad b.mark || s.canLand bay b.tag

/-- The engine reads what its mortise FIFO holds, in order, while its bay runs (R47, R54), up to a unit that it has no bank for. -/
def State.readFifo (r : Nat) (c : RouteCfg) (s : State) : State :=
  if !s.bayRuns c.mortiseBay then s
  else
    let s := (s.wakeHeld c.mortiseBay).wakeClips c.mortiseBay
    let bs := (s.route r).fifo.takeWhile (s.canRead c.mortiseBay)
    let s := s.setRoute r { s.route r with fifo := (s.route r).fifo.drop bs.length }
    ((s.forEach bs (State.beatRead r c)).passFlush c.mortiseBay).rearmDrained r c

/-- TRUSS_BEAT_ACCEPT (R51, R53, R54, R67): the mortise takes the beat that stands on the last link of a route, when its
FIFO has room; a fenced bay discards it. Then the engine reads. A beat before a crossing is taken by its bridge (R78). -/
def execTrussBeatAccept (route : BitVec 9) (link : BitVec 2) (s : State) : Out :=
  s.turn fun s =>
  let r := route.toNat
  let j := link.toNat
  match s.routeCfg? r with
  | none => .next s
  | some c =>
    let y := s.route r
    if j + 1 ≠ y.links.length then .next s
    else match (y.link j).idle, (y.link j).beat with
      | false, some b =>
        if s.fenced c.mortiseBay then .next ((s.acceptLink r j).count 2 c.mortiseBay 5 1)
        else if 16 ≤ y.fifo.length then .next (s.readFifo r c)
        else
          let s := s.acceptLink r j
          .next ((s.setRoute r { s.route r with fifo := (s.route r).fifo ++ [b] }).readFifo r c)
      | _, _ => .next (s.readFifo r c)

/-- A sidecar unit leaves after its data (R387, R407): a beat of it waits while one of them waits at another tenon of the bay. -/
def State.sideWaits (s : State) (bay tenon : Nat) (b : Beat) : Bool :=
  b.tag.role == 2 && (s.bay bay).out.any (fun p => p.1 != tenon && p.2.any (fun y => y.tag.role != 2 && y.tag.stream == b.tag.stream &&
    y.tag.sampleIx == b.tag.sampleIx && y.tag.gen == b.tag.gen && y.tag.ordinal == b.tag.ordinal))

/-- TENON_LAUNCH (R54, R67): one beat onto the idle first link of the tenon's route; a sidecar's after its data's (R387, R407). A bay that
is fenced, stopped or not in RUN launches none (R45, R67, R151). While a route is drained after lost framing no further unit starts on it (R61). -/
def execTenonLaunch (bay : BitVec 6) (tenon : BitVec 3) (s : State) : Out :=
  let k := bay.toNat
  let t := tenon.toNat
  if !s.bayRuns k then .next s
  else match s.image.committed.bind (fun c => c.routes.find? (fun r => r.tenonBay == k && r.tenonPort == t)) with
    | none => .next s
    | some c =>
      let s := s.rearmDrained c.route c
      let b := s.bay k
      let y := s.route c.route
      match tblGetD b.out t [] with
      | beat :: rest =>
        if !(y.link 0).idle || y.links.isEmpty || (y.lostFraming && !beat.goesOn) || s.sideWaits k t beat then .next s
        else
          let s := s.setBay k { b with out := if rest.isEmpty then b.out.filter (fun p => p.1 != t) else tblSet b.out t rest }
          .next (s.setRoute c.route (y.setLink 0 ((y.link 0).drive beat)))
      | [] => .next s

/-! ## The hurdle (R245) -/

/-- The committed routes of a graph. -/
def State.graphRoutes (s : State) (g : Graph) : List RouteCfg := (List.range s.nBays).flatMap (s.routesFrom g)

/-- HURDLE_PASS (R245): the earlier stage has sent its FLUSH beats, they have passed on through its graph, every route of it is idle,
its last batch is delivered, which it is once the earlier stream is FREE. The stage before an epoch's boundary is the stream itself; open rows (R433) hold
nothing back (log 59). -/
def execHurdlePass (fn : BitVec 6) (stream : BitVec 10) (s : State) : Out :=
  let f := fn.toNat
  let i := stream.toNat
  let x := s.stream f i
  if !s.live || x.st == .free || x.st == .halted || !x.hurdle then .next s
  else
    let (gx, graph) := x.before.getD (x.gidx, x.graph)
    let rs := match s.graph? graph with
      | some g => s.graphRoutes g
      | none => []
    let flushing := s.bays.any (fun b => b.2.flushed.any (fun k => k / 8 == gx))
    let done : Bool := match x.before, x.follows with
      | some _, some p =>
        let e := s.stream f p
        e.ended && e.flushSent && e.inFlight.isEmpty && e.ready.isEmpty && e.placed.isEmpty && e.openRows.isEmpty && e.closedRows.isEmpty &&
          e.xfer.isNone && e.finished.isEmpty && e.waitingRecs.isEmpty
      | some _, none => true
      | none, _ => x.inFlight.isEmpty && x.ready.isEmpty && x.xfer.isNone && x.finished.isEmpty && x.waitingRecs.isEmpty &&
          decide ((if s.packsSeq x.graph then x.nextPlace / x.batch else x.lastRunEnd s.meet) ≤ x.delivered)
    if flushing || !done || !rs.all (fun r => s.routeIdle r.route r) then .next s
    else .next (s.setStream f i { x with hurdle := false, before := none })

/-! ## STREAM_RESUME (R223, R249) -/

/-- Units that wait for their stream are processed once it runs again (R328, R373), in the bays that run (R151). -/
def State.releaseHeld (gidx : Nat) (s : State) : State :=
  s.forEach (List.range s.nBays) (fun k s =>
    let us := (s.bay k).held.filter (fun h => h.2.tag.stream == gidx)
    if us.isEmpty || !s.bayRuns k then s else
      let s := s.modBay k (fun b => { b with held := b.held.filter (fun h => h.2.tag.stream != gidx) })
      (s.forEach us (fun h => State.unitAgain k h.1 h.2)).passFlush k)

/-- STREAM_RESUME: the stream runs again and its engines go on. A bad word of a pinned table halts it again (R259). -/
def State.resumeEntry (f q : Nat) (j : Job) (bs : Bytes) (s : State) : State :=
  let i := leAt bs 0x08 2
  let x := s.stream f i
  if 1023 < i ∨ x.st ≠ .halted then s.entryDone f q j bs stMalformed 22
  else if x.restored && x.srcCheck.isSome && x.restoreSource.isNone then s.entryDone f q j bs stMalformed 26
  else
    let s := ((s.resumeStream f i).releaseHeld x.gidx).entryDone f q j bs stOk 0
    if (List.range s.nBays).any (fun k => hasBit (s.graphOf x).bays k && s.pinnedBad k) then (s.streamError f i stEcc 0).relays else s

def execStreamResume (fn : BitVec 6) (q : BitVec 9) (slot : BitVec 16) (v : MemView) (s : State) : Out :=
  s.runEntry 0x0D fn.toNat q.toNat slot.toNat v (State.resumeEntry fn.toNat q.toNat)

end Sys2Proof.Machine
end

