-- ==== Sys2Proof/Machine/ImageLoad.lean ====
section
/-! DEFINITION. Loading an Agenel image: IMG_CTRL (R107, R108, R571), the two passes (R110), tables (R103, R104), draining
(R113), the commit (R114, R178, R402, R403, R472). -/

namespace Sys2Proof.Machine

/-! ## Verification and staging (R109, R110, R112) -/

/-- The steward's reads come back whole, or a rejection: READ_FAULT or READ_POISON (R112). DESIGN CHOICE (log 115): SECTION is then
0x7F, also where the read served a section, a chunk list or a pinned chunk. -/
def State.stewardRead (port addr len : Nat) (s : State) : Except (Nat × Nat) Bytes × State :=
  match s.sysRead (.steward port) addr len with
  | (.okay, bs, s) => (.ok bs, s)
  | (.poison, _, s) => (.error (0x0A, noSection), s)
  | (_, _, s) => (.error (0x09, noSection), s)

/-- R109. -/
def State.loadAllowed (s : State) (kind : Nat) : Bool :=
  if kind = 2 then s.frame.st == .running && s.image.committed.isSome
  else s.shown == .ready || (s.frame.st == .running && s.image.committed.isSome && s.openStreams.isEmpty && s.allQueues.all (fun q => !q.2.2.enabled))

/-- A configuration with nothing staged yet. -/
def stagedFresh (h digest : Bytes) : ImgCfg :=
  { kind := hdKind h, meetSize := leAt h 0x54 4, modes := leAt h 0x58 1, patchBays := hdPatch h, platform := platformOf [], tables := [],
    tableMap := [], bankPlan := [], binds := [], profiles := [], hasRoutes := false, hasGraphs := false, routes := [], queues := [],
    graphs := [], digest := digest, bindSection := noSection }

/-- The signature of R99: the slot is read once, at this check (R502). -/
def State.checkSignature (s : State) (h sig digest : Bytes) : Chk :=
  match tblGet? s.sec.digests (leAt h 0x59 1) with
  | none => some (0x05, noSection)
  | some d => firstBad [need (sigKeyDigest sig == d) 0x06 noSection, need (sigBlockVerify sig digest) 0x07 noSection]

/-- The table map (R103): an entry for every named table. -/
def State.readMap (ts : List TableRef) (sect at_ : Nat) (s : State) : Except (Nat × Nat) (List TableMapEnt) × State :=
  match s.stewardRead 0 at_ 16 with
  | (.error e, s) => (.error e, s)
  | (.ok hd, s) =>
    let n := leAt hd 0 4
    if 2 ^ 64 < at_ + 16 + 24 * n then (.error (dLayout, sect), s) else
    match s.sysRead (.steward 0) (at_ + 16) (24 * n) with
    | (.poison, _, s) => (.error (0x0A, noSection), s)
    | (.okay, bs, s) =>
      let es := (List.range n).map (fun k => bytesAt bs (24 * k) 24)
      let find := fun (t : TableRef) => match es.filter (fun e => leAt e 0 4 == t.id) with
        | [e] => if leAt e 8 8 % 64 = 0 ∧ leAt e 16 8 % 64 = 0 then some (⟨t.id, leAt e 8 8, leAt e 16 8, []⟩ : TableMapEnt) else none
        | _ => none
      (match ts.mapM find with
        | some m => .ok m
        | none => .error (dLayout, sect), s)
    | (_, _, s) => (.error (dLayout, sect), s)

/-- Every chunk list, read and checked against LIST_DIGEST (R102, R104). -/
def State.readLists (sect : Nat) : List (TableRef × TableMapEnt) → State → Except (Nat × Nat) (List TableMapEnt) × State
  | [], s => (.ok [], s)
  | (t, m) :: rest, s =>
    match s.stewardRead 0 m.listAddr (32 * ceilDiv t.size 65536) with
    | (.error e, s) => (.error e, s)
    | (.ok bs, s) =>
      if sha256 bs != t.listDigest then (.error (0x11, sect), s)
      else match s.readLists sect rest with
        | (.ok ms, s) => (.ok ({ m with chunks := chunks 32 bs.length bs } :: ms), s)
        | (e, s) => (e, s)

/-- The chunks of a PINNED table, each through the intake bay of its port (R104). -/
def State.pinChunks (sect addr : Nat) (ports : List Nat) : Nat → Nat → List Bytes → State → Except (Nat × Nat) Bytes × State
  | _, _, [], s => (.ok [], s)
  | c, left, d :: ds, s =>
    let n := min left 65536
    match s.stewardRead (ports.getD (c % max 1 ports.length) 0) (addr + 65536 * c) n with
    | (.error e, s) => (.error e, s)
    | (.ok bs, s) =>
      if sha256 bs != d then (.error (0x11, sect), s)
      else match s.pinChunks sect addr ports (c + 1) (left - n) ds with
        | (.ok r, s) => (.ok (bs ++ r), s)
        | (e, s) => (e, s)

/-- A vocabulary bound in a text bay: every such one is resident (R378). DESIGN CHOICE (log 140): the manual names no rejection for one whose
PINNED bit is 0; it is copied into the banks as if the bit were 1. -/
def ImgCfg.resident (c : ImgCfg) (id : Nat) : Bool :=
  c.binds.any (fun b => b.engine / 256 == 4 && (match c.profiles.find? (fun p => p.num == b.profile) with
    | some p => (List.range 16).any (fun j => leAt p.body (4 * j) 4 == id)
    | none => false))

/-- All PINNED tables, and those that are resident (R104, R378). -/
def State.pinTables (c : ImgCfg) (sect : Nat) : List (TableRef × TableMapEnt) → State → Except (Nat × Nat) (Tbl Bytes) × State
  | [], s => (.ok [], s)
  | (t, m) :: rest, s =>
    if !bitOf t.flags 0 && !c.resident t.id then s.pinTables c sect rest
    else
      let ports := (List.range s.nPorts).filter (fun n => s.portUp n && s.frame.diesUp.contains (s.caps.portDie.getD n 0))
      match s.pinChunks sect m.dataAddr ports 0 t.size m.chunks with
      | (.error e, s) => (.error e, s)
      | (.ok bs, s) => match s.pinTables c sect rest with
        | (.ok r, s) => (.ok (tblSet r t.id bs), s)
        | (e, s) => (e, s)

/-- Buffers of DPB_POOL are large enough (R352); its local pool stands for every enabled pool of that number (log 28). -/
def State.dpbOk (s : State) (m : ImgCfg) : Bool :=
  m.profiles.all (fun p => p.engine != 0x0301 || s.pools.all (fun x =>
    !x.2.enabled || x.2.localNo != leAt p.body 0x18 1 ||
      decide (leAt p.body 0x04 4 * (if hasBit (leAt p.body 0x0C 1) 2 || hasBit (leAt p.body 0x0C 1) 4 then 6 else 3) ≤ 2 * 2 ^ x.2.log2Size)))

/-- What will stand after a load: a patch over the committed configuration, or the image itself (R114). -/
def State.toStand (s : State) (c : ImgCfg) : ImgCfg := match s.image.committed with
  | some base => if c.kind = 2 then c.over base else c
  | none => c

/-- fetch_tables of R110, and the judge programs that need it (R398; log 29): those of every bay that will be bound, since a patch may
replace a table that the program of an unpatched bay uses. -/
def State.fetchTables (h : Bytes) (ds : List SecDir) (c : ImgCfg) (s : State) : Except (Nat × Nat) (ImgCfg × Tbl Bytes) × State :=
  let sect := fun (t : Nat) => ((ds.find? (fun d => d.type_ == t)).map (·.ix)).getD noSection
  let judges := fun (c : ImgCfg) (pins : Tbl Bytes) (s : State) =>
    let m := s.toStand c
    let all : Tbl Bytes := (if hdKind h = 2 then s.image.pinned.filter (fun p => !c.tables.any (fun t => t.id == p.1)) else []) ++ pins
    match checkJudges m all m.binds (sect 5) with
    | some e => (Except.error e, s)
    | none => (.ok (c, all), s)
  if !ds.any (fun d => d.type_ == 2) then judges c [] s
  else
    match s.readMap c.tables (sect 2) (s.image.addr + hdSigned h) with
    | (.error e, s) => (.error e, s)
    | (.ok ms, s) => match s.readLists (sect 2) (c.tables.zip ms) with
      | (.error e, s) => (.error e, s)
      | (.ok ms, s) => match s.pinTables (s.toStand c) (sect 2) (c.tables.zip ms) with
        | (.error e, s) => (.error e, s)
        | (.ok pins, s) => judges { c with tableMap := ms } pins s

/-- What is checked once a section has completed, after its own checks (R110): across sections; at BAYBIND, that no patched bay is
fenced; at PROFILES, the buffers of R352. -/
def State.sectionDone (l : Loading) (ds : List SecDir) (seen : List Nat) (d : SecDir) (c : ImgCfg) (s : State) : Chk :=
  firstBad [
    checkAcross l ds c (s.toStand c) seen d.type_,
    need (d.type_ != 4 || (List.range 64).all (fun k => !(hasBit c.patchBays k && s.fenced k))) dFenced d.ix,
    need (d.type_ != 5 || s.dpbOk c) dFormat d.ix]

/-- Pass 2 (R110): the bytes from `read` on, up to the end of each section in ascending offset order, and each section checked and
staged as it completes; then the rest of the signed bytes. Each type is allowed and comes once. DESIGN CHOICE (log 116): a missing
section is found after every present one, with SECTION 0x7F. -/
def State.stageAll (l : Loading) (ds : List SecDir) (read : Bytes) (seen : List Nat) :
    List SecDir → ImgCfg → State → Except (Nat × Nat) (ImgCfg × Bytes) × State
  | [], c, s =>
    if !(typesRequired l.patch).all (fun t => seen.contains t) then (.error (dType, noSection), s)
    else match s.stewardRead 0 (s.image.addr + read.length) (hdSig l.hdr - read.length) with
      | (.error e, s) => (.error e, s)
      | (.ok rest, s) => (.ok (c, read ++ rest), s)
  | d :: rest, c, s =>
    match s.stewardRead 0 (s.image.addr + read.length) (d.offset + d.size - read.length) with
    | (.error e, s) => (.error e, s)
    | (.ok bs, s) =>
      let img := read ++ bs
      if !typeAllowed l.patch d.type_ || seen.contains d.type_ then (.error (dType, d.ix), s)
      else match stageSection l img d c with
        | .error e => (.error e, s)
        | .ok c => match s.sectionDone l ds seen d c with
          | some e => (.error e, s)
          | none => State.stageAll l ds img (d.type_ :: seen) rest c s

/-- The load of R110 up to DRAINING or COMMITTING. `between` is what memory shows to pass 2 and later reads. DESIGN CHOICE (log 113):
the directory is read with pass 1, so what R87 asks of the sections is checked after it and before the signature, and SECTION then is
the directory index. -/
def State.loadImage (between : MemView) (s : State) : Except (Nat × Nat) (ImgCfg × Tbl Bytes) × State :=
  let a := s.image.addr
  if s.sec.cryptoError then (.error (0x15, noSection), s)
  else match s.stewardRead 0 a 256 with
  | (.error e, s) => (.error e, s)
  | (.ok h, s) =>
    let kind := hdKind h
    let s : State := { s with image := { s.image with kind := if kind = 1 ∨ kind = 2 then kind else 0 } }
    match firstBad [checkHeader h, need (a % 4096 == 0) dLayout noSection, need (s.loadAllowed kind) 0x14 noSection, need (bytesAt h 0x20 32 == s.caps.fingerprint) 0x04 noSection] with
    | some e => (.error e, s)
    | none => match s.stewardRead 0 a (hdSigned h) with
      | (.error e, s) => (.error e, s)
      | (.ok img, s) =>
        let d1 := sha384 (img.take (hdSig h))
        let ds := directory img h
        match firstBad [checkLayout h ds, s.checkSignature h (bytesAt img (hdSig h) 256) d1,
            need (kind != 2 || bytesAt h 0x68 48 == s.image.digest) 0x12 noSection] with
        | some e => (.error e, s)
        | none =>
          let l : Loading := ⟨s.caps, (List.range s.nBays).filter s.fenced, h, s.image.committed⟩
          match (s.seeMem between).stageAll l ds [] [] (sortBy (fun (x y : SecDir) => decide (x.offset ≤ y.offset)) ds) (stagedFresh h d1) with
          | (.error e, s) => (.error e, s)
          | (.ok (c, img2), s) =>
            if sha384 img2 != d1 then (.error (0x08, noSection), s) else s.fetchTables h ds c

/-- Streams that a patch affects close with STREAM_ABORTED under FORCE (R113). -/
def State.forceDrain (s : State) : State :=
  if s.image.st == .draining && s.image.force then s.abortWhere (fun _ _ x => s.patchAffects (s.graphOf x)) else s

/-- START (R108, R110). DESIGN CHOICE (log 117): R572 does not say what DETAIL, SECTION and KIND show while a load runs or after one
that failed early; here START clears DETAIL and SECTION, KIND keeps its value until a header has been read, and a header whose KIND
is neither code leaves 0. -/
def State.startLoad (between : MemView) (s : State) : State :=
  let s : State := { s with image := { s.image with st := .verifying, detail := 0, sect := noSection, staged := none } }
  match s.loadImage between with
  | (.error (d, i), s) => s.rejectImage d i
  | (.ok (c, pins), s) =>
    { s with image := { s.image with st := if c.kind = 2 then .draining else .staging, staged := some c, stagedPins := pins } }

/-- A write of IMG_CTRL (R107, R108, R494, R571): without a session only REFUSED is set; START and ABORT together act as ABORT. -/
def State.imgCtrl (value : Nat) (v between : MemView) (s : State) : State :=
  let s := s.seeMem v
  if !s.sec.session then s.secRefuse
  else
    let s : State := { s with image := { s.image with force := bitOf value 2 } }
    let s := if bitOf value 1 then (if s.image.st == .committing then s else s.stopLoad 0x17)
      else if bitOf value 0 then (if s.loading then { s with image := { s.image with overrun := true } } else s.startLoad between)
      else s
    s.forceDrain

/-! ## Graph digests (R472) -/

/-- Placement fields of a body: (offset, bytes). -/
def placementFields (e : Nat) : List (Nat × Nat) :=
  if e / 256 = 1 then [(0x0F, 1), (0x40, 4)] ++ (List.range 8).map (fun j => (0x11 + 2 * j, 1))
  else if e / 256 = 2 then [(0x09, 1), (0x94, 4)]
  else if e = 0x0301 then [(0x18, 1), (0x1C, 4)]
  else if e = 0x0302 then [(0x1C, 1), (0x20, 4)]
  else if e / 256 = 4 then [(0x6A, 1), (0x6B, 1), (0x80, 1), (0x84, 4)]
  else if e / 256 = 5 then [(0x06, 1), (0x07, 1), (0x08, 1), (0x0B, 1), (0x1E, 2)]
  else [(0x38, 1), (0x3C, 4)]

/-- A body with its placement fields at 0. -/
def digestBody (e : Nat) (b : Bytes) : Bytes := (placementFields e).foldl (fun b f => overlay b f.1 (zeros f.2)) b

/-- Bytes compared from the first on. -/
def bytesLe : Bytes → Bytes → Bool
  | [], _ => true
  | _, [] => false
  | a :: as, b :: bs => if a = b then bytesLe as bs else decide (a.toNat < b.toNat)

/-- The tables that a bound profile references (R472): those that it names, and the weights of the judge program that it names (R393), of
which `pins` holds the bytes (log 30). -/
def ImgCfg.digestTables (c : ImgCfg) (pins : Tbl Bytes) (e : Nat) (body : Bytes) : List Nat :=
  profileTables c.tables e body ++ (if e / 256 = 5 then [jpWeights (tblGetD pins (leAt body 0 4) [])] else [])

/-- GRAPH_DIGEST of a graph. -/
def ImgCfg.graphDigest (c : ImgCfg) (pins : Tbl Bytes) (g : Graph) : Bytes :=
  let ps := sortBy (fun (a b : Nat × Bytes) => decide (a.1 < b.1) || (a.1 == b.1 && bytesLe a.2 b.2))
    ((c.bound g.num).map (fun x => (x.1.engine, digestBody x.1.engine x.2.body))).eraseDups
  let ids := ((c.bound g.num).flatMap (fun x => c.digestTables pins x.1.engine x.2.body)).eraseDups.filter (· != 0)
  let ts := (sortBy (fun (a b : Nat) => decide (a ≤ b)) ids).filterMap (fun id => c.tables.find? (fun t => t.id == id))
  sha256 (natLe 1 g.direction ++ natLe 2 c.meetSize ++ ps.flatMap (fun p => natLe 2 p.1 ++ p.2) ++ ts.flatMap (fun t => natLe 4 t.id ++ t.listDigest))

/-! ## Commit (R114) -/

/-- The bank plan becomes every planned bank's pending request (R263); after a full image banks outside the plan go to
nobody. A request that names the current owner is none, and its pinned tables are loaded at once (R104). -/
def State.planBanks (bays : List Nat) (s : State) : State :=
  s.forEach (s.allBanks.filter (fun b => bays.contains (b / 48) && !s.fenced (b / 48))) (fun b s =>
    let p := s.planOf b
    let here := decide ((s.bank b).kind = p.1 ∧ (s.bank b).index = p.2)
    let s := s.modBank b (fun x => { x with pending := if here then none else some ⟨p.1, p.2, false, true⟩ })
    if here then s.fillPinned b else s)

/-- Bays leave PARK when the image binds them and go to it when no graph does (R45, R48), each by a clock step (R43). A bound bay
gets the clock of its die's throttle level (R29, R32). -/
def State.parkBays (s : State) : State :=
  s.forEach ((List.range s.nBays).filter (fun k => !s.fenced k)) (fun k s =>
    let clock := s.targetClock (s.bayDie k) k
    if !s.bayBound k then s.parkBay k
    else if (s.bay k).pstate = .park then s.requestStep k clock
    else s.wantClock k clock)

/-- A route that the image tears down and arms again (R114). -/
def ImgCfg.replaces (p : ImgCfg) (r : RouteCfg) : Bool :=
  p.kind == 1 || (p.hasRoutes && (hasBit p.patchBays r.tenonBay || hasBit p.patchBays r.mortiseBay))

/-- Every route that an image replaces, and every route of a bay that no graph will bind, is idle (R48, R64, R114): `c` is what will
stand. -/
def State.routesSettled (p c : ImgCfg) (s : State) : Bool :=
  let leaves := fun (k : Nat) => !c.binds.any (fun b => b.bay == k)
  ((s.image.committed.map (·.routes)).getD []).all (fun r =>
    !(p.replaces r || leaves r.tenonBay || leaves r.mortiseBay) || s.routeIdle r.route r)

/-- Routes torn down and armed again (R64, R114). -/
def State.armRoutes (old : Option ImgCfg) (c p : ImgCfg) (s : State) : State :=
  let gone := ((old.map (·.routes)).getD []).filter p.replaces
  let s : State := { s with routes := s.routes.filter (fun x => !gone.any (fun r => r.route == x.1)) }
  s.forEach (c.routes.filter p.replaces) (fun r s => s.setRoute r.route (s.armRoute r))

/-- Queue registers take the image's defaults (R212); responses that old queues wait for are discarded. -/
def State.defineQueues (c : ImgCfg) (s : State) : State :=
  let s := s.dropReqs (fun r => r.owner.queue?.isSome)
  c.queues.foldl (fun s d => s.setQueue d.func d.localQ (Queue.fresh.defaulted d)) { s with queues := [] }

/-- The heat copy of the new image (R402, R403): its need, a fresh key, no valid record. -/
def State.newHeat (c : ImgCfg) (s : State) : State :=
  let bytes := (heatTables c.allBound s.image.pinned).foldl (fun n t => n + heatBytes (((c.tables.find? (fun r => r.id == t)).map (·.size)).getD 0)) 0
  let s : State := { s with heat := { s.heat with need := bytes / 4096 } }
  match s.drbgGen 32 with
  | (some k, s) => { s with sec := { s.sec with heatKey := some k, heatValid := [] } }
  | (none, s) => s

/-- IMAGE_COMMIT (R114): a full image once it is staged, a patch once no affected stream is open (R113); the routes that it
replaces must be idle (R64). Streams or queues that came up during the load of a full image reject it by R109 (log 31). A frame that so
reaches RUNNING with a die at throttle level 4 is in WALK at once (R568). DESIGN CHOICE (log 138): a function that a partition error
halted before the first full image becomes OPEN with every other function (R178, against R179, by which only a reset ends HALTED), and
keeps HALT_CODE. -/
def execImageCommit (s : State) : Out :=
  if s.frame.st == .fatal then .next s else
  match s.image.st, s.image.staged with
  | .staging, some p =>
    if s.sec.selftestBusy || s.sec.zeroising then .next s
    else if !s.loadAllowed 1 then .next (s.rejectImage 0x14 noSection)
    else if !s.routesSettled p p then .next s
    else .next (commit p p s)
  | .draining, some p =>
    let s := s.forceDrain
    let c := s.toStand p
    if s.sec.selftestBusy || s.sec.zeroising || s.openStreams.any (fun x => s.patchAffects (s.graphOf x.2.2)) || s.image.committed.isNone ||
        !s.routesSettled p c then .next s
    else .next (commit p c s)
  | _, _ => .next s
where
  commit (p c : ImgCfg) (s : State) : State :=
    let old := s.image.committed
    let full := p.kind == 1
    let starts := s.frame.st == .ready
    let s : State := { s with
      image := { s.image with
        st := .done, staged := none, committed := some c, digest := p.digest, pinned := s.image.stagedPins, stagedPins := [],
        graphDigests := c.graphs.foldl (fun t g => tblSet t g.num (c.graphDigest s.image.stagedPins g)) [] },
      frame := { s.frame with committed := true, st := if s.frame.st == .ready then .running else s.frame.st } }
    let s := if full then s.defineQueues c else s
    let s : State := if old.isNone then { s with funcs := (List.range s.caps.funcs).foldl (fun t f =>
      tblSet t f { tblGetD t f Func.fresh with st := .open_ }) s.funcs } else s
    let s := s.armRoutes old c p
    let s := s.planBanks (if full then List.range s.nBays else (List.range 64).filter (fun k => hasBit p.patchBays k))
    let s := s.parkBays
    let s := if full then s.wantClock 64 c.platform.ctrlMhz else s
    let s := s.newHeat c
    if starts then s.walkAtCommit else s

end Sys2Proof.Machine
end

