-- ==== Sys2Proof/Machine/RegRead.lean ====
section
/-! DEFINITION. The register map (R554, R555) and what every register reads as (R9, R12, R14). -/

namespace Sys2Proof.Machine

/-! ## Pages (R136, R138, R554) -/

inductive Page where
  | func (n : Nat)
  | frame
  | management
  deriving DecidableEq, Repr

/-- The page and offset of a byte address; none outside the three kinds of page. -/
def Caps.pageOf (c : Caps) (a : Nat) : Option (Page × Nat) :=
  let n := a / 0x10000
  let off := a % 0x10000
  if n < 64 then (if n < c.funcs then some (.func n, off) else none)
  else if n = 64 then some (.frame, off) else if n = 65 then some (.management, off) else none

/-- R138. -/
def Page.allows (p : Page) (a : Acc) : Bool := match p, a.origin with
  | .func n, .function => n == a.fn.toNat
  | .func _, .frame => true
  | .frame, .frame => true
  | .management, .management => true
  | _, _ => false

/-- Function pages neither read nor take writes before READY_FOR_IMAGE (R557). -/
def State.early (s : State) : Bool := match s.shown with
  | .reset | .boot | .selfTest => true
  | _ => false

/-- The base address of a page. -/
def Page.base : Page → Nat
  | .func n => n * 0x10000
  | .frame => 0x400000
  | .management => 0x410000

/-! ## Values -/

/-- Fields from the lowest bit: (position, value). -/
def fields (l : List (Nat × Nat)) : Nat := l.foldl (fun n p => n + p.2 * 2 ^ p.1) 0

/-- STV_VERSION and the CAP_* registers, on every page (R559). -/
def Caps.capReg (c : Caps) (off : Nat) : Option Nat :=
  if off = 0x000 then some stvVersion else if off = 0x004 then some c.dies else if off = 0x008 then some c.bays.length
  else if off = 0x00C then some c.portsReg else if off = 0x010 then some c.funcs else if off = 0x014 then some c.queues else none

/-- An array of 32-bit words at `start`: the index of an offset. -/
def arrayIx (off start n : Nat) : Option Nat := if start ≤ off ∧ off < start + 4 * n ∧ off % 4 = 0 then some ((off - start) / 4) else none

/-- FUNC_STATUS.STATE. -/
def FnSt.code : FnSt → Nat
  | .closed => 0 | .open_ => 1 | .resetting => 2 | .halted => 3

/-- STREAM_STATUS.STATE. -/
def StreamSt.code : StreamSt → Nat
  | .free => 0 | .filling => 1 | .running => 2 | .halted => 3 | .draining => 4

/-- IMG_STATUS.STATE. -/
def ImgSt.code : ImgSt → Nat
  | .idle => 0 | .verifying => 1 | .staging => 2 | .draining => 3 | .committing => 4 | .done => 5 | .rejected => 6

/-- BAY_STATUS.PSTATE. -/
def PState.code : PState → Nat
  | .run => 0 | .doze => 1 | .park => 2 | .fenced => 3

def State.streamStatus (f i : Nat) (s : State) : Nat :=
  let x := s.stream f i
  let held := x.st != .free && x.grouped && !x.loose && !x.finished.isEmpty
  fields [(0, x.st.code), (3, b2n x.guaranteed), (4, b2n x.void), (5, b2n x.grouped), (6, b2n held), (8, x.haltCode), (16, x.group.getD 0), (22, x.pageGroup)]

def State.queueStatus (f q : Nat) (s : State) : Nat :=
  let x := s.queue f q
  fields [(0, b2n x.enabled), (1, b2n x.quiet), (2, b2n x.disabling), (3, b2n x.fault), (4, b2n x.enableRefused), (5, b2n x.cfgIgnored),
    (6, b2n x.enabling), (8, x.faultCode)]

def State.poolStatus (p : Nat) (s : State) : Nat :=
  let x := s.pool p
  fields [(0, b2n x.enabled), (1, b2n x.fault), (2, b2n x.stalled), (3, b2n x.refused), (4, b2n x.preempted), (8, x.free)]

/-- ERR_LOG_SEQ (R578). -/
def LogRing.seqReg (r : LogRing) : Nat := fields [(0, r.next % 2 ^ 24), (31, b2n r.fault)]

/-- A bank that a present bay has. -/
def State.bankStatus (b : Nat) (s : State) : Nat :=
  let x := s.bank b
  fields [(0, x.kind), (3, x.index), (13, b2n (x.pending.isSome || x.clearing)), (14, b2n (s.batonOut b)), (15, b2n x.clearing), (16, b2n x.marchFail),
    (17, b2n x.uncorr), (18, b2n x.refused), (19, b2n (s.fenced (b / 48))), (24, x.corr)]

def State.bankOwner (b : Nat) (s : State) : Nat := match (s.bank b).pending with
  | some r => fields [(0, r.kind), (3, b2n r.clear), (4, r.index)]
  | none => fields [(0, (s.bank b).kind), (4, (s.bank b).index)]

def State.bayStatus (k : Nat) (s : State) : Nat :=
  let t := s.bayKind k
  fields [(0, t), (4, s.bayDie k), (8, banksOfKind t), (16, (enginesOf t).length), (24, (s.bay k).pstate.code)]

def State.clkStep (k : Nat) (s : State) : Nat :=
  let b := s.bay k
  fields [(0, b.mhz % 2048), (11, b2n b.cstep.req), (12, b.clkState)]

/-- The shadow of a counter (R545, R569): `page` is a function page's function. -/
def State.cntShadow (page : Option Nat) (sel : Nat) (s : State) : Nat :=
  let c := fld sel 0 6
  let i := fld sel 6 12
  let g := fld sel 18 4
  let rd := fun (g i : Nat) => tblGetD s.tel.shadow (cntKey g i c) 0
  match page with
  | none => rd g i
  | some f =>
    if g = 4 then (if i < 1024 ∧ (s.stream f i).st ≠ .free then rd 4 (s.stream f i).gidx else 0)
    else if g = 5 then (if i < 512 ∧ (s.queue f i).present then rd 5 (s.queue f i).qid else 0)
    else if g = 6 then (match s.poolNo f i with
      | some p => rd 6 p
      | none => 0)
    else if g = 8 then (if i = 0 then rd 8 f else 0)
    else 0

/-- SEC_STATUS.APPROVED (R510). -/
def State.approved (s : State) : Bool := s.frame.preTests && !s.sec.cryptoError && !s.sec.selftestBusy && s.shown != .testMode

def State.secStatus (s : State) : Nat :=
  let c := s.sec
  fields [(0, b2n s.approved), (1, b2n c.cryptoError), (2, b2n c.session), (3, b2n c.kek.isSome), (4, b2n c.zeroising), (5, b2n c.zeroDone),
    (6, b2n c.selftestBusy), (7, b2n c.selftestDone), (8, b2n c.authFail), (9, b2n c.refused),
    (10, (List.range 4).foldl (fun n i => n + b2n (tblGet? c.digests i).isSome * 2 ^ i) 0), (16, c.errCause)]

/-- THERM_STATUS; TJ_EST and POWER are rounded to nearest (log 71). -/
def State.thermStatus (d : Nat) (s : State) : Nat :=
  let t := s.thermal d
  let tj := fpClampInt (fpMul t.t1 0x41800000) (-2047) 2047
  fields [(0, (BitVec.ofInt 12 tj).toNat), (12, t.level), (15, b2n (s.modelValid d)), (16, b2n t.sprintUntil.isSome), (17, b2n t.sensorBad),
    (24, (fpClampInt t.power 0 255).toNat)]

/-! ## 64-bit pairs (R14, R15): the offset of the _LO half and the value of the pair -/

def State.funcPair (f off : Nat) (s : State) : Option Nat :=
  if off = 0x098 then some (s.cntShadow (some f) (s.func f).cntSel.toNat)
  else if off = 0x0D0 then some (s.func f).log.base
  else if 0x2800 ≤ off ∧ off < 0x3000 ∧ off % 8 = 0 then some (match s.poolNo f ((off - 0x2800) / 8) with
    | some p => (s.pool p).block
    | none => 0)
  else if 0x8000 ≤ off then
    let x := s.queue f ((off - 0x8000) / 64)
    (if off % 64 = 0 then some x.base else if off % 64 = 8 then some x.index else none)
  else none

def State.framePair (off : Nat) (s : State) : Option Nat :=
  if off = 0x060 then some s.pace.time else if off = 0x068 then some s.pace.offset else if off = 0x070 then some s.pace.capt
  else if off = 0x080 then some s.tel.snapAt else if off = 0x098 then some (s.cntShadow none s.tel.cntSel.toNat)
  else if off = 0x0C0 then some s.heat.base else if off = 0x0D0 then some s.frameLog.base else none

def State.mgmtPair (off : Nat) (s : State) : Option Nat :=
  if off = 0x040 then some s.image.addr else if off = 0x060 then some s.dump.base else none

def State.pairOf (p : Page) (off : Nat) (s : State) : Option Nat := match p with
  | .func f => s.funcPair f off
  | .frame => s.framePair off
  | .management => s.mgmtPair off

/-! ## 32-bit registers -/

def State.funcRead (f off : Nat) (s : State) : Nat :=
  let x := s.func f
  if off = 0x044 then fields [(0, x.st.code), (2, b2n x.keysCleared), (16, x.haltCode)]
  else if off = 0x04C then x.oobDrop
  else if off = 0x058 then fields [(0, f), (16, (s.allQueues.filter (fun q => q.1 == f && q.2.2.present)).length)]
  else if off = 0x05C then fields [(0, (s.keyRange f).1), (10, (s.keyRange f).2)]
  else if off = 0x064 then fields [(0, b2n x.keyLoaded), (1, x.keyType), (4, b2n x.keyWait.isSome), (8, x.keyResult)]
  else if off = 0x068 then x.keyLabel.toNat
  else if off = 0x090 then x.cntSel.toNat
  else if off = 0x0D8 then x.log.seqReg
  else if off = 0x0DC then x.log.lost
  else match arrayIx off 0x1000 1024, arrayIx off 0x2400 256, arrayIx off 0x3000 1024 with
    | some i, _, _ => s.streamStatus f i
    | _, some i, _ => (match s.poolNo f i with
      | some p => s.poolStatus p
      | none => 0)
    | _, _, some i => let y := s.stream f i; if y.st = .free then 0 else fields [(0, y.gidx), (15, 1)]
    | none, none, none =>
      if off < 0x8000 then 0 else
        let q := (off - 0x8000) / 64
        let y := s.queue f q
        if !y.present then 0
        else if off % 64 = 0x10 then y.log2 else if off % 64 = 0x14 then y.nextWeight else if off % 64 = 0x18 then y.nextBurst
        else if off % 64 = 0x1C then fields [(2, b2n y.nextHeadNotify), (3, b2n y.nextErrNotify), (4, y.nextVector), (10, y.prefetch)]
        else if off % 64 = 0x20 then s.queueStatus f q else 0

def State.frameRead (off : Nat) (s : State) : Nat :=
  let r := s.frame
  let m := s.march
  let t := s.tel
  if off = 0x040 then fields [(0, r.eventFn), (6, r.eventVector), (12, b2n r.eventEn), (13, b2n r.ctrlRefused)]
  else if off = 0x044 then fields [(0, s.shown.code), (4, r.diesUp.foldl (fun n d => n + 2 ^ d) 0), (8, b2n r.fencedAny), (9, b2n r.marchFail),
    (10, b2n r.committed), (12, r.bootCause)]
  else if off = 0x048 then fields [(0, b2n r.openMode), (1, b2n r.modeRefused)]
  else if off = 0x04C then fields [(0, r.walkBits), (4, r.walkFirst)]
  else if off = 0x078 then fields [(0, b2n s.pace.syncSeen), (1, b2n s.pace.holdover), (2, b2n s.pace.refused)]
  else if off = 0x088 then fields [(0, b2n t.pending), (1, b2n t.done), (2, b2n t.late), (3, b2n t.refused), (4, b2n t.fenced), (16, t.seq)]
  else if off = 0x090 then t.cntSel.toNat
  else if off = 0x0A0 then fields [(1, b2n m.mode), (4, m.bank)]
  else if off = 0x0A4 then fields [(0, b2n m.busy), (1, b2n m.done), (2, b2n m.fail), (3, b2n m.refused), (4, m.stBank), (16, m.failCount)]
  else if off = 0x0B0 then s.stallUs
  else if off = 0x0C8 then s.heat.size
  else if off = 0x0CC then s.heat.need
  else if off = 0x0D8 then s.frameLog.seqReg
  else if off = 0x0DC then s.frameLog.lost
  else match arrayIx off 0x020 8, arrayIx off 0x1000 3072, arrayIx off 0x4000 3072 with
    | some j, _, _ => (strWord s.caps.fingerprint j).toNat
    | _, some b, _ => if s.bankPresent b then s.bankOwner b else 0
    | _, _, some b => if s.bankPresent b then s.bankStatus b else 0
    | none, none, none => match arrayIx off 0x7000 256, arrayIx off 0x7400 65, arrayIx off 0x7600 64 with
      | some p, _, _ => let x := s.pool p; fields [(0, x.fn), (6, b2n x.assigned), (8, x.localNo)]
      | _, some k, _ => if k < s.nBays ∨ k = 64 then s.clkStep k else 0
      | _, _, some k => if k < s.nBays then s.bayStatus k else 0
      | none, none, none => 0

def State.mgmtRead (off : Nat) (s : State) : Nat :=
  let m := s.image
  let d := s.dump
  if off = 0x018 then s.frame.fwVersion.toNat
  else if off = 0x048 then fields [(2, b2n m.force)]
  else if off = 0x04C then fields [(0, m.st.code), (4, m.kind), (8, m.detail), (16, m.sect), (24, b2n m.overrun)]
  else if off = 0x068 then fields [(0, d.size), (31, b2n d.banks)]
  else if off = 0x06C then s.caps.dumpNeedKiB / 4
  else if off = 0x070 then d.status
  else if off = 0x080 then s.secStatus
  else if off = 0x088 then s.sec.signSlot
  else if off = 0x08C then s.sec.testTarget
  else match arrayIx off 0x0A0 8, arrayIx off 0x100 12, arrayIx off 0x140 12 with
    | some j, _, _ => (strWord s.sec.nonce j).toNat
    | _, some j, _ => (tblGetD s.sec.signStage j 0).toNat
    | _, _, some j => (strWord m.digest j).toNat
    | none, none, none => match arrayIx off 0x180 4, arrayIx off 0x200 32, arrayIx off 0x300 64 with
      | some k, _, _ => if k < s.caps.dies then s.thermStatus k else 0
      | _, some j, _ => (tblGetD s.thermModel j 0).toNat
      | _, _, some f => if f < s.caps.funcs then fields [(0, (s.keyRange f).1), (10, (s.keyRange f).2)] else 0
      | none, none, none => 0

/-- A register of a page; WO fields and unassigned offsets read 0 (R9, R555). -/
def State.regRead (p : Page) (off : Nat) (s : State) : Nat := match s.caps.capReg off with
  | some v => v
  | none => match p with
    | .func f => s.funcRead f off
    | .frame => s.frameRead off
    | .management => s.mgmtRead off

/-! ## Reads -/

/-- BANK_OWNER of a fenced bay (R139, R560). -/
def State.fencedOwner (p : Page) (off : Nat) (s : State) : Option Nat := match p, arrayIx off 0x1000 3072 with
  | .frame, some b => if s.bankPresent b && s.fenced (b / 48) then some b else none
  | _, _ => none

/-- An RC field is cleared by its read; an event of the same cycle leaves 1 (R11). -/
def State.rcClear (p : Page) (off : Nat) (event : Bool) (s : State) : State :=
  let v := b2n event
  match p with
  | .func f =>
    if off = 0x04C then s.modFunc f (fun x => { x with oobDrop := v })
    else if off = 0x0DC then s.modFunc f (fun x => { x with log := { x.log with lost := v } })
    else s
  | .frame =>
    if off = 0x0DC then { s with frameLog := { s.frameLog with lost := v } }
    else match arrayIx off 0x4000 3072 with
      | some b => if s.bankPresent b then s.modBank b (fun x => { x with corr := v }) else s
      | none => s
  | .management => s

/-- Key of the latch or staging register of a pair (R556): origin and the address of the _LO half. -/
def pairKey (o : Origin) (p : Page) (off : Nat) : Nat := (Origin.code o) * 2 ^ 24 + p.base + off

/-- A host read with its side effects (R10 to R14, R136 to R139, R557). The _HI half of a pair reads as last latched. -/
def State.hostRead (acc : Acc) (addr : BitVec 21) (event : Bool) (s : State) : State :=
  match s.caps.pageOf (addr.toNat * 4) with
  | none => (s.count 0 0 0 1).answer 0 true
  | some (p, off) =>
    if !p.allows acc then (s.count 0 0 0 1).answer 0 true
    else if (match p with
        | .func _ => s.early
        | _ => false) then s.answer 0 false
    else if (s.fencedOwner p off).isSome then s.answer 0 true
    else match s.pairOf p off with
      | some v =>
        State.answer (v % 2 ^ 32) false { s with host := { s.host with latched := tblSet s.host.latched (pairKey acc.origin p off) (BitVec.ofNat 32 (v / 2 ^ 32)) } }
      | none =>
        match (if 4 ≤ off then s.pairOf p (off - 4) else none) with
        | some _ => s.answer (tblGetD s.host.latched (pairKey acc.origin p (off - 4)) 0).toNat false
        | none => (s.rcClear p off event).answer (s.regRead p off) false

/-- RC_REGISTER_READ (R11): a read; `event` tells that an RC counter counts in the same cycle. -/
def execRcRegisterRead (acc : Acc) (addr : BitVec 21) (event : Bool) (s : State) : Out := .next (s.hostRead acc addr event)

/-- REG64_LO_READ (R14, R556): a read; the _HI half of the pair is latched for the origin. -/
def execReg64LoRead (acc : Acc) (addr : BitVec 21) (s : State) : Out := .next (s.hostRead acc addr false)

end Sys2Proof.Machine
end

