-- ==== Sys2Proof/Machine/RegWrite.lean ====
section
/-! DEFINITION. What writes of registers do (R9, R10, R15, R556, R557, R570): the rows of the table that write one
register, and HOST_REGISTER_WRITE for every other. -/

namespace Sys2Proof.Machine

/-- Nothing new became visible. -/
def viewSame : MemView := ⟨[], none⟩

/-! ## Pools (R271, R277, R278) -/

/-- A pool block whose fields are in range, read into the pool (R271, R278). -/
def Pool.readBlock (x : Pool) (b : Bytes) : Option Pool :=
  let region := leAt b 0 8
  let ring := leAt b 8 8
  let refs := leAt b 0x10 8
  let bufs := leAt b 0x18 4
  let ls := leAt b 0x1C 1
  let lr := leAt b 0x1D 1
  if ls < 8 ∨ 24 < ls ∨ lr < 6 ∨ 20 < lr ∨ bufs = 0 ∨ 2 ^ lr < bufs ∨ region % 2 ^ ls ≠ 0 ∨ ring % 64 ≠ 0 ∨ refs % 64 ≠ 0 then none
  else some { x with
    enabled := true, fault := false, faultCode := 0, region := region, ring := ring, refs := refs, buffers := bufs, log2Size := ls,
    log2Ring := lr, ringHead := 0, ringCount := 0, cache := [], added := 0, waits := [], holders := [], stalled := false }

/-- ENABLE of pool `p` (R278); ignored while it is enabled (log 70). -/
def State.enablePool (p : Nat) (s : State) : State :=
  let x := s.pool p
  let refuse := fun (s : State) => s.modPool p (fun y => { y with refused := true })
  if x.enabled then s
  else if (s.func x.fn).st != .open_ || x.block % 64 != 0 then refuse s
  else match s.sysRead (.control x.fn) x.block 64 with
    | (.okay, b, s) => (match x.readBlock b with
      | some y => s.setPool p { y with stallSince := s.now }
      | none => refuse s)
    | (r, _, s) => refuse (s.poolResp p x.block r)

/-- DISABLE of pool `p` (R278). -/
def State.disablePool (p : Nat) (s : State) : State :=
  let x := s.pool p
  if s.openStreams.any (fun y => y.1 == x.fn && s.namesPool y.2.2.graph x.localNo) then s.modPool p (fun y => { y with refused := true })
  else if !x.enabled then s
  else
    let s := s.spillHandles p x.cache.length
    (s.modPool p (fun y => { y with enabled := false })).watchPools

/-- A write of POOL_CFG[i]; DISABLE wins over ENABLE (log 70). A pool not mapped to the function ignores it (R555). -/
def State.poolCfg (f i value : Nat) (s : State) : State := match s.poolNo f i with
  | none => s
  | some p => if bitOf value 1 then s.disablePool p else if bitOf value 0 then s.enablePool p else s

/-- ENABLE of a pool of a function that is HALTED is refused (R179, R278). -/
def State.poolRefused (f off value : Nat) (s : State) : State := match (arrayIx off 0x2000 256).bind (s.poolNo f) with
  | some p => if bitOf value 0 && !bitOf value 1 && !(s.pool p).enabled then s.modPool p (fun x => { x with refused := true }) else s
  | none => s

/-- ENABLE of a queue of a function that is HALTED is refused (R179, R214). -/
def State.queueRefused (f off value : Nat) (s : State) : State :=
  let q := (off - 0x8000) / 64
  let x := s.queue f q
  if 0x8000 ≤ off ∧ off % 64 = 0x1C ∧ x.present ∧ bitOf value 0 ∧ !bitOf value 1 ∧ !x.running then s.setQueue f q { x with enableRefused := true } else s

/-- A write of POOL_MAP[p] (R270). -/
def State.poolMap (p value : Nat) (s : State) : State :=
  let f := fld value 0 6
  let a := bitOf value 6
  let l := fld value 8 8
  if (s.pool p).enabled || (a && s.pools.any (fun q => q.1 != p && q.2.assigned && q.2.fn == f && q.2.localNo == l)) then s
  else s.modPool p (fun x => { x with fn := f, assigned := a, localNo := l })

/-! ## W1C bits (R9, R10) -/

/-- The W1C fields of a function page. -/
def State.funcClear (f off value : Nat) (s : State) : State :=
  if off = 0x044 then (if bitOf value 2 then s.modFunc f (fun x => { x with keysCleared := false }) else s)
  else match arrayIx off 0x2400 256 with
    | some i => (match s.poolNo f i with
      | some p => s.modPool p (fun x => { x with refused := x.refused && !bitOf value 3, preempted := x.preempted && !bitOf value 4 })
      | none => s)
    | none =>
      if 0x8000 ≤ off ∧ off % 64 = 0x20 then
        let q := (off - 0x8000) / 64
        let x := s.queue f q
        if x.present then s.setQueue f q { x with enableRefused := x.enableRefused && !bitOf value 4, cfgIgnored := x.cfgIgnored && !bitOf value 5 } else s
      else s

/-- The W1C fields of the frame page. -/
def State.frameClear (off value : Nat) (s : State) : State :=
  if off = 0x040 then { s with frame := { s.frame with ctrlRefused := s.frame.ctrlRefused && !bitOf value 13 } }
  else if off = 0x048 then { s with frame := { s.frame with modeRefused := s.frame.modeRefused && !bitOf value 1 } }
  else if off = 0x078 then { s with pace := { s.pace with syncSeen := s.pace.syncSeen && !bitOf value 0, refused := s.pace.refused && !bitOf value 2 } }
  else if off = 0x088 then { s with tel := { s.tel with
    done := s.tel.done && !bitOf value 1, late := s.tel.late && !bitOf value 2, refused := s.tel.refused && !bitOf value 3 } }
  else if off = 0x0A4 then { s with march := { s.march with
    done := s.march.done && !bitOf value 1, fail := s.march.fail && !bitOf value 2, refused := s.march.refused && !bitOf value 3 } }
  else match arrayIx off 0x4000 3072 with
    | some b => if s.bankPresent b then
        s.modBank b (fun x => { x with uncorr := x.uncorr && !bitOf value 17, refused := x.refused && !bitOf value 18 }) else s
    | none => s

/-- The W1C fields of the management page; three bits of SEC_STATUS need no session (R494). -/
def State.mgmtClear (off value : Nat) (s : State) : State :=
  if off = 0x080 then
    let c := s.sec
    let s : State := { s with sec := { c with
      zeroDone := c.zeroDone && !bitOf value 5, authFail := c.authFail && !bitOf value 8, refused := c.refused && !bitOf value 9,
      selftestDone := c.selftestDone && !(bitOf value 7 && c.session) } }
    if bitOf value 7 && !c.session then s.secRefuse else s
  else if off = 0x04C then
    (if s.sec.session then { s with image := { s.image with overrun := s.image.overrun && !bitOf value 24 } } else s.secRefuse)
  else s

/-- The W1C fields of a page. -/
def State.clearW1c (p : Page) (off value : Nat) (s : State) : State := match p with
  | .func f => s.funcClear f off value
  | .frame => s.frameClear off value
  | .management => s.mgmtClear off value

/-! ## Writable 64-bit pairs (R15, R556) -/

/-- A write of a _LO half is staged. -/
def State.stage (o : Origin) (p : Page) (off value : Nat) (s : State) : State :=
  { s with host := { s.host with staged := tblSet s.host.staged (pairKey o p off) (BitVec.ofNat 32 value) } }

/-- The 64-bit value that a write of the _HI half at `off` gives. -/
def State.pairValue (o : Origin) (p : Page) (off value : Nat) (s : State) : Nat :=
  (tblGetD s.host.staged (pairKey o p (off - 4)) 0).toNat + value * 2 ^ 32

/-! ## The function page -/

/-- Writes of a queue's registers (R215). -/
def State.queueWrite (o : Origin) (f q r value : Nat) (s : State) : State :=
  let off := 0x8000 + 64 * q + r
  if r = 0x00 ∨ r = 0x08 then s.stage o (.func f) off value
  else if r = 0x04 then (let n := s.pairValue o (.func f) off value; s.qFixedWrite f q (fun x => { x with base := n }))
  else if r = 0x0C then (let n := s.pairValue o (.func f) off value; s.qFixedWrite f q (fun x => { x with index := n }))
  else if r = 0x10 then s.qFixedWrite f q (fun x => { x with log2 := fld value 0 5 })
  else if r = 0x14 then s.qWeightWrite f q value
  else if r = 0x18 then s.qBurstWrite f q value
  else if r = 0x1C then s.qCtrlWrite f q value
  else s

/-- Writes of a function page beyond W1C bits. -/
def State.funcWrite (o : Origin) (f off value : Nat) (s : State) : State :=
  if off = 0x040 then s.funcReset f value
  else if off = 0x048 then s.doorbell f value
  else if off = 0x050 then s.relayReturn f value
  else if off = 0x060 then s.keyCtrl f value
  else if off = 0x068 then s.modFunc f (fun x => { x with keyLabel := BitVec.ofNat 32 value })
  else if off = 0x090 then s.modFunc f (fun x => { x with cntSel := BitVec.ofNat 32 (fld value 0 22) })
  else if off = 0x0D0 then s.stage o (.func f) off value
  else if off = 0x0D4 then s.logBaseWrite (some f) (s.pairValue o (.func f) off value)
  else match arrayIx off 0x2000 256, arrayIx off 0x2800 512 with
    | some i, _ => s.poolCfg f i value
    | _, some j =>
      if j % 2 = 0 then s.stage o (.func f) off value
      else (match s.poolNo f (j / 2) with
        | some p => (let n := s.pairValue o (.func f) off value; s.modPool p (fun x => { x with block := n }))
        | none => s)
    | none, none => if 0x8000 ≤ off then s.queueWrite o f ((off - 0x8000) / 64) (off % 64) value else s

/-! ## The frame page -/

/-- FRAME_CTRL: ignored, with REFUSED, when EVENT_FN is no function. -/
def State.frameCtrl (value : Nat) (s : State) : State :=
  if s.caps.funcs ≤ fld value 0 6 then { s with frame := { s.frame with ctrlRefused := true } }
  else { s with frame := { s.frame with eventFn := fld value 0 6, eventVector := fld value 6 6, eventEn := bitOf value 12 } }

/-- FRAME_MODE (R467). -/
def State.frameMode (value : Nat) (s : State) : State :=
  if bitOf value 0 != s.frame.openMode && !s.openStreams.isEmpty then { s with frame := { s.frame with modeRefused := true } }
  else { s with frame := { s.frame with openMode := bitOf value 0 } }

/-- HEAT_BASE and HEAT_SIZE take no write while a stream of a judge graph is open (R402). -/
def State.heatLocked (s : State) : Bool := s.openStreams.any (fun p => s.judgeGraph p.2.2.graph)

/-- Writes of the frame page beyond W1C bits. -/
def State.frameWrite (o : Origin) (off value : Nat) (s : State) : State :=
  if off = 0x040 then s.frameCtrl value
  else if off = 0x048 then s.frameMode value
  else if off = 0x068 ∨ off = 0x080 ∨ off = 0x0C0 ∨ off = 0x0D0 then s.stage o .frame off value
  else if off = 0x06C then s.applyOffset (s.pairValue o .frame off value)
  else if off = 0x084 then s.snapWrite (s.pairValue o .frame off value)
  else if off = 0x090 then { s with tel := { s.tel with cntSel := BitVec.ofNat 32 (fld value 0 22) } }
  else if off = 0x0A0 then s.marchCtrl value
  else if off = 0x0B0 then { s with stallUs := fld value 0 20 }
  else if off = 0x0C4 then (if s.heatLocked then s else { s with heat := { s.heat with base := s.pairValue o .frame off value } })
  else if off = 0x0C8 then (if s.heatLocked then s else { s with heat := { s.heat with size := value } })
  else if off = 0x0D4 then s.logBaseWrite none (s.pairValue o .frame off value)
  else match arrayIx off 0x1000 3072, arrayIx off 0x7000 256 with
    | some b, _ => s.bankOwnerWrite b value
    | _, some p => s.poolMap p value
    | none, none => s

/-! ## The management page -/

/-- SEC_CTRL: bits in ascending order, AUTH and ZEROISE without a session (R493, R494, R508, R512; log 72). -/
def State.secCtrl (value : Nat) (s : State) : State :=
  let sess := s.sec.session
  let s := if bitOf value 0 then s.authWrite else s
  let s := if bitOf value 1 then (if sess then s.closeSession else s.secRefuse) else s
  let s := if bitOf value 2 then s.startZeroise else s
  if bitOf value 3 then (if sess then s.startSelftest else s.secRefuse) else s

/-- Offsets of the management page that a table assigns (R555). -/
def mgmtAssigned (off : Nat) : Bool :=
  off % 4 == 0 && (decide (off ≤ 0x018) || decide (0x040 ≤ off ∧ off ≤ 0x04C) || decide (0x060 ≤ off ∧ off ≤ 0x070) ||
    decide (0x080 ≤ off ∧ off ≤ 0x08C) || decide (0x0A0 ≤ off ∧ off < 0x0F0) || decide (0x100 ≤ off ∧ off < 0x130) ||
    decide (0x140 ≤ off ∧ off < 0x170) || decide (0x180 ≤ off ∧ off < 0x190) || decide (0x200 ≤ off ∧ off < 0x280) ||
    decide (0x300 ≤ off ∧ off < 0x400))

/-- Writes of the management page that have a session (R494). -/
def State.mgmtSession (o : Origin) (off value : Nat) (s : State) : State :=
  if off = 0x060 then s.stage o .management off value
  else if off = 0x064 then { s with dump := { s.dump with base := s.pairValue o .management off value / 4096 * 4096 } }
  else if off = 0x068 then { s with dump := { s.dump with size := fld value 0 24, banks := bitOf value 31 } }
  else if off = 0x088 then s.signCtrl value
  else if off = 0x08C then s.secTest value
  else match arrayIx off 0x100 12, arrayIx off 0x200 32, arrayIx off 0x300 64 with
    | some j, _, _ => { s with sec := { s.sec with signStage := tblSet s.sec.signStage j (BitVec.ofNat 32 value) } }
    | _, some j, _ => { s with thermModel := tblSet s.thermModel j (BitVec.ofNat 32 value) }
    | _, _, some f => if f < s.caps.funcs then s.keyPartWrite f value else s
    | none, none, none => s

/-- Writes of the management page beyond W1C bits (R107, R494). -/
def State.mgmtWrite (o : Origin) (off value : Nat) (v between : MemView) (s : State) : State :=
  if off = 0x080 ∨ off = 0x04C then s
  else if off = 0x084 then s.secCtrl value
  else if off = 0x040 then (if s.sec.session then s.stage o .management off value else s.secRefuse)
  else if off = 0x044 then (if s.sec.session then { s with image := { s.image with addr := s.pairValue o .management off value } } else s.secRefuse)
  else if off = 0x048 then s.imgCtrl value v between
  else match arrayIx off 0x0C0 12 with
    | some j => { s with sec := { s.sec with auth := tblSet s.sec.auth j (BitVec.ofNat 32 value) } }
    | none =>
      if !mgmtAssigned off then s else if s.sec.session then s.mgmtSession o off value else s.secRefuse

/-! ## Every write -/

/-- A write in FATAL (R557, R570): W1C bits, ZEROISE, and REFUSED for SNAP_AT_HI. -/
def State.fatalWrite (p : Page) (off value : Nat) (s : State) : State :=
  let s := s.clearW1c p off value
  if p = .management ∧ off = 0x084 ∧ bitOf value 2 then s.startZeroise
  else if p = .frame ∧ off = 0x084 then s.snapWrite 0
  else s

/-- A write that is not refused. W1C bits are cleared before anything that the write sets; an event of another unit in the same cycle is
the next command, so its bit is set after the clear (R10). A halted function takes
FUNC_RESET only, and counts doorbells as ignored (R179). -/
def State.regWrite (o : Origin) (p : Page) (off value : Nat) (v between : MemView) (s : State) : State :=
  match p with
  | .func f =>
    if (s.func f).st = .halted then
      (if s.frame.st == .fatal then s else if off = 0x040 then s.funcReset f value else if off = 0x048 then s.doorbell f value else (s.poolRefused f off value).queueRefused f off value)
    else if s.frame.st == .fatal then s.fatalWrite p off value
    else (s.clearW1c p off value).funcWrite o f off value
  | .frame => if s.frame.st == .fatal then s.fatalWrite p off value else (s.clearW1c p off value).frameWrite o off value
  | .management => if s.frame.st == .fatal then s.fatalWrite p off value else (s.clearW1c p off value).mgmtWrite o off value v between

/-- A host write with its response (R136 to R139, R557, R560). -/
def State.hostWrite (acc : Acc) (addr value : Nat) (v between : MemView) (s : State) : State :=
  match s.caps.pageOf addr with
  | none => (s.count 0 0 0 1).answer 0 true
  | some (p, off) =>
    if !p.allows acc then (s.count 0 0 0 1).answer 0 true
    else if (match p with
        | .func _ => s.early
        | _ => false) then s.answer 0 false
    else match s.fencedOwner p off with
      | some b => (if s.frame.st == .fatal then s else s.modBank b (fun x => { x with refused := true })).answer 0 true
      | none => (s.regWrite acc.origin p off value v between).answer 0 false

/-! ## The rows of the table -/

/-- The address of a register of a function page. -/
def fnReg (fn : BitVec 6) (off : Nat) : Nat := fn.toNat * 0x10000 + off

/-- `value` with the bits of `m` set: the row names the trigger that the write carries. -/
def withBits (value : Word) (m : Nat) : Nat := value.toNat ||| m

/-- HOST_REGISTER_WRITE (R9). A write whose accesses have to wait is not taken yet: host_req_ready is low (R136; log 4). -/
def execHostRegisterWrite (acc : Acc) (addr : BitVec 21) (value : Word) (s : State) : Out :=
  s.turn fun s => .next (s.hostWrite acc (addr.toNat * 4) value.toNat viewSame viewSame)

/-- ERR_LOG_BASE_HI_WRITE (R522, R523). -/
def execErrLogBaseHiWrite (acc : Acc) (log : LogId) (value : Word) (s : State) : Out :=
  .next (s.hostWrite acc (match log with
    | .frame => 0x4000D4
    | .func f => fnReg f 0x0D4) value.toNat viewSame viewSame)

/-- IMG_START (R107 to R112): `between` is what other agents wrote between the two passes. -/
def execImgStart (acc : Acc) (value : Word) (v between : MemView) (s : State) : Out :=
  let s := s.seeMem v
  s.turn fun s => .next (s.hostWrite acc 0x410048 (withBits value 1) viewSame between)

/-- IMG_ABORT (R571, R573). -/
def execImgAbort (acc : Acc) (value : Word) (s : State) : Out := .next (s.hostWrite acc 0x410048 (withBits value 2) viewSame viewSame)

/-- FUNC_RESET_GO (R180, R181). -/
def execFuncResetGo (acc : Acc) (fn : BitVec 6) (value : Word) (s : State) : Out :=
  .next (s.hostWrite acc (fnReg fn 0x040) (withBits value 1) viewSame viewSame)

/-- The offset of a queue register. -/
def queueReg (q : BitVec 9) (r : Nat) : Nat := 0x8000 + 64 * q.toNat + r

/-- Q_ENABLE (R213). -/
def execQEnable (acc : Acc) (fn : BitVec 6) (q : BitVec 9) (value : Word) (s : State) : Out :=
  .next (s.hostWrite acc (fnReg fn (queueReg q 0x1C)) (withBits value 1) viewSame viewSame)

/-- Q_DISABLE (R213, R217). -/
def execQDisable (acc : Acc) (fn : BitVec 6) (q : BitVec 9) (value : Word) (s : State) : Out :=
  .next (s.hostWrite acc (fnReg fn (queueReg q 0x1C)) (withBits value 2) viewSame viewSame)

/-- The offset of a configuration register in its queue block. -/
def qRegOffset : QReg → Nat
  | .baseLo => 0x00 | .baseHi => 0x04 | .indexLo => 0x08 | .indexHi => 0x0C
  | .size => 0x10 | .weight => 0x14 | .burst => 0x18 | .ctrl => 0x1C

/-- Q_CONFIG_WRITE (R215). -/
def execQConfigWrite (acc : Acc) (fn : BitVec 6) (q : BitVec 9) (reg : QReg) (value : Word) (s : State) : Out :=
  .next (s.hostWrite acc (fnReg fn (queueReg q (qRegOffset reg))) value.toNat viewSame viewSame)

/-- DOORBELL (R197). -/
def execDoorbell (acc : Acc) (fn : BitVec 6) (value : Word) (s : State) : Out :=
  .next (s.hostWrite acc (fnReg fn 0x048) value.toNat viewSame viewSame)

/-- HEAT_REGION_WRITE (R402). -/
def execHeatRegionWrite (acc : Acc) (reg : HeatReg) (value : Word) (s : State) : Out :=
  .next (s.hostWrite acc (match reg with
    | .baseLo => 0x4000C0
    | .baseHi => 0x4000C4
    | .size => 0x4000C8) value.toNat viewSame viewSame)

/-- BANK_OWNER_WRITE (R262, R265). -/
def execBankOwnerWrite (acc : Acc) (b : BitVec 12) (value : Word) (s : State) : Out :=
  .next (if b.toNat < 3072 then s.hostWrite acc (0x401000 + 4 * b.toNat) value.toNat viewSame viewSame else s)

/-- MARCH_START (R268). -/
def execMarchStart (acc : Acc) (value : Word) (s : State) : Out := .next (s.hostWrite acc 0x4000A0 (withBits value 1) viewSame viewSame)

/-- POOL_MAP_WRITE (R270). -/
def execPoolMapWrite (acc : Acc) (p : BitVec 8) (value : Word) (s : State) : Out :=
  .next (s.hostWrite acc (0x407000 + 4 * p.toNat) value.toNat viewSame viewSame)

/-- POOL_ENABLE (R271, R278). -/
def execPoolEnable (acc : Acc) (fn : BitVec 6) (i : BitVec 8) (value : Word) (v : MemView) (s : State) : Out :=
  let s := s.seeMem v
  s.turn fun s => .next (s.hostWrite acc (fnReg fn (0x2000 + 4 * i.toNat)) (withBits value 1) viewSame viewSame)

/-- POOL_DISABLE (R278). -/
def execPoolDisable (acc : Acc) (fn : BitVec 6) (i : BitVec 8) (value : Word) (v : MemView) (s : State) : Out :=
  let s := s.seeMem v
  s.turn fun s => .next (s.hostWrite acc (fnReg fn (0x2000 + 4 * i.toNat)) (withBits value 2) viewSame viewSame)

/-- RELAY_RETURN (R438). -/
def execRelayReturn (acc : Acc) (fn : BitVec 6) (value : Word) (s : State) : Out :=
  .next (s.hostWrite acc (fnReg fn 0x050) value.toNat viewSame viewSame)

/-- FRAME_MODE_WRITE (R467). -/
def execFrameModeWrite (acc : Acc) (value : Word) (s : State) : Out := .next (s.hostWrite acc 0x400048 value.toNat viewSame viewSame)

/-- FRAME_CTRL_WRITE (R561). -/
def execFrameCtrlWrite (acc : Acc) (value : Word) (s : State) : Out := .next (s.hostWrite acc 0x400040 value.toNat viewSame viewSame)

/-- PACE_OFFSET_WRITE: the write of PACE_OFFSET_HI (R542). -/
def execPaceOffsetWrite (acc : Acc) (value : Word) (s : State) : Out := .next (s.hostWrite acc 0x40006C value.toNat viewSame viewSame)

/-- SNAP_AT_WRITE: the write of SNAP_AT_HI (R543). -/
def execSnapAtWrite (acc : Acc) (value : Word) (s : State) : Out := .next (s.hostWrite acc 0x400084 value.toNat viewSame viewSame)

/-- SEC_AUTH (R493). -/
def execSecAuth (acc : Acc) (s : State) : Out := .next (s.hostWrite acc 0x410084 1 viewSame viewSame)

/-- SEC_CLOSE (R494). -/
def execSecClose (acc : Acc) (s : State) : Out := .next (s.hostWrite acc 0x410084 2 viewSame viewSame)

/-- SEC_ZEROISE (R512). -/
def execSecZeroise (acc : Acc) (s : State) : Out := .next (s.hostWrite acc 0x410084 4 viewSame viewSame)

/-- SEC_SELFTEST (R508). -/
def execSecSelftest (acc : Acc) (s : State) : Out := .next (s.hostWrite acc 0x410084 8 viewSame viewSame)

/-- SIGN_COMMIT (R502). -/
def execSignCommit (acc : Acc) (value : Word) (s : State) : Out := .next (s.hostWrite acc 0x410088 (withBits value 4) viewSame viewSame)

/-- SIGN_CLEAR (R502). -/
def execSignClear (acc : Acc) (value : Word) (s : State) : Out := .next (s.hostWrite acc 0x410088 (withBits value 8) viewSame viewSame)

/-- KEY_PART_WRITE (R496). -/
def execKeyPartWrite (acc : Acc) (f : BitVec 6) (value : Word) (s : State) : Out :=
  .next (s.hostWrite acc (0x410300 + 4 * f.toNat) value.toNat viewSame viewSame)

/-- SEC_TEST_ARM (R509). -/
def execSecTestArm (acc : Acc) (value : Word) (s : State) : Out := .next (s.hostWrite acc 0x41008C (withBits value 256) viewSame viewSame)

/-- `value` with KEY_CTRL.OP set. -/
def keyOpValue (value : Word) (op : Nat) : Nat := value.toNat % 2 ^ 24 + op * 2 ^ 24

/-- KEY_QUERY (R499). -/
def execKeyQuery (acc : Acc) (fn : BitVec 6) (value : Word) (s : State) : Out :=
  .next (s.hostWrite acc (fnReg fn 0x060) (keyOpValue value 1) viewSame viewSame)

/-- KEY_ZEROISE (R499). -/
def execKeyZeroise (acc : Acc) (fn : BitVec 6) (value : Word) (s : State) : Out :=
  .next (s.hostWrite acc (fnReg fn 0x060) (keyOpValue value 2) viewSame viewSame)

/-- KEY_DERIVE (R499). -/
def execKeyDerive (acc : Acc) (fn : BitVec 6) (value : Word) (s : State) : Out :=
  .next (s.hostWrite acc (fnReg fn 0x060) (keyOpValue value 3) viewSame viewSame)

end Sys2Proof.Machine
end

