-- ==== Sys2Proof/Machine/Dump.lean ====
section
/-! DEFINITION. The sections of the fatal dump (R533 to R538). The manual gives the layout of the header, the log copies,
the stream contexts and the banks; every other byte of the dump is a free value (log 33). -/

namespace Sys2Proof.Machine

/-- The on-chip copy of a log ring: each entry in its slot (R521, R523). -/
def LogRing.chipBytes (r : LogRing) : Bytes :=
  (List.range 256).flatMap (fun k => match r.chip.find? (fun e => e.seq % 256 == k) with
    | some e => e.bytes
    | none => zeros 32)

/-- The bay block that holds a unit's counter shadows: a port's lie in its intake bay's, a boundary's in the management bay's (log 33). -/
def State.shadowBlock (s : State) : SnapUnit → Nat
  | .bay k => k.toNat
  | .port n => s.intakeBay n.toNat
  | .control => s.nBays
  | .management => s.nBays + 1
  | .boundary _ => s.nBays + 1

/-- The counters of each group (R547). -/
def groupSizes : List Nat := [4, 11, 11, 3, 9, 4, 4, 5, 3, 3]

/-- Every counter of the frame in catalogue order (R547). -/
def State.counterKeys (s : State) : List Nat :=
  let many := [1, s.caps.portDie.length, s.nBays, 512, 1024, s.caps.queues, 256, (boundariesOf s.caps.dies).length, s.caps.funcs, s.caps.dies]
  (groupSizes.zip many).zipIdx.flatMap (fun g => (List.range g.1.2).flatMap (fun i => (List.range g.1.1).map (cntKey g.2 i)))

/-- The counter shadows of a bay block (R31, R534): those already copied for a snapshot that did not complete, else the last completed
one's, 8 B each in catalogue order (log 33). -/
def State.shadowBytes (s : State) (k : Nat) : Bytes :=
  (s.counterKeys.filter (fun c => s.shadowBlock (s.cntUnit c) == k)).flatMap (fun c =>
    natLe 8 (tblGetD (if s.tel.copied.contains (s.cntUnit c) then s.tel.spare else s.tel.shadow) c 0))

/-- A bay block (R31, R534, R536), its counter shadows at a place that is a free value; a fenced bay reads as zeros, but for the flag of
R533, whose place is a free value. -/
def State.bayBlock (k : Nat) (fencedBay : Bool) (s : State) : Bytes × State :=
  let n := 995324
  let (b, s) := if fencedBay then
      let (p, s) := s.draw 32
      let (v, s) := s.draw 8
      ((zeros n).set (p % n) (BitVec.ofNat 8 v), s)
    else
      let sh := s.shadowBytes k
      let (b, s) := s.freeBytes n
      let (p, s) := s.draw 20
      (overlay b (p % (n + 1 - sh.length)) sh, s)
  (b ++ natLe 4 (crc32c b).toNat, s)

/-- The context of a frame-wide stream index; a FREE one is zero (R479, R534). -/
def State.dumpContext (g : Nat) (s : State) : Bytes := match s.byGidx g with
  | some (_, _, x) => s.contextBytes x 0
  | none => zeros 512

/-- Data and bitmap of a bank (R534): words that are known, zeros in a bank that nothing has used since it was cleared, and otherwise
what its engines keep in it, which the manual does not lay out. A fenced bay is not read. Bit w % 8 of byte w / 8 of the bitmap is word
w (log 33). -/
def State.dumpBank (b : Nat) (s : State) : Bytes × State :=
  let off := s.fenced (b / 48)
  let (d, s) := if off ∨ (s.bank b).zeroed then (zeros 262144, s) else s.freeBytes 262144
  let mine := if off then [] else s.bankWords.filter (fun p => p.1 / 4096 == b)
  (mine.foldl (fun d p => overlay d (64 * (p.1 % 4096)) (dataOf p.2)) d ++
    (List.range 512).map (fun j => BitVec.ofNat 8 ((List.range 8).foldl (fun n i =>
      n + b2n (!off && s.wordBad (wordKey b (8 * j + i))) * 2 ^ i) 0)), s)

/-- Byte strings one after the other, each built in the state that the ones before left. -/
def State.dumpParts (l : List Nat) (g : Nat → State → Bytes × State) (s : State) : Bytes × State :=
  l.foldl (fun p k => let r := g k p.2; (p.1 ++ r.1, r.2)) ([], s)

/-- The bytes of a section that its CRC covers (R534, R536): section 0 from byte 256 on. -/
def State.sectionBytes (k : Nat) (s : State) : Bytes × State :=
  if k = 0 then s.freeBytes (32 * 1024 - 256)
  else if k = 1 then
    let (u, s) := s.freeBytes (64 * 1024)
    (u ++ s.frameLog.chipBytes ++ (List.range s.caps.funcs).flatMap (fun f => (s.func f).log.chipBytes), s)
  else if k = 2 then s.dumpParts (List.range (s.nBays + 2)) (fun k s => s.bayBlock k (k < s.nBays && s.fenced k))
  else if k = 3 then ((List.range 1024).flatMap (fun g => s.dumpContext g), s)
  else if k = 4 then
    let (q, s) := s.freeBytes (64 * s.caps.queues)
    (padTo 4096 q, s)
  else s.dumpParts s.allBanks (fun b s => s.dumpBank b)

/-- Writes bytes in pieces that end at 4 KiB boundaries; the engine goes on past a failure (R536). -/
def State.dumpWrite : Nat → Nat → Bytes → Bool → State → Bool × State
  | 0, _, _, bad, s => (bad, s)
  | _, _, [], bad, s => (bad, s)
  | fuel + 1, addr, bs, bad, s =>
    let n := 4096 - addr % 4096
    let (r, s) := s.sysWrite (.steward 0) addr (bs.take n)
    s.dumpWrite fuel (addr + n) (bs.drop n) (bad || r != .okay)

/-- Whether a section is written: it fits, and the banks only with BANKS (R533). -/
def State.dumpFits (s : State) (k : Nat) : Bool := match s.dump.dir[k]? with
  | some e => decide (e.offset * 4096 + e.size ≤ s.dump.size * 4096) && (k != 5 || s.dump.banks)
  | none => false

/-- The section that is due, its directory entry, and the next section or the end of the dump (R533 to R536). -/
def State.dumpSection (s : State) : State :=
  let k := s.dump.section_
  let off := ((s.dump.dir[k]?.map (·.offset)).getD 0) * 4096 + (if k = 0 then 256 else 0)
  let (bs, s) := s.sectionBytes k
  let (bad, s) := s.dumpWrite (bs.length / 4096 + 2) (s.dump.base + off) bs false
  let s : State := { s with dump := { s.dump with
    dir := (s.dump.dir.zipIdx).map (fun p => if p.2 = k then { p.1 with crc := crc32c bs, st := if bad then 3 else 1 } else p.1) } }
  if s.dumpFits (k + 1) then { s with dump := { s.dump with section_ := k + 1 } }
  else
    let (r, s) := s.writeHeader false
    s.dumpEnd 2 (r != .okay)

/-- DUMP_SECTION_WRITE (R533 to R537): the writes of the section that is due complete. Before it comes a header that could not be written
at once; a dump that was stopped only ends. -/
def execDumpSectionWrite (v : MemView) (s : State) : Out :=
  let s := s.seeMem v
  s.turn fun s =>
  if s.dump.st ≠ 1 then .next s
  else if s.dump.stopped then .next s.dumpTruncated
  else if s.dump.hdrDue then .next { (s.writeHeader true).2 with dump := { s.dump with hdrDue := false } }.dumpSection
  else .next s.dumpSection

end Sys2Proof.Machine
end

