-- ==== Sys2Proof/Machine/Pools.lean ====
section
/-! DEFINITION. The commands of the buffer pools: allocation and sharing (R275, R276), grants (R275, R279), releases (R276), the handle
cache (R273), the watchdog (R280, R281). -/

namespace Sys2Proof.Machine

/-! ## Commands of the pools -/

/-- POOL_ALLOCATE: a stream asks for a buffer, or becomes a further holder of one, alone or with others of its function (R275, R276,
R277). -/
def execPoolAllocate (fn : BitVec 6) (i : BitVec 8) (stream : BitVec 10) (share : Option (BitVec 64 × List (BitVec 10))) (s : State) : Out :=
  s.turn fun s =>
  let f := fn.toNat
  let k := stream.toNat
  let x := s.stream f k
  match s.poolNo f i.toNat with
  | none => .next s
  | some p =>
    let y := s.pool p
    if !s.live || x.st == .free || x.st == .halted then .next s
    else if y.fault then .next (s.streamError f k stAccessDenied 0).relays
    else if !y.enabled then .next s
    else match share with
      | some (h, others) =>
        let more := (others.map (·.toNat)).filter (fun j => (s.stream f j).st != .free && (s.stream f j).st != .halted)
        .next (s.shareBuffer p ((k :: more).map (sKey f)) h.toNat).watchPools
      | none =>
        let s := s.setPool p { y with waits := y.waits ++ [⟨sKey f k, x.position, s.now⟩], stallSince := if y.waits.isEmpty then s.now else y.stallSince }
        .next (if s.grantable p && y.waits.isEmpty then s.grant p else s.watchPools)

/-- POOL_GRANT: the oldest waiting allocation is granted once a handle is free (R275). Clips that waited for it are decoded (R352), now or, where their
accesses have to wait, with the bay's next turn. -/
def execPoolGrant (fn : BitVec 6) (i : BitVec 8) (s : State) : Out :=
  match s.poolNo fn.toNat i.toNat with
  | none => .next s
  | some p => .next (if s.live && s.grantable p then
      (((s.grant p).watchPools).attempt (fun s => ((), s.forEach (List.range s.nBays) State.wakeClips))).2 else s)

/-- POOL_RELEASE (R276). -/
def execPoolRelease (fn : BitVec 6) (i : BitVec 8) (stream : BitVec 10) (handle : BitVec 64) (v : MemView) (s : State) : Out :=
  let s := s.seeMem v
  s.turn fun s =>
  match s.poolNo fn.toNat i.toNat with
  | none => .next s
  | some p => .next (if s.live then (s.releaseBuffer p (sKey fn.toNat stream.toNat) handle.toNat).watchPools else s)

/-- POOL_CACHE_REFILL: below 16 handles, 32 are read from the ring (R273). -/
def execPoolCacheRefill (p : BitVec 8) (v : MemView) (s : State) : Out :=
  let s := s.seeMem v
  s.turn fun s =>
  let x := s.pool p.toNat
  .next (if s.live && x.enabled && x.cache.length < 16 then s.ringRead p.toNat 4 else s)

/-- POOL_CACHE_SPILL: above 48 handles, 32 are written to the ring (R273). -/
def execPoolCacheSpill (p : BitVec 8) (v : MemView) (s : State) : Out :=
  let s := s.seeMem v
  s.turn fun s =>
  let x := s.pool p.toNat
  .next (if s.live && x.enabled && 48 < x.cache.length then s.spillHandles p.toNat 32 else s)

/-- POOL_WATCHDOG_FIRE (R280, R281). -/
def execPoolWatchdogFire (p : BitVec 8) (v : MemView) (s : State) : Out :=
  let s := s.seeMem v
  s.turn fun s =>
  let x := s.pool p.toNat
  if !s.live || !s.poolStalled p.toNat || s.now < x.stallSince + s.stallNs then .next s
  else match s.victim p.toNat with
    | none => .next ((s.logTo (some x.fn) stOk 4 4 x.localNo 0xFE 0).restartStall p.toNat)
    | some k => .next (s.preempt p.toNat k)

end Sys2Proof.Machine
end

