-- ==== Sys2Proof/Machine/Sill.lean ====
section
/-! DEFINITION. The sill ports: issue and arbitration (R119 to R134, R231 to R234, R247, R551), read beats and
responses (R121 to R128), stray responses (R131), timeouts (R132). -/

namespace Sys2Proof.Machine

/-- A slot with nothing to transfer (R547). -/
def State.idleSlot (n : Nat) (s : State) : State := (s.modPort n (fun p => { p with slots := p.slots + 1 })).count 1 n 9 1

/-- SILL_REQUEST_ISSUE: one issue slot of a port (R231 to R234). A relay record or other work of the frame's units that waits for the
port may take it; else the request that the arbiter chooses, under the port's tag (R129; log 7). -/
def execSillRequestIssue (port : BitVec 3) (tag : BitVec 13) (s : State) : Out :=
  let n := port.toNat
  if !s.portUp n then .next s else
    let t := s.relays.catchUp.finishDrains
    if (t.port n).slots ≠ (s.port n).slots then .next t
    else match t.arbitrate n with
      | none => .next (t.idleSlot n)
      | some r => match t.tagFor n tag.toNat r.op with
        | none => .next (t.idleSlot n)
        | some g => .next (t.issue n g r)

/-! ## Responses -/

/-- A response whose tag is not outstanding (R131): discarded, counted and logged. -/
def State.strayResponse (n tag : Nat) (write : Bool) (s : State) : State :=
  (s.count 1 n 4 1).logFrame stOk 4 1 n (s.intakeBay n) (tag + b2n write * 65536)

/-- The 128 bytes of a beat. -/
def beatBytes (d : BitVec 1024) : Bytes := natLe 128 d.toNat

/-- The bytes of a completed read, from its beats (R121); FETCH_ADD_32 brings its old word at the beat's start (R125). -/
def OutReq.bytes (o : OutReq) : Bytes :=
  if o.req.op = .fetchAdd then beatBytes (tblGetD o.beats 0 0) else bytesAt ((List.range o.req.beats).flatMap (fun k => beatBytes (tblGetD o.beats k 0))) (o.req.addr % 128) (64 * o.req.grans)

/-- Poisoned granules of the request: numbers from its first granule (R121, R124). -/
def Req.poisonOf (r : Req) (beat : Nat) (p : BitVec 2) : List Nat :=
  let base := (r.addr / 128) * 2 + 2 * beat
  if r.op = .fetchAdd then (if p = 0 then [] else [0]) else ((List.range 2).filter (fun j => p.getLsbD j && r.gFirst ≤ base + j && base + j < r.gFirst + r.grans)).map (fun j => base + j - r.gFirst)

/-- SILL_READ_BEAT (R121, R122, R124). A read is complete when all its beats have arrived. -/
def execSillReadBeat (port : BitVec 3) (tag : BitVec 13) (beat : BitVec 5) (last : Bool) (poison : BitVec 2) (data : BitVec 1024)
    (s : State) : Out :=
  let n := port.toNat
  let p := s.port n
  match p.reads.find? (fun o => o.tag == tag.toNat) with
  | none => .next (s.strayResponse n tag.toNat false)
  | some o =>
    let k := beat.toNat
    if o.req.beats ≤ k || (tblGet? o.beats k).isSome || (last && decide (o.beats.length + 1 < o.req.beats)) then .fault (.portRule n)
    else
      let bad := o.req.poisonOf k poison
      let o' := { o with beats := tblSet o.beats k data, poison := o.poison ++ bad }
      let s := s.count 1 n 7 bad.length
      if o'.beats.length < o.req.beats then
        .next (s.setPort n { p with reads := p.reads.map (fun x => if x.tag == tag.toNat then o' else x) })
      else
        let s := s.setPort n { p with reads := p.reads.filter (fun x => x.tag != tag.toNat) }
        .next (if o.drop then s else (s.complete n o.req (if o'.poison.isEmpty then .okay else .poison) o'.bytes).finishDrains)

/-- SILL_READ_ERROR_RESPONSE: FAULT or DECERR ends the whole read; its beats are discarded (R123). -/
def execSillReadErrorResponse (port : BitVec 3) (tag : BitVec 13) (fault : Bool) (token : Word) (s : State) : Out :=
  let n := port.toNat
  let p := s.port n
  match p.reads.find? (fun o => o.tag == tag.toNat) with
  | none => .next (s.strayResponse n tag.toNat false)
  | some o =>
    let r : Resp := if fault then .fault token else .decerr
    let s := (s.setPort n { p with reads := p.reads.filter (fun x => x.tag != tag.toNat) }).countResp n r
    .next (if o.drop then s else (s.complete n o.req r []).finishDrains)

/-- Tag class of a write (R127). -/
def tagClass (tag : Nat) : Nat := fld tag 10 3

/-- SILL_WRITE_RESPONSE (R127, R128): OKAY means that every byte is written, anything else that none is. -/
def execSillWriteResponse (port : BitVec 3) (tag : BitVec 13) (resp : Resp) (s : State) : Out :=
  let n := port.toNat
  let p := s.port n
  match p.writes.find? (fun o => o.tag == tag.toNat) with
  | none => .next (s.strayResponse n tag.toNat true)
  | some o =>
    if resp = .poison ∨ (p.writes.find? (fun x => tagClass x.tag == tagClass tag.toNat)).map (·.tag) ≠ some tag.toNat then .fault (.portRule n)
    else
      let s := (s.setPort n { p with writes := p.writes.filter (fun x => x.tag != tag.toNat) }).countResp n resp
      let s : State := if resp = .okay then { s with mem := memWriteBytes s.mem o.req.addr o.req.data } else s
      .next (if o.drop then s else (s.complete n o.req resp []).finishDrains)

/-- SILL_REQUEST_TIMEOUT (R132): 1 ms after the transfer the request completes as DECERR and its tag is retired; the
64th retired tag of a port fails it. DESIGN CHOICE (log 119): read tags and write tags are retired and counted apart, so a tag retired
for reads stays usable for writes. -/
def execSillRequestTimeout (port : BitVec 3) (tag : BitVec 13) (write : Bool) (s : State) : Out :=
  let n := port.toNat
  let p := s.port n
  match (if write then p.writes else p.reads).find? (fun o => o.tag == tag.toNat) with
  | none => .next s
  | some o =>
    if s.now < o.at_ + 1000000 then .next s else
      let keep := fun (l : List OutReq) => l.filter (fun x => x.tag != tag.toNat)
      let retired := p.retired ++ [tag.toNat + b2n write * 8192]
      let full := decide (64 ≤ retired.length)
      let s := s.setPort n { p with
        reads := if write then p.reads else keep p.reads, writes := if write then keep p.writes else p.writes,
        retired := retired, failed := p.failed || full }
      let s := (s.count 1 n 5 1).count 1 n 8 1
      let s := if o.drop then s else (s.complete n o.req .decerr []).finishDrains
      .next (if full then s.frameFatal 1 n else s)

end Sys2Proof.Machine
end

