-- ==== Sys2Proof/Machine/Dispatch.lean ====
section
/-! DEFINITION. Each command's meaning: one arm per constructor, one direct call per arm. -/

namespace Sys2Proof.Machine

/-- The effect of a command on everything but the queue of waiting commands. -/
def exec (i : Instr) (s : State) : Host.Outcome State Fault Refusal :=
  match i with
  | .porAssert => Sys2Proof.Machine.execPorAssert s
  | .porRelease => Sys2Proof.Machine.execPorRelease s
  | .firmwareVerify v => Sys2Proof.Machine.execFirmwareVerify v s
  | .dieBringUp linkUp kat noise => Sys2Proof.Machine.execDieBringUp linkUp kat noise s
  | .startUpMarchDone reads => Sys2Proof.Machine.execStartUpMarchDone reads s
  | .testModeEntry => Sys2Proof.Machine.execTestModeEntry s
  | .marchTrig => Sys2Proof.Machine.execMarchTrig s
  | .zeroisePin => Sys2Proof.Machine.execZeroisePin s
  | .zeroiseRelease => Sys2Proof.Machine.execZeroiseRelease s
  | .zeroisationComplete noise => Sys2Proof.Machine.execZeroisationComplete noise s
  | .dieIsoAssert die => Sys2Proof.Machine.execDieIsoAssert die s
  | .paceSync => Sys2Proof.Machine.execPaceSync s
  | .paceRefLoss => Sys2Proof.Machine.execPaceRefLoss s
  | .thermalUpdate die temp => Sys2Proof.Machine.execThermalUpdate die temp s
  | .sensorStale die => Sys2Proof.Machine.execSensorStale die s
  | .kekLoad words => Sys2Proof.Machine.execKekLoad words s
  | .wrappedKey words => Sys2Proof.Machine.execWrappedKey words s
  | .clockStepAck k mhz => Sys2Proof.Machine.execClockStepAck k mhz s
  | .clockStepAckTimeout k => Sys2Proof.Machine.execClockStepAckTimeout k s
  | .bayClockFault k => Sys2Proof.Machine.execBayClockFault k s
  | .linkUpLoss b => Sys2Proof.Machine.execLinkUpLoss b s
  | .scarfFlitSend b side lane route => Sys2Proof.Machine.execScarfFlitSend b side lane route s
  | .scarfFlitReceive b side lane flit => Sys2Proof.Machine.execScarfFlitReceive b side lane flit s
  | .scarfNakReceive b side lane ackSeq => Sys2Proof.Machine.execScarfNakReceive b side lane ackSeq s
  | .scarfReplayTimeout b side lane => Sys2Proof.Machine.execScarfReplayTimeout b side lane s
  | .tenonLaunch bay tenon => Sys2Proof.Machine.execTenonLaunch bay tenon s
  | .trussBeatAccept route link => Sys2Proof.Machine.execTrussBeatAccept route link s
  | .bayDozeEntry k => Sys2Proof.Machine.execBayDozeEntry k s
  | .bayWake k => Sys2Proof.Machine.execBayWake k s
  | .sillRequestIssue port tag => Sys2Proof.Machine.execSillRequestIssue port tag s
  | .sillReadBeat port tag beat last poison data => Sys2Proof.Machine.execSillReadBeat port tag beat last poison data s
  | .sillReadErrorResponse port tag fault token => Sys2Proof.Machine.execSillReadErrorResponse port tag fault token s
  | .sillWriteResponse port tag resp => Sys2Proof.Machine.execSillWriteResponse port tag resp s
  | .sillRequestTimeout port tag write => Sys2Proof.Machine.execSillRequestTimeout port tag write s
  | .stewardWatchdogExpiry => Sys2Proof.Machine.execStewardWatchdogExpiry s
  | .dumpSectionWrite v => Sys2Proof.Machine.execDumpSectionWrite v s
  | .controlStateEcc store => Sys2Proof.Machine.execControlStateEcc store s
  | .logEntryWrite log v => Sys2Proof.Machine.execLogEntryWrite log v s
  | .errLogBaseHiWrite acc log value => Sys2Proof.Machine.execErrLogBaseHiWrite acc log value s
  | .notifySend => Sys2Proof.Machine.execNotifySend s
  | .pageRequestGroupSend fn stream => Sys2Proof.Machine.execPageRequestGroupSend fn stream s
  | .hostRegisterWrite acc addr value => Sys2Proof.Machine.execHostRegisterWrite acc addr value s
  | .rcRegisterRead acc addr event => Sys2Proof.Machine.execRcRegisterRead acc addr event s
  | .reg64LoRead acc addr => Sys2Proof.Machine.execReg64LoRead acc addr s
  | .imgStart acc value v between => Sys2Proof.Machine.execImgStart acc value v between s
  | .imgAbort acc value => Sys2Proof.Machine.execImgAbort acc value s
  | .imageCommit => Sys2Proof.Machine.execImageCommit s
  | .funcResetGo acc fn value => Sys2Proof.Machine.execFuncResetGo acc fn value s
  | .funcResetComplete fn => Sys2Proof.Machine.execFuncResetComplete fn s
  | .qEnable acc fn q value => Sys2Proof.Machine.execQEnable acc fn q value s
  | .qEnableCheck fn q => Sys2Proof.Machine.execQEnableCheck fn q s
  | .qDisable acc fn q value => Sys2Proof.Machine.execQDisable acc fn q value s
  | .qDisableComplete fn q => Sys2Proof.Machine.execQDisableComplete fn q s
  | .qConfigWrite acc fn q reg value => Sys2Proof.Machine.execQConfigWrite acc fn q reg value s
  | .doorbell acc fn value => Sys2Proof.Machine.execDoorbell acc fn value s
  | .tailRead fn q extra v => Sys2Proof.Machine.execTailRead fn q extra v s
  | .entryFetch fn q v => Sys2Proof.Machine.execEntryFetch fn q v s
  | .queueVisit fn q v => Sys2Proof.Machine.execQueueVisit fn q v s
  | .copy fn q slot v => Sys2Proof.Machine.execCopy fn q slot v s
  | .streamOpen fn q slot v => Sys2Proof.Machine.execStreamOpen fn q slot v s
  | .streamClose fn q slot v => Sys2Proof.Machine.execStreamClose fn q slot v s
  | .shardList fn q slot v => Sys2Proof.Machine.execShardList fn q slot v s
  | .sample fn q slot v => Sys2Proof.Machine.execSample fn q slot v s
  | .gather fn q slot v => Sys2Proof.Machine.execGather fn q slot v s
  | .scatter fn q slot v => Sys2Proof.Machine.execScatter fn q slot v s
  | .returnLogits fn q slot v => Sys2Proof.Machine.execReturnLogits fn q slot v s
  | .returnWrite fn q slot v => Sys2Proof.Machine.execReturnWrite fn q slot v s
  | .poolFill fn q slot v => Sys2Proof.Machine.execPoolFill fn q slot v s
  | .contextSave fn q slot v => Sys2Proof.Machine.execContextSave fn q slot v s
  | .contextRestore fn q slot v => Sys2Proof.Machine.execContextRestore fn q slot v s
  | .streamResume fn q slot v => Sys2Proof.Machine.execStreamResume fn q slot v s
  | .lockGroup fn q slot v => Sys2Proof.Machine.execLockGroup fn q slot v s
  | .snapshot fn q slot v => Sys2Proof.Machine.execSnapshot fn q slot v s
  | .jobCompleteHeadPublish fn q v => Sys2Proof.Machine.execJobCompleteHeadPublish fn q v s
  | .batchDeliver fn stream v => Sys2Proof.Machine.execBatchDeliver fn stream v s
  | .lockGroupRelease group v => Sys2Proof.Machine.execLockGroupRelease group v s
  | .scheduleStart fn stream v => Sys2Proof.Machine.execScheduleStart fn stream v s
  | .epochStart fn stream v => Sys2Proof.Machine.execEpochStart fn stream v s
  | .hurdlePass fn stream => Sys2Proof.Machine.execHurdlePass fn stream s
  | .shuffleWindowBuild fn stream v => Sys2Proof.Machine.execShuffleWindowBuild fn stream v s
  | .intakeRecord fn stream v => Sys2Proof.Machine.execIntakeRecord fn stream v s
  | .judgeHeatStart bay v => Sys2Proof.Machine.execJudgeHeatStart bay v s
  | .heatRegionWrite acc reg value => Sys2Proof.Machine.execHeatRegionWrite acc reg value s
  | .bankOwnerWrite acc b value => Sys2Proof.Machine.execBankOwnerWrite acc b value s
  | .bankHandover b => Sys2Proof.Machine.execBankHandover b s
  | .bankClearDone b => Sys2Proof.Machine.execBankClearDone b s
  | .scrubRead b upset => Sys2Proof.Machine.execScrubRead b upset s
  | .marchStart acc value => Sys2Proof.Machine.execMarchStart acc value s
  | .marchDone reads => Sys2Proof.Machine.execMarchDone reads s
  | .poolMapWrite acc p value => Sys2Proof.Machine.execPoolMapWrite acc p value s
  | .poolEnable acc fn ix value v => Sys2Proof.Machine.execPoolEnable acc fn ix value v s
  | .poolDisable acc fn ix value v => Sys2Proof.Machine.execPoolDisable acc fn ix value v s
  | .poolAllocate fn ix stream share => Sys2Proof.Machine.execPoolAllocate fn ix stream share s
  | .poolGrant fn ix => Sys2Proof.Machine.execPoolGrant fn ix s
  | .poolRelease fn ix stream handle v => Sys2Proof.Machine.execPoolRelease fn ix stream handle v s
  | .poolCacheRefill p v => Sys2Proof.Machine.execPoolCacheRefill p v s
  | .poolCacheSpill p v => Sys2Proof.Machine.execPoolCacheSpill p v s
  | .poolWatchdogFire p v => Sys2Proof.Machine.execPoolWatchdogFire p v s
  | .relayReturn acc fn value => Sys2Proof.Machine.execRelayReturn acc fn value s
  | .frameModeWrite acc value => Sys2Proof.Machine.execFrameModeWrite acc value s
  | .frameCtrlWrite acc value => Sys2Proof.Machine.execFrameCtrlWrite acc value s
  | .paceOffsetWrite acc value => Sys2Proof.Machine.execPaceOffsetWrite acc value s
  | .snapAtWrite acc value => Sys2Proof.Machine.execSnapAtWrite acc value s
  | .snapshotCopy unit => Sys2Proof.Machine.execSnapshotCopy unit s
  | .snapshotComplete => Sys2Proof.Machine.execSnapshotComplete s
  | .governorStep v => Sys2Proof.Machine.execGovernorStep v s
  | .sprintGrant die => Sys2Proof.Machine.execSprintGrant die s
  | .secAuth acc => Sys2Proof.Machine.execSecAuth acc s
  | .secClose acc => Sys2Proof.Machine.execSecClose acc s
  | .secZeroise acc => Sys2Proof.Machine.execSecZeroise acc s
  | .secSelftest acc => Sys2Proof.Machine.execSecSelftest acc s
  | .selftestComplete kat noise => Sys2Proof.Machine.execSelftestComplete kat noise s
  | .signCommit acc value => Sys2Proof.Machine.execSignCommit acc value s
  | .signClear acc value => Sys2Proof.Machine.execSignClear acc value s
  | .keyPartWrite acc f value => Sys2Proof.Machine.execKeyPartWrite acc f value s
  | .secTestArm acc value => Sys2Proof.Machine.execSecTestArm acc value s
  | .keyQuery acc fn value => Sys2Proof.Machine.execKeyQuery acc fn value s
  | .keyZeroise acc fn value => Sys2Proof.Machine.execKeyZeroise acc fn value s
  | .keyDerive acc fn value => Sys2Proof.Machine.execKeyDerive acc fn value s
  | .noiseSample bit => Sys2Proof.Machine.execNoiseSample bit s
  | .drbgReseed noise => Sys2Proof.Machine.execDrbgReseed noise s
  | .paceRefRestore => Sys2Proof.Machine.execPaceRefRestore s
  | .relayPortSend => Sys2Proof.Machine.execRelayPortSend s
  | .managementStorageEcc store => Sys2Proof.Machine.execManagementStorageEcc store s
  | .bayControlStateEcc k => Sys2Proof.Machine.execBayControlStateEcc k s
  | .wrapperInstructionUpdate wrapper instr => Sys2Proof.Machine.execWrapperInstructionUpdate wrapper instr s
  | .clockStepAckLowered k => Sys2Proof.Machine.execClockStepAckLowered k s

end Sys2Proof.Machine
end

