-- ==== Sys2Proof/WellFormed.lean ====
section
/-! DEFINITION. Which commands are well formed: operands that no field of their type bounds lie where the manual puts them. -/

namespace Sys2Proof

/-- What became visible lies in the 64-bit address space (R119). -/
def MemView.wf (v : MemView) : Bool :=
  v.writes.all (fun w => decide (w.1 + w.2.length ≤ 2 ^ 64)) &&
  (match v.rules with
    | some l => l.all (fun r => decide (r.lo + r.len ≤ 2 ^ 64))
    | none => true)

/-- A bank number of the frame page: b = 48 × bay + bank, 0 to 3,071 (R265). -/
def bankWf (b : BitVec 12) : Bool := decide (b.toNat < 3072)

/-- A clock of the frame: 64 bays and the control bay (R151). -/
def clockWf (k : BitVec 7) : Bool := decide (k.toNat ≤ 64)

/-- A failing known-answer test: 1 to 10 (R505). -/
def katWf (kat : Option (BitVec 4)) : Bool := match kat with
  | some k => decide (1 ≤ k.toNat ∧ k.toNat ≤ 10)
  | none => true

/-- Samples of the start-up tests, and of the entropy and nonce of an instantiation (R173, R504). -/
def startNoise : Nat := 1024 + 1024 + 256

/-- Whether a command's operands are in range. -/
def Instr.wf : Instr → Bool
  | .firmwareVerify v => v.wf
  | .dieBringUp _ kat noise => katWf kat && decide (noise.length = startNoise)
  | .startUpMarchDone reads => reads.all (fun r => bankWf r.bank)
  | .zeroisationComplete noise => decide (noise.length = 1024 + 256)
  | .kekLoad words => !words.isEmpty
  | .wrappedKey words => !words.isEmpty
  | .clockStepAck k mhz => clockWf k && decide (mhz < 2048)
  | .clockStepAckTimeout k => clockWf k
  | .clockStepAckLowered k => clockWf k
  | .trussBeatAccept _ link => decide (link.toNat ≤ 2)
  | .dumpSectionWrite v => v.wf
  | .logEntryWrite _ v => v.wf
  | .imgStart _ _ v between => v.wf && between.wf
  | .tailRead _ _ extra v => decide (extra.toNat ≤ 32) && v.wf
  | .entryFetch _ _ v => v.wf
  | .queueVisit _ _ v => v.wf
  | .copy _ _ _ v => v.wf
  | .streamOpen _ _ _ v => v.wf
  | .streamClose _ _ _ v => v.wf
  | .shardList _ _ _ v => v.wf
  | .sample _ _ _ v => v.wf
  | .gather _ _ _ v => v.wf
  | .scatter _ _ _ v => v.wf
  | .returnLogits _ _ _ v => v.wf
  | .returnWrite _ _ _ v => v.wf
  | .poolFill _ _ _ v => v.wf
  | .contextSave _ _ _ v => v.wf
  | .contextRestore _ _ _ v => v.wf
  | .streamResume _ _ _ v => v.wf
  | .lockGroup _ _ _ v => v.wf
  | .snapshot _ _ _ v => v.wf
  | .jobCompleteHeadPublish _ _ v => v.wf
  | .batchDeliver _ _ v => v.wf
  | .lockGroupRelease _ v => v.wf
  | .scheduleStart _ _ v => v.wf
  | .epochStart _ _ v => v.wf
  | .shuffleWindowBuild _ _ v => v.wf
  | .intakeRecord _ _ v => v.wf
  | .judgeHeatStart _ v => v.wf
  | .bankOwnerWrite _ b _ => bankWf b
  | .bankHandover b => bankWf b
  | .bankClearDone b => bankWf b
  | .scrubRead b _ => bankWf b
  | .marchDone reads => reads.all (fun r => bankWf r.bank)
  | .poolEnable _ _ _ _ v => v.wf
  | .poolDisable _ _ _ _ v => v.wf
  | .poolRelease _ _ _ _ v => v.wf
  | .poolCacheRefill _ v => v.wf
  | .poolCacheSpill _ v => v.wf
  | .poolWatchdogFire _ v => v.wf
  | .governorStep v => v.wf
  | .selftestComplete kat noise => katWf kat && decide (noise.length = startNoise)
  | .drbgReseed noise => decide (noise.length = 1024)
  | .wrapperInstructionUpdate wrapper _ => decide (wrapper.toNat ≤ 65)
  | .porAssert | .porRelease | .testModeEntry | .marchTrig | .zeroisePin | .zeroiseRelease | .dieIsoAssert _ | .paceSync | .paceRefLoss
  | .thermalUpdate _ _ | .sensorStale _ | .bayClockFault _ | .linkUpLoss _ | .scarfFlitSend _ _ _ _ | .scarfFlitReceive _ _ _ _
  | .scarfNakReceive _ _ _ _ | .scarfReplayTimeout _ _ _ | .tenonLaunch _ _ | .bayDozeEntry _ | .bayWake _ | .sillRequestIssue _ _
  | .sillReadBeat _ _ _ _ _ _ | .sillReadErrorResponse _ _ _ _ | .sillWriteResponse _ _ _ | .sillRequestTimeout _ _ _
  | .stewardWatchdogExpiry | .controlStateEcc _ | .errLogBaseHiWrite _ _ _ | .notifySend | .pageRequestGroupSend _ _
  | .hostRegisterWrite _ _ _ | .rcRegisterRead _ _ _ | .reg64LoRead _ _ | .imgAbort _ _ | .imageCommit | .funcResetGo _ _ _
  | .funcResetComplete _ | .qEnable _ _ _ _ | .qEnableCheck _ _ | .qDisable _ _ _ _ | .qDisableComplete _ _ | .qConfigWrite _ _ _ _ _
  | .doorbell _ _ _ | .hurdlePass _ _ | .heatRegionWrite _ _ _ | .marchStart _ _ | .poolMapWrite _ _ _ | .poolAllocate _ _ _ _
  | .poolGrant _ _ | .relayReturn _ _ _ | .frameModeWrite _ _ | .frameCtrlWrite _ _ | .paceOffsetWrite _ _ | .snapAtWrite _ _
  | .snapshotCopy _ | .snapshotComplete | .sprintGrant _ | .secAuth _ | .secClose _ | .secZeroise _ | .secSelftest _ | .signCommit _ _
  | .signClear _ _ | .keyPartWrite _ _ _ | .secTestArm _ _ | .keyQuery _ _ _ | .keyZeroise _ _ _ | .keyDerive _ _ _ | .noiseSample _
  | .paceRefRestore | .relayPortSend | .managementStorageEcc _ | .bayControlStateEcc _ => true

end Sys2Proof
end

