-- ==== Sys2Proof/Safety.lean ====
section
/-! DEFINITION. What claims speak of: the invariant that every step keeps, accesses that are not stopped (R138, R179, R494,
R557), memory that answers OKAY (R135), entries that act (R189, R190, R204), samples that pass the health tests (R503). -/

namespace Sys2Proof.Machine

/-- The licensee's memory is in its canonical form: addresses rise, no entry is 0 (log 3). -/
def State.Canonical (s : State) : Prop := s.mem.wf = true

/-- A frame-page access that takes effect: origin frame (R138), not FATAL (R557). -/
def State.FrameAccess (s : State) (acc : Acc) : Prop := acc.origin = .frame ∧ s.frame.st ≠ .fatal

/-- A management-page access that takes effect: origin management (R138), not FATAL (R557). -/
def State.MgmtAccess (s : State) (acc : Acc) : Prop := acc.origin = .management ∧ s.frame.st ≠ .fatal

/-- A management-page access in a Crypto Officer session (R494). -/
def State.OfficerAccess (s : State) (acc : Acc) : Prop := s.MgmtAccess acc ∧ s.sec.session = true

/-- An access to a function's page that takes effect: the frame's or the function's own origin (R138), after start-up and
not in FATAL (R557), the function not halted (R179). -/
def State.FuncAccess (s : State) (acc : Acc) (fn : BitVec 6) : Prop :=
  (acc.origin = .frame ∨ (acc.origin = .function ∧ acc.fn = fn)) ∧ fn.toNat < s.caps.funcs ∧ s.early = false ∧ s.frame.st ≠ .fatal ∧
    (s.func fn.toNat).st ≠ .halted

/-- The state with the answer of an accepted write. -/
def State.accepted (s : State) : State := s.answer 0 false

/-- The answer of memory to the whole granules that an access of `len` bytes at `addr` takes (R120, R135); none is no answer. -/
def State.answerAt (s : State) (addr len : Nat) : Option Resp := respOf s.resp (addr / 64 * 64) (64 * ceilDiv (addr % 64 + len) 64)

/-- Sill port `n` serves, and memory behind it gives every access within a range an answer of a kind (R135). -/
def State.AnswersIn (s : State) (P : Resp → Prop) (n addr len : Nat) : Prop :=
  s.portUp n = true ∧ ∀ b k, 0 < k → addr ≤ b → b + k ≤ addr + len → ∃ r, s.answerAt b k = some r ∧ P r

/-- Sill port `n` serves, and memory behind it answers OKAY to every access within a range (R135). -/
def State.OkayIn (s : State) (n addr len : Nat) : Prop := s.AnswersIn (· = .okay) n addr len

/-- No work of a unit waits for a port or for room in the MSG queue, no stream drains, and no job waits for a stream (log 4). -/
def State.NoWork (s : State) : Prop :=
  (∀ p ∈ s.openStreams, p.2.2.waitingRecs = [] ∧ p.2.2.st ≠ .draining) ∧ s.later = [] ∧ ∀ q ∈ s.queues, ∀ j ∈ q.2.jobs, j.waits = none

/-- Sill port `n` serves, and memory behind it answers OKAY to an access (R135). -/
def State.OkayAt (s : State) (n addr len : Nat) : Prop := s.portUp n = true ∧ s.answerAt addr len = some .okay

/-- No earlier try of this access is out or answered at its port (log 4). -/
def State.FirstTry (s : State) (n : Nat) (r : Req) : Prop :=
  (∀ a ∈ (s.port n).answers, a.req.same r = false) ∧ ∀ o ∈ (s.port n).table r.op, o.drop = false → o.req.same r = false

/-- An access has its issue slot now: a tag is free, its granules are, and no request that waits at its port goes before it (R129 to
R132, R231, R232, R551). -/
def State.HasSlot (s : State) (w : Party) (op : SillOp) (addr len : Nat) (operand : Word) (data : Bytes) : Prop :=
  let r := w.req op addr len operand data
  s.FirstTry w.port r ∧ (s.freeTag w.port op).isSome = true ∧ s.granulesFree r = true ∧
    s.choose w.port (r :: (s.port w.port).waiting.filter (s.eligible w.port)) = some r

/-- An access has to wait for its issue slot (R129 to R132, R231, R232). -/
def State.NoSlot (s : State) (w : Party) (op : SillOp) (addr len : Nat) (operand : Word) (data : Bytes) : Prop :=
  let r := w.req op addr len operand data
  s.FirstTry w.port r ∧ (s.toSlot w.port r).1 = none

/-- What the sill ports hold is as before: only issue slots have passed and signals gone out (R119, R126, R547). -/
def State.SamePorts (s t : State) : Prop :=
  ∀ n, t.port n = { s.port n with sent := (t.port n).sent, wdata := (t.port n).wdata, slots := (t.port n).slots, rr := (t.port n).rr }

/-- No request waits at a sill port or is outstanding, no answer stands there, and no port has all its tags retired: every access has
its slot. -/
def State.PortsRest (s : State) : Prop :=
  ∀ p ∈ s.ports, p.2.waiting = [] ∧ p.2.reads = [] ∧ p.2.writes = [] ∧ p.2.answers = [] ∧ p.2.retired.length < 64

/-- The outcome while a command has to wait for an issue slot, for an answer (R129 to R132, R231, R232) or for room in the MSG queue
(R145): the accesses it has made, and nothing else; it is tried again (log 4). -/
def State.Waits (s : State) (o : Out) : Prop := ∃ x : Running, x.miss.isSome = true ∧ o = .next (s.waited x)

/-- The outcome of what a unit of the frame does by itself is a next state: all of `f`, or, where something in it has to wait, what that
leaves. -/
def State.After (s : State) (f : State → State) (o : Out) : Prop :=
  o = .next (if (f s.start).running.miss.isNone then { f s.start with running := s.running } else s.waited (f s.start).running)

/-- The frame is RUNNING, and the job whose entry lies in a slot may act as this opcode once `v` is visible (R190, R204). -/
def State.Acts (s : State) (op : Nat) (fn : BitVec 6) (q : BitVec 9) (slot : BitVec 16) (v : MemView) (j : Job) (e : Bytes) : Prop :=
  s.frame.st = .running ∧ (s.seeMem v).readyEntry op fn.toNat q.toNat slot.toNat = some (j, e)

/-- The entry that a job acts on is complete with OK (R189): the job is one entry further, nothing else changes. -/
def State.stepped (f q : Nat) (j : Job) (s : State) : State := s.modJob f q j Job.step

/-- A whole job is complete with OK (R565). -/
def State.jobFinished (f q : Nat) (j : Job) (s : State) : State :=
  s.modJob f q j (fun j => { j with complete := true, acted := j.total })

/-- The command of each opcode whose entries act by a command of their own (R188). -/
def entryCommand (op : Nat) (fn : BitVec 6) (q : BitVec 9) (slot : BitVec 16) (v : MemView) : Option Instr :=
  if op = 0x01 then some (.copy fn q slot v) else if op = 0x02 then some (.streamOpen fn q slot v)
  else if op = 0x03 then some (.streamClose fn q slot v) else if op = 0x04 then some (.shardList fn q slot v)
  else if op = 0x05 then some (.sample fn q slot v) else if op = 0x06 then some (.gather fn q slot v)
  else if op = 0x07 then some (.scatter fn q slot v) else if op = 0x08 then some (.returnLogits fn q slot v)
  else if op = 0x09 then some (.returnWrite fn q slot v) else if op = 0x0A then some (.poolFill fn q slot v)
  else if op = 0x0B then some (.contextSave fn q slot v) else if op = 0x0C then some (.contextRestore fn q slot v)
  else if op = 0x0D then some (.streamResume fn q slot v) else if op = 0x0E then some (.lockGroup fn q slot v)
  else if op = 0x0F then some (.snapshot fn q slot v) else none

/-- Samples that pass both health tests, with no failure armed (R503, R509). -/
def noisePasses : Noise → List Bool → Bool
  | _, [] => true
  | n, b :: t => (n.step b).2.isNone && noisePasses (n.step b).1 t

/-- Power-on reset is taken on por_n and on a rising edge of test_mode (R165). -/
def isReset : Instr → Bool
  | .porAssert => true
  | .testModeEntry => true
  | _ => false

end Sys2Proof.Machine
end

