-- ==== Sys2Proof/Certificates/Slice0/Obligations.lean ====
section
/-! DEFINITION. What is to be proved of the block: each statement cites the rules of spec/ that it rests on, and the entries of the
assumption log where a clause is the model's own choice. -/

open Sys2Proof Sys2Proof.Machine

/-- A step takes the command at the front of the queue and runs its meaning with the rest of the queue (log 1). -/
def Obligations.StepRunsFrontCommand : Prop :=
  ∀ (c : Instr) (rest : List Instr) (s : State), s.pending = c :: rest → step s = exec c (s.withPending rest)

/-- With no command waiting, a step lets 10 ns of pacer time pass once the pacer counts, and does nothing else (R539; the model's
choice, log 1). -/
def Obligations.IdleStepPassesTime : Prop :=
  ∀ s : State, s.pending = [] →
    step s = .next { s with pace := { s.pace with time := if s.pace.counting then (s.pace.time + 10) % 2 ^ 64 else s.pace.time } }

/-- The machine right after reset (R165, R167), over any silicon: RESET with por_n low, the pacer at 0 and not counting, no stream, queue,
pool, key slot, image or fence, no request on any port, no message or other work waiting, the reset values of POOL_STALL and IMG_STATUS,
and every wrapper with the bypass instruction (the model's choice, log 123). State.reset is that of configuration L64 (R5). Power-on reset
(R165): every register takes its reset value, whatever the state; silicon, the licensee's memory and the level of the zeroise pin
stay. On a rising edge of test_mode the same happens, key slots included (R163), but for the isolation of dies (R154), and start-up
begins again while por_n is high; the release of por_n starts it (R167). -/
def Obligations.ResetLeavesAndRestoresAll : Prop :=
  State.reset = State.resetOn Caps.l64 ∧
  (∀ c : Caps, let s := State.resetOn c
   s.caps = c ∧ s.frame.st = .reset ∧ s.pins.porN = false ∧ s.pace.time = 0 ∧ s.pace.counting = false ∧ s.pending = [] ∧ s.openStreams = [] ∧
   s.allQueues = [] ∧ s.pools = [] ∧ s.ports = [] ∧ s.sec.slots = [] ∧ s.sec.kek = none ∧ s.sec.session = false ∧ s.sec.cryptoError = false ∧
   s.image.committed = none ∧ s.image.st = .idle ∧ s.image.sect = 0x7F ∧ (∀ k, s.fenced k = false) ∧ s.frameLog.next = 0 ∧
   s.notify.msgs = [] ∧ s.relay.fifo = [] ∧ s.later = [] ∧ s.stallUs = 100 ∧ s.mem = [] ∧ (∀ w, s.wrapper w = .bypass)) ∧
  (∀ s : State,
     exec .porAssert s = .next { State.resetWith s.caps s.pending s.freeCtr s.mem s.resp with
       pins := { Pins.fresh with zeroise := s.pins.zeroise } } ∧
     (s.pins.testMode = false → exec .testModeEntry s = .next { State.resetWith s.caps s.pending s.freeCtr s.mem s.resp with
       pins := { Pins.fresh with
         porN := s.pins.porN, testMode := true, zeroise := s.pins.zeroise, dieIso := s.pins.dieIso, dieIsoDone := s.pins.dieIsoDone },
       frame := { Frame.fresh with st := if s.pins.porN then .boot else .reset },
       pace := { Pacer.fresh with counting := s.pins.porN } }) ∧
     (s.pins.porN = false → exec .porRelease s = .next { s with
       pins := { s.pins with porN := true },
       frame := { s.frame with st := .boot },
       pace := { s.pace with counting := true, time := 0 } }))

/-- Reset memory has the canonical form (log 3). -/
def Obligations.ResetMemoryCanonical : Prop :=
  State.reset.Canonical

/-- Every step keeps the canonical form of memory, from every state, reachable or not (log 3). -/
def Obligations.MemoryCanonicalKept : Prop :=
  ∀ s t : State, s.Canonical → step s = .next t → t.Canonical

/-- No command changes the queue of waiting commands, nor what is fixed in silicon (R5 to R7; log 1). No command is refused, and a
command stops with a fault only where the licensee breaks a rule of a port: a read beat (R122), a write response (R127), a
clock-step acknowledgement (R151). -/
def Obligations.CommandsKeepQueueAndAreNotRefused : Prop :=
  (∀ (c : Instr) (s t : State), exec c s = .next t → t.pending = s.pending ∧ t.caps = s.caps) ∧
  (∀ (c : Instr) (s : State),
     (∀ r : Refusal, exec c s ≠ .refused r) ∧
     (∀ r : Fault, exec c s = .fault r →
       (∃ p t b l m d, c = .sillReadBeat p t b l m d) ∨ (∃ p t r, c = .sillWriteResponse p t r) ∨ (∃ k m, c = .clockStepAck k m)))

/-- Only power-on reset leaves CRYPTO_ERROR (R511): every command but POR_ASSERT and TEST_MODE_ENTRY keeps it, and those two end it.
-/
def Obligations.CryptoErrorEndsOnlyAtReset : Prop :=
  ∀ (c : Instr) (s t : State), exec c s = .next t →
    (isReset c = false → s.sec.cryptoError = true → t.sec.cryptoError = true) ∧
    (c = .porAssert ∨ (c = .testModeEntry ∧ s.pins.testMode = false) → t.sec.cryptoError = false)

/-- A frame stays in the fatal state until power-on reset (R30): every command but POR_ASSERT and TEST_MODE_ENTRY keeps it. A
release of por_n is one only while por_n is low. -/
def Obligations.FatalEndsOnlyAtReset : Prop :=
  ∀ (c : Instr) (s t : State), isReset c = false → (c = .porRelease → s.pins.porN = true) → s.frame.st = .fatal → exec c s = .next t →
    t.frame.st = .fatal

/-- FIRMWARE_VERIFY (R168 to R171): once the header and the rest of the image read OKAY, the outcome is that of the ROM's checks. A
verified image sets the version and nothing else but sill ports and their counters; a failed check stops start-up with its cause,
FW_KEY or FW_SIGNATURE. A read that is not OKAY stops it with cause 1. While a read waits for its issue slot or its answer (log 4)
nothing else changes. At any other time nothing happens. -/
def Obligations.FirmwareVerifyOutcome : Prop :=
  ∀ (v : MemView) (s : State),
    let s' := s.seeMem v
    let hd := memReadBytes s'.mem Config.fwAddr 64
    let n := min (leAt hd 8 4) (512 * 1024 - 64) + 256
    let img := hd ++ memReadBytes s'.mem (Config.fwAddr + 64) n
    let rest := Config.fwAddr + 64
    (s.frame.st = .boot → s.frame.fwVerified = false →
      ∃ t, exec (.firmwareVerify v) s = .next t ∧
        t = { s' with ports := t.ports, tel := { s'.tel with cnt := t.tel.cnt }, frame := t.frame } ∧
        (s'.PortsRest → s'.OkayIn 0 Config.fwAddr 64 → s'.OkayIn 0 rest n → t.frame = match firmwareCheck img (leAt hd 8 4) with
          | .ok ver => { s.frame with fwVerified := true, fwVersion := BitVec.ofNat 32 ver }
          | .error c => { s.frame with st := .bootFail, bootCause := c }) ∧
        (s'.portUp 0 = false ∨ (s'.PortsRest ∧ s'.AnswersIn (· ≠ .okay) 0 Config.fwAddr 64) ∨
            (s'.PortsRest ∧ s'.OkayIn 0 Config.fwAddr 64 ∧ s'.AnswersIn (· ≠ .okay) 0 rest n) →
          t.frame = { s.frame with st := .bootFail, bootCause := 1 })) ∧
    (s.frame.st ≠ .boot ∨ s.frame.fwVerified = true → exec (.firmwareVerify v) s = .next s')

/-- DIE_BRING_UP (R172 to R174, R504): with every boundary up, no known-answer test failing and every noise sample passing the
health tests, start-up is in SELF_TEST, every die is up, the DRBG is instantiated, the march of every bank runs and march_done is
low (R164). A known-answer test that fails during start-up enters CRYPTO_ERROR with its cause and ends in BOOT_FAIL with BOOT_CAUSE
KAT (R174, R505, R511). -/
def Obligations.StartUpTestsRunOrStop : Prop :=
  (∀ (noise : List Bool) (s : State),
     s.frame.st = .boot → s.frame.fwVerified = true → 1 ≤ s.caps.dies → s.caps.dies ≤ 4 → s.pins.dieIso = [] →
     s.sec.armed = none → s.sec.cryptoError = false → noisePasses s.sec.noise noise = true →
     ∃ t, exec (.dieBringUp 15#4 none noise) s = .next t ∧ t.frame = { s.frame with st := .selfTest, diesUp := List.range s.caps.dies } ∧
       t.sec.drbg.isSome = true ∧ t.march = { s.march with busy := true, whole := true } ∧ t.pins = { s.pins with marchDone := false } ∧
       (∀ b ∈ boundariesOf s.caps.dies, t.boundaryUp b.1 = true) ∧
       t = { s with frame := t.frame, bounds := t.bounds, sec := t.sec, march := t.march, pins := t.pins } ∧
       t.sec = { s.sec with noise := t.sec.noise, armPos := t.sec.armPos, drbg := t.sec.drbg, nonce := t.sec.nonce }) ∧
  (∀ (linkUp k : BitVec 4) (noise : List Bool) (s : State),
     s.frame.st = .boot → s.frame.fwVerified = true → s.sec.cryptoError = false → s.sec.armed = none → 1 ≤ k.toNat → k.toNat ≤ 10 →
     ∃ t, exec (.dieBringUp linkUp (some k) noise) s = .next t ∧ t.frame.st = .bootFail ∧ t.frame.bootCause = 4 ∧
       t.sec.cryptoError = true ∧ t.sec.errCause = 0x10 + k.toNat ∧ t.sec.slots = [] ∧ t.sec.kek = none ∧ t.sec.heatKey = none ∧
       t.sec.drbg = none ∧ t.sec.session = false)

/-- START_UP_MARCH_DONE (R43, R45, R173, R175): READY_FOR_IMAGE, the pre-operational tests passed, march_done high; every bay of the
frame is fenced, in PARK, or on its way there by a clock step to a stopped clock; a bay with a failing reachable bank is fenced.
While no stream is open, as in every run during start-up, every reachable bank whose march passed holds zeros, and a crypto service
that did not wait for the tests changes nothing. -/
def Obligations.StartUpMarchMakesReady : Prop :=
  ∀ (reads : List MarchRead) (s : State),
    (s.frame.st = .selfTest → s.march.busy = true →
      ∃ t, exec (.startUpMarchDone reads) s = .next t ∧ t.frame.st = .ready ∧ t.frame.preTests = true ∧ t.march.busy = false ∧
        t.march.done = true ∧ t.pins.marchDone = true ∧
        t.pins.marchFail = s.reachableBanks.any (fun b => (marchFailing reads).contains b) ∧
        t.image.committed = s.image.committed ∧
        (∀ k, k < s.nBays → t.fenced k = true ∨ (t.bay k).pstate = .park ∨
          ((t.bay k).cstep.req = true ∧ (t.bay k).cstep.mhz = 0 ∧ (t.bay k).stopped = true) ∨ (t.bay k).cstep.next = some 0) ∧
        (∀ b, b ∈ s.reachableBanks → b ∈ marchFailing reads → t.fenced (b / 48) = true) ∧
        (s.openStreams = [] →
          (∀ b, b ∈ s.reachableBanks → b ∉ marchFailing reads →
            (t.bank b).zeroed = true ∧ (t.bank b).marchFail = false ∧ ∀ w ∈ t.bankWords, w.1 / 4096 ≠ b) ∧
          (s.sec.authWait = 0 → (∀ p ∈ s.funcs, p.2.keyWait = none) → t.sec = s.sec))) ∧
    (s.frame.st ≠ .selfTest ∨ s.march.busy = false → exec (.startUpMarchDone reads) s = .next s)

/-- march_trig (R164) starts a march of every bank while FRAME_STATUS shows READY_FOR_IMAGE or test_mode is 1, over again if one
runs (log 112), and march_done falls; at any other time it only makes one entry in the frame log. A wrapper takes bypass, extest and
intest at any time, and Vodiand's own instructions while test_mode is 1; without test_mode they are refused (R162). No other wrapper
changes. -/
def Obligations.TestAccessIsGated : Prop :=
  (∀ s : State,
     ((s.shown = .ready ∨ s.pins.testMode = true) →
       exec .marchTrig s = .next { s with march := { s.march with busy := true, whole := true }, pins := { s.pins with marchDone := false } }) ∧
     ((s.shown ≠ .ready ∧ s.pins.testMode = false) →
       ∃ t, exec .marchTrig s = .next t ∧ t = { s with frameLog := t.frameLog, units := t.units })) ∧
  (∀ (wrapper : BitVec 7) (instr : WrapperInstr) (s : State), (wrapper.toNat < s.nBays ∨ wrapper.toNat = 64 ∨ wrapper.toNat = 65) →
     ((instr = .bypass ∨ instr = .extest ∨ instr = .intest ∨ s.pins.testMode = true) →
       ∃ t, exec (.wrapperInstructionUpdate wrapper instr) s = .next t ∧ t = { s with wrappers := t.wrappers } ∧
         tblGet? t.wrappers wrapper.toNat = some instr ∧ ∀ w, w ≠ wrapper.toNat → tblGet? t.wrappers w = tblGet? s.wrappers w) ∧
     ((instr = .scan ∨ instr = .bankAccess) → s.pins.testMode = false → exec (.wrapperInstructionUpdate wrapper instr) s = .next s))

/-- Zeroisation (R160, R494, R512): by the pin or by SEC_CTRL.ZEROISE, without a session, every key slot, the KEK, the heat key and
the DRBG state are gone and the session is closed. zeroise_done (R160): it stays high until zeroise falls, and falls with it. The
end of a zeroisation (R160, R493, R504, R512): ZERO_DONE is set, zeroise_done rises while zeroise is high, and once the noise source's
start-up tests have passed, outside CRYPTO_ERROR, the DRBG is instantiated anew when every noise sample passes; no key comes back. -/
def Obligations.ZeroisationErasesAndReinstantiates : Prop :=
  ((∀ s : State, s.pins.zeroise = false → s.sec.zeroising = false →
     ∃ t, exec .zeroisePin s = .next t ∧ t.pins = { s.pins with zeroise := true } ∧
       t.sec = { s.sec with
         slots := [], kek := none, heatKey := none, heatValid := [], drbg := none, zeroising := true, session := false,
         selftestAgain := s.sec.selftestBusy } ∧
       t = { s with pins := t.pins, sec := t.sec, image := t.image, ports := t.ports, frameLog := t.frameLog, units := t.units }) ∧
   (∀ (acc : Acc) (s : State), s.MgmtAccess acc → s.sec.zeroising = false →
     ∃ t, exec (.secZeroise acc) s = .next t ∧ t.host.rsp = [⟨0, false⟩] ∧
       t.sec = { s.sec with
         slots := [], kek := none, heatKey := none, heatValid := [], drbg := none, zeroising := true, session := false,
         selftestAgain := s.sec.selftestBusy } ∧
       t = { s with
         sec := t.sec, image := t.image, ports := t.ports, frameLog := t.frameLog, units := t.units, host := { s.host with rsp := t.host.rsp } })) ∧
  (∀ s : State, exec .zeroiseRelease s = .next { s with pins := { s.pins with zeroise := false, zeroiseDone := false } }) ∧
  (∀ (noise : List Bool) (s : State), s.sec.zeroising = true → s.sec.armed = none → noisePasses s.sec.noise noise = true →
     ∃ t, exec (.zeroisationComplete noise) s = .next t ∧ t.pins = { s.pins with zeroiseDone := s.pins.zeroise } ∧
       t.sec.zeroising = false ∧ t.sec.zeroDone = true ∧ t.sec.slots = s.sec.slots ∧ t.sec.kek = s.sec.kek ∧
       t.sec.cryptoError = s.sec.cryptoError ∧
       (s.sec.cryptoError = false → (s.frame.preTests = true ∨ s.frame.st = .selfTest) → t.sec.drbg.isSome = true) ∧
       (s.sec.cryptoError = true ∨ (s.frame.preTests = false ∧ s.frame.st ≠ .selfTest) → t.sec.drbg = s.sec.drbg) ∧ t = { s with pins := t.pins, sec := t.sec })

/-- dieD_iso (R84, R85, R154, R172): the assertion on a die other than die 0, at any time and while por_n is low too, takes effect
and is answered by its done pin; every boundary of the die is down and the die is no longer up. The loss of a boundary's link-up
(R84): the boundary is down, its replay buffers and receive slots are empty, and no other boundary changes. After either, exactly
the dies with a path to die 0 through boundaries that are up are still up, and each bay of a die that is not is fenced. An assertion
on die 0, on an absent die or on one asserted already, and the loss of a link that is not up, change nothing. -/
def Obligations.IsolationFencesAndTakesDown : Prop :=
  (∀ (die : BitVec 2) (s : State),
     (die.toNat ≠ 0 → die.toNat < s.caps.dies → s.pins.dieIso.contains die.toNat = false →
       ∃ t, exec (.dieIsoAssert die) s = .next t ∧
         t.pins = { s.pins with dieIso := s.pins.dieIso ++ [die.toNat], dieIsoDone := s.pins.dieIsoDone ++ [die.toNat] } ∧
         t.frame.diesUp = s.frame.diesUp.filter (fun d => t.reach.contains d) ∧ t.reach.contains die.toNat = false ∧
         (∀ b ∈ s.boundariesAt die.toNat, t.boundaryUp b = false ∧
           (s.boundaryUp b = true → (t.boundary b).down = true ∧
             ∀ l ∈ (t.boundary b).lanes, l.2.replay = [] ∧ l.2.slots = [] ∧ l.2.tx = [] ∧ l.2.returns = [])) ∧
         (∀ b, b ∉ s.boundariesAt die.toNat → t.boundary b = s.boundary b) ∧
         (∀ d ∈ s.frame.diesUp, t.reach.contains d = false → ∀ k, k < s.nBays → s.bayDie k = d → t.fenced k = true) ∧
         t.sec = s.sec ∧ t.pace = s.pace ∧ t.image.committed = s.image.committed) ∧
     (die.toNat = 0 ∨ s.caps.dies ≤ die.toNat ∨ s.pins.dieIso.contains die.toNat = true →
       exec (.dieIsoAssert die) s = .next s)) ∧
  (∀ (b : BitVec 2) (s : State),
     (b.toNat < (boundariesOf s.caps.dies).length → s.frame.st ≠ .reset → (s.boundary b.toNat).linkUp = true →
       ∃ t, exec (.linkUpLoss b) s = .next t ∧ (t.boundary b.toNat).linkUp = false ∧ (t.boundary b.toNat).down = true ∧
         (∀ l ∈ (t.boundary b.toNat).lanes, l.2.replay = [] ∧ l.2.slots = [] ∧ l.2.tx = [] ∧ l.2.returns = []) ∧
         (∀ c, c ≠ b.toNat → t.boundary c = s.boundary c) ∧
         t.frame.diesUp = s.frame.diesUp.filter (fun d => t.reach.contains d) ∧
         (∀ d ∈ s.frame.diesUp, t.reach.contains d = false → ∀ k, k < s.nBays → s.bayDie k = d → t.fenced k = true) ∧
         t.pins = s.pins ∧ t.sec = s.sec ∧ t.pace = s.pace ∧ t.image.committed = s.image.committed) ∧
     ((boundariesOf s.caps.dies).length ≤ b.toNat ∨ s.frame.st = .reset ∨ (s.boundary b.toNat).linkUp = false →
       exec (.linkUpLoss b) s = .next s))

/-- A pace_sync pulse copies pacer time into PACE_CAPT and sets SYNC_SEEN, and changes nothing else (R541). -/
def Obligations.SyncCapturesPacerTime : Prop :=
  ∀ s : State, exec .paceSync s = .next { s with pace := { s.pace with capt := s.pace.time, syncSeen := true } }

/-- PACE_OFFSET_WRITE (R542): with no stream of any function open and no snapshot pending, pacer time takes the sum modulo 2^64 and
the register the value; else the write is refused, the register stays, and REFUSED is set. -/
def Obligations.PaceOffsetRule : Prop :=
  ∀ (acc : Acc) (value : Word) (s : State), s.FrameAccess acc →
    let n := s.pairValue acc.origin .frame 0x06C value.toNat
    (s.openStreams = [] → s.tel.pending = false →
      exec (.paceOffsetWrite acc value) s = .next (State.accepted { s with pace := { s.pace with offset := n, time := (s.pace.time + n) % 2 ^ 64 } })) ∧
    (s.openStreams ≠ [] ∨ s.tel.pending = true →
      exec (.paceOffsetWrite acc value) s = .next (State.accepted { s with pace := { s.pace with refused := true } }))

/-- The loss of pace_ref (R149, R540) enters holdover once, counts it, and makes one entry in the frame log; its return ends
holdover. Pacer time goes on in both. Clock steps (R44, R45, R151, R152): an acknowledgement while a request stands takes the
measured clock over, a work bay that no graph binds and whose routes are idle is then in PARK if its clock is stopped, and a bay
with a clock in RUN if it was in PARK, and a clock more than 1 % above its target fences the bay; one while none stands breaks the
rule of the port. No acknowledgement within 50 µs fences the bay. When the acknowledgement falls the channel is idle, and a target
that waits is asked for. A stopped bay that a graph binds by now is not parked, and one whose routes are not idle yet only waits
(R46, R48). Power states of a bay (R44 to R46, R526): an idle bay in RUN enters DOZE unless an open guaranteed stream's graph binds
it, and wakes from it when a beat stands at a mortise of it or a grant arrives (log 109); a clock fault or an uncorrectable codeword
of its control state fences it. -/
def Obligations.ClocksAndPowerStates : Prop :=
  (∀ s : State,
     (s.pace.holdover = false → ∃ t, exec .paceRefLoss s = .next t ∧ t.pace = { s.pace with holdover := true } ∧
       tblGetD t.tel.cnt (cntKey 0 0 3) 0 = (tblGetD s.tel.cnt (cntKey 0 0 3) 0 + 1) % 2 ^ 64 ∧
       t = { s with pace := t.pace, tel := { s.tel with cnt := t.tel.cnt }, frameLog := t.frameLog, units := t.units }) ∧
     (s.pace.holdover = true → exec .paceRefLoss s = .next s) ∧
     exec .paceRefRestore s = .next { s with pace := { s.pace with holdover := false } }) ∧
  (∀ (k : BitVec 7) (s : State),
     let b := s.bay k.toNat
     let c := b.cstep
     (∀ mhz, c.req = true → c.ack = false →
       let work := k.toNat < 64 ∧ b.pstate ≠ .fenced
       let y := { b with
         cstep := { c with req := false, ack := true }, mhz := mhz, stopped := decide (c.mhz = 0), clkState := s.clockState k.toNat c.mhz }
       (mhz * 100 ≤ c.mhz * 101 →
         ∃ t, exec (.clockStepAck k mhz) s = .next t ∧
           (work → c.mhz = 0 → s.bayBound k.toNat = false → s.bayRoutesIdle k.toNat = true →
             t.bay k.toNat = { y with pstate := .park, since := s.now }) ∧
           (work → c.mhz = 0 → s.bayBound k.toNat = true → t.bay k.toNat = y) ∧
           (work → c.mhz = 0 → s.bayBound k.toNat = false → s.bayRoutesIdle k.toNat = false →
             t.bay k.toNat = { y with cstep := { y.cstep with next := c.next.or (some 0) } }) ∧
           (work → c.mhz ≠ 0 → b.pstate = .park → t.bay k.toNat = { y with pstate := .run, since := s.now }) ∧
           (¬ work ∨ (c.mhz ≠ 0 ∧ b.pstate ≠ .park) → t.bay k.toNat = y) ∧
           (∀ j, j ≠ k.toNat → t.bay j = s.bay j) ∧ t = { s with bays := t.bays, tel := { s.tel with cnt := t.tel.cnt } }) ∧
       (c.mhz * 101 < mhz * 100 → k.toNat < s.nBays → ∃ t, exec (.clockStepAck k mhz) s = .next t ∧ t.fenced k.toNat = true)) ∧
     (∀ mhz, c.req = false ∨ c.ack = true → exec (.clockStepAck k mhz) s = .fault (.portRule k.toNat)) ∧
     (c.req = true → c.at_ + 50000 ≤ s.now → k.toNat < s.nBays → ∃ t, exec (.clockStepAckTimeout k) s = .next t ∧ t.fenced k.toNat = true) ∧
     (c.req = false ∨ s.now < c.at_ + 50000 → exec (.clockStepAckTimeout k) s = .next s) ∧
     (c.next = none → exec (.clockStepAckLowered k) s = .next (s.setBay k.toNat { b with cstep := { c with ack := false } })) ∧
     (∀ m, c.next = some m → c.req = false → b.pstate ≠ .fenced → (∀ u, c.last = some u → u + 100000 ≤ s.now) →
       ∃ t, exec (.clockStepAckLowered k) s = .next t ∧ t = { s with bays := t.bays } ∧ (∀ j, j ≠ k.toNat → t.bay j = s.bay j) ∧
         t.bay k.toNat = { b with stopped := true, cstep := ⟨true, m, false, s.now, none, some s.now⟩ })) ∧
  (∀ (k : BitVec 6) (s : State),
     let b := s.bay k.toNat
     (k.toNat < s.nBays → b.pstate = .run → s.bayIdle k.toNat = true → s.guaranteedBay k.toNat = false →
       ∃ t, exec (.bayDozeEntry k) s = .next t ∧ t.bay k.toNat = { b with pstate := .doze, since := s.now } ∧
         (∀ j, j ≠ k.toNat → t.bay j = s.bay j) ∧ t = { s with bays := t.bays, tel := { s.tel with cnt := t.tel.cnt } }) ∧
     (b.pstate ≠ .run ∨ s.bayIdle k.toNat = false ∨ s.guaranteedBay k.toNat = true → exec (.bayDozeEntry k) s = .next s) ∧
     (b.pstate = .doze → (s.mortiseBusy k.toNat = true ∨ s.bayGranted k.toNat = true) →
       ∃ t, exec (.bayWake k) s = .next t ∧ t.bay k.toNat = { b with pstate := .run, since := s.now } ∧
         (∀ j, j ≠ k.toNat → t.bay j = s.bay j) ∧ t = { s with bays := t.bays, tel := { s.tel with cnt := t.tel.cnt } }) ∧
     (b.pstate ≠ .doze ∨ (s.mortiseBusy k.toNat = false ∧ s.bayGranted k.toNat = false) → exec (.bayWake k) s = .next s) ∧
     (k.toNat < s.nBays → ∃ t, exec (.bayClockFault k) s = .next t ∧ t.fenced k.toNat = true ∧ t.sec = s.sec ∧ t.pins = s.pins) ∧
     (k.toNat < s.nBays → s.frame.st ≠ .reset →
       ∃ t, exec (.bayControlStateEcc k) s = .next t ∧ t.fenced k.toNat = true ∧ t.sec = s.sec ∧ t.pins = s.pins))

/-- SNAP_AT_WRITE (R543): refused while a snapshot is pending, late when the time is less than 10 µs ahead, else armed.
SNAPSHOT_COPY and SNAPSHOT_COMPLETE (R544, R545): at SNAP_AT a unit copies each of its counters, running times included, into the
spare shadow, and no counter of another unit; the shadows swap, DONE is set and SEQ rises once every unit that is not fenced has
copied, and not before. A frame-fatal error that comes before that bars the completion for good (R31). -/
def Obligations.SnapshotsAreArmedAndWhole : Prop :=
  (∀ (acc : Acc) (value : Word) (s : State), s.FrameAccess acc →
     let n := s.pairValue acc.origin .frame 0x084 value.toNat
     (s.tel.pending = true → exec (.snapAtWrite acc value) s = .next (State.accepted { s with tel := { s.tel with refused := true } })) ∧
     (s.tel.pending = false → n < s.now + 10000 →
       exec (.snapAtWrite acc value) s = .next (State.accepted { s with tel := { s.tel with late := true } })) ∧
     (s.tel.pending = false → s.now + 10000 ≤ n →
       exec (.snapAtWrite acc value) s = .next (State.accepted { s with tel := { s.tel with snapAt := n, pending := true, copied := [], spare := [] } }))) ∧
  ((∀ (unit : SnapUnit) (s : State),
     s.tel.pending = true → s.frame.st ≠ .fatal → s.tel.snapAt ≤ s.now → s.unitPresent unit = true → s.unitFenced unit = false →
     s.tel.copied.contains unit = false →
     ∃ t, exec (.snapshotCopy unit) s = .next t ∧ t = { s with tel := { s.tel with spare := t.tel.spare, copied := s.tel.copied ++ [unit] } } ∧
       (∀ key, s.cntUnit key ≠ unit → tblGet? t.tel.spare key = tblGet? s.tel.spare key) ∧
       (∀ key v, s.cntUnit key = unit → (key, v) ∈ s.counters → (∀ w, (key, w) ∈ s.counters → w = v) → tblGet? t.tel.spare key = some v)) ∧
   (∀ s : State, s.tel.pending = true →
     (s.tel.lost = true → exec .snapshotComplete s = .next s) ∧
     (s.tel.lost = false → (∀ u ∈ s.allUnits, s.unitFenced u = true ∨ u ∈ s.tel.copied) →
       exec .snapshotComplete s = .next { s with tel := { s.tel with
         shadow := s.tel.spare.filter (fun p => !s.unitFenced (s.cntUnit p.1)), spare := [], copied := [], pending := false, done := true,
         fenced := s.allUnits.any s.unitFenced, seq := (s.tel.seq + 1) % 65536 } }) ∧
     ((∃ u ∈ s.allUnits, s.unitFenced u = false ∧ u ∉ s.tel.copied) → exec .snapshotComplete s = .next s)))

/-- Sensors (R155, R156): a reading is taken, and is where the model of a die starts; the invalid code and a reading 4 ms old make
the sensor bad, once, and end the sprint of its die. Other dies' sensors and models stay. SPRINT_GRANT (R550): at a grant point,
sprint is granted or renewed for 1 ms where the die's model is valid, its level is 0, its sensor is good and the forecast of 100
steps stays at or below TJ_LIMIT; else it ends. -/
def Obligations.SensorsAndSprint : Prop :=
  (∀ (die : BitVec 2) (s : State), s.frame.st ≠ .reset → die.toNat < s.caps.dies →
     let d := die.toNat
     let x := s.thermal d
     (∀ temp : BitVec 12, temp ≠ 0x800 →
       ∃ t, exec (.thermalUpdate die temp) s = .next t ∧ t = { s with therm := t.therm } ∧ (∀ e, e ≠ d → t.thermal e = s.thermal e) ∧
         t.thermal d = { x with
           temp := temp, valid := true, sensorBad := false, updAt := s.now, seen := true,
           t1 := if x.seen then x.t1 else sensorFp temp, t2 := if x.seen then x.t2 else sensorFp temp }) ∧
     (∃ t, exec (.thermalUpdate die 0x800) s = .next t ∧ (∀ e, e ≠ d → t.thermal e = s.thermal e) ∧
       t.thermal d = { x with
         valid := false, updAt := s.now, sensorBad := true, sprintUntil := if x.sensorBad then x.sprintUntil else none } ∧
       t = { s with therm := t.therm, bays := t.bays, frameLog := t.frameLog, units := t.units }) ∧
     ((x.seen = true ∧ x.valid = false) ∨ x.updAt + 4000000 ≤ s.now →
       ∃ t, exec (.sensorStale die) s = .next t ∧ (∀ e, e ≠ d → t.thermal e = s.thermal e) ∧
         t.thermal d = { x with sensorBad := true, sprintUntil := if x.sensorBad then x.sprintUntil else none } ∧
         t = { s with therm := t.therm, bays := t.bays, frameLog := t.frameLog, units := t.units }) ∧
     (x.valid = true → s.now < x.updAt + 4000000 → exec (.sensorStale die) s = .next s)) ∧
  (∀ (die : BitVec 2) (s : State),
     s.frame.st ≠ .reset → die.toNat < s.caps.dies → s.image.committed.isSome = true →
     let d := die.toNat
     let x := s.thermal d
     let p := s.dieActivity d (fun k => if (s.bay k).pstate = .run ∨ (s.bay k).pstate = .doze then (fpFloor (s.model d 7)).toNat else (s.bay k).mhz)
     let ok := s.modelValid d = true ∧ x.level = 0 ∧ x.sensorBad = false ∧ x.seen = true ∧ forecast (s.model d) p (sensorFp x.temp) 100 (x.t1, x.t2) = true
     ((∀ u, x.sprintUntil = some u → u ≤ s.now) →
       ∃ t, exec (.sprintGrant die) s = .next t ∧ t = { s with therm := t.therm, bays := t.bays } ∧ (∀ e, e ≠ d → t.thermal e = s.thermal e) ∧
         (ok → t.thermal d = { x with sprintUntil := some (s.now + 1000000) }) ∧ (¬ ok → t.thermal d = { x with sprintUntil := none })) ∧
     (∀ u, x.sprintUntil = some u → s.now < u → exec (.sprintGrant die) s = .next s))

/-- GOVERNOR_STEP (R549, R551): the model of each die with valid coefficients takes one FP32 step at its power and its level follows
T1; a die without takes its sensor's reading as T1, keeps its level and has no sprint (log 25). -/
def Obligations.GovernorStepsEachDie : Prop :=
  ∀ (v : MemView) (s : State), s.frame.st ≠ .reset →
    ∃ t, exec (.governorStep v) s = .next t ∧ t.pins = s.pins ∧ t.pace = s.pace ∧ t.sec = s.sec ∧ t.thermModel = s.thermModel ∧
      t.image.committed = s.image.committed ∧
      (∀ d, s.caps.dies ≤ d → t.thermal d = s.thermal d) ∧
      (∀ d, d < s.caps.dies →
        let x := s.thermal d
        (s.modelValid d = true → ∃ p,
          let y := thermStep (s.model d) p (sensorFp x.temp) (x.t1, x.t2)
          let z := { x with t1 := y.1, t2 := y.2, power := p }.levels (s.model d) s.now
          (t.thermal d).t1 = y.1 ∧ (t.thermal d).t2 = y.2 ∧ (t.thermal d).power = p ∧ (t.thermal d).level = z.level ∧
          (t.thermal d).critical = z.critical ∧ (0 < z.level → (t.thermal d).sprintUntil = none)) ∧
        (s.modelValid d = false → (t.thermal d).t1 = sensorFp x.temp ∧ (t.thermal d).t2 = x.t2 ∧ (t.thermal d).level = x.level ∧
          (t.thermal d).sprintUntil = none))

/-- Uncorrectable codewords and the watchdog (R511, R517, R518, R528): a partition's halts its function with code ECC; queue
manager, pacer, watchdog and other management storage take the fatal path; the scheduler's, pool manager's and lock tables' enter
WALK from RUNNING; a key slot's enters CRYPTO_ERROR. In BOOT_FAIL, which only reset leaves (R176), a fatal error is only logged
(log 122). -/
def Obligations.CodewordErrorsGoWhereTheyBelong : Prop :=
  ∀ s : State, s.frame.st ≠ .reset → s.frame.st ≠ .fatal →
    (∀ fn : BitVec 6, fn.toNat < s.caps.funcs → (s.func fn.toNat).st ≠ .halted → (s.func fn.toNat).st ≠ .resetting →
      ∃ t, exec (.controlStateEcc (.partition fn)) s = .next t ∧ (t.func fn.toNat).st = .halted ∧ (t.func fn.toNat).haltCode = stEcc ∧
        (∀ g, g ≠ fn.toNat → (t.func g).st = (s.func g).st) ∧ t.sec = s.sec ∧ t.pins = s.pins ∧ t.image.committed = s.image.committed) ∧
    (∀ (c : Instr) (d : Nat), (c = .controlStateEcc .queueManager ∧ d = 2) ∨ (c = .controlStateEcc .pacer ∧ d = 2) ∨ (c = .stewardWatchdogExpiry ∧ d = 4) ∨
        (c = .managementStorageEcc .other ∧ d = 3) ∨
        (s.frame.st ≠ .running ∧ d = 5 ∧ (c = .controlStateEcc .scheduler ∨ c = .controlStateEcc .poolManager ∨ c = .controlStateEcc .lockTables)) →
      ∃ t, exec c s = .next t ∧ t.sec = s.sec ∧ t.pins = s.pins ∧ t.pace = s.pace ∧
        (s.frame.st ≠ .bootFail → t.frame.st = .fatal ∧ t.dump.detail = d ∧ t.dump.prior = s.frame.st.code ∧ t.dump.time = s.now) ∧
        (s.frame.st = .bootFail → t = { s with frameLog := t.frameLog, units := t.units })) ∧
    (s.frame.st = .running →
      ∀ c, c = .controlStateEcc .scheduler ∨ c = .controlStateEcc .poolManager ∨ c = .controlStateEcc .lockTables →
      ∃ t, exec c s = .next t ∧ t.frame.st = .walk ∧ t.frame.walkCtrlEcc = true ∧ t.frame.walkFirst = 2 ∧ t.sec = s.sec ∧ t.pins = s.pins) ∧
    (s.sec.cryptoError = false →
      ∃ t, exec (.managementStorageEcc .keySlots) s = .next t ∧ t.sec.cryptoError = true ∧ t.sec.errCause = 4 ∧ t.sec.slots = [] ∧
        t.sec.kek = none ∧ t.sec.drbg = none ∧ t.sec.session = false ∧ t.pins = s.pins ∧
        (s.frame.st ≠ .boot → s.frame.st ≠ .selfTest → t.frame = s.frame) ∧
        (s.frame.st = .boot ∨ s.frame.st = .selfTest → t.frame.st = .bootFail))

/-- LOG_ENTRY_WRITE (R521 to R523): the oldest waiting entry is written with its partner as one granule of its ring, by the steward
or for the function (log 4), once a port slot is free and memory answers; when that completes OKAY it waits no longer, and any other
answer marks the ring as failed and its waiting entries as lost. With no entry, no ring or a failed one nothing is written; in FATAL
only the frame log is (R532). ERR_LOG_BASE_HI_WRITE (R522, R523, R578): the ring lies at the written address, a multiple of 64, and
its failure is over; a ring at address 0 is not written, and what waits for it is lost (log 43). -/
def Obligations.LogEntriesReachTheRing : Prop :=
  (∀ (log : LogId) (v : MemView) (s : State),
     let u := s.seeMem v
     let l := logFn log
     let r := s.logRing l
     (r.waiting = [] ∨ r.base = 0 ∨ r.fault = true ∨ (s.frame.st = .fatal ∧ log ≠ .frame) → exec (.logEntryWrite log v) s = .next u) ∧
     (∀ (e : LogEntry) (rest : List LogEntry),
       let w := match log with
         | .frame => Party.steward 0
         | .func f => Party.control f.toNat
       let m := e.seq % 256
       let mate := tblGetD r.written (m ^^^ 1) (zeros 32)
       let gran := if m % 2 = 0 then e.bytes ++ mate else mate ++ e.bytes
       let a := r.base + 64 * (m / 2)
       r.waiting = e :: rest → r.base ≠ 0 → r.base % 64 = 0 → r.fault = false → (s.frame.st = .fatal → log = .frame) →
       (u.OkayAt 0 a gran.length → u.HasSlot w .write a gran.length 0 gran →
         ∃ t, exec (.logEntryWrite log v) s = .next t ∧ t.mem = memWriteBytes u.mem a gran ∧
           t.logRing l = { r with waiting := rest, written := tblSet r.written m e.bytes } ∧ u.SamePorts t ∧
           t = { u with
             mem := t.mem, ports := t.ports, tel := { u.tel with cnt := t.tel.cnt }, frameLog := t.frameLog, funcs := t.funcs,
             units := t.units }) ∧
       (u.portUp 0 = false ∨
           (u.HasSlot w .write a gran.length 0 gran ∧ (u.answerAt a gran.length = some .decerr ∨ ∃ token, u.answerAt a gran.length = some (.fault token))) →
         ∃ t, exec (.logEntryWrite log v) s = .next t ∧ (t.logRing l).fault = true ∧ (t.logRing l).waiting = [] ∧
           (t.logRing l).lost = satAdd 0xFFFFFFFF r.lost (rest.length + 1) ∧
           t = { u with
             ports := t.ports, tel := { u.tel with cnt := t.tel.cnt }, frameLog := t.frameLog, funcs := t.funcs, units := t.units }) ∧
       (u.portUp 0 = true → u.NoSlot w .write a gran.length 0 gran → exec (.logEntryWrite log v) s = .next u))) ∧
  (∀ (acc : Acc) (log : LogId) (value : Word) (s : State),
     (match log with
       | .frame => s.FrameAccess acc
       | .func f => s.FuncAccess acc f) →
     let p := match log with
       | .frame => Page.frame
       | .func f => Page.func f.toNat
     let n := s.pairValue acc.origin p 0x0D4 value.toNat / 64 * 64
     let l := logFn log
     (n ≠ 0 → exec (.errLogBaseHiWrite acc log value) s =
       .next (State.accepted (s.setLogRing l { s.logRing l with base := n, fault := false, written := [] }))) ∧
     (n = 0 → ∃ t, exec (.errLogBaseHiWrite acc log value) s = .next t ∧ (t.logRing l).base = 0 ∧ (t.logRing l).waiting = [] ∧
       (t.logRing l).lost = satAdd 0xFFFFFFFF (s.logRing l).lost (s.logRing l).waiting.length ∧
       t = State.accepted { s with frameLog := t.frameLog, funcs := t.funcs, units := t.units }))

/-- NOTIFY_SEND (R142, R145): page requests leave first, then frame events, then messages, each oldest first; what waited
for the place that a message left goes on. PAGE_REQUEST_GROUP_SEND (R143, R144, R248): with the halted stream's responses returned
and room in the queue of 64, its page requests are queued together under one group index, which the function holds from then on;
only the last one is marked so; then the record of a translation fault is due. The lowest free index is taken (log 44). A stream whose
group has been sent sends no second one.
RELAY_PORT_SEND (R147): the oldest relay copy leaves; an empty buffer sends nothing. -/
def Obligations.NotificationsLeaveInOrder : Prop :=
  (∀ s : State, let n := s.notify
     (∀ p t, n.pages = p :: t → exec .notifySend s = .next { s with notify := { n with pages := t, sent := some ⟨1, p.fn, p.data⟩ } }) ∧
     (∀ e t, n.pages = [] → n.events = e :: t →
       exec .notifySend s = .next { s with notify := { n with events := t, sent := some ⟨0, s.frame.eventFn, msgData s.frame.eventVector e.payload⟩ } }) ∧
     (∀ m t, n.pages = [] → n.events = [] → n.msgs = m :: t →
       let w : State := { s with notify := { n with msgs := t, sent := some ⟨0, m.fn, msgData m.vector m.payload⟩ } }
       exec .notifySend s = .next w.relays.catchUp.finishDrains ∧ (s.NoWork → exec .notifySend s = .next w)) ∧
     (n.pages = [] → n.events = [] → n.msgs = [] → exec .notifySend s = .next s)) ∧
  (∀ (fn : BitVec 6) (stream : BitVec 10) (s : State),
     let f := fn.toNat
     let i := stream.toNat
     let x := s.stream f i
     let ps := x.pagesToSend
     (x.st = .halted → ps ≠ [] → x.pageGroupHeld = false → s.streamOut f i = false → s.notify.pages.length + ps.length ≤ 64 →
       s.frame.st ≠ .fatal →
       (∀ g, g < 512 → g ∉ (s.func f).pageGroups → (∀ h, h < g → h ∈ (s.func f).pageGroups) →
         ∃ t : State, exec (.pageRequestGroupSend fn stream) s = .next (if x.haltCode = stTranslation then (t.faultRecord f i).relays else t) ∧
           t.notify = { s.notify with pages := s.notify.pages ++ ps.zipIdx.map (fun p => ⟨f, pageData p.1 (p.2 + 1 == ps.length) g⟩) } ∧
           t.stream f i = { x with pageGroup := g, pageGroupHeld := true, pagesToSend := [] } ∧
           t.func f = { s.func f with pageGroups := (s.func f).pageGroups ++ [g] } ∧ (∀ h, h ≠ f → t.func h = s.func h) ∧
           (∀ k, k ≠ sKey f i → tblGet? t.streams k = tblGet? s.streams k) ∧
           (x.guaranteed = false → ((t.faultRecord f i).stream f i).waitingRecs =
             x.waitingRecs ++ [⟨x.delivered, x.haltedAt, stTranslation, 0, false, false, 0, 0xFFFF, 0⟩]) ∧
           (x.guaranteed = true → x.void = false → x.group = none → ((t.faultRecord f i).stream f i).void = true ∧
             ((t.faultRecord f i).stream f i).waitingRecs =
               x.waitingRecs ++ [⟨x.delivered, x.haltedAt, stVoid, stTranslation, false, false, 0, 0xFFFF, 0⟩]) ∧
           t = { s with streams := t.streams, funcs := t.funcs, notify := t.notify }) ∧
       ((∀ g, g < 512 → g ∈ (s.func f).pageGroups) → exec (.pageRequestGroupSend fn stream) s = .next s)) ∧
     (x.st ≠ .halted ∨ ps = [] ∨ x.pageGroupHeld = true ∨ s.streamOut f i = true ∨ 64 < s.notify.pages.length + ps.length ∨
       s.frame.st = .fatal → exec (.pageRequestGroupSend fn stream) s = .next s)) ∧
  (∀ s : State,
     (∀ c t, s.relay.fifo = c :: t → exec .relayPortSend s = .next { s with relay := { s.relay with fifo := t, sent := some c } }) ∧
     (s.relay.fifo = [] → exec .relayPortSend s = .next s))

/-- DUMP_SECTION_WRITE (R533 to R537): the bytes of the section that is due go to its place in the dump region, section 0 behind the
header, and its directory entry is recorded with their CRC as written, or as failed where an access was not OKAY; no other entry and no
other byte of memory changes. The next section is then due if it fits; else the header is written and the dump ends. Before the first
section comes a header that had to wait, and of a dump that was stopped only the final header is left. With no dump in progress nothing
happens. What the manual gives no layout for is free bytes (log 33). -/
def Obligations.DumpGoesSectionBySection : Prop :=
  ∀ (v : MemView) (s : State),
    let u := s.seeMem v
    let k := s.dump.section_
    let bs := (u.sectionBytes k).1
    let a := s.dump.base + ((s.dump.dir[k]?.map (·.offset)).getD 0) * 4096 + (if k = 0 then 256 else 0)
    let all := u.OkayIn 0 a bs.length
    let h := (u.dumpHeader false).length
    let hdr := u.OkayIn 0 s.dump.base h
    let answered := u.PortsRest ∧ u.AnswersIn (fun _ => True) 0 a bs.length ∧ u.AnswersIn (fun _ => True) 0 s.dump.base h
    (s.dump.st ≠ 1 → exec (.dumpSectionWrite v) s = .next u) ∧
    (s.dump.st = 1 → s.dump.stopped = true → u.After State.dumpTruncated (exec (.dumpSectionWrite v) s)) ∧
    (s.dump.st = 1 → s.dump.stopped = false → s.dump.hdrDue = true →
      u.After (fun w => State.dumpSection { (w.writeHeader true).2 with dump := { w.dump with hdrDue := false } }) (exec (.dumpSectionWrite v) s)) ∧
    (s.dump.st = 1 → s.dump.stopped = false → s.dump.hdrDue = false → u.After State.dumpSection (exec (.dumpSectionWrite v) s)) ∧
    (s.dump.st = 1 → s.dump.stopped = false → s.dump.hdrDue = false → answered ∨ u.portUp 0 = false →
      ∃ t, exec (.dumpSectionWrite v) s = .next t ∧
      (s.dumpFits (k + 1) = true → t.dump.section_ = k + 1 ∧ t.dump.st = 1) ∧
      (s.dumpFits (k + 1) = false → t.dump.section_ = k ∧ t.dump.st = 2 ∧ (hdr → t.dump.hdrFailed = false) ∧ (u.portUp 0 = false → t.dump.hdrFailed = true)) ∧
      (∀ j, j ≠ k → t.dump.dir[j]? = s.dump.dir[j]?) ∧
      (∀ e, s.dump.dir[k]? = some e →
        ∃ st, (st = 1 ∨ st = 3) ∧ (all → st = 1) ∧ t.dump.dir[k]? = some { e with crc := crc32c bs, st := st }) ∧
      (s.Canonical → a + bs.length ≤ 2 ^ 64 → s.dump.base + h ≤ 2 ^ 64 →
        (∀ b, (b < a ∨ a + bs.length ≤ b) → (s.dumpFits (k + 1) = true ∨ b < s.dump.base ∨ s.dump.base + h ≤ b) →
          memRead t.mem b = memRead u.mem b) ∧
        (all → s.dumpFits (k + 1) = true ∨ s.dump.base + h ≤ a → memReadBytes t.mem a bs.length = bs)) ∧
      t = { u with
        dump := t.dump, mem := t.mem, ports := t.ports, tel := { u.tel with cnt := t.tel.cnt }, freeCtr := t.freeCtr, notify := t.notify })

/-- Host accesses that R138 does not allow: a function reaches only its own page, the frame every function's and its own, the
management origin only its own. A refused access reads 0, has no effect, sets host_rsp_err and is counted. HOST_REGISTER_WRITE (R9,
R494, R557, R575): an RW register takes its field of the written value; a register of the management page needs a session, else
REFUSED is set and nothing is written; a function's page takes no write during start-up. HEAT_REGION_WRITE, FRAME_MODE_WRITE and
FRAME_CTRL_WRITE (R402, R467, R561, R9): HEAT_BASE and HEAT_SIZE take no write while a stream of a judge graph is open; the mode
takes none that changes it while a stream is open; EVENT_FN must be a function. -/
def Obligations.RegisterWritesTakeEffect : Prop :=
  (∀ (acc : Acc) (addr : BitVec 21) (value : Word) (event : Bool) (s : State),
     let page := addr.toNat / 0x4000
     ¬ ((acc.origin = .function ∧ page = acc.fn.toNat ∧ page < s.caps.funcs) ∨ (acc.origin = .frame ∧ (page < s.caps.funcs ∨ page = 64)) ∨
       (acc.origin = .management ∧ page = 65)) →
     ∀ c, c = .hostRegisterWrite acc addr value ∨ c = .rcRegisterRead acc addr event ∨ c = .reg64LoRead acc addr →
       exec c s = .next { s with
         host := { s.host with rsp := [⟨0, true⟩] },
         tel := { s.tel with cnt := tblSet s.tel.cnt (cntKey 0 0 0) ((tblGetD s.tel.cnt (cntKey 0 0 0) 0 + 1) % 2 ^ 64) } }) ∧
  (∀ (acc : Acc) (value : Word) (s : State),
     (s.FrameAccess acc → exec (.hostRegisterWrite acc (BitVec.ofNat 21 (0x4000B0 / 4)) value) s =
       .next (State.accepted { s with stallUs := value.toNat % 2 ^ 20 })) ∧
     (s.FrameAccess acc → exec (.hostRegisterWrite acc (BitVec.ofNat 21 (0x400090 / 4)) value) s =
       .next (State.accepted { s with tel := { s.tel with cntSel := BitVec.ofNat 32 (value.toNat % 2 ^ 22) } })) ∧
     (s.OfficerAccess acc → exec (.hostRegisterWrite acc (BitVec.ofNat 21 (0x410068 / 4)) value) s =
       .next (State.accepted { s with dump := { s.dump with size := value.toNat % 2 ^ 24, banks := value.toNat.testBit 31 } })) ∧
     (s.MgmtAccess acc → s.sec.session = false → exec (.hostRegisterWrite acc (BitVec.ofNat 21 (0x410068 / 4)) value) s =
       .next (State.accepted { s with sec := { s.sec with refused := true } })) ∧
     (∀ (fn : BitVec 6) (off : BitVec 14), (acc.origin = .frame ∨ (acc.origin = .function ∧ acc.fn = fn)) → fn.toNat < s.caps.funcs →
       s.early = true → exec (.hostRegisterWrite acc (BitVec.ofNat 21 (fn.toNat * 0x4000 + off.toNat)) value) s = .next s.accepted)) ∧
  (∀ (acc : Acc) (value : Word) (s : State), s.FrameAccess acc → let w := value.toNat
     exec (.heatRegionWrite acc .baseLo value) s = .next (State.accepted (s.stage .frame .frame 0x0C0 w)) ∧
     ((∀ p ∈ s.openStreams, s.judgeGraph p.2.2.graph = false) →
       exec (.heatRegionWrite acc .baseHi value) s = .next (State.accepted { s with heat := { s.heat with base := s.pairValue .frame .frame 0x0C4 w } }) ∧
       exec (.heatRegionWrite acc .size value) s = .next (State.accepted { s with heat := { s.heat with size := w } })) ∧
     ((∃ p ∈ s.openStreams, s.judgeGraph p.2.2.graph = true) →
       exec (.heatRegionWrite acc .baseHi value) s = .next s.accepted ∧ exec (.heatRegionWrite acc .size value) s = .next s.accepted) ∧
     (w.testBit 0 = s.frame.openMode ∨ s.openStreams = [] → exec (.frameModeWrite acc value) s = .next (State.accepted { s with
       frame := { s.frame with openMode := w.testBit 0, modeRefused := s.frame.modeRefused && !w.testBit 1 } })) ∧
     (w.testBit 0 ≠ s.frame.openMode → s.openStreams ≠ [] →
       exec (.frameModeWrite acc value) s = .next (State.accepted { s with frame := { s.frame with modeRefused := true } })) ∧
     (w % 64 < s.caps.funcs → exec (.frameCtrlWrite acc value) s = .next (State.accepted { s with frame := { s.frame with
       eventFn := w % 64, eventVector := w / 64 % 64, eventEn := w.testBit 12, ctrlRefused := s.frame.ctrlRefused && !w.testBit 13 } })) ∧
     (s.caps.funcs ≤ w % 64 →
       exec (.frameCtrlWrite acc value) s = .next (State.accepted { s with frame := { s.frame with ctrlRefused := true } })))

/-- RC_REGISTER_READ (R11): the read of an RC counter returns the value before an event of the same cycle, and the counter holds 1
after it; without such an event it holds 0. The counters are OOB_DROP, both logs' lost counts, and the count of corrected symbols of
a bank. -/
def Obligations.ReadClearsCounter : Prop :=
  ∀ (acc : Acc) (event : Bool) (s : State), let one := if event then 1 else 0
    (∀ fn : BitVec 6, (acc.origin = .frame ∨ (acc.origin = .function ∧ acc.fn = fn)) → fn.toNat < s.caps.funcs → s.early = false →
      (∃ t, exec (.rcRegisterRead acc (BitVec.ofNat 21 (fn.toNat * 0x4000 + 0x04C / 4)) event) s = .next t ∧
        t.host.rsp = [⟨BitVec.ofNat 32 (s.func fn.toNat).oobDrop, false⟩] ∧ t.func fn.toNat = { s.func fn.toNat with oobDrop := one } ∧
        t = { s with host := { s.host with rsp := t.host.rsp }, funcs := tblSet s.funcs fn.toNat (t.func fn.toNat) }) ∧
      (∃ t, exec (.rcRegisterRead acc (BitVec.ofNat 21 (fn.toNat * 0x4000 + 0x0DC / 4)) event) s = .next t ∧
        t.host.rsp = [⟨BitVec.ofNat 32 (s.func fn.toNat).log.lost, false⟩] ∧
        t.func fn.toNat = { s.func fn.toNat with log := { (s.func fn.toNat).log with lost := one } } ∧
        t = { s with host := { s.host with rsp := t.host.rsp }, funcs := tblSet s.funcs fn.toNat (t.func fn.toNat) })) ∧
    (acc.origin = .frame →
      exec (.rcRegisterRead acc (BitVec.ofNat 21 (0x4000DC / 4)) event) s = .next { s with
        host := { s.host with rsp := [⟨BitVec.ofNat 32 s.frameLog.lost, false⟩] }, frameLog := { s.frameLog with lost := one } } ∧
      (∀ b : BitVec 12, b.toNat < 3072 → s.bankPresent b.toNat = true →
        ∃ t, exec (.rcRegisterRead acc (BitVec.ofNat 21 ((0x404000 + 4 * b.toNat) / 4)) event) s = .next t ∧
          t.host.rsp = [⟨BitVec.ofNat 32 (s.bankStatus b.toNat), false⟩] ∧ t.bank b.toNat = { s.bank b.toNat with corr := one } ∧
          t = { s with host := { s.host with rsp := t.host.rsp }, banks := tblSet s.banks b.toNat (t.bank b.toNat) }))

/-- REG64_LO_READ (R14, R556): the read of a _LO half returns it and latches the _HI half for the origin that reads. However the
register moves, and whatever another origin reads, that origin's next read of _HI returns what was latched. -/
def Obligations.PairReadIsWhole : Prop :=
  ∀ (acc : Acc) (s : State), acc.origin = .frame →
    ∀ off v, off ∈ [0x060, 0x068, 0x070, 0x080, 0x098, 0x0C0, 0x0D0] → s.framePair off = some v →
    ∃ t, exec (.reg64LoRead acc (BitVec.ofNat 21 ((0x400000 + off) / 4))) s = .next t ∧
      t.host.rsp = [⟨BitVec.ofNat 32 v, false⟩] ∧ t = { s with host := { t.host with staged := s.host.staged } } ∧
      ∀ (acc' : Acc) (addr : BitVec 21) (u w : State), u.host.latched = t.host.latched → acc'.origin ≠ .frame →
        exec (.reg64LoRead acc' addr) u = .next w →
        exec (.reg64LoRead acc (BitVec.ofNat 21 ((0x400004 + off) / 4))) w =
          .next { w with host := { w.host with rsp := [⟨BitVec.ofNat 32 (v / 2 ^ 32), false⟩] } }

/-- STV_VERSION and the CAP_* registers read the same on every page (R559), whatever the origin that may read there; a function's
page reads 0 during start-up (R557). SEC_STATUS.APPROVED (R510) reads 1 exactly when the pre-operational tests have passed,
CRYPTO_ERROR is 0, no on-demand test runs and FRAME_STATUS.STATE is not TEST_MODE. -/
def Obligations.CapabilityAndApprovedReads : Prop :=
  (∀ (acc : Acc) (addr : BitVec 21) (event : Bool) (s : State),
     let page := addr.toNat / 0x4000
     let off := addr.toNat % 0x4000
     off < 6 →
     ((acc.origin = .function ∧ page = acc.fn.toNat ∧ page < s.caps.funcs) ∨ (acc.origin = .frame ∧ ((page < s.caps.funcs ∧ page < 64) ∨ page = 64)) ∨
       (acc.origin = .management ∧ page = 65)) →
     let value := [stvVersion, s.caps.dies, s.caps.bays.length, s.caps.portsReg, s.caps.funcs, s.caps.queues].getD off 0
     exec (.rcRegisterRead acc addr event) s =
       .next { s with host := { s.host with rsp := [⟨BitVec.ofNat 32 (if page < 64 ∧ s.early = true then 0 else value), false⟩] } }) ∧
  (∀ (acc : Acc) (s : State), acc.origin = .management →
     ∃ t r, exec (.rcRegisterRead acc (BitVec.ofNat 21 (0x410080 / 4)) false) s = .next t ∧ t.host.rsp = [⟨r, false⟩] ∧
       (r.getLsbD 0 = true ↔ (s.frame.preTests = true ∧ s.sec.cryptoError = false ∧ s.sec.selftestBusy = false ∧ s.shown ≠ .testMode)) ∧
       t = { s with host := { s.host with rsp := t.host.rsp } })

/-- SCARF_FLIT_SEND (R71, R75, R78, R82): a beat that waits before a crossing leaves in a BEAT flit when its route has a credit there
and fewer than 64 flits of the lane are unacknowledged: one credit less, the next sequence number, one flit more to replay; its fields
lie where R75 puts them. A service message leaves on lane 0, one flit in 16 at most; an IDLE flit has no number and is not kept. Each
returns the credits it carries. Without credit or room, or with the boundary down, nothing is sent. SCARF_FLIT_RECEIVE (R75, R81): a
flit with a bad CRC, or a numbered one out of turn, is discarded, and the first of a run answered with a NAK of the last good number;
the next one in turn is accepted: a beat takes a slot of the bridge and is driven on when its next link is idle and no earlier beat of
its route waits there, a service message on lane 0 is counted. An IDLE flit acknowledges and returns credits; a NAK makes its sender
send again. -/
def Obligations.FlitsCarryBeatsInOrder : Prop :=
  (∀ (b : BitVec 2) (side : Bool) (lane : BitVec 3) (route : BitVec 9) (s : State),
     let r := route.toNat
     let y := s.route r
     let e := s.laneEnd b.toNat side lane.toNat
     let c := Instr.scarfFlitSend b side lane (.beat route)
     (∀ j x beat n, s.crossingAt b.toNat side lane.toNat r = some (j, x) → (y.link j).beat = some beat → y.credits[j]? = some (n + 1) →
       s.boundaryUp b.toNat = true → e.replay.length < 64 →
       let flit := beatFlit e.nextSeq e.rxGood r e.creditRoute e.creditCount beat
       (∃ t, exec c s = .next t ∧
         (t.laneEnd b.toNat side lane.toNat).nextSeq = (e.nextSeq + 1) % 256 ∧
         (t.laneEnd b.toNat side lane.toNat).replay = e.replay ++ [⟨e.nextSeq, flit, s.now⟩] ∧
         (t.laneEnd b.toNat side lane.toNat).tx = [flit] ∧ (t.route r).credits = y.credits.set j n ∧
         (j = 0 → (t.route r).link 0 = (y.link 0).accept) ∧ (t.route r).fifo = y.fifo ∧ (∀ q, q ≠ r → t.route q = s.route q) ∧
         t = { s with routes := t.routes, bounds := t.bounds, tel := { s.tel with cnt := t.tel.cnt } }) ∧
       (e.nextSeq < 256 → e.rxGood < 256 → e.creditRoute < 512 →
         flitCrcGood flit = true ∧ flitType flit = 1 ∧ flitSeq flit = e.nextSeq ∧ flitAckValid flit = true ∧ flitAck flit = e.rxGood ∧
         fld flit.toNat 19 9 = r ∧ fld flit.toNat 28 4 = beat.mark.toNat ∧ fld flit.toNat 32 9 = e.creditRoute ∧
         fld flit.toNat 41 6 = e.creditCount ∧ fld flit.toNat 64 256 = beat.data.toNat ∧ fld flit.toNat 320 32 = beat.check.toNat)) ∧
     ((∀ j x, s.crossingAt b.toNat side lane.toNat r = some (j, x) →
         (y.link j).beat = none ∨ y.credits[j]? = some 0 ∨ s.boundaryUp b.toNat = false ∨ 64 ≤ e.replay.length) →
       exec c s = .next s)) ∧
  (∀ (b : BitVec 2) (side : Bool) (lane : BitVec 3) (m : BitVec 288) (s : State),
     let e := s.laneEnd b.toNat side lane.toNat
     let flit := serviceFlit e.nextSeq e.rxGood e.creditRoute e.creditCount m
     let due := e.returns.filter (fun p => p.1 != e.creditRoute) ++ (e.returns.filter (fun p => p.1 == e.creditRoute)).drop e.creditCount
     (s.boundaryUp b.toNat = true → lane.toNat = 0 → e.replay.length < 64 → 15 ≤ e.spaced →
       exec (.scarfFlitSend b side lane (.service m)) s = .next (s.setLaneEnd b.toNat side lane.toNat { e with
         tx := [flit], returns := due, spaced := 0, nextSeq := (e.nextSeq + 1) % 256, replay := e.replay ++ [⟨e.nextSeq, flit, s.now⟩] })) ∧
     (s.boundaryUp b.toNat = false ∨ lane.toNat ≠ 0 ∨ 64 ≤ e.replay.length ∨ e.spaced < 15 →
       exec (.scarfFlitSend b side lane (.service m)) s = .next s) ∧
     (s.boundaryUp b.toNat = true →
       exec (.scarfFlitSend b side lane .idle) s = .next (s.setLaneEnd b.toNat side lane.toNat { e with
         tx := [idleFlit e.rxGood e.creditRoute e.creditCount], returns := due, spaced := min 15 (e.spaced + 1) })) ∧
     (s.boundaryUp b.toNat = false → exec (.scarfFlitSend b side lane .idle) s = .next s)) ∧
  (∀ (b : BitVec 2) (side : Bool) (lane : BitVec 3) (flit : BitVec 512) (s : State),
     let e := s.laneEnd b.toNat side lane.toNat
     let r := fld flit.toNat 19 9
     (s.boundaryUp b.toNat = false → exec (.scarfFlitReceive b side lane flit) s = .next s) ∧
     (s.boundaryUp b.toNat = true →
       ((flitCrcGood flit = false ∨ ((flitType flit = 1 ∨ flitType flit = 2) ∧ flitSeq flit ≠ (e.rxGood + 1) % 256)) →
         (e.discarding = true → exec (.scarfFlitReceive b side lane flit) s = .next s) ∧
         (e.discarding = false → ∃ t, exec (.scarfFlitReceive b side lane flit) s = .next t ∧
           t.laneEnd b.toNat side lane.toNat = { e with discarding := true, tx := [nakFlit e.rxGood], spaced := min 15 (e.spaced + 1) } ∧
           t = { s with bounds := t.bounds, tel := { s.tel with cnt := t.tel.cnt } })) ∧
       (flitCrcGood flit = true → flitType flit = 0 →
         exec (.scarfFlitReceive b side lane flit) s = .next (State.creditBack b.toNat side lane.toNat (fld flit.toNat 32 9)
           (fld flit.toNat 41 6) (if flitAckValid flit = true then s.setLaneEnd b.toNat side lane.toNat (e.acked (flitAck flit)) else s))) ∧
       (flitCrcGood flit = true → flitType flit = 3 →
         exec (.scarfFlitReceive b side lane flit) s = exec (.scarfNakReceive b side lane (BitVec.ofNat 8 (flitAck flit))) s) ∧
       (flitCrcGood flit = true → (flitType flit = 1 ∨ flitType flit = 2) → flitSeq flit = (e.rxGood + 1) % 256 →
         ∃ t, exec (.scarfFlitReceive b side lane flit) s = .next t ∧
           (t.laneEnd b.toNat side lane.toNat).rxGood = flitSeq flit ∧ (t.laneEnd b.toNat side lane.toNat).discarding = false ∧
           (flitType flit = 2 → (t.laneEnd b.toNat side lane.toNat).slots = e.slots ∧
             (lane.toNat = 0 → tblGetD t.tel.cnt (cntKey 7 b.toNat 4) 0 = (tblGetD s.tel.cnt (cntKey 7 b.toNat 4) 0 + 1) % 2 ^ 64)) ∧
           (∀ beat j x, flitType flit = 1 → s.flitBeat b.toNat side lane.toNat flit = some beat →
             s.crossingAt b.toNat (!side) lane.toNat r = some (j, x) →
             (t.laneEnd b.toNat side lane.toNat).slots = e.slots ++ [(r, beat)] ∧
             ((∀ p ∈ e.slots, p.1 ≠ r) → j + 1 < (s.route r).links.length → ((s.route r).link (j + 1)).idle = true →
               (t.route r).link (j + 1) = ((s.route r).link (j + 1)).drive beat)) ∧
           t = { s with routes := t.routes, bounds := t.bounds, tel := { s.tel with cnt := t.tel.cnt } })))

/-- A NAK, and a flit unacknowledged for 1 µs (R82 to R84), make the lane send every unacknowledged flit again, unchanged and in
order; the eighth failure of one flit in a row takes the boundary down. A NAK acknowledges the flits up to the number it carries. Of
the flits sent again, those behind the last SERVICE flit among them count for its spacing (R71). -/
def Obligations.ReplayUnchangedInOrder : Prop :=
  ∀ (b : BitVec 2) (side : Bool) (lane : BitVec 3) (s : State) (c : Instr) (e : LaneEnd),
    s.boundaryUp b.toNat = true →
    ((∃ ack, c = .scarfNakReceive b side lane ack ∧ e = (s.laneEnd b.toNat side lane.toNat).acked ack.toNat) ∨
      (c = .scarfReplayTimeout b side lane ∧ e = s.laneEnd b.toNat side lane.toNat ∧ ∃ f l, e.replay = f :: l ∧ f.at_ + 1000 ≤ s.now)) →
    (e.replay = [] → exec c s = .next (s.setLaneEnd b.toNat side lane.toNat e)) ∧
    (∀ f l, e.replay = f :: l →
      let n := if e.failSeq = f.seq then e.fails + 1 else 1
      (n < 8 → ∃ t, exec c s = .next t ∧
        t.laneEnd b.toNat side lane.toNat = { e with
          failSeq := f.seq, fails := n, tx := e.replay.map (·.flit), replay := e.replay.map (fun x => { x with at_ := s.now }),
          spaced := e.respaced } ∧
        (∀ i x, e.replay[i]? = some x → flitType x.flit = 2 → (∀ j y, i < j → e.replay[j]? = some y → flitType y.flit ≠ 2) →
          e.respaced = min 15 (e.replay.length - 1 - i)) ∧
        (t.boundary b.toNat).down = false ∧ t = { s with bounds := t.bounds, tel := { s.tel with cnt := t.tel.cnt } }) ∧
      (8 ≤ n → ∃ t, exec c s = .next t ∧ (t.boundary b.toNat).down = true ∧
        (∀ l ∈ (t.boundary b.toNat).lanes, l.2.replay = [] ∧ l.2.slots = [] ∧ l.2.tx = []) ∧ t.pins = s.pins ∧ t.sec = s.sec))

/-- TENON_LAUNCH (R51, R54, R61, R67, R151): a bay in RUN with its clock going drives its next beat onto the idle first link of the
route; while that link is busy, or the bay dozes, parks, is fenced or stopped, it launches none. On a route that lost framing only the
unit under way goes on until every stage is empty; then the route is armed again. A beat of a sidecar unit waits for the data that it
goes with (R387, R407). TRUSS_BEAT_ACCEPT (R51, R53, R54, R67): the beat on a
route's last link goes into the mortise FIFO, unless 16 beats stand there already; a fenced bay discards it and counts it. A running
engine then reads the whole FIFO in order, unless an access of it has to wait for its slot (log 4); one that does not run leaves it. -/
def Obligations.BeatsCrossTheTruss : Prop :=
  (∀ (bay : BitVec 6) (tenon : BitVec 3) (s : State) (c : RouteCfg) (beat : Beat) (rest : List Beat) (l : Link) (ls : List Link),
     let b := s.bay bay.toNat
     let lost := (s.route c.route).lostFraming
     s.image.committed.bind (fun i => i.routes.find? (fun r => r.tenonBay == bay.toNat && r.tenonPort == tenon.toNat)) = some c →
     tblGetD b.out tenon.toNat [] = beat :: rest → (s.route c.route).links = l :: ls →
     (b.pstate = .run → b.stopped = false → lost = false → s.sideWaits bay.toNat tenon.toNat beat = true → exec (.tenonLaunch bay tenon) s = .next s) ∧
     (b.pstate = .run → b.stopped = false → l.req = l.ack → s.sideWaits bay.toNat tenon.toNat beat = false →
       (lost = false ∨ beat.goesOn = true ∨ (s.stagesEmpty c.route c = true ∧ c.tenonBay = bay.toNat ∧ c.tenonPort = tenon.toNat) →
         ∃ t, exec (.tenonLaunch bay tenon) s = .next t ∧
           t.route c.route = { s.route c.route with links := ⟨!l.req, l.ack, some beat⟩ :: ls, lostFraming := lost && beat.goesOn } ∧
           tblGetD (t.bay bay.toNat).out tenon.toNat [] = rest ∧ t.bay bay.toNat = { b with out := (t.bay bay.toNat).out } ∧
           (∀ k, k ≠ bay.toNat → t.bay k = s.bay k) ∧ (∀ r, r ≠ c.route → t.route r = s.route r) ∧
           t = { s with bays := t.bays, routes := t.routes }) ∧
       (lost = true → beat.goesOn = false → s.stagesEmpty c.route c = false → exec (.tenonLaunch bay tenon) s = .next s)) ∧
     (b.pstate ≠ .run ∨ b.stopped = true ∨ (l.req ≠ l.ack ∧ (lost = false ∨ s.stagesEmpty c.route c = false)) →
       exec (.tenonLaunch bay tenon) s = .next s)) ∧
  (∀ (route : BitVec 9) (s : State) (c : RouteCfg) (beat : Beat) (l : Link) (ls : List Link),
     let r := route.toNat
     let y := s.route r
     let b := s.bay c.mortiseBay
     let i := Instr.trussBeatAccept route (BitVec.ofNat 2 ls.length)
     s.routeCfg? r = some c → y.links = ls ++ [l] → ls.length < 4 → l.req ≠ l.ack → l.beat = some beat →
     (b.pstate ≠ .fenced → y.fifo.length < 16 →
       let u := s.acceptLink r ls.length
       (u.route r).fifo = y.fifo ∧
       s.After (fun w => let u := w.acceptLink r ls.length
         (u.setRoute r { u.route r with fifo := y.fifo ++ [beat] }).readFifo r c) (exec i s) ∧
       (b.pstate ≠ .run ∨ b.stopped = true →
         ∃ t, exec i s = .next t ∧ (t.route r).fifo = y.fifo ++ [beat] ∧ (t.route r).credits = y.credits ∧
           t = { s with routes := t.routes, bounds := t.bounds })) ∧
     (b.pstate = .fenced →
       ∃ t, exec i s = .next t ∧ (t.route r).fifo = y.fifo ∧
         tblGetD t.tel.cnt (cntKey 2 c.mortiseBay 5) 0 = (tblGetD s.tel.cnt (cntKey 2 c.mortiseBay 5) 0 + 1) % 2 ^ 64 ∧
         t = { s with routes := t.routes, bounds := t.bounds, tel := { s.tel with cnt := t.tel.cnt } }) ∧
     (b.pstate ≠ .fenced → 16 ≤ y.fifo.length →
       s.After (fun w => w.readFifo r c) (exec i s) ∧ (b.pstate ≠ .run ∨ b.stopped = true → exec i s = .next s)))

/-- SILL_REQUEST_ISSUE (R119, R129, R231 to R233, R547): a slot of a port that serves takes the arbiter's choice off the waiting
requests, sends its signals and, for a write, its data beats, and makes it outstanding under a tag that is neither in use nor retired,
the named one where it is free (log 7); a slot without a choice is counted as idle. Relay records and other work of units that waited for
the slot go first, and where they take it the command is done (log 4); with none, nothing but the request goes. The arbiter (R130, R231
to R233, R551): what it picks waits and is eligible; outside the one slot in 64 for best-effort traffic it picks an eligible guaranteed
request with the earliest deadline, ties to the lower stream index, when there is one; at throttle level 2 or more best-effort traffic
has only that slot. The data beats of a write (R121, R126): as many as the request has beats, in ascending order, the last one alone
marked last; each data byte lies at its address's place in its beat, and the granules outside the request have their wd_gran bit at 0. -/
def Obligations.RequestsIssueByDeadline : Prop :=
  (∀ (port : BitVec 3) (tag : BitVec 13) (s : State),
     let n := port.toNat
     let w := s.relays.catchUp.finishDrains
     let p := w.port n
     let c := Instr.sillRequestIssue port tag
     (s.portUp n = false → exec c s = .next s) ∧
     (s.NoWork → w = s) ∧
     (s.portUp n = true → p.slots ≠ (s.port n).slots → exec c s = .next w) ∧
     (s.portUp n = true → p.slots = (s.port n).slots →
       (∀ r, w.arbitrate n = some r →
         ∃ t g, exec c s = .next t ∧
           (∀ o ∈ p.table r.op, o.tag ≠ g) ∧ g + (if r.op = .write then 8192 else 0) ∉ p.retired ∧
           ((∀ o ∈ p.table r.op, o.tag ≠ tag.toNat) → tag.toNat + (if r.op = .write then 8192 else 0) ∉ p.retired → g = tag.toNat) ∧
           let o : OutReq := ⟨g, r, w.now, w.urgent r, [], [], false⟩
           t.port n = { p with
             waiting := p.waiting.erase r, reads := if r.op = .write then p.reads else p.reads ++ [o],
             writes := if r.op = .write then p.writes ++ [o] else p.writes, slots := p.slots + 1,
             rr := if r.deadline.isNone then w.rrClass r else p.rr,
             sent := some ⟨r.op, g, r.addr, r.grans - 1, r.fn, r.mgmt, r.operand, w.urgent r⟩,
             wdata := if r.op = .write then r.writeBeats else p.wdata } ∧
           (∀ m, m ≠ n → t.port m = w.port m) ∧ t = { w with ports := t.ports, tel := { w.tel with cnt := t.tel.cnt } }) ∧
       (w.arbitrate n = none → ∃ t, exec c s = .next t ∧ t.port n = { p with slots := p.slots + 1 } ∧
         tblGetD t.tel.cnt (cntKey 1 n 9) 0 = (tblGetD w.tel.cnt (cntKey 1 n 9) 0 + 1) % 2 ^ 64 ∧
         (∀ m, m ≠ n → t.port m = w.port m) ∧ t = { w with ports := t.ports, tel := { w.tel with cnt := t.tel.cnt } }))) ∧
  (∀ (n : Nat) (s : State) (r : Req), s.arbitrate n = some r →
     r ∈ (s.port n).waiting ∧ s.eligible n r = true ∧
     ((s.port n).slots % 64 ≠ 63 →
       (∀ q d, q ∈ (s.port n).waiting → s.eligible n q = true → q.deadline = some d →
         ∃ e, r.deadline = some e ∧ (e < d ∨ (e = d ∧ r.gidx ≤ q.gidx))) ∧
       (2 ≤ (s.thermal (s.caps.portDie.getD n 0)).level → r.deadline.isSome = true)) ∧
     ((s.port n).slots % 64 = 63 → (∃ q ∈ (s.port n).waiting, s.eligible n q = true ∧ q.deadline = none) → r.deadline = none)) ∧
  (∀ r : Req, r.op = .write → r.addr % 64 = 0 → 0 < r.grans → r.data.length = 64 * r.grans →
     let first := r.addr % 128 / 64
     r.writeBeats.length = r.beats ∧
     (∀ k b, r.writeBeats[k]? = some b → (b.last = true ↔ k + 1 = r.beats) ∧
       ∀ j, j < 2 → (b.gran.getLsbD j = true ↔ first ≤ 2 * k + j ∧ 2 * k + j < first + r.grans)) ∧
     (∀ i, i < 64 * r.grans → ∃ b, r.writeBeats[(r.addr % 128 + i) / 128]? = some b ∧
       (natLe 128 b.data.toNat)[(r.addr % 128 + i) % 128]? = r.data[i]?))

/-- Read beats (R121, R122, R124): a beat before the last joins its request; the last one completes the read with its bytes, and as
poisoned when any of its granules came so. A read that serves TAIL leaves its value; one to be discarded changes nothing else. A beat
sent twice, outside the request, or a last flag too early breaks the rule of the port. FAULT and DECERR of a read (R123, R135, R207,
R210): the read is over, and completes with that answer; one that served TAIL faults its queue with the status of the response, and
what the queue still reads is to be discarded; one to be discarded changes nothing else. A stream that has drained by then is FREE
(R236). -/
def Obligations.ReadsAssembleOrEnd : Prop :=
  (∀ (port : BitVec 3) (tag : BitVec 13) (beat : BitVec 5) (last : Bool) (poison : BitVec 2) (data : BitVec 1024) (s : State) (o : OutReq),
     let n := port.toNat
     let p := s.port n
     let o' := { o with beats := tblSet o.beats beat.toNat data, poison := o.poison ++ o.req.poisonOf beat.toNat poison }
     let c := Instr.sillReadBeat port tag beat last poison data
     p.reads.find? (fun x => x.tag == tag.toNat) = some o →
     (o.req.beats ≤ beat.toNat ∨ (tblGet? o.beats beat.toNat).isSome = true ∨ (last = true ∧ o.beats.length + 1 < o.req.beats) →
       exec c s = .fault (.portRule n)) ∧
     (beat.toNat < o.req.beats → tblGet? o.beats beat.toNat = none →
       (last = false → o.beats.length + 1 < o.req.beats →
         ∃ t, exec c s = .next t ∧ t.port n = { p with reads := p.reads.map (fun x => if x.tag = tag.toNat then o' else x) } ∧
           (∀ m, m ≠ n → t.port m = s.port m) ∧ t = { s with ports := t.ports, tel := { s.tel with cnt := t.tel.cnt } }) ∧
       (o.req.beats ≤ o.beats.length + 1 →
         (∃ t w : State, exec c s = .next w ∧
           w = (if o.drop then t else (t.complete n o.req (if o'.poison.isEmpty then .okay else .poison) o'.bytes).finishDrains) ∧
           t.port n = { p with reads := p.reads.filter (fun x => x.tag != tag.toNat) } ∧
           tblGetD t.tel.cnt (cntKey 1 n 7) 0 =
             (tblGetD s.tel.cnt (cntKey 1 n 7) 0 + (o.req.poisonOf beat.toNat poison).length) % 2 ^ 64 ∧
           (∀ m, m ≠ n → t.port m = s.port m) ∧ t = { s with ports := t.ports, tel := { s.tel with cnt := t.tel.cnt } }) ∧
         (∀ f q, o.drop = false → o.req.owner = .queueTail f q → o'.poison = [] → (s.queue f q).tailOut = true →
           ∃ t : State, exec c s = .next t.finishDrains ∧ t.port n = { p with reads := p.reads.filter (fun x => x.tag != tag.toNat) } ∧
             t.queue f q = { s.queue f q with tailValue := some (leAt o'.bytes 0 4) } ∧
             t = { s with ports := t.ports, queues := t.queues, tel := { s.tel with cnt := t.tel.cnt } })))) ∧
  (∀ (port : BitVec 3) (tag : BitVec 13) (fault : Bool) (token : Word) (s : State) (o : OutReq),
     let n := port.toNat
     let p := s.port n
     p.reads.find? (fun x => x.tag == tag.toNat) = some o →
     (∃ t w : State, exec (.sillReadErrorResponse port tag fault token) s = .next w ∧
       w = (if o.drop then t else (t.complete n o.req (if fault then .fault token else .decerr) []).finishDrains) ∧
       t.port n = { p with reads := p.reads.filter (fun x => x.tag != tag.toNat) } ∧
       tblGetD t.tel.cnt (cntKey 1 n (if fault then 6 else 8)) 0 = (tblGetD s.tel.cnt (cntKey 1 n (if fault then 6 else 8)) 0 + 1) % 2 ^ 64 ∧
       (∀ m, m ≠ n → t.port m = s.port m) ∧ t = { s with ports := t.ports, tel := { s.tel with cnt := t.tel.cnt } }) ∧
     (∀ f q, o.drop = false → o.req.owner = .queueTail f q → (s.queue f q).tailOut = true → (s.queue f q).fault = false →
       ∃ t : State, exec (.sillReadErrorResponse port tag fault token) s = .next t.finishDrains ∧
         t.ports = (State.dropQueueReads f q true (s.setPort n { p with reads := p.reads.filter (fun x => x.tag != tag.toNat) })).ports ∧
         (t.queue f q).fault = true ∧ (t.queue f q).enabled = false ∧
         (t.queue f q).faultCode = (if fault then stTranslation else stAccessDenied) ∧ t.mem = s.mem))

/-- Write responses (R127, R128, R135, R246): OKAY, in the order of its tag class, writes every byte of the request and no other,
and marks the slot block it delivered; FAULT and DECERR write none, and complete the request so; POISON, or a response out of that
order, breaks the rule of the port. SILL_REQUEST_TIMEOUT (R132): 1 ms after its transfer a request is over, completes as DECERR, and
its tag is retired; the 64th retired tag fails the port and takes the fatal path with detail 1. Before that time nothing happens. A
stream that has drained by then is FREE (R236). -/
def Obligations.WritesAndTimeouts : Prop :=
  (∀ (port : BitVec 3) (tag : BitVec 13) (s : State) (o : OutReq),
     let n := port.toNat
     let p := s.port n
     p.writes.find? (fun x => x.tag == tag.toNat) = some o →
     exec (.sillWriteResponse port tag .poison) s = .fault (.portRule n) ∧
     (∀ resp x, p.writes.find? (fun y => tagClass y.tag == tagClass tag.toNat) = some x → x.tag ≠ tag.toNat →
       exec (.sillWriteResponse port tag resp) s = .fault (.portRule n)) ∧
     (p.writes.find? (fun y => tagClass y.tag == tagClass tag.toNat) = some o →
       (∀ resp, resp ≠ .poison →
         ∃ t w : State, exec (.sillWriteResponse port tag resp) s = .next w ∧
           w = (if o.drop then t else (t.complete n o.req resp []).finishDrains) ∧
           t.mem = (if resp = .okay then memWriteBytes s.mem o.req.addr o.req.data else s.mem) ∧
           t.port n = { p with writes := p.writes.filter (fun x => x.tag != tag.toNat) } ∧ (∀ m, m ≠ n → t.port m = s.port m) ∧
           t = { s with ports := t.ports, mem := t.mem, tel := { s.tel with cnt := t.tel.cnt } }) ∧
       (∀ f i batch block, o.drop = false → o.req.owner = .slotBlock f i batch block →
         ∃ t : State, exec (.sillWriteResponse port tag .okay) s = .next t.finishDrains ∧
           t.port n = { p with writes := p.writes.filter (fun x => x.tag != tag.toNat) } ∧
           t.mem = memWriteBytes s.mem o.req.addr o.req.data ∧
           (∀ x, (s.stream f i).xfer = some x → x.batch = batch → (t.stream f i).xfer = some { x with
             low := (markBlock x.low x.done block).1, done := (markBlock x.low x.done block).2, time := s.now }) ∧
           t = { s with ports := t.ports, streams := t.streams, mem := t.mem, tel := { s.tel with cnt := t.tel.cnt } }))) ∧
  (∀ (port : BitVec 3) (tag : BitVec 13) (write : Bool) (s : State) (o : OutReq),
     let n := port.toNat
     let p := s.port n
     let c := Instr.sillRequestTimeout port tag write
     (if write = true then p.writes else p.reads).find? (fun x => x.tag == tag.toNat) = some o →
     (s.now < o.at_ + 1000000 → exec c s = .next s) ∧
     (o.at_ + 1000000 ≤ s.now →
       ∃ t w : State, exec c s = .next (if 63 ≤ p.retired.length then w.frameFatal 1 n else w) ∧
         w = (if o.drop then t else (t.complete n o.req .decerr []).finishDrains) ∧
         t.port n = { p with
           reads := if write then p.reads else p.reads.filter (fun x => x.tag != tag.toNat),
           writes := if write then p.writes.filter (fun x => x.tag != tag.toNat) else p.writes,
           retired := p.retired ++ [tag.toNat + (if write then 8192 else 0)], failed := p.failed || decide (63 ≤ p.retired.length) } ∧
         tblGetD t.tel.cnt (cntKey 1 n 5) 0 = (tblGetD s.tel.cnt (cntKey 1 n 5) 0 + 1) % 2 ^ 64 ∧
         (∀ m, m ≠ n → t.port m = s.port m) ∧ t = { s with ports := t.ports, tel := { s.tel with cnt := t.tel.cnt } }) ∧
     (o.at_ + 1000000 ≤ s.now → o.drop = true → 63 ≤ p.retired.length → s.frame.st ≠ .fatal → s.frame.st ≠ .bootFail →
       ∃ t, exec c s = .next t ∧ (t.port n).failed = true ∧ t.frame.st = .fatal ∧ t.dump.detail = 1))

/-- A response whose tag is not outstanding (R131) is discarded, counted in the port's stray-response counter, and logged in the
frame log ring while the port's error record can take it (R524). -/
def Obligations.StrayResponsesDiscarded : Prop :=
  ∀ (port : BitVec 3) (tag : BitVec 13) (s : State) (c : Instr) (write : Bool),
    let n := port.toNat
    let u := tblGetD s.units (unitKey 1 n (s.intakeBay n)) .fresh
    (((∃ beat last poison data, c = .sillReadBeat port tag beat last poison data) ∨ (∃ fault token, c = .sillReadErrorResponse port tag fault token)) ∧
        write = false ∧ (∀ o ∈ (s.port n).reads, o.tag ≠ tag.toNat)) ∨
      ((∃ resp, c = .sillWriteResponse port tag resp) ∧ write = true ∧ (∀ o ∈ (s.port n).writes, o.tag ≠ tag.toNat)) →
    ∃ t, exec c s = .next t ∧
      t.tel.cnt = tblSet s.tel.cnt (cntKey 1 n 4) ((tblGetD s.tel.cnt (cntKey 1 n 4) 0 + 1) % 2 ^ 64) ∧
      (u.held = none ∨ u.inFlight < 8 →
        ∃ e, t.frameLog.chip.getLast? = some e ∧ e.unit = 1 ∧ e.index = n ∧ e.seq = s.frameLog.next ∧ e.time = s.now ∧
          e.detail = tag.toNat + (if write then 65536 else 0) ∧ t.frameLog.next = (s.frameLog.next + 1) % 2 ^ 32) ∧
      t = { s with tel := { s.tel with cnt := t.tel.cnt }, frameLog := t.frameLog, units := t.units }

/-- FUNC_RESET_GO (R180, R181): an open or halted function is RESETTING; its streams are closed, its queues are at their image
defaults, its log is new, its pools are disabled; other functions keep their states, and no key slot changes yet.
FUNC_RESET_COMPLETE (R180 to R182): once no write of the function is outstanding, no message of it is queued, the ending records of
its aborted streams are written and their banks are back, it is OPEN; with CLEAR_KEYS the key slots it owns are empty and no other.
Until then it stays RESETTING. In BOOT_FAIL neither has an effect (R176; log 122). -/
def Obligations.FunctionResetRunsToOpen : Prop :=
  (∀ (acc : Acc) (fn : BitVec 6) (value : Word) (s : State),
     let f := fn.toNat
     (acc.origin = .frame ∨ (acc.origin = .function ∧ acc.fn = fn)) → f < s.caps.funcs → s.early = false → s.frame.st ≠ .fatal →
     s.frame.st ≠ .bootFail → ((s.func f).st = .open_ ∨ (s.func f).st = .halted) →
     ∃ t, exec (.funcResetGo acc fn value) s = .next t ∧ (t.func f).st = .resetting ∧ (t.func f).resetKeys = value.toNat.testBit 1 ∧
       (t.func f).log = .fresh ∧ (t.func f).pageGroups = [] ∧ (t.func f).oobDrop = 0 ∧ (t.func f).lostBells = 0 ∧ t.host.rsp = [⟨0, false⟩] ∧
       (∀ i, i < 1024 → (t.stream f i).st = .free) ∧ (∀ q d, (s.queue f q).defaults = some d → q < 512 → let y := t.queue f q
         y.enabled = false ∧ y.base = 0 ∧ y.index = 0 ∧ y.log2 = d.log2 ∧ y.weight = d.weight ∧ y.burst = d.burst ∧ y.jobs = [] ∧ y.arrived = []) ∧
       (∀ p ∈ t.pools, p.2.assigned = true → p.2.fn = f → p.2.enabled = false) ∧
       (∀ g, g ≠ f → (t.func g).st = (s.func g).st) ∧ t.sec = s.sec ∧ t.pins = s.pins ∧ t.pace = s.pace) ∧
  (∀ (fn : BitVec 6) (s : State),
     let f := fn.toNat
     let x := s.func f
     (x.st = .resetting → s.frame.st ≠ .fatal → s.frame.st ≠ .bootFail → s.funcWritesOut f = false → s.funcMsgsOut f = false →
       s.funcBanksOut f = false → s.endingWaits f = false →
       ∃ t, exec (.funcResetComplete fn) s = .next t ∧
         t.func f = { x with st := .open_, keysCleared := x.keysCleared || x.resetKeys, resetKeys := false, haltCode := 0 } ∧
         (∀ g, g ≠ f → t.func g = s.func g) ∧
         t.sec = { s.sec with slots := if x.resetKeys then s.sec.slots.filter (fun p => p.2.fn != f) else s.sec.slots } ∧
         t = { s with funcs := t.funcs, sec := t.sec, queues := t.queues }) ∧
     (x.st ≠ .resetting ∨ s.frame.st = .fatal ∨ s.frame.st = .bootFail ∨ s.funcWritesOut f = true ∨ s.funcMsgsOut f = true ∨
         s.funcBanksOut f = true ∨ s.endingWaits f = true → exec (.funcResetComplete fn) s = .next s))

/-- Q_ENABLE (R193, R213, R214): a present queue that does not run is ENABLING; when the checks that need no memory hold, its index
block is read. DISABLE in the same write wins. Q_ENABLE_CHECK (R193, R213, R214): with the index block read and every check passed the
queue is ENABLED at the block's HEAD, lap, error count and error ring; a check that fails sets ENABLE_REFUSED and leaves it
disabled. While the read of the index block is out, nothing is decided; where that read is gone the enable is refused. Jobs dispatched
before a fault of the queue go on beside the new ones, which HEAD passes without them (log 130). In FATAL nothing is decided (R218). -/
def Obligations.QueueEnableReadsAndChecks : Prop :=
  (∀ (acc : Acc) (fn : BitVec 6) (q : BitVec 9) (value : Word) (s : State),
     let f := fn.toNat
     let x := s.queue f q.toNat
     let w := value.toNat
     let y := { x with
       headNotify := w.testBit 2, errNotify := w.testBit 3, vector := fld w 4 6, prefetch := fld w 10 6, nextHeadNotify := w.testBit 2,
       nextErrNotify := w.testBit 3, nextVector := fld w 4 6 }
     s.FuncAccess acc fn → x.present = true → x.running = false →
     (w.testBit 1 = true → exec (.qEnable acc fn q value) s = .next (State.accepted (s.setQueue f q.toNat y))) ∧
     (w.testBit 1 = false →
       ∃ t, exec (.qEnable acc fn q value) s = .next t ∧ t.queue f q.toNat = { y with enabling := true, indexBlock := none } ∧
         (t.port 0).waiting = (s.port 0).waiting ++
           (if s.enableStatic f x then [⟨.read, x.index, 1, f, false, 0, none, 0, 0, .queueIndex f q.toNat, []⟩] else []) ∧
         t = State.accepted { s with queues := t.queues, ports := t.ports })) ∧
  (∀ (fn : BitVec 6) (q : BitVec 9) (s : State),
     let f := fn.toNat
     let x := s.queue f q.toNat
     x.enabling = true → s.live = true →
     (s.enableStatic f x = false →
       ∃ t, exec (.qEnableCheck fn q) s = .next t ∧ (t.queue f q.toNat).enableRefused = true ∧ (t.queue f q.toNat).enabling = false ∧
         (t.queue f q.toNat).enabled = x.enabled ∧ t = { s with queues := t.queues, ports := t.ports }) ∧
     (s.enableStatic f x = true → x.indexBlock = none →
       (s.indexAwaited f q.toNat = true → exec (.qEnableCheck fn q) s = .next s) ∧
       (s.indexAwaited f q.toNat = false → exec (.qEnableCheck fn q) s =
         .next (s.setQueue f q.toNat { x with enabling := false, heldDisable := false, enableRefused := true, indexBlock := none }))) ∧
     (∀ b, s.enableStatic f x = true → x.indexBlock = some b →
       let ok := leAt b 0x08 4 < x.size ∧ leAt b 0x18 8 % 64 = 0 ∧ 4 ≤ leAt b 0x20 1 ∧ leAt b 0x20 1 ≤ 12
       (¬ ok → exec (.qEnableCheck fn q) s =
         .next (s.setQueue f q.toNat { x with enabling := false, heldDisable := false, enableRefused := true, indexBlock := none })) ∧
       (ok → x.heldDisable = false → exec (.qEnableCheck fn q) s = .next (s.setQueue f q.toNat { x with
         enabling := false, heldDisable := false, indexBlock := none, enabled := true, fault := false, faultCode := 0, head := leAt b 0x08 4,
         lap := leAt b 0x0C 4, errCount := leAt b 0x10 4, errBase := leAt b 0x18 8, errLog2 := leAt b 0x20 1, nextFetch := leAt b 0x08 4,
         tail := leAt b 0x08 4, tailOut := false, tailAgain := false, tailValue := none, arrived := [], chain := none, broken := none,
         jobs := x.jobs.filter (fun j => !j.complete), gen := x.gen + 1, visits := 0, errSince := false })))) ∧
     (∀ (fn : BitVec 6) (q : BitVec 9) (s : State), (s.queue fn.toNat q.toNat).enabling = false ∨ s.live = false →
       exec (.qEnableCheck fn q) s = .next s)

/-- Q_DISABLE and its end (R203, R213, R217): an enabled queue reads no further slot and gives up what it had only prefetched; what
is fetched through TAIL stays, an open chain and the jobs too (log 45). While ENABLING the write is held. Once nothing is fetched or
on its way, running or unpublished, and every error record is counted, DISABLING ends. Q_CONFIG_WRITE (R215): registers of a queue
that does not run take their value; of one that runs, size and addresses are ignored with CONFIG_IGNORED, and weight and burst take
a legal value from the next round on. -/
def Obligations.QueueRegisterWrites : Prop :=
  (∀ (acc : Acc) (fn : BitVec 6) (q : BitVec 9) (value : Word) (s : State),
     let f := fn.toNat
     let x := s.queue f q.toNat
     (s.FuncAccess acc fn → x.present = true → x.enabled = true → x.enabling = false →
       let w := value.toNat
       ∃ t, exec (.qDisable acc fn q value) s = .next t ∧
         t.queue f q.toNat = { x with
           nextHeadNotify := w.testBit 2, nextErrNotify := w.testBit 3, nextVector := fld w 4 6,
           cfgIgnored := x.cfgIgnored || (fld w 10 6 != x.prefetch), enabled := false, disabling := true,
           arrived := x.arrived.filter (·.posted), tailOut := false, tailAgain := false, tailValue := none } ∧
         (∀ k, k ≠ qKey f q.toNat → tblGet? t.queues k = tblGet? s.queues k) ∧
         t.ports = ((s.dropQueueReads f q.toNat false).dropReqs (fun r => r.owner == .queueTail f q.toNat)).ports ∧
         t = State.accepted { s with queues := t.queues, ports := t.ports }) ∧
     (s.FuncAccess acc fn → x.present = true → x.enabling = true →
       ∃ t, exec (.qDisable acc fn q value) s = .next t ∧ (t.queue f q.toNat).heldDisable = true ∧ (t.queue f q.toNat).enabling = true ∧
         (t.queue f q.toNat).jobs = x.jobs ∧ t = State.accepted { s with queues := t.queues }) ∧
     (x.disabling = true → s.queueSettled f q.toNat = true → (s.func f).st ≠ .resetting → s.live = true →
       exec (.qDisableComplete fn q) s = .next (s.setQueue f q.toNat { x with disabling := false })) ∧
     (s.queueSettled f q.toNat = false → exec (.qDisableComplete fn q) s = .next s)) ∧
  (∀ (acc : Acc) (fn : BitVec 6) (q : BitVec 9) (value : Word) (s : State),
     let f := fn.toNat
     let x := s.queue f q.toNat
     let set := fun (y : Queue) => State.accepted (s.setQueue f q.toNat y)
     let w := value.toNat
     let run := fun (r : QReg) (t : State) => exec (.qConfigWrite acc fn q r value) s = .next t
     s.FuncAccess acc fn → x.present = true →
     run .baseLo (State.accepted (s.stage acc.origin (.func f) (0x8000 + 64 * q.toNat) w)) ∧
     run .indexLo (State.accepted (s.stage acc.origin (.func f) (0x8008 + 64 * q.toNat) w)) ∧
     (x.running = false →
       run .size (set { x with log2 := w % 32 }) ∧ run .weight (set { x with weight := w % 256, nextWeight := w % 256 }) ∧
       run .burst (set { x with burst := w % 128, nextBurst := w % 128 }) ∧
       run .baseHi (set { x with base := s.pairValue acc.origin (.func f) (0x8004 + 64 * q.toNat) w }) ∧
       run .indexHi (set { x with index := s.pairValue acc.origin (.func f) (0x800C + 64 * q.toNat) w })) ∧
     (x.running = true →
       run .size (set { x with cfgIgnored := true }) ∧ run .baseHi (set { x with cfgIgnored := true }) ∧
       run .indexHi (set { x with cfgIgnored := true }) ∧
       run .weight (set (if w % 256 = 0 then { x with cfgIgnored := true } else { x with nextWeight := w % 256 })) ∧
       run .burst (set (if w % 128 = 0 ∨ 64 < w % 128 then { x with cfgIgnored := true } else { x with nextBurst := w % 128 }))))

/-- DOORBELL (R179, R197): one TAIL read at a time of the named queue; a doorbell during it causes one more read after it. One to a
queue that is not enabled, or of a function that is not open, is counted as ignored; one to a queue the function does not have is
counted too, where no register shows it (log 48). TAIL_READ (R197 to R200): every posted slot not yet fetched is requested, in
order, and at most PREFETCH past TAIL more; reads of slots that were only prefetched are given up (log 49). A doorbell that came
meanwhile causes one more read of TAIL. -/
def Obligations.DoorbellsFetchPostedEntries : Prop :=
  (∀ (acc : Acc) (fn : BitVec 6) (value : Word) (s : State),
     let f := fn.toNat
     let q := value.toNat % 4096
     let x := s.queue f q
     (acc.origin = .frame ∨ (acc.origin = .function ∧ acc.fn = fn)) → f < s.caps.funcs → s.early = false → s.frame.st ≠ .fatal →
     (512 ≤ q ∨ x.present = false → exec (.doorbell acc fn value) s =
       .next (State.accepted (s.setFunc f { s.func f with lostBells := (s.func f).lostBells + 1 }))) ∧
     (q < 512 → x.present = true →
       let u := s.count 5 x.qid 2 1
       (x.enabled = false ∨ (s.func f).st ≠ .open_ → exec (.doorbell acc fn value) s = .next (State.accepted (u.count 5 x.qid 3 1))) ∧
       (x.enabled = true → (s.func f).st = .open_ →
         (x.tailOut = true → exec (.doorbell acc fn value) s = .next (State.accepted (u.setQueue f q { x with tailAgain := true }))) ∧
         (x.tailOut = false →
           ∃ t, exec (.doorbell acc fn value) s = .next t ∧ t.queue f q = { x with tailOut := true, tailValue := none } ∧
             (t.port 0).waiting = (s.port 0).waiting ++ [⟨.read, x.index, 1, f, false, 0, none, 0, 0, .queueTail f q, []⟩] ∧
             t = State.accepted { u with queues := t.queues, ports := t.ports })))) ∧
  (∀ (fn : BitVec 6) (q : BitVec 9) (extra : BitVec 6) (v : MemView) (s : State) (t : Nat),
     let f := fn.toNat
     let x := s.queue f q.toNat
     let ahead := (x.nextFetch + x.size - t) % x.size
     let n := if ahead ≤ x.pre then 0 else x.size - ahead
     let more := min (min extra.toNat (x.pre - if ahead ≤ x.pre then ahead else 0)) (x.size - 1 - (x.nextFetch + n + x.size - x.head) % x.size)
     let read := fun (posted : Bool) (slot : Nat) =>
       Req.mk .read (x.base + 64 * (slot % x.size)) 1 f false 0 none 0 0 (.queueEntry f q.toNat (slot % x.size) posted) []
     s.live = true → x.enabled = true → x.tailValue = some t → t < x.size →
     ∃ u, exec (.tailRead fn q extra v) s = .next u ∧
       u.queue f q.toNat = { x with
         tail := t, tailOut := x.tailAgain, tailAgain := false, tailValue := none, nextFetch := (x.nextFetch + n) % x.size,
         arrived := x.arrived.filter (·.posted) } ∧
       (u.port 0).waiting = (s.port 0).waiting.filter (fun r => match r.owner with
           | .queueEntry g p _ posted => !(g == f && p == q.toNat && !posted)
           | _ => true) ++ (List.range n).map (fun j => read true (x.nextFetch + j)) ++
         (List.range more).map (fun j => read false (x.nextFetch + n + j)) ++
         (if x.tailAgain then [⟨.read, x.index, 1, f, false, 0, none, 0, 0, .queueTail f q.toNat, []⟩] else []) ∧
       u = { s.seeMem v with queues := u.queues, ports := u.ports })

/-- ENTRY_FETCH (R194, R199, R202): the posted entry next in order, with the PHASE of its lap and no chain open, is a job by itself
when it is FIRST and LAST, and starts a chain when it is FIRST only. An entry not yet read waits. QUEUE_VISIT (R189, R190, R204,
R216): a queue with visits left in its round, whose turn it is (log 46), dispatches its next job: an NOP is complete at once, another
legal job is started. Each visit is counted. Out of its turn, or with its visits used up, it is not visited. JOB_COMPLETE_HEAD_PUBLISH
(R205 to R207, R211): HEAD passes every job that is complete with all before it, and the
index block's word is raised to it; a word that does not hold the old HEAD faults the queue. Until the addition has its issue slot
nothing happens; while the message has no room in its queue, HEAD stays where it was (log 4). Jobs of an enabling before a fault are not
HEAD's (log 130). -/
def Obligations.JobsFormRunAndPass : Prop :=
  (∀ (fn : BitVec 6) (q : BitVec 9) (v : MemView) (s : State) (slot : Nat),
     let f := fn.toNat
     let u := s.seeMem v
     let x := s.queue f q.toNat
     s.live = true → x.enabled = true →
     x.nearest (u.awaited f q.toNat true ++ (x.arrived.filter (·.posted)).map (·.slot)) = some slot →
     (x.arrived.find? (fun a => a.posted && a.slot == slot) = none → exec (.entryFetch fn q v) s = .next u) ∧
     (∀ a, x.arrived.find? (fun a => a.posted && a.slot == slot) = some a → a.poison = false → x.phaseOk slot a.bytes = true →
       x.chain = none → x.broken = none → (leAt a.bytes 0 4).testBit 8 = true →
       ((leAt a.bytes 0 4).testBit 9 = true → exec (.entryFetch fn q v) s = .next (u.setQueue f q.toNat { x with
         arrived := x.arrived.erase a, jobs := x.jobs ++ [mkJob x.gen slot (x.lapOf slot) (leAt a.bytes 0 1) [(slot, a.bytes)]] })) ∧
       ((leAt a.bytes 0 4).testBit 9 = false → exec (.entryFetch fn q v) s = .next (u.setQueue f q.toNat { x with
         arrived := x.arrived.erase a, chain := some ⟨slot, x.lapOf slot, leAt a.bytes 0 1, [(slot, a.bytes)]⟩ })))) ∧
  (∀ (fn : BitVec 6) (q : BitVec 9) (v : MemView) (s : State) (j : Job),
     let f := fn.toNat
     let u := s.seeMem v
     let x := s.queue f q.toNat
     s.live = true → (x.enabled = true ∨ x.disabling = true) → x.jobs = [j] → j.started = false → x.visits < x.weight → 1 ≤ x.burst → s.opcodeCheck x j.opcode = stOk →
     (u.visitDue x = false → exec (.queueVisit fn q v) s = .next u) ∧
     (u.visitDue x = true → j.opcode = 0 → exec (.queueVisit fn q v) s = .next (u.setQueue f q.toNat { x with
       visits := x.visits + 1, jobs := [{ j with started := true, complete := true, acted := j.total }] })) ∧
     (u.visitDue x = true → j.opcode ≠ 0 → (pairJob j.opcode = true → j.total = 2) →
       exec (.queueVisit fn q v) s = .next (u.setQueue f q.toNat { x with visits := x.visits + 1, jobs := [{ j with started := true }] }))) ∧
  (∀ (fn : BitVec 6) (q : BitVec 9) (v : MemView) (s : State),
     let f := fn.toNat
     let u := s.seeMem v
     let x := s.queue f q.toNat
     let js := x.passable
     let n := entryCount js
     let by_ := Party.control f
     let word := BitVec.ofNat 32 n
     s.live = true → x.fault = false → (x.enabled = true ∨ x.disabling = true) → js ≠ [] → 0 < n → x.head + n < x.size → x.size ≤ 2 ^ 31 →
     s.errorWaits f q.toNat = false → u.headAsked f q.toNat = none → u.OkayAt 0 (x.index + 8) 4 →
     (u.NoSlot by_ .fetchAdd (x.index + 8) 4 word [] → exec (.jobCompleteHeadPublish fn q v) s = .next u) ∧
     (u.HasSlot by_ .fetchAdd (x.index + 8) 4 word [] → leNat (memReadBytes u.mem (x.index + 8) 4) = x.head →
       let tells := x.headNotify = true ∨ ∃ j ∈ js, j.notify = true
       let room := s.notify.msgs.length < 256 ∨ ∃ m ∈ s.notify.msgs, m.fn = f ∧ m.vector = x.vector
       (tells → ¬ room →
         ∃ t, exec (.jobCompleteHeadPublish fn q v) s = .next t ∧ t = { u with mem := t.mem, ports := t.ports, tel := { u.tel with cnt := t.tel.cnt } }) ∧
       (¬ tells ∨ room →
         ∃ t, exec (.jobCompleteHeadPublish fn q v) s = .next t ∧
           t.queue f q.toNat = { x with
             head := x.head + n, lap := x.lap % 2 ^ 32, jobs := x.jobs.filter (fun j => x.old j && !j.complete) ++ x.own.drop js.length,
             errSince := (t.queue f q.toNat).errSince } ∧
           t.mem = memWriteBytes u.mem (x.index + 8) (natLe 4 ((x.head + n) % 2 ^ 32)) ∧ u.SamePorts t ∧
           (¬ tells → t.notify = s.notify ∧ (t.queue f q.toNat).errSince = x.errSince) ∧
           (tells → s.notify.msgs.length < 256 → t.notify = { s.notify with msgs := s.notify.msgs ++
             [⟨f, x.vector, BitVec.ofNat 32 ((x.head + n) % 65536 + q.toNat % 4096 * 65536 + b2n x.errSince * 2 ^ 28)⟩] }) ∧
           t = { u with
             mem := t.mem, ports := t.ports, queues := t.queues, tel := { u.tel with cnt := t.tel.cnt }, notify := t.notify })) ∧
     (u.HasSlot by_ .fetchAdd (x.index + 8) 4 word [] → leNat (memReadBytes u.mem (x.index + 8) 4) ≠ x.head →
       ∃ t, exec (.jobCompleteHeadPublish fn q v) s = .next t ∧ (t.queue f q.toNat).fault = true ∧
         (t.queue f q.toNat).faultCode = stMalformed ∧ (t.queue f q.toNat).enabled = false ∧ (t.queue f q.toNat).head = x.head))

/-- Every entry waits its turn (R189, R190, R204): one whose job is not dispatched, held back, of another opcode, or not running
data-plane work does nothing but see what memory holds; in WALK all but COPY complete with ACCESS_DENIED and no other effect but the
error record, which may be written later (log 4). -/
def Obligations.EntriesWaitTheirTurn : Prop :=
  ∀ (op : Nat) (fn : BitVec 6) (q : BitVec 9) (slot : BitVec 16) (v : MemView) (c : Instr) (s : State),
    let u := s.seeMem v
    entryCommand op fn q slot v = some c →
    (u.readyEntry op fn.toNat q.toNat slot.toNat = none → exec c s = .next u) ∧
    (∀ j e, u.readyEntry op fn.toNat q.toNat slot.toNat = some (j, e) → s.frame.st = .walk → op ≠ 1 →
      u.After (fun w => if op = 2 ∨ op = 12 then w.jobDone fn.toNat q.toNat j stAccessDenied 0
        else w.entryDone fn.toNat q.toNat j e stAccessDenied 0) (exec c s))

/-- COPY with MODE 0 (R204, R315): when every access is answered OKAY, the destination holds the bytes of the source, no other byte
of memory changes, and the entry is complete, once each access has its issue slot and its answer (log 4), at once while the ports
rest. The source and the destination lie in the 64-bit space, and do not overlap (R315). -/
def Obligations.CopyMovesEveryByte : Prop :=
  ∀ (fn : BitVec 6) (q : BitVec 9) (slot : BitVec 16) (v : MemView) (s : State) (j : Job) (e : Bytes),
    let u := s.seeMem v
    let src := leAt e 0x08 8
    let dst := leAt e 0x10 8
    let n := leAt e 0x18 8
    s.Canonical → s.Acts 0x01 fn q slot v j e → src % 64 = 0 → dst % 64 = 0 → n % 64 = 0 → n ≤ 2 ^ 40 → leAt e 0x20 1 = 0 →
    (dst + n ≤ src ∨ src + n ≤ dst) → src + n ≤ 2 ^ 64 → dst + n ≤ 2 ^ 64 → u.portUp 0 = true →
    (∀ a k, 0 < k → ((src ≤ a ∧ a + k ≤ src + n) ∨ (dst ≤ a ∧ a + k ≤ dst + n)) → u.answerAt a k = some .okay) →
    (∀ p ∈ u.ports, p.2.answers = []) →
    ∃ t : State, (exec (.copy fn q slot v) s = .next t ∨ u.Waits (exec (.copy fn q slot v) s)) ∧
      (u.PortsRest → exec (.copy fn q slot v) s = .next t) ∧
      memReadBytes t.mem dst n = memReadBytes u.mem src n ∧
      (∀ a, a < dst ∨ dst + n ≤ a → memRead t.mem a = memRead u.mem a) ∧
      t = { u.stepped fn.toNat q.toNat j with mem := t.mem, ports := t.ports, tel := { u.tel with cnt := t.tel.cnt } }

/-- STREAM_OPEN, SHARD_LIST and STREAM_CLOSE (R220, R222, R223, R236, R237, R307, R308, R310): an admitted stream is FILLING under
the lowest free index; a list that passes its checks is appended to its source; ABORT, and any close of a halted stream, leave it
FREE. A malformed STREAM_OPEN changes no stream. What an entry writes or reads waits for its issue slot (log 4). STREAM_RESUME
(R223, R236, R249, R253): a halted best-effort stream with nothing under way runs again, what it reported is forgotten, and its page
group is free; one that is not halted does not change. -/
def Obligations.StreamsOpenFillRunAgain : Prop :=
  (∀ (fn : BitVec 6) (q : BitVec 9) (slot : BitVec 16) (v : MemView) (s : State) (j : Job) (e : Bytes),
     let u := s.seeMem v
     let f := fn.toNat
     let i := leAt e 0x08 2
     let x := u.stream f i
     (s.Acts 0x02 fn q slot v j e →
       (∀ g gidx, u.openMalformed f e j.second = none → u.graph? (leAt e 0x0A 2) = some g →
         u.openDenied f g (leAt e 0x0C 1 == 1) (leAt e 0x24 4) (leAt e 0x28 8) = none → u.freeGidx = some gidx →
         exec (.streamOpen fn q slot v) s =
           .next ((u.openAt f i gidx (u.openedStream f e j.second g gidx)).jobFinished f q.toNat j) ∧
         (u.openedStream f e j.second g gidx).st = .filling ∧ (∀ p ∈ u.openStreams, p.2.2.gidx ≠ gidx) ∧
         (∀ h, h < gidx → ∃ p ∈ u.openStreams, p.2.2.gidx = h)) ∧
       (∀ d, u.openMalformed f e j.second = some d →
         u.After (fun w => w.jobDone f q.toNat j stMalformed d) (exec (.streamOpen fn q slot v) s) ∧
         ∀ t, exec (.streamOpen fn q slot v) s = .next t → t.streams = s.streams)) ∧
     (s.Acts 0x04 fn q slot v j e → ∀ gen, i ≤ 1023 → x.st ≠ .free → (u.graphOf x).direction = 0 →
       let n := leAt e 0x0C 4
       let addr := leAt e 0x10 8
       let ks := leAt e 0x18 2
       let data := memReadBytes u.mem addr (32 * n)
       let l := (List.range n).map (fun k => shardOf (bytesAt data (32 * k) 32) ks gen)
       0 < n → n ≤ 65536 → addr % 64 = 0 → u.OkayIn 0 addr (32 * n) → u.PortsRest → (∀ y ∈ l, y.bad = false) → x.finalSeen = false →
       ((ks = 0xFFFF ∧ gen = 0) ∨ (ks ≤ 1023 ∧ s.sec.armed ≠ some 4 ∧ u.inRange f ks = true ∧
         ∃ k, tblGet? s.sec.slots ks = some k ∧ k.fn = f ∧ k.keyType ≤ 1 ∧ k.gen = gen)) →
       ∃ t, exec (.shardList fn q slot v) s = .next t ∧
         t.stream f i = x.appendShards l ((leAt e 0x0A 1).testBit 0) ((leAt e 0x0A 1).testBit 1) (leAt e 0x1A 2) s.now ∧
         (∀ k, k ≠ sKey f i → tblGet? t.streams k = tblGet? s.streams k) ∧ u.SamePorts t ∧
         t = { u.stepped f q.toNat j with streams := t.streams, ports := t.ports, tel := { u.tel with cnt := t.tel.cnt } }) ∧
     (s.Acts 0x04 fn q slot v j e → i ≤ 1023 → x.st ≠ .free → (u.graphOf x).direction = 0 → 0 < leAt e 0x0C 4 → leAt e 0x0C 4 ≤ 65536 →
       leAt e 0x10 8 % 64 = 0 → u.portUp 0 = true →
       u.NoSlot (.control f) .read (leAt e 0x10 8) (min (32 * leAt e 0x0C 4) (4096 - leAt e 0x10 8 % 4096)) 0 [] →
       exec (.shardList fn q slot v) s = .next u) ∧
     (s.Acts 0x03 fn q slot v j e → i ≤ 1023 → x.st ≠ .free → (leAt e 0x0A 1 = 1 ∨ (leAt e 0x0A 1 = 0 ∧ x.st = .halted)) →
       ∃ t, exec (.streamClose fn q slot v) s = .next t ∧ t = (u.stepped f q.toNat j).abortStream f i ∧
         t.stream f i = { Stream.fresh with haltCode := x.haltCode } ∧
         t.sec = s.sec ∧ t.pins = s.pins ∧ t.pace = s.pace ∧ t.image.committed = s.image.committed)) ∧
  (∀ (fn : BitVec 6) (q : BitVec 9) (slot : BitVec 16) (v : MemView) (s : State) (j : Job) (e : Bytes),
     let u := s.seeMem v
     let f := fn.toNat
     let i := leAt e 0x08 2
     let x := u.stream f i
     s.Acts 0x0D fn q slot v j e → i ≤ 1023 →
     (x.st = .halted → x.restored = false → x.haltedFrom ≠ .draining → x.guaranteed = false → x.reading = none → x.xfer = none →
       x.ready = [] → x.openRows = [] → x.closedRows = [] → x.placed = [] → 1 ≤ x.batch → x.faultOpen = false → u.NoWork →
       (∀ k, ∀ h ∈ (u.bay k).held, h.2.tag.stream ≠ x.gidx) →
       (∀ k, k < s.nBays → hasBit (u.graphOf x).bays k = true → u.pinnedBad k = false) →
       ∃ t, exec (.streamResume fn q slot v) s = .next t ∧
         t.stream f i = { x with
           st := .filling, authCount := 0, faults := [], pagesToSend := [], pageGroup := 0, pageGroupHeld := false } ∧
         (x.pageGroupHeld = true → x.pageGroup ∉ (t.func f).pageGroups) ∧
         (∀ k, k ≠ sKey f i → tblGet? t.streams k = tblGet? s.streams k) ∧
         t = { u with
           streams := t.streams, funcs := t.funcs, queues := t.queues, pools := t.pools, tel := { u.tel with cnt := t.tel.cnt } }) ∧
     (x.st ≠ .halted →
       u.After (fun w => w.entryDone f q.toNat j e stMalformed 22) (exec (.streamResume fn q slot v) s) ∧
       ∀ t, exec (.streamResume fn q slot v) s = .next t → t.streams = s.streams))

/-- LOCK_GROUP, POOL_FILL and SNAPSHOT (R223, R238, R239, R272, R274, R543): streams that fit are bound; handles that fit the cache
join it; a snapshot at least 10 µs ahead is armed, and nothing else is. -/
def Obligations.GroupsHandlesAndSnapshots : Prop :=
  ∀ (fn : BitVec 6) (q : BitVec 9) (slot : BitVec 16) (v : MemView) (s : State) (j : Job) (e : Bytes),
    let u := s.seeMem v
    let f := fn.toNat
    (s.Acts 0x0E fn q slot v j e →
      let gn := leAt e 0x08 1
      let ms := groupMembers e
      let g := if (u.group gn).size = 0 then State.newGroup e (u.stream f (ms.headD 0)) else u.group gn
      gn ≤ 63 → 2 ≤ leAt e 0x09 1 → leAt e 0x09 1 ≤ 64 → leAt e 0x0A 1 ≤ 1 → 1 ≤ leAt e 0x0B 1 → leAt e 0x0B 1 ≤ 16 →
      (∀ i ∈ ms, i ≤ 1023 ∧ (u.stream f i).st ≠ .free ∧ (u.stream f i).grouped = true ∧ g.fits (u.stream f i) = true) →
      g.size = leAt e 0x09 1 → g.mode = leAt e 0x0A 1 → g.ticket = leAt e 0x0C 4 → ms.eraseDups.length = leAt e 0x0B 1 →
      g.members.length + leAt e 0x0B 1 ≤ g.size →
      ∃ t, exec (.lockGroup fn q slot v) s = .next t ∧ t.group gn = { g with members := g.members ++ ms.map (sKey f) } ∧
        (∀ i ∈ ms, t.stream f i = { u.stream f i with group := some gn, loose := false }) ∧
        t = { u.stepped f q.toNat j with groups := t.groups, streams := t.streams }) ∧
    (s.Acts 0x0A fn q slot v j e → ∀ p, u.poolNo f (leAt e 0x08 1) = some p →
      let n := leAt e 0x0C 4
      let addr := leAt e 0x10 8
      let x := u.pool p
      let hs := (List.range n).map (fun k => leAt (memReadBytes u.mem addr (8 * n)) (8 * k) 8)
      x.enabled = true → 0 < n → x.cache.length + n ≤ 48 → addr % 64 = 0 → u.OkayIn 0 addr (8 * n) → u.PortsRest →
      (∀ h ∈ hs, x.validHandle h = true) → x.free + n ≤ x.buffers →
      ∃ t, exec (.poolFill fn q slot v) s = .next t ∧ (t.pool p).cache = x.cache ++ hs ∧ (t.pool p).added = x.added + n ∧
        (t.pool p).enabled = true ∧ u.SamePorts t ∧
        t = { u.stepped f q.toNat j with pools := t.pools, ports := t.ports, tel := { u.tel with cnt := t.tel.cnt } }) ∧
    (s.Acts 0x0F fn q slot v j e →
      let n := if leAt e 0x08 8 = 0 then s.now + 10000 else leAt e 0x08 8
      (s.tel.pending = false → s.now + 10000 ≤ n → exec (.snapshot fn q slot v) s = .next ((u.armSnap n).stepped f q.toNat j)) ∧
      (s.tel.pending = true ∨ n < s.now + 10000 →
        u.After (fun w => if s.tel.pending then w.entryDone f q.toNat j e stAccessDenied 16 else w.entryDone f q.toNat j e stMalformed 16)
          (exec (.snapshot fn q slot v) s) ∧
        ∀ t, exec (.snapshot fn q slot v) s = .next t → t.tel = { s.tel with cnt := t.tel.cnt }))

/-- SAMPLE (R370 to R373): a buffer that the text engine of its document accepts joins the document's text state, and the entry is
complete; the first one of a document opens it. With the last one the token run leaves, and the entry waits for the delivery of the
sample (R189). The read has its issue slot: the ports rest (log 4). -/
def Obligations.SampleJoinsTheDocument : Prop :=
  ∀ (fn : BitVec 6) (q : BitVec 9) (slot : BitVec 16) (v : MemView) (s : State) (j : Job) (e : Bytes) (d : OpenDoc) (body : Bytes)
    (env : TextEnv) (y : TextState) (w : State),
    let u := s.seeMem v
    let f := fn.toNat
    let i := leAt e 0x08 2
    let x := u.stream f i
    let n := leAt e 0x0C 4
    let addr := leAt e 0x10 8
    let more := (leAt e 0x0B 1).testBit 0
    let o := if x.doc.isNone then u.start.docOpen f i (leAt e 0x0A 1) (leAt e 0x18 1) else u.start
    let x' := o.stream f i
    let by_ := o.sampleParty f x' d.index
    let r := (o.sysRead by_ addr n).2.2
    s.Acts 0x05 fn q slot v j e → i ≤ 1023 → (x.st = .filling ∨ x.st = .running) → u.bindsEngine x.graph 0x0401 = true →
    (u.graphOf x).direction = 0 → (x.doc = none → u.docMayStart f x = true) → x'.doc = some d → d.rejected = none →
    u.bayRuns d.bay = true → u.bayProfile x.graph d.bay 0x0401 = some body → (leAt e 0x0A 1 ≤ 15 ∨ leAt e 0x0A 1 = 0xFF) → 0 < n →
    n ≤ leAt body 0x50 4 → u.OkayIn by_.port addr n → u.PortsRest →
    r.textBuffer ⟨f, i, d.bay, r.sampleBatch x' d.index⟩ body d.vocab d.kind (some d.text) (memReadBytes u.mem addr n) (!more) =
      (.ok (env, y), w) → w.running.miss = none →
    (more = true →
      exec (.sample fn q slot v) s = .next { (w.modStream f i (fun x => { x with doc := some { d with text := y } })).stepped f q.toNat j with
        running := s.running }) ∧
    (more = false →
      let t := ((((w.sendRun d.bay body (x'.docTag d) (y.out env)).modStream f i (fun x => { x with doc := none })).entryWaits f q.toNat j (sKey f i)
        (some (x'.docLogical d))).pump f i)
      t.running.miss = none → exec (.sample fn q slot v) s = .next { t with running := s.running })

/-- GATHER and SCATTER (R413, R415, R418, R421 to R423): a transfer whose descriptors, list and owner tables pass their checks is
complete where memory answers OKAY and the ports rest; so is one under way with no block stopped; a block whose destination lies outside
the grid is dropped and counted, its row bytes written nowhere. RETURN_LOGITS (R441 to R443, R451): with every row done the entry is
complete. RETURN_WRITE (R458 to R465): with every write of the shard done it is complete, with SAMPLE_OVER_BOUND and the item's number
where an item did not fit (R463); what it held is released. -/
def Obligations.TransfersAndReturnsFinish : Prop :=
  (∀ (gather : Bool) (fn : BitVec 6) (q : BitVec 9) (slot : BitVec 16) (v : MemView) (s : State) (j : Job) (e : Bytes),
     let u := s.seeMem v
     let f := fn.toNat
     let i := leAt e 0x08 2
     let x := u.stream f i
     let by_ := u.party f x x.delivered
     let start := leAt e 0x28 8
     let count := leAt e 0x0C 4
     let c := if gather then Instr.gather fn q slot v else Instr.scatter fn q slot v
     s.Acts (if gather then 0x06 else 0x07) fn q slot v j e → i ≤ 1023 → x.st ≠ .free → x.st ≠ .halted → (u.packBody x.graph).isSome = true →
     (let src := memReadBytes u.mem (leAt e 0x10 8) 128
      let dst := memReadBytes u.mem (leAt e 0x18 8) 128
      let owners := fun d => memReadBytes u.mem (ownerSpan d).1 (ownerSpan d).2
      j.progress = none → u.PortsRest → u.resp = [] → u.portUp by_.port = true → leAt e 0x10 8 % 64 = 0 → leAt e 0x18 8 % 64 = 0 →
      descValid src = true → descValid dst = true → descSource src = true → descDest dst = true → descElem src = descElem dst →
      descRows src = descRows dst → 0 < count → count ≤ 2 ^ 24 → leAt e 0x20 8 % 64 = 0 →
      (∀ d ∈ [src, dst], descOwners d ≤ 4096 ∧ (0 < descOwners d → (ownerSpan d).1 % 64 = 0) ∧
        ownersValid u.meet (ownerEntries (owners d) (descOwners d)) = true) →
      ∃ t, exec c s = .next t ∧ (∀ g p, t.queue g p = (u.stepped f q.toNat j).queue g p) ∧
        t = { u with mem := t.mem, ports := t.ports, banks := t.banks, funcs := t.funcs, queues := t.queues, tel := { u.tel with cnt := t.tel.cnt } }) ∧
     (∀ p, j.progress = some p → p.held.length ≠ 3 →
       let src := p.held.getD 0 []
       let dst := p.held.getD 1 []
       let list := p.held.getD 2 []
       let ends := fun k =>
         if gather then (listCoords src list k, linearCoords dst (start + k)) else (linearCoords src (start + k), listCoords dst list k)
       (∀ k w, (u.start.streamWorks x.gidx).moveBlocks by_ f x.self src dst (p.held.getD 3 []) (p.held.getD 4 []) ends
           (count - p.done) p.done none = (k, none, w) → w.running.miss = none →
         exec c s = .next { w.stepped f q.toNat j with running := s.running } ∧ k = p.done + (count - p.done)) ∧
       (count = p.done + 1 → (ends p.done).2 = none →
         exec c s = .next (((u.streamWorks x.gidx).oobDrop f).stepped f q.toNat j)))) ∧
  (∀ (fn : BitVec 6) (q : BitVec 9) (slot : BitVec 16) (v : MemView) (s : State) (j : Job) (e : Bytes) (bay : Nat) (body : Bytes),
     let u := s.seeMem v
     let f := fn.toNat
     let i := leAt e 0x08 2
     let x := u.stream f i
     let n := leAt e 0x0C 4
     let by_ := u.party f x x.delivered
     i ≤ 1023 → x.st ≠ .free → x.st ≠ .halted → (u.graphOf x).direction = 1 → u.stageWaits f x = false → u.bayRuns bay = true →
     (∀ reqs tables a b w k, s.Acts 0x08 fn q slot v j e →
       let p := j.progress.getD ⟨0, [], [], none, .fresh 0⟩
       u.returnText x.graph = some (bay, body) → logitsBad body e = false →
       u.start.readSpan by_ (spanFuel (4 * n)) (leAt e 0x28 8) (4 * n) = (.ok reqs, a) →
       ((List.range n).map (fun k => leAt reqs (4 * k) 4)).eraseDups.length = n →
       a.returnTables ⟨f, i, bay, x.delivered⟩ body (leAt e 0x0B 1) = (some tables, b) →
       b.returnRows ⟨⟨f, i, bay, x.delivered⟩, by_, tables.1, tables.2, leAt body 0x80 1, e, reqs⟩ (n - p.done) p.done p.bad = (k, none, none, w) →
       w.running.miss = none → exec (.returnLogits fn q slot v) s = .next { w.stepped f q.toNat j with running := s.running }) ∧
     (∀ raw key p p' a b c d g, s.Acts 0x09 fn q slot v j e →
       let items := (List.range n).map (fun k => itemOf (bytesAt raw (16 * k) 16))
       let (encBay, enc) := (u.profileOf x.graph 0x0302).getD (0, [])
       let seals := (leAt e 0x0A 1).testBit 0
       let w : WriteJob := ⟨by_, f, i, x.seed, x.epoch, e, key, bay, body, encBay, enc, items, p.salt⟩
       (u.packBody x.graph).isSome = true → u.intakeBay? x.graph = some (bay, body) → writeBad e = false →
       (seals = true → s.sec.selftestBusy = false) → u.start.readSpan by_ (spanFuel (16 * n)) (leAt e 0x10 8) (16 * n) = (.ok raw, a) →
       (w.encodes = true → a.bindsEngine x.graph 0x0302 = true ∧ a.bayRuns encBay = true) →
       ((j.progress = some p ∧ b = a) ∨
        (j.progress = none ∧ seals = false ∧ inRequireEnc body = false ∧ items.any OutItem.bad = false ∧
         b = a.modStream f i (fun y => { y with items := y.items + n }) ∧
         p = ⟨0, zeros 8, [natLe 8 0], none, .fresh (a.stream f i).items⟩)) →
       (seals = false → key = none ∧ c = b) →
       (seals = true → ∃ r, key = some r ∧ b.boundKey f (leAt e 0x28 2) (leNat (p.held.getD 0 [])) = (.ok r, c)) →
       (if w.encodes then c.holdBuffers f i (encPool enc) (encHold p.shard.base) (c.encBuffers f enc) else (true, c)) = (true, d) →
       d.shardRun w p = (none, p', g) →
       let y := g.releaseShard w p'.shard.base
       let t := if p'.shard.past = none then y.stepped f q.toNat j else y.entryDone f q.toNat j e stOverBound (p'.shard.past.getD 0)
       t.running.miss = none → exec (.returnWrite fn q slot v) s = .next { t with running := s.running }))

/-- CONTEXT_SAVE and CONTEXT_RESTORE (R476 to R483): a stream that needs no spill has its 512 bytes of context written, and only
those, once the write has its issue slot (log 4); a context and spill that pass every check make a stream HALTED with HALT_CODE OK under
a free index. -/
def Obligations.ContextsMoveStreams : Prop :=
  ∀ (fn : BitVec 6) (q : BitVec 9) (slot : BitVec 16) (v : MemView) (s : State) (j : Job) (e : Bytes),
    let u := s.seeMem v
    let f := fn.toNat
    let i := leAt e 0x08 2
    let x := u.stream f i
    let addr := leAt e 0x10 8
    (s.Acts 0x0B fn q slot v j e → i ≤ 1023 → x.st ≠ .free → addr % 64 = 0 → leAt e 0x18 8 % 4096 = 0 → leAt e 0x20 8 % 4096 = 0 →
      u.needsSpill x = false → u.movingEntry f i = false → u.OkayIn 0 addr 512 →
      let ctx := u.contextBytes x 0
      ctx.length = 512 ∧
      (addr % 4096 ≤ 3584 → u.NoSlot (.control f) .write addr 512 0 ctx → exec (.contextSave fn q slot v) s = .next u) ∧
      (u.PortsRest ∨ (addr % 4096 ≤ 3584 ∧ u.HasSlot (.control f) .write addr 512 0 ctx) →
        ∃ t, exec (.contextSave fn q slot v) s = .next t ∧ t.mem = memWriteBytes u.mem addr ctx ∧ u.SamePorts t ∧
          t = { u.stepped f q.toNat j with mem := t.mem, ports := t.ports, tel := { u.tel with cnt := t.tel.cnt } })) ∧
    (s.Acts 0x0C fn q slot v j e → u.OkayIn 0 addr 512 → u.PortsRest → ∀ g gidx spill w,
      let r := (u.start.sysRead (.control f) addr 512).2.2
      let ctx := memReadBytes u.mem addr 512
      let units := leAt ctx 0x6C 4
      r.restoreMalformed f e j.second ctx = none → r.graph? (leAt e 0x0A 2) = some g → ctxGood ctx = true →
      r.readSpan (.control f) (spanFuel (units * 4096)) (leAt e 0x18 8) (units * 4096) = (.ok spill, w) → (0 < units → spillGood spill = true) →
      w.ctxFits ctx = true → bytesAt ctx 8 32 = bytesAt (tblGetD w.image.graphDigests g.num []) 0 32 →
      w.restoreDenied g (leAt e 0x0C 1 == 1) (leAt ctx 0x4C 4) (leAt e 0x20 8) = none → w.freeGidx = some gidx →
      let y := w.restoredStream e j.second ctx spill g gidx
      let t := State.jobFinished f q.toNat j (State.openAt f i gidx y { w with genCtr := w.genCtr + 1 })
      (t.running.miss = none → exec (.contextRestore fn q slot v) s = .next { t with running := s.running }) ∧
      y.st = .halted ∧ y.haltCode = stOk ∧ y.gidx = gidx ∧ y.delivered = y.nextBatch)

/-- BANK_OWNER_WRITE (R262, R263, R265): a legal new owner is requested, the present owner cancels a request, anything else is
refused; a write for a bank of a fenced bay is answered with an error (R560). BANK_HANDOVER and BANK_CLEAR_DONE (R261, R262, R264):
while the baton is out nothing passes; once it is back the requested owner has the bank, and a bank that leaves a stream for
anything but the same function is cleared. The end of a clear leaves zeros. A handover that an image commit asked for brings the bank
its pinned tables (R104; log 26). -/
def Obligations.BanksChangeHands : Prop :=
  (∀ (acc : Acc) (b : BitVec 12) (value : Word) (s : State),
     let n := b.toNat
     let x := s.bank n
     let kind := value.toNat % 8
     let index := value.toNat / 16 % 1024
     let legal := s.frame.st = .running ∧ (((kind = 0 ∨ kind = 4) ∧ index = 0) ∨
       (kind = 1 ∧ ∃ c, s.image.committed = some c ∧ ∃ e ∈ c.binds, e.bay = n / 48 ∧ e.slot = index) ∨
       (kind = 2 ∧ ∃ f i y, s.byGidx index = some (f, i, y) ∧ hasBit (s.graphOf y).bays (n / 48) = true))
     s.FrameAccess acc → n < 3072 → s.bankPresent n = true →
     (s.fenced (n / 48) = false → legal → x.kind = kind → x.index = index →
       exec (.bankOwnerWrite acc b value) s = .next (State.accepted (s.setBank n { x with pending := none }))) ∧
     (s.fenced (n / 48) = false → legal → ¬ (x.kind = kind ∧ x.index = index) →
       exec (.bankOwnerWrite acc b value) s =
         .next (State.accepted (s.setBank n { x with pending := some ⟨kind, index, value.toNat.testBit 3, false⟩ }))) ∧
     (s.fenced (n / 48) = false → ¬ legal →
       exec (.bankOwnerWrite acc b value) s = .next (State.accepted (s.setBank n { x with refused := true }))) ∧
     (s.fenced (n / 48) = true →
       exec (.bankOwnerWrite acc b value) s = .next ((s.setBank n { x with refused := true }).answer 0 true))) ∧
  (∀ (b : BitVec 12) (s : State),
     let n := b.toNat
     let x := s.bank n
     (s.batonOut n = true ∨ x.pending = none → exec (.bankHandover b) s = .next s) ∧
     (∀ r, x.pending = some r → x.clearing = false → s.batonOut n = false → s.fenced (n / 48) = false → s.frame.st ≠ .fatal →
       ∃ y t, exec (.bankHandover b) s = .next t ∧ t = { s with banks := t.banks, bankWords := t.bankWords } ∧ t.bank n = y ∧
         (∀ m, m ≠ n → t.bank m = s.bank m) ∧
         y = { x with kind := r.kind, index := r.index, pending := none, ownerFn := y.ownerFn, clearing := y.clearing, loaded := r.load } ∧
         (r.clear = true → y.clearing = true) ∧ (x.kind = 2 → r.kind ≠ 2 → y.clearing = true) ∧
         (x.kind = 2 → ∀ f i z, r.kind = 2 → s.byGidx r.index = some (f, i, z) → f ≠ x.ownerFn → y.clearing = true) ∧
         (r.clear = false → x.kind ≠ 2 → y.clearing = false) ∧ (∀ f i z, r.kind = 2 → s.byGidx r.index = some (f, i, z) → y.ownerFn = f) ∧
         (y.clearing = true ∨ r.load = false → t.bankWords = s.bankWords) ∧
         (y.clearing = false → r.load = true → ∀ w, w < (s.pinSpan n).2 → tblGet? t.bankWords (wordKey n w) = some (wordOf (bytesAt (s.slotPins (n / 48) (s.planOf n).2) (64 * ((s.pinSpan n).1 + w)) 64)))) ∧
     (x.clearing = true →
       ∃ t, exec (.bankClearDone b) s = .next t ∧ t.bank n = { x with clearing := false, zeroed := true } ∧
         (∀ m, m ≠ n → t.bank m = s.bank m) ∧ (∀ k, k / 4096 ≠ n → tblGet? t.bankWords k = tblGet? s.bankWords k) ∧
         (∀ w, w < 4096 → x.loaded = false ∨ (s.pinSpan n).2 ≤ w → (t.word n w).1 = zeroWord) ∧
         (x.loaded = true → ∀ w, w < (s.pinSpan n).2 → tblGet? t.bankWords (wordKey n w) = some (wordOf (bytesAt (s.slotPins (n / 48) (s.planOf n).2) (64 * ((s.pinSpan n).1 + w)) 64))) ∧
         t = { s with banks := t.banks, bankWords := t.bankWords }) ∧
     (x.clearing = false → exec (.bankClearDone b) s = .next s))

/-- SCRUB_READ (R56, R257 to R259): the scrubber goes to the next word; a word with wrong symbols that can be corrected is written
back, and the symbols are counted; an uncorrectable word stays, is noted and logged, and in a pinned table halts the streams of its
bay. No scrubbing in PARK, in a fence or under the march engine. Of each codeword any one wrong symbol is corrected (R56).
MARCH_START and MARCH_DONE (R266 to R269): a march runs on a bank that the march engine owns, and on no other; every read of a
destructive march compares with what the march last wrote to that word; its end reports the bank, a destructive one leaves zeros, a
preserving one what the bank held, and a failing bank's bay is fenced. -/
def Obligations.BanksAreScrubbedAndMarched : Prop :=
  ((∀ (b : BitVec 12) (upset : BitVec 576) (s : State),
     let n := b.toNat
     let k := n / 48
     let x := s.bank n
     let y := { x with scrub := (x.scrub + 1) % 4096 }
     let u := ((s.setBank n y).word n x.scrub).2
     let w := ofRaw (rawOf ((s.setBank n y).word n x.scrub).1 ^^^ upset)
     let c := Instr.scrubRead b upset
     (s.bankPresent n = true → x.kind ≠ 4 → ((s.bay k).pstate = .run ∨ (s.bay k).pstate = .doze) →
       (∀ r, readWord w = some (r, 0) → exec c s = .next u) ∧
       (∀ r m, readWord w = some (r, m + 1) →
         ∃ t, exec c s = .next t ∧ t.bank n = { y with corr := satAdd 255 x.corr (m + 1) } ∧
           tblGet? t.bankWords (wordKey n x.scrub) = some r ∧
           tblGetD t.tel.cnt (cntKey 2 k 3) 0 = (tblGetD s.tel.cnt (cntKey 2 k 3) 0 + (m + 1)) % 2 ^ 64 ∧
           (∀ j, j ≠ n → t.bank j = s.bank j) ∧
           t = { u with banks := t.banks, bankWords := t.bankWords, tel := { s.tel with cnt := t.tel.cnt } }) ∧
       (readWord w = none →
         ∃ t : State, exec c s = .next (if s.pinnedWord n x.scrub then (t.haltBayStreams k).relays else t) ∧
           t.bank n = { y with uncorr := true } ∧ tblGet? t.bankWords (wordKey n x.scrub) = some w ∧
           tblGetD t.tel.cnt (cntKey 2 k 4) 0 = (tblGetD s.tel.cnt (cntKey 2 k 4) 0 + 1) % 2 ^ 64 ∧ (∀ j, j ≠ n → t.bank j = s.bank j) ∧
           (∀ f i, i < 1024 → (s.stream f i).st ≠ .free → hasBit (s.graphOf (s.stream f i)).bays k = true →
             ((t.haltBayStreams k).stream f i).st = .halted) ∧
           t = { u with
             banks := t.banks, bankWords := t.bankWords, tel := { s.tel with cnt := t.tel.cnt }, frameLog := t.frameLog,
             units := t.units })) ∧
     (x.kind = 4 ∨ (s.bay k).pstate = .park ∨ (s.bay k).pstate = .fenced → exec c s = .next s)) ∧
   (∀ (d : BitVec 128) (j : Nat) (e : BitVec 4), e ≠ 0 →
     (j < 32 → Codeword.read ⟨d ^^^ (e.setWidth 128 <<< (4 * j)), eccCheck d⟩ = some (codewordOf d, 1)) ∧
     (j < 4 → Codeword.read ⟨d, eccCheck d ^^^ (e.setWidth 16 <<< (4 * j))⟩ = some (codewordOf d, 1)))) ∧
  ((∀ (acc : Acc) (value : Word) (s : State), s.FrameAccess acc →
     let mode := value.toNat.testBit 1
     let b := value.toNat / 16 % 4096
     (s.bankPresent b = true → (s.bank b).kind = 4 → s.march.busy = false → s.fenced (b / 48) = false →
       exec (.marchStart acc value) s = .next (State.accepted { s with
         march := { s.march with mode := mode, bank := b, busy := true, whole := false, runBank := b, runMode := mode } })) ∧
     (s.bankPresent b = false ∨ (s.bank b).kind ≠ 4 ∨ s.march.busy = true ∨ s.fenced (b / 48) = true →
       exec (.marchStart acc value) s = .next (State.accepted { s with march := { s.march with mode := mode, bank := b, refused := true } }))) ∧
   (∀ (n a : Nat) (want : BitVec 576), n < 163840 → marchOp n = .read a want →
     ∃ m, m < n ∧ marchOp m = .write a want ∧ ∀ k, m < k → k < n → ∀ v, marchOp k ≠ .write a v) ∧
   (∀ (reads : List MarchRead) (s : State), s.frame.st ≠ .selfTest →
     let b := s.march.runBank
     let ends := fun (bad : Bool) => { s.march with busy := false, done := true, fail := bad, stBank := b }
     (s.march.busy = true → s.march.whole = false → s.march.runMode = false → b ∉ marchFailing reads →
       ∃ t, exec (.marchDone reads) s = .next t ∧ t.march = ends false ∧ t.bank b = { s.bank b with marchFail := false, zeroed := true, loaded := false } ∧
         (∀ w, w < 4096 → (t.word b w).1 = zeroWord) ∧ (∀ m, m ≠ b → t.bank m = s.bank m) ∧
         t = { s with march := t.march, banks := t.banks, bankWords := t.bankWords }) ∧
     (s.march.busy = true → s.march.whole = false → s.march.runMode = true → (s.marchKeeps b reads).1 = false →
       ∃ t, exec (.marchDone reads) s = .next t ∧ t.march = ends false ∧ t.bank b = { s.bank b with marchFail := false } ∧
         (∀ m, m ≠ b → t.bank m = s.bank m) ∧
         ((∀ r ∈ reads, r.bank.toNat ≠ b) → t.bankWords = s.bankWords ∧ t.freeCtr = s.freeCtr) ∧
         t = { s with march := t.march, banks := t.banks, bankWords := t.bankWords, freeCtr := t.freeCtr }) ∧
     (s.march.busy = true → s.march.whole = false → b / 48 < s.nBays →
       (if s.march.runMode then (s.marchKeeps b reads).1 = true else b ∈ marchFailing reads) →
       ∃ t, exec (.marchDone reads) s = .next t ∧ t.march = ends true ∧ t.fenced (b / 48) = true ∧ t.frame.marchFail = true) ∧
     (s.march.busy = true → s.march.whole = true → (∀ b ∈ s.reachableBanks, b ∉ marchFailing reads) →
       ∃ t, exec (.marchDone reads) s = .next t ∧ t.march.busy = false ∧ t.march.done = true ∧ t.march.fail = false ∧ t.march.failCount = 0 ∧
         t.pins = { s.pins with marchDone := true, marchFail := false } ∧
         (∀ b ∈ s.reachableBanks, (t.bank b).zeroed = true ∧ (t.bank b).marchFail = false ∧ (t.bank b).uncorr = false) ∧ t.bays = s.bays) ∧
     (s.march.busy = false → exec (.marchDone reads) s = .next s)))

/-- POOL_MAP_WRITE, POOL_ENABLE and POOL_DISABLE (R270, R271, R278): a pool is mapped while it is not enabled and its local number
is free; enabling reads the pool block and checks it; a pool that an open stream's graph names stays enabled; disabling writes the
cached handles to the ring. Accesses wait for their issue slots (log 4). -/
def Obligations.PoolsMapAndEnable : Prop :=
  (∀ (acc : Acc) (p : BitVec 8) (value : Word) (s : State), s.FrameAccess acc →
    let w := value.toNat
    let taken := w.testBit 6 = true ∧ ∃ q ∈ s.pools, q.1 ≠ p.toNat ∧ q.2.assigned = true ∧ q.2.fn = w % 64 ∧ q.2.localNo = w / 256 % 256
    ((s.pool p.toNat).enabled = false → ¬ taken → exec (.poolMapWrite acc p value) s = .next (State.accepted
      (s.setPool p.toNat { s.pool p.toNat with fn := w % 64, assigned := w.testBit 6, localNo := w / 256 % 256 }))) ∧
    ((s.pool p.toNat).enabled = true ∨ taken → exec (.poolMapWrite acc p value) s = .next s.accepted)) ∧
  (∀ (acc : Acc) (fn : BitVec 6) (i : BitVec 8) (value : Word) (v : MemView) (s : State) (p : Nat),
    let u := s.seeMem v
    let x := s.pool p
    let named := ∃ y ∈ s.openStreams, y.1 = x.fn ∧ s.namesPool y.2.2.graph x.localNo = true
    s.FuncAccess acc fn → s.poolNo fn.toNat i.toNat = some p →
    (value.toNat.testBit 1 = false → x.enabled = false → (s.func x.fn).st = .open_ → x.block % 64 = 0 → u.OkayAt 0 x.block 64 →
      u.HasSlot (.control x.fn) .read x.block 64 0 [] →
      (∀ y, x.readBlock (memReadBytes u.mem x.block 64) = some y →
        ∃ t, exec (.poolEnable acc fn i value v) s = .next t ∧ t.pool p = { y with stallSince := s.now } ∧ y.enabled = true ∧ y.cache = [] ∧
          (∀ q, q ≠ p → t.pool q = s.pool q) ∧ u.SamePorts t ∧
          t = State.accepted { u with pools := t.pools, ports := t.ports, tel := { u.tel with cnt := t.tel.cnt } }) ∧
      (x.readBlock (memReadBytes u.mem x.block 64) = none →
        ∃ t, exec (.poolEnable acc fn i value v) s = .next t ∧ t.pool p = { x with refused := true } ∧ u.SamePorts t ∧
          t = State.accepted { u with pools := t.pools, ports := t.ports, tel := { u.tel with cnt := t.tel.cnt } })) ∧
    (value.toNat.testBit 1 = false → x.enabled = false → ((s.func x.fn).st ≠ .open_ ∨ x.block % 64 ≠ 0) →
      exec (.poolEnable acc fn i value v) s = .next (State.accepted (u.setPool p { x with refused := true }))) ∧
    (named → exec (.poolDisable acc fn i value v) s = .next (State.accepted (u.setPool p { x with refused := true }))) ∧
    (¬ named → x.enabled = true →
      u.After (fun w => ((((w.spillHandles p x.cache.length).modPool p (fun y => { y with enabled := false })).watchPools).accepted))
        (exec (.poolDisable acc fn i value v) s)) ∧
    (¬ named → x.enabled = true → x.cache = [] →
      ∃ t, exec (.poolDisable acc fn i value v) s = .next t ∧ (t.pool p).enabled = false ∧
        t = State.accepted { u with pools := t.pools, tel := { u.tel with cnt := t.tel.cnt } }))

/-- Pool buffers (R274 to R277, R279): an allocation takes the first free handle when its stream may have one, and waits when there
is none; the oldest waiting allocation is granted first; an unshared buffer that its holder releases is free again. Further holders
of a buffer are added to its reference count, all holders the first time, and each of them that releases it takes one off, the last one
freeing it (R276). The handle cache (R273; log 3): below 16 handles it takes 32 from the head of the ring, above 48, also at a release, it
gives its oldest 32 to the tail, eight to a granule; between them it is left alone. Accesses wait for their issue slots (log 4).
POOL_WATCHDOG_FIRE (R280, R281): nothing before the stall time is over; then the chosen
holder is pre-empted in AGENEL mode: its position goes back, PREEMPTED is set and the watchdog times anew. Without a holder to
pre-empt only the time starts anew. -/
def Obligations.PoolBuffersComeAndGo : Prop :=
  (∀ (fn : BitVec 6) (i : BitVec 8) (s : State) (p : Nat), s.live = true → s.poolNo fn.toNat i.toNat = some p →
     let f := fn.toNat
     let y := s.pool p
     y.enabled = true → y.fault = false →
     (∀ (stream : BitVec 10), let k := stream.toNat
       let x := s.stream f k
       x.st ≠ .free → x.st ≠ .halted →
       (∀ h hs, y.waits = [] → y.cache = h :: hs → (s.frame.openMode = true ∨ y.heldBy (sKey f k) < s.reservation x.graph y.localNo) →
         ∃ t, exec (.poolAllocate fn i stream none) s = .next t ∧ t = { s with pools := t.pools, tel := { s.tel with cnt := t.tel.cnt } } ∧
           t.pool p = { y with
             waits := [], cache := hs, holders := y.holders ++ [⟨h, [(sKey f k, x.position)], false⟩], stallSince := s.now,
             stalled := false }) ∧
       (y.waits = [] → y.cache = [] →
         ∃ t, exec (.poolAllocate fn i stream none) s = .next t ∧ t = { s with pools := t.pools, tel := { s.tel with cnt := t.tel.cnt } } ∧
           (t.pool p).waits = [⟨sKey f k, x.position, s.now⟩] ∧ (t.pool p).cache = [] ∧ (t.pool p).holders = y.holders) ∧
       (∀ (handle : BitVec 64) (others : List (BitVec 10)) (h : Holder) (a : Nat × Nat) (l : List (Nat × Nat)),
         y.holders.find? (fun z => z.handle == handle.toNat) = some h →
         let asked := k :: (others.map (·.toNat)).filter (fun j => (s.stream f j).st != .free && (s.stream f j).st != .halted)
         (((asked.map (sKey f)).filter (fun g => !h.streams.contains g)).eraseDups.map
           (fun g => (g, (s.stream (g / 1024) (g % 1024)).position))) = a :: l →
         let n := if h.shared then l.length + 1 else h.users.length + l.length + 1
         let addr := y.refs + 4 * y.slotOf handle.toNat
         let old := leNat (memReadBytes s.mem addr 4)
         h.users.length + l.length + 1 ≤ 65535 → s.OkayAt 0 addr 4 → s.HasSlot (s.keyParty a.1 a.2) .fetchAdd addr 4 (BitVec.ofNat 32 n) [] → old + n ≤ 0xFFFF →
         ∃ t, exec (.poolAllocate fn i stream (some (handle, others))) s = .next t ∧ t.mem = memWriteBytes s.mem addr (natLe 4 ((old + n) % 2 ^ 32)) ∧
           (t.pool p).holders = y.holders.map (fun z => if z.handle = handle.toNat then { z with users := z.users ++ a :: l, shared := true } else z) ∧
           (t.pool p).cache = y.cache ∧ s.SamePorts t ∧
           t = { s with mem := t.mem, ports := t.ports, pools := t.pools, tel := { s.tel with cnt := t.tel.cnt } })) ∧
     (∀ w ws h hs, y.waits = w :: ws → y.cache = h :: hs →
       (s.frame.openMode = true ∨ y.heldBy w.stream < s.reservation (s.stream (w.stream / 1024) (w.stream % 1024)).graph y.localNo) →
       (∀ k, k < s.nBays → s.bayKind k = 3 → (s.bay k).held = []) →
       ∃ t, exec (.poolGrant fn i) s = .next t ∧ t = { s with pools := t.pools, tel := { s.tel with cnt := t.tel.cnt } } ∧
         (t.pool p).waits = ws ∧ (t.pool p).cache = hs ∧ (t.pool p).holders = y.holders ++ [⟨h, [(w.stream, w.sampleIx)], false⟩]) ∧
     (y.waits = [] ∨ y.cache = [] → exec (.poolGrant fn i) s = .next s) ∧
     (∀ (stream : BitVec 10) (handle : BitVec 64) (v : MemView) (h : Holder), let key := sKey f stream.toNat
       let u := s.seeMem v
       let c := Instr.poolRelease fn i stream handle v
       y.holders.find? (fun z => z.handle == handle.toNat && z.streams.contains key) = some h →
       (h.shared = false → y.cache.length < 48 ∨ (u.PortsRest ∧
           ∀ k, k < 4 → u.OkayIn 0 (y.ring + 8 * ((y.ringHead + y.ringCount + 8 * k) % 2 ^ y.log2Ring)) 64) →
         ∃ t, exec c s = .next t ∧ t = { u with mem := t.mem, ports := t.ports, pools := t.pools, tel := { s.tel with cnt := t.tel.cnt } } ∧
           (t.pool p).holders = y.holders.filter (fun z => z.handle != handle.toNat) ∧ (t.pool p).waits = y.waits ∧
           (y.cache.length < 48 → (t.pool p).cache = y.cache ++ [handle.toNat] ∧ t.mem = u.mem ∧ t.ports = u.ports) ∧
           (48 ≤ y.cache.length →
             (t.pool p).cache = (y.cache ++ [handle.toNat]).drop 32 ∧ (t.pool p).ringCount = y.ringCount + 32)) ∧
       (h.shared = true →
         let addr := y.refs + 4 * y.slotOf handle.toNat
         let old := leNat (memReadBytes u.mem addr 4)
         let by_ := u.keyParty key (h.sampleOf key)
         u.OkayAt 0 addr 4 → (old = 1 → y.cache.length < 48) →
         (u.NoSlot by_ .fetchAdd addr 4 0xFFFFFFFF [] → exec c s = .next u) ∧
         (u.HasSlot by_ .fetchAdd addr 4 0xFFFFFFFF [] → 0 < old →
           ∃ t, exec c s = .next t ∧ t.mem = memWriteBytes u.mem addr (natLe 4 ((old + 0xFFFFFFFF) % 2 ^ 32)) ∧
             (old = 1 → (t.pool p).cache = y.cache ++ [handle.toNat] ∧ (t.pool p).holders = y.holders.filter (fun z => z.handle != handle.toNat)) ∧
             (1 < old → (t.pool p).cache = y.cache ∧ (t.pool p).holders = y.holders.map (fun z =>
               if z.handle = handle.toNat then { z with users := z.users.filter (·.1 != key) } else z)) ∧
             u.SamePorts t ∧ t = { u with mem := t.mem, ports := t.ports, pools := t.pools, tel := { s.tel with cnt := t.tel.cnt } })))) ∧
  (∀ (p : BitVec 8) (v : MemView) (s : State), s.live = true →
     let u := s.seeMem v
     let n := p.toNat
     let x := s.pool n
     let at_ := fun (k : Nat) => x.ring + 8 * (k % 2 ^ x.log2Ring)
     x.enabled = true →
     (x.cache.length < 16 → u.After (State.ringRead n 4) (exec (.poolCacheRefill p v) s)) ∧
     (x.cache.length < 16 → 32 ≤ x.ringCount → (∀ k, k < 4 → u.OkayIn 0 (at_ (x.ringHead + 8 * k)) 64) → u.PortsRest →
       ∃ t : State, exec (.poolCacheRefill p v) s = .next t ∧ u.SamePorts t ∧
         t = { u with pools := t.pools, ports := t.ports, tel := { u.tel with cnt := t.tel.cnt } } ∧
         t.pool n = { x with
           cache := x.cache ++ (List.range 4).flatMap (fun k =>
             (List.range 8).map (fun j => leAt (memReadBytes u.mem (at_ (x.ringHead + 8 * k)) 64) (8 * j) 8)),
           ringHead := (x.ringHead + 32) % 2 ^ x.log2Ring, ringCount := x.ringCount - 32 }) ∧
     (16 ≤ x.cache.length → exec (.poolCacheRefill p v) s = .next u) ∧
     (48 < x.cache.length → u.After (State.spillHandles n 32) (exec (.poolCacheSpill p v) s)) ∧
     (48 < x.cache.length → s.Canonical → (∀ k, k < 4 → u.OkayIn 0 (at_ (x.ringHead + x.ringCount + 8 * k)) 64) → u.PortsRest →
       ∃ t : State, exec (.poolCacheSpill p v) s = .next t ∧ u.SamePorts t ∧
         t.mem = (List.range 4).foldl (fun m k => memWriteBytes m (at_ (x.ringHead + x.ringCount + 8 * k))
           (((x.cache.drop (8 * k)).take 8).flatMap (natLe 8))) u.mem ∧
         t = { u with mem := t.mem, pools := t.pools, ports := t.ports, tel := { u.tel with cnt := t.tel.cnt } } ∧
         t.pool n = { x with cache := x.cache.drop 32, ringCount := x.ringCount + 32 }) ∧
     (x.cache.length ≤ 48 → exec (.poolCacheSpill p v) s = .next u)) ∧
  (∀ (p : BitVec 8) (v : MemView) (s : State),
     let u := s.seeMem v
     let n := p.toNat
     (s.live = false ∨ u.poolStalled n = false ∨ s.now < (s.pool n).stallSince + 1000 * max 10 s.stallUs →
       exec (.poolWatchdogFire p v) s = .next u) ∧
     (s.live = true → u.poolStalled n = true → (s.pool n).stallSince + 1000 * max 10 s.stallUs ≤ s.now →
       (∀ k, u.victim n = some k →
         u.After (State.preempt n k) (exec (.poolWatchdogFire p v) s) ∧
         (s.frame.openMode = false → let t := u.start.preempt n k
           (t.pool n).preempted = true ∧ (t.pool n).stallSince = s.now ∧
           (t.stream (k / 1024) (k % 1024)).position ≤ (s.stream (k / 1024) (k % 1024)).position)) ∧
       (u.victim n = none →
         ∃ t, exec (.poolWatchdogFire p v) s = .next t ∧ (t.pool n).stallSince = s.now ∧ (t.pool n).holders = (s.pool n).holders ∧
           t = { u with pools := t.pools, funcs := t.funcs, units := t.units, tel := { u.tel with cnt := t.tel.cnt } })))

/-- IMG_START and IMG_ABORT (R107, R108, R110 to R112, R571): with no load in progress the steward verifies the image; a failed
check rejects it with its detail and section, else it is staged, a patch draining; its reads wait for their issue slots (log 4).
During a load START only sets OVERRUN; ABORT rejects the load with ABORTED. Without a session either is refused (R494). IMAGE_COMMIT
(R113, R114, R212, R263): a staged full image becomes the committed one, the frame RUNNING, every function OPEN after the first, the
queues at its defaults and its bank plan requested; with a die at throttle level 4 the frame is in WALK at that instant instead,
with cause THERMAL (R568; no stream is open before RUNNING). A draining patch is committed over the base image once no stream that
it affects is open. Either waits until every route that it replaces or leaves unbound is idle (R48, R64). Nothing is committed in
FATAL or with nothing staged. -/
def Obligations.ImagesLoadAndCommit : Prop :=
  (∀ (acc : Acc) (value : Word) (v between : MemView) (s : State), s.MgmtAccess acc →
     let force := value.toNat.testBit 2
     (s.sec.session = false → exec (.imgStart acc value v between) s = .next (State.accepted (s.seeMem v).secRefuse) ∧
       exec (.imgAbort acc value) s = .next s.secRefuse.accepted) ∧
     (s.sec.session = true → value.toNat.testBit 1 = false → s.loading = false →
       let w : State := { (s.seeMem v).start with
         image := { s.image with force := force, st := .verifying, detail := 0, sect := noSection, staged := none } }
       (∀ d sect r, w.loadImage between = (.error (d, sect), r) → r.running.miss = none →
         ∃ t, exec (.imgStart acc value v between) s = .next t ∧
           t.image = { r.image with st := .rejected, detail := d, sect := sect, staged := none } ∧
           t = State.accepted { r with
             image := t.image, ports := t.ports, frameLog := t.frameLog, units := t.units, running := s.running }) ∧
       (∀ c pins r, w.loadImage between = (.ok (c, pins), r) → r.running.miss = none → (c.kind ≠ 2 ∨ r.image.force = false) →
         exec (.imgStart acc value v between) s = .next (State.accepted { r with
           running := s.running,
           image := { r.image with st := if c.kind = 2 then .draining else .staging, staged := some c, stagedPins := pins } }))) ∧
     (s.sec.session = true → value.toNat.testBit 1 = false → s.loading = true → (s.image.st = .draining → force = false) →
       exec (.imgStart acc value v between) s =
         .next (State.accepted { s.seeMem v with image := { s.image with force := force, overrun := true } })) ∧
     (s.sec.session = true → s.loading = true → s.image.st ≠ .committing →
       ∃ t, exec (.imgAbort acc value) s = .next t ∧
         t.image = { s.image with force := force, st := .rejected, detail := 0x17, sect := 0x7F, staged := none } ∧
         t = State.accepted { s with image := t.image, ports := t.ports, frameLog := t.frameLog, units := t.units }) ∧
     (s.sec.session = true → (s.loading = false ∨ s.image.st = .committing) →
       exec (.imgAbort acc value) s = .next (State.accepted { s with image := { s.image with force := force } }))) ∧
  (∀ (s : State) (p : ImgCfg),
     (s.frame.st = .fatal ∨ (s.image.st ≠ .staging ∧ s.image.st ≠ .draining) → exec .imageCommit s = .next s) ∧
     (s.frame.st ≠ .fatal → s.sec.selftestBusy = false → s.sec.zeroising = false → s.image.staged = some p →
       (s.image.st = .staging → s.loadAllowed 1 = true → s.routesSettled p p = false → exec .imageCommit s = .next s) ∧
       (s.image.st = .staging → p.kind = 1 → s.loadAllowed 1 = true → s.routesSettled p p = true → s.frame.st = .ready →
         s.openStreams = [] → (∃ d, d < s.caps.dies ∧ (s.thermal d).level = 4) →
         ∃ t, exec .imageCommit s = .next t ∧ t.image.committed = some p ∧ t.image.st = .done ∧ t.image.digest = p.digest ∧
           t.frame.committed = true ∧ t.frame.st = .walk ∧ t.frame.walkThermal = true ∧ t.frame.walkFirst = 1) ∧
       (s.image.st = .staging → p.kind = 1 → s.loadAllowed 1 = true → s.routesSettled p p = true →
         (s.frame.st = .running ∨ (s.frame.st = .ready ∧ ∀ d, d < s.caps.dies → (s.thermal d).level ≠ 4)) →
         ∃ t, exec .imageCommit s = .next t ∧ t.image.committed = some p ∧ t.image.st = .done ∧ t.image.digest = p.digest ∧
           t.image.staged = none ∧ t.image.pinned = s.image.stagedPins ∧ t.frame.committed = true ∧ t.frame.st = .running ∧
           t.queues = (s.defineQueues p).queues ∧ t.pins = s.pins ∧ t.pace = s.pace ∧ t.mem = s.mem ∧ t.streams = s.streams ∧
           (s.image.committed = none → ∀ f, f < s.caps.funcs → (t.func f).st = .open_) ∧
           (∀ b ∈ s.allBanks, b / 48 < s.nBays → s.fenced (b / 48) = false →
             let o := match p.bankPlan.find? (fun e => 48 * e.bay + e.bank == b) with
               | some e => (e.kind, e.index)
               | none => (0, 0)
             (t.bank b).pending = if (s.bank b).kind = o.1 ∧ (s.bank b).index = o.2 then none else some ⟨o.1, o.2, false, true⟩)) ∧
       (∀ base, s.image.st = .draining → s.image.force = false → s.image.committed = some base →
         ((∃ x ∈ s.openStreams, s.patchAffects (s.graphOf x.2.2) = true) → exec .imageCommit s = .next s) ∧
         (s.routesSettled p (s.toStand p) = false → exec .imageCommit s = .next s) ∧
         ((∀ x ∈ s.openStreams, s.patchAffects (s.graphOf x.2.2) = false) → s.routesSettled p (p.over base) = true → p.kind = 2 →
           s.frame.st = .running →
           ∃ t, exec .imageCommit s = .next t ∧ t.image.committed = some (p.over base) ∧ t.image.st = .done ∧ t.image.digest = p.digest ∧
             t.frame.st = .running ∧ t.queues = s.queues ∧ t.streams = s.streams ∧ t.pins = s.pins ∧ t.mem = s.mem))))

/-- KEK_LOAD and WRAPPED_KEY (R157 to R160, R497, R511): every record taken gives one done pulse with its status; a KEK enters an
empty KEK slot only; a key that unwraps under the KEK enters an empty slot of its function's range, with a new generation. While
zeroise is high every record is answered with ACCESS_DENIED (R160), then in CRYPTO_ERROR with CRYPTO_ERROR, then a malformed one as
such (log 121).
KEY_QUERY, KEY_ZEROISE and KEY_DERIVE (R496, R498, R499): a function sees and changes the slots of its own range only; the result
and the slot's type are in its KEY_STATUS. TYPE of an empty slot is a free value (log 13). -/
def Obligations.KeysAreImportedAndUsed : Prop :=
  (∀ (words : List (BitVec 64)) (s : State),
     let c := s.sec
     let result : Nat → Host.Outcome State Fault Refusal := fun code =>
       .next { s with sec := { c with kimpStatus := code, kimpDone := c.kimpDone + 1 } }
     (s.kimpReady = false → exec (.kekLoad words) s = .next s ∧ exec (.wrappedKey words) s = .next s) ∧
     (s.kimpReady = true → s.pins.zeroise = true →
       exec (.kekLoad words) s = result stAccessDenied ∧ exec (.wrappedKey words) s = result stAccessDenied) ∧
     (s.kimpReady = true → s.pins.zeroise = false → c.cryptoError = true →
       exec (.kekLoad words) s = result stCrypto ∧ exec (.wrappedKey words) s = result stCrypto) ∧
     (s.kimpReady = true → s.pins.zeroise = false → c.cryptoError = false →
       (words = [] → exec (.kekLoad words) s = result stMalformed ∧ exec (.wrappedKey words) s = result stMalformed) ∧
       (∀ h pay, words = h :: pay →
         (h.toNat % 4 ≠ 0 ∨ h.toNat / 2 ^ 21 ≠ 0 ∨ pay.length ≠ 4 → exec (.kekLoad words) s = result stMalformed) ∧
         (h.toNat % 4 = 0 → h.toNat / 2 ^ 21 = 0 → pay.length = 4 → h ≠ 0 → exec (.kekLoad words) s = result stAccessDenied) ∧
         (h.toNat % 4 ≠ 1 ∨ h.toNat / 2 ^ 21 ≠ 0 ∨ 3 < h.toNat / 2 ^ 18 % 8 ∨ pay.length ≠ keyLen (h.toNat / 2 ^ 18 % 8) / 8 + 1 →
           exec (.wrappedKey words) s = result stMalformed)) ∧
       (∀ pay, words = 0#64 :: pay → pay.length = 4 →
         (c.kek = none → exec (.kekLoad words) s =
           .next { s with sec := { c with kek := some (wordsBytes pay), kimpStatus := stOk, kimpDone := c.kimpDone + 1 } }) ∧
         (c.kek ≠ none → exec (.kekLoad words) s = result stAccessDenied)) ∧
       (∀ h pay, words = h :: pay → c.armed ≠ some 4 →
         let slot := h.toNat / 4 % 1024
         let f := h.toNat / 4096 % 64
         let t := h.toNat / 2 ^ 18 % 8
         h.toNat % 4 = 1 → h.toNat / 2 ^ 21 = 0 → t ≤ 3 → pay.length = keyLen t / 8 + 1 →
         (c.kek = none → exec (.wrappedKey words) s = result stAccessDenied) ∧
         (∀ kek, c.kek = some kek →
           ((tblGet? c.slots slot).isSome = true ∨ s.inRange f slot = false → exec (.wrappedKey words) s = result stAccessDenied) ∧
           (tblGet? c.slots slot = none → s.inRange f slot = true →
             (kwUnwrap kek (wordsBytes pay) = none → exec (.wrappedKey words) s = result stAuthFail) ∧
             (∀ key, kwUnwrap kek (wordsBytes pay) = some key → (t = 2 → key.take 32 = key.drop 32) → t = 2 →
               exec (.wrappedKey words) s = result stMalformed) ∧
             (∀ key, kwUnwrap kek (wordsBytes pay) = some key → (t = 2 → key.take 32 ≠ key.drop 32) →
               exec (.wrappedKey words) s = .next { s with sec := { c with
                 slots := tblSet c.slots slot ⟨t, f, key, c.slotGen, 0⟩, slotGen := c.slotGen + 1, kimpStatus := stOk,
                 kimpDone := c.kimpDone + 1 } })))))) ∧
  (∀ (acc : Acc) (fn : BitVec 6) (value : Word) (s : State),
     let f := fn.toNat
     let c := s.sec
     let w := value.toNat
     let slot := w % 1024
     let src := w / 1024 % 1024
     let ty := w / 2 ^ 20 % 8
     let x := s.func f
     let owns := fun (n : Nat) (k : KeySlot) => tblGet? c.slots n = some k ∧ k.fn = f ∧ s.inRange f n = true
     s.FuncAccess acc fn → x.keyWait = none → c.selftestBusy = false → c.cryptoError = false → c.armed ≠ some 4 →
     (∀ k, owns slot k →
       exec (.keyQuery acc fn value) s =
         .next (State.accepted (s.setFunc f { x with keyLoaded := true, keyType := k.keyType, keyResult := stOk })) ∧
       ∃ t, exec (.keyZeroise acc fn value) s = .next t ∧ t.sec = { c with slots := tblDel c.slots slot } ∧
         t.func f = { x with keyLoaded := false, keyType := (t.func f).keyType, keyResult := stOk } ∧
         t = State.accepted { s with sec := t.sec, funcs := t.funcs, freeCtr := t.freeCtr }) ∧
     (s.inRange f slot = false →
       let r : Host.Outcome State Fault Refusal := .next
         (State.accepted (s.setFunc f { x with keyLoaded := false, keyType := 0, keyResult := stAccessDenied }))
       exec (.keyQuery acc fn value) s = r ∧ exec (.keyZeroise acc fn value) s = r ∧ exec (.keyDerive acc fn value) s = r) ∧
     (s.inRange f slot = true → tblGet? c.slots slot = none →
       (∃ t, exec (.keyQuery acc fn value) s = .next t ∧
         t.func f = { x with keyLoaded := false, keyType := (t.func f).keyType, keyResult := stOk } ∧
         t = State.accepted { s with funcs := t.funcs, freeCtr := t.freeCtr }) ∧
       (∀ k, owns src k → k.keyType = 3 → ty ≤ 3 →
         let key := kdf k.key (ascii "STVZ-KD" ++ natLe 4 x.keyLabel.toNat) (natLe 1 f ++ natLe 2 slot ++ natLe 1 ty) (8 * keyLen ty)
         exec (.keyDerive acc fn value) s = .next (State.accepted (State.setFunc f
           { x with keyLoaded := true, keyType := ty, keyResult := stOk }
           { s with sec := { c with slots := tblSet c.slots slot ⟨ty, f, key, c.slotGen, 0⟩, slotGen := c.slotGen + 1 } }))) ∧
       ((∀ k, ¬ owns src k) ∨ 3 < ty →
         ∃ t, exec (.keyDerive acc fn value) s = .next t ∧
           t.func f = { x with keyLoaded := false, keyType := (t.func f).keyType, keyResult := stAccessDenied } ∧
           t = State.accepted { s with funcs := t.funcs, freeCtr := t.freeCtr })))

/-- SEC_AUTH and SEC_CLOSE (R491 to R494, R508): the right tag opens a session, a wrong one sets AUTH_FAIL, and each attempt draws a
new nonce; a second attempt within 1 ms is refused; CLOSE needs a session. During a self-test, and before the
last pre-operational test has ended (R173; log 124), an attempt waits. What a Crypto
Officer writes (R496, R502, R509): digests of signing keys, the functions' ranges of key slots, armed failures. A range may not
overlap another's nor leave out a loaded slot of its function; failures are armed in test mode only. -/
def Obligations.SessionsAndOfficerWrites : Prop :=
  (∀ (acc : Acc) (s : State), s.MgmtAccess acc → let c := s.sec
     (∀ t, c.lastAuth = some t → s.now < t + 1000000 →
       exec (.secAuth acc) s = .next (State.accepted { s with sec := { c with refused := true } })) ∧
     ((∀ t, c.lastAuth = some t → t + 1000000 ≤ s.now) →
       (c.selftestBusy = true ∨ (s.frame.preTests = false ∧ c.cryptoError = false) →
         exec (.secAuth acc) s = .next (State.accepted { s with sec := { c with lastAuth := some s.now, authWait := c.authWait + 1 } })) ∧
       (c.selftestBusy = false → (s.frame.preTests = true ∨ c.cryptoError = true) → ∀ d, c.drbg = some d → c.armed ≠ some 3 →
         let ok := ∃ kek, c.kek = some kek ∧ s.authTag = hmac384 (coKey kek) (c.nonce ++ [0x43, 0x4F])
         ∃ t, exec (.secAuth acc) s = .next t ∧ t.sec.nonce = (drbgGenerate 32 d.key d.v).1 ∧
           (ok → t.sec.session = true ∧ t.sec.authFail = c.authFail) ∧ (¬ ok → t.sec.session = c.session ∧ t.sec.authFail = true) ∧
           t = State.accepted { s with sec := { c with
             session := t.sec.session, authFail := t.sec.authFail, lastAuth := some s.now, nonce := t.sec.nonce, drbg := t.sec.drbg } })) ∧
     (c.session = true → exec (.secClose acc) s = .next (State.accepted { s with sec := { c with session := false } })) ∧
     (c.session = false → exec (.secClose acc) s = .next (State.accepted { s with sec := { c with refused := true } }))) ∧
  (∀ (acc : Acc) (value : Word) (s : State), s.OfficerAccess acc →
     let w := value.toNat
     let c := s.sec
     let n := w % 4
     (w.testBit 3 = false → exec (.signCommit acc value) s =
       .next (State.accepted { s with sec := { c with signSlot := n, digests := tblSet c.digests n s.signStageBytes } })) ∧
     (w.testBit 2 = false → exec (.signClear acc value) s =
       .next (State.accepted { s with sec := { c with signSlot := n, digests := tblDel c.digests n } })) ∧
     (w.testBit 3 = true → exec (.signCommit acc value) s = .next (State.accepted { s with sec := { c with signSlot := n, refused := true } })) ∧
     (w.testBit 2 = true → exec (.signClear acc value) s = .next (State.accepted { s with sec := { c with signSlot := n, refused := true } })) ∧
     (∀ f : BitVec 6, f.toNat < s.caps.funcs →
       let base := w % 1024
       let cnt := w / 1024 % 2048
       let bad := 1024 < base + cnt ∨ (0 < cnt ∧ ∃ p ∈ c.keyPart, p.1 ≠ f.toNat ∧ base < p.2.1 + p.2.2 ∧ p.2.1 < base + cnt) ∨
         (∃ p ∈ c.slots, s.inRange f.toNat p.1 = true ∧ ¬ (base ≤ p.1 ∧ p.1 < base + cnt))
       (¬ bad → exec (.keyPartWrite acc f value) s =
         .next (State.accepted { s with sec := { c with keyPart := tblSet c.keyPart f.toNat (base, cnt) } })) ∧
       (bad → exec (.keyPartWrite acc f value) s = .next (State.accepted { s with sec := { c with refused := true } }))) ∧
     (let t := w % 256
       let known := (1 ≤ t ∧ t ≤ 4) ∨ (0x11 ≤ t ∧ t ≤ 0x1A)
       (s.pins.testMode = true → known → exec (.secTestArm acc value) s =
         .next (State.accepted { s with sec := { c with testTarget := t, armed := some t, armPos := 0 } })) ∧
       (s.pins.testMode = false ∨ ¬ known → exec (.secTestArm acc value) s =
         .next (State.accepted { s with sec := { c with refused := true } }))))

/-- SEC_SELFTEST and SELFTEST_COMPLETE (R508, R511): a test starts unless a guaranteed stream is open, an image loads, one runs or
no service is given; when every test passes it is done and the DRBG is new; a failed known-answer test enters CRYPTO_ERROR.
NOISE_SAMPLE and DRBG_RESEED (R174, R503, R504, R511): a sample that passes only advances the health tests; one that fails enters
CRYPTO_ERROR with its cause, during start-up BOOT_FAIL as well. The DRBG reseeds after 2^20 requests. -/
def Obligations.SelfTestsAndNoise : Prop :=
  ((∀ (acc : Acc) (s : State), s.OfficerAccess acc →
     let barred := (∃ p ∈ s.openStreams, p.2.2.guaranteed = true) ∨ s.loading = true ∨ s.cryptoServed = false ∨ s.sec.selftestBusy = true
     (¬ barred → exec (.secSelftest acc) s =
       .next (State.accepted { s with sec := { s.sec with selftestBusy := true, selftestAgain := s.sec.zeroising } })) ∧
     (barred → exec (.secSelftest acc) s = .next (State.accepted { s with sec := { s.sec with refused := true } }))) ∧
   (∀ (noise : List Bool) (s : State),
     (s.sec.selftestBusy = false ∨ s.sec.zeroising = true → ∀ kat, exec (.selftestComplete kat noise) s = .next s) ∧
     (s.sec.selftestBusy = true → s.sec.zeroising = false → s.sec.cryptoError = false → s.sec.armed = none → s.sec.authWait = 0 →
       (∀ p ∈ s.funcs, p.2.keyWait = none) →
       (noisePasses s.sec.noise noise = true →
         ∃ t, exec (.selftestComplete none noise) s = .next t ∧ t.sec.drbg.isSome = true ∧
           t.sec = { s.sec with
             selftestBusy := false, selftestDone := true, noise := t.sec.noise, armPos := t.sec.armPos, drbg := t.sec.drbg,
             nonce := t.sec.nonce } ∧ t = { s with sec := t.sec }) ∧
       (∀ k : BitVec 4, 1 ≤ k.toNat → k.toNat ≤ 10 →
         ∃ t, exec (.selftestComplete (some k) noise) s = .next t ∧ t.sec.cryptoError = true ∧ t.sec.errCause = 0x10 + k.toNat ∧
           t.sec.slots = [] ∧ t.sec.kek = none ∧ t.sec.drbg = none ∧ t.sec.session = false ∧ t.sec.selftestBusy = false ∧ t.frame = s.frame)))) ∧
  (∀ s : State, s.sec.armed = none →
     (∀ bit : Bool, s.sec.cryptoError = false → s.frame.st ≠ .reset →
       ((s.sec.noise.step bit).2 = none →
         exec (.noiseSample bit) s = .next { s with sec := { s.sec with noise := (s.sec.noise.step bit).1, armPos := 0 } }) ∧
       (∀ c, (s.sec.noise.step bit).2 = some c →
         ∃ t, exec (.noiseSample bit) s = .next t ∧ t.sec.cryptoError = true ∧ t.sec.errCause = c ∧ t.sec.slots = [] ∧ t.sec.kek = none ∧
           t.sec.heatKey = none ∧ t.sec.drbg = none ∧ t.sec.session = false ∧ t.pins = s.pins ∧
           (s.frame.st = .boot ∨ s.frame.st = .selfTest → t.frame = { s.frame with st := .bootFail, bootCause := 5 }) ∧
           (s.frame.st ≠ .boot → s.frame.st ≠ .selfTest → t.frame = s.frame))) ∧
     (∀ (noise : List Bool) (d : Drbg), s.sec.drbg = some d →
       (d.requests < 2 ^ 20 → exec (.drbgReseed noise) s = .next s) ∧
       (2 ^ 20 ≤ d.requests → noisePasses s.sec.noise (noise.take 1024) = true →
         let p := drbgReseedWith (packBits (noise.take 1024)) d.key d.v
         ∃ t, exec (.drbgReseed noise) s = .next t ∧ t = { s with
           sec := { s.sec with noise := t.sec.noise, armPos := t.sec.armPos, drbg := some ⟨p.1, p.2, 0⟩ } })))

/-- SCHEDULE_START and EPOCH_START (R222, R236, R243, R244, R292, R310, R311): at T0 a guaranteed feed stream with a sealed source
starts, one without, halted or not, closes with STREAM_ABORTED; the first epoch starts at 0, with the sealed shards or, of a stream that
may read unsealed ones, with those so far, once an earlier stage has dispatched its last sample; the next starts at a multiple of the
batches of all members past the last sample, once that is dispatched. HURDLE_PASS (R60, R243 to R245): a stream waits at a stage
boundary until the earlier stage has passed its FLUSH beats through its own graph, the routes of that graph are idle and its last batch
is delivered, its record written; then it goes on, and nothing else changes. -/
def Obligations.SchedulesEpochsAndHurdles : Prop :=
  (∀ (fn : BitVec 6) (stream : BitVec 10) (v : MemView) (s : State),
     let u := s.seeMem v
     let f := fn.toNat
     let i := stream.toNat
     let x := s.stream f i
     s.live = true →
     (x.st ≠ .free → x.guaranteed = true → x.sourced = false → x.t0Given = true → x.t0 ≤ s.now →
       (x.sealed_.isSome = true ∨ x.runs ≠ [] ∨ (s.graphOf x).direction = 1 →
         exec (.scheduleStart fn stream v) s = .next (u.setStream f i { x with sourced := true })) ∧
       (x.sealed_ = none → x.runs = [] → (s.graphOf x).direction ≠ 1 →
         ∃ t, exec (.scheduleStart fn stream v) s = .next t ∧ t = u.abortStream f i ∧
           t.stream f i = { Stream.fresh with haltCode := x.haltCode })) ∧
     (x.guaranteed = false ∨ x.sourced = true ∨ x.t0Given = false ∨ s.now < x.t0 → exec (.scheduleStart fn stream v) s = .next u) ∧
     ((x.st = .filling ∨ x.st = .running) → x.ended = false → (s.graphOf x).direction = 0 → (x.guaranteed = true → x.sourced = true) →
       (x.runs = [] → s.predecessorDone f x = false → exec (.epochStart fn stream v) s = .next u) ∧
       (x.runs = [] → s.predecessorDone f x = true →
         let starts := fun (l : List Shard) (fin live : Bool) => { x with
           runs := [⟨0, x.epoch, none, 0, 0, 0, none⟩], position := x.nextOwn s.meet 0 0, source := l, sourceFinal := fin, liveSource := live,
           shardPorts := [], counts := [], windows := [], ahead := [] }
         (∀ l fin, x.sealed_ = some (l, fin) → exec (.epochStart fn stream v) s = .next (u.setStream f i (starts l fin false))) ∧
         (x.sealed_ = none → s.readsLive x = true →
           exec (.epochStart fn stream v) s = .next (u.setStream f i (starts x.pendingShards false true))) ∧
         (x.sealed_ = none → s.readsLive x = false → exec (.epochStart fn stream v) s = .next u)) ∧
       (∀ r e, x.runs.getLast? = some r → r.stop = some e →
         (x.position < e → exec (.epochStart fn stream v) s = .next u) ∧
         (e ≤ x.position → x.sourceFinal = true → u.After (fun w => w.endSource f i) (exec (.epochStart fn stream v) s)) ∧
         (e ≤ x.position → x.sourceFinal = false →
           let base := ceilDiv e (x.batch * s.meet) * (x.batch * s.meet)
           ∃ t z, exec (.epochStart fn stream v) s = .next t ∧ t = { u with streams := t.streams } ∧
             (∀ k, k ≠ sKey f i → tblGet? t.streams k = tblGet? s.streams k) ∧ (t.stream f i).epoch = (x.epoch + 1) % 2 ^ 32 ∧
             (t.stream f i).runs.getLast? = some z ∧ z.base = base ∧ z.epoch = (x.epoch + 1) % 2 ^ 32 ∧ z.stop = none ∧
             (t.stream f i).position = x.nextOwn s.meet base base ∧
             (∀ l fin, x.sealed_ = some (l, fin) → (t.stream f i).source = l ∧ (t.stream f i).sourceFinal = fin) ∧
             (x.sealed_ = none → (t.stream f i).source = x.source) ∧
             ((s.graphOf x).boundary = 1 → (t.stream f i).hurdle = true))))) ∧
  (∀ (fn : BitVec 6) (stream : BitVec 10) (s : State),
     let f := fn.toNat
     let x := s.stream f stream.toNat
     let before := x.before.getD (x.gidx, x.graph)
     let passed := (∀ b ∈ s.bays, ∀ k ∈ b.2.flushed, k / 8 ≠ before.1) ∧
       (∀ g, s.graph? before.2 = some g → ∀ r ∈ s.graphRoutes g, s.routeIdle r.route r = true) ∧
       (∀ p, x.before.isSome = true → x.follows = some p →
         let e := s.stream f p
         e.ended = true ∧ e.flushSent = true ∧ e.inFlight = [] ∧ e.ready = [] ∧ e.placed = [] ∧ e.openRows = [] ∧ e.closedRows = [] ∧ e.xfer = none ∧
           e.finished = [] ∧ e.waitingRecs = []) ∧
       (x.before = none → x.inFlight = [] ∧ x.ready = [] ∧ x.xfer = none ∧ x.finished = [] ∧ x.waitingRecs = [] ∧
         (if s.packsSeq x.graph then x.nextPlace / x.batch else x.lastRunEnd s.meet) ≤ x.delivered)
     s.live = true → x.st ≠ .free → x.st ≠ .halted →
     (x.hurdle = true → passed →
       exec (.hurdlePass fn stream) s = .next (s.setStream f stream.toNat { x with hurdle := false, before := none })) ∧
     (x.hurdle = false ∨ ¬ passed → exec (.hurdlePass fn stream) s = .next s))

/-- INTAKE_RECORD and SHUFFLE_WINDOW_BUILD (R292 to R294, R304, R306), in an epoch whose length is known and whose first shard holds
the record: the window's table is the keyed permutation, and goes into the intake bays' banks (R294); a stave record that was read
whole, while its bay runs and no other record there goes before it (R235), is released when its checks pass and rejected or halted as
they say; until then it waits. -/
def Obligations.IntakeJudgesARecord : Prop :=
  ∀ (fn : BitVec 6) (stream : BitVec 10) (v : MemView) (s : State) (body : Bytes) (n : Nat) (r : EpochRun) (e : Nat),
    let u := s.seeMem v
    let f := fn.toNat
    let i := stream.toNat
    let x := s.stream f i
    let w := inWindow body
    s.intakeBody x.graph = some body → s.mayDispatch x = true → tblGet? x.counts 0 = some n → (x.shardAt body 0).isSome = true →
    x.runs.getLast? = some r → r.stop = some e →
    (2 ≤ w → tblGet? x.windows (x.logical / w) = none → (x.logical / w + 1) * w ≤ n →
      let cur := x.logical / w
      let table := (List.range w).map (keyedPerm x.seed x.epoch 1 cur w)
      u.After (fun z => State.putWindow x cur table (z.setStream f i { x with
        windows := (tblSet x.windows cur table).filter (fun p => decide (cur ≤ p.1)) })) (exec (.shuffleWindowBuild fn stream v) s) ∧
      ∃ t, exec (.shuffleWindowBuild fn stream v) s = .next t ∧
        t.stream f i = { x with windows := (tblSet x.windows cur table).filter (fun p => decide (cur ≤ p.1)) }) ∧
    (w ≤ 1 → exec (.shuffleWindowBuild fn stream v) s = .next u) ∧
    (∀ sh ms content m t, w ≤ 1 → x.logical < n → x.shardAt body 0 = some sh → sh.format = 1 → u.shardMembers body sh = .ok (ms, content) →
      ms[x.logical]? = some m → x.reading = some t → t.complete = true → staveEnc (memReadBytes u.mem sh.addr 64) = false →
      let bay := u.intakeBay t.port
      (u.intakeTurn f i t = false ∨ u.bayRuns bay = false → exec (.intakeRecord fn stream v) s = .next u) ∧
      (u.intakeTurn f i t = true → u.bayRuns bay = true →
        let taken := fun (z : State) => (z.modBay bay (fun b => { b with taken := b.taken + 1 })).count 2 bay 6 1
        let verdict := (u.checkStave f body sh (memReadBytes u.mem sh.addr 64) x.logical m.start t.poison t.bytes).1
        (∀ bytes, verdict = .pass bytes →
          u.After (fun z => (taken z).intakeRelease f i bay body [(leAt t.bytes 8 1, bytes)]) (exec (.intakeRecord fn stream v) s)) ∧
        (∀ code detail, verdict = .reject code detail → code ≠ stAuthFail →
          u.After (fun z => (taken z).intakeReject f i bay code detail) (exec (.intakeRecord fn stream v) s))))

/-- The keyed permutation (R291, R293) of every window and every list maps [0, N) one to one into itself. -/
def Obligations.KeyedPermutationIsABijection : Prop :=
  ∀ (seed : BitVec 128) (epoch level window n : Nat),
    (∀ x, x < n → keyedPerm seed epoch level window n x < n) ∧
    (∀ x y, x < n → y < n → keyedPerm seed epoch level window n x = keyedPerm seed epoch level window n y → x = y)

/-- BATCH_DELIVER and RELAY_RETURN (R240, R244, R426, R436 to R438): a stream outside a lock group that follows no other delivers its
oldest finished batch with a record of status OK; a member waits for its group, a follower for the stage before it. The record waits for
its issue slot and the message for room (log 4). A return of delivered batches frees their slots and the ring's room; one of
more than were delivered only makes a log entry. LOCK_GROUP_RELEASE (R240, R241): no batch leaves before every member of a whole
group has finished one and the release instant has come; then every member delivers its oldest one with the same time, a whole
microsecond at or after each of them was finished (log 52 for a late release). -/
def Obligations.BatchesAreDeliveredAndReleased : Prop :=
  ((∀ (fn : BitVec 6) (stream : BitVec 10) (v : MemView) (s : State),
     let u := s.seeMem v
     let f := fn.toNat
     let i := stream.toNat
     let x := s.stream f i
     s.live = true → u.packRuns x = true → x.st ≠ .free → x.st ≠ .halted →
     (∀ b rest, x.xfer = none → x.finished = b :: rest → (x.grouped = false ∨ x.loose = true) → x.follows = none →
       let r : RelayRec := ⟨b.batch, b.time, stOk, 0, true, x.lastBatch s.meet, 0, b.batch % x.depth, b.valid⟩
       u.After (fun w => State.finishDrain f i (State.wakeSamples f i (State.pump f i (State.relayPost f i r
           (w.setStream f i { x with finished := rest, posted := x.posted ++ [b] })))))
         (exec (.batchDeliver fn stream v) s)) ∧
     (x.xfer = none → (x.grouped = true ∧ x.loose = false) ∨ x.follows.isSome = true ∨ x.finished = [] →
       u.After (fun w => (w.pump f i).finishDrain f i) (exec (.batchDeliver fn stream v) s))) ∧
   (∀ (acc : Acc) (fn : BitVec 6) (value : Word) (s : State),
     let f := fn.toNat
     let i := value.toNat % 1024
     let n := value.toNat / 65536 % 128
     let x := s.stream f i
     s.FuncAccess acc fn →
     (x.st = .free ∨ n = 0 ∨ x.delivered < x.returned + n →
       ∃ t, exec (.relayReturn acc fn value) s = .next t ∧
         t = State.accepted { s with funcs := t.funcs, units := t.units, tel := { s.tel with cnt := t.tel.cnt } }) ∧
     (x.st ≠ .free → 0 < n → x.returned + n ≤ x.delivered →
       let y := { x with
         returned := x.returned + n, unacked := 0,
         retTimes := (List.range n).foldl (fun t k => tblSet t (x.returned + k) s.now) x.retTimes,
         roomTimes := x.roomWaits.foldl (fun t k => tblSet t k s.now) x.roomTimes }
       exec (.relayReturn acc fn value) s = .next (State.accepted (((s.setStream f i y).relays.pump f i).finishDrains)) ∧
       (x.st = .halted → (s.setStream f i y).NoWork → exec (.relayReturn acc fn value) s = .next (State.accepted (s.setStream f i y)))))) ∧
  (∀ (group : BitVec 6) (v : MemView) (s : State),
     let u := s.seeMem v
     let g := s.group group.toNat
     (u.releaseInstant g = none → exec (.lockGroupRelease group v) s = .next u) ∧
     (∀ t, u.releaseInstant g = some t →
       g.size ≤ g.members.length ∧ (g.mode = 0 → t % 1000 = 0) ∧
       (∀ k ∈ g.members, let x := s.stream (k / 1024) (k % 1024)
         x.st ≠ .free ∧ x.st ≠ .halted ∧ x.follows = none ∧ ∃ b rest, x.finished = b :: rest ∧ b.time ≤ t ∧ (g.mode ≠ 0 → u.deadline x b.batch ≤ t)) ∧
       (s.now < t ∨ s.live = false → exec (.lockGroupRelease group v) s = .next u) ∧
       (s.live = true → t ≤ s.now → s.now ≤ t + 2000 →
         u.After (fun w => w.forEach g.members (fun k y => y.deliverHead (k / 1024) (k % 1024) (some t))) (exec (.lockGroupRelease group v) s)) ∧
       (s.live = true → t + 2000 < s.now →
         u.After (fun w => w.forEach g.members (fun k y => y.deliverHead (k / 1024) (k % 1024) (some (s.now / 1000 * 1000))))
           (exec (.lockGroupRelease group v) s))))

/-- JUDGE_HEAT_START (R235, R260, R400, R401, R508): a due heat runs over ready units of one graph, at most MICRO_BATCH of them, on
the pinned program of its slot, once its engine reaches its banks and the weights it reads have their issue slots (log 4); a program
without weights reads none. Where no graph with ready units is due, in a bay that does not run and during a self-test no heat
starts. -/
def Obligations.HeatsTakeReadyUnits : Prop :=
  ∀ (bay : BitVec 6) (v : MemView) (s : State),
    let k := bay.toNat
    let u := s.seeMem v
    let w := u.dropStale k
    let ready := w.heatReady k
    (s.frame.st ≠ .running ∨ s.bayRuns k = false ∨ s.sec.selftestBusy = true → exec (.judgeHeatStart bay v) s = .next u) ∧
    (s.frame.st = .running → s.bayRuns k = true → s.sec.selftestBusy = false →
      (∀ g body us slot p, let z := u.start.dropStale k
        z.heatOf k (z.heatReady k) = some (g, body, us) → (z.slotsOf g.num k).head? = some slot → z.heatBanks k slot body = true →
        z.pinnedTable k slot (leAt body 0 4) = (some p, z) →
        us = (z.unitsOf g.num (z.heatReady k)).take (leAt body 4 2) ∧ z.heatDue k g.num body (z.unitsOf g.num (z.heatReady k)) = true ∧
        u.After (fun z => ((z.dropStale k).runHeat k slot body p g us).passFlush k) (exec (.judgeHeatStart bay v) s) ∧
        (jpWeights p = 0 → z.runHeat k slot body p g us = State.forEach us (State.heatUnit k body p #[])
          (z.modBay k (fun b => { b with heat := b.heat.filter (fun h => !us.contains h), taken := b.taken + 1 })))) ∧
      ((∀ h ∈ ready, ∀ f i x body g, w.tagStream h.data.tag = some (f, i, x) → w.bayProfile x.graph k 0x0501 = some body →
          w.graph? x.graph = some g → w.heatDue k x.graph body (w.unitsOf x.graph ready) = false) →
        exec (.judgeHeatStart bay v) s = .next w))
end

