-- ==== Sys2Proof/Laws/Table.lean ====
section
/-! SUPPORT. What a table reads after a write or a removal. -/

namespace Sys2Proof.Machine

set_option Elab.async false

@[simp] theorem tblGet?_tblSet_same {α : Type} (t : Tbl α) (n : Nat) (a : α) : tblGet? (tblSet t n a) n = some a := by
  induction t with
  | nil => simp [tblSet, tblGet?]
  | cons p t ih =>
    obtain ⟨k, v⟩ := p
    unfold tblSet
    split
    · simp [tblGet?]
    · split
      · simp [tblGet?]
      · rw [tblGet?, if_neg (by omega), ih]

theorem tblGet?_tblSet_ne {α : Type} (t : Tbl α) (n m : Nat) (a : α) (h : m ≠ n) : tblGet? (tblSet t n a) m = tblGet? t m := by
  induction t with
  | nil => simp [tblSet, tblGet?, Ne.symm h]
  | cons p t ih =>
    obtain ⟨k, v⟩ := p
    unfold tblSet
    split
    · rw [tblGet?, if_neg (Ne.symm h)]
    · split
      · subst n; rw [tblGet?, if_neg (Ne.symm h), tblGet?, if_neg (Ne.symm h)]
      · rw [tblGet?, tblGet?, ih]

@[simp] theorem tblGetD_tblSet_same {α : Type} (t : Tbl α) (n : Nat) (a d : α) : tblGetD (tblSet t n a) n d = a := by simp [tblGetD]

theorem tblGetD_tblSet_ne {α : Type} {m : Nat} (t : Tbl α) (n : Nat) (a d : α) (h : m ≠ n) : tblGetD (tblSet t n a) m d = tblGetD t m d := by
  simp [tblGetD, tblGet?_tblSet_ne t n m a h]

theorem tblSet_tblSet {α : Type} (t : Tbl α) (n : Nat) (a b : α) : tblSet (tblSet t n a) n b = tblSet t n b := by
  induction t with
  | nil => simp [tblSet]
  | cons p t ih =>
    obtain ⟨k, v⟩ := p
    by_cases h : n < k
    · simp [tblSet, h]
    · by_cases e : n = k
      · simp [tblSet, e]
      · simp [tblSet, h, e, ih]

@[simp] theorem tblGet?_tblDel_same {α : Type} (t : Tbl α) (n : Nat) : tblGet? (tblDel t n) n = none := by
  induction t with
  | nil => rfl
  | cons p t ih =>
    obtain ⟨k, v⟩ := p
    by_cases h : k = n
    · simpa [tblDel, h] using ih
    · have : tblDel ((k, v) :: t) n = (k, v) :: tblDel t n := by simp [tblDel, h]
      rw [this, tblGet?, if_neg h, ih]

theorem tblGet?_tblDel_ne {α : Type} (t : Tbl α) (n m : Nat) (h : m ≠ n) : tblGet? (tblDel t n) m = tblGet? t m := by
  induction t with
  | nil => rfl
  | cons p t ih =>
    obtain ⟨k, v⟩ := p
    by_cases e : k = n
    · have : tblDel ((k, v) :: t) n = tblDel t n := by simp [tblDel, e]
      rw [this, ih, tblGet?, if_neg (by omega)]
    · have : tblDel ((k, v) :: t) n = (k, v) :: tblDel t n := by simp [tblDel, e]
      rw [this, tblGet?, tblGet?, ih]

/-- Numbers of queues of a function, and of streams, tell their keys apart. -/
theorem qKey_inj {f q g p : Nat} (hq : q < 512) (hp : p < 512) : qKey f q = qKey g p ↔ f = g ∧ q = p := by
  unfold qKey; constructor
  · intro h; omega
  · rintro ⟨rfl, rfl⟩; rfl

theorem sKey_inj {f i g j : Nat} (hi : i < 1024) (hj : j < 1024) : sKey f i = sKey g j ↔ f = g ∧ i = j := by
  unfold sKey; constructor
  · intro h; omega
  · rintro ⟨rfl, rfl⟩; rfl

end Sys2Proof.Machine
end

