-- ==== Sys2Proof/Laws/State.lean ====
section
/-! SUPPORT. What each update of the state leaves: one lemma per field per update, all by rfl; what each table reads after a write;
how the updates of tables are read as one another. -/

namespace Sys2Proof.Machine

/-! ## setFunc -/

@[simp] theorem State.setFunc_caps (f : Nat) (v : Func) (s : State) : (State.setFunc f v s).caps = s.caps := rfl
@[simp] theorem State.setFunc_pending (f : Nat) (v : Func) (s : State) : (State.setFunc f v s).pending = s.pending := rfl
@[simp] theorem State.setFunc_freeCtr (f : Nat) (v : Func) (s : State) : (State.setFunc f v s).freeCtr = s.freeCtr := rfl
@[simp] theorem State.setFunc_mem (f : Nat) (v : Func) (s : State) : (State.setFunc f v s).mem = s.mem := rfl
@[simp] theorem State.setFunc_resp (f : Nat) (v : Func) (s : State) : (State.setFunc f v s).resp = s.resp := rfl
@[simp] theorem State.setFunc_frame (f : Nat) (v : Func) (s : State) : (State.setFunc f v s).frame = s.frame := rfl
@[simp] theorem State.setFunc_pins (f : Nat) (v : Func) (s : State) : (State.setFunc f v s).pins = s.pins := rfl
@[simp] theorem State.setFunc_pace (f : Nat) (v : Func) (s : State) : (State.setFunc f v s).pace = s.pace := rfl
@[simp] theorem State.setFunc_tel (f : Nat) (v : Func) (s : State) : (State.setFunc f v s).tel = s.tel := rfl
@[simp] theorem State.setFunc_host (f : Nat) (v : Func) (s : State) : (State.setFunc f v s).host = s.host := rfl
@[simp] theorem State.setFunc_frameLog (f : Nat) (v : Func) (s : State) : (State.setFunc f v s).frameLog = s.frameLog := rfl
@[simp] theorem State.setFunc_units (f : Nat) (v : Func) (s : State) : (State.setFunc f v s).units = s.units := rfl
@[simp] theorem State.setFunc_dump (f : Nat) (v : Func) (s : State) : (State.setFunc f v s).dump = s.dump := rfl
@[simp] theorem State.setFunc_sec (f : Nat) (v : Func) (s : State) : (State.setFunc f v s).sec = s.sec := rfl
@[simp] theorem State.setFunc_image (f : Nat) (v : Func) (s : State) : (State.setFunc f v s).image = s.image := rfl
@[simp] theorem State.setFunc_bays (f : Nat) (v : Func) (s : State) : (State.setFunc f v s).bays = s.bays := rfl
@[simp] theorem State.setFunc_routes (f : Nat) (v : Func) (s : State) : (State.setFunc f v s).routes = s.routes := rfl
@[simp] theorem State.setFunc_bounds (f : Nat) (v : Func) (s : State) : (State.setFunc f v s).bounds = s.bounds := rfl
@[simp] theorem State.setFunc_banks (f : Nat) (v : Func) (s : State) : (State.setFunc f v s).banks = s.banks := rfl
@[simp] theorem State.setFunc_bankWords (f : Nat) (v : Func) (s : State) : (State.setFunc f v s).bankWords = s.bankWords := rfl
@[simp] theorem State.setFunc_march (f : Nat) (v : Func) (s : State) : (State.setFunc f v s).march = s.march := rfl
@[simp] theorem State.setFunc_ports (f : Nat) (v : Func) (s : State) : (State.setFunc f v s).ports = s.ports := rfl
@[simp] theorem State.setFunc_running (f : Nat) (v : Func) (s : State) : (State.setFunc f v s).running = s.running := rfl
@[simp] theorem State.setFunc_later (f : Nat) (v : Func) (s : State) : (State.setFunc f v s).later = s.later := rfl
theorem State.setFunc_funcs (f : Nat) (v : Func) (s : State) : (State.setFunc f v s).funcs = tblSet s.funcs (f) v := rfl
@[simp] theorem State.setFunc_queues (f : Nat) (v : Func) (s : State) : (State.setFunc f v s).queues = s.queues := rfl
@[simp] theorem State.setFunc_streams (f : Nat) (v : Func) (s : State) : (State.setFunc f v s).streams = s.streams := rfl
@[simp] theorem State.setFunc_groups (f : Nat) (v : Func) (s : State) : (State.setFunc f v s).groups = s.groups := rfl
@[simp] theorem State.setFunc_pools (f : Nat) (v : Func) (s : State) : (State.setFunc f v s).pools = s.pools := rfl
@[simp] theorem State.setFunc_stallUs (f : Nat) (v : Func) (s : State) : (State.setFunc f v s).stallUs = s.stallUs := rfl
@[simp] theorem State.setFunc_genCtr (f : Nat) (v : Func) (s : State) : (State.setFunc f v s).genCtr = s.genCtr := rfl
@[simp] theorem State.setFunc_notify (f : Nat) (v : Func) (s : State) : (State.setFunc f v s).notify = s.notify := rfl
@[simp] theorem State.setFunc_relay (f : Nat) (v : Func) (s : State) : (State.setFunc f v s).relay = s.relay := rfl
@[simp] theorem State.setFunc_therm (f : Nat) (v : Func) (s : State) : (State.setFunc f v s).therm = s.therm := rfl
@[simp] theorem State.setFunc_thermModel (f : Nat) (v : Func) (s : State) : (State.setFunc f v s).thermModel = s.thermModel := rfl
@[simp] theorem State.setFunc_heat (f : Nat) (v : Func) (s : State) : (State.setFunc f v s).heat = s.heat := rfl
@[simp] theorem State.setFunc_wrappers (f : Nat) (v : Func) (s : State) : (State.setFunc f v s).wrappers = s.wrappers := rfl
@[simp] theorem State.setFunc_func_same (f : Nat) (v : Func) (s : State) : (State.setFunc f v s).func f = v := by simp [State.func, State.setFunc]
theorem State.setFunc_func_other (f : Nat) (v : Func) (s : State) (f' : Nat) (h : f' ≠ f) : (State.setFunc f v s).func f' = s.func f' := by
  simp [State.func, State.setFunc, tblGetD_tblSet_ne _ _ _ _ h]
@[simp] theorem State.setFunc_queue (f : Nat) (v : Func) (s : State) (f' q' : Nat) : (State.setFunc f v s).queue f' q' = s.queue f' q' := rfl
@[simp] theorem State.setFunc_stream (f : Nat) (v : Func) (s : State) (f' i' : Nat) : (State.setFunc f v s).stream f' i' = s.stream f' i' := rfl
@[simp] theorem State.setFunc_bay (f : Nat) (v : Func) (s : State) (k' : Nat) : (State.setFunc f v s).bay k' = s.bay k' := rfl
@[simp] theorem State.setFunc_bank (f : Nat) (v : Func) (s : State) (b' : Nat) : (State.setFunc f v s).bank b' = s.bank b' := rfl
@[simp] theorem State.setFunc_port (f : Nat) (v : Func) (s : State) (n' : Nat) : (State.setFunc f v s).port n' = s.port n' := rfl
@[simp] theorem State.setFunc_pool (f : Nat) (v : Func) (s : State) (p' : Nat) : (State.setFunc f v s).pool p' = s.pool p' := rfl
@[simp] theorem State.setFunc_group (f : Nat) (v : Func) (s : State) (g' : Nat) : (State.setFunc f v s).group g' = s.group g' := rfl
@[simp] theorem State.setFunc_route (f : Nat) (v : Func) (s : State) (r' : Nat) : (State.setFunc f v s).route r' = s.route r' := rfl
@[simp] theorem State.setFunc_boundary (f : Nat) (v : Func) (s : State) (b' : Nat) : (State.setFunc f v s).boundary b' = s.boundary b' := rfl
@[simp] theorem State.setFunc_thermal (f : Nat) (v : Func) (s : State) (d' : Nat) : (State.setFunc f v s).thermal d' = s.thermal d' := rfl
@[simp] theorem State.setFunc_now (f : Nat) (v : Func) (s : State) : (State.setFunc f v s).now = s.now := rfl
@[simp] theorem State.setFunc_shown (f : Nat) (v : Func) (s : State) : (State.setFunc f v s).shown = s.shown := rfl
@[simp] theorem State.setFunc_nBays (f : Nat) (v : Func) (s : State) : (State.setFunc f v s).nBays = s.nBays := rfl
@[simp] theorem State.setFunc_nPorts (f : Nat) (v : Func) (s : State) : (State.setFunc f v s).nPorts = s.nPorts := rfl

/-- An update of one entry is a write of what it gives. -/
theorem State.modFunc_eq (f : Nat) (h : Func → Func) (s : State) : State.modFunc f h s = State.setFunc f (h (s.func f)) s := rfl

/-! ## setQueue -/

@[simp] theorem State.setQueue_caps (f q : Nat) (v : Queue) (s : State) : (State.setQueue f q v s).caps = s.caps := rfl
@[simp] theorem State.setQueue_pending (f q : Nat) (v : Queue) (s : State) : (State.setQueue f q v s).pending = s.pending := rfl
@[simp] theorem State.setQueue_freeCtr (f q : Nat) (v : Queue) (s : State) : (State.setQueue f q v s).freeCtr = s.freeCtr := rfl
@[simp] theorem State.setQueue_mem (f q : Nat) (v : Queue) (s : State) : (State.setQueue f q v s).mem = s.mem := rfl
@[simp] theorem State.setQueue_resp (f q : Nat) (v : Queue) (s : State) : (State.setQueue f q v s).resp = s.resp := rfl
@[simp] theorem State.setQueue_frame (f q : Nat) (v : Queue) (s : State) : (State.setQueue f q v s).frame = s.frame := rfl
@[simp] theorem State.setQueue_pins (f q : Nat) (v : Queue) (s : State) : (State.setQueue f q v s).pins = s.pins := rfl
@[simp] theorem State.setQueue_pace (f q : Nat) (v : Queue) (s : State) : (State.setQueue f q v s).pace = s.pace := rfl
@[simp] theorem State.setQueue_tel (f q : Nat) (v : Queue) (s : State) : (State.setQueue f q v s).tel = s.tel := rfl
@[simp] theorem State.setQueue_host (f q : Nat) (v : Queue) (s : State) : (State.setQueue f q v s).host = s.host := rfl
@[simp] theorem State.setQueue_frameLog (f q : Nat) (v : Queue) (s : State) : (State.setQueue f q v s).frameLog = s.frameLog := rfl
@[simp] theorem State.setQueue_units (f q : Nat) (v : Queue) (s : State) : (State.setQueue f q v s).units = s.units := rfl
@[simp] theorem State.setQueue_dump (f q : Nat) (v : Queue) (s : State) : (State.setQueue f q v s).dump = s.dump := rfl
@[simp] theorem State.setQueue_sec (f q : Nat) (v : Queue) (s : State) : (State.setQueue f q v s).sec = s.sec := rfl
@[simp] theorem State.setQueue_image (f q : Nat) (v : Queue) (s : State) : (State.setQueue f q v s).image = s.image := rfl
@[simp] theorem State.setQueue_bays (f q : Nat) (v : Queue) (s : State) : (State.setQueue f q v s).bays = s.bays := rfl
@[simp] theorem State.setQueue_routes (f q : Nat) (v : Queue) (s : State) : (State.setQueue f q v s).routes = s.routes := rfl
@[simp] theorem State.setQueue_bounds (f q : Nat) (v : Queue) (s : State) : (State.setQueue f q v s).bounds = s.bounds := rfl
@[simp] theorem State.setQueue_banks (f q : Nat) (v : Queue) (s : State) : (State.setQueue f q v s).banks = s.banks := rfl
@[simp] theorem State.setQueue_bankWords (f q : Nat) (v : Queue) (s : State) : (State.setQueue f q v s).bankWords = s.bankWords := rfl
@[simp] theorem State.setQueue_march (f q : Nat) (v : Queue) (s : State) : (State.setQueue f q v s).march = s.march := rfl
@[simp] theorem State.setQueue_ports (f q : Nat) (v : Queue) (s : State) : (State.setQueue f q v s).ports = s.ports := rfl
@[simp] theorem State.setQueue_running (f q : Nat) (v : Queue) (s : State) : (State.setQueue f q v s).running = s.running := rfl
@[simp] theorem State.setQueue_later (f q : Nat) (v : Queue) (s : State) : (State.setQueue f q v s).later = s.later := rfl
@[simp] theorem State.setQueue_funcs (f q : Nat) (v : Queue) (s : State) : (State.setQueue f q v s).funcs = s.funcs := rfl
theorem State.setQueue_queues (f q : Nat) (v : Queue) (s : State) : (State.setQueue f q v s).queues = tblSet s.queues (qKey f q) v := rfl
@[simp] theorem State.setQueue_streams (f q : Nat) (v : Queue) (s : State) : (State.setQueue f q v s).streams = s.streams := rfl
@[simp] theorem State.setQueue_groups (f q : Nat) (v : Queue) (s : State) : (State.setQueue f q v s).groups = s.groups := rfl
@[simp] theorem State.setQueue_pools (f q : Nat) (v : Queue) (s : State) : (State.setQueue f q v s).pools = s.pools := rfl
@[simp] theorem State.setQueue_stallUs (f q : Nat) (v : Queue) (s : State) : (State.setQueue f q v s).stallUs = s.stallUs := rfl
@[simp] theorem State.setQueue_genCtr (f q : Nat) (v : Queue) (s : State) : (State.setQueue f q v s).genCtr = s.genCtr := rfl
@[simp] theorem State.setQueue_notify (f q : Nat) (v : Queue) (s : State) : (State.setQueue f q v s).notify = s.notify := rfl
@[simp] theorem State.setQueue_relay (f q : Nat) (v : Queue) (s : State) : (State.setQueue f q v s).relay = s.relay := rfl
@[simp] theorem State.setQueue_therm (f q : Nat) (v : Queue) (s : State) : (State.setQueue f q v s).therm = s.therm := rfl
@[simp] theorem State.setQueue_thermModel (f q : Nat) (v : Queue) (s : State) : (State.setQueue f q v s).thermModel = s.thermModel := rfl
@[simp] theorem State.setQueue_heat (f q : Nat) (v : Queue) (s : State) : (State.setQueue f q v s).heat = s.heat := rfl
@[simp] theorem State.setQueue_wrappers (f q : Nat) (v : Queue) (s : State) : (State.setQueue f q v s).wrappers = s.wrappers := rfl
@[simp] theorem State.setQueue_func (f q : Nat) (v : Queue) (s : State) (f' : Nat) : (State.setQueue f q v s).func f' = s.func f' := rfl
@[simp] theorem State.setQueue_queue_same (f q : Nat) (v : Queue) (s : State) : (State.setQueue f q v s).queue f q = v := by simp [State.queue, State.setQueue]
theorem State.setQueue_queue_other (f q : Nat) (v : Queue) (s : State) (f' q' : Nat) (h : qKey f' q' ≠ qKey f q) : (State.setQueue f q v s).queue f' q' = s.queue f' q' := by
  simp [State.queue, State.setQueue, tblGetD_tblSet_ne _ _ _ _ h]
@[simp] theorem State.setQueue_stream (f q : Nat) (v : Queue) (s : State) (f' i' : Nat) : (State.setQueue f q v s).stream f' i' = s.stream f' i' := rfl
@[simp] theorem State.setQueue_bay (f q : Nat) (v : Queue) (s : State) (k' : Nat) : (State.setQueue f q v s).bay k' = s.bay k' := rfl
@[simp] theorem State.setQueue_bank (f q : Nat) (v : Queue) (s : State) (b' : Nat) : (State.setQueue f q v s).bank b' = s.bank b' := rfl
@[simp] theorem State.setQueue_port (f q : Nat) (v : Queue) (s : State) (n' : Nat) : (State.setQueue f q v s).port n' = s.port n' := rfl
@[simp] theorem State.setQueue_pool (f q : Nat) (v : Queue) (s : State) (p' : Nat) : (State.setQueue f q v s).pool p' = s.pool p' := rfl
@[simp] theorem State.setQueue_group (f q : Nat) (v : Queue) (s : State) (g' : Nat) : (State.setQueue f q v s).group g' = s.group g' := rfl
@[simp] theorem State.setQueue_route (f q : Nat) (v : Queue) (s : State) (r' : Nat) : (State.setQueue f q v s).route r' = s.route r' := rfl
@[simp] theorem State.setQueue_boundary (f q : Nat) (v : Queue) (s : State) (b' : Nat) : (State.setQueue f q v s).boundary b' = s.boundary b' := rfl
@[simp] theorem State.setQueue_thermal (f q : Nat) (v : Queue) (s : State) (d' : Nat) : (State.setQueue f q v s).thermal d' = s.thermal d' := rfl
@[simp] theorem State.setQueue_now (f q : Nat) (v : Queue) (s : State) : (State.setQueue f q v s).now = s.now := rfl
@[simp] theorem State.setQueue_shown (f q : Nat) (v : Queue) (s : State) : (State.setQueue f q v s).shown = s.shown := rfl
@[simp] theorem State.setQueue_nBays (f q : Nat) (v : Queue) (s : State) : (State.setQueue f q v s).nBays = s.nBays := rfl
@[simp] theorem State.setQueue_nPorts (f q : Nat) (v : Queue) (s : State) : (State.setQueue f q v s).nPorts = s.nPorts := rfl

/-- An update of one entry is a write of what it gives. -/
theorem State.modQueue_eq (f q : Nat) (h : Queue → Queue) (s : State) : State.modQueue f q h s = State.setQueue f q (h (s.queue f q)) s := rfl

/-! ## setStream -/

@[simp] theorem State.setStream_caps (f i : Nat) (v : Stream) (s : State) : (State.setStream f i v s).caps = s.caps := rfl
@[simp] theorem State.setStream_pending (f i : Nat) (v : Stream) (s : State) : (State.setStream f i v s).pending = s.pending := rfl
@[simp] theorem State.setStream_freeCtr (f i : Nat) (v : Stream) (s : State) : (State.setStream f i v s).freeCtr = s.freeCtr := rfl
@[simp] theorem State.setStream_mem (f i : Nat) (v : Stream) (s : State) : (State.setStream f i v s).mem = s.mem := rfl
@[simp] theorem State.setStream_resp (f i : Nat) (v : Stream) (s : State) : (State.setStream f i v s).resp = s.resp := rfl
@[simp] theorem State.setStream_frame (f i : Nat) (v : Stream) (s : State) : (State.setStream f i v s).frame = s.frame := rfl
@[simp] theorem State.setStream_pins (f i : Nat) (v : Stream) (s : State) : (State.setStream f i v s).pins = s.pins := rfl
@[simp] theorem State.setStream_pace (f i : Nat) (v : Stream) (s : State) : (State.setStream f i v s).pace = s.pace := rfl
@[simp] theorem State.setStream_tel (f i : Nat) (v : Stream) (s : State) : (State.setStream f i v s).tel = s.tel := rfl
@[simp] theorem State.setStream_host (f i : Nat) (v : Stream) (s : State) : (State.setStream f i v s).host = s.host := rfl
@[simp] theorem State.setStream_frameLog (f i : Nat) (v : Stream) (s : State) : (State.setStream f i v s).frameLog = s.frameLog := rfl
@[simp] theorem State.setStream_units (f i : Nat) (v : Stream) (s : State) : (State.setStream f i v s).units = s.units := rfl
@[simp] theorem State.setStream_dump (f i : Nat) (v : Stream) (s : State) : (State.setStream f i v s).dump = s.dump := rfl
@[simp] theorem State.setStream_sec (f i : Nat) (v : Stream) (s : State) : (State.setStream f i v s).sec = s.sec := rfl
@[simp] theorem State.setStream_image (f i : Nat) (v : Stream) (s : State) : (State.setStream f i v s).image = s.image := rfl
@[simp] theorem State.setStream_bays (f i : Nat) (v : Stream) (s : State) : (State.setStream f i v s).bays = s.bays := rfl
@[simp] theorem State.setStream_routes (f i : Nat) (v : Stream) (s : State) : (State.setStream f i v s).routes = s.routes := rfl
@[simp] theorem State.setStream_bounds (f i : Nat) (v : Stream) (s : State) : (State.setStream f i v s).bounds = s.bounds := rfl
@[simp] theorem State.setStream_banks (f i : Nat) (v : Stream) (s : State) : (State.setStream f i v s).banks = s.banks := rfl
@[simp] theorem State.setStream_bankWords (f i : Nat) (v : Stream) (s : State) : (State.setStream f i v s).bankWords = s.bankWords := rfl
@[simp] theorem State.setStream_march (f i : Nat) (v : Stream) (s : State) : (State.setStream f i v s).march = s.march := rfl
@[simp] theorem State.setStream_ports (f i : Nat) (v : Stream) (s : State) : (State.setStream f i v s).ports = s.ports := rfl
@[simp] theorem State.setStream_running (f i : Nat) (v : Stream) (s : State) : (State.setStream f i v s).running = s.running := rfl
@[simp] theorem State.setStream_later (f i : Nat) (v : Stream) (s : State) : (State.setStream f i v s).later = s.later := rfl
@[simp] theorem State.setStream_funcs (f i : Nat) (v : Stream) (s : State) : (State.setStream f i v s).funcs = s.funcs := rfl
@[simp] theorem State.setStream_queues (f i : Nat) (v : Stream) (s : State) : (State.setStream f i v s).queues = s.queues := rfl
theorem State.setStream_streams (f i : Nat) (v : Stream) (s : State) : (State.setStream f i v s).streams = tblSet s.streams (sKey f i) v := rfl
@[simp] theorem State.setStream_groups (f i : Nat) (v : Stream) (s : State) : (State.setStream f i v s).groups = s.groups := rfl
@[simp] theorem State.setStream_pools (f i : Nat) (v : Stream) (s : State) : (State.setStream f i v s).pools = s.pools := rfl
@[simp] theorem State.setStream_stallUs (f i : Nat) (v : Stream) (s : State) : (State.setStream f i v s).stallUs = s.stallUs := rfl
@[simp] theorem State.setStream_genCtr (f i : Nat) (v : Stream) (s : State) : (State.setStream f i v s).genCtr = s.genCtr := rfl
@[simp] theorem State.setStream_notify (f i : Nat) (v : Stream) (s : State) : (State.setStream f i v s).notify = s.notify := rfl
@[simp] theorem State.setStream_relay (f i : Nat) (v : Stream) (s : State) : (State.setStream f i v s).relay = s.relay := rfl
@[simp] theorem State.setStream_therm (f i : Nat) (v : Stream) (s : State) : (State.setStream f i v s).therm = s.therm := rfl
@[simp] theorem State.setStream_thermModel (f i : Nat) (v : Stream) (s : State) : (State.setStream f i v s).thermModel = s.thermModel := rfl
@[simp] theorem State.setStream_heat (f i : Nat) (v : Stream) (s : State) : (State.setStream f i v s).heat = s.heat := rfl
@[simp] theorem State.setStream_wrappers (f i : Nat) (v : Stream) (s : State) : (State.setStream f i v s).wrappers = s.wrappers := rfl
@[simp] theorem State.setStream_func (f i : Nat) (v : Stream) (s : State) (f' : Nat) : (State.setStream f i v s).func f' = s.func f' := rfl
@[simp] theorem State.setStream_queue (f i : Nat) (v : Stream) (s : State) (f' q' : Nat) : (State.setStream f i v s).queue f' q' = s.queue f' q' := rfl
@[simp] theorem State.setStream_stream_same (f i : Nat) (v : Stream) (s : State) : (State.setStream f i v s).stream f i = v := by simp [State.stream, State.setStream]
theorem State.setStream_stream_other (f i : Nat) (v : Stream) (s : State) (f' i' : Nat) (h : sKey f' i' ≠ sKey f i) : (State.setStream f i v s).stream f' i' = s.stream f' i' := by
  simp [State.stream, State.setStream, tblGetD_tblSet_ne _ _ _ _ h]
@[simp] theorem State.setStream_bay (f i : Nat) (v : Stream) (s : State) (k' : Nat) : (State.setStream f i v s).bay k' = s.bay k' := rfl
@[simp] theorem State.setStream_bank (f i : Nat) (v : Stream) (s : State) (b' : Nat) : (State.setStream f i v s).bank b' = s.bank b' := rfl
@[simp] theorem State.setStream_port (f i : Nat) (v : Stream) (s : State) (n' : Nat) : (State.setStream f i v s).port n' = s.port n' := rfl
@[simp] theorem State.setStream_pool (f i : Nat) (v : Stream) (s : State) (p' : Nat) : (State.setStream f i v s).pool p' = s.pool p' := rfl
@[simp] theorem State.setStream_group (f i : Nat) (v : Stream) (s : State) (g' : Nat) : (State.setStream f i v s).group g' = s.group g' := rfl
@[simp] theorem State.setStream_route (f i : Nat) (v : Stream) (s : State) (r' : Nat) : (State.setStream f i v s).route r' = s.route r' := rfl
@[simp] theorem State.setStream_boundary (f i : Nat) (v : Stream) (s : State) (b' : Nat) : (State.setStream f i v s).boundary b' = s.boundary b' := rfl
@[simp] theorem State.setStream_thermal (f i : Nat) (v : Stream) (s : State) (d' : Nat) : (State.setStream f i v s).thermal d' = s.thermal d' := rfl
@[simp] theorem State.setStream_now (f i : Nat) (v : Stream) (s : State) : (State.setStream f i v s).now = s.now := rfl
@[simp] theorem State.setStream_shown (f i : Nat) (v : Stream) (s : State) : (State.setStream f i v s).shown = s.shown := rfl
@[simp] theorem State.setStream_nBays (f i : Nat) (v : Stream) (s : State) : (State.setStream f i v s).nBays = s.nBays := rfl
@[simp] theorem State.setStream_nPorts (f i : Nat) (v : Stream) (s : State) : (State.setStream f i v s).nPorts = s.nPorts := rfl

/-- An update of one entry is a write of what it gives. -/
theorem State.modStream_eq (f i : Nat) (h : Stream → Stream) (s : State) : State.modStream f i h s = State.setStream f i (h (s.stream f i)) s := rfl

/-! ## setBay -/

@[simp] theorem State.setBay_caps (k : Nat) (v : Bay) (s : State) : (State.setBay k v s).caps = s.caps := rfl
@[simp] theorem State.setBay_pending (k : Nat) (v : Bay) (s : State) : (State.setBay k v s).pending = s.pending := rfl
@[simp] theorem State.setBay_freeCtr (k : Nat) (v : Bay) (s : State) : (State.setBay k v s).freeCtr = s.freeCtr := rfl
@[simp] theorem State.setBay_mem (k : Nat) (v : Bay) (s : State) : (State.setBay k v s).mem = s.mem := rfl
@[simp] theorem State.setBay_resp (k : Nat) (v : Bay) (s : State) : (State.setBay k v s).resp = s.resp := rfl
@[simp] theorem State.setBay_frame (k : Nat) (v : Bay) (s : State) : (State.setBay k v s).frame = s.frame := rfl
@[simp] theorem State.setBay_pins (k : Nat) (v : Bay) (s : State) : (State.setBay k v s).pins = s.pins := rfl
@[simp] theorem State.setBay_pace (k : Nat) (v : Bay) (s : State) : (State.setBay k v s).pace = s.pace := rfl
@[simp] theorem State.setBay_tel (k : Nat) (v : Bay) (s : State) : (State.setBay k v s).tel = s.tel := rfl
@[simp] theorem State.setBay_host (k : Nat) (v : Bay) (s : State) : (State.setBay k v s).host = s.host := rfl
@[simp] theorem State.setBay_frameLog (k : Nat) (v : Bay) (s : State) : (State.setBay k v s).frameLog = s.frameLog := rfl
@[simp] theorem State.setBay_units (k : Nat) (v : Bay) (s : State) : (State.setBay k v s).units = s.units := rfl
@[simp] theorem State.setBay_dump (k : Nat) (v : Bay) (s : State) : (State.setBay k v s).dump = s.dump := rfl
@[simp] theorem State.setBay_sec (k : Nat) (v : Bay) (s : State) : (State.setBay k v s).sec = s.sec := rfl
@[simp] theorem State.setBay_image (k : Nat) (v : Bay) (s : State) : (State.setBay k v s).image = s.image := rfl
theorem State.setBay_bays (k : Nat) (v : Bay) (s : State) : (State.setBay k v s).bays = tblSet s.bays (k) v := rfl
@[simp] theorem State.setBay_routes (k : Nat) (v : Bay) (s : State) : (State.setBay k v s).routes = s.routes := rfl
@[simp] theorem State.setBay_bounds (k : Nat) (v : Bay) (s : State) : (State.setBay k v s).bounds = s.bounds := rfl
@[simp] theorem State.setBay_banks (k : Nat) (v : Bay) (s : State) : (State.setBay k v s).banks = s.banks := rfl
@[simp] theorem State.setBay_bankWords (k : Nat) (v : Bay) (s : State) : (State.setBay k v s).bankWords = s.bankWords := rfl
@[simp] theorem State.setBay_march (k : Nat) (v : Bay) (s : State) : (State.setBay k v s).march = s.march := rfl
@[simp] theorem State.setBay_ports (k : Nat) (v : Bay) (s : State) : (State.setBay k v s).ports = s.ports := rfl
@[simp] theorem State.setBay_running (k : Nat) (v : Bay) (s : State) : (State.setBay k v s).running = s.running := rfl
@[simp] theorem State.setBay_later (k : Nat) (v : Bay) (s : State) : (State.setBay k v s).later = s.later := rfl
@[simp] theorem State.setBay_funcs (k : Nat) (v : Bay) (s : State) : (State.setBay k v s).funcs = s.funcs := rfl
@[simp] theorem State.setBay_queues (k : Nat) (v : Bay) (s : State) : (State.setBay k v s).queues = s.queues := rfl
@[simp] theorem State.setBay_streams (k : Nat) (v : Bay) (s : State) : (State.setBay k v s).streams = s.streams := rfl
@[simp] theorem State.setBay_groups (k : Nat) (v : Bay) (s : State) : (State.setBay k v s).groups = s.groups := rfl
@[simp] theorem State.setBay_pools (k : Nat) (v : Bay) (s : State) : (State.setBay k v s).pools = s.pools := rfl
@[simp] theorem State.setBay_stallUs (k : Nat) (v : Bay) (s : State) : (State.setBay k v s).stallUs = s.stallUs := rfl
@[simp] theorem State.setBay_genCtr (k : Nat) (v : Bay) (s : State) : (State.setBay k v s).genCtr = s.genCtr := rfl
@[simp] theorem State.setBay_notify (k : Nat) (v : Bay) (s : State) : (State.setBay k v s).notify = s.notify := rfl
@[simp] theorem State.setBay_relay (k : Nat) (v : Bay) (s : State) : (State.setBay k v s).relay = s.relay := rfl
@[simp] theorem State.setBay_therm (k : Nat) (v : Bay) (s : State) : (State.setBay k v s).therm = s.therm := rfl
@[simp] theorem State.setBay_thermModel (k : Nat) (v : Bay) (s : State) : (State.setBay k v s).thermModel = s.thermModel := rfl
@[simp] theorem State.setBay_heat (k : Nat) (v : Bay) (s : State) : (State.setBay k v s).heat = s.heat := rfl
@[simp] theorem State.setBay_wrappers (k : Nat) (v : Bay) (s : State) : (State.setBay k v s).wrappers = s.wrappers := rfl
@[simp] theorem State.setBay_func (k : Nat) (v : Bay) (s : State) (f' : Nat) : (State.setBay k v s).func f' = s.func f' := rfl
@[simp] theorem State.setBay_queue (k : Nat) (v : Bay) (s : State) (f' q' : Nat) : (State.setBay k v s).queue f' q' = s.queue f' q' := rfl
@[simp] theorem State.setBay_stream (k : Nat) (v : Bay) (s : State) (f' i' : Nat) : (State.setBay k v s).stream f' i' = s.stream f' i' := rfl
@[simp] theorem State.setBay_bay_same (k : Nat) (v : Bay) (s : State) : (State.setBay k v s).bay k = v := by simp [State.bay, State.setBay]
theorem State.setBay_bay_other (k : Nat) (v : Bay) (s : State) (k' : Nat) (h : k' ≠ k) : (State.setBay k v s).bay k' = s.bay k' := by
  simp [State.bay, State.setBay, tblGetD_tblSet_ne _ _ _ _ h]
@[simp] theorem State.setBay_bank (k : Nat) (v : Bay) (s : State) (b' : Nat) : (State.setBay k v s).bank b' = s.bank b' := rfl
@[simp] theorem State.setBay_port (k : Nat) (v : Bay) (s : State) (n' : Nat) : (State.setBay k v s).port n' = s.port n' := rfl
@[simp] theorem State.setBay_pool (k : Nat) (v : Bay) (s : State) (p' : Nat) : (State.setBay k v s).pool p' = s.pool p' := rfl
@[simp] theorem State.setBay_group (k : Nat) (v : Bay) (s : State) (g' : Nat) : (State.setBay k v s).group g' = s.group g' := rfl
@[simp] theorem State.setBay_route (k : Nat) (v : Bay) (s : State) (r' : Nat) : (State.setBay k v s).route r' = s.route r' := rfl
@[simp] theorem State.setBay_boundary (k : Nat) (v : Bay) (s : State) (b' : Nat) : (State.setBay k v s).boundary b' = s.boundary b' := rfl
@[simp] theorem State.setBay_thermal (k : Nat) (v : Bay) (s : State) (d' : Nat) : (State.setBay k v s).thermal d' = s.thermal d' := rfl
@[simp] theorem State.setBay_now (k : Nat) (v : Bay) (s : State) : (State.setBay k v s).now = s.now := rfl
@[simp] theorem State.setBay_shown (k : Nat) (v : Bay) (s : State) : (State.setBay k v s).shown = s.shown := rfl
@[simp] theorem State.setBay_nBays (k : Nat) (v : Bay) (s : State) : (State.setBay k v s).nBays = s.nBays := rfl
@[simp] theorem State.setBay_nPorts (k : Nat) (v : Bay) (s : State) : (State.setBay k v s).nPorts = s.nPorts := rfl

/-- An update of one entry is a write of what it gives. -/
theorem State.modBay_eq (k : Nat) (h : Bay → Bay) (s : State) : State.modBay k h s = State.setBay k (h (s.bay k)) s := rfl

/-! ## setBank -/

@[simp] theorem State.setBank_caps (b : Nat) (v : Bank) (s : State) : (State.setBank b v s).caps = s.caps := rfl
@[simp] theorem State.setBank_pending (b : Nat) (v : Bank) (s : State) : (State.setBank b v s).pending = s.pending := rfl
@[simp] theorem State.setBank_freeCtr (b : Nat) (v : Bank) (s : State) : (State.setBank b v s).freeCtr = s.freeCtr := rfl
@[simp] theorem State.setBank_mem (b : Nat) (v : Bank) (s : State) : (State.setBank b v s).mem = s.mem := rfl
@[simp] theorem State.setBank_resp (b : Nat) (v : Bank) (s : State) : (State.setBank b v s).resp = s.resp := rfl
@[simp] theorem State.setBank_frame (b : Nat) (v : Bank) (s : State) : (State.setBank b v s).frame = s.frame := rfl
@[simp] theorem State.setBank_pins (b : Nat) (v : Bank) (s : State) : (State.setBank b v s).pins = s.pins := rfl
@[simp] theorem State.setBank_pace (b : Nat) (v : Bank) (s : State) : (State.setBank b v s).pace = s.pace := rfl
@[simp] theorem State.setBank_tel (b : Nat) (v : Bank) (s : State) : (State.setBank b v s).tel = s.tel := rfl
@[simp] theorem State.setBank_host (b : Nat) (v : Bank) (s : State) : (State.setBank b v s).host = s.host := rfl
@[simp] theorem State.setBank_frameLog (b : Nat) (v : Bank) (s : State) : (State.setBank b v s).frameLog = s.frameLog := rfl
@[simp] theorem State.setBank_units (b : Nat) (v : Bank) (s : State) : (State.setBank b v s).units = s.units := rfl
@[simp] theorem State.setBank_dump (b : Nat) (v : Bank) (s : State) : (State.setBank b v s).dump = s.dump := rfl
@[simp] theorem State.setBank_sec (b : Nat) (v : Bank) (s : State) : (State.setBank b v s).sec = s.sec := rfl
@[simp] theorem State.setBank_image (b : Nat) (v : Bank) (s : State) : (State.setBank b v s).image = s.image := rfl
@[simp] theorem State.setBank_bays (b : Nat) (v : Bank) (s : State) : (State.setBank b v s).bays = s.bays := rfl
@[simp] theorem State.setBank_routes (b : Nat) (v : Bank) (s : State) : (State.setBank b v s).routes = s.routes := rfl
@[simp] theorem State.setBank_bounds (b : Nat) (v : Bank) (s : State) : (State.setBank b v s).bounds = s.bounds := rfl
theorem State.setBank_banks (b : Nat) (v : Bank) (s : State) : (State.setBank b v s).banks = tblSet s.banks (b) v := rfl
@[simp] theorem State.setBank_bankWords (b : Nat) (v : Bank) (s : State) : (State.setBank b v s).bankWords = s.bankWords := rfl
@[simp] theorem State.setBank_march (b : Nat) (v : Bank) (s : State) : (State.setBank b v s).march = s.march := rfl
@[simp] theorem State.setBank_ports (b : Nat) (v : Bank) (s : State) : (State.setBank b v s).ports = s.ports := rfl
@[simp] theorem State.setBank_running (b : Nat) (v : Bank) (s : State) : (State.setBank b v s).running = s.running := rfl
@[simp] theorem State.setBank_later (b : Nat) (v : Bank) (s : State) : (State.setBank b v s).later = s.later := rfl
@[simp] theorem State.setBank_funcs (b : Nat) (v : Bank) (s : State) : (State.setBank b v s).funcs = s.funcs := rfl
@[simp] theorem State.setBank_queues (b : Nat) (v : Bank) (s : State) : (State.setBank b v s).queues = s.queues := rfl
@[simp] theorem State.setBank_streams (b : Nat) (v : Bank) (s : State) : (State.setBank b v s).streams = s.streams := rfl
@[simp] theorem State.setBank_groups (b : Nat) (v : Bank) (s : State) : (State.setBank b v s).groups = s.groups := rfl
@[simp] theorem State.setBank_pools (b : Nat) (v : Bank) (s : State) : (State.setBank b v s).pools = s.pools := rfl
@[simp] theorem State.setBank_stallUs (b : Nat) (v : Bank) (s : State) : (State.setBank b v s).stallUs = s.stallUs := rfl
@[simp] theorem State.setBank_genCtr (b : Nat) (v : Bank) (s : State) : (State.setBank b v s).genCtr = s.genCtr := rfl
@[simp] theorem State.setBank_notify (b : Nat) (v : Bank) (s : State) : (State.setBank b v s).notify = s.notify := rfl
@[simp] theorem State.setBank_relay (b : Nat) (v : Bank) (s : State) : (State.setBank b v s).relay = s.relay := rfl
@[simp] theorem State.setBank_therm (b : Nat) (v : Bank) (s : State) : (State.setBank b v s).therm = s.therm := rfl
@[simp] theorem State.setBank_thermModel (b : Nat) (v : Bank) (s : State) : (State.setBank b v s).thermModel = s.thermModel := rfl
@[simp] theorem State.setBank_heat (b : Nat) (v : Bank) (s : State) : (State.setBank b v s).heat = s.heat := rfl
@[simp] theorem State.setBank_wrappers (b : Nat) (v : Bank) (s : State) : (State.setBank b v s).wrappers = s.wrappers := rfl
@[simp] theorem State.setBank_func (b : Nat) (v : Bank) (s : State) (f' : Nat) : (State.setBank b v s).func f' = s.func f' := rfl
@[simp] theorem State.setBank_queue (b : Nat) (v : Bank) (s : State) (f' q' : Nat) : (State.setBank b v s).queue f' q' = s.queue f' q' := rfl
@[simp] theorem State.setBank_stream (b : Nat) (v : Bank) (s : State) (f' i' : Nat) : (State.setBank b v s).stream f' i' = s.stream f' i' := rfl
@[simp] theorem State.setBank_bay (b : Nat) (v : Bank) (s : State) (k' : Nat) : (State.setBank b v s).bay k' = s.bay k' := rfl
@[simp] theorem State.setBank_bank_same (b : Nat) (v : Bank) (s : State) : (State.setBank b v s).bank b = v := by simp [State.bank, State.setBank]
theorem State.setBank_bank_other (b : Nat) (v : Bank) (s : State) (b' : Nat) (h : b' ≠ b) : (State.setBank b v s).bank b' = s.bank b' := by
  simp [State.bank, State.setBank, tblGetD_tblSet_ne _ _ _ _ h]
@[simp] theorem State.setBank_port (b : Nat) (v : Bank) (s : State) (n' : Nat) : (State.setBank b v s).port n' = s.port n' := rfl
@[simp] theorem State.setBank_pool (b : Nat) (v : Bank) (s : State) (p' : Nat) : (State.setBank b v s).pool p' = s.pool p' := rfl
@[simp] theorem State.setBank_group (b : Nat) (v : Bank) (s : State) (g' : Nat) : (State.setBank b v s).group g' = s.group g' := rfl
@[simp] theorem State.setBank_route (b : Nat) (v : Bank) (s : State) (r' : Nat) : (State.setBank b v s).route r' = s.route r' := rfl
@[simp] theorem State.setBank_boundary (b : Nat) (v : Bank) (s : State) (b' : Nat) : (State.setBank b v s).boundary b' = s.boundary b' := rfl
@[simp] theorem State.setBank_thermal (b : Nat) (v : Bank) (s : State) (d' : Nat) : (State.setBank b v s).thermal d' = s.thermal d' := rfl
@[simp] theorem State.setBank_now (b : Nat) (v : Bank) (s : State) : (State.setBank b v s).now = s.now := rfl
@[simp] theorem State.setBank_shown (b : Nat) (v : Bank) (s : State) : (State.setBank b v s).shown = s.shown := rfl
@[simp] theorem State.setBank_nBays (b : Nat) (v : Bank) (s : State) : (State.setBank b v s).nBays = s.nBays := rfl
@[simp] theorem State.setBank_nPorts (b : Nat) (v : Bank) (s : State) : (State.setBank b v s).nPorts = s.nPorts := rfl

/-- An update of one entry is a write of what it gives. -/
theorem State.modBank_eq (b : Nat) (h : Bank → Bank) (s : State) : State.modBank b h s = State.setBank b (h (s.bank b)) s := rfl

/-! ## setPort -/

@[simp] theorem State.setPort_caps (n : Nat) (v : Port) (s : State) : (State.setPort n v s).caps = s.caps := rfl
@[simp] theorem State.setPort_pending (n : Nat) (v : Port) (s : State) : (State.setPort n v s).pending = s.pending := rfl
@[simp] theorem State.setPort_freeCtr (n : Nat) (v : Port) (s : State) : (State.setPort n v s).freeCtr = s.freeCtr := rfl
@[simp] theorem State.setPort_mem (n : Nat) (v : Port) (s : State) : (State.setPort n v s).mem = s.mem := rfl
@[simp] theorem State.setPort_resp (n : Nat) (v : Port) (s : State) : (State.setPort n v s).resp = s.resp := rfl
@[simp] theorem State.setPort_frame (n : Nat) (v : Port) (s : State) : (State.setPort n v s).frame = s.frame := rfl
@[simp] theorem State.setPort_pins (n : Nat) (v : Port) (s : State) : (State.setPort n v s).pins = s.pins := rfl
@[simp] theorem State.setPort_pace (n : Nat) (v : Port) (s : State) : (State.setPort n v s).pace = s.pace := rfl
@[simp] theorem State.setPort_tel (n : Nat) (v : Port) (s : State) : (State.setPort n v s).tel = s.tel := rfl
@[simp] theorem State.setPort_host (n : Nat) (v : Port) (s : State) : (State.setPort n v s).host = s.host := rfl
@[simp] theorem State.setPort_frameLog (n : Nat) (v : Port) (s : State) : (State.setPort n v s).frameLog = s.frameLog := rfl
@[simp] theorem State.setPort_units (n : Nat) (v : Port) (s : State) : (State.setPort n v s).units = s.units := rfl
@[simp] theorem State.setPort_dump (n : Nat) (v : Port) (s : State) : (State.setPort n v s).dump = s.dump := rfl
@[simp] theorem State.setPort_sec (n : Nat) (v : Port) (s : State) : (State.setPort n v s).sec = s.sec := rfl
@[simp] theorem State.setPort_image (n : Nat) (v : Port) (s : State) : (State.setPort n v s).image = s.image := rfl
@[simp] theorem State.setPort_bays (n : Nat) (v : Port) (s : State) : (State.setPort n v s).bays = s.bays := rfl
@[simp] theorem State.setPort_routes (n : Nat) (v : Port) (s : State) : (State.setPort n v s).routes = s.routes := rfl
@[simp] theorem State.setPort_bounds (n : Nat) (v : Port) (s : State) : (State.setPort n v s).bounds = s.bounds := rfl
@[simp] theorem State.setPort_banks (n : Nat) (v : Port) (s : State) : (State.setPort n v s).banks = s.banks := rfl
@[simp] theorem State.setPort_bankWords (n : Nat) (v : Port) (s : State) : (State.setPort n v s).bankWords = s.bankWords := rfl
@[simp] theorem State.setPort_march (n : Nat) (v : Port) (s : State) : (State.setPort n v s).march = s.march := rfl
theorem State.setPort_ports (n : Nat) (v : Port) (s : State) : (State.setPort n v s).ports = tblSet s.ports (n) v := rfl
@[simp] theorem State.setPort_running (n : Nat) (v : Port) (s : State) : (State.setPort n v s).running = s.running := rfl
@[simp] theorem State.setPort_later (n : Nat) (v : Port) (s : State) : (State.setPort n v s).later = s.later := rfl
@[simp] theorem State.setPort_funcs (n : Nat) (v : Port) (s : State) : (State.setPort n v s).funcs = s.funcs := rfl
@[simp] theorem State.setPort_queues (n : Nat) (v : Port) (s : State) : (State.setPort n v s).queues = s.queues := rfl
@[simp] theorem State.setPort_streams (n : Nat) (v : Port) (s : State) : (State.setPort n v s).streams = s.streams := rfl
@[simp] theorem State.setPort_groups (n : Nat) (v : Port) (s : State) : (State.setPort n v s).groups = s.groups := rfl
@[simp] theorem State.setPort_pools (n : Nat) (v : Port) (s : State) : (State.setPort n v s).pools = s.pools := rfl
@[simp] theorem State.setPort_stallUs (n : Nat) (v : Port) (s : State) : (State.setPort n v s).stallUs = s.stallUs := rfl
@[simp] theorem State.setPort_genCtr (n : Nat) (v : Port) (s : State) : (State.setPort n v s).genCtr = s.genCtr := rfl
@[simp] theorem State.setPort_notify (n : Nat) (v : Port) (s : State) : (State.setPort n v s).notify = s.notify := rfl
@[simp] theorem State.setPort_relay (n : Nat) (v : Port) (s : State) : (State.setPort n v s).relay = s.relay := rfl
@[simp] theorem State.setPort_therm (n : Nat) (v : Port) (s : State) : (State.setPort n v s).therm = s.therm := rfl
@[simp] theorem State.setPort_thermModel (n : Nat) (v : Port) (s : State) : (State.setPort n v s).thermModel = s.thermModel := rfl
@[simp] theorem State.setPort_heat (n : Nat) (v : Port) (s : State) : (State.setPort n v s).heat = s.heat := rfl
@[simp] theorem State.setPort_wrappers (n : Nat) (v : Port) (s : State) : (State.setPort n v s).wrappers = s.wrappers := rfl
@[simp] theorem State.setPort_func (n : Nat) (v : Port) (s : State) (f' : Nat) : (State.setPort n v s).func f' = s.func f' := rfl
@[simp] theorem State.setPort_queue (n : Nat) (v : Port) (s : State) (f' q' : Nat) : (State.setPort n v s).queue f' q' = s.queue f' q' := rfl
@[simp] theorem State.setPort_stream (n : Nat) (v : Port) (s : State) (f' i' : Nat) : (State.setPort n v s).stream f' i' = s.stream f' i' := rfl
@[simp] theorem State.setPort_bay (n : Nat) (v : Port) (s : State) (k' : Nat) : (State.setPort n v s).bay k' = s.bay k' := rfl
@[simp] theorem State.setPort_bank (n : Nat) (v : Port) (s : State) (b' : Nat) : (State.setPort n v s).bank b' = s.bank b' := rfl
@[simp] theorem State.setPort_port_same (n : Nat) (v : Port) (s : State) : (State.setPort n v s).port n = v := by simp [State.port, State.setPort]
theorem State.setPort_port_other (n : Nat) (v : Port) (s : State) (n' : Nat) (h : n' ≠ n) : (State.setPort n v s).port n' = s.port n' := by
  simp [State.port, State.setPort, tblGetD_tblSet_ne _ _ _ _ h]
@[simp] theorem State.setPort_pool (n : Nat) (v : Port) (s : State) (p' : Nat) : (State.setPort n v s).pool p' = s.pool p' := rfl
@[simp] theorem State.setPort_group (n : Nat) (v : Port) (s : State) (g' : Nat) : (State.setPort n v s).group g' = s.group g' := rfl
@[simp] theorem State.setPort_route (n : Nat) (v : Port) (s : State) (r' : Nat) : (State.setPort n v s).route r' = s.route r' := rfl
@[simp] theorem State.setPort_boundary (n : Nat) (v : Port) (s : State) (b' : Nat) : (State.setPort n v s).boundary b' = s.boundary b' := rfl
@[simp] theorem State.setPort_thermal (n : Nat) (v : Port) (s : State) (d' : Nat) : (State.setPort n v s).thermal d' = s.thermal d' := rfl
@[simp] theorem State.setPort_now (n : Nat) (v : Port) (s : State) : (State.setPort n v s).now = s.now := rfl
@[simp] theorem State.setPort_shown (n : Nat) (v : Port) (s : State) : (State.setPort n v s).shown = s.shown := rfl
@[simp] theorem State.setPort_nBays (n : Nat) (v : Port) (s : State) : (State.setPort n v s).nBays = s.nBays := rfl
@[simp] theorem State.setPort_nPorts (n : Nat) (v : Port) (s : State) : (State.setPort n v s).nPorts = s.nPorts := rfl

/-- An update of one entry is a write of what it gives. -/
theorem State.modPort_eq (n : Nat) (h : Port → Port) (s : State) : State.modPort n h s = State.setPort n (h (s.port n)) s := rfl

/-! ## setPool -/

@[simp] theorem State.setPool_caps (p : Nat) (v : Pool) (s : State) : (State.setPool p v s).caps = s.caps := rfl
@[simp] theorem State.setPool_pending (p : Nat) (v : Pool) (s : State) : (State.setPool p v s).pending = s.pending := rfl
@[simp] theorem State.setPool_freeCtr (p : Nat) (v : Pool) (s : State) : (State.setPool p v s).freeCtr = s.freeCtr := rfl
@[simp] theorem State.setPool_mem (p : Nat) (v : Pool) (s : State) : (State.setPool p v s).mem = s.mem := rfl
@[simp] theorem State.setPool_resp (p : Nat) (v : Pool) (s : State) : (State.setPool p v s).resp = s.resp := rfl
@[simp] theorem State.setPool_frame (p : Nat) (v : Pool) (s : State) : (State.setPool p v s).frame = s.frame := rfl
@[simp] theorem State.setPool_pins (p : Nat) (v : Pool) (s : State) : (State.setPool p v s).pins = s.pins := rfl
@[simp] theorem State.setPool_pace (p : Nat) (v : Pool) (s : State) : (State.setPool p v s).pace = s.pace := rfl
@[simp] theorem State.setPool_tel (p : Nat) (v : Pool) (s : State) : (State.setPool p v s).tel = s.tel := rfl
@[simp] theorem State.setPool_host (p : Nat) (v : Pool) (s : State) : (State.setPool p v s).host = s.host := rfl
@[simp] theorem State.setPool_frameLog (p : Nat) (v : Pool) (s : State) : (State.setPool p v s).frameLog = s.frameLog := rfl
@[simp] theorem State.setPool_units (p : Nat) (v : Pool) (s : State) : (State.setPool p v s).units = s.units := rfl
@[simp] theorem State.setPool_dump (p : Nat) (v : Pool) (s : State) : (State.setPool p v s).dump = s.dump := rfl
@[simp] theorem State.setPool_sec (p : Nat) (v : Pool) (s : State) : (State.setPool p v s).sec = s.sec := rfl
@[simp] theorem State.setPool_image (p : Nat) (v : Pool) (s : State) : (State.setPool p v s).image = s.image := rfl
@[simp] theorem State.setPool_bays (p : Nat) (v : Pool) (s : State) : (State.setPool p v s).bays = s.bays := rfl
@[simp] theorem State.setPool_routes (p : Nat) (v : Pool) (s : State) : (State.setPool p v s).routes = s.routes := rfl
@[simp] theorem State.setPool_bounds (p : Nat) (v : Pool) (s : State) : (State.setPool p v s).bounds = s.bounds := rfl
@[simp] theorem State.setPool_banks (p : Nat) (v : Pool) (s : State) : (State.setPool p v s).banks = s.banks := rfl
@[simp] theorem State.setPool_bankWords (p : Nat) (v : Pool) (s : State) : (State.setPool p v s).bankWords = s.bankWords := rfl
@[simp] theorem State.setPool_march (p : Nat) (v : Pool) (s : State) : (State.setPool p v s).march = s.march := rfl
@[simp] theorem State.setPool_ports (p : Nat) (v : Pool) (s : State) : (State.setPool p v s).ports = s.ports := rfl
@[simp] theorem State.setPool_running (p : Nat) (v : Pool) (s : State) : (State.setPool p v s).running = s.running := rfl
@[simp] theorem State.setPool_later (p : Nat) (v : Pool) (s : State) : (State.setPool p v s).later = s.later := rfl
@[simp] theorem State.setPool_funcs (p : Nat) (v : Pool) (s : State) : (State.setPool p v s).funcs = s.funcs := rfl
@[simp] theorem State.setPool_queues (p : Nat) (v : Pool) (s : State) : (State.setPool p v s).queues = s.queues := rfl
@[simp] theorem State.setPool_streams (p : Nat) (v : Pool) (s : State) : (State.setPool p v s).streams = s.streams := rfl
@[simp] theorem State.setPool_groups (p : Nat) (v : Pool) (s : State) : (State.setPool p v s).groups = s.groups := rfl
theorem State.setPool_pools (p : Nat) (v : Pool) (s : State) : (State.setPool p v s).pools = tblSet s.pools (p) v := rfl
@[simp] theorem State.setPool_stallUs (p : Nat) (v : Pool) (s : State) : (State.setPool p v s).stallUs = s.stallUs := rfl
@[simp] theorem State.setPool_genCtr (p : Nat) (v : Pool) (s : State) : (State.setPool p v s).genCtr = s.genCtr := rfl
@[simp] theorem State.setPool_notify (p : Nat) (v : Pool) (s : State) : (State.setPool p v s).notify = s.notify := rfl
@[simp] theorem State.setPool_relay (p : Nat) (v : Pool) (s : State) : (State.setPool p v s).relay = s.relay := rfl
@[simp] theorem State.setPool_therm (p : Nat) (v : Pool) (s : State) : (State.setPool p v s).therm = s.therm := rfl
@[simp] theorem State.setPool_thermModel (p : Nat) (v : Pool) (s : State) : (State.setPool p v s).thermModel = s.thermModel := rfl
@[simp] theorem State.setPool_heat (p : Nat) (v : Pool) (s : State) : (State.setPool p v s).heat = s.heat := rfl
@[simp] theorem State.setPool_wrappers (p : Nat) (v : Pool) (s : State) : (State.setPool p v s).wrappers = s.wrappers := rfl
@[simp] theorem State.setPool_func (p : Nat) (v : Pool) (s : State) (f' : Nat) : (State.setPool p v s).func f' = s.func f' := rfl
@[simp] theorem State.setPool_queue (p : Nat) (v : Pool) (s : State) (f' q' : Nat) : (State.setPool p v s).queue f' q' = s.queue f' q' := rfl
@[simp] theorem State.setPool_stream (p : Nat) (v : Pool) (s : State) (f' i' : Nat) : (State.setPool p v s).stream f' i' = s.stream f' i' := rfl
@[simp] theorem State.setPool_bay (p : Nat) (v : Pool) (s : State) (k' : Nat) : (State.setPool p v s).bay k' = s.bay k' := rfl
@[simp] theorem State.setPool_bank (p : Nat) (v : Pool) (s : State) (b' : Nat) : (State.setPool p v s).bank b' = s.bank b' := rfl
@[simp] theorem State.setPool_port (p : Nat) (v : Pool) (s : State) (n' : Nat) : (State.setPool p v s).port n' = s.port n' := rfl
@[simp] theorem State.setPool_pool_same (p : Nat) (v : Pool) (s : State) : (State.setPool p v s).pool p = v := by simp [State.pool, State.setPool]
theorem State.setPool_pool_other (p : Nat) (v : Pool) (s : State) (p' : Nat) (h : p' ≠ p) : (State.setPool p v s).pool p' = s.pool p' := by
  simp [State.pool, State.setPool, tblGetD_tblSet_ne _ _ _ _ h]
@[simp] theorem State.setPool_group (p : Nat) (v : Pool) (s : State) (g' : Nat) : (State.setPool p v s).group g' = s.group g' := rfl
@[simp] theorem State.setPool_route (p : Nat) (v : Pool) (s : State) (r' : Nat) : (State.setPool p v s).route r' = s.route r' := rfl
@[simp] theorem State.setPool_boundary (p : Nat) (v : Pool) (s : State) (b' : Nat) : (State.setPool p v s).boundary b' = s.boundary b' := rfl
@[simp] theorem State.setPool_thermal (p : Nat) (v : Pool) (s : State) (d' : Nat) : (State.setPool p v s).thermal d' = s.thermal d' := rfl
@[simp] theorem State.setPool_now (p : Nat) (v : Pool) (s : State) : (State.setPool p v s).now = s.now := rfl
@[simp] theorem State.setPool_shown (p : Nat) (v : Pool) (s : State) : (State.setPool p v s).shown = s.shown := rfl
@[simp] theorem State.setPool_nBays (p : Nat) (v : Pool) (s : State) : (State.setPool p v s).nBays = s.nBays := rfl
@[simp] theorem State.setPool_nPorts (p : Nat) (v : Pool) (s : State) : (State.setPool p v s).nPorts = s.nPorts := rfl

/-- An update of one entry is a write of what it gives. -/
theorem State.modPool_eq (p : Nat) (h : Pool → Pool) (s : State) : State.modPool p h s = State.setPool p (h (s.pool p)) s := rfl

/-! ## setGroup -/

@[simp] theorem State.setGroup_caps (g : Nat) (v : LockGroup) (s : State) : (State.setGroup g v s).caps = s.caps := rfl
@[simp] theorem State.setGroup_pending (g : Nat) (v : LockGroup) (s : State) : (State.setGroup g v s).pending = s.pending := rfl
@[simp] theorem State.setGroup_freeCtr (g : Nat) (v : LockGroup) (s : State) : (State.setGroup g v s).freeCtr = s.freeCtr := rfl
@[simp] theorem State.setGroup_mem (g : Nat) (v : LockGroup) (s : State) : (State.setGroup g v s).mem = s.mem := rfl
@[simp] theorem State.setGroup_resp (g : Nat) (v : LockGroup) (s : State) : (State.setGroup g v s).resp = s.resp := rfl
@[simp] theorem State.setGroup_frame (g : Nat) (v : LockGroup) (s : State) : (State.setGroup g v s).frame = s.frame := rfl
@[simp] theorem State.setGroup_pins (g : Nat) (v : LockGroup) (s : State) : (State.setGroup g v s).pins = s.pins := rfl
@[simp] theorem State.setGroup_pace (g : Nat) (v : LockGroup) (s : State) : (State.setGroup g v s).pace = s.pace := rfl
@[simp] theorem State.setGroup_tel (g : Nat) (v : LockGroup) (s : State) : (State.setGroup g v s).tel = s.tel := rfl
@[simp] theorem State.setGroup_host (g : Nat) (v : LockGroup) (s : State) : (State.setGroup g v s).host = s.host := rfl
@[simp] theorem State.setGroup_frameLog (g : Nat) (v : LockGroup) (s : State) : (State.setGroup g v s).frameLog = s.frameLog := rfl
@[simp] theorem State.setGroup_units (g : Nat) (v : LockGroup) (s : State) : (State.setGroup g v s).units = s.units := rfl
@[simp] theorem State.setGroup_dump (g : Nat) (v : LockGroup) (s : State) : (State.setGroup g v s).dump = s.dump := rfl
@[simp] theorem State.setGroup_sec (g : Nat) (v : LockGroup) (s : State) : (State.setGroup g v s).sec = s.sec := rfl
@[simp] theorem State.setGroup_image (g : Nat) (v : LockGroup) (s : State) : (State.setGroup g v s).image = s.image := rfl
@[simp] theorem State.setGroup_bays (g : Nat) (v : LockGroup) (s : State) : (State.setGroup g v s).bays = s.bays := rfl
@[simp] theorem State.setGroup_routes (g : Nat) (v : LockGroup) (s : State) : (State.setGroup g v s).routes = s.routes := rfl
@[simp] theorem State.setGroup_bounds (g : Nat) (v : LockGroup) (s : State) : (State.setGroup g v s).bounds = s.bounds := rfl
@[simp] theorem State.setGroup_banks (g : Nat) (v : LockGroup) (s : State) : (State.setGroup g v s).banks = s.banks := rfl
@[simp] theorem State.setGroup_bankWords (g : Nat) (v : LockGroup) (s : State) : (State.setGroup g v s).bankWords = s.bankWords := rfl
@[simp] theorem State.setGroup_march (g : Nat) (v : LockGroup) (s : State) : (State.setGroup g v s).march = s.march := rfl
@[simp] theorem State.setGroup_ports (g : Nat) (v : LockGroup) (s : State) : (State.setGroup g v s).ports = s.ports := rfl
@[simp] theorem State.setGroup_running (g : Nat) (v : LockGroup) (s : State) : (State.setGroup g v s).running = s.running := rfl
@[simp] theorem State.setGroup_later (g : Nat) (v : LockGroup) (s : State) : (State.setGroup g v s).later = s.later := rfl
@[simp] theorem State.setGroup_funcs (g : Nat) (v : LockGroup) (s : State) : (State.setGroup g v s).funcs = s.funcs := rfl
@[simp] theorem State.setGroup_queues (g : Nat) (v : LockGroup) (s : State) : (State.setGroup g v s).queues = s.queues := rfl
@[simp] theorem State.setGroup_streams (g : Nat) (v : LockGroup) (s : State) : (State.setGroup g v s).streams = s.streams := rfl
theorem State.setGroup_groups (g : Nat) (v : LockGroup) (s : State) : (State.setGroup g v s).groups = tblSet s.groups (g) v := rfl
@[simp] theorem State.setGroup_pools (g : Nat) (v : LockGroup) (s : State) : (State.setGroup g v s).pools = s.pools := rfl
@[simp] theorem State.setGroup_stallUs (g : Nat) (v : LockGroup) (s : State) : (State.setGroup g v s).stallUs = s.stallUs := rfl
@[simp] theorem State.setGroup_genCtr (g : Nat) (v : LockGroup) (s : State) : (State.setGroup g v s).genCtr = s.genCtr := rfl
@[simp] theorem State.setGroup_notify (g : Nat) (v : LockGroup) (s : State) : (State.setGroup g v s).notify = s.notify := rfl
@[simp] theorem State.setGroup_relay (g : Nat) (v : LockGroup) (s : State) : (State.setGroup g v s).relay = s.relay := rfl
@[simp] theorem State.setGroup_therm (g : Nat) (v : LockGroup) (s : State) : (State.setGroup g v s).therm = s.therm := rfl
@[simp] theorem State.setGroup_thermModel (g : Nat) (v : LockGroup) (s : State) : (State.setGroup g v s).thermModel = s.thermModel := rfl
@[simp] theorem State.setGroup_heat (g : Nat) (v : LockGroup) (s : State) : (State.setGroup g v s).heat = s.heat := rfl
@[simp] theorem State.setGroup_wrappers (g : Nat) (v : LockGroup) (s : State) : (State.setGroup g v s).wrappers = s.wrappers := rfl
@[simp] theorem State.setGroup_func (g : Nat) (v : LockGroup) (s : State) (f' : Nat) : (State.setGroup g v s).func f' = s.func f' := rfl
@[simp] theorem State.setGroup_queue (g : Nat) (v : LockGroup) (s : State) (f' q' : Nat) : (State.setGroup g v s).queue f' q' = s.queue f' q' := rfl
@[simp] theorem State.setGroup_stream (g : Nat) (v : LockGroup) (s : State) (f' i' : Nat) : (State.setGroup g v s).stream f' i' = s.stream f' i' := rfl
@[simp] theorem State.setGroup_bay (g : Nat) (v : LockGroup) (s : State) (k' : Nat) : (State.setGroup g v s).bay k' = s.bay k' := rfl
@[simp] theorem State.setGroup_bank (g : Nat) (v : LockGroup) (s : State) (b' : Nat) : (State.setGroup g v s).bank b' = s.bank b' := rfl
@[simp] theorem State.setGroup_port (g : Nat) (v : LockGroup) (s : State) (n' : Nat) : (State.setGroup g v s).port n' = s.port n' := rfl
@[simp] theorem State.setGroup_pool (g : Nat) (v : LockGroup) (s : State) (p' : Nat) : (State.setGroup g v s).pool p' = s.pool p' := rfl
@[simp] theorem State.setGroup_group_same (g : Nat) (v : LockGroup) (s : State) : (State.setGroup g v s).group g = v := by simp [State.group, State.setGroup]
theorem State.setGroup_group_other (g : Nat) (v : LockGroup) (s : State) (g' : Nat) (h : g' ≠ g) : (State.setGroup g v s).group g' = s.group g' := by
  simp [State.group, State.setGroup, tblGetD_tblSet_ne _ _ _ _ h]
@[simp] theorem State.setGroup_route (g : Nat) (v : LockGroup) (s : State) (r' : Nat) : (State.setGroup g v s).route r' = s.route r' := rfl
@[simp] theorem State.setGroup_boundary (g : Nat) (v : LockGroup) (s : State) (b' : Nat) : (State.setGroup g v s).boundary b' = s.boundary b' := rfl
@[simp] theorem State.setGroup_thermal (g : Nat) (v : LockGroup) (s : State) (d' : Nat) : (State.setGroup g v s).thermal d' = s.thermal d' := rfl
@[simp] theorem State.setGroup_now (g : Nat) (v : LockGroup) (s : State) : (State.setGroup g v s).now = s.now := rfl
@[simp] theorem State.setGroup_shown (g : Nat) (v : LockGroup) (s : State) : (State.setGroup g v s).shown = s.shown := rfl
@[simp] theorem State.setGroup_nBays (g : Nat) (v : LockGroup) (s : State) : (State.setGroup g v s).nBays = s.nBays := rfl
@[simp] theorem State.setGroup_nPorts (g : Nat) (v : LockGroup) (s : State) : (State.setGroup g v s).nPorts = s.nPorts := rfl

/-! ## setRoute -/

@[simp] theorem State.setRoute_caps (r : Nat) (v : Route) (s : State) : (State.setRoute r v s).caps = s.caps := rfl
@[simp] theorem State.setRoute_pending (r : Nat) (v : Route) (s : State) : (State.setRoute r v s).pending = s.pending := rfl
@[simp] theorem State.setRoute_freeCtr (r : Nat) (v : Route) (s : State) : (State.setRoute r v s).freeCtr = s.freeCtr := rfl
@[simp] theorem State.setRoute_mem (r : Nat) (v : Route) (s : State) : (State.setRoute r v s).mem = s.mem := rfl
@[simp] theorem State.setRoute_resp (r : Nat) (v : Route) (s : State) : (State.setRoute r v s).resp = s.resp := rfl
@[simp] theorem State.setRoute_frame (r : Nat) (v : Route) (s : State) : (State.setRoute r v s).frame = s.frame := rfl
@[simp] theorem State.setRoute_pins (r : Nat) (v : Route) (s : State) : (State.setRoute r v s).pins = s.pins := rfl
@[simp] theorem State.setRoute_pace (r : Nat) (v : Route) (s : State) : (State.setRoute r v s).pace = s.pace := rfl
@[simp] theorem State.setRoute_tel (r : Nat) (v : Route) (s : State) : (State.setRoute r v s).tel = s.tel := rfl
@[simp] theorem State.setRoute_host (r : Nat) (v : Route) (s : State) : (State.setRoute r v s).host = s.host := rfl
@[simp] theorem State.setRoute_frameLog (r : Nat) (v : Route) (s : State) : (State.setRoute r v s).frameLog = s.frameLog := rfl
@[simp] theorem State.setRoute_units (r : Nat) (v : Route) (s : State) : (State.setRoute r v s).units = s.units := rfl
@[simp] theorem State.setRoute_dump (r : Nat) (v : Route) (s : State) : (State.setRoute r v s).dump = s.dump := rfl
@[simp] theorem State.setRoute_sec (r : Nat) (v : Route) (s : State) : (State.setRoute r v s).sec = s.sec := rfl
@[simp] theorem State.setRoute_image (r : Nat) (v : Route) (s : State) : (State.setRoute r v s).image = s.image := rfl
@[simp] theorem State.setRoute_bays (r : Nat) (v : Route) (s : State) : (State.setRoute r v s).bays = s.bays := rfl
theorem State.setRoute_routes (r : Nat) (v : Route) (s : State) : (State.setRoute r v s).routes = tblSet s.routes (r) v := rfl
@[simp] theorem State.setRoute_bounds (r : Nat) (v : Route) (s : State) : (State.setRoute r v s).bounds = s.bounds := rfl
@[simp] theorem State.setRoute_banks (r : Nat) (v : Route) (s : State) : (State.setRoute r v s).banks = s.banks := rfl
@[simp] theorem State.setRoute_bankWords (r : Nat) (v : Route) (s : State) : (State.setRoute r v s).bankWords = s.bankWords := rfl
@[simp] theorem State.setRoute_march (r : Nat) (v : Route) (s : State) : (State.setRoute r v s).march = s.march := rfl
@[simp] theorem State.setRoute_ports (r : Nat) (v : Route) (s : State) : (State.setRoute r v s).ports = s.ports := rfl
@[simp] theorem State.setRoute_running (r : Nat) (v : Route) (s : State) : (State.setRoute r v s).running = s.running := rfl
@[simp] theorem State.setRoute_later (r : Nat) (v : Route) (s : State) : (State.setRoute r v s).later = s.later := rfl
@[simp] theorem State.setRoute_funcs (r : Nat) (v : Route) (s : State) : (State.setRoute r v s).funcs = s.funcs := rfl
@[simp] theorem State.setRoute_queues (r : Nat) (v : Route) (s : State) : (State.setRoute r v s).queues = s.queues := rfl
@[simp] theorem State.setRoute_streams (r : Nat) (v : Route) (s : State) : (State.setRoute r v s).streams = s.streams := rfl
@[simp] theorem State.setRoute_groups (r : Nat) (v : Route) (s : State) : (State.setRoute r v s).groups = s.groups := rfl
@[simp] theorem State.setRoute_pools (r : Nat) (v : Route) (s : State) : (State.setRoute r v s).pools = s.pools := rfl
@[simp] theorem State.setRoute_stallUs (r : Nat) (v : Route) (s : State) : (State.setRoute r v s).stallUs = s.stallUs := rfl
@[simp] theorem State.setRoute_genCtr (r : Nat) (v : Route) (s : State) : (State.setRoute r v s).genCtr = s.genCtr := rfl
@[simp] theorem State.setRoute_notify (r : Nat) (v : Route) (s : State) : (State.setRoute r v s).notify = s.notify := rfl
@[simp] theorem State.setRoute_relay (r : Nat) (v : Route) (s : State) : (State.setRoute r v s).relay = s.relay := rfl
@[simp] theorem State.setRoute_therm (r : Nat) (v : Route) (s : State) : (State.setRoute r v s).therm = s.therm := rfl
@[simp] theorem State.setRoute_thermModel (r : Nat) (v : Route) (s : State) : (State.setRoute r v s).thermModel = s.thermModel := rfl
@[simp] theorem State.setRoute_heat (r : Nat) (v : Route) (s : State) : (State.setRoute r v s).heat = s.heat := rfl
@[simp] theorem State.setRoute_wrappers (r : Nat) (v : Route) (s : State) : (State.setRoute r v s).wrappers = s.wrappers := rfl
@[simp] theorem State.setRoute_func (r : Nat) (v : Route) (s : State) (f' : Nat) : (State.setRoute r v s).func f' = s.func f' := rfl
@[simp] theorem State.setRoute_queue (r : Nat) (v : Route) (s : State) (f' q' : Nat) : (State.setRoute r v s).queue f' q' = s.queue f' q' := rfl
@[simp] theorem State.setRoute_stream (r : Nat) (v : Route) (s : State) (f' i' : Nat) : (State.setRoute r v s).stream f' i' = s.stream f' i' := rfl
@[simp] theorem State.setRoute_bay (r : Nat) (v : Route) (s : State) (k' : Nat) : (State.setRoute r v s).bay k' = s.bay k' := rfl
@[simp] theorem State.setRoute_bank (r : Nat) (v : Route) (s : State) (b' : Nat) : (State.setRoute r v s).bank b' = s.bank b' := rfl
@[simp] theorem State.setRoute_port (r : Nat) (v : Route) (s : State) (n' : Nat) : (State.setRoute r v s).port n' = s.port n' := rfl
@[simp] theorem State.setRoute_pool (r : Nat) (v : Route) (s : State) (p' : Nat) : (State.setRoute r v s).pool p' = s.pool p' := rfl
@[simp] theorem State.setRoute_group (r : Nat) (v : Route) (s : State) (g' : Nat) : (State.setRoute r v s).group g' = s.group g' := rfl
@[simp] theorem State.setRoute_route_same (r : Nat) (v : Route) (s : State) : (State.setRoute r v s).route r = v := by simp [State.route, State.setRoute]
theorem State.setRoute_route_other (r : Nat) (v : Route) (s : State) (r' : Nat) (h : r' ≠ r) : (State.setRoute r v s).route r' = s.route r' := by
  simp [State.route, State.setRoute, tblGetD_tblSet_ne _ _ _ _ h]
@[simp] theorem State.setRoute_boundary (r : Nat) (v : Route) (s : State) (b' : Nat) : (State.setRoute r v s).boundary b' = s.boundary b' := rfl
@[simp] theorem State.setRoute_thermal (r : Nat) (v : Route) (s : State) (d' : Nat) : (State.setRoute r v s).thermal d' = s.thermal d' := rfl
@[simp] theorem State.setRoute_now (r : Nat) (v : Route) (s : State) : (State.setRoute r v s).now = s.now := rfl
@[simp] theorem State.setRoute_shown (r : Nat) (v : Route) (s : State) : (State.setRoute r v s).shown = s.shown := rfl
@[simp] theorem State.setRoute_nBays (r : Nat) (v : Route) (s : State) : (State.setRoute r v s).nBays = s.nBays := rfl
@[simp] theorem State.setRoute_nPorts (r : Nat) (v : Route) (s : State) : (State.setRoute r v s).nPorts = s.nPorts := rfl

/-! ## setBoundary -/

@[simp] theorem State.setBoundary_caps (b : Nat) (v : Boundary) (s : State) : (State.setBoundary b v s).caps = s.caps := rfl
@[simp] theorem State.setBoundary_pending (b : Nat) (v : Boundary) (s : State) : (State.setBoundary b v s).pending = s.pending := rfl
@[simp] theorem State.setBoundary_freeCtr (b : Nat) (v : Boundary) (s : State) : (State.setBoundary b v s).freeCtr = s.freeCtr := rfl
@[simp] theorem State.setBoundary_mem (b : Nat) (v : Boundary) (s : State) : (State.setBoundary b v s).mem = s.mem := rfl
@[simp] theorem State.setBoundary_resp (b : Nat) (v : Boundary) (s : State) : (State.setBoundary b v s).resp = s.resp := rfl
@[simp] theorem State.setBoundary_frame (b : Nat) (v : Boundary) (s : State) : (State.setBoundary b v s).frame = s.frame := rfl
@[simp] theorem State.setBoundary_pins (b : Nat) (v : Boundary) (s : State) : (State.setBoundary b v s).pins = s.pins := rfl
@[simp] theorem State.setBoundary_pace (b : Nat) (v : Boundary) (s : State) : (State.setBoundary b v s).pace = s.pace := rfl
@[simp] theorem State.setBoundary_tel (b : Nat) (v : Boundary) (s : State) : (State.setBoundary b v s).tel = s.tel := rfl
@[simp] theorem State.setBoundary_host (b : Nat) (v : Boundary) (s : State) : (State.setBoundary b v s).host = s.host := rfl
@[simp] theorem State.setBoundary_frameLog (b : Nat) (v : Boundary) (s : State) : (State.setBoundary b v s).frameLog = s.frameLog := rfl
@[simp] theorem State.setBoundary_units (b : Nat) (v : Boundary) (s : State) : (State.setBoundary b v s).units = s.units := rfl
@[simp] theorem State.setBoundary_dump (b : Nat) (v : Boundary) (s : State) : (State.setBoundary b v s).dump = s.dump := rfl
@[simp] theorem State.setBoundary_sec (b : Nat) (v : Boundary) (s : State) : (State.setBoundary b v s).sec = s.sec := rfl
@[simp] theorem State.setBoundary_image (b : Nat) (v : Boundary) (s : State) : (State.setBoundary b v s).image = s.image := rfl
@[simp] theorem State.setBoundary_bays (b : Nat) (v : Boundary) (s : State) : (State.setBoundary b v s).bays = s.bays := rfl
@[simp] theorem State.setBoundary_routes (b : Nat) (v : Boundary) (s : State) : (State.setBoundary b v s).routes = s.routes := rfl
theorem State.setBoundary_bounds (b : Nat) (v : Boundary) (s : State) : (State.setBoundary b v s).bounds = tblSet s.bounds (b) v := rfl
@[simp] theorem State.setBoundary_banks (b : Nat) (v : Boundary) (s : State) : (State.setBoundary b v s).banks = s.banks := rfl
@[simp] theorem State.setBoundary_bankWords (b : Nat) (v : Boundary) (s : State) : (State.setBoundary b v s).bankWords = s.bankWords := rfl
@[simp] theorem State.setBoundary_march (b : Nat) (v : Boundary) (s : State) : (State.setBoundary b v s).march = s.march := rfl
@[simp] theorem State.setBoundary_ports (b : Nat) (v : Boundary) (s : State) : (State.setBoundary b v s).ports = s.ports := rfl
@[simp] theorem State.setBoundary_running (b : Nat) (v : Boundary) (s : State) : (State.setBoundary b v s).running = s.running := rfl
@[simp] theorem State.setBoundary_later (b : Nat) (v : Boundary) (s : State) : (State.setBoundary b v s).later = s.later := rfl
@[simp] theorem State.setBoundary_funcs (b : Nat) (v : Boundary) (s : State) : (State.setBoundary b v s).funcs = s.funcs := rfl
@[simp] theorem State.setBoundary_queues (b : Nat) (v : Boundary) (s : State) : (State.setBoundary b v s).queues = s.queues := rfl
@[simp] theorem State.setBoundary_streams (b : Nat) (v : Boundary) (s : State) : (State.setBoundary b v s).streams = s.streams := rfl
@[simp] theorem State.setBoundary_groups (b : Nat) (v : Boundary) (s : State) : (State.setBoundary b v s).groups = s.groups := rfl
@[simp] theorem State.setBoundary_pools (b : Nat) (v : Boundary) (s : State) : (State.setBoundary b v s).pools = s.pools := rfl
@[simp] theorem State.setBoundary_stallUs (b : Nat) (v : Boundary) (s : State) : (State.setBoundary b v s).stallUs = s.stallUs := rfl
@[simp] theorem State.setBoundary_genCtr (b : Nat) (v : Boundary) (s : State) : (State.setBoundary b v s).genCtr = s.genCtr := rfl
@[simp] theorem State.setBoundary_notify (b : Nat) (v : Boundary) (s : State) : (State.setBoundary b v s).notify = s.notify := rfl
@[simp] theorem State.setBoundary_relay (b : Nat) (v : Boundary) (s : State) : (State.setBoundary b v s).relay = s.relay := rfl
@[simp] theorem State.setBoundary_therm (b : Nat) (v : Boundary) (s : State) : (State.setBoundary b v s).therm = s.therm := rfl
@[simp] theorem State.setBoundary_thermModel (b : Nat) (v : Boundary) (s : State) : (State.setBoundary b v s).thermModel = s.thermModel := rfl
@[simp] theorem State.setBoundary_heat (b : Nat) (v : Boundary) (s : State) : (State.setBoundary b v s).heat = s.heat := rfl
@[simp] theorem State.setBoundary_wrappers (b : Nat) (v : Boundary) (s : State) : (State.setBoundary b v s).wrappers = s.wrappers := rfl
@[simp] theorem State.setBoundary_func (b : Nat) (v : Boundary) (s : State) (f' : Nat) : (State.setBoundary b v s).func f' = s.func f' := rfl
@[simp] theorem State.setBoundary_queue (b : Nat) (v : Boundary) (s : State) (f' q' : Nat) : (State.setBoundary b v s).queue f' q' = s.queue f' q' := rfl
@[simp] theorem State.setBoundary_stream (b : Nat) (v : Boundary) (s : State) (f' i' : Nat) : (State.setBoundary b v s).stream f' i' = s.stream f' i' := rfl
@[simp] theorem State.setBoundary_bay (b : Nat) (v : Boundary) (s : State) (k' : Nat) : (State.setBoundary b v s).bay k' = s.bay k' := rfl
@[simp] theorem State.setBoundary_bank (b : Nat) (v : Boundary) (s : State) (b' : Nat) : (State.setBoundary b v s).bank b' = s.bank b' := rfl
@[simp] theorem State.setBoundary_port (b : Nat) (v : Boundary) (s : State) (n' : Nat) : (State.setBoundary b v s).port n' = s.port n' := rfl
@[simp] theorem State.setBoundary_pool (b : Nat) (v : Boundary) (s : State) (p' : Nat) : (State.setBoundary b v s).pool p' = s.pool p' := rfl
@[simp] theorem State.setBoundary_group (b : Nat) (v : Boundary) (s : State) (g' : Nat) : (State.setBoundary b v s).group g' = s.group g' := rfl
@[simp] theorem State.setBoundary_route (b : Nat) (v : Boundary) (s : State) (r' : Nat) : (State.setBoundary b v s).route r' = s.route r' := rfl
@[simp] theorem State.setBoundary_boundary_same (b : Nat) (v : Boundary) (s : State) : (State.setBoundary b v s).boundary b = v := by simp [State.boundary, State.setBoundary]
theorem State.setBoundary_boundary_other (b : Nat) (v : Boundary) (s : State) (b' : Nat) (h : b' ≠ b) : (State.setBoundary b v s).boundary b' = s.boundary b' := by
  simp [State.boundary, State.setBoundary, tblGetD_tblSet_ne _ _ _ _ h]
@[simp] theorem State.setBoundary_thermal (b : Nat) (v : Boundary) (s : State) (d' : Nat) : (State.setBoundary b v s).thermal d' = s.thermal d' := rfl
@[simp] theorem State.setBoundary_now (b : Nat) (v : Boundary) (s : State) : (State.setBoundary b v s).now = s.now := rfl
@[simp] theorem State.setBoundary_shown (b : Nat) (v : Boundary) (s : State) : (State.setBoundary b v s).shown = s.shown := rfl
@[simp] theorem State.setBoundary_nBays (b : Nat) (v : Boundary) (s : State) : (State.setBoundary b v s).nBays = s.nBays := rfl
@[simp] theorem State.setBoundary_nPorts (b : Nat) (v : Boundary) (s : State) : (State.setBoundary b v s).nPorts = s.nPorts := rfl

/-! ## setThermal -/

@[simp] theorem State.setThermal_caps (d : Nat) (v : Therm) (s : State) : (State.setThermal d v s).caps = s.caps := rfl
@[simp] theorem State.setThermal_pending (d : Nat) (v : Therm) (s : State) : (State.setThermal d v s).pending = s.pending := rfl
@[simp] theorem State.setThermal_freeCtr (d : Nat) (v : Therm) (s : State) : (State.setThermal d v s).freeCtr = s.freeCtr := rfl
@[simp] theorem State.setThermal_mem (d : Nat) (v : Therm) (s : State) : (State.setThermal d v s).mem = s.mem := rfl
@[simp] theorem State.setThermal_resp (d : Nat) (v : Therm) (s : State) : (State.setThermal d v s).resp = s.resp := rfl
@[simp] theorem State.setThermal_frame (d : Nat) (v : Therm) (s : State) : (State.setThermal d v s).frame = s.frame := rfl
@[simp] theorem State.setThermal_pins (d : Nat) (v : Therm) (s : State) : (State.setThermal d v s).pins = s.pins := rfl
@[simp] theorem State.setThermal_pace (d : Nat) (v : Therm) (s : State) : (State.setThermal d v s).pace = s.pace := rfl
@[simp] theorem State.setThermal_tel (d : Nat) (v : Therm) (s : State) : (State.setThermal d v s).tel = s.tel := rfl
@[simp] theorem State.setThermal_host (d : Nat) (v : Therm) (s : State) : (State.setThermal d v s).host = s.host := rfl
@[simp] theorem State.setThermal_frameLog (d : Nat) (v : Therm) (s : State) : (State.setThermal d v s).frameLog = s.frameLog := rfl
@[simp] theorem State.setThermal_units (d : Nat) (v : Therm) (s : State) : (State.setThermal d v s).units = s.units := rfl
@[simp] theorem State.setThermal_dump (d : Nat) (v : Therm) (s : State) : (State.setThermal d v s).dump = s.dump := rfl
@[simp] theorem State.setThermal_sec (d : Nat) (v : Therm) (s : State) : (State.setThermal d v s).sec = s.sec := rfl
@[simp] theorem State.setThermal_image (d : Nat) (v : Therm) (s : State) : (State.setThermal d v s).image = s.image := rfl
@[simp] theorem State.setThermal_bays (d : Nat) (v : Therm) (s : State) : (State.setThermal d v s).bays = s.bays := rfl
@[simp] theorem State.setThermal_routes (d : Nat) (v : Therm) (s : State) : (State.setThermal d v s).routes = s.routes := rfl
@[simp] theorem State.setThermal_bounds (d : Nat) (v : Therm) (s : State) : (State.setThermal d v s).bounds = s.bounds := rfl
@[simp] theorem State.setThermal_banks (d : Nat) (v : Therm) (s : State) : (State.setThermal d v s).banks = s.banks := rfl
@[simp] theorem State.setThermal_bankWords (d : Nat) (v : Therm) (s : State) : (State.setThermal d v s).bankWords = s.bankWords := rfl
@[simp] theorem State.setThermal_march (d : Nat) (v : Therm) (s : State) : (State.setThermal d v s).march = s.march := rfl
@[simp] theorem State.setThermal_ports (d : Nat) (v : Therm) (s : State) : (State.setThermal d v s).ports = s.ports := rfl
@[simp] theorem State.setThermal_running (d : Nat) (v : Therm) (s : State) : (State.setThermal d v s).running = s.running := rfl
@[simp] theorem State.setThermal_later (d : Nat) (v : Therm) (s : State) : (State.setThermal d v s).later = s.later := rfl
@[simp] theorem State.setThermal_funcs (d : Nat) (v : Therm) (s : State) : (State.setThermal d v s).funcs = s.funcs := rfl
@[simp] theorem State.setThermal_queues (d : Nat) (v : Therm) (s : State) : (State.setThermal d v s).queues = s.queues := rfl
@[simp] theorem State.setThermal_streams (d : Nat) (v : Therm) (s : State) : (State.setThermal d v s).streams = s.streams := rfl
@[simp] theorem State.setThermal_groups (d : Nat) (v : Therm) (s : State) : (State.setThermal d v s).groups = s.groups := rfl
@[simp] theorem State.setThermal_pools (d : Nat) (v : Therm) (s : State) : (State.setThermal d v s).pools = s.pools := rfl
@[simp] theorem State.setThermal_stallUs (d : Nat) (v : Therm) (s : State) : (State.setThermal d v s).stallUs = s.stallUs := rfl
@[simp] theorem State.setThermal_genCtr (d : Nat) (v : Therm) (s : State) : (State.setThermal d v s).genCtr = s.genCtr := rfl
@[simp] theorem State.setThermal_notify (d : Nat) (v : Therm) (s : State) : (State.setThermal d v s).notify = s.notify := rfl
@[simp] theorem State.setThermal_relay (d : Nat) (v : Therm) (s : State) : (State.setThermal d v s).relay = s.relay := rfl
theorem State.setThermal_therm (d : Nat) (v : Therm) (s : State) : (State.setThermal d v s).therm = tblSet s.therm (d) v := rfl
@[simp] theorem State.setThermal_thermModel (d : Nat) (v : Therm) (s : State) : (State.setThermal d v s).thermModel = s.thermModel := rfl
@[simp] theorem State.setThermal_heat (d : Nat) (v : Therm) (s : State) : (State.setThermal d v s).heat = s.heat := rfl
@[simp] theorem State.setThermal_wrappers (d : Nat) (v : Therm) (s : State) : (State.setThermal d v s).wrappers = s.wrappers := rfl
@[simp] theorem State.setThermal_func (d : Nat) (v : Therm) (s : State) (f' : Nat) : (State.setThermal d v s).func f' = s.func f' := rfl
@[simp] theorem State.setThermal_queue (d : Nat) (v : Therm) (s : State) (f' q' : Nat) : (State.setThermal d v s).queue f' q' = s.queue f' q' := rfl
@[simp] theorem State.setThermal_stream (d : Nat) (v : Therm) (s : State) (f' i' : Nat) : (State.setThermal d v s).stream f' i' = s.stream f' i' := rfl
@[simp] theorem State.setThermal_bay (d : Nat) (v : Therm) (s : State) (k' : Nat) : (State.setThermal d v s).bay k' = s.bay k' := rfl
@[simp] theorem State.setThermal_bank (d : Nat) (v : Therm) (s : State) (b' : Nat) : (State.setThermal d v s).bank b' = s.bank b' := rfl
@[simp] theorem State.setThermal_port (d : Nat) (v : Therm) (s : State) (n' : Nat) : (State.setThermal d v s).port n' = s.port n' := rfl
@[simp] theorem State.setThermal_pool (d : Nat) (v : Therm) (s : State) (p' : Nat) : (State.setThermal d v s).pool p' = s.pool p' := rfl
@[simp] theorem State.setThermal_group (d : Nat) (v : Therm) (s : State) (g' : Nat) : (State.setThermal d v s).group g' = s.group g' := rfl
@[simp] theorem State.setThermal_route (d : Nat) (v : Therm) (s : State) (r' : Nat) : (State.setThermal d v s).route r' = s.route r' := rfl
@[simp] theorem State.setThermal_boundary (d : Nat) (v : Therm) (s : State) (b' : Nat) : (State.setThermal d v s).boundary b' = s.boundary b' := rfl
@[simp] theorem State.setThermal_thermal_same (d : Nat) (v : Therm) (s : State) : (State.setThermal d v s).thermal d = v := by simp [State.thermal, State.setThermal]
theorem State.setThermal_thermal_other (d : Nat) (v : Therm) (s : State) (d' : Nat) (h : d' ≠ d) : (State.setThermal d v s).thermal d' = s.thermal d' := by
  simp [State.thermal, State.setThermal, tblGetD_tblSet_ne _ _ _ _ h]
@[simp] theorem State.setThermal_now (d : Nat) (v : Therm) (s : State) : (State.setThermal d v s).now = s.now := rfl
@[simp] theorem State.setThermal_shown (d : Nat) (v : Therm) (s : State) : (State.setThermal d v s).shown = s.shown := rfl
@[simp] theorem State.setThermal_nBays (d : Nat) (v : Therm) (s : State) : (State.setThermal d v s).nBays = s.nBays := rfl
@[simp] theorem State.setThermal_nPorts (d : Nat) (v : Therm) (s : State) : (State.setThermal d v s).nPorts = s.nPorts := rfl

/-- An update of one entry is a write of what it gives. -/
theorem State.modThermal_eq (d : Nat) (h : Therm → Therm) (s : State) : State.modThermal d h s = State.setThermal d (h (s.thermal d)) s := rfl

/-! ## count -/

@[simp] theorem State.count_caps (g i c n : Nat) (s : State) : (State.count g i c n s).caps = s.caps := rfl
@[simp] theorem State.count_pending (g i c n : Nat) (s : State) : (State.count g i c n s).pending = s.pending := rfl
@[simp] theorem State.count_freeCtr (g i c n : Nat) (s : State) : (State.count g i c n s).freeCtr = s.freeCtr := rfl
@[simp] theorem State.count_mem (g i c n : Nat) (s : State) : (State.count g i c n s).mem = s.mem := rfl
@[simp] theorem State.count_resp (g i c n : Nat) (s : State) : (State.count g i c n s).resp = s.resp := rfl
@[simp] theorem State.count_frame (g i c n : Nat) (s : State) : (State.count g i c n s).frame = s.frame := rfl
@[simp] theorem State.count_pins (g i c n : Nat) (s : State) : (State.count g i c n s).pins = s.pins := rfl
@[simp] theorem State.count_pace (g i c n : Nat) (s : State) : (State.count g i c n s).pace = s.pace := rfl
@[simp] theorem State.count_host (g i c n : Nat) (s : State) : (State.count g i c n s).host = s.host := rfl
@[simp] theorem State.count_frameLog (g i c n : Nat) (s : State) : (State.count g i c n s).frameLog = s.frameLog := rfl
@[simp] theorem State.count_units (g i c n : Nat) (s : State) : (State.count g i c n s).units = s.units := rfl
@[simp] theorem State.count_dump (g i c n : Nat) (s : State) : (State.count g i c n s).dump = s.dump := rfl
@[simp] theorem State.count_sec (g i c n : Nat) (s : State) : (State.count g i c n s).sec = s.sec := rfl
@[simp] theorem State.count_image (g i c n : Nat) (s : State) : (State.count g i c n s).image = s.image := rfl
@[simp] theorem State.count_bays (g i c n : Nat) (s : State) : (State.count g i c n s).bays = s.bays := rfl
@[simp] theorem State.count_routes (g i c n : Nat) (s : State) : (State.count g i c n s).routes = s.routes := rfl
@[simp] theorem State.count_bounds (g i c n : Nat) (s : State) : (State.count g i c n s).bounds = s.bounds := rfl
@[simp] theorem State.count_banks (g i c n : Nat) (s : State) : (State.count g i c n s).banks = s.banks := rfl
@[simp] theorem State.count_bankWords (g i c n : Nat) (s : State) : (State.count g i c n s).bankWords = s.bankWords := rfl
@[simp] theorem State.count_march (g i c n : Nat) (s : State) : (State.count g i c n s).march = s.march := rfl
@[simp] theorem State.count_ports (g i c n : Nat) (s : State) : (State.count g i c n s).ports = s.ports := rfl
@[simp] theorem State.count_running (g i c n : Nat) (s : State) : (State.count g i c n s).running = s.running := rfl
@[simp] theorem State.count_later (g i c n : Nat) (s : State) : (State.count g i c n s).later = s.later := rfl
@[simp] theorem State.count_funcs (g i c n : Nat) (s : State) : (State.count g i c n s).funcs = s.funcs := rfl
@[simp] theorem State.count_queues (g i c n : Nat) (s : State) : (State.count g i c n s).queues = s.queues := rfl
@[simp] theorem State.count_streams (g i c n : Nat) (s : State) : (State.count g i c n s).streams = s.streams := rfl
@[simp] theorem State.count_groups (g i c n : Nat) (s : State) : (State.count g i c n s).groups = s.groups := rfl
@[simp] theorem State.count_pools (g i c n : Nat) (s : State) : (State.count g i c n s).pools = s.pools := rfl
@[simp] theorem State.count_stallUs (g i c n : Nat) (s : State) : (State.count g i c n s).stallUs = s.stallUs := rfl
@[simp] theorem State.count_genCtr (g i c n : Nat) (s : State) : (State.count g i c n s).genCtr = s.genCtr := rfl
@[simp] theorem State.count_notify (g i c n : Nat) (s : State) : (State.count g i c n s).notify = s.notify := rfl
@[simp] theorem State.count_relay (g i c n : Nat) (s : State) : (State.count g i c n s).relay = s.relay := rfl
@[simp] theorem State.count_therm (g i c n : Nat) (s : State) : (State.count g i c n s).therm = s.therm := rfl
@[simp] theorem State.count_thermModel (g i c n : Nat) (s : State) : (State.count g i c n s).thermModel = s.thermModel := rfl
@[simp] theorem State.count_heat (g i c n : Nat) (s : State) : (State.count g i c n s).heat = s.heat := rfl
@[simp] theorem State.count_wrappers (g i c n : Nat) (s : State) : (State.count g i c n s).wrappers = s.wrappers := rfl
@[simp] theorem State.count_func (g i c n : Nat) (s : State) (f' : Nat) : (State.count g i c n s).func f' = s.func f' := rfl
@[simp] theorem State.count_queue (g i c n : Nat) (s : State) (f' q' : Nat) : (State.count g i c n s).queue f' q' = s.queue f' q' := rfl
@[simp] theorem State.count_stream (g i c n : Nat) (s : State) (f' i' : Nat) : (State.count g i c n s).stream f' i' = s.stream f' i' := rfl
@[simp] theorem State.count_bay (g i c n : Nat) (s : State) (k' : Nat) : (State.count g i c n s).bay k' = s.bay k' := rfl
@[simp] theorem State.count_bank (g i c n : Nat) (s : State) (b' : Nat) : (State.count g i c n s).bank b' = s.bank b' := rfl
@[simp] theorem State.count_port (g i c n : Nat) (s : State) (n' : Nat) : (State.count g i c n s).port n' = s.port n' := rfl
@[simp] theorem State.count_pool (g i c n : Nat) (s : State) (p' : Nat) : (State.count g i c n s).pool p' = s.pool p' := rfl
@[simp] theorem State.count_group (g i c n : Nat) (s : State) (g' : Nat) : (State.count g i c n s).group g' = s.group g' := rfl
@[simp] theorem State.count_route (g i c n : Nat) (s : State) (r' : Nat) : (State.count g i c n s).route r' = s.route r' := rfl
@[simp] theorem State.count_boundary (g i c n : Nat) (s : State) (b' : Nat) : (State.count g i c n s).boundary b' = s.boundary b' := rfl
@[simp] theorem State.count_thermal (g i c n : Nat) (s : State) (d' : Nat) : (State.count g i c n s).thermal d' = s.thermal d' := rfl
@[simp] theorem State.count_now (g i c n : Nat) (s : State) : (State.count g i c n s).now = s.now := rfl
@[simp] theorem State.count_nBays (g i c n : Nat) (s : State) : (State.count g i c n s).nBays = s.nBays := rfl
@[simp] theorem State.count_nPorts (g i c n : Nat) (s : State) : (State.count g i c n s).nPorts = s.nPorts := rfl
@[simp] theorem State.count_shown (g i c n : Nat) (s : State) : (State.count g i c n s).shown = s.shown := rfl

/-! ## answer -/

@[simp] theorem State.answer_caps (d : Nat) (e : Bool) (s : State) : (State.answer d e s).caps = s.caps := rfl
@[simp] theorem State.answer_pending (d : Nat) (e : Bool) (s : State) : (State.answer d e s).pending = s.pending := rfl
@[simp] theorem State.answer_freeCtr (d : Nat) (e : Bool) (s : State) : (State.answer d e s).freeCtr = s.freeCtr := rfl
@[simp] theorem State.answer_mem (d : Nat) (e : Bool) (s : State) : (State.answer d e s).mem = s.mem := rfl
@[simp] theorem State.answer_resp (d : Nat) (e : Bool) (s : State) : (State.answer d e s).resp = s.resp := rfl
@[simp] theorem State.answer_frame (d : Nat) (e : Bool) (s : State) : (State.answer d e s).frame = s.frame := rfl
@[simp] theorem State.answer_pins (d : Nat) (e : Bool) (s : State) : (State.answer d e s).pins = s.pins := rfl
@[simp] theorem State.answer_pace (d : Nat) (e : Bool) (s : State) : (State.answer d e s).pace = s.pace := rfl
@[simp] theorem State.answer_tel (d : Nat) (e : Bool) (s : State) : (State.answer d e s).tel = s.tel := rfl
@[simp] theorem State.answer_frameLog (d : Nat) (e : Bool) (s : State) : (State.answer d e s).frameLog = s.frameLog := rfl
@[simp] theorem State.answer_units (d : Nat) (e : Bool) (s : State) : (State.answer d e s).units = s.units := rfl
@[simp] theorem State.answer_dump (d : Nat) (e : Bool) (s : State) : (State.answer d e s).dump = s.dump := rfl
@[simp] theorem State.answer_sec (d : Nat) (e : Bool) (s : State) : (State.answer d e s).sec = s.sec := rfl
@[simp] theorem State.answer_image (d : Nat) (e : Bool) (s : State) : (State.answer d e s).image = s.image := rfl
@[simp] theorem State.answer_bays (d : Nat) (e : Bool) (s : State) : (State.answer d e s).bays = s.bays := rfl
@[simp] theorem State.answer_routes (d : Nat) (e : Bool) (s : State) : (State.answer d e s).routes = s.routes := rfl
@[simp] theorem State.answer_bounds (d : Nat) (e : Bool) (s : State) : (State.answer d e s).bounds = s.bounds := rfl
@[simp] theorem State.answer_banks (d : Nat) (e : Bool) (s : State) : (State.answer d e s).banks = s.banks := rfl
@[simp] theorem State.answer_bankWords (d : Nat) (e : Bool) (s : State) : (State.answer d e s).bankWords = s.bankWords := rfl
@[simp] theorem State.answer_march (d : Nat) (e : Bool) (s : State) : (State.answer d e s).march = s.march := rfl
@[simp] theorem State.answer_ports (d : Nat) (e : Bool) (s : State) : (State.answer d e s).ports = s.ports := rfl
@[simp] theorem State.answer_running (d : Nat) (e : Bool) (s : State) : (State.answer d e s).running = s.running := rfl
@[simp] theorem State.answer_later (d : Nat) (e : Bool) (s : State) : (State.answer d e s).later = s.later := rfl
@[simp] theorem State.answer_funcs (d : Nat) (e : Bool) (s : State) : (State.answer d e s).funcs = s.funcs := rfl
@[simp] theorem State.answer_queues (d : Nat) (e : Bool) (s : State) : (State.answer d e s).queues = s.queues := rfl
@[simp] theorem State.answer_streams (d : Nat) (e : Bool) (s : State) : (State.answer d e s).streams = s.streams := rfl
@[simp] theorem State.answer_groups (d : Nat) (e : Bool) (s : State) : (State.answer d e s).groups = s.groups := rfl
@[simp] theorem State.answer_pools (d : Nat) (e : Bool) (s : State) : (State.answer d e s).pools = s.pools := rfl
@[simp] theorem State.answer_stallUs (d : Nat) (e : Bool) (s : State) : (State.answer d e s).stallUs = s.stallUs := rfl
@[simp] theorem State.answer_genCtr (d : Nat) (e : Bool) (s : State) : (State.answer d e s).genCtr = s.genCtr := rfl
@[simp] theorem State.answer_notify (d : Nat) (e : Bool) (s : State) : (State.answer d e s).notify = s.notify := rfl
@[simp] theorem State.answer_relay (d : Nat) (e : Bool) (s : State) : (State.answer d e s).relay = s.relay := rfl
@[simp] theorem State.answer_therm (d : Nat) (e : Bool) (s : State) : (State.answer d e s).therm = s.therm := rfl
@[simp] theorem State.answer_thermModel (d : Nat) (e : Bool) (s : State) : (State.answer d e s).thermModel = s.thermModel := rfl
@[simp] theorem State.answer_heat (d : Nat) (e : Bool) (s : State) : (State.answer d e s).heat = s.heat := rfl
@[simp] theorem State.answer_wrappers (d : Nat) (e : Bool) (s : State) : (State.answer d e s).wrappers = s.wrappers := rfl
@[simp] theorem State.answer_func (d : Nat) (e : Bool) (s : State) (f' : Nat) : (State.answer d e s).func f' = s.func f' := rfl
@[simp] theorem State.answer_queue (d : Nat) (e : Bool) (s : State) (f' q' : Nat) : (State.answer d e s).queue f' q' = s.queue f' q' := rfl
@[simp] theorem State.answer_stream (d : Nat) (e : Bool) (s : State) (f' i' : Nat) : (State.answer d e s).stream f' i' = s.stream f' i' := rfl
@[simp] theorem State.answer_bay (d : Nat) (e : Bool) (s : State) (k' : Nat) : (State.answer d e s).bay k' = s.bay k' := rfl
@[simp] theorem State.answer_bank (d : Nat) (e : Bool) (s : State) (b' : Nat) : (State.answer d e s).bank b' = s.bank b' := rfl
@[simp] theorem State.answer_port (d : Nat) (e : Bool) (s : State) (n' : Nat) : (State.answer d e s).port n' = s.port n' := rfl
@[simp] theorem State.answer_pool (d : Nat) (e : Bool) (s : State) (p' : Nat) : (State.answer d e s).pool p' = s.pool p' := rfl
@[simp] theorem State.answer_group (d : Nat) (e : Bool) (s : State) (g' : Nat) : (State.answer d e s).group g' = s.group g' := rfl
@[simp] theorem State.answer_route (d : Nat) (e : Bool) (s : State) (r' : Nat) : (State.answer d e s).route r' = s.route r' := rfl
@[simp] theorem State.answer_boundary (d : Nat) (e : Bool) (s : State) (b' : Nat) : (State.answer d e s).boundary b' = s.boundary b' := rfl
@[simp] theorem State.answer_thermal (d : Nat) (e : Bool) (s : State) (d' : Nat) : (State.answer d e s).thermal d' = s.thermal d' := rfl
@[simp] theorem State.answer_now (d : Nat) (e : Bool) (s : State) : (State.answer d e s).now = s.now := rfl
@[simp] theorem State.answer_nBays (d : Nat) (e : Bool) (s : State) : (State.answer d e s).nBays = s.nBays := rfl
@[simp] theorem State.answer_nPorts (d : Nat) (e : Bool) (s : State) : (State.answer d e s).nPorts = s.nPorts := rfl
@[simp] theorem State.answer_shown (d : Nat) (e : Bool) (s : State) : (State.answer d e s).shown = s.shown := rfl

/-! ## seeMem -/

@[simp] theorem State.seeMem_caps (v : MemView) (s : State) : (State.seeMem v s).caps = s.caps := rfl
@[simp] theorem State.seeMem_pending (v : MemView) (s : State) : (State.seeMem v s).pending = s.pending := rfl
@[simp] theorem State.seeMem_freeCtr (v : MemView) (s : State) : (State.seeMem v s).freeCtr = s.freeCtr := rfl
@[simp] theorem State.seeMem_frame (v : MemView) (s : State) : (State.seeMem v s).frame = s.frame := rfl
@[simp] theorem State.seeMem_pins (v : MemView) (s : State) : (State.seeMem v s).pins = s.pins := rfl
@[simp] theorem State.seeMem_pace (v : MemView) (s : State) : (State.seeMem v s).pace = s.pace := rfl
@[simp] theorem State.seeMem_tel (v : MemView) (s : State) : (State.seeMem v s).tel = s.tel := rfl
@[simp] theorem State.seeMem_host (v : MemView) (s : State) : (State.seeMem v s).host = s.host := rfl
@[simp] theorem State.seeMem_frameLog (v : MemView) (s : State) : (State.seeMem v s).frameLog = s.frameLog := rfl
@[simp] theorem State.seeMem_units (v : MemView) (s : State) : (State.seeMem v s).units = s.units := rfl
@[simp] theorem State.seeMem_dump (v : MemView) (s : State) : (State.seeMem v s).dump = s.dump := rfl
@[simp] theorem State.seeMem_sec (v : MemView) (s : State) : (State.seeMem v s).sec = s.sec := rfl
@[simp] theorem State.seeMem_image (v : MemView) (s : State) : (State.seeMem v s).image = s.image := rfl
@[simp] theorem State.seeMem_bays (v : MemView) (s : State) : (State.seeMem v s).bays = s.bays := rfl
@[simp] theorem State.seeMem_routes (v : MemView) (s : State) : (State.seeMem v s).routes = s.routes := rfl
@[simp] theorem State.seeMem_bounds (v : MemView) (s : State) : (State.seeMem v s).bounds = s.bounds := rfl
@[simp] theorem State.seeMem_banks (v : MemView) (s : State) : (State.seeMem v s).banks = s.banks := rfl
@[simp] theorem State.seeMem_bankWords (v : MemView) (s : State) : (State.seeMem v s).bankWords = s.bankWords := rfl
@[simp] theorem State.seeMem_march (v : MemView) (s : State) : (State.seeMem v s).march = s.march := rfl
@[simp] theorem State.seeMem_ports (v : MemView) (s : State) : (State.seeMem v s).ports = s.ports := rfl
@[simp] theorem State.seeMem_running (v : MemView) (s : State) : (State.seeMem v s).running = s.running := rfl
@[simp] theorem State.seeMem_later (v : MemView) (s : State) : (State.seeMem v s).later = s.later := rfl
@[simp] theorem State.seeMem_funcs (v : MemView) (s : State) : (State.seeMem v s).funcs = s.funcs := rfl
@[simp] theorem State.seeMem_queues (v : MemView) (s : State) : (State.seeMem v s).queues = s.queues := rfl
@[simp] theorem State.seeMem_streams (v : MemView) (s : State) : (State.seeMem v s).streams = s.streams := rfl
@[simp] theorem State.seeMem_groups (v : MemView) (s : State) : (State.seeMem v s).groups = s.groups := rfl
@[simp] theorem State.seeMem_pools (v : MemView) (s : State) : (State.seeMem v s).pools = s.pools := rfl
@[simp] theorem State.seeMem_stallUs (v : MemView) (s : State) : (State.seeMem v s).stallUs = s.stallUs := rfl
@[simp] theorem State.seeMem_genCtr (v : MemView) (s : State) : (State.seeMem v s).genCtr = s.genCtr := rfl
@[simp] theorem State.seeMem_notify (v : MemView) (s : State) : (State.seeMem v s).notify = s.notify := rfl
@[simp] theorem State.seeMem_relay (v : MemView) (s : State) : (State.seeMem v s).relay = s.relay := rfl
@[simp] theorem State.seeMem_therm (v : MemView) (s : State) : (State.seeMem v s).therm = s.therm := rfl
@[simp] theorem State.seeMem_thermModel (v : MemView) (s : State) : (State.seeMem v s).thermModel = s.thermModel := rfl
@[simp] theorem State.seeMem_heat (v : MemView) (s : State) : (State.seeMem v s).heat = s.heat := rfl
@[simp] theorem State.seeMem_wrappers (v : MemView) (s : State) : (State.seeMem v s).wrappers = s.wrappers := rfl
@[simp] theorem State.seeMem_func (v : MemView) (s : State) (f' : Nat) : (State.seeMem v s).func f' = s.func f' := rfl
@[simp] theorem State.seeMem_queue (v : MemView) (s : State) (f' q' : Nat) : (State.seeMem v s).queue f' q' = s.queue f' q' := rfl
@[simp] theorem State.seeMem_stream (v : MemView) (s : State) (f' i' : Nat) : (State.seeMem v s).stream f' i' = s.stream f' i' := rfl
@[simp] theorem State.seeMem_bay (v : MemView) (s : State) (k' : Nat) : (State.seeMem v s).bay k' = s.bay k' := rfl
@[simp] theorem State.seeMem_bank (v : MemView) (s : State) (b' : Nat) : (State.seeMem v s).bank b' = s.bank b' := rfl
@[simp] theorem State.seeMem_port (v : MemView) (s : State) (n' : Nat) : (State.seeMem v s).port n' = s.port n' := rfl
@[simp] theorem State.seeMem_pool (v : MemView) (s : State) (p' : Nat) : (State.seeMem v s).pool p' = s.pool p' := rfl
@[simp] theorem State.seeMem_group (v : MemView) (s : State) (g' : Nat) : (State.seeMem v s).group g' = s.group g' := rfl
@[simp] theorem State.seeMem_route (v : MemView) (s : State) (r' : Nat) : (State.seeMem v s).route r' = s.route r' := rfl
@[simp] theorem State.seeMem_boundary (v : MemView) (s : State) (b' : Nat) : (State.seeMem v s).boundary b' = s.boundary b' := rfl
@[simp] theorem State.seeMem_thermal (v : MemView) (s : State) (d' : Nat) : (State.seeMem v s).thermal d' = s.thermal d' := rfl
@[simp] theorem State.seeMem_now (v : MemView) (s : State) : (State.seeMem v s).now = s.now := rfl
@[simp] theorem State.seeMem_nBays (v : MemView) (s : State) : (State.seeMem v s).nBays = s.nBays := rfl
@[simp] theorem State.seeMem_nPorts (v : MemView) (s : State) : (State.seeMem v s).nPorts = s.nPorts := rfl
@[simp] theorem State.seeMem_shown (v : MemView) (s : State) : (State.seeMem v s).shown = s.shown := rfl

/-! ## start -/

@[simp] theorem State.start_caps  (s : State) : (State.start s).caps = s.caps := rfl
@[simp] theorem State.start_pending  (s : State) : (State.start s).pending = s.pending := rfl
@[simp] theorem State.start_freeCtr  (s : State) : (State.start s).freeCtr = s.freeCtr := rfl
@[simp] theorem State.start_mem  (s : State) : (State.start s).mem = s.mem := rfl
@[simp] theorem State.start_resp  (s : State) : (State.start s).resp = s.resp := rfl
@[simp] theorem State.start_frame  (s : State) : (State.start s).frame = s.frame := rfl
@[simp] theorem State.start_pins  (s : State) : (State.start s).pins = s.pins := rfl
@[simp] theorem State.start_pace  (s : State) : (State.start s).pace = s.pace := rfl
@[simp] theorem State.start_tel  (s : State) : (State.start s).tel = s.tel := rfl
@[simp] theorem State.start_host  (s : State) : (State.start s).host = s.host := rfl
@[simp] theorem State.start_frameLog  (s : State) : (State.start s).frameLog = s.frameLog := rfl
@[simp] theorem State.start_units  (s : State) : (State.start s).units = s.units := rfl
@[simp] theorem State.start_dump  (s : State) : (State.start s).dump = s.dump := rfl
@[simp] theorem State.start_sec  (s : State) : (State.start s).sec = s.sec := rfl
@[simp] theorem State.start_image  (s : State) : (State.start s).image = s.image := rfl
@[simp] theorem State.start_bays  (s : State) : (State.start s).bays = s.bays := rfl
@[simp] theorem State.start_routes  (s : State) : (State.start s).routes = s.routes := rfl
@[simp] theorem State.start_bounds  (s : State) : (State.start s).bounds = s.bounds := rfl
@[simp] theorem State.start_banks  (s : State) : (State.start s).banks = s.banks := rfl
@[simp] theorem State.start_bankWords  (s : State) : (State.start s).bankWords = s.bankWords := rfl
@[simp] theorem State.start_march  (s : State) : (State.start s).march = s.march := rfl
@[simp] theorem State.start_ports  (s : State) : (State.start s).ports = s.ports := rfl
@[simp] theorem State.start_later  (s : State) : (State.start s).later = s.later := rfl
@[simp] theorem State.start_funcs  (s : State) : (State.start s).funcs = s.funcs := rfl
@[simp] theorem State.start_queues  (s : State) : (State.start s).queues = s.queues := rfl
@[simp] theorem State.start_streams  (s : State) : (State.start s).streams = s.streams := rfl
@[simp] theorem State.start_groups  (s : State) : (State.start s).groups = s.groups := rfl
@[simp] theorem State.start_pools  (s : State) : (State.start s).pools = s.pools := rfl
@[simp] theorem State.start_stallUs  (s : State) : (State.start s).stallUs = s.stallUs := rfl
@[simp] theorem State.start_genCtr  (s : State) : (State.start s).genCtr = s.genCtr := rfl
@[simp] theorem State.start_notify  (s : State) : (State.start s).notify = s.notify := rfl
@[simp] theorem State.start_relay  (s : State) : (State.start s).relay = s.relay := rfl
@[simp] theorem State.start_therm  (s : State) : (State.start s).therm = s.therm := rfl
@[simp] theorem State.start_thermModel  (s : State) : (State.start s).thermModel = s.thermModel := rfl
@[simp] theorem State.start_heat  (s : State) : (State.start s).heat = s.heat := rfl
@[simp] theorem State.start_wrappers  (s : State) : (State.start s).wrappers = s.wrappers := rfl
@[simp] theorem State.start_func  (s : State) (f' : Nat) : (State.start s).func f' = s.func f' := rfl
@[simp] theorem State.start_queue  (s : State) (f' q' : Nat) : (State.start s).queue f' q' = s.queue f' q' := rfl
@[simp] theorem State.start_stream  (s : State) (f' i' : Nat) : (State.start s).stream f' i' = s.stream f' i' := rfl
@[simp] theorem State.start_bay  (s : State) (k' : Nat) : (State.start s).bay k' = s.bay k' := rfl
@[simp] theorem State.start_bank  (s : State) (b' : Nat) : (State.start s).bank b' = s.bank b' := rfl
@[simp] theorem State.start_port  (s : State) (n' : Nat) : (State.start s).port n' = s.port n' := rfl
@[simp] theorem State.start_pool  (s : State) (p' : Nat) : (State.start s).pool p' = s.pool p' := rfl
@[simp] theorem State.start_group  (s : State) (g' : Nat) : (State.start s).group g' = s.group g' := rfl
@[simp] theorem State.start_route  (s : State) (r' : Nat) : (State.start s).route r' = s.route r' := rfl
@[simp] theorem State.start_boundary  (s : State) (b' : Nat) : (State.start s).boundary b' = s.boundary b' := rfl
@[simp] theorem State.start_thermal  (s : State) (d' : Nat) : (State.start s).thermal d' = s.thermal d' := rfl
@[simp] theorem State.start_now  (s : State) : (State.start s).now = s.now := rfl
@[simp] theorem State.start_nBays  (s : State) : (State.start s).nBays = s.nBays := rfl
@[simp] theorem State.start_nPorts  (s : State) : (State.start s).nPorts = s.nPorts := rfl
@[simp] theorem State.start_shown  (s : State) : (State.start s).shown = s.shown := rfl

/-! ## stage -/

@[simp] theorem State.stage_caps (o : Origin) (p : Page) (off v : Nat) (s : State) : (State.stage o p off v s).caps = s.caps := rfl
@[simp] theorem State.stage_pending (o : Origin) (p : Page) (off v : Nat) (s : State) : (State.stage o p off v s).pending = s.pending := rfl
@[simp] theorem State.stage_freeCtr (o : Origin) (p : Page) (off v : Nat) (s : State) : (State.stage o p off v s).freeCtr = s.freeCtr := rfl
@[simp] theorem State.stage_mem (o : Origin) (p : Page) (off v : Nat) (s : State) : (State.stage o p off v s).mem = s.mem := rfl
@[simp] theorem State.stage_resp (o : Origin) (p : Page) (off v : Nat) (s : State) : (State.stage o p off v s).resp = s.resp := rfl
@[simp] theorem State.stage_frame (o : Origin) (p : Page) (off v : Nat) (s : State) : (State.stage o p off v s).frame = s.frame := rfl
@[simp] theorem State.stage_pins (o : Origin) (p : Page) (off v : Nat) (s : State) : (State.stage o p off v s).pins = s.pins := rfl
@[simp] theorem State.stage_pace (o : Origin) (p : Page) (off v : Nat) (s : State) : (State.stage o p off v s).pace = s.pace := rfl
@[simp] theorem State.stage_tel (o : Origin) (p : Page) (off v : Nat) (s : State) : (State.stage o p off v s).tel = s.tel := rfl
@[simp] theorem State.stage_frameLog (o : Origin) (p : Page) (off v : Nat) (s : State) : (State.stage o p off v s).frameLog = s.frameLog := rfl
@[simp] theorem State.stage_units (o : Origin) (p : Page) (off v : Nat) (s : State) : (State.stage o p off v s).units = s.units := rfl
@[simp] theorem State.stage_dump (o : Origin) (p : Page) (off v : Nat) (s : State) : (State.stage o p off v s).dump = s.dump := rfl
@[simp] theorem State.stage_sec (o : Origin) (p : Page) (off v : Nat) (s : State) : (State.stage o p off v s).sec = s.sec := rfl
@[simp] theorem State.stage_image (o : Origin) (p : Page) (off v : Nat) (s : State) : (State.stage o p off v s).image = s.image := rfl
@[simp] theorem State.stage_bays (o : Origin) (p : Page) (off v : Nat) (s : State) : (State.stage o p off v s).bays = s.bays := rfl
@[simp] theorem State.stage_routes (o : Origin) (p : Page) (off v : Nat) (s : State) : (State.stage o p off v s).routes = s.routes := rfl
@[simp] theorem State.stage_bounds (o : Origin) (p : Page) (off v : Nat) (s : State) : (State.stage o p off v s).bounds = s.bounds := rfl
@[simp] theorem State.stage_banks (o : Origin) (p : Page) (off v : Nat) (s : State) : (State.stage o p off v s).banks = s.banks := rfl
@[simp] theorem State.stage_bankWords (o : Origin) (p : Page) (off v : Nat) (s : State) : (State.stage o p off v s).bankWords = s.bankWords := rfl
@[simp] theorem State.stage_march (o : Origin) (p : Page) (off v : Nat) (s : State) : (State.stage o p off v s).march = s.march := rfl
@[simp] theorem State.stage_ports (o : Origin) (p : Page) (off v : Nat) (s : State) : (State.stage o p off v s).ports = s.ports := rfl
@[simp] theorem State.stage_running (o : Origin) (p : Page) (off v : Nat) (s : State) : (State.stage o p off v s).running = s.running := rfl
@[simp] theorem State.stage_later (o : Origin) (p : Page) (off v : Nat) (s : State) : (State.stage o p off v s).later = s.later := rfl
@[simp] theorem State.stage_funcs (o : Origin) (p : Page) (off v : Nat) (s : State) : (State.stage o p off v s).funcs = s.funcs := rfl
@[simp] theorem State.stage_queues (o : Origin) (p : Page) (off v : Nat) (s : State) : (State.stage o p off v s).queues = s.queues := rfl
@[simp] theorem State.stage_streams (o : Origin) (p : Page) (off v : Nat) (s : State) : (State.stage o p off v s).streams = s.streams := rfl
@[simp] theorem State.stage_groups (o : Origin) (p : Page) (off v : Nat) (s : State) : (State.stage o p off v s).groups = s.groups := rfl
@[simp] theorem State.stage_pools (o : Origin) (p : Page) (off v : Nat) (s : State) : (State.stage o p off v s).pools = s.pools := rfl
@[simp] theorem State.stage_stallUs (o : Origin) (p : Page) (off v : Nat) (s : State) : (State.stage o p off v s).stallUs = s.stallUs := rfl
@[simp] theorem State.stage_genCtr (o : Origin) (p : Page) (off v : Nat) (s : State) : (State.stage o p off v s).genCtr = s.genCtr := rfl
@[simp] theorem State.stage_notify (o : Origin) (p : Page) (off v : Nat) (s : State) : (State.stage o p off v s).notify = s.notify := rfl
@[simp] theorem State.stage_relay (o : Origin) (p : Page) (off v : Nat) (s : State) : (State.stage o p off v s).relay = s.relay := rfl
@[simp] theorem State.stage_therm (o : Origin) (p : Page) (off v : Nat) (s : State) : (State.stage o p off v s).therm = s.therm := rfl
@[simp] theorem State.stage_thermModel (o : Origin) (p : Page) (off v : Nat) (s : State) : (State.stage o p off v s).thermModel = s.thermModel := rfl
@[simp] theorem State.stage_heat (o : Origin) (p : Page) (off v : Nat) (s : State) : (State.stage o p off v s).heat = s.heat := rfl
@[simp] theorem State.stage_wrappers (o : Origin) (p : Page) (off v : Nat) (s : State) : (State.stage o p off v s).wrappers = s.wrappers := rfl
@[simp] theorem State.stage_func (o : Origin) (p : Page) (off v : Nat) (s : State) (f' : Nat) : (State.stage o p off v s).func f' = s.func f' := rfl
@[simp] theorem State.stage_queue (o : Origin) (p : Page) (off v : Nat) (s : State) (f' q' : Nat) : (State.stage o p off v s).queue f' q' = s.queue f' q' := rfl
@[simp] theorem State.stage_stream (o : Origin) (p : Page) (off v : Nat) (s : State) (f' i' : Nat) : (State.stage o p off v s).stream f' i' = s.stream f' i' := rfl
@[simp] theorem State.stage_bay (o : Origin) (p : Page) (off v : Nat) (s : State) (k' : Nat) : (State.stage o p off v s).bay k' = s.bay k' := rfl
@[simp] theorem State.stage_bank (o : Origin) (p : Page) (off v : Nat) (s : State) (b' : Nat) : (State.stage o p off v s).bank b' = s.bank b' := rfl
@[simp] theorem State.stage_port (o : Origin) (p : Page) (off v : Nat) (s : State) (n' : Nat) : (State.stage o p off v s).port n' = s.port n' := rfl
@[simp] theorem State.stage_pool (o : Origin) (p : Page) (off v : Nat) (s : State) (p' : Nat) : (State.stage o p off v s).pool p' = s.pool p' := rfl
@[simp] theorem State.stage_group (o : Origin) (p : Page) (off v : Nat) (s : State) (g' : Nat) : (State.stage o p off v s).group g' = s.group g' := rfl
@[simp] theorem State.stage_route (o : Origin) (p : Page) (off v : Nat) (s : State) (r' : Nat) : (State.stage o p off v s).route r' = s.route r' := rfl
@[simp] theorem State.stage_boundary (o : Origin) (p : Page) (off v : Nat) (s : State) (b' : Nat) : (State.stage o p off v s).boundary b' = s.boundary b' := rfl
@[simp] theorem State.stage_thermal (o : Origin) (p : Page) (off v : Nat) (s : State) (d' : Nat) : (State.stage o p off v s).thermal d' = s.thermal d' := rfl
@[simp] theorem State.stage_now (o : Origin) (p : Page) (off v : Nat) (s : State) : (State.stage o p off v s).now = s.now := rfl
@[simp] theorem State.stage_nBays (o : Origin) (p : Page) (off v : Nat) (s : State) : (State.stage o p off v s).nBays = s.nBays := rfl
@[simp] theorem State.stage_nPorts (o : Origin) (p : Page) (off v : Nat) (s : State) : (State.stage o p off v s).nPorts = s.nPorts := rfl
@[simp] theorem State.stage_shown (o : Origin) (p : Page) (off v : Nat) (s : State) : (State.stage o p off v s).shown = s.shown := rfl

end Sys2Proof.Machine
end

