-- ==== Sys2Proof/Laws/Access.lean ====
section
/-! SUPPORT. What a host write of each page does once R138, R179, R557 and R560 let it through, and what the steward's own reads and
writes of memory answer where memory answers OKAY. -/

namespace Sys2Proof.Machine

set_option Elab.async false

theorem Caps.pageOf_frame (c : Caps) (off : Nat) (h : off < 0x10000) : c.pageOf (0x400000 + off) = some (.frame, off) := by
  have h1 : (0x400000 + off) / 0x10000 = 64 := by omega
  have h2 : (0x400000 + off) % 0x10000 = off := by omega
  simp [Caps.pageOf, h1, h2]

theorem Caps.pageOf_management (c : Caps) (off : Nat) (h : off < 0x10000) : c.pageOf (0x410000 + off) = some (.management, off) := by
  have h1 : (0x410000 + off) / 0x10000 = 65 := by omega
  have h2 : (0x410000 + off) % 0x10000 = off := by omega
  simp [Caps.pageOf, h1, h2]

theorem Caps.pageOf_func (c : Caps) (fn : BitVec 6) (off : Nat) (hf : fn.toNat < c.funcs) (h : off < 0x10000) :
    c.pageOf (fn.toNat * 0x10000 + off) = some (.func fn.toNat, off) := by
  have := fn.isLt
  have h1 : (fn.toNat * 0x10000 + off) / 0x10000 = fn.toNat := by omega
  have h2 : (fn.toNat * 0x10000 + off) % 0x10000 = off := by omega
  simp [Caps.pageOf, h1, h2, hf]
  omega

/-- A write of the frame page that R138 and R557 let through, to a register of no fenced bay. -/
theorem State.hostWrite_frame {s : State} {acc : Acc} (h : s.FrameAccess acc) (off v : Nat) (a b : MemView) (ho : off < 0x10000)
    (hf : s.fencedOwner .frame off = none) :
    s.hostWrite acc (0x400000 + off) v a b = ((s.clearW1c .frame off v).frameWrite .frame off v).accepted := by
  obtain ⟨h1, h2⟩ := h
  simp [State.hostWrite, Caps.pageOf_frame _ _ ho, Page.allows, h1, hf, State.regWrite, h2, State.accepted]

/-- A write of a register outside BANK_OWNER has no fenced owner (R560). -/
theorem State.fencedOwner_frame (s : State) (off : Nat) (h : off < 0x1000 ∨ 0x4000 ≤ off) : s.fencedOwner .frame off = none := by
  simp only [State.fencedOwner, arrayIx]
  split <;> simp_all <;> omega

/-- A write of the management page that R138 and R557 let through. -/
theorem State.hostWrite_management {s : State} {acc : Acc} (h : s.MgmtAccess acc) (off v : Nat) (a b : MemView) (ho : off < 0x10000) :
    s.hostWrite acc (0x410000 + off) v a b = ((s.clearW1c .management off v).mgmtWrite .management off v a b).accepted := by
  obtain ⟨h1, h2⟩ := h
  simp [State.hostWrite, Caps.pageOf_management _ _ ho, Page.allows, h1, State.regWrite, h2, State.accepted, State.fencedOwner]

/-- A write of a function's page that R138, R179 and R557 let through. -/
theorem State.hostWrite_func {s : State} {acc : Acc} {fn : BitVec 6} (h : s.FuncAccess acc fn) (off v : Nat) (a b : MemView) (ho : off < 0x10000) :
    s.hostWrite acc (fnReg fn off) v a b =
      ((s.clearW1c (.func fn.toNat) off v).funcWrite acc.origin fn.toNat off v).accepted := by
  obtain ⟨h1, h2, h3, h4, h5⟩ := h
  have ha : (Page.func fn.toNat).allows acc = true := by
    rcases h1 with h | ⟨h, h'⟩ <;> simp [Page.allows, h]
    rw [h']
  simp [State.hostWrite, fnReg, Caps.pageOf_func _ _ _ h2 ho, ha, h3, State.regWrite, h4, h5, State.accepted, State.fencedOwner]

/-! ## Accesses of a command (R119 to R135; log 4) -/

/-- Only ports, counters and the notes of the running command differ. -/
def State.OnPorts (s t : State) : Prop :=
  t = { s with ports := t.ports, tel := { s.tel with cnt := t.tel.cnt }, running := t.running }

theorem State.OnPorts.trans {a b c : State} (h : a.OnPorts b) (k : b.OnPorts c) : a.OnPorts c := by
  unfold State.OnPorts at *
  rw [k, h]

/-- Issue slots pass and signals go out at a port; what the ports hold stays. -/
def State.Signals (s t : State) : Prop := s.OnPorts t ∧ s.SamePorts t

theorem State.Signals.refl (s : State) : s.Signals s := ⟨rfl, fun _ => rfl⟩

theorem State.Signals.trans {a b c : State} (h : a.Signals b) (k : b.Signals c) : a.Signals c := by
  refine ⟨h.1.trans k.1, fun n => ?_⟩
  rw [k.2 n, h.2 n]

theorem State.signals_count (s : State) (g i c n : Nat) : s.Signals (s.count g i c n) := ⟨rfl, fun _ => rfl⟩

/-- A port takes other signals. -/
theorem State.signals_modPort (s : State) (n : Nat) (g : Port → Port)
    (h : ∀ p : Port, g p = { p with sent := (g p).sent, wdata := (g p).wdata, slots := (g p).slots, rr := (g p).rr }) :
    s.Signals (s.modPort n g) := by
  refine ⟨rfl, fun m => ?_⟩
  by_cases e : m = n
  · subst e
    simpa [State.modPort, State.setPort, State.port] using h (s.port m)
  · simp [State.modPort, State.setPort, State.port, tblGetD_tblSet_ne _ _ _ _ e]

theorem State.signals_passIdle (s : State) (n idle : Nat) : s.Signals (s.passIdle n idle) := by
  unfold State.passIdle
  split
  · exact .refl s
  · exact (s.signals_modPort n _ (fun _ => rfl)).trans (State.signals_count ..)

theorem State.signals_countResp (s : State) (n : Nat) (r : Resp) : s.Signals (s.countResp n r) := by
  cases r <;> first | exact .refl s | exact State.signals_count ..

theorem State.signals_transfer (s : State) (n tag : Nat) (r : Req) : s.Signals (s.transfer n tag r) := by
  have a : s.Signals (s.modPort n (fun p => { p with
    sent := some (s.reqSig tag r), wdata := if r.op = .write then r.writeBeats else p.wdata, slots := p.slots + 1,
    rr := if r.deadline.isNone then s.rrClass r else p.rr })) := s.signals_modPort n _ (fun _ => rfl)
  have b : ∀ u : State, u.Signals (if r.deadline.isNone then u.count 1 n 10 1 else u) := by
    intro u
    split
    · exact u.signals_count ..
    · exact .refl u
  have c : ∀ u : State, u.Signals (if r.op = .write then (u.count 1 n 3 1).count 1 n 1 (64 * r.grans)
      else (u.count 1 n 2 1).count 1 n 0 (64 * r.grans)) := by
    intro u
    split <;> exact (u.signals_count ..).trans (State.signals_count ..)
  exact (a.trans (b _)).trans (c _)

/-- The request that the arbiter would take goes before every other. -/
theorem State.letPass_first {s : State} {n : Nat} {r : Req}
    (h : s.choose n (r :: (s.port n).waiting.filter (s.eligible n)) = some r) (k : Nat) : s.letPass n r k = s := by
  cases k with
  | zero => rfl
  | succ k => simp [State.letPass, h]

/-- A request that has its slot comes to it: only signals change before. -/
theorem State.toSlot_hasSlot {s : State} {w : Party} {op : SillOp} {addr len : Nat} {x : Word} {d : Bytes}
    (h : s.HasSlot w op addr len x d) :
    ∃ tag t, s.toSlot w.port (w.req op addr len x d) = (some tag, t) ∧ s.Signals t ∧ t.running = s.running := by
  obtain ⟨-, ht, hg, hc⟩ := h
  have ht' : (s.freeTag w.port (w.req op addr len x d).op).isSome = true := ht
  obtain ⟨tag, e⟩ := Option.isSome_iff_exists.mp ht'
  refine ⟨tag, s.passIdle w.port (s.idleBefore w.port (w.req op addr len x d)), ?_, s.signals_passIdle .., by unfold State.passIdle; split <;> rfl⟩
  simp only [State.toSlot, State.letPass_first hc]
  rw [e]
  dsimp only
  rw [if_pos hg]

/-- An access that has its slot is answered as memory answers it: beside what an OKAY answer leaves in memory, only signals, counters
and the notes of the command change (R127, R135, R547). -/
theorem State.access_hasSlot {s : State} {w : Party} {op : SillOp} {addr len : Nat} {x : Word} {d : Bytes} {a : Resp}
    (hm : s.running.miss = none) (h : s.HasSlot w op addr len x d) (ha : s.respTo (w.req op addr len x d) = some a) :
    ∃ t, s.Signals t ∧ t.running = s.running ∧ s.access w.port (w.req op addr len x d) = t.answered w.port (w.req op addr len x d) a := by
  obtain ⟨tag, t, e, k, kr⟩ := State.toSlot_hasSlot h
  obtain ⟨⟨h1, h2⟩, -⟩ := h
  have f1 : (s.port w.port).answers.find? (fun a => a.req.same (w.req op addr len x d)) = none := by
    rw [List.find?_eq_none]
    intro a ha; simp [h1 a ha]
  have f2 : ((s.port w.port).table (w.req op addr len x d).op).find? (fun o => !o.drop && o.req.same (w.req op addr len x d)) = none := by
    rw [List.find?_eq_none]
    intro o ho
    have := h2 o ho
    cases hd : o.drop <;> simp_all
  refine ⟨t.transfer w.port tag (w.req op addr len x d), k.trans (State.signals_transfer ..), ?_, ?_⟩
  · have r1 : (t.transfer w.port tag (w.req op addr len x d)).running = t.running := by
      unfold State.transfer
      dsimp only
      split <;> split <;> rfl
    rw [r1, kr]
  · unfold State.access
    simp only [hm, Option.isSome_none, Bool.false_eq_true, if_false]
    rw [f1]
    dsimp only
    rw [f2]
    dsimp only
    rw [e]
    dsimp only
    rw [ha]

/-- The first bytes of a read are a shorter read. -/
theorem memReadBytes_take (m : Mem) (n : Nat) : ∀ a k, k ≤ n → (memReadBytes m a n).take k = memReadBytes m a k := by
  induction n with
  | zero => intro a k h; simp [Nat.le_zero.mp h, memReadBytes]
  | succ n ih =>
    intro a k h
    cases k with
    | zero => rfl
    | succ k => simp [memReadBytes, ih (a + 1) k (by omega)]

/-- The bytes after the first are a read further on. -/
theorem memReadBytes_drop (m : Mem) (n : Nat) : ∀ a k, (memReadBytes m a n).drop k = memReadBytes m (a + k) (n - k) := by
  induction n with
  | zero => intro a k; simp [memReadBytes]
  | succ n ih =>
    intro a k
    cases k with
    | zero => rfl
    | succ k =>
      have e : a + (k + 1) = a + 1 + k := by omega
      simp [memReadBytes, ih, e]

theorem memReadBytes_length (m : Mem) (n : Nat) : ∀ a, (memReadBytes m a n).length = n := by
  induction n with
  | zero => intro a; rfl
  | succ n ih => intro a; simp [memReadBytes, ih]

/-- The bytes of an access within the whole granules that memory gave (R120). -/
theorem bytesAt_granules (m : Mem) (addr len : Nat) :
    bytesAt (memReadBytes m (addr / 64 * 64) (64 * ceilDiv (addr % 64 + len) 64)) (addr % 64) len = memReadBytes m addr len := by
  have e : addr / 64 * 64 + addr % 64 = addr := by omega
  have l : len ≤ 64 * ceilDiv (addr % 64 + len) 64 - addr % 64 := by
    unfold ceilDiv; rw [if_neg (by omega)]; omega
  unfold bytesAt
  dsimp only
  rw [memReadBytes_drop, e, memReadBytes_take _ _ _ _ l, memReadBytes_length]
  simp

/-- What the controllers answer to a request of an access that lies where they answer OKAY (R135). -/
theorem State.respTo_okay {s : State} {w : Party} {op : SillOp} {addr len : Nat} {x : Word} {d : Bytes} (h : s.OkayAt w.port addr len) :
    s.respTo (w.req op addr len x d) = some .okay := by
  have e : (w.req op addr len x d).addr / 64 * 64 = addr / 64 * 64 := by simp only [Party.req]; split <;> omega
  have h2 : respOf s.resp ((w.req op addr len x d).addr / 64 * 64) (64 * (w.req op addr len x d).grans) = some .okay := by
    rw [e]; exact h.2
  unfold State.respTo
  rw [h2]

/-- What the controllers give to an OKAY answer: the bytes, and what it leaves in memory; only the notes of the command change besides
(R125, R127). -/
theorem State.answered_okay (s : State) (n : Nat) (r : Req) : ∃ t, s.answered n r .okay = (.okay, s.memOf r, t) ∧
    t = { (s.memDone r (s.memOf r)) with running := t.running } ∧ t.running.miss = s.running.miss := by
  have hr : (s.memDone r (s.memOf r)).running = s.running := by unfold State.memDone; split <;> rfl
  have note (c : Bool) (u : State) (l : List Made) : ∃ t : State, (if c then { u with running := { u.running with made := l } } else u) = t ∧
      t = { u with running := t.running } ∧ t.running.miss = u.running.miss := by
    cases c
    · exact ⟨u, rfl, rfl, rfl⟩
    · exact ⟨{ u with running := { u.running with made := l } }, rfl, rfl, rfl⟩
  obtain ⟨t, e, h1, h2⟩ := note (s.memDone r (s.memOf r)).running.on (s.memDone r (s.memOf r))
    ((s.memDone r (s.memOf r)).running.made ++ [⟨n, ⟨r, .okay, s.memOf r⟩⟩])
  refine ⟨t, ?_, h1, by rw [h2, hr]⟩
  rw [← e]
  rfl

/-- An access that has its slot, where memory answers OKAY: the bytes, and what it leaves in memory; besides only signals, counters and
the notes of the command change (R120 to R127, R135, R547). -/
theorem State.access_okay {s : State} {w : Party} {op : SillOp} {addr len : Nat} {x : Word} {d : Bytes}
    (hm : s.running.miss = none) (ho : s.OkayAt w.port addr len) (h : s.HasSlot w op addr len x d) :
    ∃ t, s.access w.port (w.req op addr len x d) = (.okay, s.memOf (w.req op addr len x d), t) ∧ s.SamePorts t ∧
      (s.memDone (w.req op addr len x d) (s.memOf (w.req op addr len x d))).OnPorts t ∧ t.running.miss = none := by
  obtain ⟨u, k, kr, e⟩ := State.access_hasSlot hm h (State.respTo_okay ho)
  obtain ⟨t, e2, ht, hmt⟩ := u.answered_okay w.port (w.req op addr len x d)
  have hmem : u.mem = s.mem := by rw [k.1]
  have hof : u.memOf (w.req op addr len x d) = s.memOf (w.req op addr len x d) := by unfold State.memOf; rw [hmem]
  rw [hof] at e2 ht
  refine ⟨t, e.trans e2, ?_, ?_, by rw [hmt, kr]; exact hm⟩
  · intro n
    have hp : t.ports = u.ports := by rw [ht]; unfold State.memDone; split <;> rfl
    have hpn : t.port n = u.port n := by unfold State.port; rw [hp]
    rw [hpn]; exact k.2 n
  · have h1 := k.1
    unfold State.OnPorts at h1 ⊢
    rw [ht]
    unfold State.memDone
    split <;> simp only [hmem] <;> rw [h1]

/-- A read in one page that has its slot and that memory answers with OKAY gives the bytes (R120, R135). -/
theorem State.readPage_okay {s : State} {w : Party} {addr len : Nat} (hm : s.running.miss = none) (ho : s.OkayAt w.port addr len)
    (h : s.HasSlot w .read addr len 0 []) :
    ∃ t, s.readPage w addr len = (.okay, memReadBytes s.mem addr len, t) ∧ s.SamePorts t ∧ s.OnPorts t ∧ t.running.miss = none := by
  obtain ⟨t, e, h1, h2, h3⟩ := State.access_okay hm ho h
  refine ⟨t, ?_, h1, h2, h3⟩
  have hb : bytesAt (s.memOf (w.req .read addr len 0 [])) (addr % 64) len = memReadBytes s.mem addr len := bytesAt_granules ..
  unfold State.readPage
  rw [if_neg (by simp [ho.1]), e]
  dsimp only
  rw [hb]

/-- FETCH_ADD_32 that has its slot and that memory answers with OKAY raises the word and gives its old value (R125). -/
theorem State.sysAdd_okay {s : State} {w : Party} {addr x : Nat} (hm : s.running.miss = none) (ho : s.OkayAt w.port addr 4)
    (h : s.HasSlot w .fetchAdd addr 4 (BitVec.ofNat 32 x) []) :
    let old := leNat ((memReadBytes s.mem addr 4).take 4)
    ∃ t, s.sysAdd w addr x = (.okay, old, t) ∧ s.SamePorts t ∧ t.running.miss = none ∧
      State.OnPorts { s with mem := memWriteBytes s.mem addr (natLe 4 ((old + (BitVec.ofNat 32 x).toNat) % 2 ^ 32)) } t := by
  obtain ⟨t, e, h1, h2, h3⟩ := State.access_okay hm ho h
  refine ⟨t, ?_, h1, h3, h2⟩
  unfold State.sysAdd
  rw [if_neg (by simp [ho.1]), e]
  rfl

/-- A write in one page that has its slot and that memory answers with OKAY writes whole granules: the bytes, and at its ends those that
lay around it (R120, R121, R127). -/
theorem State.writePage_okay {s : State} {w : Party} {addr : Nat} {bs : Bytes} (hm : s.running.miss = none)
    (ho : s.OkayAt w.port addr bs.length) :
    let data := memReadBytes s.mem (addr / 64 * 64) (addr % 64) ++ bs ++ memReadBytes s.mem (addr + bs.length) ((64 - (addr + bs.length) % 64) % 64)
    s.HasSlot w .write addr bs.length 0 data →
    ∃ t, s.writePage w addr bs = (.okay, t) ∧ s.SamePorts t ∧ t.running.miss = none ∧
      State.OnPorts { s with mem := memWriteBytes s.mem (addr / 64 * 64) data } t := by
  intro data h
  obtain ⟨t, e, h1, h2, h3⟩ := State.access_okay hm ho h
  refine ⟨t, ?_, h1, h3, h2⟩
  unfold State.writePage
  rw [if_neg (by simp [ho.1])]
  dsimp only
  rw [e]

end Sys2Proof.Machine
end

