-- ==== Sys2Proof/Laws/Kept.lean ====
section
/-! SUPPORT. What no part of a command changes: Kept, how it composes, and that memory writes keep the canonical form. -/

namespace Sys2Proof.Machine

set_option Elab.async false

/-- What every part of a command keeps of the state: the waiting commands, the silicon, the canonical form of the memory, CRYPTO_ERROR
once set (R511) and STATE FATAL once entered. -/
structure Kept (s t : State) : Prop where
  pending : t.pending = s.pending
  caps : t.caps = s.caps
  mem : s.mem.wf = true → t.mem.wf = true
  crypto : s.sec.cryptoError = true → t.sec.cryptoError = true
  fatal : s.frame.st = .fatal → t.frame.st = .fatal
theorem Kept.refl (s : State) : Kept s s := ⟨rfl, rfl, id, id, id⟩
theorem Kept.trans {a b c : State} (h : Kept a b) (k : Kept b c) : Kept a c :=
  ⟨k.1.trans h.1, k.2.trans h.2, fun x => k.3 (h.3 x), fun x => k.4 (h.4 x), fun x => k.5 (h.5 x)⟩

theorem keptIff (s t : State) : Kept s t ↔ (t.pending = s.pending ∧ t.caps = s.caps ∧ (s.mem.wf = true → t.mem.wf = true) ∧
    (s.sec.cryptoError = true → t.sec.cryptoError = true) ∧ (s.frame.st = .fatal → t.frame.st = .fatal)) :=
  ⟨fun ⟨p, c, m, y, f⟩ => ⟨p, c, m, y, f⟩, fun ⟨p, c, m, y, f⟩ => ⟨p, c, m, y, f⟩⟩

theorem foldl_kept {α : Type} (l : List α) (f : State → α → State) (h : ∀ s a, Kept s (f s a)) (s : State) : Kept s (l.foldl f s) := by
  induction l generalizing s with
  | nil => exact .refl s
  | cons a t ih => exact (h s a).trans (ih _)

theorem State.forEach_kept {α : Type} (l : List α) (f : α → State → State) (h : ∀ a s, Kept s (f a s)) (s : State) : Kept s (State.forEach l f s) :=
  foldl_kept l _ (fun s a => h a s) s

theorem memWfFrom_mono {m : Mem} : ∀ {a b : Nat}, a ≤ b → memWfFrom b m = true → memWfFrom a m = true := by
  cases m with
  | nil => intros; rfl
  | cons p t => intro a b h; simp only [memWfFrom, Bool.and_eq_true, decide_eq_true_eq]; rintro ⟨⟨h1, h2⟩, h3⟩; exact ⟨⟨by omega, h2⟩, h3⟩

theorem memDrop_wfFrom (m : Mem) (a : Nat) : ∀ lo, memWfFrom lo m = true → memWfFrom lo (memDrop m a) = true := by
  induction m with
  | nil => intros; rfl
  | cons p t ih =>
    obtain ⟨k, b⟩ := p
    intro lo h
    simp only [memWfFrom, Bool.and_eq_true, decide_eq_true_eq] at h
    unfold memDrop
    split
    · exact memWfFrom_mono (by omega) h.2
    · simp only [memWfFrom, Bool.and_eq_true, decide_eq_true_eq]
      exact ⟨h.1, ih _ h.2⟩

theorem memPut_wfFrom (m : Mem) (a : Nat) (v : Byte) (hv : (v != 0) = true) :
    ∀ lo, lo ≤ a → memWfFrom lo m = true → memWfFrom lo (memPut m a v) = true := by
  induction m with
  | nil => intro lo h _; simp only [memWfFrom, memPut, Bool.and_eq_true, decide_eq_true_eq]; exact ⟨⟨h, hv⟩, trivial⟩
  | cons p t ih =>
    obtain ⟨k, b⟩ := p
    intro lo hl h
    simp only [memWfFrom, Bool.and_eq_true, decide_eq_true_eq] at h
    unfold memPut
    split
    · simp only [memWfFrom, Bool.and_eq_true, decide_eq_true_eq]
      exact ⟨⟨hl, hv⟩, ⟨by omega, h.1.2⟩, h.2⟩
    · split
      · subst a
        simp only [memWfFrom, Bool.and_eq_true, decide_eq_true_eq]
        exact ⟨⟨hl, hv⟩, h.2⟩
      · simp only [memWfFrom, Bool.and_eq_true, decide_eq_true_eq]
        exact ⟨h.1, ih _ (by omega) h.2⟩

theorem memWrite_wf (m : Mem) (a : Nat) (v : Byte) (h : m.wf = true) : (memWrite m a v).wf = true := by
  unfold memWrite Mem.wf at *
  split
  · exact memDrop_wfFrom m a 0 h
  · exact memPut_wfFrom m a v (by simpa using ‹¬v = 0›) 0 (Nat.zero_le _) h

theorem memWriteBytes_wf (bs : Bytes) : ∀ (m : Mem) (a : Nat), m.wf = true → (memWriteBytes m a bs).wf = true := by
  induction bs with
  | nil => intros; assumption
  | cons b t ih => intro m a h; exact ih _ _ (memWrite_wf m _ b h)

theorem foldWrites_wf (l : List (Nat × Bytes)) : ∀ (m : Mem), m.wf = true → (l.foldl (fun m w => memWriteBytes m w.1 w.2) m).wf = true := by
  induction l with
  | nil => intros; assumption
  | cons b t ih => intro m h; exact ih _ (memWriteBytes_wf _ _ _ h)

theorem ite_kept {c : Prop} [Decidable c] {s a b : State} (ha : Kept s a) (hb : Kept s b) : Kept s (if c then a else b) := by
  split <;> assumption
theorem outIte_kept {c : Prop} [Decidable c] {s : State} {a b : Out} (ha : ∀ t, a = .next t → Kept s t) (hb : ∀ t, b = .next t → Kept s t) :
    ∀ t, (if c then a else b) = .next t → Kept s t := by
  split <;> assumption
theorem outNext_kept {s a : State} (h : Kept s a) : ∀ t, (.next a : Out) = .next t → Kept s t := by
  intro t e; injection e with e; exact e ▸ h

end Sys2Proof.Machine
end

