-- ==== Sys2Proof/Laws/KeptA.lean ====
section
/-! SUPPORT. Kept, for each state-changing definition of Ops, Routes, Clocks, Banks, Access. -/

namespace Sys2Proof.Machine

set_option Elab.async false

theorem State.setFunc_kept (f : Nat) (v : Func) (s : State) :
    Kept s (State.setFunc f v s) := ⟨rfl, rfl, id, id, id⟩

theorem State.modFunc_kept (f : Nat) (g : Func → Func) (s : State) :
    Kept s (State.modFunc f g s) := ⟨rfl, rfl, id, id, id⟩

theorem State.setQueue_kept (f : Nat) (q : Nat) (v : Queue) (s : State) :
    Kept s (State.setQueue f q v s) := ⟨rfl, rfl, id, id, id⟩

theorem State.modQueue_kept (f : Nat) (q : Nat) (g : Queue → Queue) (s : State) :
    Kept s (State.modQueue f q g s) := ⟨rfl, rfl, id, id, id⟩

theorem State.setStream_kept (f : Nat) (i : Nat) (v : Stream) (s : State) :
    Kept s (State.setStream f i v s) := ⟨rfl, rfl, id, id, id⟩

theorem State.modStream_kept (f : Nat) (i : Nat) (g : Stream → Stream) (s : State) :
    Kept s (State.modStream f i g s) := ⟨rfl, rfl, id, id, id⟩

theorem State.setBay_kept (k : Nat) (v : Bay) (s : State) :
    Kept s (State.setBay k v s) := ⟨rfl, rfl, id, id, id⟩

theorem State.modBay_kept (k : Nat) (g : Bay → Bay) (s : State) :
    Kept s (State.modBay k g s) := ⟨rfl, rfl, id, id, id⟩

theorem State.setBank_kept (b : Nat) (v : Bank) (s : State) :
    Kept s (State.setBank b v s) := ⟨rfl, rfl, id, id, id⟩

theorem State.modBank_kept (b : Nat) (g : Bank → Bank) (s : State) :
    Kept s (State.modBank b g s) := ⟨rfl, rfl, id, id, id⟩

theorem State.setPort_kept (n : Nat) (v : Port) (s : State) :
    Kept s (State.setPort n v s) := ⟨rfl, rfl, id, id, id⟩

theorem State.modPort_kept (n : Nat) (g : Port → Port) (s : State) :
    Kept s (State.modPort n g s) := ⟨rfl, rfl, id, id, id⟩

theorem State.setPool_kept (p : Nat) (v : Pool) (s : State) :
    Kept s (State.setPool p v s) := ⟨rfl, rfl, id, id, id⟩

theorem State.modPool_kept (p : Nat) (g : Pool → Pool) (s : State) :
    Kept s (State.modPool p g s) := ⟨rfl, rfl, id, id, id⟩

theorem State.setGroup_kept (g : Nat) (v : LockGroup) (s : State) :
    Kept s (State.setGroup g v s) := ⟨rfl, rfl, id, id, id⟩

theorem State.setRoute_kept (r : Nat) (v : Route) (s : State) :
    Kept s (State.setRoute r v s) := ⟨rfl, rfl, id, id, id⟩

theorem State.setBoundary_kept (b : Nat) (v : Boundary) (s : State) :
    Kept s (State.setBoundary b v s) := ⟨rfl, rfl, id, id, id⟩

theorem State.setThermal_kept (d : Nat) (v : Therm) (s : State) :
    Kept s (State.setThermal d v s) := ⟨rfl, rfl, id, id, id⟩

theorem State.modThermal_kept (d : Nat) (g : Therm → Therm) (s : State) :
    Kept s (State.modThermal d g s) := ⟨rfl, rfl, id, id, id⟩

theorem State.count_kept (g : Nat) (i : Nat) (c : Nat) (n : Nat) (s : State) :
    Kept s (State.count g i c n s) := ⟨rfl, rfl, id, id, id⟩

theorem State.clearCounts_kept (g : Nat) (i : Nat) (s : State) :
    Kept s (State.clearCounts g i s) := ⟨rfl, rfl, id, id, id⟩

theorem State.setPState_kept (k : Nat) (p : PState) (s : State) :
    Kept s (State.setPState k p s) := by
  unfold State.setPState; grind [State.setBay_kept, State.count_kept, memWriteBytes_wf, foldWrites_wf, keptIff]

theorem State.draw_kept (w : Nat) (s : State) :
    Kept s (State.draw w s).2 := ⟨rfl, rfl, id, id, id⟩

theorem State.draw_kept_of (w : Nat) (s : State) {x1 t'} (he : State.draw w s = (x1, t')) : Kept s t' := by
  have k := State.draw_kept w s
  rw [he] at k; exact k

theorem State.setLogRing_kept (log : Option Nat) (r : LogRing) (s : State) :
    Kept s (State.setLogRing log r s) := by
  unfold State.setLogRing; grind [State.modFunc_kept, memWriteBytes_wf, foldWrites_wf, keptIff]

theorem State.logTo_kept (log : Option Nat) (code : Nat) (cls : Nat) (unit : Nat) (index : Nat) (bay : Nat) (detail : Nat) (s : State) :
    Kept s (State.logTo log code cls unit index bay detail s) := by
  unfold State.logTo; grind [State.count_kept, State.setLogRing_kept, memWriteBytes_wf, foldWrites_wf, keptIff]

theorem State.logFrame_kept (code : Nat) (cls : Nat) (unit : Nat) (index : Nat) (bay : Nat) (detail : Nat) (s : State) :
    Kept s (State.logFrame code cls unit index bay detail s) := by
  unfold State.logFrame; grind [State.logTo_kept, memWriteBytes_wf, foldWrites_wf, keptIff]

theorem State.logBoth_kept (f : Nat) (code : Nat) (cls : Nat) (unit : Nat) (index : Nat) (bay : Nat) (detail : Nat) (s : State) :
    Kept s (State.logBoth f code cls unit index bay detail s) := by
  unfold State.logBoth; grind [State.logTo_kept, memWriteBytes_wf, foldWrites_wf, keptIff]

theorem State.releaseUnit_kept (e : LogEntry) (s : State) :
    Kept s (State.releaseUnit e s) := ⟨rfl, rfl, id, id, id⟩

theorem State.mustWait_kept (m : Miss) (s : State) :
    Kept s (State.mustWait m s) := by
  unfold State.mustWait; grind [memWriteBytes_wf, foldWrites_wf, keptIff]

theorem State.sendMsg_kept (fn : Nat) (vector : Nat) (payload : Word) (s : State) :
    Kept s (State.sendMsg fn vector payload s) := by
  unfold State.sendMsg; grind [State.mustWait_kept, memWriteBytes_wf, foldWrites_wf, keptIff]

theorem State.frameEvent_kept (kind : Nat) (detail : Nat) (s : State) :
    Kept s (State.frameEvent kind detail s) := by
  unfold State.frameEvent; grind [memWriteBytes_wf, foldWrites_wf, keptIff]

theorem State.answer_kept (rdata : Nat) (err : Bool) (s : State) :
    Kept s (State.answer rdata err s) := ⟨rfl, rfl, id, id, id⟩

theorem State.secRefuse_kept (s : State) :
    Kept s (State.secRefuse s) := ⟨rfl, rfl, id, id, id⟩

theorem State.setLaneEnd_kept (b : Nat) (side : Bool) (lane : Nat) (v : LaneEnd) (s : State) :
    Kept s (State.setLaneEnd b side lane v s) := ⟨rfl, rfl, id, id, id⟩

theorem State.driveLink_kept (r : Nat) (j : Nat) (x : Crossing) (s : State) :
    Kept s (State.driveLink r j x s) := by
  unfold State.driveLink; grind [State.setRoute_kept, memWriteBytes_wf, foldWrites_wf, keptIff]

theorem State.acceptLink_kept (r : Nat) (j : Nat) (s : State) :
    Kept s (State.acceptLink r j s) := by
  unfold State.acceptLink; grind [State.setRoute_kept, State.setLaneEnd_kept, State.driveLink_kept, memWriteBytes_wf, foldWrites_wf, keptIff]

theorem State.requestStep_kept (k : Nat) (mhz : Nat) (s : State) :
    Kept s (State.requestStep k mhz s) := by
  unfold State.requestStep; grind [State.setBay_kept, memWriteBytes_wf, foldWrites_wf, keptIff]

theorem State.nextStep_kept (k : Nat) (s : State) :
    Kept s (State.nextStep k s) := by
  unfold State.nextStep; grind [State.requestStep_kept, memWriteBytes_wf, foldWrites_wf, keptIff]

theorem State.wantClock_kept (k : Nat) (mhz : Nat) (s : State) :
    Kept s (State.wantClock k mhz s) := by
  unfold State.wantClock; grind [State.setBay_kept, State.requestStep_kept, memWriteBytes_wf, foldWrites_wf, keptIff]

theorem State.parkBay_kept (k : Nat) (s : State) :
    Kept s (State.parkBay k s) := by
  unfold State.parkBay; grind [State.setBay_kept, State.requestStep_kept, memWriteBytes_wf, foldWrites_wf, keptIff]

theorem State.steppedTo_kept (k : Nat) (target : Nat) (s : State) :
    Kept s (State.steppedTo k target s) := by
  unfold State.steppedTo; grind [State.setBay_kept, State.setPState_kept, memWriteBytes_wf, foldWrites_wf, keptIff]

theorem State.setWord_kept (b : Nat) (w : Nat) (v : List Codeword) (s : State) :
    Kept s (State.setWord b w v s) := ⟨rfl, rfl, id, id, id⟩

theorem State.freeBytes_kept (n : Nat) (s : State) :
    Kept s (State.freeBytes n s).2 := ⟨rfl, rfl, id, id, id⟩

theorem State.freeBytes_kept_of (n : Nat) (s : State) {x1 t'} (he : State.freeBytes n s = (x1, t')) : Kept s t' := by
  have k := State.freeBytes_kept n s
  rw [he] at k; exact k

theorem State.word_kept (b : Nat) (w : Nat) (s : State) :
    Kept s (State.word b w s).2 := by
  unfold State.word; grind [State.setWord_kept, State.freeBytes_kept, State.freeBytes_kept_of, memWriteBytes_wf, foldWrites_wf, keptIff]

theorem State.word_kept_of (b : Nat) (w : Nat) (s : State) {x1 t'} (he : State.word b w s = (x1, t')) : Kept s t' := by
  have k := State.word_kept b w s
  rw [he] at k; exact k

theorem State.bankWrite_kept (k : Nat) (ws : List (List Codeword)) (s : State) :
    Kept s (State.bankWrite k ws s) := by
  unfold State.bankWrite; grind [State.modBank_kept, memWriteBytes_wf, foldWrites_wf, keptIff]

theorem State.writeRuns_kept (a0 : List (Nat × Nat)) (a1 : List (List Codeword)) (a2 : State) :
    Kept a2 (State.writeRuns a0 a1 a2) := by
  fun_induction State.writeRuns a0 a1 a2 <;> grind [State.bankWrite_kept, memWriteBytes_wf, foldWrites_wf, keptIff]

theorem State.zeroBank_kept (b : Nat) (s : State) :
    Kept s (State.zeroBank b s) := ⟨rfl, rfl, id, id, id⟩

theorem State.useBanks_kept (test : Nat → Bank → Bool) (s : State) :
    Kept s (State.useBanks test s) := ⟨rfl, rfl, id, id, id⟩

theorem State.engineWorks_kept (g : Nat) (k : Nat) (s : State) :
    Kept s (State.engineWorks g k s) := ⟨rfl, rfl, id, id, id⟩

theorem State.streamWorks_kept (gidx : Nat) (s : State) :
    Kept s (State.streamWorks gidx s) := ⟨rfl, rfl, id, id, id⟩

theorem State.fillPinned_kept (b : Nat) (s : State) :
    Kept s (State.fillPinned b s) := by
  unfold State.fillPinned; grind [State.modBank_kept, memWriteBytes_wf, foldWrites_wf, keptIff]

theorem State.wordsFrom_kept (b : Nat) (a1 : Nat) (a2 : Nat) (a3 : State) :
    Kept a3 (State.wordsFrom b a1 a2 a3).2 := by
  fun_induction State.wordsFrom b a1 a2 a3 <;> grind [State.word_kept, State.word_kept_of, memWriteBytes_wf, foldWrites_wf, keptIff]

theorem State.wordsFrom_kept_of (b : Nat) (a1 : Nat) (a2 : Nat) (a3 : State) {x1 t'} (he : State.wordsFrom b a1 a2 a3 = (x1, t')) : Kept a3 t' := by
  have k := State.wordsFrom_kept b a1 a2 a3
  rw [he] at k; exact k

theorem State.runBytes_kept (a0 : List (Nat × Nat)) (a1 : State) :
    Kept a1 (State.runBytes a0 a1).2 := by
  fun_induction State.runBytes a0 a1 <;> grind [State.wordsFrom_kept, State.wordsFrom_kept_of, memWriteBytes_wf, foldWrites_wf, keptIff]

theorem State.runBytes_kept_of (a0 : List (Nat × Nat)) (a1 : State) {x1 t'} (he : State.runBytes a0 a1 = (x1, t')) : Kept a1 t' := by
  have k := State.runBytes_kept a0 a1
  rw [he] at k; exact k

theorem State.pinnedTable_kept (k : Nat) (slot : Nat) (id : Nat) (s : State) :
    Kept s (State.pinnedTable k slot id s).2 := by
  unfold State.pinnedTable; (try dsimp only); (repeat' split) <;> grind +splitImp [State.freeBytes_kept, State.freeBytes_kept_of, State.runBytes_kept, State.runBytes_kept_of, memWriteBytes_wf, foldWrites_wf, keptIff, State.forEach_kept, foldl_kept]

theorem State.pinnedTable_kept_of (k : Nat) (slot : Nat) (id : Nat) (s : State) {x1 t'} (he : State.pinnedTable k slot id s = (x1, t')) : Kept s t' := by
  have k := State.pinnedTable_kept k slot id s
  rw [he] at k; exact k

theorem State.keepMarch_kept (b : Nat) (l : List MarchRead) (s : State) : Kept s (State.keepMarch b l s).2 := by
  induction l generalizing s with
  | nil => exact .refl s
  | cons r t ih =>
    rw [State.keepMarch]
    dsimp only
    split
    · exact ih s
    · split
      · exact (State.setWord_kept ..).trans (ih _)
      · have k := State.word_kept b (keepAddr r.access.toNat) s
        generalize State.word b (keepAddr r.access.toNat) s = p at k
        obtain ⟨w, u⟩ := p
        dsimp only at k ⊢
        split <;> (split <;> first | exact Kept.trans k (ih u) | exact k)

theorem State.keepMarch_kept_of (b : Nat) (a1 : List MarchRead) (a2 : State) {x1 t'} (he : State.keepMarch b a1 a2 = (x1, t')) : Kept a2 t' := by
  have k := State.keepMarch_kept b a1 a2
  rw [he] at k; exact k

theorem State.marchKeeps_kept (b : Nat) (reads : List MarchRead) (s : State) :
    Kept s (State.marchKeeps b reads s).2 := State.keepMarch_kept ..

theorem State.marchKeeps_kept_of (b : Nat) (reads : List MarchRead) (s : State) {x1 t'} (he : State.marchKeeps b reads s = (x1, t')) : Kept s t' := by
  have k := State.marchKeeps_kept b reads s
  rw [he] at k; exact k

theorem State.seeMem_kept (v : MemView) (s : State) :
    Kept s (State.seeMem v s) := by
  unfold State.seeMem; grind [memWriteBytes_wf, foldWrites_wf, keptIff]

theorem State.countResp_kept (n : Nat) (r : Resp) (s : State) :
    Kept s (State.countResp n r s) := by
  unfold State.countResp; grind [State.count_kept, memWriteBytes_wf, foldWrites_wf, keptIff]

theorem State.transfer_kept (n : Nat) (tag : Nat) (r : Req) (s : State) :
    Kept s (State.transfer n tag r s) := by
  unfold State.transfer; grind [State.modPort_kept, State.count_kept, memWriteBytes_wf, foldWrites_wf, keptIff]

theorem State.issue_kept (n : Nat) (tag : Nat) (r : Req) (s : State) :
    Kept s (State.issue n tag r s) := by
  unfold State.issue; grind [State.modPort_kept, State.transfer_kept, memWriteBytes_wf, foldWrites_wf, keptIff]

theorem State.letPass_kept (n : Nat) (r : Req) (a2 : Nat) (a3 : State) :
    Kept a3 (State.letPass n r a2 a3) := by
  fun_induction State.letPass n r a2 a3 <;> grind [State.issue_kept, memWriteBytes_wf, foldWrites_wf, keptIff]

theorem State.passIdle_kept (n : Nat) (idle : Nat) (s : State) :
    Kept s (State.passIdle n idle s) := by
  unfold State.passIdle; grind [State.modPort_kept, State.count_kept, memWriteBytes_wf, foldWrites_wf, keptIff]

theorem State.toSlot_kept (n : Nat) (r : Req) (s : State) :
    Kept s (State.toSlot n r s).2 := by
  unfold State.toSlot; grind [State.letPass_kept, State.passIdle_kept, memWriteBytes_wf, foldWrites_wf, keptIff]

theorem State.toSlot_kept_of (n : Nat) (r : Req) (s : State) {x1 t'} (he : State.toSlot n r s = (x1, t')) : Kept s t' := by
  have k := State.toSlot_kept n r s
  rw [he] at k; exact k

theorem State.memDone_kept (r : Req) (old : Bytes) (s : State) :
    Kept s (State.memDone r old s) := by
  unfold State.memDone; grind [memWriteBytes_wf, foldWrites_wf, keptIff]

theorem State.answered_kept (n : Nat) (r : Req) (a : Resp) (s : State) :
    Kept s (State.answered n r a s).2.2 := by
  unfold State.answered; grind [State.countResp_kept, State.memDone_kept, memWriteBytes_wf, foldWrites_wf, keptIff]

theorem State.answered_kept_of (n : Nat) (r : Req) (a : Resp) (s : State) {x1 x2 t'} (he : State.answered n r a s = (x1, x2, t')) : Kept s t' := by
  have k := State.answered_kept n r a s
  rw [he] at k; exact k

theorem State.retire_kept (n : Nat) (o : OutReq) (s : State) :
    Kept s (State.retire n o s) := ⟨rfl, rfl, id, id, id⟩

theorem State.access_kept (n : Nat) (r : Req) (s : State) :
    Kept s (State.access n r s).2.2 := by
  unfold State.access; grind [State.modPort_kept, State.mustWait_kept, State.transfer_kept, State.toSlot_kept, State.toSlot_kept_of, State.answered_kept, State.answered_kept_of, State.retire_kept, memWriteBytes_wf, foldWrites_wf, keptIff]

theorem State.access_kept_of (n : Nat) (r : Req) (s : State) {x1 x2 t'} (he : State.access n r s = (x1, x2, t')) : Kept s t' := by
  have k := State.access_kept n r s
  rw [he] at k; exact k

theorem State.redo_kept (m : Made) (s : State) :
    Kept s (State.redo m s) := by
  unfold State.redo; grind [State.modPort_kept, State.answer_kept, State.countResp_kept, State.transfer_kept, State.toSlot_kept, State.toSlot_kept_of, State.memDone_kept, State.retire_kept, memWriteBytes_wf, foldWrites_wf, keptIff]

theorem State.waited_kept (x : Running) (s : State) :
    Kept s (State.waited x s) := by
  unfold State.waited
  have k : Kept s (x.made.foldl (fun s m => s.redo m) s) := foldl_kept _ _ (fun s m => State.redo_kept m s) s
  generalize x.made.foldl (fun s m => s.redo m) s = u at k
  dsimp only
  split
  · split
    · rename_i e
      exact (k.trans (State.toSlot_kept_of _ _ _ e)).trans (State.issue_kept ..)
    · rename_i e
      exact k.trans (State.toSlot_kept_of _ _ _ e)
  · exact k

theorem State.start_kept (s : State) :
    Kept s (State.start s) := ⟨rfl, rfl, id, id, id⟩

/-- What a unit does by itself keeps what its meaning keeps, done or waiting (log 4). -/
theorem State.turn_kept {s : State} {body : State → Out} (hb : ∀ t, body s.start = .next t → Kept s.start t) : ∀ t, s.turn body = .next t → Kept s t := by
  intro t h
  unfold State.turn at h
  split at h
  · rename_i u e
    obtain ⟨h1, h2, h3, h4, h5⟩ := hb u e
    split at h <;> cases h
    · exact State.waited_kept _ s
    · exact ⟨h1, h2, h3, h4, h5⟩
  · obtain ⟨h1, h2, h3, h4, h5⟩ := hb t h
    exact ⟨h1, h2, h3, h4, h5⟩

/-- Work that may have to wait keeps what it keeps when it is done. -/
theorem State.attempt_kept {α : Type} (s : State) (body : State → α × State) (hb : ∀ s, Kept s (body s).2) : Kept s (s.attempt body).2 := by
  unfold State.attempt
  split
  · exact .refl s
  · obtain ⟨h1, h2, h3, h4, h5⟩ := hb s.start
    dsimp only
    split
    · obtain ⟨k1, k2, k3, k4, k5⟩ := State.waited_kept (body s.start).2.running s
      exact ⟨k1, k2, k3, k4, k5⟩
    · exact ⟨h1, h2, h3, h4, h5⟩

theorem State.readPage_kept (w : Party) (addr : Nat) (len : Nat) (s : State) :
    Kept s (State.readPage w addr len s).2.2 := by
  unfold State.readPage; grind [State.access_kept, State.access_kept_of, memWriteBytes_wf, foldWrites_wf, keptIff]

theorem State.readPage_kept_of (w : Party) (addr : Nat) (len : Nat) (s : State) {x1 x2 t'} (he : State.readPage w addr len s = (x1, x2, t')) : Kept s t' := by
  have k := State.readPage_kept w addr len s
  rw [he] at k; exact k

theorem State.writePage_kept (w : Party) (addr : Nat) (bs : Bytes) (s : State) :
    Kept s (State.writePage w addr bs s).2 := by
  unfold State.writePage; grind [State.access_kept, State.access_kept_of, memWriteBytes_wf, foldWrites_wf, keptIff]

theorem State.writePage_kept_of (w : Party) (addr : Nat) (bs : Bytes) (s : State) {x1 t'} (he : State.writePage w addr bs s = (x1, t')) : Kept s t' := by
  have k := State.writePage_kept w addr bs s
  rw [he] at k; exact k

theorem State.sysAdd_kept (w : Party) (addr : Nat) (operand : Nat) (s : State) :
    Kept s (State.sysAdd w addr operand s).2.2 := by
  unfold State.sysAdd; grind [State.access_kept, State.access_kept_of, memWriteBytes_wf, foldWrites_wf, keptIff]

theorem State.sysAdd_kept_of (w : Party) (addr : Nat) (operand : Nat) (s : State) {x1 x2 t'} (he : State.sysAdd w addr operand s = (x1, x2, t')) : Kept s t' := by
  have k := State.sysAdd_kept w addr operand s
  rw [he] at k; exact k

theorem State.readSpan_kept (w : Party) (a1 : Nat) (a2 : Nat) (a3 : Nat) (a4 : State) :
    Kept a4 (State.readSpan w a1 a2 a3 a4).2 := by
  fun_induction State.readSpan w a1 a2 a3 a4 <;> grind [State.readPage_kept, State.readPage_kept_of, memWriteBytes_wf, foldWrites_wf, keptIff]

theorem State.readSpan_kept_of (w : Party) (a1 : Nat) (a2 : Nat) (a3 : Nat) (a4 : State) {x1 t'} (he : State.readSpan w a1 a2 a3 a4 = (x1, t')) : Kept a4 t' := by
  have k := State.readSpan_kept w a1 a2 a3 a4
  rw [he] at k; exact k

theorem State.sysReadGo_kept (w : Party) (fuel addr n : Nat) (s : State) :
    Kept s (State.sysReadGo w fuel addr n s).2.2 := by
  induction fuel generalizing addr n s with
  | zero => exact .refl s
  | succ k ih =>
    rw [State.sysReadGo]
    by_cases h0 : n = 0
    · rw [if_pos h0]; exact .refl s
    · rw [if_neg h0]
      have kp := State.readPage_kept w addr (min n (4096 - addr % 4096)) s
      dsimp only
      split
      · exact kp
      · exact kp.trans (ih ..)

theorem State.sysReadGo_kept_of (w : Party) (fuel addr n : Nat) (s : State) {x1 x2 t'} (he : State.sysReadGo w fuel addr n s = (x1, x2, t')) : Kept s t' := by
  have k := State.sysReadGo_kept w fuel addr n s
  rw [he] at k; exact k

end Sys2Proof.Machine
end

