-- ==== Sys2Proof/Laws/KeptB.lean ====
section
/-! SUPPORT. Kept, for each state-changing definition of Access, PoolWatch, Relay, PoolOps, QueueOps, StreamOps, SillOps, Faults. -/

namespace Sys2Proof.Machine

set_option Elab.async false

theorem State.sysRead_kept (w : Party) (addr : Nat) (len : Nat) (s : State) :
    Kept s (State.sysRead w addr len s).2.2 := by
  unfold State.sysRead; grind [State.sysReadGo_kept, State.sysReadGo_kept_of, memWriteBytes_wf, foldWrites_wf, keptIff]

theorem State.sysRead_kept_of (w : Party) (addr : Nat) (len : Nat) (s : State) {x1 x2 t'} (he : State.sysRead w addr len s = (x1, x2, t')) : Kept s t' := by
  have k := State.sysRead_kept w addr len s
  rw [he] at k; exact k

theorem State.writeSpan_kept (w : Party) (a1 : Nat) (a2 : Nat) (a3 : Bytes) (a4 : State) :
    Kept a4 (State.writeSpan w a1 a2 a3 a4).2 := by
  fun_induction State.writeSpan w a1 a2 a3 a4 <;> grind [State.writePage_kept, State.writePage_kept_of, memWriteBytes_wf, foldWrites_wf, keptIff]

theorem State.writeSpan_kept_of (w : Party) (a1 : Nat) (a2 : Nat) (a3 : Bytes) (a4 : State) {x1 t'} (he : State.writeSpan w a1 a2 a3 a4 = (x1, t')) : Kept a4 t' := by
  have k := State.writeSpan_kept w a1 a2 a3 a4
  rw [he] at k; exact k

theorem State.sysWrite_kept (w : Party) (addr : Nat) (bs : Bytes) (s : State) :
    Kept s (State.sysWrite w addr bs s).2 := by
  unfold State.sysWrite; grind [State.writeSpan_kept, State.writeSpan_kept_of, memWriteBytes_wf, foldWrites_wf, keptIff]

theorem State.sysWrite_kept_of (w : Party) (addr : Nat) (bs : Bytes) (s : State) {x1 t'} (he : State.sysWrite w addr bs s = (x1, t')) : Kept s t' := by
  have k := State.sysWrite_kept w addr bs s
  rw [he] at k; exact k

theorem State.watchPools_kept (s : State) :
    Kept s (State.watchPools s) := by
  unfold State.watchPools; grind +splitImp [State.setPool_kept, State.count_kept, memWriteBytes_wf, foldWrites_wf, keptIff, State.forEach_kept, foldl_kept]

theorem State.restartStall_kept (p : Nat) (s : State) :
    Kept s (State.restartStall p s) := ⟨rfl, rfl, id, id, id⟩

theorem State.relayCopy_kept (f : Nat) (rec_ : Bytes) (s : State) :
    Kept s (State.relayCopy f rec_ s) := by
  unfold State.relayCopy; grind [State.count_kept, memWriteBytes_wf, foldWrites_wf, keptIff]

theorem State.relayWrite_kept (f : Nat) (i : Nat) (x : Stream) (r : RelayRec) (s : State) :
    Kept s (State.relayWrite f i x r s).2 := by
  unfold State.relayWrite; grind [State.sendMsg_kept, State.sysWrite_kept, State.sysWrite_kept_of, State.relayCopy_kept, memWriteBytes_wf, foldWrites_wf, keptIff]

theorem State.relayWrite_kept_of (f : Nat) (i : Nat) (x : Stream) (r : RelayRec) (s : State) {x1 t'} (he : State.relayWrite f i x r s = (x1, t')) : Kept s t' := by
  have k := State.relayWrite_kept f i x r s
  rw [he] at k; exact k

theorem State.relayPut_kept (f : Nat) (i : Nat) (r : RelayRec) (s : State) :
    Kept s (State.relayPut f i r s).2 := by
  unfold State.relayPut; grind [State.setStream_kept, State.count_kept, State.relayWrite_kept, State.relayWrite_kept_of, memWriteBytes_wf, foldWrites_wf, keptIff]

theorem State.relayPut_kept_of (f : Nat) (i : Nat) (r : RelayRec) (s : State) {x1 t'} (he : State.relayPut f i r s = (x1, t')) : Kept s t' := by
  have k := State.relayPut_kept f i r s
  rw [he] at k; exact k

theorem State.relayQueue_kept (f : Nat) (i : Nat) (r : RelayRec) (s : State) :
    Kept s (State.relayQueue f i r s) := ⟨rfl, rfl, id, id, id⟩

theorem State.voidStream_kept (f : Nat) (i : Nat) (cause : Nat) (at_ : Nat) (s : State) :
    Kept s (State.voidStream f i cause at_ s) := by
  unfold State.voidStream; grind +splitImp [State.setStream_kept, State.count_kept, memWriteBytes_wf, foldWrites_wf, keptIff, State.forEach_kept, foldl_kept]

theorem State.haltCore_kept (f : Nat) (i : Nat) (code : Nat) (detail : Nat) (s : State) :
    Kept s (State.haltCore f i code detail s) := by
  unfold State.haltCore; grind [State.setStream_kept, State.count_kept, State.logTo_kept, State.watchPools_kept, memWriteBytes_wf, foldWrites_wf, keptIff]

theorem State.streamError_kept (f : Nat) (i : Nat) (code : Nat) (detail : Nat) (s : State) :
    Kept s (State.streamError f i code detail s) := by
  unfold State.streamError; grind [State.relayQueue_kept, State.haltCore_kept, memWriteBytes_wf, foldWrites_wf, keptIff]

theorem State.addFault_kept (f : Nat) (i : Nat) (addr : Nat) (token : Word) (write : Bool) (report : Bool) (s : State) :
    Kept s (State.addFault f i addr token write report s) := by
  unfold State.addFault; grind [State.modStream_kept, memWriteBytes_wf, foldWrites_wf, keptIff]

theorem State.streamFault_kept (f : Nat) (i : Nat) (addr : Nat) (token : Word) (write : Bool) (s : State) :
    Kept s (State.streamFault f i addr token write s) := by
  unfold State.streamFault; grind [State.haltCore_kept, State.addFault_kept, memWriteBytes_wf, foldWrites_wf, keptIff]

theorem State.faultRecord_kept (f : Nat) (i : Nat) (s : State) :
    Kept s (State.faultRecord f i s) := by
  unfold State.faultRecord; grind [State.relayQueue_kept, State.voidStream_kept, memWriteBytes_wf, foldWrites_wf, keptIff]

theorem State.streamDecerr_kept (f : Nat) (i : Nat) (addr : Nat) (write : Bool) (s : State) :
    Kept s (State.streamDecerr f i addr write s) := by
  unfold State.streamDecerr; grind [State.streamError_kept, State.addFault_kept, memWriteBytes_wf, foldWrites_wf, keptIff]

theorem State.streamResp_kept (f : Nat) (i : Nat) (addr : Nat) (write : Bool) (r : Resp) (s : State) :
    Kept s (State.streamResp f i addr write r s) := by
  unfold State.streamResp; grind [State.streamError_kept, State.streamFault_kept, State.streamDecerr_kept, memWriteBytes_wf, foldWrites_wf, keptIff]

theorem State.relayPop_kept (f : Nat) (i : Nat) (s : State) :
    Kept s (State.relayPop f i s) := ⟨rfl, rfl, id, id, id⟩

theorem State.relayDecerr_kept (f : Nat) (i : Nat) (s : State) :
    Kept s (State.relayDecerr f i s) := by
  unfold State.relayDecerr; grind [State.modStream_kept, State.streamDecerr_kept, memWriteBytes_wf, foldWrites_wf, keptIff]

theorem State.relaySettle_kept (a0 : Nat) (a1 : List Nat) (a2 : State) :
    Kept a2 (State.relaySettle a0 a1 a2) := by
  fun_induction State.relaySettle a0 a1 a2 <;> grind [State.logTo_kept, State.attempt_kept, State.relayPut_kept, State.relayPut_kept_of, State.streamFault_kept, State.relayPop_kept, State.relayDecerr_kept, memWriteBytes_wf, foldWrites_wf, keptIff]

theorem State.relays_kept (s : State) :
    Kept s (State.relays s) := by
  unfold State.relays; grind [State.relaySettle_kept, memWriteBytes_wf, foldWrites_wf, keptIff]

theorem State.relayPost_kept (f : Nat) (i : Nat) (r : RelayRec) (s : State) :
    Kept s (State.relayPost f i r s) := by
  unfold State.relayPost; grind [State.relayQueue_kept, State.relays_kept, memWriteBytes_wf, foldWrites_wf, keptIff]

theorem State.relayEnd_kept (f : Nat) (i : Nat) (status : Nat) (s : State) :
    Kept s (State.relayEnd f i status s) := by
  unfold State.relayEnd; grind [State.setStream_kept, State.attempt_kept, State.relayPut_kept, State.relayPut_kept_of, memWriteBytes_wf, foldWrites_wf, keptIff]

theorem State.renewDeadlines_kept (f : Nat) (i : Nat) (s : State) :
    Kept s (State.renewDeadlines f i s) := ⟨rfl, rfl, id, id, id⟩

theorem State.rearmStream_kept (f : Nat) (i : Nat) (s : State) :
    Kept s (State.rearmStream f i s) := by
  unfold State.rearmStream; grind +splitImp [State.setStream_kept, State.count_kept, State.renewDeadlines_kept, memWriteBytes_wf, foldWrites_wf, keptIff, State.forEach_kept, foldl_kept]

theorem State.poolFault_kept (p : Nat) (code : Nat) (detail : Nat) (s : State) :
    Kept s (State.poolFault p code detail s) := by
  unfold State.poolFault; grind +splitImp [State.setPool_kept, State.logTo_kept, State.streamError_kept, State.relays_kept, memWriteBytes_wf, foldWrites_wf, keptIff, State.forEach_kept, foldl_kept]

theorem State.poolResp_kept (p : Nat) (addr : Nat) (r : Resp) (s : State) :
    Kept s (State.poolResp p addr r s) := by
  unfold State.poolResp; grind [State.poolFault_kept, memWriteBytes_wf, foldWrites_wf, keptIff]

theorem State.ringWrite_kept (p : Nat) (a1 : List (List Nat)) (a2 : State) :
    Kept a2 (State.ringWrite p a1 a2) := by
  fun_induction State.ringWrite p a1 a2 <;> grind [State.setPool_kept, State.sysWrite_kept, State.sysWrite_kept_of, State.poolResp_kept, memWriteBytes_wf, foldWrites_wf, keptIff]

theorem State.spillHandles_kept (p : Nat) (n : Nat) (s : State) :
    Kept s (State.spillHandles p n s) := by
  unfold State.spillHandles; grind [State.ringWrite_kept, memWriteBytes_wf, foldWrites_wf, keptIff]

theorem State.ringRead_kept (p : Nat) (a1 : Nat) (a2 : State) :
    Kept a2 (State.ringRead p a1 a2) := by
  fun_induction State.ringRead p a1 a2 <;> grind [State.setPool_kept, State.sysRead_kept, State.sysRead_kept_of, State.poolResp_kept, memWriteBytes_wf, foldWrites_wf, keptIff]

theorem State.addHandles_kept (p : Nat) (a1 : List Nat) (a2 : State) :
    Kept a2 (State.addHandles p a1 a2) := by
  fun_induction State.addHandles p a1 a2 <;> grind [State.setPool_kept, State.spillHandles_kept, memWriteBytes_wf, foldWrites_wf, keptIff]

theorem State.freeBuffer_kept (p : Nat) (handle : Nat) (s : State) :
    Kept s (State.freeBuffer p handle s) := by
  unfold State.freeBuffer; grind [State.modPool_kept, State.count_kept, State.spillHandles_kept, memWriteBytes_wf, foldWrites_wf, keptIff]

theorem State.releaseBuffer_kept (p : Nat) (key : Nat) (handle : Nat) (s : State) :
    Kept s (State.releaseBuffer p key handle s) := by
  unfold State.releaseBuffer; grind [State.setPool_kept, State.modPool_kept, State.sysAdd_kept, State.sysAdd_kept_of, State.poolFault_kept, State.poolResp_kept, State.freeBuffer_kept, memWriteBytes_wf, foldWrites_wf, keptIff]

theorem State.shareBuffer_kept (p : Nat) (keys : List Nat) (handle : Nat) (s : State) :
    Kept s (State.shareBuffer p keys handle s) := by
  unfold State.shareBuffer; grind [State.modPool_kept, State.sysAdd_kept, State.sysAdd_kept_of, State.poolFault_kept, State.poolResp_kept, memWriteBytes_wf, foldWrites_wf, keptIff]

theorem State.releaseLater_kept (p : Nat) (key : Nat) (handle : Nat) (s : State) :
    Kept s (State.releaseLater p key handle s) := by
  unfold State.releaseLater; grind [State.modPool_kept, State.attempt_kept, State.releaseBuffer_kept, memWriteBytes_wf, foldWrites_wf, keptIff]

theorem State.releaseAll_kept (key : Nat) (keep : Holder → Bool) (s : State) :
    Kept s (State.releaseAll key keep s) := by
  unfold State.releaseAll; grind +splitImp [State.setPool_kept, State.releaseLater_kept, memWriteBytes_wf, foldWrites_wf, keptIff, State.forEach_kept, foldl_kept]

theorem State.grant_kept (p : Nat) (s : State) :
    Kept s (State.grant p s) := by
  unfold State.grant; grind [State.setPool_kept, State.count_kept, State.restartStall_kept, memWriteBytes_wf, foldWrites_wf, keptIff]

theorem State.grantSome_kept (p : Nat) (a1 : Nat) (a2 : State) :
    Kept a2 (State.grantSome p a1 a2) := by
  fun_induction State.grantSome p a1 a2 <;> grind [State.grant_kept, memWriteBytes_wf, foldWrites_wf, keptIff]

theorem State.holdBuffers_kept (f : Nat) (i : Nat) (local_ : Nat) (g : Nat) (n : Nat) (s : State) :
    Kept s (State.holdBuffers f i local_ g n s).2 := by
  unfold State.holdBuffers; grind [State.setPool_kept, State.watchPools_kept, State.streamError_kept, State.relays_kept, State.grantSome_kept, memWriteBytes_wf, foldWrites_wf, keptIff]

theorem State.holdBuffers_kept_of (f : Nat) (i : Nat) (local_ : Nat) (g : Nat) (n : Nat) (s : State) {x1 t'} (he : State.holdBuffers f i local_ g n s = (x1, t')) : Kept s t' := by
  have k := State.holdBuffers_kept f i local_ g n s
  rw [he] at k; exact k

theorem State.dropBuffers_kept (f : Nat) (i : Nat) (local_ : Nat) (g : Nat) (s : State) :
    Kept s (State.dropBuffers f i local_ g s) := by
  unfold State.dropBuffers; grind +splitImp [State.watchPools_kept, State.releaseBuffer_kept, memWriteBytes_wf, foldWrites_wf, keptIff, State.forEach_kept, foldl_kept]

theorem State.preempt_kept (p : Nat) (k : Nat) (s : State) :
    Kept s (State.preempt p k s) := by
  unfold State.preempt; grind [State.setStream_kept, State.modPool_kept, State.count_kept, State.logTo_kept, State.watchPools_kept, State.restartStall_kept, State.voidStream_kept, State.relays_kept, State.rearmStream_kept, State.releaseAll_kept, memWriteBytes_wf, foldWrites_wf, keptIff]

theorem State.dropReqs_kept (test : Req → Bool) (s : State) :
    Kept s (State.dropReqs test s) := ⟨rfl, rfl, id, id, id⟩

theorem State.dropQueueReads_kept (f : Nat) (q : Nat) (all : Bool) (s : State) :
    Kept s (State.dropQueueReads f q all s) := by
  unfold State.dropQueueReads; grind [State.dropReqs_kept, memWriteBytes_wf, foldWrites_wf, keptIff]

theorem State.queueFault_kept (f q code detail : Nat) (s : State) : Kept s (State.queueFault f q code detail s) := by
  unfold State.queueFault
  dsimp only
  split
  · exact .refl s
  · exact ((State.dropQueueReads_kept ..).trans (State.setQueue_kept ..)).trans (State.logTo_kept ..)

theorem State.queueMsg_kept (f : Nat) (q : Nat) (s : State) :
    Kept s (State.queueMsg f q s) := by
  unfold State.queueMsg; grind [State.setQueue_kept, State.sendMsg_kept, memWriteBytes_wf, foldWrites_wf, keptIff]

theorem State.indexAdd_kept (f : Nat) (q : Nat) (off : Nat) (expected : Nat) (addend : Nat) (s : State) :
    Kept s (State.indexAdd f q off expected addend s).2 := by
  unfold State.indexAdd; grind [State.sysAdd_kept, State.sysAdd_kept_of, State.queueFault_kept, memWriteBytes_wf, foldWrites_wf, keptIff]

theorem State.indexAdd_kept_of (f : Nat) (q : Nat) (off : Nat) (expected : Nat) (addend : Nat) (s : State) {x1 t'} (he : State.indexAdd f q off expected addend s = (x1, t')) : Kept s t' := by
  have k := State.indexAdd_kept f q off expected addend s
  rw [he] at k; exact k

theorem State.writeError_kept (f : Nat) (q : Nat) (entry : Nat) (lap : Nat) (code : Nat) (opcode : Nat) (user : Nat) (detail : Nat) (s : State) :
    Kept s (State.writeError f q entry lap code opcode user detail s) := by
  unfold State.writeError; grind [State.modQueue_kept, State.count_kept, State.sysWrite_kept, State.sysWrite_kept_of, State.queueFault_kept, State.queueMsg_kept, State.indexAdd_kept, State.indexAdd_kept_of, memWriteBytes_wf, foldWrites_wf, keptIff]

theorem Later.run_kept (l : Later) (s : State) :
    Kept s (Later.run l s) := by
  unfold Later.run; grind [State.relayWrite_kept, State.relayWrite_kept_of, State.releaseBuffer_kept, State.writeError_kept, memWriteBytes_wf, foldWrites_wf, keptIff]

theorem State.orLater_kept (l : Later) (s : State) : Kept s (State.orLater l s) := by
  have k : Kept s (s.attempt (fun s => ((), l.run s))).2 := State.attempt_kept s _ (fun s => Later.run_kept l s)
  have w (u : State) (x : List Later) (h : Kept s u) : Kept s { u with later := x } := ⟨h.1, h.2, h.3, h.4, h.5⟩
  unfold State.orLater
  refine ite_kept (w s _ (.refl s)) ?_
  split
  · rename_i e; rw [e] at k; exact k
  · rename_i e; rw [e] at k; exact w _ _ k

theorem State.catchUp_kept (s : State) :
    Kept s (State.catchUp s) := by
  unfold State.catchUp; grind +splitImp [State.orLater_kept, memWriteBytes_wf, foldWrites_wf, keptIff, State.forEach_kept, foldl_kept]

theorem State.errorRecord_kept (f : Nat) (q : Nat) (entry : Nat) (lap : Nat) (code : Nat) (opcode : Nat) (user : Nat) (detail : Nat) (s : State) :
    Kept s (State.errorRecord f q entry lap code opcode user detail s) := by
  unfold State.errorRecord; grind [State.orLater_kept, memWriteBytes_wf, foldWrites_wf, keptIff]

theorem State.modJob_kept (f : Nat) (q : Nat) (j : Job) (g : Job → Job) (s : State) :
    Kept s (State.modJob f q j g s) := ⟨rfl, rfl, id, id, id⟩

theorem State.entryDone_kept (f : Nat) (q : Nat) (j : Job) (bs : Bytes) (code : Nat) (detail : Nat) (s : State) :
    Kept s (State.entryDone f q j bs code detail s) := by
  unfold State.entryDone; grind [State.errorRecord_kept, State.modJob_kept, memWriteBytes_wf, foldWrites_wf, keptIff]

theorem State.jobDone_kept (f : Nat) (q : Nat) (j : Job) (code : Nat) (detail : Nat) (s : State) :
    Kept s (State.jobDone f q j code detail s) := by
  unfold State.jobDone; grind [State.errorRecord_kept, State.modJob_kept, memWriteBytes_wf, foldWrites_wf, keptIff]

theorem State.entryWaits_kept (f : Nat) (q : Nat) (j : Job) (key : Nat) (sample : Option Nat) (s : State) :
    Kept s (State.entryWaits f q j key sample s) := ⟨rfl, rfl, id, id, id⟩

theorem State.endTransfers_kept (f : Nat) (i : Nat) (s : State) :
    Kept s (State.endTransfers f i s) := by
  unfold State.endTransfers; grind +splitImp [State.entryDone_kept, memWriteBytes_wf, foldWrites_wf, keptIff, State.forEach_kept, foldl_kept]

theorem State.wakeJobs_kept (key : Nat) (s : State) :
    Kept s (State.wakeJobs key s) := ⟨rfl, rfl, id, id, id⟩

theorem State.wakeSamples_kept (f : Nat) (i : Nat) (s : State) :
    Kept s (State.wakeSamples f i s) := ⟨rfl, rfl, id, id, id⟩

theorem State.putBeats_kept (bay : Nat) (tenon : Nat) (bs : List Beat) (s : State) :
    Kept s (State.putBeats bay tenon bs s) := ⟨rfl, rfl, id, id, id⟩

theorem State.sendFlush_kept (f : Nat) (i : Nat) (s : State) :
    Kept s (State.sendFlush f i s) := by
  unfold State.sendFlush; grind +splitImp [State.putBeats_kept, memWriteBytes_wf, foldWrites_wf, keptIff, State.forEach_kept, foldl_kept]

theorem State.releaseHead_kept (f : Nat) (i : Nat) (time : Option Nat) (s : State) :
    Kept s (State.releaseHead f i time s) := by
  unfold State.releaseHead; grind [State.setStream_kept, State.relayPost_kept, memWriteBytes_wf, foldWrites_wf, keptIff]

theorem State.releaseFreed_kept (g : LockGroup) (a1 : Nat) (a2 : State) :
    Kept a2 (State.releaseFreed g a1 a2) := by
  fun_induction State.releaseFreed g a1 a2 <;> grind +splitImp [State.releaseHead_kept, memWriteBytes_wf, foldWrites_wf, keptIff, State.forEach_kept, foldl_kept]

theorem State.leaveGroup_kept (f : Nat) (i : Nat) (s : State) :
    Kept s (State.leaveGroup f i s) := by
  unfold State.leaveGroup; grind +splitImp [State.modStream_kept, State.setGroup_kept, State.releaseFreed_kept, memWriteBytes_wf, foldWrites_wf, keptIff, State.forEach_kept, foldl_kept]

theorem State.leaveBanks_kept (gidx : Nat) (s : State) :
    Kept s (State.leaveBanks gidx s) := ⟨rfl, rfl, id, id, id⟩

theorem State.freeStream_kept (f : Nat) (i : Nat) (s : State) :
    Kept s (State.freeStream f i s) := by
  unfold State.freeStream; grind [State.modFunc_kept, State.setStream_kept, State.watchPools_kept, State.releaseAll_kept, State.dropReqs_kept, State.endTransfers_kept, State.wakeJobs_kept, State.sendFlush_kept, State.leaveGroup_kept, State.leaveBanks_kept, memWriteBytes_wf, foldWrites_wf, keptIff]

theorem State.freeDrained_kept (keys : List Nat) (n : Nat) (s : State) : Kept s (State.freeDrained keys n s) := by
  induction n generalizing s with
  | zero => exact .refl s
  | succ n ih =>
    rw [State.freeDrained]
    refine (State.forEach_kept keys _ (fun k s => ?_) s).trans (ih _)
    split
    · exact State.freeStream_kept ..
    · exact .refl s

theorem State.closeStream_kept (f : Nat) (i : Nat) (s : State) :
    Kept s (State.closeStream f i s) := by
  unfold State.closeStream; grind [State.freeStream_kept, State.freeDrained_kept, memWriteBytes_wf, foldWrites_wf, keptIff]

theorem State.finishDrain_kept (f : Nat) (i : Nat) (s : State) :
    Kept s (State.finishDrain f i s) := by
  unfold State.finishDrain; grind [State.closeStream_kept, memWriteBytes_wf, foldWrites_wf, keptIff]

theorem State.finishDrains_kept (s : State) :
    Kept s (State.finishDrains s) := by
  unfold State.finishDrains; grind +splitImp [State.wakeSamples_kept, State.finishDrain_kept, memWriteBytes_wf, foldWrites_wf, keptIff, State.forEach_kept, foldl_kept]

theorem State.abortStream_kept (f : Nat) (i : Nat) (s : State) :
    Kept s (State.abortStream f i s) := by
  unfold State.abortStream; grind [State.relayEnd_kept, State.dropReqs_kept, State.closeStream_kept, memWriteBytes_wf, foldWrites_wf, keptIff]

theorem State.abortWhere_kept (test : Nat → Nat → Stream → Bool) (s : State) :
    Kept s (State.abortWhere test s) := by
  unfold State.abortWhere; grind +splitImp [State.abortStream_kept, memWriteBytes_wf, foldWrites_wf, keptIff, State.forEach_kept, foldl_kept]

theorem State.complete_kept (n : Nat) (r : Req) (resp : Resp) (data : Bytes) (s : State) :
    Kept s (State.complete n r resp data s) := by
  unfold State.complete; grind [State.modQueue_kept, State.modStream_kept, State.modPort_kept, State.count_kept, State.memDone_kept, State.streamResp_kept, State.relays_kept, State.queueFault_kept, memWriteBytes_wf, foldWrites_wf, keptIff]

theorem State.pushReq_kept (n : Nat) (r : Req) (s : State) :
    Kept s (State.pushReq n r s) := by
  unfold State.pushReq; grind [State.modPort_kept, State.count_kept, State.complete_kept, memWriteBytes_wf, foldWrites_wf, keptIff]

theorem State.killPort_kept (n : Nat) (s : State) :
    Kept s (State.killPort n s) := by
  unfold State.killPort; grind +splitImp [State.setPort_kept, State.complete_kept, memWriteBytes_wf, foldWrites_wf, keptIff, State.forEach_kept, foldl_kept]

theorem State.rejectImage_kept (detail : Nat) (sect : Nat) (s : State) :
    Kept s (State.rejectImage detail sect s) := by
  unfold State.rejectImage; grind [State.logFrame_kept, State.dropReqs_kept, memWriteBytes_wf, foldWrites_wf, keptIff]

theorem State.stopLoad_kept (detail : Nat) (s : State) :
    Kept s (State.stopLoad detail s) := by
  unfold State.stopLoad; grind [State.rejectImage_kept, memWriteBytes_wf, foldWrites_wf, keptIff]

theorem State.walkStream_kept (f : Nat) (i : Nat) (s : State) :
    Kept s (State.walkStream f i s) := by
  unfold State.walkStream; grind [State.modStream_kept, State.count_kept, State.haltCore_kept, memWriteBytes_wf, foldWrites_wf, keptIff]

end Sys2Proof.Machine
end

