-- ==== Sys2Proof/Laws/KeptC.lean ====
section
/-! SUPPORT. Kept, for each state-changing definition of Faults, Security, Startup, Pacing, Thermal. -/

namespace Sys2Proof.Machine

set_option Elab.async false

theorem State.walkCause_kept (c : Nat) (s : State) :
    Kept s (State.walkCause c s) := by
  unfold State.walkCause; grind +splitImp [State.count_kept, State.frameEvent_kept, State.relays_kept, State.stopLoad_kept, State.walkStream_kept, memWriteBytes_wf, foldWrites_wf, keptIff, State.forEach_kept, foldl_kept]

theorem State.walkAtCommit_kept (s : State) :
    Kept s (State.walkAtCommit s) := by
  unfold State.walkAtCommit; grind [State.walkCause_kept, memWriteBytes_wf, foldWrites_wf, keptIff]

theorem State.walkThermalClear_kept (s : State) :
    Kept s (State.walkThermalClear s) := by
  unfold State.walkThermalClear; grind [memWriteBytes_wf, foldWrites_wf, keptIff]

theorem State.dropHandovers_kept (k : Nat) (s : State) :
    Kept s (State.dropHandovers k s) := ⟨rfl, rfl, id, id, id⟩

theorem State.fence_kept (k : Nat) (cause : Nat) (s : State) :
    Kept s (State.fence k cause s) := by
  unfold State.fence; grind [State.modBay_kept, State.setPState_kept, State.logFrame_kept, State.frameEvent_kept, State.abortWhere_kept, State.rejectImage_kept, State.walkCause_kept, State.dropHandovers_kept, memWriteBytes_wf, foldWrites_wf, keptIff]

theorem State.isolateDie_kept (d : Nat) (s : State) :
    Kept s (State.isolateDie d s) := by
  unfold State.isolateDie; grind +splitImp [State.modPort_kept, State.count_kept, State.logFrame_kept, State.killPort_kept, State.fence_kept, memWriteBytes_wf, foldWrites_wf, keptIff, State.forEach_kept, foldl_kept]

theorem State.isolateUnreachable_kept (s : State) :
    Kept s (State.isolateUnreachable s) := by
  unfold State.isolateUnreachable; grind +splitImp [State.isolateDie_kept, memWriteBytes_wf, foldWrites_wf, keptIff, State.forEach_kept, foldl_kept]

theorem State.dropBoundary_kept (b : Nat) (s : State) :
    Kept s (State.dropBoundary b s) := by
  unfold State.dropBoundary; grind [State.setBoundary_kept, State.count_kept, memWriteBytes_wf, foldWrites_wf, keptIff]

theorem State.boundariesDown_kept (l : List Nat) (s : State) :
    Kept s (State.boundariesDown l s) := by
  unfold State.boundariesDown; grind +splitImp [State.isolateUnreachable_kept, State.dropBoundary_kept, memWriteBytes_wf, foldWrites_wf, keptIff, State.forEach_kept, foldl_kept]

theorem State.writeHeader_kept (truncated : Bool) (s : State) :
    Kept s (State.writeHeader truncated s).2 := by
  unfold State.writeHeader; grind [State.sysWrite_kept, State.sysWrite_kept_of, memWriteBytes_wf, foldWrites_wf, keptIff]

theorem State.writeHeader_kept_of (truncated : Bool) (s : State) {x1 t'} (he : State.writeHeader truncated s = (x1, t')) : Kept s t' := by
  have k := State.writeHeader_kept truncated s
  rw [he] at k; exact k

theorem State.dumpEnd_kept (st : Nat) (failed : Bool) (s : State) :
    Kept s (State.dumpEnd st failed s) := by
  unfold State.dumpEnd; grind [State.frameEvent_kept, memWriteBytes_wf, foldWrites_wf, keptIff]

theorem State.dumpStop_kept (s : State) :
    Kept s (State.dumpStop s) := by
  unfold State.dumpStop; grind [State.dropReqs_kept, memWriteBytes_wf, foldWrites_wf, keptIff]

theorem State.dumpTruncated_kept (s : State) :
    Kept s (State.dumpTruncated s) := by
  unfold State.dumpTruncated; grind [State.writeHeader_kept, State.writeHeader_kept_of, State.dumpEnd_kept, memWriteBytes_wf, foldWrites_wf, keptIff]

theorem State.frameFatal_kept (detail : Nat) (index : Nat) (s : State) :
    Kept s (State.frameFatal detail index s) := by
  unfold State.frameFatal; grind +splitImp [State.logFrame_kept, State.frameEvent_kept, State.attempt_kept, State.relayEnd_kept, State.dropReqs_kept, State.writeHeader_kept, State.writeHeader_kept_of, State.dumpEnd_kept, State.dumpStop_kept, State.dumpTruncated_kept, memWriteBytes_wf, foldWrites_wf, keptIff, State.forEach_kept, foldl_kept]

theorem State.cryptoError_kept (cause : Nat) (s : State) :
    Kept s (State.cryptoError cause s) := by
  unfold State.cryptoError; grind [State.logFrame_kept, State.frameEvent_kept, State.stopLoad_kept, memWriteBytes_wf, foldWrites_wf, keptIff]

theorem State.noiseRun_kept (a0 : List Bool) (a1 : State) :
    Kept a1 (State.noiseRun a0 a1).2 := by
  fun_induction State.noiseRun a0 a1 <;> grind [memWriteBytes_wf, foldWrites_wf, keptIff]

theorem State.noiseRun_kept_of (a0 : List Bool) (a1 : State) {x1 t'} (he : State.noiseRun a0 a1 = (x1, t')) : Kept a1 t' := by
  have k := State.noiseRun_kept a0 a1
  rw [he] at k; exact k

theorem State.drbgGen_kept (n : Nat) (s : State) :
    Kept s (State.drbgGen n s).2 := by
  unfold State.drbgGen; grind [State.cryptoError_kept, memWriteBytes_wf, foldWrites_wf, keptIff]

theorem State.drbgGen_kept_of (n : Nat) (s : State) {x1 t'} (he : State.drbgGen n s = (x1, t')) : Kept s t' := by
  have k := State.drbgGen_kept n s
  rw [he] at k; exact k

theorem State.freshNonce_kept (s : State) :
    Kept s (State.freshNonce s) := by
  unfold State.freshNonce; grind [State.drbgGen_kept, State.drbgGen_kept_of, memWriteBytes_wf, foldWrites_wf, keptIff]

theorem State.drbgInit_kept (noise : List Bool) (s : State) :
    Kept s (State.drbgInit noise s) := by
  unfold State.drbgInit; grind [State.freshNonce_kept, memWriteBytes_wf, foldWrites_wf, keptIff]

theorem State.drbgStart_kept (noise : List Bool) (s : State) :
    Kept s (State.drbgStart noise s) := by
  unfold State.drbgStart; grind [State.cryptoError_kept, State.noiseRun_kept, State.noiseRun_kept_of, State.drbgInit_kept, memWriteBytes_wf, foldWrites_wf, keptIff]

theorem State.readSlot_kept (n : Nat) (s : State) :
    Kept s (State.readSlot n s).2 := by
  unfold State.readSlot; grind [State.cryptoError_kept, memWriteBytes_wf, foldWrites_wf, keptIff]

theorem State.readSlot_kept_of (n : Nat) (s : State) {x1 t'} (he : State.readSlot n s = (x1, t')) : Kept s t' := by
  have k := State.readSlot_kept n s
  rw [he] at k; exact k

theorem State.ownedSlot_kept (f : Nat) (n : Nat) (s : State) :
    Kept s (State.ownedSlot f n s).2 := by
  unfold State.ownedSlot; grind [State.readSlot_kept, State.readSlot_kept_of, memWriteBytes_wf, foldWrites_wf, keptIff]

theorem State.ownedSlot_kept_of (f : Nat) (n : Nat) (s : State) {x1 t'} (he : State.ownedSlot f n s = (x1, t')) : Kept s t' := by
  have k := State.ownedSlot_kept f n s
  rw [he] at k; exact k

theorem State.loadSlot_kept (n : Nat) (keyType : Nat) (f : Nat) (key : Bytes) (s : State) :
    Kept s (State.loadSlot n keyType f key s) := ⟨rfl, rfl, id, id, id⟩

theorem State.emptySlot_kept (n : Nat) (s : State) :
    Kept s (State.emptySlot n s) := ⟨rfl, rfl, id, id, id⟩

theorem State.kimp_kept (code : Nat) (s : State) :
    Kept s (State.kimp code s) := ⟨rfl, rfl, id, id, id⟩

theorem execKekLoad_kept (words : List (BitVec 64)) (s : State) :
    ∀ t, execKekLoad words s = .next t → Kept s t := by
  intro t h
  unfold execKekLoad at h; grind [State.kimp_kept, memWriteBytes_wf, foldWrites_wf, keptIff]

theorem execWrappedKey_kept (words : List (BitVec 64)) (s : State) :
    ∀ t, execWrappedKey words s = .next t → Kept s t := by
  intro t h
  unfold execWrappedKey at h; (try dsimp only at h)
  (repeat' split at h) <;> (first | contradiction | (injection h; subst t)) <;> grind +splitImp [State.cryptoError_kept, State.readSlot_kept, State.readSlot_kept_of, State.loadSlot_kept, State.kimp_kept, memWriteBytes_wf, foldWrites_wf, keptIff, State.forEach_kept, foldl_kept]

theorem State.startZeroise_kept (s : State) :
    Kept s (State.startZeroise s) := by
  unfold State.startZeroise Sec.zeroise
  constructor <;> grind [State.stopLoad_kept, Kept]

theorem execZeroisePin_kept (s : State) :
    ∀ t, execZeroisePin s = .next t → Kept s t := by
  intro t h
  unfold execZeroisePin at h; grind [State.startZeroise_kept, memWriteBytes_wf, foldWrites_wf, keptIff]

theorem execZeroiseRelease_kept (s : State) :
    ∀ t, execZeroiseRelease s = .next t → Kept s t := by
  intro t h
  unfold execZeroiseRelease at h; grind [memWriteBytes_wf, foldWrites_wf, keptIff]

theorem execZeroisationComplete_kept (noise : List Bool) (s : State) :
    ∀ t, execZeroisationComplete noise s = .next t → Kept s t := by
  intro t h
  unfold execZeroisationComplete at h; grind [State.cryptoError_kept, State.drbgStart_kept, memWriteBytes_wf, foldWrites_wf, keptIff]

theorem State.auth_kept (s : State) :
    Kept s (State.auth s) := by
  unfold State.auth; grind [State.freshNonce_kept, memWriteBytes_wf, foldWrites_wf, keptIff]

theorem State.authWrite_kept (s : State) :
    Kept s (State.authWrite s) := by
  unfold State.authWrite; grind [State.cryptoError_kept, State.auth_kept, memWriteBytes_wf, foldWrites_wf, keptIff]

theorem State.closeSession_kept (s : State) :
    Kept s (State.closeSession s) := ⟨rfl, rfl, id, id, id⟩

theorem State.startSelftest_kept (s : State) :
    Kept s (State.startSelftest s) := by
  unfold State.startSelftest; grind [memWriteBytes_wf, foldWrites_wf, keptIff]

theorem State.preTestsRun_kept (kat : Option (BitVec 4)) (noise : List Bool) (s : State) :
    Kept s (State.preTestsRun kat noise s).2 := by
  unfold State.preTestsRun; grind [State.noiseRun_kept, State.noiseRun_kept_of, memWriteBytes_wf, foldWrites_wf, keptIff]

theorem State.preTestsRun_kept_of (kat : Option (BitVec 4)) (noise : List Bool) (s : State) {x1 t'} (he : State.preTestsRun kat noise s = (x1, t')) : Kept s t' := by
  have k := State.preTestsRun_kept kat noise s
  rw [he] at k; exact k

theorem execNoiseSample_kept (bit : Bool) (s : State) :
    ∀ t, execNoiseSample bit s = .next t → Kept s t := by
  intro t h
  unfold execNoiseSample at h; grind [State.cryptoError_kept, State.noiseRun_kept, State.noiseRun_kept_of, memWriteBytes_wf, foldWrites_wf, keptIff]

theorem execDrbgReseed_kept (noise : List Bool) (s : State) :
    ∀ t, execDrbgReseed noise s = .next t → Kept s t := by
  intro t h
  unfold execDrbgReseed at h; grind [State.cryptoError_kept, State.noiseRun_kept, State.noiseRun_kept_of, memWriteBytes_wf, foldWrites_wf, keptIff]

theorem State.signCtrl_kept (value : Nat) (s : State) :
    Kept s (State.signCtrl value s) := by
  unfold State.signCtrl; grind [memWriteBytes_wf, foldWrites_wf, keptIff]

theorem State.keyPartWrite_kept (f : Nat) (value : Nat) (s : State) :
    Kept s (State.keyPartWrite f value s) := by
  unfold State.keyPartWrite; grind [memWriteBytes_wf, foldWrites_wf, keptIff]

theorem State.secTest_kept (value : Nat) (s : State) :
    Kept s (State.secTest value s) := by
  unfold State.secTest; grind [memWriteBytes_wf, foldWrites_wf, keptIff]

theorem State.keyResult_kept (f : Nat) (loaded : Bool) (t : Nat) (code : Nat) (s : State) :
    Kept s (State.keyResult f loaded t code s) := ⟨rfl, rfl, id, id, id⟩

theorem State.keyReport_kept (f : Nat) (slot : Nat) (code : Nat) (s : State) :
    Kept s (State.keyReport f slot code s) := by
  unfold State.keyReport; grind [State.draw_kept, State.draw_kept_of, State.keyResult_kept, memWriteBytes_wf, foldWrites_wf, keptIff]

theorem State.keyFail_kept (f : Nat) (slot : Nat) (s : State) :
    Kept s (State.keyFail f slot s) := by
  unfold State.keyFail; grind [State.cryptoError_kept, State.keyReport_kept, memWriteBytes_wf, foldWrites_wf, keptIff]

theorem State.keyQuery_kept (f : Nat) (slot : Nat) (s : State) :
    Kept s (State.keyQuery f slot s) := by
  unfold State.keyQuery; grind [State.cryptoError_kept, State.readSlot_kept, State.readSlot_kept_of, State.keyReport_kept, State.keyFail_kept, memWriteBytes_wf, foldWrites_wf, keptIff]

theorem State.keyZeroise_kept (f : Nat) (slot : Nat) (s : State) :
    Kept s (State.keyZeroise f slot s) := by
  unfold State.keyZeroise; grind [State.cryptoError_kept, State.ownedSlot_kept, State.ownedSlot_kept_of, State.emptySlot_kept, State.keyReport_kept, State.keyFail_kept, memWriteBytes_wf, foldWrites_wf, keptIff]

theorem State.keyDerive_kept (f : Nat) (slot : Nat) (src : Nat) (t : Nat) (s : State) :
    Kept s (State.keyDerive f slot src t s) := by
  unfold State.keyDerive; grind [State.cryptoError_kept, State.ownedSlot_kept, State.ownedSlot_kept_of, State.loadSlot_kept, State.keyReport_kept, State.keyFail_kept, memWriteBytes_wf, foldWrites_wf, keptIff]

theorem State.keyOp_kept (f : Nat) (value : Nat) (s : State) :
    Kept s (State.keyOp f value s) := by
  unfold State.keyOp; grind [State.keyQuery_kept, State.keyZeroise_kept, State.keyDerive_kept, memWriteBytes_wf, foldWrites_wf, keptIff]

theorem State.keyCtrl_kept (f : Nat) (value : Nat) (s : State) :
    Kept s (State.keyCtrl f value s) := by
  unfold State.keyCtrl; grind [State.modFunc_kept, State.keyOp_kept, memWriteBytes_wf, foldWrites_wf, keptIff]

theorem State.serveWaiting_kept (s : State) :
    Kept s (State.serveWaiting s) := by
  unfold State.serveWaiting; grind +splitImp [State.modFunc_kept, State.auth_kept, State.keyOp_kept, memWriteBytes_wf, foldWrites_wf, keptIff, State.forEach_kept, foldl_kept]

theorem execSelftestComplete_kept (kat : Option (BitVec 4)) (noise : List Bool) (s : State) :
    ∀ t, execSelftestComplete kat noise s = .next t → Kept s t := by
  intro t h
  unfold execSelftestComplete at h; grind [State.cryptoError_kept, State.drbgStart_kept, State.preTestsRun_kept, State.preTestsRun_kept_of, State.serveWaiting_kept, memWriteBytes_wf, foldWrites_wf, keptIff]

theorem State.bootFail_kept {s x : State} (h : Kept s x) (hs : s.frame.st ≠ .fatal) (c : Nat) : Kept s (x.bootFail c) :=
  ⟨h.1, h.2, h.3, h.4, fun e => absurd e hs⟩
theorem execFirmwareVerify_kept (v : MemView) (s : State) :
    ∀ t, execFirmwareVerify v s = .next t → Kept s t := by
  intro t h
  unfold execFirmwareVerify at h
  have ks := State.seeMem_kept v s
  dsimp only at h
  revert ks h
  generalize s.seeMem v = u
  intro h ks
  refine ks.trans ?_
  split at h
  · cases h; exact .refl _
  · rename_i hg
    have hb : u.start.frame.st ≠ .fatal := by
      intro e
      have : u.frame.st = .fatal := e
      simp [this] at hg
    refine State.turn_kept (fun t h => ?_) t h
    split at h
    · rename_i e
      have k := State.sysRead_kept_of _ _ _ _ e
      split at h
      · rename_i e2
        have k2 := k.trans (State.sysRead_kept_of _ _ _ _ e2)
        split at h <;> cases h
        · exact State.bootFail_kept k2 hb _
        · exact ⟨k2.1, k2.2, k2.3, k2.4, k2.5⟩
      · rename_i e2
        cases h
        exact State.bootFail_kept (k.trans (State.sysRead_kept_of _ _ _ _ e2)) hb _
    · rename_i e
      cases h
      exact State.bootFail_kept (State.sysRead_kept_of _ _ _ _ e) hb _

theorem State.marchBegins_kept (s : State) :
    Kept s (State.marchBegins s) := ⟨rfl, rfl, id, id, id⟩

theorem execDieBringUp_kept (linkUp : BitVec 4) (kat : Option (BitVec 4)) (noise : List Bool) (s : State) :
    ∀ t, execDieBringUp linkUp kat noise s = .next t → Kept s t := by
  unfold execDieBringUp
  by_cases hb : (s.frame.st != .boot || !s.frame.fwVerified) = true
  · simp only [hb, if_true]; exact outNext_kept (.refl s)
  · have hs : s.frame.st ≠ .fatal := by intro e; simp [e] at hb
    rw [if_neg hb]; dsimp only
    have k0 := State.isolateUnreachable_kept { s with
      bounds := (boundariesOf s.caps.dies).foldl (fun t b => tblSet t b.1 ⟨linkUp.getLsbD b.1, !linkUp.getLsbD b.1, []⟩) [],
      frame := { s.frame with diesUp := List.range s.caps.dies } }
    generalize (State.isolateUnreachable _) = a at k0 ⊢
    have k1 := State.preTestsRun_kept kat noise { a with frame := { a.frame with st := .selfTest } }
    obtain ⟨c1, c2, c3, c4, -⟩ := k0
    obtain ⟨d1, d2, d3, d4, -⟩ := k1
    dsimp only at c1 c2 c3 c4 d1 d2 d3 d4
    cases hp : State.preTestsRun kat noise { a with frame := { a.frame with st := .selfTest } } with
    | mk o b =>
    rw [hp] at d1 d2 d3 d4
    cases o with
    | some c =>
      refine outNext_kept ?_
      have k2 := State.cryptoError_kept c (if c = 26 then { b with frame := { b.frame with fwVerified := false, fwVersion := 0 } } else b)
      generalize hq : (if c = 26 then { b with frame := { b.frame with fwVerified := false, fwVersion := 0 } } else b) = q at k2 ⊢
      have q1 : q.pending = b.pending ∧ q.caps = b.caps ∧ q.mem = b.mem ∧ q.sec = b.sec := by subst hq; split <;> simp
      unfold State.bootFail
      refine ⟨?_, ?_, ?_, ?_, fun e => absurd e hs⟩
      · show (State.cryptoError c q).pending = _; rw [k2.1, q1.1, d1, c1]
      · show (State.cryptoError c q).caps = _; rw [k2.2, q1.2.1, d2, c2]
      · intro e; exact k2.3 (q1.2.2.1 ▸ d3 (c3 e))
      · intro e; exact k2.4 (q1.2.2.2 ▸ d4 (c4 e))
    | none =>
      have k2 := State.drbgStart_kept (noise.drop 1024) b
      dsimp only
      generalize State.drbgStart (noise.drop 1024) b = e at k2 ⊢
      have k3 := State.marchBegins_kept e
      intro t h
      split at h <;> injection h with h <;> subst h
      · unfold State.bootFail
        exact ⟨k2.1.trans (d1.trans c1), k2.2.trans (d2.trans c2), fun e => k2.3 (d3 (c3 e)), fun e => k2.4 (d4 (c4 e)), fun e => absurd e hs⟩
      · exact ⟨k3.1.trans (k2.1.trans (d1.trans c1)), k3.2.trans (k2.2.trans (d2.trans c2)), fun e => k3.3 (k2.3 (d3 (c3 e))),
          fun e => k3.4 (k2.4 (d4 (c4 e))), fun e => absurd e hs⟩

theorem State.marchFailed_kept (mode : Nat) (b : Nat) (s : State) :
    Kept s (State.marchFailed mode b s) := by
  unfold State.marchFailed; grind [State.modBank_kept, State.logFrame_kept, State.fence_kept, memWriteBytes_wf, foldWrites_wf, keptIff]

theorem State.marchAll_kept (l : List Nat) (failing : List Nat) (s : State) :
    Kept s (State.marchAll l failing s) := by
  unfold State.marchAll; grind +splitImp [State.modBank_kept, State.zeroBank_kept, State.marchFailed_kept, memWriteBytes_wf, foldWrites_wf, keptIff, State.forEach_kept, foldl_kept]

theorem execStartUpMarchDone_kept (reads : List MarchRead) (s : State) :
    ∀ t, execStartUpMarchDone reads s = .next t → Kept s t := by
  intro t h
  unfold execStartUpMarchDone at h; grind +splitImp [State.parkBay_kept, State.serveWaiting_kept, State.marchAll_kept, memWriteBytes_wf, foldWrites_wf, keptIff, State.forEach_kept, foldl_kept]

theorem execMarchTrig_kept (s : State) :
    ∀ t, execMarchTrig s = .next t → Kept s t := by
  intro t h
  unfold execMarchTrig at h; grind [State.logFrame_kept, State.marchBegins_kept, memWriteBytes_wf, foldWrites_wf, keptIff]

theorem execPaceSync_kept (s : State) :
    ∀ t, execPaceSync s = .next t → Kept s t := by
  intro t h
  unfold execPaceSync at h; grind [memWriteBytes_wf, foldWrites_wf, keptIff]

theorem execPaceRefLoss_kept (s : State) :
    ∀ t, execPaceRefLoss s = .next t → Kept s t := by
  intro t h
  unfold execPaceRefLoss at h; grind [State.count_kept, State.logFrame_kept, memWriteBytes_wf, foldWrites_wf, keptIff]

theorem execPaceRefRestore_kept (s : State) :
    ∀ t, execPaceRefRestore s = .next t → Kept s t := by
  intro t h
  unfold execPaceRefRestore at h; grind [memWriteBytes_wf, foldWrites_wf, keptIff]

theorem State.applyOffset_kept (n : Nat) (s : State) :
    Kept s (State.applyOffset n s) := by
  unfold State.applyOffset; grind [memWriteBytes_wf, foldWrites_wf, keptIff]

theorem State.armSnap_kept (at_ : Nat) (s : State) :
    Kept s (State.armSnap at_ s) := ⟨rfl, rfl, id, id, id⟩

theorem State.snapWrite_kept (at_ : Nat) (s : State) :
    Kept s (State.snapWrite at_ s) := by
  unfold State.snapWrite; grind [State.armSnap_kept, memWriteBytes_wf, foldWrites_wf, keptIff]

theorem execSnapshotCopy_kept (unit : SnapUnit) (s : State) :
    ∀ t, execSnapshotCopy unit s = .next t → Kept s t := by
  intro t h
  unfold execSnapshotCopy at h; grind [memWriteBytes_wf, foldWrites_wf, keptIff]

theorem execSnapshotComplete_kept (s : State) :
    ∀ t, execSnapshotComplete s = .next t → Kept s t := by
  intro t h
  unfold execSnapshotComplete at h; grind [memWriteBytes_wf, foldWrites_wf, keptIff]

theorem execWrapperInstructionUpdate_kept (wrapper : BitVec 7) (instr : WrapperInstr) (s : State) :
    ∀ t, execWrapperInstructionUpdate wrapper instr s = .next t → Kept s t := by
  intro t h
  unfold execWrapperInstructionUpdate at h; grind [memWriteBytes_wf, foldWrites_wf, keptIff]

theorem State.tick_kept (s : State) :
    Kept s (State.tick s) := by
  unfold State.tick; grind [memWriteBytes_wf, foldWrites_wf, keptIff]

theorem execClockStepAck_kept (k : BitVec 7) (mhz : Nat) (s : State) :
    ∀ t, execClockStepAck k mhz s = .next t → Kept s t := by
  intro t h
  unfold execClockStepAck at h; grind [State.setBay_kept, State.count_kept, State.steppedTo_kept, State.fence_kept, memWriteBytes_wf, foldWrites_wf, keptIff]

theorem execClockStepAckTimeout_kept (k : BitVec 7) (s : State) :
    ∀ t, execClockStepAckTimeout k s = .next t → Kept s t := by
  intro t h
  unfold execClockStepAckTimeout at h; grind [State.fence_kept, memWriteBytes_wf, foldWrites_wf, keptIff]

theorem execClockStepAckLowered_kept (k : BitVec 7) (s : State) :
    ∀ t, execClockStepAckLowered k s = .next t → Kept s t := by
  intro t h
  unfold execClockStepAckLowered at h; grind [State.setBay_kept, State.nextStep_kept, memWriteBytes_wf, foldWrites_wf, keptIff]

theorem execBayClockFault_kept (k : BitVec 6) (s : State) :
    ∀ t, execBayClockFault k s = .next t → Kept s t := by
  intro t h
  unfold execBayClockFault at h; grind [State.fence_kept, memWriteBytes_wf, foldWrites_wf, keptIff]

theorem execBayDozeEntry_kept (k : BitVec 6) (s : State) :
    ∀ t, execBayDozeEntry k s = .next t → Kept s t := by
  intro t h
  unfold execBayDozeEntry at h; grind [State.setPState_kept, memWriteBytes_wf, foldWrites_wf, keptIff]

theorem execBayWake_kept (k : BitVec 6) (s : State) :
    ∀ t, execBayWake k s = .next t → Kept s t := by
  intro t h
  unfold execBayWake at h; grind [State.setPState_kept, memWriteBytes_wf, foldWrites_wf, keptIff]

theorem State.sensorFails_kept (d : Nat) (cause : Nat) (s : State) :
    Kept s (State.sensorFails d cause s) := by
  unfold State.sensorFails; grind +splitImp [State.setThermal_kept, State.logFrame_kept, State.wantClock_kept, memWriteBytes_wf, foldWrites_wf, keptIff, State.forEach_kept, foldl_kept]

theorem execThermalUpdate_kept (die : BitVec 2) (temp : BitVec 12) (s : State) :
    ∀ t, execThermalUpdate die temp s = .next t → Kept s t := by
  intro t h
  unfold execThermalUpdate at h; grind [State.setThermal_kept, State.sensorFails_kept, memWriteBytes_wf, foldWrites_wf, keptIff]

theorem execSensorStale_kept (die : BitVec 2) (s : State) :
    ∀ t, execSensorStale die s = .next t → Kept s t := by
  intro t h
  unfold execSensorStale at h; (try dsimp only at h)
  (repeat' split at h) <;> (first | contradiction | (injection h; subst t)) <;> grind +splitImp [State.sensorFails_kept, memWriteBytes_wf, foldWrites_wf, keptIff, State.forEach_kept, foldl_kept]

end Sys2Proof.Machine
end

