-- ==== Sys2Proof/Laws/KeptD.lean ====
section
/-! SUPPORT. Kept, for each state-changing definition of Thermal, BankOps, Encode, Errors, Pack, Queues. -/

namespace Sys2Proof.Machine

set_option Elab.async false

theorem State.steerDie_kept (d : Nat) (s : State) :
    Kept s (State.steerDie d s) := by
  unfold State.steerDie; grind +splitImp [State.nextStep_kept, State.wantClock_kept, memWriteBytes_wf, foldWrites_wf, keptIff, State.forEach_kept, foldl_kept]

theorem State.governDie_kept (d : Nat) (s : State) :
    Kept s (State.governDie d s) := by
  unfold State.governDie; grind [State.setThermal_kept, State.count_kept, State.logFrame_kept, State.walkCause_kept, State.steerDie_kept, memWriteBytes_wf, foldWrites_wf, keptIff]

theorem execGovernorStep_kept (v : MemView) (s : State) :
    ∀ t, execGovernorStep v s = .next t → Kept s t := by
  intro t h
  unfold execGovernorStep at h; grind +splitImp [State.seeMem_kept, State.walkThermalClear_kept, State.governDie_kept, memWriteBytes_wf, foldWrites_wf, keptIff, State.forEach_kept, foldl_kept]

theorem execSprintGrant_kept (die : BitVec 2) (s : State) :
    ∀ t, execSprintGrant die s = .next t → Kept s t := by
  intro t h
  unfold execSprintGrant at h; grind [State.setThermal_kept, State.steerDie_kept, memWriteBytes_wf, foldWrites_wf, keptIff]

theorem State.bankOwnerWrite_kept (b : Nat) (value : Nat) (s : State) :
    Kept s (State.bankOwnerWrite b value s) := by
  unfold State.bankOwnerWrite; grind [State.setBank_kept, State.modBank_kept, memWriteBytes_wf, foldWrites_wf, keptIff]

theorem State.handedOver_kept (b : Nat) (load : Bool) (s : State) :
    Kept s (State.handedOver b load s) := by
  unfold State.handedOver; grind [State.fillPinned_kept, memWriteBytes_wf, foldWrites_wf, keptIff]

theorem execBankHandover_kept (b : BitVec 12) (s : State) :
    ∀ t, execBankHandover b s = .next t → Kept s t := by
  intro t h
  unfold execBankHandover at h; grind [State.setBank_kept, State.handedOver_kept, memWriteBytes_wf, foldWrites_wf, keptIff]

theorem execBankClearDone_kept (b : BitVec 12) (s : State) :
    ∀ t, execBankClearDone b s = .next t → Kept s t := by
  intro t h
  unfold execBankClearDone at h; grind [State.modBank_kept, State.zeroBank_kept, State.handedOver_kept, memWriteBytes_wf, foldWrites_wf, keptIff]

theorem State.haltBayStreams_kept (k : Nat) (s : State) :
    Kept s (State.haltBayStreams k s) := by
  unfold State.haltBayStreams; grind +splitImp [State.streamError_kept, memWriteBytes_wf, foldWrites_wf, keptIff, State.forEach_kept, foldl_kept]

theorem execScrubRead_kept (b : BitVec 12) (upset : BitVec 576) (s : State) :
    ∀ t, execScrubRead b upset s = .next t → Kept s t := by
  intro t h
  unfold execScrubRead at h; grind [State.setBank_kept, State.modBank_kept, State.count_kept, State.logFrame_kept, State.setWord_kept, State.word_kept, State.word_kept_of, State.relays_kept, State.haltBayStreams_kept, memWriteBytes_wf, foldWrites_wf, keptIff]

theorem State.marchCtrl_kept (value : Nat) (s : State) :
    Kept s (State.marchCtrl value s) := by
  unfold State.marchCtrl; grind [memWriteBytes_wf, foldWrites_wf, keptIff]

theorem execMarchDone_kept (reads : List MarchRead) (s : State) :
    ∀ t, execMarchDone reads s = .next t → Kept s t := by
  intro t h
  unfold execMarchDone at h; grind [State.modBank_kept, State.zeroBank_kept, State.marchKeeps_kept, State.marchKeeps_kept_of, State.marchFailed_kept, State.marchAll_kept, memWriteBytes_wf, foldWrites_wf, keptIff]

theorem State.dpbRead_kept (w : Party) (a : Nat) (n : Nat) (s : State) :
    Kept s (State.dpbRead w a n s).2 := by
  unfold State.dpbRead; grind [State.readSpan_kept, State.readSpan_kept_of, memWriteBytes_wf, foldWrites_wf, keptIff]

theorem State.dpbRead_kept_of (w : Party) (a : Nat) (n : Nat) (s : State) {x1 t'} (he : State.dpbRead w a n s = (x1, t')) : Kept s t' := by
  have k := State.dpbRead_kept w a n s
  rw [he] at k; exact k

theorem State.buffersRead_kept (w : Party) (size : Nat) (bufs : List Nat) (a3 : Nat) (a4 : Nat) (a5 : Nat) (a6 : State) :
    Kept a6 (State.buffersRead w size bufs a3 a4 a5 a6).2 := by
  fun_induction State.buffersRead w size bufs a3 a4 a5 a6 <;> grind [State.dpbRead_kept, State.dpbRead_kept_of, memWriteBytes_wf, foldWrites_wf, keptIff]

theorem State.buffersRead_kept_of (w : Party) (size : Nat) (bufs : List Nat) (a3 : Nat) (a4 : Nat) (a5 : Nat) (a6 : State) {x1 t'} (he : State.buffersRead w size bufs a3 a4 a5 a6 = (x1, t')) : Kept a6 t' := by
  have k := State.buffersRead_kept w size bufs a3 a4 a5 a6
  rw [he] at k; exact k

theorem State.buffersWrite_kept (w : Party) (size : Nat) (bufs : List Nat) (a3 : Nat) (a4 : Nat) (a5 : Bytes) (a6 : State) :
    Kept a6 (State.buffersWrite w size bufs a3 a4 a5 a6).2 := by
  fun_induction State.buffersWrite w size bufs a3 a4 a5 a6 <;> grind [State.writeSpan_kept, State.writeSpan_kept_of, memWriteBytes_wf, foldWrites_wf, keptIff]

theorem State.buffersWrite_kept_of (w : Party) (size : Nat) (bufs : List Nat) (a3 : Nat) (a4 : Nat) (a5 : Bytes) (a6 : State) {x1 t'} (he : State.buffersWrite w size bufs a3 a4 a5 a6 = (x1, t')) : Kept a6 t' := by
  have k := State.buffersWrite_kept w size bufs a3 a4 a5 a6
  rw [he] at k; exact k

theorem State.bankWindow_kept (e : EncJob) (ctu : Nat) (bs : Bytes) (s : State) :
    Kept s (State.bankWindow e ctu bs s) := by
  unfold State.bankWindow; grind [State.writeRuns_kept, memWriteBytes_wf, foldWrites_wf, keptIff]

theorem State.loadSpans_kept (e : EncJob) (bufs : List Nat) (a2 : List (Nat × Nat)) (a3 : Bytes) (a4 : Array Nat) (a5 : State) :
    Kept a5 (State.loadSpans e bufs a2 a3 a4 a5).2 := by
  fun_induction State.loadSpans e bufs a2 a3 a4 a5 <;> grind [State.buffersRead_kept, State.buffersRead_kept_of, memWriteBytes_wf, foldWrites_wf, keptIff]

theorem State.loadSpans_kept_of (e : EncJob) (bufs : List Nat) (a2 : List (Nat × Nat)) (a3 : Bytes) (a4 : Array Nat) (a5 : State) {x1 t'} (he : State.loadSpans e bufs a2 a3 a4 a5 = (x1, t')) : Kept a5 t' := by
  have k := State.loadSpans_kept e bufs a2 a3 a4 a5
  rw [he] at k; exact k

theorem State.loadWindows_kept (e : EncJob) (bufs : List Nat) (a2 : List Nat) (a3 : Array Nat) (a4 : State) :
    Kept a4 (State.loadWindows e bufs a2 a3 a4).2 := by
  fun_induction State.loadWindows e bufs a2 a3 a4 <;> grind [State.bankWindow_kept, State.loadSpans_kept, State.loadSpans_kept_of, memWriteBytes_wf, foldWrites_wf, keptIff]

theorem State.loadWindows_kept_of (e : EncJob) (bufs : List Nat) (a2 : List Nat) (a3 : Array Nat) (a4 : State) {x1 t'} (he : State.loadWindows e bufs a2 a3 a4 = (x1, t')) : Kept a4 t' := by
  have k := State.loadWindows_kept e bufs a2 a3 a4
  rw [he] at k; exact k

theorem State.sinkSlices_kept (sink : Nat → Nat → Bytes → State → Option VidStop × State) (hs : ∀ a b c s, Kept s (sink a b c s).2)
    (l : List Bytes) (h : EncHold) (s : State) : Kept s (State.sinkSlices sink l h s).2.2 := by
  induction l generalizing h s with
  | nil => exact .refl s
  | cons u t ih =>
    have k := hs h.slices.length (h.slices.foldl (fun n x => n + x.2.length) 0) u s
    unfold State.sinkSlices
    dsimp only
    split
    · rename_i e; rw [e] at k; exact k
    · rename_i e; rw [e] at k; exact k.trans (ih ..)

theorem State.codePictures_kept (e : EncJob) (src : Nat → State → Except VidStop (Nat × Array Nat) × State)
    (sink : Nat → Nat → Bytes → State → Option VidStop × State) (hg : ∀ n s, Kept s (src n s).2) (hs : ∀ a b c s, Kept s (sink a b c s).2)
    (left : Nat) (h : EncHold) (s : State) : Kept s (State.codePictures e src sink left h s).2.2 := by
  induction left generalizing h s with
  | zero => exact .refl s
  | succ n ih =>
    have k := hg h.next s
    unfold State.codePictures
    split
    · rename_i q; rw [q] at k; exact k
    · rename_i p a q
      rw [q] at k
      dsimp only
      have kw : Kept a (if h.next % encGop e.body = 0 then ((.ok #[] : Except VidStop (Array Nat)), a)
        else a.loadWindows e (e.picture (h.next - 1)) (List.range (ctuCount e.body)) (Array.replicate (3 * codedW e.body * codedH e.body / 2) 0)).2 := by
        split
        · exact .refl a
        · exact State.loadWindows_kept ..
      split
      · rename_i q2; rw [q2] at kw; exact k.trans kw
      · rename_i ref b q2
        rw [q2] at kw
        split
        · rename_i c q3
          exact (k.trans kw).trans (State.buffersWrite_kept_of _ _ _ _ _ _ _ q3)
        · rename_i c q3
          have kb := State.buffersWrite_kept_of _ _ _ _ _ _ _ q3
          have kk := State.sinkSlices_kept sink hs ((codePicture e.body h.next (encSource e.body (encPlanes e.body e.key p.1 p.2)) ref h.run).1.drop
            (h.slices.filter (fun x => x.1 == h.next)).length) h c
          split
          · rename_i q4; rw [q4] at kk; exact ((k.trans kw).trans kb).trans kk
          · rename_i q4; rw [q4] at kk; exact (((k.trans kw).trans kb).trans kk).trans (ih ..)

theorem State.dropPools_kept (f : Nat) (s : State) :
    Kept s (State.dropPools f s) := ⟨rfl, rfl, id, id, id⟩

theorem State.stopQueues_kept (f : Nat) (s : State) :
    Kept s (State.stopQueues f s) := by
  unfold State.stopQueues; grind [State.dropReqs_kept, memWriteBytes_wf, foldWrites_wf, keptIff]

theorem State.haltFunction_kept (f : Nat) (s : State) :
    Kept s (State.haltFunction f s) := by
  unfold State.haltFunction; grind [State.modFunc_kept, State.logBoth_kept, State.abortWhere_kept, State.dropPools_kept, State.stopQueues_kept, memWriteBytes_wf, foldWrites_wf, keptIff]

theorem execControlStateEcc_kept (store : CtrlStore) (s : State) :
    ∀ t, execControlStateEcc store s = .next t → Kept s t := by
  intro t h
  unfold execControlStateEcc at h; grind [State.walkCause_kept, State.frameFatal_kept, State.haltFunction_kept, memWriteBytes_wf, foldWrites_wf, keptIff]

theorem execStewardWatchdogExpiry_kept (s : State) :
    ∀ t, execStewardWatchdogExpiry s = .next t → Kept s t := by
  intro t h
  unfold execStewardWatchdogExpiry at h; grind [State.frameFatal_kept, memWriteBytes_wf, foldWrites_wf, keptIff]

theorem execManagementStorageEcc_kept (store : MgmtStore) (s : State) :
    ∀ t, execManagementStorageEcc store s = .next t → Kept s t := by
  intro t h
  unfold execManagementStorageEcc at h; grind [State.draw_kept, State.draw_kept_of, State.frameFatal_kept, State.cryptoError_kept, memWriteBytes_wf, foldWrites_wf, keptIff]

theorem execBayControlStateEcc_kept (k : BitVec 6) (s : State) :
    ∀ t, execBayControlStateEcc k s = .next t → Kept s t := by
  intro t h
  unfold execBayControlStateEcc at h; grind [State.fence_kept, memWriteBytes_wf, foldWrites_wf, keptIff]

theorem State.loseWaiting_kept (log : Option Nat) (s : State) :
    Kept s (State.loseWaiting log s) := by
  unfold State.loseWaiting; grind +splitImp [State.setLogRing_kept, State.releaseUnit_kept, memWriteBytes_wf, foldWrites_wf, keptIff, State.forEach_kept, foldl_kept]

theorem execLogEntryWrite_kept (log : LogId) (v : MemView) (s : State) :
    ∀ t, execLogEntryWrite log v s = .next t → Kept s t := by
  intro t h
  unfold execLogEntryWrite at h; (try dsimp only at h)
  refine (State.seeMem_kept v s).trans (State.turn_kept (fun t h => ?_) t h)
  grind [State.setLogRing_kept, State.releaseUnit_kept, State.seeMem_kept, State.turn_kept, State.sysWrite_kept, State.sysWrite_kept_of, State.loseWaiting_kept, memWriteBytes_wf, foldWrites_wf, keptIff]

theorem State.logBaseWrite_kept (log : Option Nat) (base : Nat) (s : State) :
    Kept s (State.logBaseWrite log base s) := by
  unfold State.logBaseWrite; grind [State.setLogRing_kept, State.loseWaiting_kept, memWriteBytes_wf, foldWrites_wf, keptIff]

theorem execNotifySend_kept (s : State) :
    ∀ t, execNotifySend s = .next t → Kept s t := by
  intro t h
  unfold execNotifySend at h; grind [State.relays_kept, State.catchUp_kept, State.finishDrains_kept, memWriteBytes_wf, foldWrites_wf, keptIff]

theorem execPageRequestGroupSend_kept (fn : BitVec 6) (stream : BitVec 10) (s : State) :
    ∀ t, execPageRequestGroupSend fn stream s = .next t → Kept s t := by
  intro t h
  unfold execPageRequestGroupSend at h; grind [State.modFunc_kept, State.setStream_kept, State.faultRecord_kept, State.relays_kept, memWriteBytes_wf, foldWrites_wf, keptIff]

theorem execRelayPortSend_kept (s : State) :
    ∀ t, execRelayPortSend s = .next t → Kept s t := by
  intro t h
  unfold execRelayPortSend at h; grind [memWriteBytes_wf, foldWrites_wf, keptIff]

theorem State.sampleCount_kept (f : Nat) (code : Nat) (bay : Nat) (s : State) :
    Kept s (State.sampleCount f code bay s) := by
  unfold State.sampleCount; grind [State.count_kept, memWriteBytes_wf, foldWrites_wf, keptIff]

theorem State.sampleError_kept (f : Nat) (i : Nat) (code : Nat) (bay : Nat) (detail : Nat) (s : State) :
    Kept s (State.sampleError f i code bay detail s) := by
  unfold State.sampleError; grind [State.logTo_kept, State.sampleCount_kept, memWriteBytes_wf, foldWrites_wf, keptIff]

theorem State.sampleDone_kept (f : Nat) (i : Nat) (y : InFlight) (s : State) :
    Kept s (State.sampleDone f i y s) := ⟨rfl, rfl, id, id, id⟩

theorem State.rejectSample_kept (f : Nat) (i : Nat) (index : Nat) (code : Nat) (bay : Nat) (detail : Nat) (s : State) :
    Kept s (State.rejectSample f i index code bay detail s) := by
  unfold State.rejectSample; grind [State.sampleError_kept, State.sampleDone_kept, memWriteBytes_wf, foldWrites_wf, keptIff]

theorem State.runStarts_kept (f : Nat) (i : Nat) (seq : Bool) (r : EpochRun) (s : State) :
    Kept s (State.runStarts f i seq r s) := by
  unfold State.runStarts; grind [State.setStream_kept, memWriteBytes_wf, foldWrites_wf, keptIff]

theorem State.takeFixed_kept (f : Nat) (i : Nat) (bay : Nat) (body : Bytes) (r : EpochRun) (y : InFlight) (s : State) :
    Kept s (State.takeFixed f i bay body r y s) := by
  unfold State.takeFixed; grind [State.setStream_kept, State.count_kept, State.sampleError_kept, memWriteBytes_wf, foldWrites_wf, keptIff]

theorem State.takeDoc_kept (f : Nat) (i : Nat) (bay : Nat) (body : Bytes) (r : EpochRun) (y : InFlight) (s : State) :
    Kept s (State.takeDoc f i bay body r y s) := by
  unfold State.takeDoc; grind [State.setStream_kept, State.count_kept, State.sampleError_kept, memWriteBytes_wf, foldWrites_wf, keptIff]

theorem State.placeRows_kept (f : Nat) (i : Nat) (body : Bytes) (s : State) :
    Kept s (State.placeRows f i body s) := by
  unfold State.placeRows; grind [State.setStream_kept, State.count_kept, memWriteBytes_wf, foldWrites_wf, keptIff]

theorem State.takeReady_kept (f : Nat) (i : Nat) (bay : Nat) (body : Bytes) (a4 : Nat) (a5 : State) :
    Kept a5 (State.takeReady f i bay body a4 a5) := by
  fun_induction State.takeReady f i bay body a4 a5 <;> grind [State.runStarts_kept, State.takeFixed_kept, State.takeDoc_kept, State.placeRows_kept, memWriteBytes_wf, foldWrites_wf, keptIff]

theorem State.closeRows_kept (f : Nat) (i : Nat) (body : Bytes) (s : State) :
    Kept s (State.closeRows f i body s) := by
  unfold State.closeRows; grind [State.setStream_kept, State.placeRows_kept, memWriteBytes_wf, foldWrites_wf, keptIff]

theorem State.pushBlocks_kept (f : Nat) (i : Nat) (s : State) :
    Kept s (State.pushBlocks f i s) := by
  unfold State.pushBlocks; grind +splitImp [State.pushReq_kept, memWriteBytes_wf, foldWrites_wf, keptIff, State.forEach_kept, foldl_kept]

theorem State.startXfer_kept (f : Nat) (i : Nat) (body : Bytes) (s : State) :
    Kept s (State.startXfer f i body s) := by
  unfold State.startXfer; grind [State.setStream_kept, State.streamWorks_kept, State.pushBlocks_kept, memWriteBytes_wf, foldWrites_wf, keptIff]

theorem State.pump_kept (f : Nat) (i : Nat) (s : State) :
    Kept s (State.pump f i s) := by
  unfold State.pump; grind [State.wakeSamples_kept, State.takeReady_kept, State.closeRows_kept, State.startXfer_kept, memWriteBytes_wf, foldWrites_wf, keptIff]

theorem State.queueRead_kept (f : Nat) (addr : Nat) (owner : Owner) (s : State) :
    Kept s (State.queueRead f addr owner s) := by
  unfold State.queueRead; grind [State.pushReq_kept, memWriteBytes_wf, foldWrites_wf, keptIff]

theorem State.queueEnable_kept (f : Nat) (q : Nat) (s : State) :
    Kept s (State.queueEnable f q s) := by
  unfold State.queueEnable; grind [State.setQueue_kept, State.queueRead_kept, memWriteBytes_wf, foldWrites_wf, keptIff]

theorem State.endBroken_kept (f : Nat) (q : Nat) (s : State) :
    Kept s (State.endBroken f q s) := by
  unfold State.endBroken; grind [State.setQueue_kept, State.modQueue_kept, State.count_kept, State.errorRecord_kept, State.complete_kept, State.fence_kept, memWriteBytes_wf, foldWrites_wf, keptIff]

theorem State.breakChain_kept (f : Nat) (q : Nat) (breakSlot : Nat) (s : State) :
    Kept s (State.breakChain f q breakSlot s) := by
  unfold State.breakChain; grind [State.setQueue_kept, memWriteBytes_wf, foldWrites_wf, keptIff]

theorem State.queueDisable_kept (f : Nat) (q : Nat) (s : State) :
    Kept s (State.queueDisable f q s) := by
  unfold State.queueDisable; grind [State.setQueue_kept, State.dropReqs_kept, State.dropQueueReads_kept, memWriteBytes_wf, foldWrites_wf, keptIff]

theorem State.qCtrlWrite_kept (f : Nat) (q : Nat) (value : Nat) (s : State) :
    Kept s (State.qCtrlWrite f q value s) := by
  unfold State.qCtrlWrite; grind [State.setQueue_kept, State.queueEnable_kept, State.queueDisable_kept, memWriteBytes_wf, foldWrites_wf, keptIff]

theorem State.qFixedWrite_kept (f : Nat) (q : Nat) (g : Queue → Queue) (s : State) :
    Kept s (State.qFixedWrite f q g s) := by
  unfold State.qFixedWrite; grind [State.setQueue_kept, memWriteBytes_wf, foldWrites_wf, keptIff]

theorem State.qWeightWrite_kept (f : Nat) (q : Nat) (value : Nat) (s : State) :
    Kept s (State.qWeightWrite f q value s) := by
  unfold State.qWeightWrite; grind [State.setQueue_kept, memWriteBytes_wf, foldWrites_wf, keptIff]

theorem State.qBurstWrite_kept (f : Nat) (q : Nat) (value : Nat) (s : State) :
    Kept s (State.qBurstWrite f q value s) := by
  unfold State.qBurstWrite; grind [State.setQueue_kept, memWriteBytes_wf, foldWrites_wf, keptIff]

theorem execQEnableCheck_kept (fn : BitVec 6) (q : BitVec 9) (s : State) :
    ∀ t, execQEnableCheck fn q s = .next t → Kept s t := by
  intro t h
  unfold execQEnableCheck at h; grind [State.setQueue_kept, State.dropQueueReads_kept, State.complete_kept, State.queueDisable_kept, memWriteBytes_wf, foldWrites_wf, keptIff]

theorem execQDisableComplete_kept (fn : BitVec 6) (q : BitVec 9) (s : State) :
    ∀ t, execQDisableComplete fn q s = .next t → Kept s t := by
  intro t h
  unfold execQDisableComplete at h; grind [State.setQueue_kept, memWriteBytes_wf, foldWrites_wf, keptIff]

theorem State.doorbell_kept (f : Nat) (value : Nat) (s : State) :
    Kept s (State.doorbell f value s) := by
  unfold State.doorbell; grind [State.modFunc_kept, State.setQueue_kept, State.count_kept, State.queueRead_kept, memWriteBytes_wf, foldWrites_wf, keptIff]

theorem State.fetchSlots_kept (f : Nat) (q : Nat) (posted : Bool) (n : Nat) (first : Nat) (s : State) :
    Kept s (State.fetchSlots f q posted n first s) := by
  unfold State.fetchSlots; grind +splitImp [State.queueRead_kept, memWriteBytes_wf, foldWrites_wf, keptIff, State.forEach_kept, foldl_kept]

theorem State.tailCheck_kept (f : Nat) (q : Nat) (t : Nat) (s : State) :
    Kept s (State.tailCheck f q t s).2 := by
  unfold State.tailCheck; grind [State.setQueue_kept, State.errorRecord_kept, memWriteBytes_wf, foldWrites_wf, keptIff]

theorem State.tailCheck_kept_of (f : Nat) (q : Nat) (t : Nat) (s : State) {x1 t'} (he : State.tailCheck f q t s = (x1, t')) : Kept s t' := by
  have k := State.tailCheck_kept f q t s
  rw [he] at k; exact k

theorem execTailRead_kept (fn : BitVec 6) (q : BitVec 9) (extra : BitVec 6) (v : MemView) (s : State) :
    ∀ t, execTailRead fn q extra v s = .next t → Kept s t := by
  intro t h
  unfold execTailRead at h; (try dsimp only at h)
  refine (State.seeMem_kept v s).trans (State.turn_kept (fun t h => ?_) t h)
  grind [State.setQueue_kept, State.seeMem_kept, State.turn_kept, State.dropQueueReads_kept, State.queueRead_kept, State.fetchSlots_kept, State.tailCheck_kept, State.tailCheck_kept_of, memWriteBytes_wf, foldWrites_wf, keptIff]

theorem State.ownEntry_kept (f : Nat) (q : Nat) (slot : Nat) (bs : Bytes) (code : Nat) (detail : Nat) (s : State) :
    Kept s (State.ownEntry f q slot bs code detail s) := by
  unfold State.ownEntry; grind [State.modQueue_kept, State.errorRecord_kept, State.breakChain_kept, memWriteBytes_wf, foldWrites_wf, keptIff]

theorem State.underBroken_kept (f : Nat) (q : Nat) (slot : Nat) (bs : Bytes) (s : State) :
    Kept s (State.underBroken f q slot bs s) := by
  unfold State.underBroken; grind [State.modQueue_kept, State.count_kept, memWriteBytes_wf, foldWrites_wf, keptIff]

theorem State.startChain_kept (f : Nat) (q : Nat) (slot : Nat) (bs : Bytes) (s : State) :
    Kept s (State.startChain f q slot bs s) := by
  unfold State.startChain; grind [State.setQueue_kept, memWriteBytes_wf, foldWrites_wf, keptIff]

theorem State.takeEntry_kept (f : Nat) (q : Nat) (slot : Nat) (bs : Bytes) (s : State) :
    Kept s (State.takeEntry f q slot bs s) := by
  unfold State.takeEntry; grind [State.setQueue_kept, State.endBroken_kept, State.breakChain_kept, State.underBroken_kept, State.startChain_kept, memWriteBytes_wf, foldWrites_wf, keptIff]

theorem State.skipEnds_kept (f : Nat) (q : Nat) (s : State) :
    Kept s (State.skipEnds f q s) := by
  unfold State.skipEnds; grind [State.endBroken_kept, memWriteBytes_wf, foldWrites_wf, keptIff]

theorem execEntryFetch_kept (fn : BitVec 6) (q : BitVec 9) (v : MemView) (s : State) :
    ∀ t, execEntryFetch fn q v s = .next t → Kept s t := by
  intro t h
  unfold execEntryFetch at h; (try dsimp only at h)
  refine (State.seeMem_kept v s).trans (State.turn_kept (fun t h => ?_) t h)
  grind [State.setQueue_kept, State.seeMem_kept, State.turn_kept, State.dropQueueReads_kept, State.endBroken_kept, State.breakChain_kept, State.ownEntry_kept, State.takeEntry_kept, State.skipEnds_kept, memWriteBytes_wf, foldWrites_wf, keptIff]

theorem State.dispatchJob_kept (f : Nat) (q : Nat) (j : Job) (s : State) :
    Kept s (State.dispatchJob f q j s) := by
  unfold State.dispatchJob; constructor <;> grind +splitImp [State.modJob_kept, State.entryDone_kept, State.jobDone_kept, memWriteBytes_wf, foldWrites_wf, State.forEach_kept, foldl_kept, Kept]

theorem State.dispatch_kept (f : Nat) (q : Nat) (a2 : Nat) (a3 : List Job) (a4 : State) :
    Kept a4 (State.dispatch f q a2 a3 a4) := by
  fun_induction State.dispatch f q a2 a3 a4 <;> grind [State.complete_kept, State.fence_kept, State.dispatchJob_kept, memWriteBytes_wf, foldWrites_wf, keptIff]

theorem State.newRound_kept (s : State) :
    Kept s (State.newRound s) := ⟨rfl, rfl, id, id, id⟩

theorem execQueueVisit_kept (fn : BitVec 6) (q : BitVec 9) (v : MemView) (s : State) :
    ∀ t, execQueueVisit fn q v s = .next t → Kept s t := by
  intro t h
  unfold execQueueVisit at h; (try dsimp only at h)
  refine (State.seeMem_kept v s).trans (State.turn_kept (fun t h => ?_) t h)
  grind [State.setQueue_kept, State.seeMem_kept, State.turn_kept, State.dispatch_kept, State.newRound_kept, memWriteBytes_wf, foldWrites_wf, keptIff]

theorem State.publishHead_kept (f : Nat) (q : Nat) (s : State) :
    Kept s (State.publishHead f q s) := by
  unfold State.publishHead; grind [State.modQueue_kept, State.count_kept, State.queueMsg_kept, State.indexAdd_kept, State.indexAdd_kept_of, State.complete_kept, memWriteBytes_wf, foldWrites_wf, keptIff]

theorem execJobCompleteHeadPublish_kept (fn : BitVec 6) (q : BitVec 9) (v : MemView) (s : State) :
    ∀ t, execJobCompleteHeadPublish fn q v s = .next t → Kept s t := by
  intro t h
  unfold execJobCompleteHeadPublish at h; (try dsimp only at h)
  refine (State.seeMem_kept v s).trans (State.turn_kept (fun t h => ?_) t h)
  grind [State.seeMem_kept, State.turn_kept, State.publishHead_kept, memWriteBytes_wf, foldWrites_wf, keptIff]

theorem State.clearFuncCounts_kept (f : Nat) (s : State) :
    Kept s (State.clearFuncCounts f s) := by
  unfold State.clearFuncCounts; grind +splitImp [State.clearCounts_kept, memWriteBytes_wf, foldWrites_wf, keptIff, State.forEach_kept, foldl_kept]

theorem State.funcReset_kept (f : Nat) (value : Nat) (s : State) :
    Kept s (State.funcReset f value s) := by
  unfold State.funcReset; grind +splitImp [State.modFunc_kept, State.releaseUnit_kept, State.dropReqs_kept, State.abortWhere_kept, State.dropPools_kept, State.clearFuncCounts_kept, memWriteBytes_wf, foldWrites_wf, keptIff, State.forEach_kept, foldl_kept]

theorem State.clearFuncKeys_kept (f : Nat) (s : State) :
    Kept s (State.clearFuncKeys f s) := ⟨rfl, rfl, id, id, id⟩

theorem execFuncResetComplete_kept (fn : BitVec 6) (s : State) :
    ∀ t, execFuncResetComplete fn s = .next t → Kept s t := by
  intro t h
  unfold execFuncResetComplete at h; grind [State.modFunc_kept, State.clearFuncKeys_kept, memWriteBytes_wf, foldWrites_wf, keptIff]

end Sys2Proof.Machine
end

