-- ==== Sys2Proof/Laws/KeptE.lean ====
section
/-! SUPPORT. Kept, for each state-changing definition of Units, TextOps, Streams, Intake. -/

namespace Sys2Proof.Machine

set_option Elab.async false

theorem State.putUnit_kept (bay : Nat) (tenon : Nat) (u : DataUnit) (s : State) :
    Kept s (State.putUnit bay tenon u s) := ⟨rfl, rfl, id, id, id⟩

theorem State.sendUnit_kept (bay : Nat) (u : DataUnit) (same : Bool) (side : Option Nat) (s : State) :
    Kept s (State.sendUnit bay u same side s) := by
  unfold State.sendUnit; grind [State.putUnit_kept, memWriteBytes_wf, foldWrites_wf, keptIff]

theorem State.sendReject_kept (bay : Nat) (code : Nat) (tag : UnitTag) (s : State) :
    Kept s (State.sendReject bay code tag s) := by
  unfold State.sendReject; grind [State.putBeats_kept, State.sampleDone_kept, memWriteBytes_wf, foldWrites_wf, keptIff]

theorem State.rejectAt_kept (f : Nat) (i : Nat) (bay : Nat) (tag : UnitTag) (code : Nat) (detail : Nat) (s : State) :
    Kept s (State.rejectAt f i bay tag code detail s) := by
  unfold State.rejectAt; grind [State.sampleError_kept, State.sendReject_kept, memWriteBytes_wf, foldWrites_wf, keptIff]

theorem State.modFlight_kept (f : Nat) (i : Nat) (t : UnitTag) (g : InFlight → InFlight) (s : State) :
    Kept s (State.modFlight f i t g s) := ⟨rfl, rfl, id, id, id⟩

theorem State.settleFlight_kept (f : Nat) (i : Nat) (t : UnitTag) (s : State) :
    Kept s (State.settleFlight f i t s) := by
  unfold State.settleFlight; grind [State.sampleDone_kept, State.pump_kept, memWriteBytes_wf, foldWrites_wf, keptIff]

theorem State.packUnit_kept (u : DataUnit) (s : State) :
    Kept s (State.packUnit u s) := by
  unfold State.packUnit; grind [State.modFlight_kept, State.settleFlight_kept, memWriteBytes_wf, foldWrites_wf, keptIff]

theorem State.packReject_kept (t : UnitTag) (s : State) :
    Kept s (State.packReject t s) := by
  unfold State.packReject; grind [State.sampleDone_kept, State.pump_kept, State.modFlight_kept, State.settleFlight_kept, memWriteBytes_wf, foldWrites_wf, keptIff]

theorem State.readChunks_kept (w : Party) (addr : Nat) (a2 : Nat) (a3 : Nat) (a4 : List Bytes) (a5 : State) :
    Kept a5 (State.readChunks w addr a2 a3 a4 a5).2 := by
  fun_induction State.readChunks w addr a2 a3 a4 a5 <;> grind [State.sysRead_kept, State.sysRead_kept_of, memWriteBytes_wf, foldWrites_wf, keptIff]

theorem State.readChunks_kept_of (w : Party) (addr : Nat) (a2 : Nat) (a3 : Nat) (a4 : List Bytes) (a5 : State) {x1 t'} (he : State.readChunks w addr a2 a3 a4 a5 = (x1, t')) : Kept a5 t' := by
  have k := State.readChunks_kept w addr a2 a3 a4 a5
  rw [he] at k; exact k

theorem State.tableBytes_kept (w : Site) (id : Nat) (off : Nat) (len : Nat) (s : State) :
    Kept s (State.tableBytes w id off len s).2 := by
  unfold State.tableBytes; grind [State.mustWait_kept, State.pinnedTable_kept, State.pinnedTable_kept_of, State.streamError_kept, State.streamResp_kept, State.relays_kept, State.readChunks_kept, State.readChunks_kept_of, memWriteBytes_wf, foldWrites_wf, keptIff]

theorem State.tableBytes_kept_of (w : Site) (id : Nat) (off : Nat) (len : Nat) (s : State) {x1 t'} (he : State.tableBytes w id off len s = (x1, t')) : Kept s t' := by
  have k := State.tableBytes_kept w id off len s
  rw [he] at k; exact k

theorem State.streamTable_kept (w : Site) (id : Nat) (s : State) :
    Kept s (State.streamTable w id s).2 := by
  unfold State.streamTable; grind [State.tableBytes_kept, State.tableBytes_kept_of, memWriteBytes_wf, foldWrites_wf, keptIff]

theorem State.streamTable_kept_of (w : Site) (id : Nat) (s : State) {x1 t'} (he : State.streamTable w id s = (x1, t')) : Kept s t' := by
  have k := State.streamTable_kept w id s
  rw [he] at k; exact k

theorem State.holdUnit_kept (bay : Nat) (mortise : Nat) (u : DataUnit) (s : State) :
    Kept s (State.holdUnit bay mortise u s) := ⟨rfl, rfl, id, id, id⟩

theorem State.landUnit_kept (k : Nat) (t : UnitTag) (codes : List Codeword) (s : State) :
    Kept s (State.landUnit k t codes s).2 := by
  unfold State.landUnit; grind [State.writeRuns_kept, memWriteBytes_wf, foldWrites_wf, keptIff]

theorem State.landUnit_kept_of (k : Nat) (t : UnitTag) (codes : List Codeword) (s : State) {x1 t'} (he : State.landUnit k t codes s = (x1, t')) : Kept s t' := by
  have k := State.landUnit_kept k t codes s
  rw [he] at k; exact k

theorem State.vocabAt_kept (w : Site) (body : Bytes) (id : Nat) (s : State) :
    Kept s (State.vocabAt w body id s).2 := by
  unfold State.vocabAt; grind [State.streamError_kept, State.relays_kept, State.streamTable_kept, State.streamTable_kept_of, memWriteBytes_wf, foldWrites_wf, keptIff]

theorem State.vocabAt_kept_of (w : Site) (body : Bytes) (id : Nat) (s : State) {x1 t'} (he : State.vocabAt w body id s = (x1, t')) : Kept s t' := by
  have k := State.vocabAt_kept w body id s
  rw [he] at k; exact k

theorem State.docVocab_kept (w : Site) (body : Bytes) (vocab : Nat) (kind : Nat) (s : State) :
    Kept s (State.docVocab w body vocab kind s).2 := by
  unfold State.docVocab; grind [State.vocabAt_kept, State.vocabAt_kept_of, memWriteBytes_wf, foldWrites_wf, keptIff]

theorem State.docVocab_kept_of (w : Site) (body : Bytes) (vocab : Nat) (kind : Nat) (s : State) {x1 t'} (he : State.docVocab w body vocab kind s = (x1, t')) : Kept s t' := by
  have k := State.docVocab_kept w body vocab kind s
  rw [he] at k; exact k

theorem State.gramBad_kept (w : Site) (id : Nat) (s : State) :
    Kept s (State.gramBad w id s) := by
  unfold State.gramBad; grind [State.streamError_kept, State.relays_kept, memWriteBytes_wf, foldWrites_wf, keptIff]

theorem State.gramLoad_kept (w : Site) (t : TableRef) (v : Bytes) (banks : Nat) (s : State) :
    Kept s (State.gramLoad w t v banks s).2 := by
  unfold State.gramLoad; grind [State.modStream_kept, State.tableBytes_kept, State.tableBytes_kept_of, State.gramBad_kept, memWriteBytes_wf, foldWrites_wf, keptIff]

theorem State.gramLoad_kept_of (w : Site) (t : TableRef) (v : Bytes) (banks : Nat) (s : State) {x1 t'} (he : State.gramLoad w t v banks s = (x1, t')) : Kept s t' := by
  have k := State.gramLoad_kept w t v banks s
  rw [he] at k; exact k

theorem State.gramAt_kept (w : Site) (body : Bytes) (v : Bytes) (s : State) :
    Kept s (State.gramAt w body v s).2 := by
  unfold State.gramAt; grind [State.gramBad_kept, State.gramLoad_kept, State.gramLoad_kept_of, memWriteBytes_wf, foldWrites_wf, keptIff]

theorem State.gramAt_kept_of (w : Site) (body : Bytes) (v : Bytes) (s : State) {x1 t'} (he : State.gramAt w body v s = (x1, t')) : Kept s t' := by
  have k := State.gramAt_kept w body v s
  rw [he] at k; exact k

theorem State.gramLine_kept (w : Site) (g : GramRef) (banks : Nat) (off : Nat) (s : State) :
    Kept s (State.gramLine w g banks off s).2 := by
  unfold State.gramLine; grind [State.modStream_kept, State.tableBytes_kept, State.tableBytes_kept_of, memWriteBytes_wf, foldWrites_wf, keptIff]

theorem State.gramLine_kept_of (w : Site) (g : GramRef) (banks : Nat) (off : Nat) (s : State) {x1 t'} (he : State.gramLine w g banks off s = (x1, t')) : Kept s t' := by
  have k := State.gramLine_kept w g banks off s
  rw [he] at k; exact k

theorem State.gramNext_kept (w : Site) (g : GramRef) (banks : Nat) (st : Nat) (k : Nat) (s : State) :
    Kept s (State.gramNext w g banks st k s).2 := by
  unfold State.gramNext; grind [State.gramBad_kept, State.gramLine_kept, State.gramLine_kept_of, memWriteBytes_wf, foldWrites_wf, keptIff]

theorem State.gramNext_kept_of (w : Site) (g : GramRef) (banks : Nat) (st : Nat) (k : Nat) (s : State) {x1 t'} (he : State.gramNext w g banks st k s = (x1, t')) : Kept s t' := by
  have k := State.gramNext_kept w g banks st k s
  rw [he] at k; exact k

theorem State.gramMask_kept (w : Site) (g : GramRef) (banks : Nat) (st : Nat) (a4 : Nat) (a5 : Nat) (a6 : State) :
    Kept a6 (State.gramMask w g banks st a4 a5 a6).2 := by
  fun_induction State.gramMask w g banks st a4 a5 a6 <;> grind [State.gramLine_kept, State.gramLine_kept_of, memWriteBytes_wf, foldWrites_wf, keptIff]

theorem State.gramMask_kept_of (w : Site) (g : GramRef) (banks : Nat) (st : Nat) (a4 : Nat) (a5 : Nat) (a6 : State) {x1 t'} (he : State.gramMask w g banks st a4 a5 a6 = (x1, t')) : Kept a6 t' := by
  have k := State.gramMask_kept w g banks st a4 a5 a6
  rw [he] at k; exact k

theorem State.gramRow_kept (w : Site) (g : GramRef) (banks : Nat) (st : Nat) (s : State) :
    Kept s (State.gramRow w g banks st s).2 := by
  unfold State.gramRow; grind [State.gramMask_kept, State.gramMask_kept_of, memWriteBytes_wf, foldWrites_wf, keptIff]

theorem State.gramRow_kept_of (w : Site) (g : GramRef) (banks : Nat) (st : Nat) (s : State) {x1 t'} (he : State.gramRow w g banks st s = (x1, t')) : Kept s t' := by
  have k := State.gramRow_kept w g banks st s
  rw [he] at k; exact k

theorem State.gramTokens_kept (w : Site) (g : GramRef) (banks : Nat) (a3 : Nat) (a4 : Nat) (a5 : List Nat) (a6 : State) :
    Kept a6 (State.gramTokens w g banks a3 a4 a5 a6).2 := by
  fun_induction State.gramTokens w g banks a3 a4 a5 a6 <;> grind [State.gramLine_kept, State.gramLine_kept_of, State.gramNext_kept, State.gramNext_kept_of, memWriteBytes_wf, foldWrites_wf, keptIff]

theorem State.gramTokens_kept_of (w : Site) (g : GramRef) (banks : Nat) (a3 : Nat) (a4 : Nat) (a5 : List Nat) (a6 : State) {x1 t'} (he : State.gramTokens w g banks a3 a4 a5 a6 = (x1, t')) : Kept a6 t' := by
  have k := State.gramTokens_kept w g banks a3 a4 a5 a6
  rw [he] at k; exact k

theorem State.docGrammar_kept (w : Site) (e : TextEnv) (kind : Nat) (last : Bool) (x : TextState) (s : State) :
    Kept s (State.docGrammar w e kind last x s).2 := by
  unfold State.docGrammar; grind [State.start_kept, State.gramAt_kept, State.gramAt_kept_of, State.gramTokens_kept, State.gramTokens_kept_of, memWriteBytes_wf, foldWrites_wf, keptIff]

theorem State.docGrammar_kept_of (w : Site) (e : TextEnv) (kind : Nat) (last : Bool) (x : TextState) (s : State) {x1 t'} (he : State.docGrammar w e kind last x s = (x1, t')) : Kept s t' := by
  have k := State.docGrammar_kept w e kind last x s
  rw [he] at k; exact k

theorem State.textBuffer_kept (w : Site) (body : Bytes) (vocab : Nat) (kind : Nat) (x : Option TextState) (bs : Bytes) (last : Bool) (s : State) :
    Kept s (State.textBuffer w body vocab kind x bs last s).2 := by
  unfold State.textBuffer; grind [State.start_kept, State.docVocab_kept, State.docVocab_kept_of, State.docGrammar_kept, State.docGrammar_kept_of, memWriteBytes_wf, foldWrites_wf, keptIff]

theorem State.textBuffer_kept_of (w : Site) (body : Bytes) (vocab : Nat) (kind : Nat) (x : Option TextState) (bs : Bytes) (last : Bool) (s : State) {x1 t'} (he : State.textBuffer w body vocab kind x bs last s = (x1, t')) : Kept s t' := by
  have k := State.textBuffer_kept w body vocab kind x bs last s
  rw [he] at k; exact k

theorem State.sendRun_kept (bay : Nat) (body : Bytes) (tag : UnitTag) (o : DocOut) (s : State) :
    Kept s (State.sendRun bay body tag o s) := by
  unfold State.sendRun; grind [State.putUnit_kept, State.sendUnit_kept, memWriteBytes_wf, foldWrites_wf, keptIff]

theorem State.textUnit_kept (bay : Nat) (mortise : Nat) (u : DataUnit) (s : State) :
    Kept s (State.textUnit bay mortise u s) := by
  unfold State.textUnit; grind [State.sendUnit_kept, State.rejectAt_kept, State.holdUnit_kept, State.textBuffer_kept, State.textBuffer_kept_of, State.sendRun_kept, memWriteBytes_wf, foldWrites_wf, keptIff]

theorem State.dispatchSample_kept (f : Nat) (i : Nat) (kind : Nat) (s : State) :
    Kept s (State.dispatchSample f i kind s) := by
  unfold State.dispatchSample; grind [State.setStream_kept, memWriteBytes_wf, foldWrites_wf, keptIff]

theorem State.sampleRunStart_kept (f : Nat) (i : Nat) (s : State) :
    Kept s (State.sampleRunStart f i s) := by
  unfold State.sampleRunStart; grind [State.setStream_kept, memWriteBytes_wf, foldWrites_wf, keptIff]

theorem State.docOpen_kept (f : Nat) (i : Nat) (vocab : Nat) (kind : Nat) (s : State) :
    Kept s (State.docOpen f i vocab kind s) := by
  unfold State.docOpen; grind [State.modStream_kept, State.start_kept, State.dispatchSample_kept, State.sampleRunStart_kept, memWriteBytes_wf, foldWrites_wf, keptIff]

theorem State.docReject_kept (f : Nat) (i : Nat) (code : Nat) (more : Bool) (s : State) :
    Kept s (State.docReject f i code more s) := by
  unfold State.docReject; grind [State.setStream_kept, State.sampleCount_kept, State.sendReject_kept, memWriteBytes_wf, foldWrites_wf, keptIff]

theorem State.docTake_kept (f : Nat) (i : Nat) (bs : Bytes) (last : Bool) (s : State) :
    Kept s (State.docTake f i bs last s).2 := by
  unfold State.docTake; grind [State.modStream_kept, State.textBuffer_kept, State.textBuffer_kept_of, State.sendRun_kept, State.docReject_kept, memWriteBytes_wf, foldWrites_wf, keptIff]

theorem State.docTake_kept_of (f : Nat) (i : Nat) (bs : Bytes) (last : Bool) (s : State) {x1 t'} (he : State.docTake f i bs last s = (x1, t')) : Kept s t' := by
  have k := State.docTake_kept f i bs last s
  rw [he] at k; exact k

theorem State.runEntry_kept (op : Nat) (f : Nat) (q : Nat) (slot : Nat) (v : MemView) (body : Job → Bytes → State → State) (s : State) (hb : ∀ j b s, Kept s (body j b s)) :
    ∀ t, State.runEntry op f q slot v body s = .next t → Kept s t := by
  intro t h
  unfold State.runEntry at h
  refine (State.seeMem_kept v s).trans (State.turn_kept (fun t h => ?_) t h)
  split at h
  · cases h; exact .refl _
  · split at h
    · split at h <;> cases h
      · exact State.jobDone_kept ..
      · exact State.entryDone_kept ..
    · cases h; exact hb _ _ _

theorem State.deliverHead_kept (f : Nat) (i : Nat) (time : Option Nat) (s : State) :
    Kept s (State.deliverHead f i time s) := by
  unfold State.deliverHead; grind [State.wakeSamples_kept, State.releaseHead_kept, State.finishDrain_kept, State.pump_kept, memWriteBytes_wf, foldWrites_wf, keptIff]

theorem State.openAt_kept (f : Nat) (i : Nat) (gidx : Nat) (x : Stream) (s : State) :
    Kept s (State.openAt f i gidx x s) := ⟨rfl, rfl, id, id, id⟩

theorem State.streamOpen_kept (f : Nat) (q : Nat) (j : Job) (a : Bytes) (s : State) :
    Kept s (State.streamOpen f q j a s) := by
  unfold State.streamOpen; grind [State.jobDone_kept, State.openAt_kept, memWriteBytes_wf, foldWrites_wf, keptIff]

theorem execStreamOpen_kept (fn : BitVec 6) (q : BitVec 9) (slot : BitVec 16) (v : MemView) (s : State) :
    ∀ t, execStreamOpen fn q slot v s = .next t → Kept s t := State.runEntry_kept _ _ _ _ _ _ s (fun j b s => State.streamOpen_kept _ _ j b s)

theorem State.stopDispatch_kept (f : Nat) (i : Nat) (s : State) :
    Kept s (State.stopDispatch f i s) := by
  unfold State.stopDispatch; grind [State.modStream_kept, State.dropReqs_kept, State.sendFlush_kept, memWriteBytes_wf, foldWrites_wf, keptIff]

theorem State.endDoc_kept (f : Nat) (i : Nat) (s : State) :
    Kept s (State.endDoc f i s).2 := by
  unfold State.endDoc; grind [State.modStream_kept, State.logTo_kept, State.docTake_kept, State.docTake_kept_of, memWriteBytes_wf, foldWrites_wf, keptIff]

theorem State.endDoc_kept_of (f : Nat) (i : Nat) (s : State) {x1 t'} (he : State.endDoc f i s = (x1, t')) : Kept s t' := by
  have k := State.endDoc_kept f i s
  rw [he] at k; exact k

theorem State.streamClose_kept (f : Nat) (q : Nat) (j : Job) (bs : Bytes) (s : State) :
    Kept s (State.streamClose f q j bs s) := by
  unfold State.streamClose; grind [State.entryDone_kept, State.entryWaits_kept, State.finishDrain_kept, State.abortStream_kept, State.pump_kept, State.stopDispatch_kept, State.endDoc_kept, State.endDoc_kept_of, memWriteBytes_wf, foldWrites_wf, keptIff]

theorem execStreamClose_kept (fn : BitVec 6) (q : BitVec 9) (slot : BitVec 16) (v : MemView) (s : State) :
    ∀ t, execStreamClose fn q slot v s = .next t → Kept s t := State.runEntry_kept _ _ _ _ _ _ s (fun j b s => State.streamClose_kept _ _ j b s)

theorem State.listKey_kept (f : Nat) (slot : Nat) (s : State) :
    Kept s (State.listKey f slot s).2 := by
  unfold State.listKey; grind [State.ownedSlot_kept, State.ownedSlot_kept_of, memWriteBytes_wf, foldWrites_wf, keptIff]

theorem State.listKey_kept_of (f : Nat) (slot : Nat) (s : State) {x1 t'} (he : State.listKey f slot s = (x1, t')) : Kept s t' := by
  have k := State.listKey_kept f slot s
  rw [he] at k; exact k

theorem State.shardList_kept (f : Nat) (q : Nat) (j : Job) (bs : Bytes) (s : State) :
    Kept s (State.shardList f q j bs s) := by
  unfold State.shardList; grind [State.modStream_kept, State.sysRead_kept, State.sysRead_kept_of, State.entryDone_kept, State.listKey_kept, State.listKey_kept_of, memWriteBytes_wf, foldWrites_wf, keptIff]

theorem execShardList_kept (fn : BitVec 6) (q : BitVec 9) (slot : BitVec 16) (v : MemView) (s : State) :
    ∀ t, execShardList fn q slot v s = .next t → Kept s t := State.runEntry_kept _ _ _ _ _ _ s (fun j b s => State.shardList_kept _ _ j b s)

theorem State.sampleRefused_kept (f : Nat) (q : Nat) (i : Nat) (j : Job) (bs : Bytes) (code : Nat) (detail : Nat) (s : State) :
    Kept s (State.sampleRefused f q i j bs code detail s) := by
  unfold State.sampleRefused; grind [State.entryDone_kept, State.pump_kept, State.docReject_kept, memWriteBytes_wf, foldWrites_wf, keptIff]

theorem State.docBuffer_kept (f : Nat) (q : Nat) (i : Nat) (j : Job) (bs : Bytes) (d : OpenDoc) (data : Bytes) (s : State) :
    Kept s (State.docBuffer f q i j bs d data s) := by
  unfold State.docBuffer; grind [State.entryDone_kept, State.entryWaits_kept, State.pump_kept, State.docTake_kept, State.docTake_kept_of, memWriteBytes_wf, foldWrites_wf, keptIff]

theorem State.sampleJob_kept (f : Nat) (q : Nat) (i : Nat) (j : Job) (bs : Bytes) (d : OpenDoc) (s : State) :
    Kept s (State.sampleJob f q i j bs d s) := by
  unfold State.sampleJob; grind [State.sysRead_kept, State.sysRead_kept_of, State.streamResp_kept, State.relays_kept, State.sampleRefused_kept, State.docBuffer_kept, memWriteBytes_wf, foldWrites_wf, keptIff]

theorem State.sampleEntry_kept (f : Nat) (q : Nat) (j : Job) (bs : Bytes) (s : State) :
    Kept s (State.sampleEntry f q j bs s) := by
  unfold State.sampleEntry; grind [State.entryDone_kept, State.docOpen_kept, State.sampleJob_kept, memWriteBytes_wf, foldWrites_wf, keptIff]

theorem execSample_kept (fn : BitVec 6) (q : BitVec 9) (slot : BitVec 16) (v : MemView) (s : State) :
    ∀ t, execSample fn q slot v s = .next t → Kept s t := State.runEntry_kept _ _ _ _ _ _ s (fun j b s => State.sampleEntry_kept _ _ j b s)

theorem State.poolFill_kept (f : Nat) (q : Nat) (j : Job) (bs : Bytes) (s : State) :
    Kept s (State.poolFill f q j bs s) := by
  unfold State.poolFill; (try dsimp only); (repeat' split) <;> grind +splitImp [State.modPool_kept, State.sysRead_kept, State.sysRead_kept_of, State.watchPools_kept, State.addHandles_kept, State.entryDone_kept, memWriteBytes_wf, foldWrites_wf, keptIff, State.forEach_kept, foldl_kept]

theorem execPoolFill_kept (fn : BitVec 6) (q : BitVec 9) (slot : BitVec 16) (v : MemView) (s : State) :
    ∀ t, execPoolFill fn q slot v s = .next t → Kept s t := State.runEntry_kept _ _ _ _ _ _ s (fun j b s => State.poolFill_kept _ _ j b s)

theorem State.bindGroup_kept (f : Nat) (q : Nat) (j : Job) (bs : Bytes) (s : State) :
    Kept s (State.bindGroup f q j bs s) := by
  unfold State.bindGroup; grind +splitImp [State.modStream_kept, State.setGroup_kept, State.entryDone_kept, memWriteBytes_wf, foldWrites_wf, keptIff, State.forEach_kept, foldl_kept]

theorem execLockGroup_kept (fn : BitVec 6) (q : BitVec 9) (slot : BitVec 16) (v : MemView) (s : State) :
    ∀ t, execLockGroup fn q slot v s = .next t → Kept s t := State.runEntry_kept _ _ _ _ _ _ s (fun j b s => State.bindGroup_kept _ _ j b s)

theorem State.snapshotEntry_kept (f : Nat) (q : Nat) (j : Job) (bs : Bytes) (s : State) :
    Kept s (State.snapshotEntry f q j bs s) := by
  unfold State.snapshotEntry; grind [State.entryDone_kept, State.armSnap_kept, memWriteBytes_wf, foldWrites_wf, keptIff]

theorem execSnapshot_kept (fn : BitVec 6) (q : BitVec 9) (slot : BitVec 16) (v : MemView) (s : State) :
    ∀ t, execSnapshot fn q slot v s = .next t → Kept s t := State.runEntry_kept _ _ _ _ _ _ s (fun j b s => State.snapshotEntry_kept _ _ j b s)

theorem State.reissueReads_kept (f : Nat) (i : Nat) (s : State) :
    Kept s (State.reissueReads f i s) := by
  unfold State.reissueReads; grind +splitImp [State.pushReq_kept, memWriteBytes_wf, foldWrites_wf, keptIff, State.forEach_kept, foldl_kept]

theorem State.reissueBlocks_kept (f : Nat) (i : Nat) (s : State) :
    Kept s (State.reissueBlocks f i s) := by
  unfold State.reissueBlocks; grind +splitImp [State.pushReq_kept, memWriteBytes_wf, foldWrites_wf, keptIff, State.forEach_kept, foldl_kept]

theorem State.resumeStream_kept (f : Nat) (i : Nat) (s : State) :
    Kept s (State.resumeStream f i s) := by
  unfold State.resumeStream; grind [State.modFunc_kept, State.setStream_kept, State.watchPools_kept, State.faultRecord_kept, State.relays_kept, State.rearmStream_kept, State.finishDrains_kept, State.pump_kept, State.reissueReads_kept, State.reissueBlocks_kept, memWriteBytes_wf, foldWrites_wf, keptIff]

theorem State.relayReturn_kept (f : Nat) (value : Nat) (s : State) :
    Kept s (State.relayReturn f value s) := by
  unfold State.relayReturn; grind [State.setStream_kept, State.logTo_kept, State.relays_kept, State.finishDrains_kept, State.pump_kept, memWriteBytes_wf, foldWrites_wf, keptIff]

theorem State.finishXfer_kept (f : Nat) (i : Nat) (s : State) :
    Kept s (State.finishXfer f i s) := by
  unfold State.finishXfer; grind [State.setStream_kept, memWriteBytes_wf, foldWrites_wf, keptIff]

theorem execBatchDeliver_kept (fn : BitVec 6) (stream : BitVec 10) (v : MemView) (s : State) :
    ∀ t, execBatchDeliver fn stream v s = .next t → Kept s t := by
  intro t h
  unfold execBatchDeliver at h; (try dsimp only at h)
  refine (State.seeMem_kept v s).trans (State.turn_kept (fun t h => ?_) t h)
  grind [State.seeMem_kept, State.turn_kept, State.finishDrain_kept, State.pump_kept, State.deliverHead_kept, State.finishXfer_kept, memWriteBytes_wf, foldWrites_wf, keptIff]

theorem execLockGroupRelease_kept (group : BitVec 6) (v : MemView) (s : State) :
    ∀ t, execLockGroupRelease group v s = .next t → Kept s t := by
  intro t h
  unfold execLockGroupRelease at h; (try dsimp only at h)
  refine (State.seeMem_kept v s).trans (State.turn_kept (fun t h => ?_) t h)
  grind +splitImp [State.seeMem_kept, State.turn_kept, State.deliverHead_kept, memWriteBytes_wf, foldWrites_wf, keptIff, State.forEach_kept, foldl_kept]

theorem execScheduleStart_kept (fn : BitVec 6) (stream : BitVec 10) (v : MemView) (s : State) :
    ∀ t, execScheduleStart fn stream v s = .next t → Kept s t := by
  intro t h
  unfold execScheduleStart at h; (try dsimp only at h)
  refine (State.seeMem_kept v s).trans (State.turn_kept (fun t h => ?_) t h)
  grind [State.setStream_kept, State.seeMem_kept, State.turn_kept, State.abortStream_kept, memWriteBytes_wf, foldWrites_wf, keptIff]

theorem State.beginEpoch_kept (f : Nat) (i : Nat) (base : Nat) (epoch : Nat) (first : Bool) (list : List Shard) (final : Bool) (live : Bool) (s : State) :
    Kept s (State.beginEpoch f i base epoch first list final live s) := by
  unfold State.beginEpoch; grind [State.setStream_kept, memWriteBytes_wf, foldWrites_wf, keptIff]

theorem State.endSource_kept (f : Nat) (i : Nat) (s : State) :
    Kept s (State.endSource f i s) := by
  unfold State.endSource; grind [State.modStream_kept, State.finishDrain_kept, State.pump_kept, memWriteBytes_wf, foldWrites_wf, keptIff]

theorem execEpochStart_kept (fn : BitVec 6) (stream : BitVec 10) (v : MemView) (s : State) :
    ∀ t, execEpochStart fn stream v s = .next t → Kept s t := by
  intro t h
  unfold execEpochStart at h; (try dsimp only at h)
  refine (State.seeMem_kept v s).trans (State.turn_kept (fun t h => ?_) t h)
  (try dsimp only at h)
  (repeat' split at h) <;> (first | contradiction | (injection h; subst t)) <;> grind +splitImp [State.seeMem_kept, State.turn_kept, State.beginEpoch_kept, State.endSource_kept, memWriteBytes_wf, foldWrites_wf, keptIff, State.forEach_kept, foldl_kept]

theorem State.headerTraffic_kept (w : Party) (sh : Shard) (s : State) :
    Kept s (State.headerTraffic w sh s) := by
  unfold State.headerTraffic; grind [State.sysRead_kept, State.sysRead_kept_of, memWriteBytes_wf, foldWrites_wf, keptIff]

theorem State.shardStop_kept (f : Nat) (i : Nat) (e : ShardStop) (s : State) :
    Kept s (State.shardStop f i e s) := by
  unfold State.shardStop; grind [State.streamError_kept, State.streamResp_kept, State.relays_kept, memWriteBytes_wf, foldWrites_wf, keptIff]

theorem State.findElem_kept (f : Nat) (i : Nat) (body : Bytes) (a3 : Nat) (a4 : Nat) (a5 : Nat) (a6 : State) :
    Kept a6 (State.findElem f i body a3 a4 a5 a6).2 := by
  fun_induction State.findElem f i body a3 a4 a5 a6 <;> grind [State.setStream_kept, State.modStream_kept, State.sysRead_kept, State.sysRead_kept_of, State.headerTraffic_kept, State.shardStop_kept, memWriteBytes_wf, foldWrites_wf, keptIff]

theorem State.findElem_kept_of (f : Nat) (i : Nat) (body : Bytes) (a3 : Nat) (a4 : Nat) (a5 : Nat) (a6 : State) {x1 t'} (he : State.findElem f i body a3 a4 a5 a6 = (x1, t')) : Kept a6 t' := by
  have k := State.findElem_kept f i body a3 a4 a5 a6
  rw [he] at k; exact k

theorem State.settleStop_kept (f : Nat) (i : Nat) (s : State) :
    Kept s (State.settleStop f i s) := by
  unfold State.settleStop; grind [State.setStream_kept, State.sendFlush_kept, State.pump_kept, memWriteBytes_wf, foldWrites_wf, keptIff]

theorem State.passStop_kept (f : Nat) (i : Nat) (old : Nat) (s : State) :
    Kept s (State.passStop f i old s) := by
  unfold State.passStop; grind [State.sendFlush_kept, memWriteBytes_wf, foldWrites_wf, keptIff]

theorem State.putWindow_kept (x : Stream) (win : Nat) (t : List Nat) (s : State) :
    Kept s (State.putWindow x win t s) := by
  unfold State.putWindow; grind +splitImp [State.setWord_kept, memWriteBytes_wf, foldWrites_wf, keptIff, State.forEach_kept, foldl_kept]

theorem execShuffleWindowBuild_kept (fn : BitVec 6) (stream : BitVec 10) (v : MemView) (s : State) :
    ∀ t, execShuffleWindowBuild fn stream v s = .next t → Kept s t := by
  intro t h
  unfold execShuffleWindowBuild at h; (try dsimp only at h)
  refine (State.seeMem_kept v s).trans (State.turn_kept (fun t h => ?_) t h)
  grind +splitImp [State.setStream_kept, State.seeMem_kept, State.turn_kept, State.findElem_kept, State.findElem_kept_of, State.settleStop_kept, State.putWindow_kept, memWriteBytes_wf, foldWrites_wf, keptIff, State.forEach_kept, foldl_kept]

theorem State.intakeReject_kept (f : Nat) (i : Nat) (bay : Nat) (code : Nat) (detail : Nat) (s : State) :
    Kept s (State.intakeReject f i bay code detail s) := by
  unfold State.intakeReject; grind [State.modStream_kept, State.rejectSample_kept, State.pump_kept, State.passStop_kept, memWriteBytes_wf, foldWrites_wf, keptIff]

theorem State.intakeHalt_kept (f : Nat) (i : Nat) (code : Nat) (s : State) :
    Kept s (State.intakeHalt f i code s) := by
  unfold State.intakeHalt; grind [State.modStream_kept, State.streamError_kept, State.relays_kept, memWriteBytes_wf, foldWrites_wf, keptIff]

theorem State.intakeRelease_kept (f : Nat) (i : Nat) (bay : Nat) (body : Bytes) (parts : List (Nat × Bytes)) (s : State) :
    Kept s (State.intakeRelease f i bay body parts s) := by
  unfold State.intakeRelease; grind +splitImp [State.modStream_kept, State.pump_kept, State.putUnit_kept, State.dispatchSample_kept, State.passStop_kept, memWriteBytes_wf, foldWrites_wf, keptIff, State.forEach_kept, foldl_kept]

theorem State.boundKey_kept (f : Nat) (slot : Nat) (gen : Nat) (s : State) :
    Kept s (State.boundKey f slot gen s).2 := by
  unfold State.boundKey; grind [State.cryptoError_kept, State.ownedSlot_kept, State.ownedSlot_kept_of, memWriteBytes_wf, foldWrites_wf, keptIff]

theorem State.boundKey_kept_of (f : Nat) (slot : Nat) (gen : Nat) (s : State) {x1 t'} (he : State.boundKey f slot gen s = (x1, t')) : Kept s t' := by
  have k := State.boundKey_kept f slot gen s
  rw [he] at k; exact k

end Sys2Proof.Machine
end

