-- ==== Sys2Proof/Laws/KeptF.lean ====
section
/-! SUPPORT. Kept, for each state-changing definition of Intake, Copy, Movers, Returns, Context, Image, Judge. -/

namespace Sys2Proof.Machine

set_option Elab.async false

theorem State.checkStave_kept (f : Nat) (body : Bytes) (sh : Shard) (hd : Bytes) (k : Nat) (off : Nat) (poison : Bool) (rec_ : Bytes) (s : State) :
    Kept s (State.checkStave f body sh hd k off poison rec_ s).2 := by
  unfold State.checkStave; grind [State.boundKey_kept, State.boundKey_kept_of, memWriteBytes_wf, foldWrites_wf, keptIff]

theorem State.checkStave_kept_of (f : Nat) (body : Bytes) (sh : Shard) (hd : Bytes) (k : Nat) (off : Nat) (poison : Bool) (rec_ : Bytes) (s : State) {x1 t'} (he : State.checkStave f body sh hd k off poison rec_ s = (x1, t')) : Kept s t' := by
  have k := State.checkStave_kept f body sh hd k off poison rec_ s
  rw [he] at k; exact k

theorem State.authFailed_kept (f : Nat) (i : Nat) (bay : Nat) (s : State) :
    Kept s (State.authFailed f i bay s) := by
  unfold State.authFailed; grind [State.setStream_kept, State.count_kept, State.intakeReject_kept, State.intakeHalt_kept, memWriteBytes_wf, foldWrites_wf, keptIff]

theorem State.applyVerdict_kept (f : Nat) (i : Nat) (bay : Nat) (kind : Nat) (body : Bytes) (v : Verdict) (s : State) :
    Kept s (State.applyVerdict f i bay kind body v s) := by
  unfold State.applyVerdict; grind [State.intakeReject_kept, State.intakeHalt_kept, State.intakeRelease_kept, State.authFailed_kept, memWriteBytes_wf, foldWrites_wf, keptIff]

theorem State.judgeRecord_kept (f : Nat) (i : Nat) (body : Bytes) (sh : Shard) (port : Nat) (k : Nat) (m : Member) (poison : Bool) (rec_ : Bytes) (s : State) :
    Kept s (State.judgeRecord f i body sh port k m poison rec_ s) := by
  unfold State.judgeRecord; grind [State.modStream_kept, State.modBay_kept, State.count_kept, State.start_kept, State.holdBuffers_kept, State.holdBuffers_kept_of, State.dropBuffers_kept, State.intakeReject_kept, State.intakeRelease_kept, State.checkStave_kept, State.checkStave_kept_of, State.applyVerdict_kept, memWriteBytes_wf, foldWrites_wf, keptIff]

theorem State.startRecord_kept (f : Nat) (i : Nat) (body : Bytes) (sh : Shard) (port : Nat) (k : Nat) (m : Member) (content : Option Bytes) (s : State) :
    Kept s (State.startRecord f i body sh port k m content s) := by
  unfold State.startRecord; grind [State.modStream_kept, State.count_kept, State.engineWorks_kept, State.start_kept, State.sysRead_kept, State.sysRead_kept_of, State.streamResp_kept, State.relays_kept, State.reissueReads_kept, State.intakeReject_kept, State.judgeRecord_kept, memWriteBytes_wf, foldWrites_wf, keptIff]

theorem State.intakeStep_kept (f : Nat) (i : Nat) (body : Bytes) (s : State) :
    Kept s (State.intakeStep f i body s) := by
  unfold State.intakeStep; (try dsimp only); (repeat' split) <;> grind +splitImp [State.complete_kept, State.cryptoError_kept, State.shardStop_kept, State.findElem_kept, State.findElem_kept_of, State.settleStop_kept, State.intakeReject_kept, State.intakeHalt_kept, State.judgeRecord_kept, State.startRecord_kept, memWriteBytes_wf, foldWrites_wf, keptIff, State.forEach_kept, foldl_kept]

theorem execIntakeRecord_kept (fn : BitVec 6) (stream : BitVec 10) (v : MemView) (s : State) :
    ∀ t, execIntakeRecord fn stream v s = .next t → Kept s t := by
  intro t h
  unfold execIntakeRecord at h; (try dsimp only at h)
  refine (State.seeMem_kept v s).trans (State.turn_kept (fun t h => ?_) t h)
  grind [State.seeMem_kept, State.turn_kept, State.settleStop_kept, State.intakeStep_kept, memWriteBytes_wf, foldWrites_wf, keptIff]

theorem State.copyPlain_kept (f : Nat) (a1 : Nat) (a2 : Nat) (a3 : Nat) (a4 : Nat) (a5 : State) :
    Kept a5 (State.copyPlain f a1 a2 a3 a4 a5).2 := by
  fun_induction State.copyPlain f a1 a2 a3 a4 a5 <;> grind [State.sysRead_kept, State.sysRead_kept_of, State.sysWrite_kept, State.sysWrite_kept_of, memWriteBytes_wf, foldWrites_wf, keptIff]

theorem State.copyPlain_kept_of (f : Nat) (a1 : Nat) (a2 : Nat) (a3 : Nat) (a4 : Nat) (a5 : State) {x1 t'} (he : State.copyPlain f a1 a2 a3 a4 a5 = (x1, t')) : Kept a5 t' := by
  have k := State.copyPlain_kept f a1 a2 a3 a4 a5
  rw [he] at k; exact k

theorem State.copyOut_kept (f : Nat) (dst : Nat) (bs : Bytes) (s : State) :
    Kept s (State.copyOut f dst bs s).2 := by
  unfold State.copyOut; grind [State.writeSpan_kept, State.writeSpan_kept_of, memWriteBytes_wf, foldWrites_wf, keptIff]

theorem State.copyOut_kept_of (f : Nat) (dst : Nat) (bs : Bytes) (s : State) {x1 t'} (he : State.copyOut f dst bs s = (x1, t')) : Kept s t' := by
  have k := State.copyOut_kept f dst bs s
  rw [he] at k; exact k

theorem State.copyXts_kept (f : Nat) (enc : Bool) (key : Bytes) (a3 : Nat) (a4 : Nat) (a5 : Nat) (a6 : Nat) (a7 : State) :
    Kept a7 (State.copyXts f enc key a3 a4 a5 a6 a7).2 := by
  fun_induction State.copyXts f enc key a3 a4 a5 a6 a7 <;> grind [State.readSpan_kept, State.readSpan_kept_of, State.copyOut_kept, State.copyOut_kept_of, memWriteBytes_wf, foldWrites_wf, keptIff]

theorem State.copyXts_kept_of (f : Nat) (enc : Bool) (key : Bytes) (a3 : Nat) (a4 : Nat) (a5 : Nat) (a6 : Nat) (a7 : State) {x1 t'} (he : State.copyXts f enc key a3 a4 a5 a6 a7 = (x1, t')) : Kept a7 t' := by
  have k := State.copyXts_kept f enc key a3 a4 a5 a6 a7
  rw [he] at k; exact k

theorem State.copyRecords_kept (f : Nat) (decrypt : Bool) (hd : Bytes) (key : Option Bytes) (src : Nat) (dst : Nat) (a6 : Nat) (a7 : List Member) (a8 : State) :
    Kept a8 (State.copyRecords f decrypt hd key src dst a6 a7 a8).2 := by
  fun_induction State.copyRecords f decrypt hd key src dst a6 a7 a8 <;> grind [State.start_kept, State.readSpan_kept, State.readSpan_kept_of, State.copyOut_kept, State.copyOut_kept_of, memWriteBytes_wf, foldWrites_wf, keptIff]

theorem State.copyRecords_kept_of (f : Nat) (decrypt : Bool) (hd : Bytes) (key : Option Bytes) (src : Nat) (dst : Nat) (a6 : Nat) (a7 : List Member) (a8 : State) {x1 t'} (he : State.copyRecords f decrypt hd key src dst a6 a7 a8 = (x1, t')) : Kept a8 t' := by
  have k := State.copyRecords_kept f decrypt hd key src dst a6 a7 a8
  rw [he] at k; exact k

theorem State.copyShard_kept (f : Nat) (slot : Nat) (decrypt : Bool) (src : Nat) (dst : Nat) (n : Nat) (s : State) :
    Kept s (State.copyShard f slot decrypt src dst n s).2 := by
  unfold State.copyShard; (try dsimp only); (repeat' split) <;> grind +splitImp [State.sysRead_kept, State.sysRead_kept_of, State.cryptoError_kept, State.ownedSlot_kept, State.ownedSlot_kept_of, State.copyPlain_kept, State.copyPlain_kept_of, State.copyOut_kept, State.copyOut_kept_of, State.copyRecords_kept, State.copyRecords_kept_of, memWriteBytes_wf, foldWrites_wf, keptIff, State.forEach_kept, foldl_kept]

theorem State.copyShard_kept_of (f : Nat) (slot : Nat) (decrypt : Bool) (src : Nat) (dst : Nat) (n : Nat) (s : State) {x1 t'} (he : State.copyShard f slot decrypt src dst n s = (x1, t')) : Kept s t' := by
  have k := State.copyShard_kept f slot decrypt src dst n s
  rw [he] at k; exact k

theorem State.copyMode_kept (f : Nat) (mode : Nat) (src : Nat) (dst : Nat) (n : Nat) (slot : Nat) (tweak : Nat) (s : State) :
    Kept s (State.copyMode f mode src dst n slot tweak s).2 := by
  unfold State.copyMode; grind [State.cryptoError_kept, State.ownedSlot_kept, State.ownedSlot_kept_of, State.copyPlain_kept, State.copyPlain_kept_of, State.copyXts_kept, State.copyXts_kept_of, State.copyShard_kept, State.copyShard_kept_of, memWriteBytes_wf, foldWrites_wf, keptIff]

theorem State.copyMode_kept_of (f : Nat) (mode : Nat) (src : Nat) (dst : Nat) (n : Nat) (slot : Nat) (tweak : Nat) (s : State) {x1 t'} (he : State.copyMode f mode src dst n slot tweak s = (x1, t')) : Kept s t' := by
  have k := State.copyMode_kept f mode src dst n slot tweak s
  rw [he] at k; exact k

theorem State.copyEntry_kept (f : Nat) (q : Nat) (j : Job) (bs : Bytes) (s : State) :
    Kept s (State.copyEntry f q j bs s) := by
  unfold State.copyEntry; (try dsimp only); (repeat' split) <;> grind +splitImp [State.entryDone_kept, State.copyMode_kept, State.copyMode_kept_of, memWriteBytes_wf, foldWrites_wf, keptIff, State.forEach_kept, foldl_kept]

theorem execCopy_kept (fn : BitVec 6) (q : BitVec 9) (slot : BitVec 16) (v : MemView) (s : State) :
    ∀ t, execCopy fn q slot v s = .next t → Kept s t := State.runEntry_kept _ _ _ _ _ _ s (fun j b s => State.copyEntry_kept _ _ j b s)

theorem State.readRows_kept (w : Party) (d : Bytes) (base : Nat) (c : List Nat) (a4 : List Nat) (a5 : State) :
    Kept a5 (State.readRows w d base c a4 a5).2 := by
  fun_induction State.readRows w d base c a4 a5 <;> grind [State.readSpan_kept, State.readSpan_kept_of, memWriteBytes_wf, foldWrites_wf, keptIff]

theorem State.readRows_kept_of (w : Party) (d : Bytes) (base : Nat) (c : List Nat) (a4 : List Nat) (a5 : State) {x1 t'} (he : State.readRows w d base c a4 a5 = (x1, t')) : Kept a5 t' := by
  have k := State.readRows_kept w d base c a4 a5
  rw [he] at k; exact k

theorem State.readBlock_kept (w : Party) (d : Bytes) (tab : Bytes) (c : List Nat) (s : State) :
    Kept s (State.readBlock w d tab c s).2 := by
  unfold State.readBlock; grind [State.readRows_kept, State.readRows_kept_of, memWriteBytes_wf, foldWrites_wf, keptIff]

theorem State.readBlock_kept_of (w : Party) (d : Bytes) (tab : Bytes) (c : List Nat) (s : State) {x1 t'} (he : State.readBlock w d tab c s = (x1, t')) : Kept s t' := by
  have k := State.readBlock_kept w d tab c s
  rw [he] at k; exact k

theorem State.writeRows_kept (w : Party) (d : Bytes) (base : Nat) (c : List Nat) (bs : Bytes) (a5 : List Nat) (a6 : State) :
    Kept a6 (State.writeRows w d base c bs a5 a6).2 := by
  fun_induction State.writeRows w d base c bs a5 a6 <;> grind [State.writeSpan_kept, State.writeSpan_kept_of, memWriteBytes_wf, foldWrites_wf, keptIff]

theorem State.writeRows_kept_of (w : Party) (d : Bytes) (base : Nat) (c : List Nat) (bs : Bytes) (a5 : List Nat) (a6 : State) {x1 t'} (he : State.writeRows w d base c bs a5 a6 = (x1, t')) : Kept a6 t' := by
  have k := State.writeRows_kept w d base c bs a5 a6
  rw [he] at k; exact k

theorem State.oobDrop_kept (f : Nat) (s : State) :
    Kept s (State.oobDrop f s) := ⟨rfl, rfl, id, id, id⟩

theorem State.writeBlock_kept (w : Party) (f : Nat) (self : Nat) (d : Bytes) (tab : Bytes) (c : List Nat) (bs : Bytes) (s : State) :
    Kept s (State.writeBlock w f self d tab c bs s).2 := by
  unfold State.writeBlock; grind [State.writeRows_kept, State.writeRows_kept_of, State.oobDrop_kept, memWriteBytes_wf, foldWrites_wf, keptIff]

theorem State.writeBlock_kept_of (w : Party) (f : Nat) (self : Nat) (d : Bytes) (tab : Bytes) (c : List Nat) (bs : Bytes) (s : State) {x1 t'} (he : State.writeBlock w f self d tab c bs s = (x1, t')) : Kept s t' := by
  have k := State.writeBlock_kept w f self d tab c bs s
  rw [he] at k; exact k

theorem State.moveBlock_kept (w : Party) (f : Nat) (self : Nat) (src : Bytes) (dst : Bytes) (tsrc : Bytes) (tdst : Bytes) (from_ : Option (List Nat)) (to_ : Option (List Nat)) (last : Option (List Nat × Bytes)) (s : State) :
    Kept s (State.moveBlock w f self src dst tsrc tdst from_ to_ last s).2.2 := by
  unfold State.moveBlock; grind [State.readBlock_kept, State.readBlock_kept_of, State.oobDrop_kept, State.writeBlock_kept, State.writeBlock_kept_of, memWriteBytes_wf, foldWrites_wf, keptIff]

theorem State.moveBlock_kept_of (w : Party) (f : Nat) (self : Nat) (src : Bytes) (dst : Bytes) (tsrc : Bytes) (tdst : Bytes) (from_ : Option (List Nat)) (to_ : Option (List Nat)) (last : Option (List Nat × Bytes)) (s : State) {x1 x2 t'} (he : State.moveBlock w f self src dst tsrc tdst from_ to_ last s = (x1, x2, t')) : Kept s t' := by
  have k := State.moveBlock_kept w f self src dst tsrc tdst from_ to_ last s
  rw [he] at k; exact k

theorem State.moveBlocks_kept (w : Party) (f : Nat) (self : Nat) (src : Bytes) (dst : Bytes) (tsrc : Bytes) (tdst : Bytes) (ends : Nat → Option (List Nat) × Option (List Nat)) (a8 : Nat) (a9 : Nat) (a10 : Option (List Nat × Bytes)) (a11 : State) :
    Kept a11 (State.moveBlocks w f self src dst tsrc tdst ends a8 a9 a10 a11).2.2 := by
  fun_induction State.moveBlocks w f self src dst tsrc tdst ends a8 a9 a10 a11 <;> grind [State.moveBlock_kept, State.moveBlock_kept_of, memWriteBytes_wf, foldWrites_wf, keptIff]

theorem State.moveBlocks_kept_of (w : Party) (f : Nat) (self : Nat) (src : Bytes) (dst : Bytes) (tsrc : Bytes) (tdst : Bytes) (ends : Nat → Option (List Nat) × Option (List Nat)) (a8 : Nat) (a9 : Nat) (a10 : Option (List Nat × Bytes)) (a11 : State) {x1 x2 t'} (he : State.moveBlocks w f self src dst tsrc tdst ends a8 a9 a10 a11 = (x1, x2, t')) : Kept a11 t' := by
  have k := State.moveBlocks_kept w f self src dst tsrc tdst ends a8 a9 a10 a11
  rw [he] at k; exact k

theorem State.moveOn_kept (gather : Bool) (f : Nat) (q : Nat) (i : Nat) (j : Job) (bs : Bytes) (p : Progress) (s : State) :
    Kept s (State.moveOn gather f q i j bs p s) := by
  unfold State.moveOn; grind [State.streamWorks_kept, State.streamResp_kept, State.relays_kept, State.modJob_kept, State.entryDone_kept, State.moveBlocks_kept, State.moveBlocks_kept_of, memWriteBytes_wf, foldWrites_wf, keptIff]

theorem State.readAll_kept (w : Party) (a1 : List (Nat × Nat)) (a2 : State) :
    Kept a2 (State.readAll w a1 a2).2 := by
  fun_induction State.readAll w a1 a2 <;> grind [State.readSpan_kept, State.readSpan_kept_of, memWriteBytes_wf, foldWrites_wf, keptIff]

theorem State.readAll_kept_of (w : Party) (a1 : List (Nat × Nat)) (a2 : State) {x1 t'} (he : State.readAll w a1 a2 = (x1, t')) : Kept a2 t' := by
  have k := State.readAll_kept w a1 a2
  rw [he] at k; exact k

theorem State.moveTables_kept (gather : Bool) (f : Nat) (q : Nat) (i : Nat) (j : Job) (bs : Bytes) (p : Progress) (s : State) :
    Kept s (State.moveTables gather f q i j bs p s) := by
  unfold State.moveTables; grind [State.readSpan_kept, State.readSpan_kept_of, State.streamResp_kept, State.relays_kept, State.modJob_kept, State.entryDone_kept, State.moveOn_kept, memWriteBytes_wf, foldWrites_wf, keptIff]

theorem State.moveStart_kept (gather : Bool) (f : Nat) (q : Nat) (i : Nat) (j : Job) (bs : Bytes) (s : State) :
    Kept s (State.moveStart gather f q i j bs s) := by
  unfold State.moveStart; grind [State.entryDone_kept, State.readAll_kept, State.readAll_kept_of, State.moveTables_kept, memWriteBytes_wf, foldWrites_wf, keptIff]

theorem State.moveEntry_kept (gather : Bool) (f : Nat) (q : Nat) (j : Job) (bs : Bytes) (s : State) :
    Kept s (State.moveEntry gather f q j bs s) := by
  unfold State.moveEntry; grind [State.entryDone_kept, State.moveOn_kept, State.moveTables_kept, State.moveStart_kept, memWriteBytes_wf, foldWrites_wf, keptIff]

theorem execGather_kept (fn : BitVec 6) (q : BitVec 9) (slot : BitVec 16) (v : MemView) (s : State) :
    ∀ t, execGather fn q slot v s = .next t → Kept s t := State.runEntry_kept _ _ _ _ _ _ s (fun j b s => State.moveEntry_kept _ _ _ j b s)

theorem execScatter_kept (fn : BitVec 6) (q : BitVec 9) (slot : BitVec 16) (v : MemView) (s : State) :
    ∀ t, execScatter fn q slot v s = .next t → Kept s t := State.runEntry_kept _ _ _ _ _ _ s (fun j b s => State.moveEntry_kept _ _ _ j b s)

theorem State.writeList_kept (w : Party) (a1 : List (Nat × Bytes)) (a2 : State) :
    Kept a2 (State.writeList w a1 a2).2 := by
  fun_induction State.writeList w a1 a2 <;> grind [State.writeSpan_kept, State.writeSpan_kept_of, memWriteBytes_wf, foldWrites_wf, keptIff]

theorem State.writeList_kept_of (w : Party) (a1 : List (Nat × Bytes)) (a2 : State) {x1 t'} (he : State.writeList w a1 a2 = (x1, t')) : Kept a2 t' := by
  have k := State.writeList_kept w a1 a2
  rw [he] at k; exact k

theorem State.rowMask_kept (w : RowEnv) (st : Nat) (s : State) :
    Kept s (State.rowMask w st s).2 := by
  unfold State.rowMask; grind [State.gramRow_kept, State.gramRow_kept_of, memWriteBytes_wf, foldWrites_wf, keptIff]

theorem State.rowMask_kept_of (w : RowEnv) (st : Nat) (s : State) {x1 t'} (he : State.rowMask w st s = (x1, t')) : Kept s t' := by
  have k := State.rowMask_kept w st s
  rw [he] at k; exact k

theorem State.rowNext_kept (w : RowEnv) (st : Nat) (k : Nat) (s : State) :
    Kept s (State.rowNext w st k s).2 := by
  unfold State.rowNext; grind [State.gramNext_kept, State.gramNext_kept_of, memWriteBytes_wf, foldWrites_wf, keptIff]

theorem State.rowNext_kept_of (w : RowEnv) (st : Nat) (k : Nat) (s : State) {x1 t'} (he : State.rowNext w st k s = (x1, t')) : Kept s t' := by
  have k := State.rowNext_kept w st k s
  rw [he] at k; exact k

theorem State.rowRun_kept (w : RowEnv) (rec_ : Bytes) (xs : List Fp) (s : State) :
    Kept s (State.rowRun w rec_ xs s).2 := by
  unfold State.rowRun; grind [State.rowMask_kept, State.rowMask_kept_of, State.rowNext_kept, State.rowNext_kept_of, memWriteBytes_wf, foldWrites_wf, keptIff]

theorem State.rowRun_kept_of (w : RowEnv) (rec_ : Bytes) (xs : List Fp) (s : State) {x1 t'} (he : State.rowRun w rec_ xs s = (x1, t')) : Kept s t' := by
  have k := State.rowRun_kept w rec_ xs s
  rw [he] at k; exact k

theorem State.rowPut_kept (w : RowEnv) (l : List (Nat × Bytes)) (s : State) :
    Kept s (State.rowPut w l s).2 := by
  unfold State.rowPut; grind [State.writeList_kept, State.writeList_kept_of, memWriteBytes_wf, foldWrites_wf, keptIff]

theorem State.rowPut_kept_of (w : RowEnv) (l : List (Nat × Bytes)) (s : State) {x1 t'} (he : State.rowPut w l s = (x1, t')) : Kept s t' := by
  have k := State.rowPut_kept w l s
  rw [he] at k; exact k

theorem State.returnRow_kept (w : RowEnv) (j : Nat) (s : State) :
    Kept s (State.returnRow w j s).2.2 := by
  unfold State.returnRow; (try dsimp only); (repeat' split) <;> grind +splitImp [State.readSpan_kept, State.readSpan_kept_of, State.sampleError_kept, State.rowRun_kept, State.rowRun_kept_of, State.rowPut_kept, State.rowPut_kept_of, memWriteBytes_wf, foldWrites_wf, keptIff, State.forEach_kept, foldl_kept]

theorem State.returnRow_kept_of (w : RowEnv) (j : Nat) (s : State) {x1 x2 t'} (he : State.returnRow w j s = (x1, x2, t')) : Kept s t' := by
  have k := State.returnRow_kept w j s
  rw [he] at k; exact k

theorem State.returnRows_kept (w : RowEnv) (a1 : Nat) (a2 : Nat) (a3 : Option Nat) (a4 : State) :
    Kept a4 (State.returnRows w a1 a2 a3 a4).2.2.2 := by
  fun_induction State.returnRows w a1 a2 a3 a4 <;> grind [State.returnRow_kept, State.returnRow_kept_of, memWriteBytes_wf, foldWrites_wf, keptIff]

theorem State.returnRows_kept_of (w : RowEnv) (a1 : Nat) (a2 : Nat) (a3 : Option Nat) (a4 : State) {x1 x2 x3 t'} (he : State.returnRows w a1 a2 a3 a4 = (x1, x2, x3, t')) : Kept a4 t' := by
  have k := State.returnRows_kept w a1 a2 a3 a4
  rw [he] at k; exact k

theorem State.returnTables_kept (w : Site) (body : Bytes) (slot : Nat) (s : State) :
    Kept s (State.returnTables w body slot s).2 := by
  unfold State.returnTables; grind [State.vocabAt_kept, State.vocabAt_kept_of, State.gramAt_kept, State.gramAt_kept_of, memWriteBytes_wf, foldWrites_wf, keptIff]

theorem State.returnTables_kept_of (w : Site) (body : Bytes) (slot : Nat) (s : State) {x1 t'} (he : State.returnTables w body slot s = (x1, t')) : Kept s t' := by
  have k := State.returnTables_kept w body slot s
  rw [he] at k; exact k

theorem State.returnLogits_kept (f : Nat) (q : Nat) (j : Job) (bs : Bytes) (s : State) :
    Kept s (State.returnLogits f q j bs s) := by
  unfold State.returnLogits; (try dsimp only); (repeat' split) <;> grind +splitImp [State.readSpan_kept, State.readSpan_kept_of, State.streamResp_kept, State.relays_kept, State.modJob_kept, State.entryDone_kept, State.returnRows_kept, State.returnRows_kept_of, State.returnTables_kept, State.returnTables_kept_of, memWriteBytes_wf, foldWrites_wf, keptIff, State.forEach_kept, foldl_kept]

theorem execReturnLogits_kept (fn : BitVec 6) (q : BitVec 9) (slot : BitVec 16) (v : MemView) (s : State) :
    ∀ t, execReturnLogits fn q slot v s = .next t → Kept s t := State.runEntry_kept _ _ _ _ _ _ s (fun j b s => State.returnLogits_kept _ _ j b s)

theorem State.writeFrom_kept (w : Party) (a1 : List (Nat × Bytes)) (a2 : Nat) (a3 : State) :
    Kept a3 (State.writeFrom w a1 a2 a3).2.2 := by
  fun_induction State.writeFrom w a1 a2 a3 <;> grind [State.writeSpan_kept, State.writeSpan_kept_of, memWriteBytes_wf, foldWrites_wf, keptIff]

theorem State.writeFrom_kept_of (w : Party) (a1 : List (Nat × Bytes)) (a2 : Nat) (a3 : State) {x1 x2 t'} (he : State.writeFrom w a1 a2 a3 = (x1, x2, t')) : Kept a3 t' := by
  have k := State.writeFrom_kept w a1 a2 a3
  rw [he] at k; exact k

theorem State.itemRead_kept (w : WriteJob) (a : Nat) (n : Nat) (s : State) :
    Kept s (State.itemRead w a n s).2 := by
  unfold State.itemRead; grind [State.readSpan_kept, State.readSpan_kept_of, memWriteBytes_wf, foldWrites_wf, keptIff]

theorem State.itemRead_kept_of (w : WriteJob) (a : Nat) (n : Nat) (s : State) {x1 t'} (he : State.itemRead w a n s = (x1, t')) : Kept s t' := by
  have k := State.itemRead_kept w a n s
  rw [he] at k; exact k

theorem State.itemBytes_kept (w : WriteJob) (off : Nat) (t : OutItem) (s : State) :
    Kept s (State.itemBytes w off t s).2 := by
  unfold State.itemBytes; grind [State.itemRead_kept, State.itemRead_kept_of, memWriteBytes_wf, foldWrites_wf, keptIff]

theorem State.itemBytes_kept_of (w : WriteJob) (off : Nat) (t : OutItem) (s : State) {x1 t'} (he : State.itemBytes w off t s = (x1, t')) : Kept s t' := by
  have k := State.itemBytes_kept w off t s
  rw [he] at k; exact k

theorem State.clipSlice_kept (w : WriteJob) (item : Nat) (off : Nat) (t : OutItem) (before : Nat) (u : Bytes) (s : State) :
    Kept s (State.clipSlice w item off t before u s).2 := by
  unfold State.clipSlice; grind [State.writeSpan_kept, State.writeSpan_kept_of, State.holdBuffers_kept, State.holdBuffers_kept_of, State.buffersWrite_kept, State.buffersWrite_kept_of, memWriteBytes_wf, foldWrites_wf, keptIff]

theorem State.clipSlice_kept_of (w : WriteJob) (item : Nat) (off : Nat) (t : OutItem) (before : Nat) (u : Bytes) (s : State) {x1 t'} (he : State.clipSlice w item off t before u s = (x1, t')) : Kept s t' := by
  have k := State.clipSlice_kept w item off t before u s
  rw [he] at k; exact k

theorem State.clipPicture_kept (w : WriteJob) (t : OutItem) (n : Nat) (s : State) :
    Kept s (State.clipPicture w t n s).2 := by
  unfold State.clipPicture; grind [State.itemRead_kept, State.itemRead_kept_of, memWriteBytes_wf, foldWrites_wf, keptIff]

theorem State.clipPicture_kept_of (w : WriteJob) (t : OutItem) (n : Nat) (s : State) {x1 t'} (he : State.clipPicture w t n s = (x1, t')) : Kept s t' := by
  have k := State.clipPicture_kept w t n s
  rw [he] at k; exact k

theorem State.itemClip_kept (w : WriteJob) (item : Nat) (base : Nat) (off : Nat) (t : OutItem) (h : EncHold) (s : State) :
    Kept s (State.itemClip w item base off t h s).2.2 := by
  unfold State.itemClip; grind [State.codePictures_kept, State.clipSlice_kept, State.clipSlice_kept_of, State.clipPicture_kept, State.clipPicture_kept_of, memWriteBytes_wf, foldWrites_wf, keptIff]

theorem State.itemClip_kept_of (w : WriteJob) (item : Nat) (base : Nat) (off : Nat) (t : OutItem) (h : EncHold) (s : State) {x1 x2 t'} (he : State.itemClip w item base off t h s = (x1, x2, t')) : Kept s t' := by
  have k := State.itemClip_kept w item base off t h s
  rw [he] at k; exact k

theorem State.plainItem_kept (w : WriteJob) (n : Nat) (t : OutItem) (p : Progress) (s : State) :
    Kept s (State.plainItem w n t p s).2.2 := by
  unfold State.plainItem; grind [State.writeFrom_kept, State.writeFrom_kept_of, State.itemBytes_kept, State.itemBytes_kept_of, State.itemClip_kept, State.itemClip_kept_of, memWriteBytes_wf, foldWrites_wf, keptIff]

theorem State.plainItem_kept_of (w : WriteJob) (n : Nat) (t : OutItem) (p : Progress) (s : State) {x1 x2 t'} (he : State.plainItem w n t p s = (x1, x2, t')) : Kept s t' := by
  have k := State.plainItem_kept w n t p s
  rw [he] at k; exact k

theorem State.plainItems_kept (w : WriteJob) (a1 : List (OutItem × Nat)) (a2 : Progress) (a3 : State) :
    Kept a3 (State.plainItems w a1 a2 a3).2.2 := by
  fun_induction State.plainItems w a1 a2 a3 <;> grind [State.sampleError_kept, State.plainItem_kept, State.plainItem_kept_of, memWriteBytes_wf, foldWrites_wf, keptIff]

theorem State.plainItems_kept_of (w : WriteJob) (a1 : List (OutItem × Nat)) (a2 : Progress) (a3 : State) {x1 x2 t'} (he : State.plainItems w a1 a2 a3 = (x1, x2, t')) : Kept a3 t' := by
  have k := State.plainItems_kept w a1 a2 a3
  rw [he] at k; exact k

theorem State.sealedItem_kept (w : WriteJob) (n : Nat) (off : Nat) (t : OutItem) (r : ShardRun) (s : State) :
    Kept s (State.sealedItem w n off t r s).2.2 := by
  unfold State.sealedItem; grind [State.buffersRead_kept, State.buffersRead_kept_of, State.itemBytes_kept, State.itemBytes_kept_of, State.itemClip_kept, State.itemClip_kept_of, memWriteBytes_wf, foldWrites_wf, keptIff]

theorem State.sealedItem_kept_of (w : WriteJob) (n : Nat) (off : Nat) (t : OutItem) (r : ShardRun) (s : State) {x1 x2 t'} (he : State.sealedItem w n off t r s = (x1, x2, t')) : Kept s t' := by
  have k := State.sealedItem_kept w n off t r s
  rw [he] at k; exact k

theorem State.sealedItems_kept (w : WriteJob) (a1 : List (OutItem × Nat)) (a2 : Nat) (a3 : List (Nat × OutItem × Bytes)) (a4 : ShardRun) (a5 : State) :
    Kept a5 (State.sealedItems w a1 a2 a3 a4 a5).2.2 := by
  fun_induction State.sealedItems w a1 a2 a3 a4 a5 <;> grind [State.sampleError_kept, State.sealedItem_kept, State.sealedItem_kept_of, memWriteBytes_wf, foldWrites_wf, keptIff]

theorem State.sealedItems_kept_of (w : WriteJob) (a1 : List (OutItem × Nat)) (a2 : Nat) (a3 : List (Nat × OutItem × Bytes)) (a4 : ShardRun) (a5 : State) {x1 x2 t'} (he : State.sealedItems w a1 a2 a3 a4 a5 = (x1, x2, t')) : Kept a5 t' := by
  have k := State.sealedItems_kept w a1 a2 a3 a4 a5
  rw [he] at k; exact k

theorem State.shardRun_kept (w : WriteJob) (p : Progress) (s : State) :
    Kept s (State.shardRun w p s).2.2 := by
  unfold State.shardRun; grind [State.writeFrom_kept, State.writeFrom_kept_of, State.plainItems_kept, State.plainItems_kept_of, State.sealedItems_kept, State.sealedItems_kept_of, memWriteBytes_wf, foldWrites_wf, keptIff]

theorem State.shardRun_kept_of (w : WriteJob) (p : Progress) (s : State) {x1 x2 t'} (he : State.shardRun w p s = (x1, x2, t')) : Kept s t' := by
  have k := State.shardRun_kept w p s
  rw [he] at k; exact k

theorem State.releaseShard_kept (w : WriteJob) (base : Nat) (s : State) :
    Kept s (State.releaseShard w base s) := by
  unfold State.releaseShard; grind +splitImp [State.dropBuffers_kept, memWriteBytes_wf, foldWrites_wf, keptIff, State.forEach_kept, foldl_kept]

theorem State.writeOn_kept (q : Nat) (j : Job) (w : WriteJob) (p : Progress) (s : State) :
    Kept s (State.writeOn q j w p s) := by
  unfold State.writeOn; grind [State.streamResp_kept, State.relays_kept, State.holdBuffers_kept, State.holdBuffers_kept_of, State.modJob_kept, State.entryDone_kept, State.shardRun_kept, State.shardRun_kept_of, State.releaseShard_kept, memWriteBytes_wf, foldWrites_wf, keptIff]

theorem State.writeAgain_kept (q : Nat) (j : Job) (w : WriteJob) (p : Progress) (s : State) :
    Kept s (State.writeAgain q j w p s) := by
  unfold State.writeAgain; grind [State.modJob_kept, State.intakeHalt_kept, State.boundKey_kept, State.boundKey_kept_of, State.writeOn_kept, memWriteBytes_wf, foldWrites_wf, keptIff]

theorem State.writeBegin_kept (q : Nat) (j : Job) (w : WriteJob) (gen : Nat) (salt : Bytes) (s : State) :
    Kept s (State.writeBegin q j w gen salt s) := by
  unfold State.writeBegin; grind [State.modStream_kept, State.writeAgain_kept, memWriteBytes_wf, foldWrites_wf, keptIff]

theorem State.writeKey_kept (f : Nat) (slot : Nat) (s : State) :
    Kept s (State.writeKey f slot s).2 := by
  unfold State.writeKey; grind [State.cryptoError_kept, State.drbgGen_kept, State.drbgGen_kept_of, State.ownedSlot_kept, State.ownedSlot_kept_of, memWriteBytes_wf, foldWrites_wf, keptIff]

theorem State.writeKey_kept_of (f : Nat) (slot : Nat) (s : State) {x1 t'} (he : State.writeKey f slot s = (x1, t')) : Kept s t' := by
  have k := State.writeKey_kept f slot s
  rw [he] at k; exact k

theorem State.returnWrite_kept (f : Nat) (q : Nat) (j : Job) (bs : Bytes) (s : State) :
    Kept s (State.returnWrite f q j bs s) := by
  unfold State.returnWrite; (try dsimp only); (repeat' split) <;> grind +splitImp [State.readSpan_kept, State.readSpan_kept_of, State.streamResp_kept, State.relays_kept, State.entryDone_kept, State.cryptoError_kept, State.intakeHalt_kept, State.writeAgain_kept, State.writeBegin_kept, State.writeKey_kept, State.writeKey_kept_of, memWriteBytes_wf, foldWrites_wf, keptIff, State.forEach_kept, foldl_kept]

theorem execReturnWrite_kept (fn : BitVec 6) (q : BitVec 9) (slot : BitVec 16) (v : MemView) (s : State) :
    ∀ t, execReturnWrite fn q slot v s = .next t → Kept s t := State.runEntry_kept _ _ _ _ _ _ s (fun j b s => State.returnWrite_kept _ _ j b s)

theorem State.saveEntry_kept (f : Nat) (q : Nat) (j : Job) (bs : Bytes) (s : State) :
    Kept s (State.saveEntry f q j bs s) := by
  unfold State.saveEntry; (try dsimp only); (repeat' split) <;> grind +splitImp [State.writeSpan_kept, State.writeSpan_kept_of, State.sysWrite_kept, State.sysWrite_kept_of, State.entryDone_kept, memWriteBytes_wf, foldWrites_wf, keptIff, State.forEach_kept, foldl_kept]

theorem execContextSave_kept (fn : BitVec 6) (q : BitVec 9) (slot : BitVec 16) (v : MemView) (s : State) :
    ∀ t, execContextSave fn q slot v s = .next t → Kept s t := State.runEntry_kept _ _ _ _ _ _ s (fun j b s => State.saveEntry_kept _ _ j b s)

theorem State.restoreWith_kept (f : Nat) (q : Nat) (j : Job) (a : Bytes) (ctx : Bytes) (s : State) :
    Kept s (State.restoreWith f q j a ctx s) := by
  unfold State.restoreWith; (try dsimp only); (repeat' split) <;> grind +splitImp [State.readSpan_kept, State.readSpan_kept_of, State.jobDone_kept, State.openAt_kept, memWriteBytes_wf, foldWrites_wf, keptIff, State.forEach_kept, foldl_kept]

theorem State.restoreEntry_kept (f : Nat) (q : Nat) (j : Job) (a : Bytes) (s : State) :
    Kept s (State.restoreEntry f q j a s) := by
  unfold State.restoreEntry; grind [State.sysRead_kept, State.sysRead_kept_of, State.jobDone_kept, State.restoreWith_kept, memWriteBytes_wf, foldWrites_wf, keptIff]

theorem execContextRestore_kept (fn : BitVec 6) (q : BitVec 9) (slot : BitVec 16) (v : MemView) (s : State) :
    ∀ t, execContextRestore fn q slot v s = .next t → Kept s t := State.runEntry_kept _ _ _ _ _ _ s (fun j b s => State.restoreEntry_kept _ _ j b s)

theorem State.stageTable_kept (w : Site) (id : Nat) (parse : Bytes → Option α) (s : State) :
    Kept s (State.stageTable w id parse s).2 := by
  unfold State.stageTable; grind [State.streamError_kept, State.relays_kept, State.streamTable_kept, State.streamTable_kept_of, memWriteBytes_wf, foldWrites_wf, keptIff]

theorem State.stageTable_kept_of (w : Site) (id : Nat) (parse : Bytes → Option α) (s : State) {x1 t'} (he : State.stageTable w id parse s = (x1, t')) : Kept s t' := by
  have k := State.stageTable_kept w id parse s
  rw [he] at k; exact k

theorem State.calibrate_kept (w : Site) (body : Bytes) (img : FitsImg) (s : State) :
    Kept s (State.calibrate w body img s).2 := by
  unfold State.calibrate; grind [State.streamTable_kept, State.streamTable_kept_of, memWriteBytes_wf, foldWrites_wf, keptIff]

theorem State.calibrate_kept_of (w : Site) (body : Bytes) (img : FitsImg) (s : State) {x1 t'} (he : State.calibrate w body img s = (x1, t')) : Kept s t' := by
  have k := State.calibrate_kept w body img s
  rw [he] at k; exact k

theorem State.cropResize_kept (w : Site) (g : Nat) (k : DrawKey) (p : Pic) (s : State) :
    Kept s (State.cropResize w g k p s).2 := by
  unfold State.cropResize; grind [State.stageTable_kept, State.stageTable_kept_of, memWriteBytes_wf, foldWrites_wf, keptIff]

theorem State.cropResize_kept_of (w : Site) (g : Nat) (k : DrawKey) (p : Pic) (s : State) {x1 t'} (he : State.cropResize w g k p s = (x1, t')) : Kept s t' := by
  have k := State.cropResize_kept w g k p s
  rw [he] at k; exact k

theorem State.augment_kept (w : Site) (g : Nat) (k : DrawKey) (ord : Nat) (p : Pic) (s : State) :
    Kept s (State.augment w g k ord p s).2 := by
  unfold State.augment; grind [State.stageTable_kept, State.stageTable_kept_of, memWriteBytes_wf, foldWrites_wf, keptIff]

theorem State.augment_kept_of (w : Site) (g : Nat) (k : DrawKey) (ord : Nat) (p : Pic) (s : State) {x1 t'} (he : State.augment w g k ord p s = (x1, t')) : Kept s t' := by
  have k := State.augment_kept w g k ord p s
  rw [he] at k; exact k

theorem State.augmentAll_kept (w : Site) (g : Nat) (k : DrawKey) (a3 : List (Nat × Pic)) (a4 : State) :
    Kept a4 (State.augmentAll w g k a3 a4).2 := by
  fun_induction State.augmentAll w g k a3 a4 <;> grind [State.augment_kept, State.augment_kept_of, memWriteBytes_wf, foldWrites_wf, keptIff]

theorem State.augmentAll_kept_of (w : Site) (g : Nat) (k : DrawKey) (a3 : List (Nat × Pic)) (a4 : State) {x1 t'} (he : State.augmentAll w g k a3 a4 = (x1, t')) : Kept a4 t' := by
  have k := State.augmentAll_kept w g k a3 a4
  rw [he] at k; exact k

theorem State.imageFront_kept (w : Site) (g : Nat) (k : DrawKey) (kind : Nat) (bytes : Bytes) (s : State) :
    Kept s (State.imageFront w g k kind bytes s).2 := by
  unfold State.imageFront; grind [State.calibrate_kept, State.calibrate_kept_of, State.cropResize_kept, State.cropResize_kept_of, memWriteBytes_wf, foldWrites_wf, keptIff]

theorem State.imageFront_kept_of (w : Site) (g : Nat) (k : DrawKey) (kind : Nat) (bytes : Bytes) (s : State) {x1 t'} (he : State.imageFront w g k kind bytes s = (x1, t')) : Kept s t' := by
  have k := State.imageFront_kept w g k kind bytes s
  rw [he] at k; exact k

theorem State.sendPics_kept (bay : Nat) (u : DataUnit) (k : DrawKey) (body? : Option Bytes) (l : List PicOut) (s : State) :
    Kept s (State.sendPics bay u k body? l s) := by
  unfold State.sendPics; grind +splitImp [State.sendUnit_kept, State.sendReject_kept, memWriteBytes_wf, foldWrites_wf, keptIff, State.forEach_kept, foldl_kept]

theorem State.imageBack_kept (w : Site) (g : Nat) (u : DataUnit) (k : DrawKey) (ps : List PicOut) (s : State) :
    Kept s (State.imageBack w g u k ps s).2 := by
  unfold State.imageBack; grind [State.augmentAll_kept, State.augmentAll_kept_of, State.sendPics_kept, memWriteBytes_wf, foldWrites_wf, keptIff]

theorem State.imageBack_kept_of (w : Site) (g : Nat) (u : DataUnit) (k : DrawKey) (ps : List PicOut) (s : State) {x1 t'} (he : State.imageBack w g u k ps s = (x1, t')) : Kept s t' := by
  have k := State.imageBack_kept w g u k ps s
  rw [he] at k; exact k

theorem State.imageUnit_kept (bay : Nat) (mortise : Nat) (u : DataUnit) (s : State) :
    Kept s (State.imageUnit bay mortise u s) := by
  unfold State.imageUnit; (try dsimp only); (repeat' split) <;> grind +splitImp [State.sendUnit_kept, State.rejectAt_kept, State.holdUnit_kept, State.cropResize_kept, State.cropResize_kept_of, State.imageFront_kept, State.imageFront_kept_of, State.imageBack_kept, State.imageBack_kept_of, memWriteBytes_wf, foldWrites_wf, keptIff, State.forEach_kept, foldl_kept]

theorem State.judgeOut_kept (bay : Nat) (body : Bytes) (p : Bytes) (outs : Array (Array Nat)) (h : HeatUnit) (g : Nat) (s : State) :
    Kept s (State.judgeOut bay body p outs h g s) := by
  unfold State.judgeOut; grind [State.count_kept, State.putUnit_kept, State.sendUnit_kept, State.sendReject_kept, memWriteBytes_wf, foldWrites_wf, keptIff]

theorem State.sealKey_kept (key : Bytes) (s : State) :
    Kept s (State.sealKey key s).2 := by
  unfold State.sealKey; grind [State.drbgGen_kept, State.drbgGen_kept_of, memWriteBytes_wf, foldWrites_wf, keptIff]

theorem State.sealKey_kept_of (key : Bytes) (s : State) {x1 t'} (he : State.sealKey key s = (x1, t')) : Kept s t' := by
  have k := State.sealKey_kept key s
  rw [he] at k; exact k

theorem State.heatChunk_kept (port : Nat) (key : Bytes) (id : Nat) (c : Nat) (s : State) :
    Kept s (State.heatChunk port key id c s).2 := by
  unfold State.heatChunk; grind [State.sysRead_kept, State.sysRead_kept_of, State.sysWrite_kept, State.sysWrite_kept_of, State.sealKey_kept, State.sealKey_kept_of, memWriteBytes_wf, foldWrites_wf, keptIff]

theorem State.heatChunk_kept_of (port : Nat) (key : Bytes) (id : Nat) (c : Nat) (s : State) {x1 t'} (he : State.heatChunk port key id c s = (x1, t')) : Kept s t' := by
  have k := State.heatChunk_kept port key id c s
  rw [he] at k; exact k

theorem State.putWeights_kept (k : Nat) (slot : Nat) (body : Bytes) (j : Nat) (bs : Bytes) (s : State) :
    Kept s (State.putWeights k slot body j bs s) := by
  unfold State.putWeights; grind [State.count_kept, State.writeRuns_kept, memWriteBytes_wf, foldWrites_wf, keptIff]

theorem State.heatChunks_kept (g : Graph) (k : Nat) (slot : Nat) (body : Bytes) (id : Nat) (a5 : Nat) (a6 : List Nat) (a7 : Array Byte) (a8 : State) :
    Kept a8 (State.heatChunks g k slot body id a5 a6 a7 a8).2 := by
  fun_induction State.heatChunks g k slot body id a5 a6 a7 a8 <;> grind [State.heatChunk_kept, State.heatChunk_kept_of, State.putWeights_kept, memWriteBytes_wf, foldWrites_wf, keptIff]

theorem State.heatChunks_kept_of (g : Graph) (k : Nat) (slot : Nat) (body : Bytes) (id : Nat) (a5 : Nat) (a6 : List Nat) (a7 : Array Byte) (a8 : State) {x1 t'} (he : State.heatChunks g k slot body id a5 a6 a7 a8 = (x1, t')) : Kept a8 t' := by
  have k := State.heatChunks_kept g k slot body id a5 a6 a7 a8
  rw [he] at k; exact k

theorem State.heatKeyOf_kept (s : State) :
    Kept s (State.heatKeyOf s).2 := by
  unfold State.heatKeyOf; grind [State.drbgGen_kept, State.drbgGen_kept_of, memWriteBytes_wf, foldWrites_wf, keptIff]

theorem State.heatKeyOf_kept_of (s : State) {x1 t'} (he : State.heatKeyOf s = (x1, t')) : Kept s t' := by
  have k := State.heatKeyOf_kept s
  rw [he] at k; exact k

end Sys2Proof.Machine
end

