-- ==== Sys2Proof/Laws/KeptG.lean ====
section
/-! SUPPORT. Kept, for each state-changing definition of Judge, Scarf, Video, Truss, ImageLoad, RegRead, RegWrite. -/

namespace Sys2Proof.Machine

set_option Elab.async false

theorem State.heatWeights_kept (g : Graph) (k : Nat) (slot : Nat) (body : Bytes) (p : Bytes) (s : State) :
    Kept s (State.heatWeights g k slot body p s).2 := by
  unfold State.heatWeights; grind [State.heatChunks_kept, State.heatChunks_kept_of, State.heatKeyOf_kept, State.heatKeyOf_kept_of, memWriteBytes_wf, foldWrites_wf, keptIff]

theorem State.heatWeights_kept_of (g : Graph) (k : Nat) (slot : Nat) (body : Bytes) (p : Bytes) (s : State) {x1 t'} (he : State.heatWeights g k slot body p s = (x1, t')) : Kept s t' := by
  have k := State.heatWeights_kept g k slot body p s
  rw [he] at k; exact k

theorem State.heatFails_kept (us : List HeatUnit) (e : HeatStop) (s : State) :
    Kept s (State.heatFails us e s) := by
  unfold State.heatFails; grind +splitImp [State.streamError_kept, State.streamResp_kept, State.relays_kept, memWriteBytes_wf, foldWrites_wf, keptIff, State.forEach_kept, foldl_kept]

theorem State.heatUnit_kept (bay : Nat) (body : Bytes) (p : Bytes) (wt : Array Byte) (h : HeatUnit) (s : State) :
    Kept s (State.heatUnit bay body p wt h s) := by
  unfold State.heatUnit; grind [State.rejectAt_kept, State.judgeOut_kept, memWriteBytes_wf, foldWrites_wf, keptIff]

theorem State.runHeat_kept (bay : Nat) (slot : Nat) (body : Bytes) (p : Bytes) (g : Graph) (us : List HeatUnit) (s : State) :
    Kept s (State.runHeat bay slot body p g us s) := by
  unfold State.runHeat; grind +splitImp [State.modBay_kept, State.cryptoError_kept, State.heatWeights_kept, State.heatWeights_kept_of, State.heatFails_kept, State.heatUnit_kept, memWriteBytes_wf, foldWrites_wf, keptIff, State.forEach_kept, foldl_kept]

theorem State.dropStale_kept (bay : Nat) (s : State) :
    Kept s (State.dropStale bay s) := ⟨rfl, rfl, id, id, id⟩

theorem State.passFlush_kept (bay : Nat) (s : State) :
    Kept s (State.passFlush bay s) := by
  unfold State.passFlush; constructor <;> grind +splitImp [State.modBay_kept, State.putBeats_kept, memWriteBytes_wf, foldWrites_wf, State.forEach_kept, foldl_kept, Kept]

theorem execJudgeHeatStart_kept (bay : BitVec 6) (v : MemView) (s : State) :
    ∀ t, execJudgeHeatStart bay v s = .next t → Kept s t := by
  intro t h
  unfold execJudgeHeatStart at h; (try dsimp only at h)
  refine (State.seeMem_kept v s).trans (State.turn_kept (fun t h => ?_) t h)
  grind [State.pinnedTable_kept, State.pinnedTable_kept_of, State.seeMem_kept, State.turn_kept, State.runHeat_kept, State.dropStale_kept, State.passFlush_kept, memWriteBytes_wf, foldWrites_wf, keptIff]

theorem State.judgeUnit_kept (bay : Nat) (mortise : Nat) (u : DataUnit) (s : State) :
    Kept s (State.judgeUnit bay mortise u s) := by
  unfold State.judgeUnit; grind [State.modBay_kept, State.sendUnit_kept, State.holdUnit_kept, memWriteBytes_wf, foldWrites_wf, keptIff]

theorem State.sendBeat_kept (bn : Nat) (side : Bool) (ln : Nat) (r : Nat) (s : State) :
    Kept s (State.sendBeat bn side ln r s) := by
  unfold State.sendBeat; grind [State.setRoute_kept, State.count_kept, State.setLaneEnd_kept, State.acceptLink_kept, memWriteBytes_wf, foldWrites_wf, keptIff]

theorem State.sendService_kept (bn : Nat) (side : Bool) (ln : Nat) (message : BitVec 288) (s : State) :
    Kept s (State.sendService bn side ln message s) := by
  unfold State.sendService; grind [State.setLaneEnd_kept, memWriteBytes_wf, foldWrites_wf, keptIff]

theorem State.sendIdle_kept (bn : Nat) (side : Bool) (ln : Nat) (s : State) :
    Kept s (State.sendIdle bn side ln s) := by
  unfold State.sendIdle; grind [State.setLaneEnd_kept, memWriteBytes_wf, foldWrites_wf, keptIff]

theorem execScarfFlitSend_kept (b : BitVec 2) (side : Bool) (lane : BitVec 3) (what : FlitKind) (s : State) :
    ∀ t, execScarfFlitSend b side lane what s = .next t → Kept s t := by
  intro t h
  unfold execScarfFlitSend at h; grind [State.sendBeat_kept, State.sendService_kept, State.sendIdle_kept, memWriteBytes_wf, foldWrites_wf, keptIff]

theorem State.creditBack_kept (b : Nat) (side : Bool) (lane : Nat) (route : Nat) (n : Nat) (s : State) :
    Kept s (State.creditBack b side lane route n s) := by
  unfold State.creditBack; grind [State.setRoute_kept, memWriteBytes_wf, foldWrites_wf, keptIff]

theorem State.resend_kept (b : Nat) (side : Bool) (lane : Nat) (s : State) :
    Kept s (State.resend b side lane s) := by
  unfold State.resend; grind [State.count_kept, State.setLaneEnd_kept, State.boundariesDown_kept, memWriteBytes_wf, foldWrites_wf, keptIff]

theorem State.nakReceived_kept (b : Nat) (side : Bool) (lane : Nat) (ack : Nat) (s : State) :
    Kept s (State.nakReceived b side lane ack s) := by
  unfold State.nakReceived; grind [State.setLaneEnd_kept, State.resend_kept, memWriteBytes_wf, foldWrites_wf, keptIff]

theorem execScarfNakReceive_kept (b : BitVec 2) (side : Bool) (lane : BitVec 3) (ackSeq : BitVec 8) (s : State) :
    ∀ t, execScarfNakReceive b side lane ackSeq s = .next t → Kept s t := by
  intro t h
  unfold execScarfNakReceive at h; grind [State.nakReceived_kept, memWriteBytes_wf, foldWrites_wf, keptIff]

theorem execScarfReplayTimeout_kept (b : BitVec 2) (side : Bool) (lane : BitVec 3) (s : State) :
    ∀ t, execScarfReplayTimeout b side lane s = .next t → Kept s t := by
  intro t h
  unfold execScarfReplayTimeout at h; grind [State.resend_kept, memWriteBytes_wf, foldWrites_wf, keptIff]

theorem State.flitNews_kept (b : Nat) (side : Bool) (lane : Nat) (f : BitVec 512) (s : State) :
    Kept s (State.flitNews b side lane f s) := by
  unfold State.flitNews; grind [State.setLaneEnd_kept, State.creditBack_kept, memWriteBytes_wf, foldWrites_wf, keptIff]

theorem State.flitBad_kept (b : Nat) (side : Bool) (lane : Nat) (s : State) :
    Kept s (State.flitBad b side lane s) := by
  unfold State.flitBad; grind [State.count_kept, State.setLaneEnd_kept, memWriteBytes_wf, foldWrites_wf, keptIff]

theorem execScarfFlitReceive_kept (b : BitVec 2) (side : Bool) (lane : BitVec 3) (flit : BitVec 512) (s : State) :
    ∀ t, execScarfFlitReceive b side lane flit s = .next t → Kept s t := by
  intro t h
  unfold execScarfFlitReceive at h; grind [State.count_kept, State.setLaneEnd_kept, State.driveLink_kept, State.nakReceived_kept, State.flitNews_kept, State.flitBad_kept, memWriteBytes_wf, foldWrites_wf, keptIff]

theorem execLinkUpLoss_kept (b : BitVec 2) (s : State) :
    ∀ t, execLinkUpLoss b s = .next t → Kept s t := by
  intro t h
  unfold execLinkUpLoss at h; grind [State.setBoundary_kept, State.boundariesDown_kept, memWriteBytes_wf, foldWrites_wf, keptIff]

theorem execDieIsoAssert_kept (die : BitVec 2) (s : State) :
    ∀ t, execDieIsoAssert die s = .next t → Kept s t := by
  intro t h
  unfold execDieIsoAssert at h; grind [State.boundariesDown_kept, memWriteBytes_wf, foldWrites_wf, keptIff]

theorem State.dpbFetch_kept (w : Party) (off : Nat) (limit : Nat) (dpb : List (Nat × Nat × VidHead)) (a4 : List (Nat × Nat × Nat)) (a5 : Nat) (a6 : Bytes) (a7 : State) :
    Kept a7 (State.dpbFetch w off limit dpb a4 a5 a6 a7).2 := by
  fun_induction State.dpbFetch w off limit dpb a4 a5 a6 a7 <;> grind [State.dpbRead_kept, State.dpbRead_kept_of, memWriteBytes_wf, foldWrites_wf, keptIff]

theorem State.dpbFetch_kept_of (w : Party) (off : Nat) (limit : Nat) (dpb : List (Nat × Nat × VidHead)) (a4 : List (Nat × Nat × Nat)) (a5 : Nat) (a6 : Bytes) (a7 : State) {x1 t'} (he : State.dpbFetch w off limit dpb a4 a5 a6 a7 = (x1, t')) : Kept a7 t' := by
  have k := State.dpbFetch_kept w off limit dpb a4 a5 a6 a7
  rw [he] at k; exact k

theorem State.dpbPicture_kept (w : Party) (body : Bytes) (c : Clip) (start : Nat) (off : Nat) (fetches : List (Nat × Nat × Nat)) (x : VidRun) (s : State) :
    Kept s (State.dpbPicture w body c start off fetches x s).2 := by
  unfold State.dpbPicture; grind [State.writeSpan_kept, State.writeSpan_kept_of, State.dpbFetch_kept, State.dpbFetch_kept_of, memWriteBytes_wf, foldWrites_wf, keptIff]

theorem State.dpbPicture_kept_of (w : Party) (body : Bytes) (c : Clip) (start : Nat) (off : Nat) (fetches : List (Nat × Nat × Nat)) (x : VidRun) (s : State) {x1 t'} (he : State.dpbPicture w body c start off fetches x s = (x1, t')) : Kept s t' := by
  have k := State.dpbPicture_kept w body c start off fetches x s
  rw [he] at k; exact k

theorem State.runDecoder_kept (w : Party) (body : Bytes) (c : Clip) (start : Nat) (wanted : List Nat) (last : Nat) (a6 : List VideoEvent) (a7 : VidRun) (a8 : State) :
    Kept a8 (State.runDecoder w body c start wanted last a6 a7 a8).2 := by
  fun_induction State.runDecoder w body c start wanted last a6 a7 a8 <;> grind [State.dpbRead_kept, State.dpbRead_kept_of, State.dpbPicture_kept, State.dpbPicture_kept_of, memWriteBytes_wf, foldWrites_wf, keptIff]

theorem State.runDecoder_kept_of (w : Party) (body : Bytes) (c : Clip) (start : Nat) (wanted : List Nat) (last : Nat) (a6 : List VideoEvent) (a7 : VidRun) (a8 : State) {x1 t'} (he : State.runDecoder w body c start wanted last a6 a7 a8 = (x1, t')) : Kept a8 t' := by
  have k := State.runDecoder_kept w body c start wanted last a6 a7 a8
  rw [he] at k; exact k

theorem State.clipFrames_kept (w : Party) (body : Bytes) (k : DrawKey) (c : Clip) (bufs : List Nat) (s : State) :
    Kept s (State.clipFrames w body k c bufs s).2 := by
  unfold State.clipFrames; grind [State.count_kept, State.runDecoder_kept, State.runDecoder_kept_of, memWriteBytes_wf, foldWrites_wf, keptIff]

theorem State.clipFrames_kept_of (w : Party) (body : Bytes) (k : DrawKey) (c : Clip) (bufs : List Nat) (s : State) {x1 t'} (he : State.clipFrames w body k c bufs s = (x1, t')) : Kept s t' := by
  have k := State.clipFrames_kept w body k c bufs s
  rw [he] at k; exact k

theorem State.decodeClip_kept (f : Nat) (i : Nat) (bay : Nat) (mortise : Nat) (body : Bytes) (k : DrawKey) (u : DataUnit) (s : State) :
    Kept s (State.decodeClip f i bay mortise body k u s) := by
  unfold State.decodeClip; grind +splitImp [State.streamResp_kept, State.relays_kept, State.holdBuffers_kept, State.holdBuffers_kept_of, State.dropBuffers_kept, State.sendUnit_kept, State.rejectAt_kept, State.holdUnit_kept, State.clipFrames_kept, State.clipFrames_kept_of, memWriteBytes_wf, foldWrites_wf, keptIff, State.forEach_kept, foldl_kept]

theorem State.encDrop_kept (bay : Nat) (t : UnitTag) (s : State) :
    Kept s (State.encDrop bay t s) := ⟨rfl, rfl, id, id, id⟩

theorem State.encodeSample_kept (f : Nat) (i : Nat) (bay : Nat) (body : Bytes) (k : DrawKey) (t : UnitTag) (us : List DataUnit) (s : State) :
    Kept s (State.encodeSample f i bay body k t us s) := by
  unfold State.encodeSample; (try dsimp only); (repeat' split) <;> grind +splitImp [State.modBay_kept, State.start_kept, State.streamResp_kept, State.relays_kept, State.holdBuffers_kept, State.holdBuffers_kept_of, State.dropBuffers_kept, State.codePictures_kept, State.sendUnit_kept, State.sendReject_kept, State.rejectAt_kept, State.modFlight_kept, State.encDrop_kept, memWriteBytes_wf, foldWrites_wf, keptIff, State.forEach_kept, foldl_kept]

theorem State.encodeUnit_kept (f : Nat) (i : Nat) (bay : Nat) (mortise : Nat) (body : Bytes) (k : DrawKey) (want : Nat) (u : DataUnit) (s : State) :
    Kept s (State.encodeUnit f i bay mortise body k want u s) := by
  unfold State.encodeUnit; grind [State.holdUnit_kept, State.encodeSample_kept, memWriteBytes_wf, foldWrites_wf, keptIff]

theorem State.videoUnit_kept (bay : Nat) (mortise : Nat) (u : DataUnit) (s : State) :
    Kept s (State.videoUnit bay mortise u s) := by
  unfold State.videoUnit; grind [State.sendUnit_kept, State.holdUnit_kept, State.decodeClip_kept, State.encodeUnit_kept, memWriteBytes_wf, foldWrites_wf, keptIff]

theorem State.videoReject_kept (bay : Nat) (mortise : Nat) (code : Nat) (t : UnitTag) (s : State) :
    Kept s (State.videoReject bay mortise code t s) := by
  unfold State.videoReject; grind [State.sendReject_kept, State.encDrop_kept, State.encodeUnit_kept, memWriteBytes_wf, foldWrites_wf, keptIff]

theorem State.unitAt_kept (bay : Nat) (mortise : Nat) (u : DataUnit) (s : State) :
    Kept s (State.unitAt bay mortise u s) := by
  unfold State.unitAt; grind [State.sendUnit_kept, State.packUnit_kept, State.textUnit_kept, State.imageUnit_kept, State.judgeUnit_kept, State.videoUnit_kept, memWriteBytes_wf, foldWrites_wf, keptIff]

theorem State.giveUp_kept (bay : Nat) (t : UnitTag) (s : State) :
    Kept s (State.giveUp bay t s) := ⟨rfl, rfl, id, id, id⟩

theorem State.rejectArrives_kept (bay : Nat) (mortise : Nat) (code : Nat) (t : UnitTag) (s : State) :
    Kept s (State.rejectArrives bay mortise code t s) := by
  unfold State.rejectArrives; grind [State.sendReject_kept, State.packReject_kept, State.videoReject_kept, State.giveUp_kept, memWriteBytes_wf, foldWrites_wf, keptIff]

theorem State.unitLost_kept (bay : Nat) (t : UnitTag) (s : State) :
    Kept s (State.unitLost bay t s) := by
  unfold State.unitLost; grind [State.pump_kept, State.rejectAt_kept, State.giveUp_kept, memWriteBytes_wf, foldWrites_wf, keptIff]

theorem State.setAcc_kept (bay : Nat) (mortise : Nat) (a : Option UnitAcc) (s : State) :
    Kept s (State.setAcc bay mortise a s) := ⟨rfl, rfl, id, id, id⟩

theorem State.unitAgain_kept (bay : Nat) (mortise : Nat) (u : DataUnit) (s : State) :
    Kept s (State.unitAgain bay mortise u s) := by
  unfold State.unitAgain; grind [State.unitAt_kept, State.unitLost_kept, memWriteBytes_wf, foldWrites_wf, keptIff]

theorem State.unitDone_kept (bay : Nat) (mortise : Nat) (a : UnitAcc) (s : State) :
    Kept s (State.unitDone bay mortise a s) := by
  unfold State.unitDone; grind [State.engineWorks_kept, State.landUnit_kept, State.landUnit_kept_of, State.unitAt_kept, State.unitLost_kept, State.setAcc_kept, memWriteBytes_wf, foldWrites_wf, keptIff]

theorem State.unitEnds_kept (bay : Nat) (mortise : Nat) (kind : Nat) (a : UnitAcc) (s : State) :
    Kept s (State.unitEnds bay mortise kind a s) := by
  unfold State.unitEnds; grind [State.count_kept, State.start_kept, State.setAcc_kept, State.unitDone_kept, memWriteBytes_wf, foldWrites_wf, keptIff]

theorem State.noteFlush_kept (bay : Nat) (mortise : Nat) (gidx : Nat) (s : State) :
    Kept s (State.noteFlush bay mortise gidx s) := ⟨rfl, rfl, id, id, id⟩

theorem State.loseFraming_kept (r : Nat) (c : RouteCfg) (b : Beat) (s : State) :
    Kept s (State.loseFraming r c b s) := by
  unfold State.loseFraming; grind [State.setRoute_kept, State.streamError_kept, State.relays_kept, State.unitLost_kept, State.setAcc_kept, memWriteBytes_wf, foldWrites_wf, keptIff]

theorem State.beatRead_kept (r : Nat) (c : RouteCfg) (b : Beat) (s : State) :
    Kept s (State.beatRead r c b s) := by
  unfold State.beatRead; grind [State.count_kept, State.rejectArrives_kept, State.unitLost_kept, State.setAcc_kept, State.unitEnds_kept, State.noteFlush_kept, State.loseFraming_kept, memWriteBytes_wf, foldWrites_wf, keptIff]

theorem State.rearmDrained_kept (r : Nat) (c : RouteCfg) (s : State) :
    Kept s (State.rearmDrained r c s) := by
  unfold State.rearmDrained; grind [State.setRoute_kept, memWriteBytes_wf, foldWrites_wf, keptIff]

theorem State.wakeHeld_kept (bay : Nat) (s : State) :
    Kept s (State.wakeHeld bay s) := by
  unfold State.wakeHeld; grind +splitImp [State.modBay_kept, State.passFlush_kept, State.unitAgain_kept, memWriteBytes_wf, foldWrites_wf, keptIff, State.forEach_kept, foldl_kept]

theorem State.wakeClips_kept (bay : Nat) (s : State) :
    Kept s (State.wakeClips bay s) := by
  unfold State.wakeClips; grind +splitImp [State.modBay_kept, State.passFlush_kept, State.unitAgain_kept, memWriteBytes_wf, foldWrites_wf, keptIff, State.forEach_kept, foldl_kept]

theorem State.readFifo_kept (r : Nat) (c : RouteCfg) (s : State) :
    Kept s (State.readFifo r c s) := by
  unfold State.readFifo; grind +splitImp [State.setRoute_kept, State.passFlush_kept, State.beatRead_kept, State.rearmDrained_kept, State.wakeHeld_kept, State.wakeClips_kept, memWriteBytes_wf, foldWrites_wf, keptIff, State.forEach_kept, foldl_kept]

theorem execTrussBeatAccept_kept (route : BitVec 9) (link : BitVec 2) (s : State) :
    ∀ t, execTrussBeatAccept route link s = .next t → Kept s t := by
  intro t h
  unfold execTrussBeatAccept at h; (try dsimp only at h)
  refine State.turn_kept (fun t h => ?_) t h
  grind [State.setRoute_kept, State.count_kept, State.acceptLink_kept, State.turn_kept, State.readFifo_kept, memWriteBytes_wf, foldWrites_wf, keptIff]

theorem execTenonLaunch_kept (bay : BitVec 6) (tenon : BitVec 3) (s : State) :
    ∀ t, execTenonLaunch bay tenon s = .next t → Kept s t := by
  intro t h
  unfold execTenonLaunch at h; grind [State.setBay_kept, State.setRoute_kept, State.rearmDrained_kept, memWriteBytes_wf, foldWrites_wf, keptIff]

theorem execHurdlePass_kept (fn : BitVec 6) (stream : BitVec 10) (s : State) :
    ∀ t, execHurdlePass fn stream s = .next t → Kept s t := by
  intro t h
  unfold execHurdlePass at h; grind [State.setStream_kept, memWriteBytes_wf, foldWrites_wf, keptIff]

theorem State.releaseHeld_kept (gidx : Nat) (s : State) :
    Kept s (State.releaseHeld gidx s) := by
  unfold State.releaseHeld; grind +splitImp [State.modBay_kept, State.passFlush_kept, State.unitAgain_kept, memWriteBytes_wf, foldWrites_wf, keptIff, State.forEach_kept, foldl_kept]

theorem State.resumeEntry_kept (f : Nat) (q : Nat) (j : Job) (bs : Bytes) (s : State) :
    Kept s (State.resumeEntry f q j bs s) := by
  unfold State.resumeEntry; grind [State.streamError_kept, State.relays_kept, State.entryDone_kept, State.resumeStream_kept, State.releaseHeld_kept, memWriteBytes_wf, foldWrites_wf, keptIff]

theorem execStreamResume_kept (fn : BitVec 6) (q : BitVec 9) (slot : BitVec 16) (v : MemView) (s : State) :
    ∀ t, execStreamResume fn q slot v s = .next t → Kept s t := State.runEntry_kept _ _ _ _ _ _ s (fun j b s => State.resumeEntry_kept _ _ j b s)

theorem State.stewardRead_kept (port : Nat) (addr : Nat) (len : Nat) (s : State) :
    Kept s (State.stewardRead port addr len s).2 := by
  unfold State.stewardRead; grind [State.sysRead_kept, State.sysRead_kept_of, memWriteBytes_wf, foldWrites_wf, keptIff]

theorem State.stewardRead_kept_of (port : Nat) (addr : Nat) (len : Nat) (s : State) {x1 t'} (he : State.stewardRead port addr len s = (x1, t')) : Kept s t' := by
  have k := State.stewardRead_kept port addr len s
  rw [he] at k; exact k

theorem State.readMap_kept (ts : List TableRef) (sect : Nat) (at_ : Nat) (s : State) :
    Kept s (State.readMap ts sect at_ s).2 := by
  unfold State.readMap; grind [State.sysRead_kept, State.sysRead_kept_of, State.stewardRead_kept, State.stewardRead_kept_of, memWriteBytes_wf, foldWrites_wf, keptIff]

theorem State.readMap_kept_of (ts : List TableRef) (sect : Nat) (at_ : Nat) (s : State) {x1 t'} (he : State.readMap ts sect at_ s = (x1, t')) : Kept s t' := by
  have k := State.readMap_kept ts sect at_ s
  rw [he] at k; exact k

theorem State.readLists_kept (sect : Nat) (a1 : List (TableRef × TableMapEnt)) (a2 : State) :
    Kept a2 (State.readLists sect a1 a2).2 := by
  fun_induction State.readLists sect a1 a2 <;> grind [State.stewardRead_kept, State.stewardRead_kept_of, memWriteBytes_wf, foldWrites_wf, keptIff]

theorem State.readLists_kept_of (sect : Nat) (a1 : List (TableRef × TableMapEnt)) (a2 : State) {x1 t'} (he : State.readLists sect a1 a2 = (x1, t')) : Kept a2 t' := by
  have k := State.readLists_kept sect a1 a2
  rw [he] at k; exact k

theorem State.pinChunks_kept (sect : Nat) (addr : Nat) (ports : List Nat) (a3 : Nat) (a4 : Nat) (a5 : List Bytes) (a6 : State) :
    Kept a6 (State.pinChunks sect addr ports a3 a4 a5 a6).2 := by
  fun_induction State.pinChunks sect addr ports a3 a4 a5 a6 <;> grind [State.stewardRead_kept, State.stewardRead_kept_of, memWriteBytes_wf, foldWrites_wf, keptIff]

theorem State.pinChunks_kept_of (sect : Nat) (addr : Nat) (ports : List Nat) (a3 : Nat) (a4 : Nat) (a5 : List Bytes) (a6 : State) {x1 t'} (he : State.pinChunks sect addr ports a3 a4 a5 a6 = (x1, t')) : Kept a6 t' := by
  have k := State.pinChunks_kept sect addr ports a3 a4 a5 a6
  rw [he] at k; exact k

theorem State.pinTables_kept (c : ImgCfg) (sect : Nat) (a2 : List (TableRef × TableMapEnt)) (a3 : State) :
    Kept a3 (State.pinTables c sect a2 a3).2 := by
  fun_induction State.pinTables c sect a2 a3 <;> grind [State.pinChunks_kept, State.pinChunks_kept_of, memWriteBytes_wf, foldWrites_wf, keptIff]

theorem State.pinTables_kept_of (c : ImgCfg) (sect : Nat) (a2 : List (TableRef × TableMapEnt)) (a3 : State) {x1 t'} (he : State.pinTables c sect a2 a3 = (x1, t')) : Kept a3 t' := by
  have k := State.pinTables_kept c sect a2 a3
  rw [he] at k; exact k

theorem State.fetchTables_kept (h : Bytes) (ds : List SecDir) (c : ImgCfg) (s : State) :
    Kept s (State.fetchTables h ds c s).2 := by
  unfold State.fetchTables; grind [State.readMap_kept, State.readMap_kept_of, State.readLists_kept, State.readLists_kept_of, State.pinTables_kept, State.pinTables_kept_of, memWriteBytes_wf, foldWrites_wf, keptIff]

theorem State.fetchTables_kept_of (h : Bytes) (ds : List SecDir) (c : ImgCfg) (s : State) {x1 t'} (he : State.fetchTables h ds c s = (x1, t')) : Kept s t' := by
  have k := State.fetchTables_kept h ds c s
  rw [he] at k; exact k

theorem State.stageAll_kept (l : Loading) (ds : List SecDir) (read : Bytes) (seen : List Nat) (a4 : List SecDir) (a5 : ImgCfg) (a6 : State) :
    Kept a6 (State.stageAll l ds read seen a4 a5 a6).2 := by
  fun_induction State.stageAll l ds read seen a4 a5 a6 <;> grind [State.stewardRead_kept, State.stewardRead_kept_of, memWriteBytes_wf, foldWrites_wf, keptIff]

theorem State.stageAll_kept_of (l : Loading) (ds : List SecDir) (read : Bytes) (seen : List Nat) (a4 : List SecDir) (a5 : ImgCfg) (a6 : State) {x1 t'} (he : State.stageAll l ds read seen a4 a5 a6 = (x1, t')) : Kept a6 t' := by
  have k := State.stageAll_kept l ds read seen a4 a5 a6
  rw [he] at k; exact k

theorem State.loadImage_kept (between : MemView) (s : State) :
    Kept s (State.loadImage between s).2 := by
  unfold State.loadImage; (try dsimp only); (repeat' split) <;> grind +splitImp [State.seeMem_kept, State.cryptoError_kept, State.stewardRead_kept, State.stewardRead_kept_of, State.fetchTables_kept, State.fetchTables_kept_of, State.stageAll_kept, State.stageAll_kept_of, memWriteBytes_wf, foldWrites_wf, keptIff, State.forEach_kept, foldl_kept]

theorem State.loadImage_kept_of (between : MemView) (s : State) {x1 t'} (he : State.loadImage between s = (x1, t')) : Kept s t' := by
  have k := State.loadImage_kept between s
  rw [he] at k; exact k

theorem State.forceDrain_kept (s : State) :
    Kept s (State.forceDrain s) := by
  unfold State.forceDrain; grind [State.abortWhere_kept, memWriteBytes_wf, foldWrites_wf, keptIff]

theorem State.startLoad_kept (between : MemView) (s : State) :
    Kept s (State.startLoad between s) := by
  unfold State.startLoad; grind [State.rejectImage_kept, State.loadImage_kept, State.loadImage_kept_of, memWriteBytes_wf, foldWrites_wf, keptIff]

theorem State.imgCtrl_kept (value : Nat) (v : MemView) (between : MemView) (s : State) :
    Kept s (State.imgCtrl value v between s) := by
  unfold State.imgCtrl; grind [State.secRefuse_kept, State.seeMem_kept, State.stopLoad_kept, State.forceDrain_kept, State.startLoad_kept, memWriteBytes_wf, foldWrites_wf, keptIff]

theorem State.planBanks_kept (bays : List Nat) (s : State) :
    Kept s (State.planBanks bays s) := by
  unfold State.planBanks; grind +splitImp [State.modBank_kept, State.fillPinned_kept, memWriteBytes_wf, foldWrites_wf, keptIff, State.forEach_kept, foldl_kept]

theorem State.parkBays_kept (s : State) :
    Kept s (State.parkBays s) := by
  unfold State.parkBays; grind +splitImp [State.requestStep_kept, State.wantClock_kept, State.parkBay_kept, memWriteBytes_wf, foldWrites_wf, keptIff, State.forEach_kept, foldl_kept]

theorem State.armRoutes_kept (old : Option ImgCfg) (c : ImgCfg) (p : ImgCfg) (s : State) :
    Kept s (State.armRoutes old c p s) := by
  unfold State.armRoutes; grind +splitImp [State.setRoute_kept, memWriteBytes_wf, foldWrites_wf, keptIff, State.forEach_kept, foldl_kept]

theorem State.defineQueues_kept (c : ImgCfg) (s : State) :
    Kept s (State.defineQueues c s) := by
  unfold State.defineQueues; grind +splitImp [State.setQueue_kept, State.dropReqs_kept, memWriteBytes_wf, foldWrites_wf, keptIff, State.forEach_kept, foldl_kept]

theorem State.newHeat_kept (c : ImgCfg) (s : State) :
    Kept s (State.newHeat c s) := by
  unfold State.newHeat; grind [State.drbgGen_kept, State.drbgGen_kept_of, memWriteBytes_wf, foldWrites_wf, keptIff]

theorem execImageCommit.commit_kept (p : ImgCfg) (c : ImgCfg) (s : State) :
    Kept s (execImageCommit.commit p c s) := by
  unfold execImageCommit.commit; grind [State.wantClock_kept, State.newHeat_kept, State.walkAtCommit_kept, State.armRoutes_kept, State.planBanks_kept, State.parkBays_kept, State.defineQueues_kept, memWriteBytes_wf, foldWrites_wf, keptIff]

theorem execImageCommit_kept (s : State) :
    ∀ t, execImageCommit s = .next t → Kept s t := by
  intro t h
  unfold execImageCommit at h; grind [State.rejectImage_kept, State.forceDrain_kept, execImageCommit.commit_kept, memWriteBytes_wf, foldWrites_wf, keptIff]

theorem State.rcClear_kept (p : Page) (off : Nat) (event : Bool) (s : State) :
    Kept s (State.rcClear p off event s) := by
  unfold State.rcClear; grind [State.modFunc_kept, State.modBank_kept, memWriteBytes_wf, foldWrites_wf, keptIff]

theorem State.hostRead_kept (acc : Acc) (addr : BitVec 21) (event : Bool) (s : State) :
    Kept s (State.hostRead acc addr event s) := by
  unfold State.hostRead; (try dsimp only); (repeat' split) <;> grind +splitImp [State.count_kept, State.answer_kept, State.rcClear_kept, memWriteBytes_wf, foldWrites_wf, keptIff, State.forEach_kept, foldl_kept]

theorem execRcRegisterRead_kept (acc : Acc) (addr : BitVec 21) (event : Bool) (s : State) :
    ∀ t, execRcRegisterRead acc addr event s = .next t → Kept s t := by
  intro t h
  unfold execRcRegisterRead at h; grind [State.hostRead_kept, memWriteBytes_wf, foldWrites_wf, keptIff]

theorem execReg64LoRead_kept (acc : Acc) (addr : BitVec 21) (s : State) :
    ∀ t, execReg64LoRead acc addr s = .next t → Kept s t := by
  intro t h
  unfold execReg64LoRead at h; grind [State.hostRead_kept, memWriteBytes_wf, foldWrites_wf, keptIff]

theorem State.enablePool_kept (p : Nat) (s : State) :
    Kept s (State.enablePool p s) := by
  unfold State.enablePool; grind [State.setPool_kept, State.modPool_kept, State.sysRead_kept, State.sysRead_kept_of, State.poolResp_kept, State.readBlock_kept, State.readBlock_kept_of, memWriteBytes_wf, foldWrites_wf, keptIff]

theorem State.disablePool_kept (p : Nat) (s : State) :
    Kept s (State.disablePool p s) := by
  unfold State.disablePool; grind [State.modPool_kept, State.watchPools_kept, State.spillHandles_kept, memWriteBytes_wf, foldWrites_wf, keptIff]

theorem State.poolCfg_kept (f : Nat) (i : Nat) (value : Nat) (s : State) :
    Kept s (State.poolCfg f i value s) := by
  unfold State.poolCfg; grind [State.enablePool_kept, State.disablePool_kept, memWriteBytes_wf, foldWrites_wf, keptIff]

end Sys2Proof.Machine
end

