-- ==== Sys2Proof/Laws/KeptH.lean ====
section
/-! SUPPORT. Kept, for each state-changing definition of RegWrite, Dump, Pools, Sill, Step. -/

namespace Sys2Proof.Machine

set_option Elab.async false

theorem State.poolRefused_kept (f : Nat) (off : Nat) (value : Nat) (s : State) :
    Kept s (State.poolRefused f off value s) := by
  unfold State.poolRefused; grind [State.modPool_kept, memWriteBytes_wf, foldWrites_wf, keptIff]

theorem State.queueRefused_kept (f : Nat) (off : Nat) (value : Nat) (s : State) :
    Kept s (State.queueRefused f off value s) := by
  unfold State.queueRefused; grind [State.setQueue_kept, memWriteBytes_wf, foldWrites_wf, keptIff]

theorem State.poolMap_kept (p : Nat) (value : Nat) (s : State) :
    Kept s (State.poolMap p value s) := by
  unfold State.poolMap; grind [State.modPool_kept, memWriteBytes_wf, foldWrites_wf, keptIff]

theorem State.funcClear_kept (f : Nat) (off : Nat) (value : Nat) (s : State) :
    Kept s (State.funcClear f off value s) := by
  unfold State.funcClear; grind [State.modFunc_kept, State.setQueue_kept, State.modPool_kept, memWriteBytes_wf, foldWrites_wf, keptIff]

theorem State.frameClear_kept (off : Nat) (value : Nat) (s : State) :
    Kept s (State.frameClear off value s) := by
  unfold State.frameClear; (try dsimp only); (repeat' split) <;> grind +splitImp [State.modBank_kept, memWriteBytes_wf, foldWrites_wf, keptIff, State.forEach_kept, foldl_kept]

theorem State.mgmtClear_kept (off : Nat) (value : Nat) (s : State) :
    Kept s (State.mgmtClear off value s) := by
  unfold State.mgmtClear; grind [State.secRefuse_kept, memWriteBytes_wf, foldWrites_wf, keptIff]

theorem State.clearW1c_kept (p : Page) (off : Nat) (value : Nat) (s : State) :
    Kept s (State.clearW1c p off value s) := by
  unfold State.clearW1c; grind [State.funcClear_kept, State.frameClear_kept, State.mgmtClear_kept, memWriteBytes_wf, foldWrites_wf, keptIff]

theorem State.stage_kept (o : Origin) (p : Page) (off : Nat) (value : Nat) (s : State) :
    Kept s (State.stage o p off value s) := ⟨rfl, rfl, id, id, id⟩

theorem State.queueWrite_kept (o : Origin) (f : Nat) (q : Nat) (r : Nat) (value : Nat) (s : State) :
    Kept s (State.queueWrite o f q r value s) := by
  unfold State.queueWrite; grind [State.qCtrlWrite_kept, State.qFixedWrite_kept, State.qWeightWrite_kept, State.qBurstWrite_kept, State.stage_kept, memWriteBytes_wf, foldWrites_wf, keptIff]

theorem State.funcWrite_kept (o : Origin) (f : Nat) (off : Nat) (value : Nat) (s : State) :
    Kept s (State.funcWrite o f off value s) := by
  unfold State.funcWrite; (try dsimp only); (repeat' split) <;> grind +splitImp [State.modFunc_kept, State.modPool_kept, State.keyCtrl_kept, State.logBaseWrite_kept, State.doorbell_kept, State.funcReset_kept, State.relayReturn_kept, State.poolCfg_kept, State.stage_kept, State.queueWrite_kept, memWriteBytes_wf, foldWrites_wf, keptIff, State.forEach_kept, foldl_kept]

theorem State.frameCtrl_kept (value : Nat) (s : State) :
    Kept s (State.frameCtrl value s) := by
  unfold State.frameCtrl; grind [memWriteBytes_wf, foldWrites_wf, keptIff]

theorem State.frameMode_kept (value : Nat) (s : State) :
    Kept s (State.frameMode value s) := by
  unfold State.frameMode; grind [memWriteBytes_wf, foldWrites_wf, keptIff]

theorem State.frameWrite_kept (o : Origin) (off value : Nat) (s : State) : Kept s (State.frameWrite o off value s) := by
  unfold State.frameWrite
  refine ite_kept (State.frameCtrl_kept ..) <| ite_kept (State.frameMode_kept ..) <| ite_kept (State.stage_kept ..) <|
    ite_kept (State.applyOffset_kept ..) <| ite_kept (State.snapWrite_kept ..) <| ite_kept ⟨rfl, rfl, id, id, id⟩ <|
    ite_kept (State.marchCtrl_kept ..) <| ite_kept ⟨rfl, rfl, id, id, id⟩ <|
    ite_kept (ite_kept (.refl s) ⟨rfl, rfl, id, id, id⟩) <| ite_kept (ite_kept (.refl s) ⟨rfl, rfl, id, id, id⟩) <|
    ite_kept (State.logBaseWrite_kept ..) ?_
  split
  · exact State.bankOwnerWrite_kept ..
  · exact State.poolMap_kept ..
  · exact .refl s

theorem State.secCtrl_kept (value : Nat) (s : State) :
    Kept s (State.secCtrl value s) := by
  unfold State.secCtrl; grind [State.secRefuse_kept, State.startZeroise_kept, State.authWrite_kept, State.closeSession_kept, State.startSelftest_kept, memWriteBytes_wf, foldWrites_wf, keptIff]

theorem State.mgmtSession_kept (o : Origin) (off : Nat) (value : Nat) (s : State) :
    Kept s (State.mgmtSession o off value s) := by
  unfold State.mgmtSession; (try dsimp only); (repeat' split) <;> grind +splitImp [State.signCtrl_kept, State.keyPartWrite_kept, State.secTest_kept, State.stage_kept, memWriteBytes_wf, foldWrites_wf, keptIff, State.forEach_kept, foldl_kept]

theorem State.mgmtWrite_kept (o : Origin) (off : Nat) (value : Nat) (v : MemView) (between : MemView) (s : State) :
    Kept s (State.mgmtWrite o off value v between s) := by
  unfold State.mgmtWrite; grind [State.secRefuse_kept, State.auth_kept, State.imgCtrl_kept, State.stage_kept, State.secCtrl_kept, State.mgmtSession_kept, memWriteBytes_wf, foldWrites_wf, keptIff]

theorem State.fatalWrite_kept (p : Page) (off : Nat) (value : Nat) (s : State) :
    Kept s (State.fatalWrite p off value s) := by
  unfold State.fatalWrite; grind [State.startZeroise_kept, State.snapWrite_kept, State.clearW1c_kept, memWriteBytes_wf, foldWrites_wf, keptIff]

theorem State.regWrite_kept (o : Origin) (p : Page) (off : Nat) (value : Nat) (v : MemView) (between : MemView) (s : State) :
    Kept s (State.regWrite o p off value v between s) := by
  unfold State.regWrite; grind [State.doorbell_kept, State.funcReset_kept, State.poolRefused_kept, State.queueRefused_kept, State.clearW1c_kept, State.funcWrite_kept, State.frameWrite_kept, State.mgmtWrite_kept, State.fatalWrite_kept, memWriteBytes_wf, foldWrites_wf, keptIff]

theorem State.hostWrite_kept (acc : Acc) (addr : Nat) (value : Nat) (v : MemView) (between : MemView) (s : State) :
    Kept s (State.hostWrite acc addr value v between s) := by
  unfold State.hostWrite; grind [State.modBank_kept, State.count_kept, State.answer_kept, State.regWrite_kept, memWriteBytes_wf, foldWrites_wf, keptIff]

theorem execHostRegisterWrite_kept (acc : Acc) (addr : BitVec 21) (value : Word) (s : State) :
    ∀ t, execHostRegisterWrite acc addr value s = .next t → Kept s t := by
  intro t h
  unfold execHostRegisterWrite at h; (try dsimp only at h)
  refine State.turn_kept (fun t h => ?_) t h
  grind [State.turn_kept, State.hostWrite_kept, memWriteBytes_wf, foldWrites_wf, keptIff]

theorem execErrLogBaseHiWrite_kept (acc : Acc) (log : LogId) (value : Word) (s : State) :
    ∀ t, execErrLogBaseHiWrite acc log value s = .next t → Kept s t := by
  intro t h
  unfold execErrLogBaseHiWrite at h; grind [State.hostWrite_kept, memWriteBytes_wf, foldWrites_wf, keptIff]

theorem execImgStart_kept (acc : Acc) (value : Word) (v : MemView) (between : MemView) (s : State) :
    ∀ t, execImgStart acc value v between s = .next t → Kept s t := by
  intro t h
  unfold execImgStart at h; (try dsimp only at h)
  refine (State.seeMem_kept v s).trans (State.turn_kept (fun t h => ?_) t h)
  grind [State.seeMem_kept, State.turn_kept, State.hostWrite_kept, memWriteBytes_wf, foldWrites_wf, keptIff]

theorem execImgAbort_kept (acc : Acc) (value : Word) (s : State) :
    ∀ t, execImgAbort acc value s = .next t → Kept s t := by
  intro t h
  unfold execImgAbort at h; grind [State.hostWrite_kept, memWriteBytes_wf, foldWrites_wf, keptIff]

theorem execFuncResetGo_kept (acc : Acc) (fn : BitVec 6) (value : Word) (s : State) :
    ∀ t, execFuncResetGo acc fn value s = .next t → Kept s t := by
  intro t h
  unfold execFuncResetGo at h; grind [State.hostWrite_kept, memWriteBytes_wf, foldWrites_wf, keptIff]

theorem execQEnable_kept (acc : Acc) (fn : BitVec 6) (q : BitVec 9) (value : Word) (s : State) :
    ∀ t, execQEnable acc fn q value s = .next t → Kept s t := by
  intro t h
  unfold execQEnable at h; grind [State.hostWrite_kept, memWriteBytes_wf, foldWrites_wf, keptIff]

theorem execQDisable_kept (acc : Acc) (fn : BitVec 6) (q : BitVec 9) (value : Word) (s : State) :
    ∀ t, execQDisable acc fn q value s = .next t → Kept s t := by
  intro t h
  unfold execQDisable at h; grind [State.hostWrite_kept, memWriteBytes_wf, foldWrites_wf, keptIff]

theorem execQConfigWrite_kept (acc : Acc) (fn : BitVec 6) (q : BitVec 9) (reg : QReg) (value : Word) (s : State) :
    ∀ t, execQConfigWrite acc fn q reg value s = .next t → Kept s t := by
  intro t h
  unfold execQConfigWrite at h; grind [State.hostWrite_kept, memWriteBytes_wf, foldWrites_wf, keptIff]

theorem execDoorbell_kept (acc : Acc) (fn : BitVec 6) (value : Word) (s : State) :
    ∀ t, execDoorbell acc fn value s = .next t → Kept s t := by
  intro t h
  unfold execDoorbell at h; grind [State.hostWrite_kept, memWriteBytes_wf, foldWrites_wf, keptIff]

theorem execHeatRegionWrite_kept (acc : Acc) (reg : HeatReg) (value : Word) (s : State) :
    ∀ t, execHeatRegionWrite acc reg value s = .next t → Kept s t := by
  intro t h
  unfold execHeatRegionWrite at h; grind [State.hostWrite_kept, memWriteBytes_wf, foldWrites_wf, keptIff]

theorem execBankOwnerWrite_kept (acc : Acc) (b : BitVec 12) (value : Word) (s : State) :
    ∀ t, execBankOwnerWrite acc b value s = .next t → Kept s t := by
  intro t h
  unfold execBankOwnerWrite at h; grind [State.hostWrite_kept, memWriteBytes_wf, foldWrites_wf, keptIff]

theorem execMarchStart_kept (acc : Acc) (value : Word) (s : State) :
    ∀ t, execMarchStart acc value s = .next t → Kept s t := by
  intro t h
  unfold execMarchStart at h; grind [State.hostWrite_kept, memWriteBytes_wf, foldWrites_wf, keptIff]

theorem execPoolMapWrite_kept (acc : Acc) (p : BitVec 8) (value : Word) (s : State) :
    ∀ t, execPoolMapWrite acc p value s = .next t → Kept s t := by
  intro t h
  unfold execPoolMapWrite at h; grind [State.hostWrite_kept, memWriteBytes_wf, foldWrites_wf, keptIff]

theorem execPoolEnable_kept (acc : Acc) (fn : BitVec 6) (i : BitVec 8) (value : Word) (v : MemView) (s : State) :
    ∀ t, execPoolEnable acc fn i value v s = .next t → Kept s t := by
  intro t h
  unfold execPoolEnable at h; (try dsimp only at h)
  refine (State.seeMem_kept v s).trans (State.turn_kept (fun t h => ?_) t h)
  grind [State.seeMem_kept, State.turn_kept, State.hostWrite_kept, memWriteBytes_wf, foldWrites_wf, keptIff]

theorem execPoolDisable_kept (acc : Acc) (fn : BitVec 6) (i : BitVec 8) (value : Word) (v : MemView) (s : State) :
    ∀ t, execPoolDisable acc fn i value v s = .next t → Kept s t := by
  intro t h
  unfold execPoolDisable at h; (try dsimp only at h)
  refine (State.seeMem_kept v s).trans (State.turn_kept (fun t h => ?_) t h)
  grind [State.seeMem_kept, State.turn_kept, State.hostWrite_kept, memWriteBytes_wf, foldWrites_wf, keptIff]

theorem execRelayReturn_kept (acc : Acc) (fn : BitVec 6) (value : Word) (s : State) :
    ∀ t, execRelayReturn acc fn value s = .next t → Kept s t := by
  intro t h
  unfold execRelayReturn at h; grind [State.hostWrite_kept, memWriteBytes_wf, foldWrites_wf, keptIff]

theorem execFrameModeWrite_kept (acc : Acc) (value : Word) (s : State) :
    ∀ t, execFrameModeWrite acc value s = .next t → Kept s t := by
  intro t h
  unfold execFrameModeWrite at h; grind [State.hostWrite_kept, memWriteBytes_wf, foldWrites_wf, keptIff]

theorem execFrameCtrlWrite_kept (acc : Acc) (value : Word) (s : State) :
    ∀ t, execFrameCtrlWrite acc value s = .next t → Kept s t := by
  intro t h
  unfold execFrameCtrlWrite at h; grind [State.hostWrite_kept, memWriteBytes_wf, foldWrites_wf, keptIff]

theorem execPaceOffsetWrite_kept (acc : Acc) (value : Word) (s : State) :
    ∀ t, execPaceOffsetWrite acc value s = .next t → Kept s t := by
  intro t h
  unfold execPaceOffsetWrite at h; grind [State.hostWrite_kept, memWriteBytes_wf, foldWrites_wf, keptIff]

theorem execSnapAtWrite_kept (acc : Acc) (value : Word) (s : State) :
    ∀ t, execSnapAtWrite acc value s = .next t → Kept s t := by
  intro t h
  unfold execSnapAtWrite at h; grind [State.hostWrite_kept, memWriteBytes_wf, foldWrites_wf, keptIff]

theorem execSecAuth_kept (acc : Acc) (s : State) :
    ∀ t, execSecAuth acc s = .next t → Kept s t := by
  intro t h
  unfold execSecAuth at h; grind [State.hostWrite_kept, memWriteBytes_wf, foldWrites_wf, keptIff]

theorem execSecClose_kept (acc : Acc) (s : State) :
    ∀ t, execSecClose acc s = .next t → Kept s t := by
  intro t h
  unfold execSecClose at h; grind [State.hostWrite_kept, memWriteBytes_wf, foldWrites_wf, keptIff]

theorem execSecZeroise_kept (acc : Acc) (s : State) :
    ∀ t, execSecZeroise acc s = .next t → Kept s t := by
  intro t h
  unfold execSecZeroise at h; grind [State.hostWrite_kept, memWriteBytes_wf, foldWrites_wf, keptIff]

theorem execSecSelftest_kept (acc : Acc) (s : State) :
    ∀ t, execSecSelftest acc s = .next t → Kept s t := by
  intro t h
  unfold execSecSelftest at h; grind [State.hostWrite_kept, memWriteBytes_wf, foldWrites_wf, keptIff]

theorem execSignCommit_kept (acc : Acc) (value : Word) (s : State) :
    ∀ t, execSignCommit acc value s = .next t → Kept s t := by
  intro t h
  unfold execSignCommit at h; grind [State.hostWrite_kept, memWriteBytes_wf, foldWrites_wf, keptIff]

theorem execSignClear_kept (acc : Acc) (value : Word) (s : State) :
    ∀ t, execSignClear acc value s = .next t → Kept s t := by
  intro t h
  unfold execSignClear at h; grind [State.hostWrite_kept, memWriteBytes_wf, foldWrites_wf, keptIff]

theorem execKeyPartWrite_kept (acc : Acc) (f : BitVec 6) (value : Word) (s : State) :
    ∀ t, execKeyPartWrite acc f value s = .next t → Kept s t := by
  intro t h
  unfold execKeyPartWrite at h; grind [State.hostWrite_kept, memWriteBytes_wf, foldWrites_wf, keptIff]

theorem execSecTestArm_kept (acc : Acc) (value : Word) (s : State) :
    ∀ t, execSecTestArm acc value s = .next t → Kept s t := by
  intro t h
  unfold execSecTestArm at h; grind [State.hostWrite_kept, memWriteBytes_wf, foldWrites_wf, keptIff]

theorem execKeyQuery_kept (acc : Acc) (fn : BitVec 6) (value : Word) (s : State) :
    ∀ t, execKeyQuery acc fn value s = .next t → Kept s t := by
  intro t h
  unfold execKeyQuery at h; grind [State.hostWrite_kept, memWriteBytes_wf, foldWrites_wf, keptIff]

theorem execKeyZeroise_kept (acc : Acc) (fn : BitVec 6) (value : Word) (s : State) :
    ∀ t, execKeyZeroise acc fn value s = .next t → Kept s t := by
  intro t h
  unfold execKeyZeroise at h; grind [State.hostWrite_kept, memWriteBytes_wf, foldWrites_wf, keptIff]

theorem execKeyDerive_kept (acc : Acc) (fn : BitVec 6) (value : Word) (s : State) :
    ∀ t, execKeyDerive acc fn value s = .next t → Kept s t := by
  intro t h
  unfold execKeyDerive at h; grind [State.hostWrite_kept, memWriteBytes_wf, foldWrites_wf, keptIff]

theorem State.bayBlock_kept (k : Nat) (fencedBay : Bool) (s : State) :
    Kept s (State.bayBlock k fencedBay s).2 := by
  unfold State.bayBlock; grind [State.draw_kept, State.draw_kept_of, State.freeBytes_kept, State.freeBytes_kept_of, memWriteBytes_wf, foldWrites_wf, keptIff]

theorem State.bayBlock_kept_of (k : Nat) (fencedBay : Bool) (s : State) {x1 t'} (he : State.bayBlock k fencedBay s = (x1, t')) : Kept s t' := by
  have k := State.bayBlock_kept k fencedBay s
  rw [he] at k; exact k

theorem State.dumpBank_kept (b : Nat) (s : State) :
    Kept s (State.dumpBank b s).2 := by
  unfold State.dumpBank; grind [State.freeBytes_kept, State.freeBytes_kept_of, memWriteBytes_wf, foldWrites_wf, keptIff]

theorem State.dumpBank_kept_of (b : Nat) (s : State) {x1 t'} (he : State.dumpBank b s = (x1, t')) : Kept s t' := by
  have k := State.dumpBank_kept b s
  rw [he] at k; exact k

theorem State.dumpParts_kept (l : List Nat) (g : Nat → State → Bytes × State) (s : State) (hg : ∀ k s, Kept s (g k s).2) :
    Kept s (State.dumpParts l g s).2 := by
  unfold State.dumpParts
  suffices h : ∀ (l : List Nat) (p : Bytes × State), Kept p.2 (l.foldl (fun p k => ((p.1 ++ (g k p.2).1, (g k p.2).2) : Bytes × State)) p).2 from h l ([], s)
  intro l
  induction l with
  | nil => intro p; exact .refl _
  | cons a t ih => intro p; exact (hg a p.2).trans (ih (p.1 ++ (g a p.2).1, (g a p.2).2))

theorem State.sectionBytes_kept (k : Nat) (s : State) :
    Kept s (State.sectionBytes k s).2 := by
  unfold State.sectionBytes; (try dsimp only); (repeat' split) <;> grind +splitImp [State.freeBytes_kept, State.freeBytes_kept_of, State.bayBlock_kept, State.bayBlock_kept_of, State.dumpBank_kept, State.dumpBank_kept_of, State.dumpParts_kept, memWriteBytes_wf, foldWrites_wf, keptIff, State.forEach_kept, foldl_kept]

theorem State.sectionBytes_kept_of (k : Nat) (s : State) {x1 t'} (he : State.sectionBytes k s = (x1, t')) : Kept s t' := by
  have k := State.sectionBytes_kept k s
  rw [he] at k; exact k

theorem State.dumpWrite_kept (a0 : Nat) (a1 : Nat) (a2 : Bytes) (a3 : Bool) (a4 : State) :
    Kept a4 (State.dumpWrite a0 a1 a2 a3 a4).2 := by
  fun_induction State.dumpWrite a0 a1 a2 a3 a4 <;> grind [State.sysWrite_kept, State.sysWrite_kept_of, memWriteBytes_wf, foldWrites_wf, keptIff]

theorem State.dumpWrite_kept_of (a0 : Nat) (a1 : Nat) (a2 : Bytes) (a3 : Bool) (a4 : State) {x1 t'} (he : State.dumpWrite a0 a1 a2 a3 a4 = (x1, t')) : Kept a4 t' := by
  have k := State.dumpWrite_kept a0 a1 a2 a3 a4
  rw [he] at k; exact k

theorem State.dumpSection_kept (s : State) :
    Kept s (State.dumpSection s) := by
  unfold State.dumpSection; grind [State.writeHeader_kept, State.writeHeader_kept_of, State.dumpEnd_kept, State.sectionBytes_kept, State.sectionBytes_kept_of, State.dumpWrite_kept, State.dumpWrite_kept_of, memWriteBytes_wf, foldWrites_wf, keptIff]

theorem execDumpSectionWrite_kept (v : MemView) (s : State) :
    ∀ t, execDumpSectionWrite v s = .next t → Kept s t := by
  intro t h
  unfold execDumpSectionWrite at h; (try dsimp only at h)
  refine (State.seeMem_kept v s).trans (State.turn_kept (fun t h => ?_) t h)
  grind [State.seeMem_kept, State.turn_kept, State.writeHeader_kept, State.writeHeader_kept_of, State.dumpTruncated_kept, State.dumpSection_kept, memWriteBytes_wf, foldWrites_wf, keptIff]

theorem execPoolAllocate_kept (fn : BitVec 6) (i : BitVec 8) (stream : BitVec 10) (share : Option (BitVec 64 × List (BitVec 10))) (s : State) :
    ∀ t, execPoolAllocate fn i stream share s = .next t → Kept s t := by
  intro t h
  unfold execPoolAllocate at h; (try dsimp only at h)
  refine State.turn_kept (fun t h => ?_) t h
  (try dsimp only at h)
  (repeat' split at h) <;> (first | contradiction | (injection h; subst t)) <;> grind +splitImp [State.setPool_kept, State.turn_kept, State.watchPools_kept, State.streamError_kept, State.relays_kept, State.shareBuffer_kept, State.grant_kept, memWriteBytes_wf, foldWrites_wf, keptIff, State.forEach_kept, foldl_kept]

theorem execPoolGrant_kept (fn : BitVec 6) (i : BitVec 8) (s : State) :
    ∀ t, execPoolGrant fn i s = .next t → Kept s t := by
  intro t h
  unfold execPoolGrant at h; grind +splitImp [State.attempt_kept, State.watchPools_kept, State.grant_kept, State.wakeClips_kept, memWriteBytes_wf, foldWrites_wf, keptIff, State.forEach_kept, foldl_kept]

theorem execPoolRelease_kept (fn : BitVec 6) (i : BitVec 8) (stream : BitVec 10) (handle : BitVec 64) (v : MemView) (s : State) :
    ∀ t, execPoolRelease fn i stream handle v s = .next t → Kept s t := by
  intro t h
  unfold execPoolRelease at h; (try dsimp only at h)
  refine (State.seeMem_kept v s).trans (State.turn_kept (fun t h => ?_) t h)
  grind [State.seeMem_kept, State.turn_kept, State.watchPools_kept, State.releaseBuffer_kept, memWriteBytes_wf, foldWrites_wf, keptIff]

theorem execPoolCacheRefill_kept (p : BitVec 8) (v : MemView) (s : State) :
    ∀ t, execPoolCacheRefill p v s = .next t → Kept s t := by
  intro t h
  unfold execPoolCacheRefill at h; (try dsimp only at h)
  refine (State.seeMem_kept v s).trans (State.turn_kept (fun t h => ?_) t h)
  grind [State.seeMem_kept, State.turn_kept, State.ringRead_kept, memWriteBytes_wf, foldWrites_wf, keptIff]

theorem execPoolCacheSpill_kept (p : BitVec 8) (v : MemView) (s : State) :
    ∀ t, execPoolCacheSpill p v s = .next t → Kept s t := by
  intro t h
  unfold execPoolCacheSpill at h; (try dsimp only at h)
  refine (State.seeMem_kept v s).trans (State.turn_kept (fun t h => ?_) t h)
  grind [State.seeMem_kept, State.turn_kept, State.spillHandles_kept, memWriteBytes_wf, foldWrites_wf, keptIff]

theorem execPoolWatchdogFire_kept (p : BitVec 8) (v : MemView) (s : State) :
    ∀ t, execPoolWatchdogFire p v s = .next t → Kept s t := by
  intro t h
  unfold execPoolWatchdogFire at h; (try dsimp only at h)
  refine (State.seeMem_kept v s).trans (State.turn_kept (fun t h => ?_) t h)
  grind [State.logTo_kept, State.seeMem_kept, State.turn_kept, State.restartStall_kept, State.preempt_kept, memWriteBytes_wf, foldWrites_wf, keptIff]

theorem State.idleSlot_kept (n : Nat) (s : State) :
    Kept s (State.idleSlot n s) := ⟨rfl, rfl, id, id, id⟩

theorem execSillRequestIssue_kept (port : BitVec 3) (tag : BitVec 13) (s : State) :
    ∀ t, execSillRequestIssue port tag s = .next t → Kept s t := by
  intro t h
  unfold execSillRequestIssue at h; grind [State.issue_kept, State.relays_kept, State.catchUp_kept, State.finishDrains_kept, State.idleSlot_kept, memWriteBytes_wf, foldWrites_wf, keptIff]

theorem State.strayResponse_kept (n : Nat) (tag : Nat) (write : Bool) (s : State) :
    Kept s (State.strayResponse n tag write s) := by
  unfold State.strayResponse; grind [State.count_kept, State.logFrame_kept, memWriteBytes_wf, foldWrites_wf, keptIff]

theorem execSillReadBeat_kept (port : BitVec 3) (tag : BitVec 13) (beat : BitVec 5) (last : Bool) (poison : BitVec 2) (data : BitVec 1024) (s : State) :
    ∀ t, execSillReadBeat port tag beat last poison data s = .next t → Kept s t := by
  intro t h
  unfold execSillReadBeat at h; grind [State.setPort_kept, State.count_kept, State.finishDrains_kept, State.complete_kept, State.strayResponse_kept, memWriteBytes_wf, foldWrites_wf, keptIff]

theorem execSillReadErrorResponse_kept (port : BitVec 3) (tag : BitVec 13) (fault : Bool) (token : Word) (s : State) :
    ∀ t, execSillReadErrorResponse port tag fault token s = .next t → Kept s t := by
  intro t h
  unfold execSillReadErrorResponse at h; grind [State.setPort_kept, State.countResp_kept, State.finishDrains_kept, State.complete_kept, State.strayResponse_kept, memWriteBytes_wf, foldWrites_wf, keptIff]

theorem execSillWriteResponse_kept (port : BitVec 3) (tag : BitVec 13) (resp : Resp) (s : State) :
    ∀ t, execSillWriteResponse port tag resp s = .next t → Kept s t := by
  intro t h
  unfold execSillWriteResponse at h; grind [State.setPort_kept, State.countResp_kept, State.finishDrains_kept, State.complete_kept, State.strayResponse_kept, memWriteBytes_wf, foldWrites_wf, keptIff]

theorem execSillRequestTimeout_kept (port : BitVec 3) (tag : BitVec 13) (write : Bool) (s : State) :
    ∀ t, execSillRequestTimeout port tag write s = .next t → Kept s t := by
  intro t h
  unfold execSillRequestTimeout at h; grind [State.setPort_kept, State.count_kept, State.finishDrains_kept, State.complete_kept, State.frameFatal_kept, memWriteBytes_wf, foldWrites_wf, keptIff]

theorem State.withFetchWord_kept (s : State) (nbits : Nat) (w : Nat) :
    Kept s (State.withFetchWord s nbits w) := ⟨rfl, rfl, id, id, id⟩

end Sys2Proof.Machine
end

