-- ==== Sys2Proof/Laws/Calm.lean ====
section
/-! SUPPORT. What the shared operations that end streams, halt them, fence bays and complete entries leave alone: pins, pacer, march,
boundaries, host port, sensors, keys and sessions, the committed image, start-up results. -/

namespace Sys2Proof.Machine

set_option Elab.async false

/-- What those operations never change. -/
def State.quiet (s : State) := (s.pins, s.pace, s.march, s.bounds, s.host, s.therm, s.thermModel, s.heat, s.wrappers, s.stallUs, s.resp, s.sec, s.image.committed, s.frame.preTests, s.frame.fwVerified, s.frame.fwVersion, s.frame.openMode, s.frame.bootCause)

/-- It stands as it was. -/
structure Calm (s t : State) : Prop where
  same : t.quiet = s.quiet

theorem Calm.refl (s : State) : Calm s s := ⟨rfl⟩
theorem Calm.trans {a b c : State} (h : Calm a b) (k : Calm b c) : Calm a c := ⟨k.same.trans h.same⟩

theorem calmIff (s t : State) : Calm s t ↔ (t.pins = s.pins ∧ t.pace = s.pace ∧ t.march = s.march ∧ t.bounds = s.bounds ∧ t.host = s.host ∧ t.therm = s.therm ∧ t.thermModel = s.thermModel ∧ t.heat = s.heat ∧ t.wrappers = s.wrappers ∧ t.stallUs = s.stallUs ∧ t.resp = s.resp ∧ t.sec = s.sec ∧ t.image.committed = s.image.committed ∧ t.frame.preTests = s.frame.preTests ∧ t.frame.fwVerified = s.frame.fwVerified ∧ t.frame.fwVersion = s.frame.fwVersion ∧ t.frame.openMode = s.frame.openMode ∧ t.frame.bootCause = s.frame.bootCause) := by
  rw [show Calm s t ↔ t.quiet = s.quiet from ⟨Calm.same, Calm.mk⟩]
  simp only [State.quiet, Prod.mk.injEq]

theorem Calm.pins {s t : State} (h : Calm s t) : t.pins = s.pins := by simp_all only [calmIff]
theorem Calm.pace {s t : State} (h : Calm s t) : t.pace = s.pace := by simp_all only [calmIff]
theorem Calm.march {s t : State} (h : Calm s t) : t.march = s.march := by simp_all only [calmIff]
theorem Calm.bounds {s t : State} (h : Calm s t) : t.bounds = s.bounds := by simp_all only [calmIff]
theorem Calm.host {s t : State} (h : Calm s t) : t.host = s.host := by simp_all only [calmIff]
theorem Calm.therm {s t : State} (h : Calm s t) : t.therm = s.therm := by simp_all only [calmIff]
theorem Calm.thermModel {s t : State} (h : Calm s t) : t.thermModel = s.thermModel := by simp_all only [calmIff]
theorem Calm.heat {s t : State} (h : Calm s t) : t.heat = s.heat := by simp_all only [calmIff]
theorem Calm.wrappers {s t : State} (h : Calm s t) : t.wrappers = s.wrappers := by simp_all only [calmIff]
theorem Calm.stallUs {s t : State} (h : Calm s t) : t.stallUs = s.stallUs := by simp_all only [calmIff]
theorem Calm.resp {s t : State} (h : Calm s t) : t.resp = s.resp := by simp_all only [calmIff]
theorem Calm.sec {s t : State} (h : Calm s t) : t.sec = s.sec := by simp_all only [calmIff]
theorem Calm.committed {s t : State} (h : Calm s t) : t.image.committed = s.image.committed := by simp_all only [calmIff]
theorem Calm.preTests {s t : State} (h : Calm s t) : t.frame.preTests = s.frame.preTests := by simp_all only [calmIff]
theorem Calm.fwVerified {s t : State} (h : Calm s t) : t.frame.fwVerified = s.frame.fwVerified := by simp_all only [calmIff]
theorem Calm.fwVersion {s t : State} (h : Calm s t) : t.frame.fwVersion = s.frame.fwVersion := by simp_all only [calmIff]
theorem Calm.openMode {s t : State} (h : Calm s t) : t.frame.openMode = s.frame.openMode := by simp_all only [calmIff]
theorem Calm.bootCause {s t : State} (h : Calm s t) : t.frame.bootCause = s.frame.bootCause := by simp_all only [calmIff]

theorem foldl_calm {α : Type} (l : List α) (f : State → α → State) (h : ∀ s a, Calm s (f s a)) (s : State) : Calm s (l.foldl f s) := by
  induction l generalizing s with
  | nil => exact .refl s
  | cons a t ih => exact (h s a).trans (ih _)
theorem State.forEach_calm {α : Type} (l : List α) (f : α → State → State) (h : ∀ a s, Calm s (f a s)) (s : State) : Calm s (State.forEach l f s) :=
  foldl_calm l _ (fun s a => h a s) s

theorem State.setFunc_calm (f : Nat) (v : Func) (s : State) :
    Calm s (State.setFunc f v s) := ⟨rfl⟩

theorem State.modFunc_calm (f : Nat) (g : Func → Func) (s : State) :
    Calm s (State.modFunc f g s) := ⟨rfl⟩

theorem State.setQueue_calm (f : Nat) (q : Nat) (v : Queue) (s : State) :
    Calm s (State.setQueue f q v s) := ⟨rfl⟩

theorem State.modQueue_calm (f : Nat) (q : Nat) (g : Queue → Queue) (s : State) :
    Calm s (State.modQueue f q g s) := ⟨rfl⟩

theorem State.setStream_calm (f : Nat) (i : Nat) (v : Stream) (s : State) :
    Calm s (State.setStream f i v s) := ⟨rfl⟩

theorem State.modStream_calm (f : Nat) (i : Nat) (g : Stream → Stream) (s : State) :
    Calm s (State.modStream f i g s) := ⟨rfl⟩

theorem State.setBay_calm (k : Nat) (v : Bay) (s : State) :
    Calm s (State.setBay k v s) := ⟨rfl⟩

theorem State.modBay_calm (k : Nat) (g : Bay → Bay) (s : State) :
    Calm s (State.modBay k g s) := ⟨rfl⟩

theorem State.setPort_calm (n : Nat) (v : Port) (s : State) :
    Calm s (State.setPort n v s) := ⟨rfl⟩

theorem State.modPort_calm (n : Nat) (g : Port → Port) (s : State) :
    Calm s (State.modPort n g s) := ⟨rfl⟩

theorem State.setPool_calm (p : Nat) (v : Pool) (s : State) :
    Calm s (State.setPool p v s) := ⟨rfl⟩

theorem State.modPool_calm (p : Nat) (g : Pool → Pool) (s : State) :
    Calm s (State.modPool p g s) := ⟨rfl⟩

theorem State.setGroup_calm (g : Nat) (v : LockGroup) (s : State) :
    Calm s (State.setGroup g v s) := ⟨rfl⟩

theorem State.count_calm (g : Nat) (i : Nat) (c : Nat) (n : Nat) (s : State) :
    Calm s (State.count g i c n s) := ⟨rfl⟩

theorem State.setPState_calm (k : Nat) (p : PState) (s : State) :
    Calm s (State.setPState k p s) := by
  unfold State.setPState; grind [State.setBay_calm, State.count_calm, calmIff]

theorem State.setLogRing_calm (log : Option Nat) (r : LogRing) (s : State) :
    Calm s (State.setLogRing log r s) := by
  unfold State.setLogRing; grind [State.modFunc_calm, calmIff]

theorem State.logTo_calm (log : Option Nat) (code : Nat) (cls : Nat) (unit : Nat) (index : Nat) (bay : Nat) (detail : Nat) (s : State) :
    Calm s (State.logTo log code cls unit index bay detail s) := by
  unfold State.logTo; grind [State.count_calm, State.setLogRing_calm, calmIff]

theorem State.logFrame_calm (code : Nat) (cls : Nat) (unit : Nat) (index : Nat) (bay : Nat) (detail : Nat) (s : State) :
    Calm s (State.logFrame code cls unit index bay detail s) := by
  unfold State.logFrame; grind [State.logTo_calm, calmIff]

theorem State.logBoth_calm (f : Nat) (code : Nat) (cls : Nat) (unit : Nat) (index : Nat) (bay : Nat) (detail : Nat) (s : State) :
    Calm s (State.logBoth f code cls unit index bay detail s) := by
  unfold State.logBoth; grind [State.logTo_calm, calmIff]

theorem State.mustWait_calm (m : Miss) (s : State) :
    Calm s (State.mustWait m s) := by
  unfold State.mustWait; grind [calmIff]

theorem State.sendMsg_calm (fn : Nat) (vector : Nat) (payload : Word) (s : State) :
    Calm s (State.sendMsg fn vector payload s) := by
  unfold State.sendMsg; grind [State.mustWait_calm, calmIff]

theorem State.frameEvent_calm (kind : Nat) (detail : Nat) (s : State) :
    Calm s (State.frameEvent kind detail s) := by
  unfold State.frameEvent; grind [calmIff]

theorem State.requestStep_calm (k : Nat) (mhz : Nat) (s : State) :
    Calm s (State.requestStep k mhz s) := by
  unfold State.requestStep; grind [State.setBay_calm, calmIff]

theorem State.nextStep_calm (k : Nat) (s : State) :
    Calm s (State.nextStep k s) := by
  unfold State.nextStep; grind [State.requestStep_calm, calmIff]

theorem State.wantClock_calm (k : Nat) (mhz : Nat) (s : State) :
    Calm s (State.wantClock k mhz s) := by
  unfold State.wantClock; grind [State.setBay_calm, State.requestStep_calm, calmIff]

theorem State.useBanks_calm (test : Nat → Bank → Bool) (s : State) :
    Calm s (State.useBanks test s) := ⟨rfl⟩

theorem State.streamWorks_calm (gidx : Nat) (s : State) :
    Calm s (State.streamWorks gidx s) := ⟨rfl⟩

theorem State.countResp_calm (n : Nat) (r : Resp) (s : State) :
    Calm s (State.countResp n r s) := by
  unfold State.countResp; grind [State.count_calm, calmIff]

theorem State.transfer_calm (n : Nat) (tag : Nat) (r : Req) (s : State) :
    Calm s (State.transfer n tag r s) := by
  unfold State.transfer; grind [State.modPort_calm, State.count_calm, calmIff]

theorem State.issue_calm (n : Nat) (tag : Nat) (r : Req) (s : State) :
    Calm s (State.issue n tag r s) := by
  unfold State.issue; grind [State.modPort_calm, State.transfer_calm, calmIff]

theorem State.letPass_calm (n : Nat) (r : Req) (a2 : Nat) (a3 : State) :
    Calm a3 (State.letPass n r a2 a3) := by
  fun_induction State.letPass n r a2 a3 <;> grind [State.issue_calm, calmIff]

theorem State.passIdle_calm (n : Nat) (idle : Nat) (s : State) :
    Calm s (State.passIdle n idle s) := by
  unfold State.passIdle; grind [State.modPort_calm, State.count_calm, calmIff]

theorem State.toSlot_calm (n : Nat) (r : Req) (s : State) :
    Calm s (State.toSlot n r s).2 := by
  unfold State.toSlot; (try dsimp only); (repeat' split) <;> grind +splitImp [State.letPass_calm, State.passIdle_calm, calmIff, State.forEach_calm, foldl_calm]

theorem State.toSlot_calm_of (n : Nat) (r : Req) (s : State) {x1 t'} (he : State.toSlot n r s = (x1, t')) : Calm s t' := by
  have k := State.toSlot_calm n r s
  rw [he] at k; exact k

theorem State.memDone_calm (r : Req) (old : Bytes) (s : State) :
    Calm s (State.memDone r old s) := by
  unfold State.memDone; grind [calmIff]

theorem State.answered_calm (n : Nat) (r : Req) (a : Resp) (s : State) :
    Calm s (State.answered n r a s).2.2 := by
  unfold State.answered; grind [State.countResp_calm, State.memDone_calm, calmIff]

theorem State.answered_calm_of (n : Nat) (r : Req) (a : Resp) (s : State) {x1 x2 t'} (he : State.answered n r a s = (x1, x2, t')) : Calm s t' := by
  have k := State.answered_calm n r a s
  rw [he] at k; exact k

theorem State.retire_calm (n : Nat) (o : OutReq) (s : State) :
    Calm s (State.retire n o s) := ⟨rfl⟩

theorem State.access_calm (n : Nat) (r : Req) (s : State) :
    Calm s (State.access n r s).2.2 := by
  unfold State.access; (try dsimp only); (repeat' split) <;> grind +splitImp [State.modPort_calm, State.mustWait_calm, State.transfer_calm, State.toSlot_calm, State.toSlot_calm_of, State.answered_calm, State.answered_calm_of, State.retire_calm, calmIff, State.forEach_calm, foldl_calm]

theorem State.access_calm_of (n : Nat) (r : Req) (s : State) {x1 x2 t'} (he : State.access n r s = (x1, x2, t')) : Calm s t' := by
  have k := State.access_calm n r s
  rw [he] at k; exact k

theorem State.redo_calm (m : Made) (s : State) :
    Calm s (State.redo m s) := by
  unfold State.redo; grind [State.modPort_calm, State.countResp_calm, State.transfer_calm, State.toSlot_calm, State.toSlot_calm_of, State.memDone_calm, State.retire_calm, calmIff]

theorem State.waited_calm (x : Running) (s : State) :
    Calm s (State.waited x s) := by
  unfold State.waited
  have k : Calm s (x.made.foldl (fun s m => s.redo m) s) := foldl_calm _ _ (fun s m => State.redo_calm m s) s
  generalize x.made.foldl (fun s m => s.redo m) s = u at k
  dsimp only
  split
  · split
    · rename_i e
      exact (k.trans (State.toSlot_calm_of _ _ _ e)).trans (State.issue_calm ..)
    · rename_i e
      exact k.trans (State.toSlot_calm_of _ _ _ e)
  · exact k

theorem State.start_calm (s : State) :
    Calm s (State.start s) := ⟨rfl⟩

theorem State.attempt_calm {α : Type} (s : State) (body : State → α × State) (hb : ∀ s, Calm s (body s).2) : Calm s (s.attempt body).2 := by
  unfold State.attempt
  split
  · exact .refl s
  · have h := hb s.start
    dsimp only
    split
    · exact ⟨(State.waited_calm (body s.start).2.running s).same⟩
    · exact ⟨h.same⟩

theorem State.writePage_calm (w : Party) (addr : Nat) (bs : Bytes) (s : State) :
    Calm s (State.writePage w addr bs s).2 := by
  unfold State.writePage; grind [State.access_calm, State.access_calm_of, calmIff]

theorem State.writePage_calm_of (w : Party) (addr : Nat) (bs : Bytes) (s : State) {x1 t'} (he : State.writePage w addr bs s = (x1, t')) : Calm s t' := by
  have k := State.writePage_calm w addr bs s
  rw [he] at k; exact k

theorem State.sysAdd_calm (w : Party) (addr : Nat) (operand : Nat) (s : State) :
    Calm s (State.sysAdd w addr operand s).2.2 := by
  unfold State.sysAdd; grind [State.access_calm, State.access_calm_of, calmIff]

theorem State.sysAdd_calm_of (w : Party) (addr : Nat) (operand : Nat) (s : State) {x1 x2 t'} (he : State.sysAdd w addr operand s = (x1, x2, t')) : Calm s t' := by
  have k := State.sysAdd_calm w addr operand s
  rw [he] at k; exact k

theorem State.writeSpan_calm (w : Party) (a1 : Nat) (a2 : Nat) (a3 : Bytes) (a4 : State) :
    Calm a4 (State.writeSpan w a1 a2 a3 a4).2 := by
  fun_induction State.writeSpan w a1 a2 a3 a4 <;> grind [State.writePage_calm, State.writePage_calm_of, calmIff]

theorem State.writeSpan_calm_of (w : Party) (a1 : Nat) (a2 : Nat) (a3 : Bytes) (a4 : State) {x1 t'} (he : State.writeSpan w a1 a2 a3 a4 = (x1, t')) : Calm a4 t' := by
  have k := State.writeSpan_calm w a1 a2 a3 a4
  rw [he] at k; exact k

theorem State.sysWrite_calm (w : Party) (addr : Nat) (bs : Bytes) (s : State) :
    Calm s (State.sysWrite w addr bs s).2 := by
  unfold State.sysWrite; grind [State.writeSpan_calm, State.writeSpan_calm_of, calmIff]

theorem State.sysWrite_calm_of (w : Party) (addr : Nat) (bs : Bytes) (s : State) {x1 t'} (he : State.sysWrite w addr bs s = (x1, t')) : Calm s t' := by
  have k := State.sysWrite_calm w addr bs s
  rw [he] at k; exact k

theorem State.watchPools_calm (s : State) :
    Calm s (State.watchPools s) := by
  unfold State.watchPools; grind +splitImp [State.setPool_calm, State.count_calm, calmIff, State.forEach_calm, foldl_calm]

theorem State.restartStall_calm (p : Nat) (s : State) :
    Calm s (State.restartStall p s) := ⟨rfl⟩

theorem State.relayCopy_calm (f : Nat) (rec_ : Bytes) (s : State) :
    Calm s (State.relayCopy f rec_ s) := by
  unfold State.relayCopy; grind [State.count_calm, calmIff]

theorem State.relayWrite_calm (f : Nat) (i : Nat) (x : Stream) (r : RelayRec) (s : State) :
    Calm s (State.relayWrite f i x r s).2 := by
  unfold State.relayWrite; grind [State.sendMsg_calm, State.sysWrite_calm, State.sysWrite_calm_of, State.relayCopy_calm, calmIff]

theorem State.relayWrite_calm_of (f : Nat) (i : Nat) (x : Stream) (r : RelayRec) (s : State) {x1 t'} (he : State.relayWrite f i x r s = (x1, t')) : Calm s t' := by
  have k := State.relayWrite_calm f i x r s
  rw [he] at k; exact k

theorem State.relayPut_calm (f : Nat) (i : Nat) (r : RelayRec) (s : State) :
    Calm s (State.relayPut f i r s).2 := by
  unfold State.relayPut; grind [State.setStream_calm, State.count_calm, State.relayWrite_calm, State.relayWrite_calm_of, calmIff]

theorem State.relayPut_calm_of (f : Nat) (i : Nat) (r : RelayRec) (s : State) {x1 t'} (he : State.relayPut f i r s = (x1, t')) : Calm s t' := by
  have k := State.relayPut_calm f i r s
  rw [he] at k; exact k

theorem State.relayQueue_calm (f : Nat) (i : Nat) (r : RelayRec) (s : State) :
    Calm s (State.relayQueue f i r s) := ⟨rfl⟩

theorem State.voidStream_calm (f : Nat) (i : Nat) (cause : Nat) (at_ : Nat) (s : State) :
    Calm s (State.voidStream f i cause at_ s) := by
  unfold State.voidStream; grind +splitImp [State.setStream_calm, State.count_calm, calmIff, State.forEach_calm, foldl_calm]

theorem State.haltCore_calm (f : Nat) (i : Nat) (code : Nat) (detail : Nat) (s : State) :
    Calm s (State.haltCore f i code detail s) := by
  unfold State.haltCore; grind [State.setStream_calm, State.count_calm, State.logTo_calm, State.watchPools_calm, calmIff]

theorem State.streamError_calm (f : Nat) (i : Nat) (code : Nat) (detail : Nat) (s : State) :
    Calm s (State.streamError f i code detail s) := by
  unfold State.streamError; grind [State.relayQueue_calm, State.haltCore_calm, calmIff]

theorem State.addFault_calm (f : Nat) (i : Nat) (addr : Nat) (token : Word) (write : Bool) (report : Bool) (s : State) :
    Calm s (State.addFault f i addr token write report s) := by
  unfold State.addFault; grind [State.modStream_calm, calmIff]

theorem State.streamFault_calm (f : Nat) (i : Nat) (addr : Nat) (token : Word) (write : Bool) (s : State) :
    Calm s (State.streamFault f i addr token write s) := by
  unfold State.streamFault; grind [State.haltCore_calm, State.addFault_calm, calmIff]

theorem State.streamDecerr_calm (f : Nat) (i : Nat) (addr : Nat) (write : Bool) (s : State) :
    Calm s (State.streamDecerr f i addr write s) := by
  unfold State.streamDecerr; grind [State.streamError_calm, State.addFault_calm, calmIff]

theorem State.streamResp_calm (f : Nat) (i : Nat) (addr : Nat) (write : Bool) (r : Resp) (s : State) :
    Calm s (State.streamResp f i addr write r s) := by
  unfold State.streamResp; grind [State.streamError_calm, State.streamFault_calm, State.streamDecerr_calm, calmIff]

theorem State.relayPop_calm (f : Nat) (i : Nat) (s : State) :
    Calm s (State.relayPop f i s) := ⟨rfl⟩

theorem State.relayDecerr_calm (f : Nat) (i : Nat) (s : State) :
    Calm s (State.relayDecerr f i s) := by
  unfold State.relayDecerr; grind [State.modStream_calm, State.streamDecerr_calm, calmIff]

theorem State.relaySettle_calm (a0 : Nat) (a1 : List Nat) (a2 : State) :
    Calm a2 (State.relaySettle a0 a1 a2) := by
  fun_induction State.relaySettle a0 a1 a2 <;> grind [State.logTo_calm, State.attempt_calm, State.relayPut_calm, State.relayPut_calm_of, State.streamFault_calm, State.relayPop_calm, State.relayDecerr_calm, calmIff]

theorem State.relays_calm (s : State) :
    Calm s (State.relays s) := by
  unfold State.relays; grind [State.relaySettle_calm, calmIff]

theorem State.relayPost_calm (f : Nat) (i : Nat) (r : RelayRec) (s : State) :
    Calm s (State.relayPost f i r s) := by
  unfold State.relayPost; grind [State.relayQueue_calm, State.relays_calm, calmIff]

theorem State.relayEnd_calm (f : Nat) (i : Nat) (status : Nat) (s : State) :
    Calm s (State.relayEnd f i status s) := by
  unfold State.relayEnd; grind [State.setStream_calm, State.attempt_calm, State.relayPut_calm, State.relayPut_calm_of, calmIff]

theorem State.poolFault_calm (p : Nat) (code : Nat) (detail : Nat) (s : State) :
    Calm s (State.poolFault p code detail s) := by
  unfold State.poolFault; grind +splitImp [State.setPool_calm, State.logTo_calm, State.streamError_calm, State.relays_calm, calmIff, State.forEach_calm, foldl_calm]

theorem State.poolResp_calm (p : Nat) (addr : Nat) (r : Resp) (s : State) :
    Calm s (State.poolResp p addr r s) := by
  unfold State.poolResp; grind [State.poolFault_calm, calmIff]

theorem State.ringWrite_calm (p : Nat) (a1 : List (List Nat)) (a2 : State) :
    Calm a2 (State.ringWrite p a1 a2) := by
  fun_induction State.ringWrite p a1 a2 <;> grind [State.setPool_calm, State.sysWrite_calm, State.sysWrite_calm_of, State.poolResp_calm, calmIff]

theorem State.spillHandles_calm (p : Nat) (n : Nat) (s : State) :
    Calm s (State.spillHandles p n s) := by
  unfold State.spillHandles; grind [State.ringWrite_calm, calmIff]

theorem State.freeBuffer_calm (p : Nat) (handle : Nat) (s : State) :
    Calm s (State.freeBuffer p handle s) := by
  unfold State.freeBuffer; grind [State.modPool_calm, State.count_calm, State.spillHandles_calm, calmIff]

theorem State.releaseBuffer_calm (p : Nat) (key : Nat) (handle : Nat) (s : State) :
    Calm s (State.releaseBuffer p key handle s) := by
  unfold State.releaseBuffer; (try dsimp only); (repeat' split) <;> grind +splitImp [State.setPool_calm, State.modPool_calm, State.sysAdd_calm, State.sysAdd_calm_of, State.poolFault_calm, State.poolResp_calm, State.freeBuffer_calm, calmIff, State.forEach_calm, foldl_calm]

theorem State.releaseLater_calm (p : Nat) (key : Nat) (handle : Nat) (s : State) :
    Calm s (State.releaseLater p key handle s) := by
  unfold State.releaseLater; grind [State.modPool_calm, State.attempt_calm, State.releaseBuffer_calm, calmIff]

theorem State.releaseAll_calm (key : Nat) (keep : Holder → Bool) (s : State) :
    Calm s (State.releaseAll key keep s) := by
  unfold State.releaseAll; grind +splitImp [State.setPool_calm, State.releaseLater_calm, calmIff, State.forEach_calm, foldl_calm]

theorem State.dropReqs_calm (test : Req → Bool) (s : State) :
    Calm s (State.dropReqs test s) := ⟨rfl⟩

theorem State.dropQueueReads_calm (f : Nat) (q : Nat) (all : Bool) (s : State) :
    Calm s (State.dropQueueReads f q all s) := by
  unfold State.dropQueueReads; grind [State.dropReqs_calm, calmIff]

theorem State.queueFault_calm (f q code detail : Nat) (s : State) : Calm s (State.queueFault f q code detail s) := by
  unfold State.queueFault
  dsimp only
  split
  · exact .refl s
  · exact ((State.dropQueueReads_calm ..).trans (State.setQueue_calm ..)).trans (State.logTo_calm ..)

theorem State.queueMsg_calm (f : Nat) (q : Nat) (s : State) :
    Calm s (State.queueMsg f q s) := by
  unfold State.queueMsg; grind [State.setQueue_calm, State.sendMsg_calm, calmIff]

theorem State.indexAdd_calm (f : Nat) (q : Nat) (off : Nat) (expected : Nat) (addend : Nat) (s : State) :
    Calm s (State.indexAdd f q off expected addend s).2 := by
  unfold State.indexAdd; (try dsimp only); (repeat' split) <;> grind +splitImp [State.sysAdd_calm, State.sysAdd_calm_of, State.queueFault_calm, calmIff, State.forEach_calm, foldl_calm]

theorem State.indexAdd_calm_of (f : Nat) (q : Nat) (off : Nat) (expected : Nat) (addend : Nat) (s : State) {x1 t'} (he : State.indexAdd f q off expected addend s = (x1, t')) : Calm s t' := by
  have k := State.indexAdd_calm f q off expected addend s
  rw [he] at k; exact k

theorem State.writeError_calm (f : Nat) (q : Nat) (entry : Nat) (lap : Nat) (code : Nat) (opcode : Nat) (user : Nat) (detail : Nat) (s : State) :
    Calm s (State.writeError f q entry lap code opcode user detail s) := by
  unfold State.writeError; (try dsimp only); (repeat' split) <;> grind +splitImp [State.modQueue_calm, State.count_calm, State.sysWrite_calm, State.sysWrite_calm_of, State.queueFault_calm, State.queueMsg_calm, State.indexAdd_calm, State.indexAdd_calm_of, calmIff, State.forEach_calm, foldl_calm]

theorem Later.run_calm (l : Later) (s : State) :
    Calm s (Later.run l s) := by
  unfold Later.run; grind [State.relayWrite_calm, State.relayWrite_calm_of, State.releaseBuffer_calm, State.writeError_calm, calmIff]

theorem State.orLater_calm (l : Later) (s : State) : Calm s (State.orLater l s) := by
  have k : Calm s (s.attempt (fun s => ((), l.run s))).2 := State.attempt_calm s _ (fun s => Later.run_calm l s)
  have w (u : State) (x : List Later) (h : Calm s u) : Calm s { u with later := x } := ⟨h.same⟩
  have ite {c : Prop} [Decidable c] {a b : State} (ha : Calm s a) (hb : Calm s b) : Calm s (if c then a else b) := by split <;> assumption
  unfold State.orLater
  refine ite (w s _ (.refl s)) ?_
  split
  · rename_i e; rw [e] at k; exact k
  · rename_i e; rw [e] at k; exact w _ _ k

theorem State.errorRecord_calm (f : Nat) (q : Nat) (entry : Nat) (lap : Nat) (code : Nat) (opcode : Nat) (user : Nat) (detail : Nat) (s : State) :
    Calm s (State.errorRecord f q entry lap code opcode user detail s) := by
  unfold State.errorRecord; grind [State.orLater_calm, calmIff]

theorem State.modJob_calm (f : Nat) (q : Nat) (j : Job) (g : Job → Job) (s : State) :
    Calm s (State.modJob f q j g s) := ⟨rfl⟩

theorem State.entryDone_calm (f : Nat) (q : Nat) (j : Job) (bs : Bytes) (code : Nat) (detail : Nat) (s : State) :
    Calm s (State.entryDone f q j bs code detail s) := by
  unfold State.entryDone; grind [State.errorRecord_calm, State.modJob_calm, calmIff]

theorem State.jobDone_calm (f : Nat) (q : Nat) (j : Job) (code : Nat) (detail : Nat) (s : State) :
    Calm s (State.jobDone f q j code detail s) := by
  unfold State.jobDone; grind [State.errorRecord_calm, State.modJob_calm, calmIff]

theorem State.endTransfers_calm (f : Nat) (i : Nat) (s : State) :
    Calm s (State.endTransfers f i s) := by
  unfold State.endTransfers; grind +splitImp [State.entryDone_calm, calmIff, State.forEach_calm, foldl_calm]

theorem State.wakeJobs_calm (key : Nat) (s : State) :
    Calm s (State.wakeJobs key s) := ⟨rfl⟩

theorem State.wakeSamples_calm (f : Nat) (i : Nat) (s : State) :
    Calm s (State.wakeSamples f i s) := ⟨rfl⟩

theorem State.putBeats_calm (bay : Nat) (tenon : Nat) (bs : List Beat) (s : State) :
    Calm s (State.putBeats bay tenon bs s) := ⟨rfl⟩

theorem State.sendFlush_calm (f : Nat) (i : Nat) (s : State) :
    Calm s (State.sendFlush f i s) := by
  unfold State.sendFlush; grind +splitImp [State.putBeats_calm, calmIff, State.forEach_calm, foldl_calm]

theorem State.releaseHead_calm (f : Nat) (i : Nat) (time : Option Nat) (s : State) :
    Calm s (State.releaseHead f i time s) := by
  unfold State.releaseHead; grind [State.setStream_calm, State.relayPost_calm, calmIff]

theorem State.releaseFreed_calm (g : LockGroup) (a1 : Nat) (a2 : State) :
    Calm a2 (State.releaseFreed g a1 a2) := by
  fun_induction State.releaseFreed g a1 a2 <;> grind +splitImp [State.releaseHead_calm, calmIff, State.forEach_calm, foldl_calm]

theorem State.leaveGroup_calm (f : Nat) (i : Nat) (s : State) :
    Calm s (State.leaveGroup f i s) := by
  unfold State.leaveGroup; (try dsimp only); (repeat' split) <;> grind +splitImp [State.modStream_calm, State.setGroup_calm, State.releaseFreed_calm, calmIff, State.forEach_calm, foldl_calm]

theorem State.leaveBanks_calm (gidx : Nat) (s : State) :
    Calm s (State.leaveBanks gidx s) := ⟨rfl⟩

theorem State.freeStream_calm (f : Nat) (i : Nat) (s : State) :
    Calm s (State.freeStream f i s) := by
  unfold State.freeStream; grind [State.modFunc_calm, State.setStream_calm, State.watchPools_calm, State.releaseAll_calm, State.dropReqs_calm, State.endTransfers_calm, State.wakeJobs_calm, State.sendFlush_calm, State.leaveGroup_calm, State.leaveBanks_calm, calmIff]

theorem State.freeDrained_calm (keys : List Nat) (n : Nat) (s : State) : Calm s (State.freeDrained keys n s) := by
  induction n generalizing s with
  | zero => exact .refl s
  | succ n ih =>
    rw [State.freeDrained]
    refine (State.forEach_calm keys _ (fun k s => ?_) s).trans (ih _)
    split
    · exact State.freeStream_calm ..
    · exact .refl s

theorem State.closeStream_calm (f : Nat) (i : Nat) (s : State) :
    Calm s (State.closeStream f i s) := by
  unfold State.closeStream; grind [State.freeStream_calm, State.freeDrained_calm, calmIff]

theorem State.finishDrain_calm (f : Nat) (i : Nat) (s : State) :
    Calm s (State.finishDrain f i s) := by
  unfold State.finishDrain; grind [State.closeStream_calm, calmIff]

theorem State.finishDrains_calm (s : State) :
    Calm s (State.finishDrains s) := by
  unfold State.finishDrains; grind +splitImp [State.wakeSamples_calm, State.finishDrain_calm, calmIff, State.forEach_calm, foldl_calm]

theorem State.abortStream_calm (f : Nat) (i : Nat) (s : State) :
    Calm s (State.abortStream f i s) := by
  unfold State.abortStream; grind [State.relayEnd_calm, State.dropReqs_calm, State.closeStream_calm, calmIff]

theorem State.abortWhere_calm (test : Nat → Nat → Stream → Bool) (s : State) :
    Calm s (State.abortWhere test s) := by
  unfold State.abortWhere; grind +splitImp [State.abortStream_calm, calmIff, State.forEach_calm, foldl_calm]

theorem State.complete_calm (n : Nat) (r : Req) (resp : Resp) (data : Bytes) (s : State) :
    Calm s (State.complete n r resp data s) := by
  unfold State.complete; (try dsimp only); (repeat' split) <;> grind +splitImp [State.modQueue_calm, State.modStream_calm, State.modPort_calm, State.count_calm, State.memDone_calm, State.streamResp_calm, State.relays_calm, State.queueFault_calm, calmIff, State.forEach_calm, foldl_calm]

theorem State.pushReq_calm (n : Nat) (r : Req) (s : State) :
    Calm s (State.pushReq n r s) := by
  unfold State.pushReq; grind [State.modPort_calm, State.count_calm, State.complete_calm, calmIff]

theorem State.killPort_calm (n : Nat) (s : State) :
    Calm s (State.killPort n s) := by
  unfold State.killPort; grind +splitImp [State.setPort_calm, State.complete_calm, calmIff, State.forEach_calm, foldl_calm]

theorem State.rejectImage_calm (detail : Nat) (sect : Nat) (s : State) :
    Calm s (State.rejectImage detail sect s) := by
  unfold State.rejectImage; grind [State.logFrame_calm, State.dropReqs_calm, calmIff]

theorem State.stopLoad_calm (detail : Nat) (s : State) :
    Calm s (State.stopLoad detail s) := by
  unfold State.stopLoad; grind [State.rejectImage_calm, calmIff]

theorem State.walkStream_calm (f : Nat) (i : Nat) (s : State) :
    Calm s (State.walkStream f i s) := by
  unfold State.walkStream; grind [State.modStream_calm, State.count_calm, State.haltCore_calm, calmIff]

theorem State.walkCause_calm (c : Nat) (s : State) :
    Calm s (State.walkCause c s) := by
  have ha : ∀ (f : Frame), (f.addCause c).preTests = f.preTests ∧ (f.addCause c).fwVerified = f.fwVerified ∧ (f.addCause c).fwVersion = f.fwVersion ∧
    (f.addCause c).openMode = f.openMode ∧ (f.addCause c).bootCause = f.bootCause := by
    intro f; unfold Frame.addCause; (repeat' split) <;> simp
  unfold State.walkCause; dsimp only; (repeat' split) <;> grind +splitImp [State.stopLoad_calm, State.count_calm, State.frameEvent_calm, State.walkStream_calm, State.relays_calm, calmIff, State.forEach_calm, foldl_calm]

theorem State.dropHandovers_calm (k : Nat) (s : State) :
    Calm s (State.dropHandovers k s) := ⟨rfl⟩

theorem State.fence_calm (k : Nat) (cause : Nat) (s : State) :
    Calm s (State.fence k cause s) := by
  unfold State.fence; grind [State.modBay_calm, State.setPState_calm, State.logFrame_calm, State.frameEvent_calm, State.abortWhere_calm, State.rejectImage_calm, State.walkCause_calm, State.dropHandovers_calm, calmIff]

theorem State.isolateDie_calm (d : Nat) (s : State) :
    Calm s (State.isolateDie d s) := by
  unfold State.isolateDie; grind +splitImp [State.modPort_calm, State.count_calm, State.logFrame_calm, State.killPort_calm, State.fence_calm, calmIff, State.forEach_calm, foldl_calm]

theorem State.isolateUnreachable_calm (s : State) :
    Calm s (State.isolateUnreachable s) := by
  unfold State.isolateUnreachable; grind +splitImp [State.isolateDie_calm, calmIff, State.forEach_calm, foldl_calm]

theorem State.steerDie_calm (d : Nat) (s : State) :
    Calm s (State.steerDie d s) := by
  unfold State.steerDie; grind +splitImp [State.nextStep_calm, State.wantClock_calm, calmIff, State.forEach_calm, foldl_calm]

theorem State.dropPools_calm (f : Nat) (s : State) :
    Calm s (State.dropPools f s) := ⟨rfl⟩

theorem State.stopQueues_calm (f : Nat) (s : State) :
    Calm s (State.stopQueues f s) := by
  unfold State.stopQueues; grind [State.dropReqs_calm, calmIff]

theorem State.haltFunction_calm (f : Nat) (s : State) :
    Calm s (State.haltFunction f s) := by
  unfold State.haltFunction; grind [State.modFunc_calm, State.logBoth_calm, State.abortWhere_calm, State.dropPools_calm, State.stopQueues_calm, calmIff]

theorem State.sampleCount_calm (f : Nat) (code : Nat) (bay : Nat) (s : State) :
    Calm s (State.sampleCount f code bay s) := by
  unfold State.sampleCount; grind [State.count_calm, calmIff]

theorem State.sampleError_calm (f : Nat) (i : Nat) (code : Nat) (bay : Nat) (detail : Nat) (s : State) :
    Calm s (State.sampleError f i code bay detail s) := by
  unfold State.sampleError; grind [State.logTo_calm, State.sampleCount_calm, calmIff]

theorem State.runStarts_calm (f : Nat) (i : Nat) (seq : Bool) (r : EpochRun) (s : State) :
    Calm s (State.runStarts f i seq r s) := by
  unfold State.runStarts; grind [State.setStream_calm, calmIff]

theorem State.takeFixed_calm (f : Nat) (i : Nat) (bay : Nat) (body : Bytes) (r : EpochRun) (y : InFlight) (s : State) :
    Calm s (State.takeFixed f i bay body r y s) := by
  unfold State.takeFixed; grind [State.setStream_calm, State.count_calm, State.sampleError_calm, calmIff]

theorem State.takeDoc_calm (f : Nat) (i : Nat) (bay : Nat) (body : Bytes) (r : EpochRun) (y : InFlight) (s : State) :
    Calm s (State.takeDoc f i bay body r y s) := by
  unfold State.takeDoc; grind [State.setStream_calm, State.count_calm, State.sampleError_calm, calmIff]

theorem State.placeRows_calm (f : Nat) (i : Nat) (body : Bytes) (s : State) :
    Calm s (State.placeRows f i body s) := by
  unfold State.placeRows; grind [State.setStream_calm, State.count_calm, calmIff]

theorem State.takeReady_calm (f : Nat) (i : Nat) (bay : Nat) (body : Bytes) (a4 : Nat) (a5 : State) :
    Calm a5 (State.takeReady f i bay body a4 a5) := by
  fun_induction State.takeReady f i bay body a4 a5 <;> grind [State.runStarts_calm, State.takeFixed_calm, State.takeDoc_calm, State.placeRows_calm, calmIff]

theorem State.closeRows_calm (f : Nat) (i : Nat) (body : Bytes) (s : State) :
    Calm s (State.closeRows f i body s) := by
  unfold State.closeRows; grind [State.setStream_calm, State.placeRows_calm, calmIff]

theorem State.pushBlocks_calm (f : Nat) (i : Nat) (s : State) :
    Calm s (State.pushBlocks f i s) := by
  unfold State.pushBlocks; grind +splitImp [State.pushReq_calm, calmIff, State.forEach_calm, foldl_calm]

theorem State.startXfer_calm (f : Nat) (i : Nat) (body : Bytes) (s : State) :
    Calm s (State.startXfer f i body s) := by
  unfold State.startXfer; grind [State.setStream_calm, State.streamWorks_calm, State.pushBlocks_calm, calmIff]

theorem State.pump_calm (f : Nat) (i : Nat) (s : State) :
    Calm s (State.pump f i s) := by
  unfold State.pump; (try dsimp only); (repeat' split) <;> grind +splitImp [State.wakeSamples_calm, State.takeReady_calm, State.closeRows_calm, State.startXfer_calm, calmIff, State.forEach_calm, foldl_calm]

theorem State.queueRead_calm (f : Nat) (addr : Nat) (owner : Owner) (s : State) :
    Calm s (State.queueRead f addr owner s) := by
  unfold State.queueRead; grind [State.pushReq_calm, calmIff]

theorem State.queueDisable_calm (f : Nat) (q : Nat) (s : State) :
    Calm s (State.queueDisable f q s) := by
  unfold State.queueDisable; grind [State.setQueue_calm, State.dropReqs_calm, State.dropQueueReads_calm, calmIff]

theorem State.fetchSlots_calm (f : Nat) (q : Nat) (posted : Bool) (n : Nat) (first : Nat) (s : State) :
    Calm s (State.fetchSlots f q posted n first s) := by
  unfold State.fetchSlots; grind +splitImp [State.queueRead_calm, calmIff, State.forEach_calm, foldl_calm]

theorem State.publishHead_calm (f : Nat) (q : Nat) (s : State) :
    Calm s (State.publishHead f q s) := by
  unfold State.publishHead; grind [State.modQueue_calm, State.count_calm, State.queueMsg_calm, State.indexAdd_calm, State.indexAdd_calm_of, State.complete_calm, calmIff]

theorem State.deliverHead_calm (f : Nat) (i : Nat) (time : Option Nat) (s : State) :
    Calm s (State.deliverHead f i time s) := by
  unfold State.deliverHead; grind [State.wakeSamples_calm, State.releaseHead_calm, State.finishDrain_calm, State.pump_calm, calmIff]

theorem State.relayReturn_calm (f : Nat) (value : Nat) (s : State) :
    Calm s (State.relayReturn f value s) := by
  unfold State.relayReturn; grind [State.setStream_calm, State.logTo_calm, State.relays_calm, State.finishDrains_calm, State.pump_calm, calmIff]

theorem State.strayResponse_calm (n : Nat) (tag : Nat) (write : Bool) (s : State) :
    Calm s (State.strayResponse n tag write s) := by
  unfold State.strayResponse; grind [State.count_calm, State.logFrame_calm, calmIff]

end Sys2Proof.Machine
end

