-- ==== Sys2Proof/Laws/Ecc.lean ====
section
/-! SUPPORT. What the 144/128 code does with codewords of zeros, whatever its columns are (R56; log 10). -/

namespace Sys2Proof.Machine

/-- Of zeros the check bits are zeros, whatever the columns of the code. -/
theorem eccCheck_zero : eccCheck 0 = 0 := by
  have h : ∀ (l : List (Nat × Nat)), l.foldl (fun n p => if (0 : BitVec 128).getLsbD p.2 then n ^^^ p.1 else n) 0 = 0 := by
    intro l
    induction l with
    | nil => rfl
    | cons a t ih => simp
  unfold eccCheck
  rw [h]
  rfl

/-- A codeword of zeros as it is read. -/
theorem read_zero : Codeword.read ⟨0, 0⟩ = some (codewordOf 0, 0) := by
  have h : ((0 : BitVec 16) ^^^ 0).toNat = 0 := rfl
  simp only [Codeword.read, readCodeword, eccCheck_zero, if_pos h]
  rfl

/-- One of zeros with one wrong check symbol. -/
theorem read_one : Codeword.read ⟨0, 1⟩ = some (codewordOf 0, 1) := by
  have h : ((0 : BitVec 16) ^^^ 1).toNat ≠ 0 := by decide
  have k : ((List.range 4).filter (fun j => fld ((0 : BitVec 16) ^^^ 1).toNat (4 * j) 4 != 0)).length = 1 := by decide
  simp only [Codeword.read, readCodeword, eccCheck_zero, if_neg h, if_pos k]
  rfl

/-- Some wrong check bits of zeros are those of no single wrong symbol: there are 481 values with two wrong check symbols here, and 480
wrong patterns of one symbol of the data. -/
theorem uncorrectable_exists : ∃ c : BitVec 16, Codeword.read ⟨0, c⟩ = none := by
  by_contra h
  have two : ∀ k ∈ List.range 481, (0 ^^^ BitVec.ofNat 16 (0x1100 + k)).toNat ≠ 0 ∧
      ((List.range 4).filter (fun j => fld (0 ^^^ BitVec.ofNat 16 (0x1100 + k)).toNat (4 * j) 4 != 0)).length ≠ 1 := by decide +kernel
  have distinct : ((List.range 481).map (fun k => BitVec.ofNat 16 (0x1100 + k))).Nodup := by
    refine List.nodup_range.map_on fun i hi j hj e => ?_
    have hi := List.mem_range.mp hi
    have hj := List.mem_range.mp hj
    have e := congrArg BitVec.toNat e
    simp only [BitVec.toNat_ofNat] at e
    omega
  have within : (List.range 481).map (fun k => BitVec.ofNat 16 (0x1100 + k)) ⊆
      (List.range 480).map (fun n => eccCheck (0 ^^^ BitVec.ofNat 128 ((n % 15 + 1) * 2 ^ (4 * (n / 15))))) := by
    intro c hc
    obtain ⟨k, hk, rfl⟩ := List.mem_map.mp hc
    by_contra hn
    refine h ⟨BitVec.ofNat 16 (0x1100 + k), ?_⟩
    have hf : fixData 0 (BitVec.ofNat 16 (0x1100 + k)) = none := by
      simp only [fixData, List.findSome?_eq_none_iff]
      intro n m
      rw [if_neg]
      exact fun e => hn (List.mem_map.mpr ⟨n, m, e⟩)
    simp only [Codeword.read, readCodeword, eccCheck_zero, if_neg (two k hk).1, if_neg (two k hk).2, hf]
    rfl
  have := (List.subperm_of_subset distinct within).length_le
  simp at this

end Sys2Proof.Machine
end

