-- ==== Sys2Proof/Laws/Memory.lean ====
section
/-! SUPPORT. What a read of the licensee's memory gives after a write (log 3). -/

namespace Sys2Proof.Machine

set_option Elab.async false

theorem memRead_below {m : Mem} {lo a : Nat} (h : memWfFrom lo m = true) (ha : a < lo) : memRead m a = 0 := by
  induction m generalizing lo with
  | nil => rfl
  | cons p t ih =>
    obtain ⟨k, b⟩ := p
    simp only [memWfFrom, Bool.and_eq_true, decide_eq_true_eq] at h
    rw [memRead, if_neg (by omega)]
    exact ih h.2 (by omega)

theorem memRead_memDrop {m : Mem} {lo : Nat} (h : memWfFrom lo m = true) (a b : Nat) :
    memRead (memDrop m a) b = if b = a then 0 else memRead m b := by
  induction m generalizing lo with
  | nil => simp [memDrop, memRead]
  | cons p t ih =>
    obtain ⟨k, v⟩ := p
    simp only [memWfFrom, Bool.and_eq_true, decide_eq_true_eq] at h
    unfold memDrop
    by_cases hk : k = a
    · subst hk
      rw [if_pos rfl]
      by_cases hb : b = k
      · subst hb; rw [if_pos rfl]; exact memRead_below h.2 (by omega)
      · rw [if_neg hb, memRead, if_neg (by omega)]
    · rw [if_neg hk, memRead, memRead, ih h.2]
      by_cases hb : k = b
      · rw [if_pos hb, if_pos hb, if_neg (by omega)]
      · rw [if_neg hb, if_neg hb]

theorem memRead_cons (k : Nat) (w : Byte) (t : Mem) (b : Nat) : memRead ((k, w) :: t) b = if b = k then w else memRead t b := by
  rw [memRead]; by_cases h : k = b
  · rw [if_pos h, if_pos h.symm]
  · rw [if_neg h, if_neg (Ne.symm h)]

theorem memRead_memPut (m : Mem) (a b : Nat) (v : Byte) : memRead (memPut m a v) b = if b = a then v else memRead m b := by
  induction m with
  | nil => rw [memPut, memRead_cons]
  | cons p t ih =>
    obtain ⟨k, w⟩ := p
    unfold memPut
    split
    · rw [memRead_cons]
    · split
      · subst a; rw [memRead_cons, memRead_cons]; split <;> rfl
      · rw [memRead_cons, memRead_cons, ih]
        by_cases h : b = k
        · rw [if_pos h, if_pos h, if_neg (by omega)]
        · rw [if_neg h, if_neg h]

/-- A read after a write of one byte: the byte written, and every other byte as before. -/
theorem memRead_memWrite {m : Mem} (h : m.wf = true) (a b : Nat) (v : Byte) :
    memRead (memWrite m a v) b = if b = a then v else memRead m b := by
  unfold memWrite
  split
  · subst v; exact memRead_memDrop h a b
  · exact memRead_memPut m a b v

/-- A byte outside the span of a write is as before. -/
theorem memRead_memWriteBytes_other (bs : Bytes) : ∀ {m : Mem} (_ : m.wf = true) (a b : Nat),
    (∀ i, i < bs.length → b ≠ (a + i) % 2 ^ 64) → memRead (memWriteBytes m a bs) b = memRead m b := by
  induction bs with
  | nil => intros; rfl
  | cons v t ih =>
    intro m h a b hb
    have h0 := hb 0 (by simp)
    rw [memWriteBytes, ih (memWrite_wf m _ v h) (a + 1) b (fun i hi => ?_), memRead_memWrite h, if_neg (by simpa using h0)]
    have := hb (i + 1) (by simpa using hi)
    rwa [show a + (i + 1) = a + 1 + i by omega] at this

/-- A byte of the span of a write that fits the address space is the byte written. -/
theorem memRead_memWriteBytes_same (bs : Bytes) : ∀ {m : Mem} (_ : m.wf = true) (a : Nat) (_ : bs.length ≤ 2 ^ 64) (i : Nat)
    (hi : i < bs.length), memRead (memWriteBytes m a bs) ((a + i) % 2 ^ 64) = bs[i] := by
  induction bs with
  | nil => intro m _ a _ i hi; simp at hi
  | cons v t ih =>
    intro m h a hl i hi
    simp only [List.length_cons] at hl hi
    match i, hi with
    | 0, _ =>
      rw [memWriteBytes, memRead_memWriteBytes_other t (memWrite_wf m _ v h) (a + 1) _ (fun j hj => by omega), memRead_memWrite h]
      simp
    | i + 1, hi =>
      rw [show a + (i + 1) = a + 1 + i by omega]
      exact ih (memWrite_wf m _ v h) (a + 1) (by omega) i (by omega)

end Sys2Proof.Machine
end

