-- ==== Sys2Proof/Tests/Slice0.lean ====
section
/-! SUPPORT. Small checks of the model, each on one step: examples whose outcome the rules of spec/ give, ill-formed commands that the
check refuses, and for every statement a state and operands that meet its hypotheses. -/

namespace Sys2Proof.Tests

set_option Elab.async false

open Sys2Proof Sys2Proof.Machine

/-! ## States to start from -/

/-- The outcome is a next state with a property. -/
def gives (o : Out) (p : State → Bool) : Bool := match o with
  | .next t => p t
  | .fault _ => false
  | .refused _ => false

/-- The outcome is this next state. -/
def becomes (o : Out) (t : State) : Bool := gives o (fun u => u == t)

def faults (o : Out) : Bool := match o with
  | .fault _ => true
  | .next _ => false
  | .refused _ => false

def accF : Acc := ⟨.frame, 0⟩
def accM : Acc := ⟨.management, 0⟩
def acc0 : Acc := ⟨.function, 0⟩
def v0 : MemView := ⟨[], none⟩

/-- One graph that uses sill port 0 and the bays 0 and 1. -/
def g0 : Graph := ⟨0, 0, 0, 1, 1, 3, 2, 1000000000000, 1000, 1000, 1000, 8⟩

def img0 : ImgCfg :=
  { kind := 1, meetSize := 1, modes := 3, patchBays := 0, platform := ⟨[], 400, [], [], [], []⟩, tables := [], tableMap := [], bankPlan := [],
    binds := [], profiles := [], hasRoutes := true, hasGraphs := true, routes := [], queues := [], graphs := [g0], digest := [], bindSection := 0x7F }

/-- A frame that is RUNNING one second after its start. -/
def up : State := { State.reset with
  frame := { Frame.fresh with st := .running, preTests := true, diesUp := [0, 1, 2, 3], committed := true },
  pins := { Pins.fresh with porN := true },
  pace := { Pacer.fresh with counting := true, time := 1000000000 },
  image := { Image.fresh with st := .done, committed := some img0 },
  funcs := [(0, { Func.fresh with st := .open_ })] }

/-- The same in a Crypto Officer session. -/
def officer : State := { up with sec := { Sec.fresh with session := true } }

/-- A stream of function 0 that runs. -/
def str0 : Stream := { Stream.fresh with st := .running, gidx := 0, batch := 1, depth := 2, relayLog2 := 4, relayBase := 0x10000, slotBase := 0x20000, slotStride := 4096 }

def up1 : State := { up with streams := [(0, str0)] }

/-- Frame-page, function-page and management-page accesses that take effect, one with a session. -/
theorem wit_Access : up.FrameAccess accF ∧ up.MgmtAccess accM ∧ officer.OfficerAccess accM ∧ up.FuncAccess acc0 0 ∧ up.FuncAccess accF 0 :=
  ⟨⟨rfl, by decide⟩, ⟨rfl, by decide⟩, ⟨⟨rfl, by decide⟩, rfl⟩, ⟨.inr ⟨rfl, rfl⟩, by decide, by decide, by decide, by decide⟩,
    ⟨.inl rfl, by decide, by decide, by decide, by decide⟩⟩

/-- Whether an access of a command has its slot, or has none, as a test. -/
def slotOk (s : State) (w : Party) (op : SillOp) (addr len : Nat) (x : Word) (d : Bytes) : Bool :=
  let r := w.req op addr len x d
  (s.port w.port).answers.isEmpty && ((s.port w.port).table op).all (fun o => o.drop || !o.req.same r) && (s.freeTag w.port op).isSome &&
    s.granulesFree r && s.choose w.port (r :: (s.port w.port).waiting.filter (s.eligible w.port)) == some r
def slotGone (s : State) (w : Party) (op : SillOp) (addr len : Nat) (x : Word) (d : Bytes) : Bool :=
  let r := w.req op addr len x d
  (s.port w.port).answers.isEmpty && ((s.port w.port).table op).all (fun o => o.drop || !o.req.same r) && (s.toSlot w.port r).1.isNone

theorem firstTry_of {s : State} {n : Nat} {r : Req} (h : ((s.port n).answers.isEmpty && ((s.port n).table r.op).all (fun o => o.drop || !o.req.same r)) = true) :
    s.FirstTry n r := by
  rw [Bool.and_eq_true, List.isEmpty_iff, List.all_eq_true] at h
  refine ⟨by simp [h.1], fun o ho hd => ?_⟩
  have := h.2 o ho
  simpa [hd] using this

theorem hasSlot_of {s : State} {w : Party} {op : SillOp} {addr len : Nat} {x : Word} {d : Bytes} (h : slotOk s w op addr len x d = true) :
    s.HasSlot w op addr len x d := by
  simp only [slotOk, Bool.and_eq_true, beq_iff_eq] at h
  obtain ⟨⟨⟨⟨h1, h2⟩, h3⟩, h4⟩, h5⟩ := h
  exact ⟨firstTry_of (by rw [Bool.and_eq_true]; exact ⟨h1, h2⟩), h3, h4, h5⟩

/-- Where no port holds anything, an access has its slot. -/
theorem hasSlot_free {s : State} (w : Party) (op : SillOp) (addr len : Nat) (x : Word) (d : Bytes) (h : s.ports = []) (hl : s.portThrottled w.port = false) :
    s.HasSlot w op addr len x d := by
  have hp : s.port w.port = .fresh := by simp [State.port, h, tblGetD, tblGet?]
  refine ⟨⟨by simp [hp, Port.fresh], by simp [hp, Port.fresh, Port.table]⟩, ?_, by simp [State.granulesFree, h], ?_⟩
  · cases op <;> simp [State.freeTag, hp, Port.table, Port.fresh, firstTag]
  · cases hd : (w.req op addr len x d).deadline <;>
      simp [State.choose, hp, hl, Port.fresh, pickGuaranteed, State.pickBest, hd]

theorem noSlot_of {s : State} {w : Party} {op : SillOp} {addr len : Nat} {x : Word} {d : Bytes} (h : slotGone s w op addr len x d = true) :
    s.NoSlot w op addr len x d := by
  simp only [slotGone, Bool.and_eq_true] at h
  obtain ⟨⟨h1, h2⟩, h3⟩ := h
  exact ⟨firstTry_of (by rw [Bool.and_eq_true]; exact ⟨h1, h2⟩), by simpa using h3⟩

/-! ## Well-formed commands -/

theorem test_wf_view : (Instr.entryFetch 0 0 ⟨[(2 ^ 64, [0])], none⟩).wf = false ∧ (Instr.entryFetch 0 0 ⟨[], some [⟨0, 2 ^ 64 + 1, some .okay⟩]⟩).wf = false ∧
    (Instr.entryFetch 0 0 v0).wf = true := by decide

theorem test_wf_bank : (Instr.bankHandover 3072).wf = false ∧ (Instr.scrubRead 3071 0).wf = true ∧
    (Instr.startUpMarchDone [⟨3072, 0, 0⟩]).wf = false ∧ (Instr.marchDone [⟨3072, 0, 0⟩]).wf = false := by decide

theorem test_wf_clock : (Instr.clockStepAck 65 100).wf = false ∧ (Instr.clockStepAck 64 2048).wf = false ∧ (Instr.clockStepAck 64 100).wf = true ∧
    (Instr.clockStepAckTimeout 65).wf = false ∧ (Instr.clockStepAckLowered 65).wf = false := by decide

theorem test_wf_kat : (Instr.selftestComplete (some 11) []).wf = false ∧ katWf (some 10) = true ∧ (Instr.dieBringUp 15 (some 0) []).wf = false := by decide

theorem test_wf_noise : (Instr.drbgReseed []).wf = false ∧ (Instr.zeroisationComplete [true]).wf = false ∧ (Instr.dieBringUp 15 none []).wf = false ∧
    (Instr.selftestComplete none []).wf = false := by decide

theorem test_wf_words : (Instr.kekLoad []).wf = false ∧ (Instr.wrappedKey []).wf = false ∧ (Instr.kekLoad [0]).wf = true := by decide

theorem test_wf_link : (Instr.trussBeatAccept 0 3).wf = false ∧ (Instr.trussBeatAccept 0 2).wf = true := by decide

theorem test_wf_extra : (Instr.tailRead 0 0 33 v0).wf = false ∧ (Instr.tailRead 0 0 32 v0).wf = true := by decide

theorem test_wf_wrapper : (Instr.wrapperInstructionUpdate 66 .bypass).wf = false ∧ (Instr.wrapperInstructionUpdate 65 .bypass).wf = true := by decide

/-- The table gives no row any bits, so no word spells a command. -/
theorem test_no_words : decodeTableWord 32 0 = none ∧ State.reset.withFetchWord 32 5 = State.reset := by decide +kernel

/-! ## The queue, reset and power-on reset -/

/-- The front of the queue runs, and leaves it. -/
theorem wit_Step : gives (step { up with pending := [.paceSync, .notifySend] }) (fun t => t.pending == [.notifySend] && t.pace.syncSeen) = true ∧
    State.reset.pending = [] := by decide +kernel

/-- R539: the pacer counts in steps of 10 ns. -/
theorem test_tick : gives (step up) (fun t => t.pace.time == 1000000010) = true ∧ gives (step State.reset) (fun t => t.pace.time == 0) = true := by
  decide +kernel

theorem wit_Canonical : State.reset.Canonical ∧ becomes (step State.reset) State.reset = true := ⟨rfl, by decide +kernel⟩

/-- R165: power-on reset clears everything; R163: so does a rising test_mode. R167: its release starts the frame. -/
theorem wit_Reset : State.reset.pins.porN = false ∧ officer.pins.testMode = false ∧ isReset Instr.paceSync = false ∧
    gives (exec .porAssert officer) (fun t => t.sec.session == false && t.frame.st == .reset) = true ∧
    gives (exec .testModeEntry up) (fun t => t.frame.st == .boot && t.pins.testMode) = true ∧
    gives (exec .porRelease State.reset) (fun t => t.frame.st == .boot && t.pace.counting) = true := by decide +kernel

def cryptoUp : State := { up with sec := { Sec.fresh with cryptoError := true } }
def fatalUp : State := { up with frame := { up.frame with st := .fatal } }

theorem wit_Ends : cryptoUp.sec.cryptoError = true ∧ fatalUp.frame.st = .fatal ∧ fatalUp.pins.porN = true ∧
    gives (exec .paceSync cryptoUp) (fun t => t.sec.cryptoError) = true ∧ gives (exec .paceSync fatalUp) (fun t => t.frame.st == .fatal) = true ∧
    gives (exec .porAssert cryptoUp) (fun t => !t.sec.cryptoError) = true := by decide +kernel

/-- R151: an acknowledgement while no request stands breaks the rule of the port. -/
theorem test_port_rule : faults (exec (.clockStepAck 0 100) up) = true := by decide +kernel

/-! ## Start-up -/

def boot : State := { State.reset with
  frame := { Frame.fresh with st := .boot }, pins := { Pins.fresh with porN := true }, pace := { Pacer.fresh with counting := true } }

def verified : State := { boot with frame := { boot.frame with fwVerified := true } }

theorem wit_Firmware : boot.frame.st = .boot ∧ boot.frame.fwVerified = false ∧ boot.OkayAt 0 Config.fwAddr 64 ∧ boot.OkayAt 0 (Config.fwAddr + 64) 256 :=
  ⟨rfl, rfl, ⟨by decide +kernel, rfl⟩, ⟨by decide +kernel, rfl⟩⟩

/-- Where every address answers DECERR the image cannot be read. -/
theorem wit_FirmwareStops : ({ boot with resp := [⟨0, Config.fwAddr + 1, some .decerr⟩] } : State).portUp 0 = true ∧
    ¬ ({ boot with resp := [⟨0, Config.fwAddr + 1, some .decerr⟩] } : State).OkayAt 0 Config.fwAddr 64 := by
  refine ⟨by decide +kernel, fun h => ?_⟩
  have e : respOf [⟨0, Config.fwAddr + 1, some .decerr⟩] (Config.fwAddr / 64 * 64) (64 * ceilDiv (Config.fwAddr % 64 + 64) 64) = some .okay := h.2
  rw [respOf, List.find?_cons_of_pos] at e
  · exact absurd e (by decide)
  · simp only [ceilDiv, Nat.reduceEqDiff, if_false, Bool.and_eq_true, decide_eq_true_eq]
    omega

/-- Samples that alternate pass both health tests. -/
def alternating (n : Nat) : List Bool := (List.range n).map (fun j => j % 2 == 0)

theorem wit_BringUp : verified.frame.st = .boot ∧ verified.frame.fwVerified = true ∧ 1 ≤ verified.caps.dies ∧ verified.caps.dies ≤ 4 ∧
    verified.pins.dieIso = [] ∧ verified.sec.armed = none ∧ verified.sec.cryptoError = false ∧ noisePasses verified.sec.noise (alternating 80) = true := by
  decide +kernel

/-- R505, R174: the tenth known-answer test fails. -/
theorem wit_Kat : gives (exec (.dieBringUp 15 (some 10) (alternating 8)) verified)
    (fun t => t.frame.st == .bootFail && t.frame.bootCause == 4 && t.sec.errCause == 0x1A && t.sec.cryptoError) = true := by decide +kernel

def marching : State := { boot with frame := { boot.frame with st := .selfTest, diesUp := [0] }, march := { March.fresh with busy := true, whole := true } }

/-- R43, R269, R175: bank 0 fails, so bay 0 is fenced; bay 1 is asked to stop its clock. -/
theorem wit_StartUpMarch : marching.frame.st = .selfTest ∧ marching.march.busy = true ∧ 0 ∈ marching.reachableBanks ∧ 1 < marching.nBays ∧
    marching.openStreams = [] ∧ marching.sec.authWait = false ∧ marching.funcs = [] ∧ marchFailing [⟨0, 4096, 1⟩, ⟨1, 4097, 1⟩] = [0] ∧ 0 ∉ marchFailing [] ∧
    gives (exec (.startUpMarchDone [⟨0, 4096, 1⟩]) marching)
      (fun t => t.frame.st == .ready && t.fenced 0 && (t.bay 1).cstep.req && (t.bay 1).cstep.mhz == 0 && t.march.failCount == 1) = true := by
  decide +kernel

/-! ## Test access, zeroisation, isolation -/

def ready : State := { boot with frame := { boot.frame with st := .ready, preTests := true, diesUp := [0, 1, 2, 3] } }

/-- R162, R164: march_trig in READY_FOR_IMAGE, and Vodiand's own instructions in test mode only. -/
theorem wit_TestAccess : ready.shown = .ready ∧ ready.march.busy = false ∧ up.shown ≠ .ready ∧ up.pins.testMode = false ∧
    gives (exec .marchTrig ready) (fun t => t.march.busy && t.march.whole && !t.pins.marchDone) = true ∧
    gives (exec .marchTrig up) (fun t => t.frameLog.next == 1 && !t.march.busy) = true ∧
    becomes (exec (.wrapperInstructionUpdate 65 .scan) up) up = true ∧
    gives (exec (.wrapperInstructionUpdate 65 .extest) up) (fun t => t.wrappers == [(65, .extest)]) = true := by decide +kernel

def keyed : State := { officer with
  pins := { up.pins with zeroise := false }
  sec := { officer.sec with
    slots := [(7, ⟨3, 0, zeros 48, 0, 0⟩)], slotGen := 1, kek := some (zeros 32), drbg := some ⟨zeros 32, zeros 16, 0⟩, keyPart := [(0, (4, 8))] } }

/-- R512, R160: slots, KEK, DRBG and session go; digests stay. -/
theorem wit_Zeroise : keyed.pins.zeroise = false ∧ keyed.sec.zeroising = false ∧
    gives (exec .zeroisePin keyed) (fun t => t.sec.slots.isEmpty && t.sec.kek.isNone && t.sec.drbg.isNone && !t.sec.session && t.sec.zeroising) = true ∧
    gives (exec (.secZeroise accM) keyed) (fun t => t.sec.slots.isEmpty && t.sec.zeroising && !t.pins.zeroise) = true := by decide +kernel

def zeroing : State := { ready with frame := { ready.frame with preTests := false }, pins := { ready.pins with zeroise := true }, sec := { Sec.fresh with zeroising := true } }

theorem wit_ZeroiseEnds : zeroing.sec.zeroising = true ∧ zeroing.sec.armed = none ∧ noisePasses zeroing.sec.noise (alternating 8) = true ∧
    zeroing.cryptoServed = false ∧ ready.cryptoServed = true ∧
    gives (exec (.zeroisationComplete (alternating 8)) zeroing) (fun t => t.pins.zeroiseDone && t.sec.zeroDone && !t.sec.zeroising) = true ∧
    gives (exec .zeroiseRelease { zeroing with pins := { zeroing.pins with zeroiseDone := true } }) (fun t => !t.pins.zeroiseDone) = true := by decide +kernel

/-- R154, R84: die 3 is the last one. -/
theorem wit_DieIso : (3 : BitVec 2).toNat ≠ 0 ∧ (3 : BitVec 2).toNat < ready.caps.dies ∧ ready.frame.st ≠ .reset ∧
    ready.pins.dieIso.contains 3 = false ∧ ready.frame.diesUp.contains 3 = true ∧ ready.bayDie 63 = 3 ∧ 63 < ready.nBays ∧
    gives (exec (.dieIsoAssert 3) ready) (fun t => t.pins.dieIsoDone == [3] && t.fenced 63 && !t.frame.diesUp.contains 3) = true ∧
    becomes (exec (.dieIsoAssert 0) ready) ready = true ∧ becomes (exec (.linkUpLoss 0) ready) ready = true := by decide +kernel

/-- R85, R172: the input is heeded while por_n is low; the die is then isolated from the start. -/
theorem wit_DieIsoEarly : State.reset.frame.st = .reset ∧ State.reset.pins.dieIso.contains 3 = false ∧
    gives (exec (.dieIsoAssert 3) State.reset) (fun t => t.pins.dieIso == [3] && t.pins.dieIsoDone == [3]) = true ∧
    gives (exec (.dieBringUp 15 none (alternating 80)) { verified with pins := { verified.pins with dieIso := [3], dieIsoDone := [3] } })
      (fun t => t.frame.diesUp == [0, 1, 2]) = true := by decide +kernel

def linked : State := { up with bounds := (List.range 4).map (fun b => (b, ⟨true, false, [(0, { LaneEnd.fresh with slots := [(0, ⟨0, 0, 0, UnitTag.fresh 0 0 0⟩)] })]⟩)) }

theorem wit_LinkLoss : (3 : BitVec 2).toNat < (boundariesOf linked.caps.dies).length ∧ (linked.boundary 3).linkUp = true ∧
    gives (exec (.linkUpLoss 3) linked) (fun t => (t.boundary 3).down && !(t.boundary 3).linkUp) = true := by decide +kernel

/-! ## The pacer, snapshots, clocks -/

theorem test_sync : gives (exec .paceSync up) (fun t => t.pace.capt == 1000000000 && t.pace.syncSeen && t.pace.time == 1000000000) = true := by decide +kernel

/-- R542: at the border both cases: no stream open, and one open. A write of -1 with _LO staged at 0xFFFFFFFF goes one ns back. -/
theorem wit_PaceOffset : up.openStreams = [] ∧ up.tel.pending = false ∧ up1.openStreams ≠ [] ∧
    gives (exec (.paceOffsetWrite accF 0xFFFFFFFF) (up.stage .frame .frame 0x068 0xFFFFFFFF)) (fun t => t.pace.time == 999999999) = true ∧
    gives (exec (.paceOffsetWrite accF 1) up1) (fun t => t.pace.refused && t.pace.time == 1000000000 && t.pace.offset == 0) = true := by decide +kernel

theorem wit_Holdover : up.pace.holdover = false ∧ gives (exec .paceRefLoss up) (fun t => t.pace.holdover && t.frameLog.next == 1) = true ∧
    gives (exec .paceRefRestore { up with pace := { up.pace with holdover := true } }) (fun t => !t.pace.holdover) = true := by decide +kernel

def snapping : State := { up with tel := { up.tel with pending := true, snapAt := 1000000000, cnt := [(cntKey 0 0 3, 5)] } }

/-- R543: exactly 10 µs ahead is in time, one ns less is late. -/
theorem wit_SnapArm : up.tel.pending = false ∧ snapping.tel.pending = true ∧
    gives (exec (.snapAtWrite accF 0) (up.stage .frame .frame 0x080 1000010000)) (fun t => t.tel.pending && t.tel.snapAt == 1000010000) = true ∧
    gives (exec (.snapAtWrite accF 0) (up.stage .frame .frame 0x080 1000009999)) (fun t => t.tel.late && !t.tel.pending) = true ∧
    gives (exec (.snapAtWrite accF 5) snapping) (fun t => t.tel.refused) = true := by decide +kernel

theorem wit_SnapCopy : snapping.frame.st ≠ .fatal ∧ snapping.tel.snapAt ≤ snapping.now ∧ snapping.unitPresent .control = true ∧
    snapping.unitFenced .control = false ∧ snapping.tel.copied.contains .control = false ∧
    gives (exec (.snapshotCopy .control) snapping) (fun t => tblGet? t.tel.spare (cntKey 0 0 3) == some 5 && t.tel.copied == [.control]) = true ∧
    becomes (exec .snapshotComplete snapping) snapping = true ∧
    gives (exec .snapshotComplete { snapping with tel := { snapping.tel with copied := snapping.allUnits } }) (fun t => t.tel.done && t.tel.seq == 1) = true := by
  decide +kernel

/-- R31: after a frame-fatal error the snapshot never ends. -/
theorem wit_SnapLost : let s : State := { snapping with tel := { snapping.tel with copied := snapping.allUnits, lost := true } }
    s.tel.pending = true ∧ becomes (exec .snapshotComplete s) s = true := by decide +kernel

def stepping : State := { up with bays := [(64, { Bay.fresh with pstate := .run, cstep := ⟨true, 400, false, 0, none, none⟩ }),
  (0, { Bay.fresh with pstate := .run, cstep := ⟨true, 400, false, 999950000, none, none⟩ }), (1, { Bay.fresh with pstate := .run })] }

/-- R152: 404 MHz is within 1 % of 400, 405 is not; 50 µs without an acknowledgement is too long. -/
theorem wit_ClockStep : (stepping.bay 0).cstep.req = true ∧ (stepping.bay 0).cstep.ack = false ∧ (stepping.bay 0).cstep.at_ + 50000 ≤ stepping.now ∧
    (stepping.bay 1).cstep.req = false ∧ (0 : BitVec 7).toNat < stepping.nBays ∧
    gives (exec (.clockStepAck 0 404) stepping) (fun t => (t.bay 0).mhz == 404 && (t.bay 0).cstep.ack && !t.fenced 0) = true ∧
    gives (exec (.clockStepAck 0 405) stepping) (fun t => t.fenced 0) = true ∧ faults (exec (.clockStepAck 1 400) stepping) = true ∧
    gives (exec (.clockStepAckTimeout 0) stepping) (fun t => t.fenced 0) = true ∧ becomes (exec (.clockStepAckTimeout 1) stepping) stepping = true := by
  decide +kernel

/-- R45: a bay whose clock stops parks, one whose clock starts again runs. -/
theorem wit_ClockParks :
    let s : State := { up with bays := [(0, { Bay.fresh with pstate := .run, cstep := ⟨true, 0, false, 0, none, none⟩ }),
      (1, { Bay.fresh with pstate := .park, cstep := ⟨true, 400, false, 0, none, none⟩ })] }
    (s.bay 0).cstep.mhz = 0 ∧ (s.bay 0).pstate ≠ .fenced ∧ (s.bay 1).pstate = .park ∧
    gives (exec (.clockStepAck 0 0) s) (fun t => (t.bay 0).pstate == .park && (t.bay 0).since == 1000000000 && (t.bay 0).stopped) = true ∧
    gives (exec (.clockStepAck 1 400) s) (fun t => (t.bay 1).pstate == .run && !(t.bay 1).stopped) = true := by decide +kernel

/-- R45, R46, R48: its clock stops while a graph binds the bay again, or while a beat stands on a route of it. -/
def stopping (binds : List BayBind) (l : Link) : State := { up with
  image := { up.image with committed := some { img0 with binds := binds, routes := [⟨0, 0, 0, 1, 0, 0, 0, 0, 0, 0, 0, 0, 0, 0, 0⟩] } },
  routes := [(0, ⟨[l], [], [], false⟩)], bays := [(0, { Bay.fresh with pstate := .run, cstep := ⟨true, 0, false, 0, none, none⟩ })] }

theorem wit_ClockWaits : (stopping [⟨0, 0, 0x0101, 0, 0⟩] .fresh).bayBound 0 = true ∧ (stopping [] .fresh).bayBound 0 = false ∧
    (stopping [] .fresh).bayRoutesIdle 0 = true ∧ (stopping [] ⟨true, false, some ⟨5, 0, 0, UnitTag.fresh 0 0 0⟩⟩).bayRoutesIdle 0 = false ∧
    gives (exec (.clockStepAck 0 0) (stopping [⟨0, 0, 0x0101, 0, 0⟩] .fresh)) (fun t => (t.bay 0).pstate == .run) = true ∧
    gives (exec (.clockStepAck 0 0) (stopping [] .fresh)) (fun t => (t.bay 0).pstate == .park) = true ∧
    gives (exec (.clockStepAck 0 0) (stopping [] ⟨true, false, some ⟨5, 0, 0, UnitTag.fresh 0 0 0⟩⟩)) (fun t => (t.bay 0).pstate == .run &&
      (t.bay 0).cstep.next == some 0) = true := by decide +kernel

def lowering : State := { up with bays := [(0, { Bay.fresh with pstate := .run, cstep := ⟨false, 400, true, 0, some 500, none⟩ }),
  (1, { Bay.fresh with pstate := .run, cstep := ⟨false, 400, true, 0, none, none⟩ })] }

theorem wit_ClockLowered : (lowering.bay 0).cstep.next = some 500 ∧ (lowering.bay 0).cstep.req = false ∧ (lowering.bay 0).cstep.last = none ∧
    (lowering.bay 1).cstep.next = none ∧
    gives (exec (.clockStepAckLowered 0) lowering) (fun t => (t.bay 0).cstep.req && (t.bay 0).cstep.mhz == 500 && (t.bay 0).stopped) = true ∧
    gives (exec (.clockStepAckLowered 1) lowering) (fun t => !(t.bay 1).cstep.ack && !(t.bay 1).cstep.req) = true := by decide +kernel

/-- A bay that dozes, with a stream that may be granted to it, or with none. -/
def dozing (ss : Tbl Stream) : State := { up with streams := ss, bays := [(1, { Bay.fresh with pstate := .doze })] }

theorem wit_PowerStates : (63 : BitVec 6).toNat < stepping.nBays ∧ (stepping.bay 1).pstate = .run ∧ stepping.bayIdle 1 = true ∧
    stepping.guaranteedBay 1 = false ∧ (dozing []).mortiseBusy 1 = false ∧ (dozing []).bayGranted 1 = false ∧ (dozing [(0, str0)]).bayGranted 1 = true ∧
    ({ up with streams := [(0, { str0 with guaranteed := true })] } : State).guaranteedBay 1 = true ∧
    gives (exec (.bayDozeEntry 1) stepping) (fun t => (t.bay 1).pstate == .doze && (t.bay 1).since == 1000000000) = true ∧
    gives (exec (.bayWake 1) (dozing [(0, str0)])) (fun t => (t.bay 1).pstate == .run) = true ∧ becomes (exec (.bayWake 1) (dozing [])) (dozing []) = true ∧
    gives (exec (.bayClockFault 63) stepping) (fun t => t.fenced 63) = true ∧ gives (exec (.bayControlStateEcc 0) stepping) (fun t => t.fenced 0) = true := by
  decide +kernel

/-! ## Sensors, sprint, the governor -/

/-- R155, R156: the invalid code, and the border of 4 ms. -/
theorem wit_Sensors : up.frame.st ≠ .reset ∧ (3 : BitVec 2).toNat < up.caps.dies ∧ (0x7FF : BitVec 12) ≠ 0x800 ∧
    gives (exec (.thermalUpdate 3 0x7FF) up) (fun t => (t.thermal 3).valid && (t.thermal 3).temp == 0x7FF) = true ∧
    gives (exec (.thermalUpdate 3 0x800) up) (fun t => (t.thermal 3).sensorBad && !(t.thermal 3).valid) = true ∧
    ({ up with therm := [(3, { Therm.fresh with seen := true, valid := true, updAt := 996000000 })] } : State).now = 996000000 + 4000000 ∧
    gives (exec (.sensorStale 3) { up with therm := [(3, { Therm.fresh with seen := true, valid := true, updAt := 996000000 })] })
      (fun t => (t.thermal 3).sensorBad) = true ∧
    becomes (exec (.sensorStale 3) { up with therm := [(3, { Therm.fresh with seen := true, valid := true, updAt := 996000010 })] })
      { up with therm := [(3, { Therm.fresh with seen := true, valid := true, updAt := 996000010 })] } = true := by decide +kernel

theorem wit_Sprint : up.image.committed.isSome = true ∧ (up.thermal 0).sprintUntil = none ∧ up.modelValid 0 = false ∧
    gives (exec (.sprintGrant 0) up) (fun t => (t.thermal 0).sprintUntil == none) = true := by decide +kernel

/-- A die with a valid model (R548): 1 K/W and 1 J/K twice, limits of 95 and 105 degrees, 2 K of hysteresis, 1,600 MHz. -/
def modelled : State := { up with thermModel := (List.range 8).map (fun j => (j,
  [0x3F800000, 0x3F800000, 0x3F800000, 0x3F800000, 0x42BE0000, 0x42D20000, 0x40000000, 0x44C80000].getD j 0)) }

theorem wit_Model : modelled.modelValid 0 = true ∧ modelled.modelValid 1 = false ∧ 0 < modelled.caps.dies := by decide +kernel

/-- R550: while a die sprints no new grant is made; whether one is granted hangs on the estimate of its power, a free value. -/
def sprinting (u : Option Nat) : State := { modelled with therm := [(0, { Therm.fresh with seen := true, valid := true, sprintUntil := u })] }

theorem wit_SprintOk : ((sprinting none).thermal 0).seen = true ∧ ((sprinting none).thermal 0).sensorBad = false ∧ ((sprinting none).thermal 0).level = 0 ∧
    becomes (exec (.sprintGrant 0) (sprinting (some 1000000001))) (sprinting (some 1000000001)) = true := by decide +kernel

theorem wit_Governor : up.modelValid 3 = false ∧ 3 < up.caps.dies ∧ gives (exec (.governorStep v0) up) (fun t => (t.thermal 3).t1 == sensorFp 0) = true := by
  decide +kernel

/-! ## Codewords, logs, notifications, the dump -/

theorem wit_Codewords : up.frame.st ≠ .reset ∧ up.frame.st ≠ .fatal ∧ (0 : BitVec 6).toNat < up.caps.funcs ∧ (up.func 0).st ≠ .halted ∧
    (up.func 0).st ≠ .resetting ∧ ready.frame.st ≠ .running ∧ up.sec.cryptoError = false ∧
    gives (exec (.controlStateEcc (.partition 0)) up) (fun t => (t.func 0).st == .halted && (t.func 0).haltCode == 0x30) = true ∧
    gives (exec .stewardWatchdogExpiry up) (fun t => t.frame.st == .fatal && t.dump.detail == 4) = true ∧
    gives (exec (.controlStateEcc .queueManager) up) (fun t => t.dump.detail == 2) = true ∧
    gives (exec (.controlStateEcc .scheduler) up) (fun t => t.frame.st == .walk && t.frame.walkCtrlEcc) = true ∧
    gives (exec (.controlStateEcc .lockTables) ready) (fun t => t.frame.st == .fatal && t.dump.detail == 5) = true ∧
    gives (exec (.managementStorageEcc .keySlots) keyed) (fun t => t.sec.cryptoError && t.sec.slots.isEmpty && t.frame.st == .running) = true ∧
    gives (exec (.managementStorageEcc .keySlots) boot) (fun t => t.frame.st == .bootFail) = true ∧
    gives (exec (.managementStorageEcc .other) up) (fun t => t.dump.detail == 3) = true ∧
    gives (exec .stewardWatchdogExpiry { boot with frame := { boot.frame with st := .bootFail } }) (fun t => t.frame.st == .bootFail && t.frameLog.next == 1) = true := by
  decide +kernel

def entry0 : LogEntry := ⟨7, 9, 0, 0x21, 1, false, 3, 4, 0xFE, 0, 0⟩
def logging : State := { up with frameLog := { LogRing.fresh with base := 4096, next := 1, waiting := [entry0], chip := [entry0] } }

/-- R521: the time lies first, the code of POISON at byte 20. -/
theorem wit_Log : (logging.logRing none).waiting = entry0 :: [] ∧ (logging.logRing none).base ≠ 0 ∧ (logging.logRing none).fault = false ∧
    logging.frame.st ≠ .fatal ∧
    gives (exec (.logEntryWrite .frame v0) logging) (fun t => t.frameLog.waiting.isEmpty && memRead t.mem 4096 == 7 && memRead t.mem 4116 == 0x21) = true ∧
    gives (exec (.logEntryWrite .frame ⟨[], some [⟨4096, 64, some .decerr⟩]⟩) logging) (fun t => t.frameLog.fault && t.frameLog.lost == 1) = true := by
  decide +kernel

theorem wit_LogOkay : (logging.seeMem v0).OkayAt 0 4096 64 ∧
    (logging.seeMem v0).HasSlot (.steward 0) .write 4096 64 0 (entry0.bytes ++ zeros 32) ∧
    (logging.seeMem ⟨[], some [⟨4096, 64, some .decerr⟩]⟩).HasSlot (.steward 0) .write 4096 64 0 (entry0.bytes ++ zeros 32) :=
  ⟨⟨by decide +kernel, rfl⟩, hasSlot_of (by decide +kernel), hasSlot_of (by decide +kernel)⟩

/-- R130, R132: while a write of the same granule is outstanding, a write has no slot. -/
def atGranule (a : Nat) (s : State) : State := { s with ports := [(0, { Port.fresh with
  writes := [⟨9, ⟨.write, a / 64 * 64, 1, 0, false, 0, none, 0, 0, .direct 0, zeros 64⟩, 999000000, false, [], [], false⟩] })] }

theorem wit_LogWaits : ((atGranule 4096 logging).seeMem v0).portUp 0 = true ∧
    ((atGranule 4096 logging).seeMem v0).NoSlot (.steward 0) .write 4096 64 0 (entry0.bytes ++ zeros 32) ∧
    becomes (exec (.logEntryWrite .frame v0) (atGranule 4096 logging)) (atGranule 4096 logging) = true :=
  ⟨rfl, noSlot_of (by decide +kernel), by decide +kernel⟩

theorem wit_LogBase : gives (exec (.errLogBaseHiWrite accF .frame 1) (logging.stage .frame .frame 0x0D0 0x1000)) (fun t => t.frameLog.base == 2 ^ 32 + 0x1000) = true ∧
    gives (exec (.errLogBaseHiWrite acc0 (.func 0) 0) up) (fun t => (t.func 0).log.base == 0) = true := by decide +kernel

def msg (k : Nat) : Msg := ⟨0, k, 0⟩
def pageOne : PageReq := ⟨0, 5⟩
def notifying : State := { up with notify := ⟨[msg 1, msg 2], [pageOne], [⟨2, 0⟩], none⟩ }

/-- R145: page requests, then events, then messages. -/
theorem wit_Notify : notifying.notify.pages = pageOne :: [] ∧
    gives (exec .notifySend notifying) (fun t => t.notify.pages.isEmpty && (t.notify.sent.map (·.kind)) == some 1) = true ∧
    gives (exec .notifySend { notifying with notify := { notifying.notify with pages := [] } }) (fun t => t.notify.events.isEmpty && t.notify.msgs.length == 2) = true ∧
    gives (exec .notifySend { notifying with notify := { notifying.notify with pages := [], events := [] } })
      (fun t => t.notify.msgs == [msg 2] && (t.notify.sent.map (·.kind)) == some 0) = true ∧
    becomes (exec .notifySend up) up = true := by decide +kernel

theorem wit_NoWork : up.NoWork := ⟨by decide, rfl, by decide⟩

def faulted : Stream := { str0 with st := .halted, haltedFrom := .running, haltCode := 0x20, pagesToSend := [⟨1, 0, false⟩, ⟨2, 0, true⟩] }
def paging : State := { up with streams := [(0, faulted)], funcs := [(0, { Func.fresh with st := .open_, pageGroups := [0] })] }

/-- The same stream of a function whose 512 group indices are all taken. -/
def noIndex : State := { paging with funcs := [(0, { Func.fresh with st := .open_, pageGroups := List.range 512 })] }

theorem wit_PageIndices : (∀ g, g < 512 → g ∈ (noIndex.func 0).pageGroups) ∧ (noIndex.stream 0 0).faultOpen = (paging.stream 0 0).faultOpen ∧
    gives (exec (.pageRequestGroupSend 0 0) { paging with streams := [(0, { faulted with pageGroupHeld := true })] }) (fun t => t.notify.pages.isEmpty) = true := by
  have e : (noIndex.func 0).pageGroups = List.range 512 := by decide +kernel
  refine ⟨fun g h => ?_, by decide +kernel, by decide +kernel⟩
  rw [e]
  exact List.mem_range.mpr h

/-- R143: one group of two; index 0 is taken. -/
theorem wit_PageGroup : (paging.stream 0 0).st = .halted ∧ (paging.stream 0 0).pagesToSend ≠ [] ∧ paging.streamOut 0 0 = false ∧
    paging.notify.pages.length + 2 ≤ 64 ∧ 1 ∉ (paging.func 0).pageGroups ∧ (paging.stream 0 0).pageGroupHeld = false ∧
    gives (exec (.pageRequestGroupSend 0 0) paging) (fun t => t.notify.pages.length == 2 && (t.stream 0 0).pageGroup == 1 && (t.func 0).pageGroups.contains 1) = true := by
  decide +kernel

/-- R248: the record of the translation fault follows the page group; a guaranteed stream's names VOID first. -/
theorem wit_PageRecord : (paging.stream 0 0).haltCode = stTranslation ∧ (paging.stream 0 0).guaranteed = false ∧
    ((paging.faultRecord 0 0).stream 0 0).waitingRecs.map (·.status) = [stTranslation] ∧
    ((({ paging with streams := [(0, { faulted with guaranteed := true })] } : State).faultRecord 0 0).stream 0 0).void = true := by decide +kernel

theorem wit_RelayPort : gives (exec .relayPortSend { up with relay := ⟨[⟨0, 0, [1]⟩, ⟨0, 1, [2]⟩], 2, none⟩ })
    (fun t => t.relay.sent == some ⟨0, 0, [1]⟩ && t.relay.fifo.length == 1) = true ∧ becomes (exec .relayPortSend up) up = true := by decide +kernel

def dumping : State := { up with frame := { up.frame with st := .fatal }, dump := { Dump.fresh with base := 0x100000, size := 8, st := 1, section_ := 5, dir :=
  [⟨0, 0, 0, 1⟩, ⟨0, 0, 0, 1⟩, ⟨0, 0, 0, 1⟩, ⟨0, 0, 0, 1⟩, ⟨0, 0, 0, 1⟩, ⟨0, 0, 0, 0⟩] } }

theorem wit_Dump : dumping.dump.st = 1 ∧ up.dump.st ≠ 1 ∧ dumping.dumpFits 6 = false ∧ dumping.Canonical ∧ dumping.portUp 0 = true ∧
    (∀ b n, dumping.answerAt b n = some .okay) ∧ dumping.OkayAt 0 dumping.dump.base (dumping.dumpHeader false).length ∧
    (∃ e, dumping.dump.dir[5]? = some e) ∧ ({ dumping with dump := { dumping.dump with section_ := 0 } } : State).dumpFits 1 = true :=
  ⟨rfl, by decide, by decide +kernel, rfl, by decide +kernel, fun _ _ => rfl, ⟨by decide +kernel, rfl⟩, ⟨_, rfl⟩, by decide +kernel⟩

/-- R534, R537: a header that had to wait comes before section 0; of a dump that was stopped the final header is left. -/
def stoppedDump : State := { dumping with dump := { dumping.dump with stopped := true } }
def headerDue : State := { dumping with dump := { dumping.dump with hdrDue := true } }

theorem wit_DumpHeader : (stoppedDump.dump.st = 1 ∧ stoppedDump.dump.stopped = true) ∧
    headerDue.dump.st = 1 ∧ headerDue.dump.stopped = false ∧ headerDue.dump.hdrDue = true := ⟨⟨rfl, rfl⟩, rfl, rfl, rfl⟩

/-! ## Registers -/

/-- R138: an origin other than a page's own reads 0 with an error. -/
theorem wit_Refused : acc0.origin = .function ∧ (0x410080 / 4 : Nat) / 0x4000 = 65 ∧
    gives (exec (.hostRegisterWrite acc0 (BitVec.ofNat 21 (0x410080 / 4)) 1) up) (fun t => t.host.rsp == [⟨0, true⟩]) = true ∧
    gives (exec (.rcRegisterRead accM 0 false) up) (fun t => t.host.rsp == [⟨0, true⟩]) = true ∧
    gives (exec (.reg64LoRead acc0 (BitVec.ofNat 21 (1 * 0x4000))) up) (fun t => t.host.rsp == [⟨0, true⟩]) = true := by decide +kernel

theorem wit_Writes : boot.early = true ∧ up.early = false ∧ up.sec.session = false ∧
    gives (exec (.hostRegisterWrite accF (BitVec.ofNat 21 (0x4000B0 / 4)) 0xFFF00007) up) (fun t => t.stallUs == 7) = true ∧
    gives (exec (.hostRegisterWrite accM (BitVec.ofNat 21 (0x410068 / 4)) 0x80000008) officer) (fun t => t.dump.size == 8 && t.dump.banks) = true ∧
    gives (exec (.hostRegisterWrite accM (BitVec.ofNat 21 (0x410068 / 4)) 8) up) (fun t => t.sec.refused && t.dump.size == 0) = true ∧
    becomes (exec (.hostRegisterWrite acc0 (BitVec.ofNat 21 0x12) 1) boot) (boot.answer 0 false) = true := by decide +kernel

theorem wit_FrameSettings : (∀ p ∈ up.openStreams, up.judgeGraph p.2.2.graph = false) ∧ (0x1041 : Nat) % 64 < up.caps.funcs ∧ up1.openStreams ≠ [] ∧
    gives (exec (.frameCtrlWrite accF 0x1041) up) (fun t => t.frame.eventFn == 1 && t.frame.eventVector == 1 && t.frame.eventEn) = true ∧
    gives (exec (.frameCtrlWrite accF 0x103F) { up with caps := { up.caps with funcs := 63 } }) (fun t => t.frame.ctrlRefused) = true ∧
    gives (exec (.frameModeWrite accF 1) up) (fun t => t.frame.openMode) = true ∧
    gives (exec (.frameModeWrite accF 1) up1) (fun t => t.frame.modeRefused && !t.frame.openMode) = true ∧
    gives (exec (.heatRegionWrite accF .baseHi 2) (up.stage .frame .frame 0x0C0 0x1000)) (fun t => t.heat.base == 2 * 2 ^ 32 + 0x1000) = true ∧
    gives (exec (.heatRegionWrite accF .baseLo 0x1000) up) (fun t => t.heat.base == 0 && t.host.staged.length == 1) = true ∧
    gives (exec (.heatRegionWrite accF .size 9) up) (fun t => t.heat.size == 9) = true := by decide +kernel

/-- A judge engine bound by the stream's graph locks the heat region. -/
def judging : State := { up1 with image := { up1.image with committed := some { img0 with binds := [⟨0, 0, 0x0501, 0, 0⟩], profiles := [⟨0, 0x0501, []⟩] } } }

theorem wit_HeatLocked : (∃ p ∈ judging.openStreams, judging.judgeGraph p.2.2.graph = true) ∧
    gives (exec (.heatRegionWrite accF .size 9) judging) (fun t => t.heat.size == 0) = true := by decide +kernel

def counted : State := { up with
  frameLog := { LogRing.fresh with lost := 6 }, banks := [(0, { Bank.fresh with corr := 7 })],
  funcs := [(0, { Func.fresh with st := .open_, oobDrop := 5, log := { LogRing.fresh with lost := 4 } })] }

/-- R11: the read returns the value before the event; the counter holds 1 after it. -/
theorem wit_ReadClears : (0 : BitVec 12).toNat < 3072 ∧ counted.bankPresent 0 = true ∧ counted.early = false ∧
    gives (exec (.rcRegisterRead acc0 (BitVec.ofNat 21 (0x04C / 4)) true) counted) (fun t => t.host.rsp == [⟨5, false⟩] && (t.func 0).oobDrop == 1) = true ∧
    gives (exec (.rcRegisterRead acc0 (BitVec.ofNat 21 (0x0DC / 4)) false) counted) (fun t => t.host.rsp == [⟨4, false⟩] && (t.func 0).log.lost == 0) = true ∧
    gives (exec (.rcRegisterRead accF (BitVec.ofNat 21 (0x4000DC / 4)) true) counted) (fun t => t.host.rsp == [⟨6, false⟩] && t.frameLog.lost == 1) = true ∧
    gives (exec (.rcRegisterRead accF (BitVec.ofNat 21 (0x404000 / 4)) false) counted) (fun t => (t.bank 0).corr == 0) = true := by decide +kernel

/-- R556: the high half belongs to the low half that was read, whatever pacer time does meanwhile. -/
theorem wit_Pair : 0x060 ∈ [0x060, 0x068, 0x070, 0x080, 0x098, 0x0C0, 0x0D0] ∧ up.framePair 0x060 = some 1000000000 ∧
    (match exec (.reg64LoRead accF (BitVec.ofNat 21 (0x400060 / 4))) { up with pace := { up.pace with time := 0x1FFFFFFFF } } with
      | .next t => gives (exec (.reg64LoRead accF (BitVec.ofNat 21 (0x400064 / 4))) { t with pace := { t.pace with time := 0x200000000 } })
          (fun w => w.host.rsp == [⟨1, false⟩])
      | _ => false) = true := by decide +kernel

/-- R1: version 1.2.0 on every page; R559. -/
theorem wit_Caps : gives (exec (.rcRegisterRead acc0 0 false) up) (fun t => t.host.rsp == [⟨0x00010200, false⟩]) = true ∧
    gives (exec (.rcRegisterRead accM (BitVec.ofNat 21 (0x410004 / 4)) false) up) (fun t => t.host.rsp == [⟨4, false⟩]) = true ∧
    gives (exec (.rcRegisterRead acc0 0 false) boot) (fun t => t.host.rsp == [⟨0, false⟩]) = true := by decide +kernel

theorem wit_Approved : gives (exec (.rcRegisterRead accM (BitVec.ofNat 21 (0x410080 / 4)) false) up)
    (fun t => t.host.rsp.any (fun r => r.rdata.getLsbD 0)) = true ∧
    gives (exec (.rcRegisterRead accM (BitVec.ofNat 21 (0x410080 / 4)) false) cryptoUp) (fun t => t.host.rsp.all (fun r => !r.rdata.getLsbD 0 && r.rdata.getLsbD 1)) = true := by
  decide +kernel

/-! ## Bridges and links -/

/-- Route 0 runs inside die 0, route 1 from bay 0 over boundary 0 to bay 16 of die 1. -/
def imgR : ImgCfg := { img0 with routes := [⟨0, 0, 0, 1, 0, 0, 0, 0, 0, 0, 0, 0, 0, 0, 0⟩, ⟨1, 0, 1, 16, 0, 0, 1, 0, 0, 0, 2, 4, 0, 0, 0⟩] }

def beat0 : Beat := ⟨5, 0, 0, UnitTag.fresh 0 0 0⟩
def busyLink : Link := ⟨true, false, some beat0⟩

def routed : State := { up with
  image := { up.image with committed := some imgR },
  bounds := [(0, ⟨true, false, []⟩)],
  bays := [(0, { Bay.fresh with pstate := .run, out := [(0, [beat0])] }), (1, { Bay.fresh with pstate := .park }), (16, { Bay.fresh with pstate := .fenced })],
  routes := [(0, ⟨[.fresh], [], [], false⟩), (1, ⟨[busyLink, .fresh], [], [4], false⟩)] }

theorem wit_FlitFields : (routed.laneEnd 0 false 2).nextSeq < 256 ∧ (routed.laneEnd 0 false 2).rxGood < 256 ∧ (routed.laneEnd 0 false 2).creditRoute < 512 := by
  decide +kernel

theorem wit_FlitSend : routed.crossingAt 0 false 2 1 = some (0, ⟨0, false, 2, 4⟩) ∧ ((routed.route 1).link 0).beat = some beat0 ∧
    (routed.route 1).credits[0]? = some (3 + 1) ∧ routed.boundaryUp 0 = true ∧ (routed.laneEnd 0 false 2).replay.length < 64 ∧
    gives (exec (.scarfFlitSend 0 false 2 (.beat 1)) routed) (fun t => (t.laneEnd 0 false 2).nextSeq == ((routed.laneEnd 0 false 2).nextSeq + 1) % 256 &&
      (t.route 1).credits == [3] && (t.laneEnd 0 false 2).replay.length == 1) = true ∧
    becomes (exec (.scarfFlitSend 0 false 2 (.beat 1)) { routed with routes := [(1, ⟨[busyLink, .fresh], [], [0], false⟩)] })
      { routed with routes := [(1, ⟨[busyLink, .fresh], [], [0], false⟩)] } = true := by decide +kernel

/-- R71: a service message after 15 other flits on lane 0, not before, not on lane 1; an IDLE flit returns a credit. -/
def spacing (n : Nat) : State := { routed with
  bounds := [(0, ⟨true, false, [(laneKey false 0, { LaneEnd.fresh with spaced := n, returns := [(1, 0)] })]⟩)] }

theorem wit_Service : (spacing 15).boundaryUp 0 = true ∧ ((spacing 15).laneEnd 0 false 0).replay.length < 64 ∧ ((spacing 15).laneEnd 0 false 0).spaced = 15 ∧
    gives (exec (.scarfFlitSend 0 false 0 (.service 5)) (spacing 15)) (fun t => (t.laneEnd 0 false 0).replay.length == 1 && (t.laneEnd 0 false 0).spaced == 0 &&
      (t.laneEnd 0 false 0).returns.isEmpty && (t.laneEnd 0 false 0).tx.map flitType == [2]) = true ∧
    becomes (exec (.scarfFlitSend 0 false 0 (.service 5)) (spacing 14)) (spacing 14) = true ∧
    becomes (exec (.scarfFlitSend 0 false 1 (.service 5)) (spacing 15)) (spacing 15) = true ∧
    gives (exec (.scarfFlitSend 0 false 0 .idle) (spacing 14)) (fun t => (t.laneEnd 0 false 0).replay.isEmpty && (t.laneEnd 0 false 0).spaced == 15 &&
      (t.laneEnd 0 false 0).tx.map (fun f => (flitType f, fld f.toNat 32 9, fld f.toNat 41 6)) == [(0, 1, 1)]) = true ∧
    (({ routed with bounds := [] } : State).boundaryUp 0 = false) := by decide +kernel

/-- The first flit in turn after reset, sent by one side and received by the other (R75, R81). -/
def firstFlit : BitVec 512 := beatFlit (((LaneEnd.fresh).rxGood + 1) % 256) 255 1 0 0 beat0

theorem wit_FlitReceive : flitCrcGood firstFlit = true ∧ flitType firstFlit = 1 ∧ flitSeq firstFlit = ((routed.laneEnd 0 true 2).rxGood + 1) % 256 ∧
    flitCrcGood (firstFlit ^^^ 1) = false ∧ (routed.laneEnd 0 true 2).discarding = false ∧
    gives (exec (.scarfFlitReceive 0 true 2 firstFlit) routed) (fun t => (t.laneEnd 0 true 2).rxGood == flitSeq firstFlit) = true ∧
    gives (exec (.scarfFlitReceive 0 true 2 (firstFlit ^^^ 1)) routed) (fun t => (t.laneEnd 0 true 2).discarding &&
      (t.laneEnd 0 true 2).tx == [nakFlit (routed.laneEnd 0 true 2).rxGood]) = true := by decide +kernel

/-- The other end has sent that flit. -/
def sentBeat : State := { routed with
  bounds := [(0, ⟨true, false, [(laneKey false 2, { LaneEnd.fresh with tags := [(flitSeq firstFlit, beat0.tag)] })]⟩)] }

theorem wit_FlitBeat : sentBeat.flitBeat 0 true 2 firstFlit = some beat0 ∧ sentBeat.crossingAt 0 false 2 (fld firstFlit.toNat 19 9) = some (0, ⟨0, false, 2, 4⟩) ∧
    (sentBeat.laneEnd 0 true 2).slots = [] ∧ 0 + 1 < (sentBeat.route 1).links.length ∧ ((sentBeat.route 1).link 1).idle = true ∧
    gives (exec (.scarfFlitReceive 0 true 2 firstFlit) sentBeat) (fun t => (t.laneEnd 0 true 2).slots == [(1, beat0)] &&
      ((t.route 1).link 1).beat == some beat0) = true := by decide +kernel

/-- R75: the flit types 2 (SERVICE), 0 (IDLE) and 3 (NAK), each in turn; an IDLE flit brings back the credit of route 1. -/
theorem wit_FlitKinds : let f2 := serviceFlit (((LaneEnd.fresh).rxGood + 1) % 256) 255 0 0 5
    let f0 := idleFlit 255 1 1
    let f3 := nakFlit 255
    flitCrcGood f2 = true ∧ flitType f2 = 2 ∧ flitSeq f2 = ((routed.laneEnd 0 true 0).rxGood + 1) % 256 ∧ flitCrcGood f0 = true ∧ flitType f0 = 0 ∧
    flitCrcGood f3 = true ∧ flitType f3 = 3 ∧
    gives (exec (.scarfFlitReceive 0 true 0 f2) routed) (fun t => tblGetD t.tel.cnt (cntKey 7 0 4) 0 == 1) = true ∧
    gives (exec (.scarfFlitReceive 0 false 2 f0) { routed with routes := [(1, ⟨[busyLink, .fresh], [], [3], false⟩)] }) (fun t => (t.route 1).credits == [4]) = true := by
  decide +kernel

/-- A lane with two unacknowledged flits, the older failed seven times in a row. -/
def replaying (fails : Nat) : State := { routed with
  bounds := [(0, ⟨true, false, [(laneKey false 2, { LaneEnd.fresh with replay := [⟨4, 44, 0⟩, ⟨5, 55, 0⟩], failSeq := 4, fails := fails })]⟩)] }

/-- R82, R84: the seventh failure sends both again in order, the eighth takes the boundary down. -/
theorem wit_Replay : (replaying 6).boundaryUp 0 = true ∧ ((replaying 6).laneEnd 0 false 2).replay = ⟨4, 44, 0⟩ :: [⟨5, 55, 0⟩] ∧
    (⟨4, 44, 0⟩ : SentFlit).at_ + 1000 ≤ (replaying 6).now ∧
    gives (exec (.scarfReplayTimeout 0 false 2) (replaying 6)) (fun t => (t.laneEnd 0 false 2).tx == [44, 55] && (t.laneEnd 0 false 2).fails == 7) = true ∧
    gives (exec (.scarfReplayTimeout 0 false 2) (replaying 7)) (fun t => (t.boundary 0).down) = true ∧
    gives (exec (.scarfNakReceive 0 false 2 4) (replaying 7)) (fun t => (t.laneEnd 0 false 2).tx == [55] && !(t.boundary 0).down) = true ∧
    gives (exec (.scarfNakReceive 0 false 2 5) (replaying 7)) (fun t => (t.laneEnd 0 false 2).replay.isEmpty) = true := by decide +kernel

/-- R71: a SERVICE flit and two others behind it are sent again; two count. -/
theorem wit_Respaced : let e : LaneEnd := { LaneEnd.fresh with spaced := 3, replay := [⟨4, beatFlit 4 0 0 0 0 beat0, 0⟩, ⟨5, serviceFlit 5 0 0 0 9, 0⟩,
      ⟨6, beatFlit 6 0 0 0 0 beat0, 0⟩, ⟨7, beatFlit 7 0 0 0 0 beat0, 0⟩] }
    e.respaced = 2 ∧ (e.replay[1]?.map (fun x => flitType x.flit)) = some 2 := by decide +kernel

theorem wit_Launch : routed.image.committed.bind (fun i => i.routes.find? (fun r => r.tenonBay == 0 && r.tenonPort == 0)) = imgR.routes.head? ∧
    tblGetD (routed.bay 0).out 0 [] = beat0 :: [] ∧ (routed.route 0).links = Link.fresh :: [] ∧ (routed.bay 0).pstate = .run ∧ (routed.bay 0).stopped = false ∧
    Link.fresh.req = Link.fresh.ack ∧
    gives (exec (.tenonLaunch 0 0) routed) (fun t => ((t.route 0).link 0).beat == some beat0 && !((t.route 0).link 0).idle && tblGetD (t.bay 0).out 0 [] == []) = true := by
  decide +kernel

/-- R387: a beat of a sidecar waits while one of its data waits at another tenon. -/
def sidecar : Beat := { beat0 with tag := { beat0.tag with role := 2 } }
def siding : State := { routed with bays := [(0, { Bay.fresh with pstate := .run, out := [(0, [sidecar]), (1, [beat0])] })] }

theorem wit_SideWaits : siding.sideWaits 0 0 sidecar = true ∧ routed.sideWaits 0 0 beat0 = false ∧ becomes (exec (.tenonLaunch 0 0) siding) siding = true := by
  decide +kernel

/-- R61: a route without framing launches the rest of the unit under way, then waits until its stages are empty. -/
def unframed (mark : BitVec 4) (l : Link) : State := { routed with
  bays := [(0, { Bay.fresh with pstate := .run, out := [(0, [{ beat0 with mark := mark }])] })], routes := [(0, ⟨[l], [beat0], [], true⟩)] }

theorem wit_Unframed : ({ beat0 with mark := 1 } : Beat).goesOn = true ∧ ({ beat0 with mark := 0 } : Beat).goesOn = false ∧
    (∀ c ∈ imgR.routes.head?, (unframed 0 .fresh).stagesEmpty 0 c = false ∧
      ({ unframed 0 .fresh with routes := [(0, ⟨[.fresh], [], [], true⟩)] } : State).stagesEmpty 0 c = true) ∧
    gives (exec (.tenonLaunch 0 0) (unframed 1 .fresh)) (fun t => (t.route 0).lostFraming && !((t.route 0).link 0).idle) = true ∧
    becomes (exec (.tenonLaunch 0 0) (unframed 0 .fresh)) (unframed 0 .fresh) = true ∧
    gives (exec (.tenonLaunch 0 0) { unframed 0 .fresh with routes := [(0, ⟨[.fresh], [], [], true⟩)] }) (fun t => !(t.route 0).lostFraming &&
      !((t.route 0).link 0).idle) = true ∧
    becomes (exec (.tenonLaunch 0 0) (unframed 1 busyLink)) (unframed 1 busyLink) = true := by decide +kernel

def waitingBeat (n : Nat) : State := { routed with routes := [(0, ⟨[busyLink], List.replicate n beat0, [], false⟩), (1, ⟨[.fresh, busyLink], [], [4], false⟩)] }

/-- R53: fifteen beats leave room for one more, sixteen none; R67: a fenced bay discards. -/
theorem wit_Mortise : (waitingBeat 15).routeCfg? 0 = imgR.routes.head? ∧ ((waitingBeat 15).route 0).links = [] ++ [busyLink] ∧ busyLink.req ≠ busyLink.ack ∧
    busyLink.beat = some beat0 ∧ ((waitingBeat 15).bay 1).pstate = .park ∧ ((waitingBeat 15).bay 16).pstate = .fenced ∧
    gives (exec (.trussBeatAccept 0 0) (waitingBeat 15)) (fun t => (t.route 0).fifo.length == 16 && ((t.route 0).link 0).idle) = true ∧
    becomes (exec (.trussBeatAccept 0 0) (waitingBeat 16)) (waitingBeat 16) = true ∧
    gives (exec (.trussBeatAccept 1 1) (waitingBeat 0)) (fun t => (t.route 1).fifo.isEmpty && tblGetD t.tel.cnt (cntKey 2 16 5) 0 == 1) = true := by
  decide +kernel

/-! ## Sill ports -/

def readReq (gidx : Nat) (deadline : Option Nat) : Req := ⟨.read, 0x1000 * gidx, 1, 0, false, 0, deadline, 1000, gidx, .queueTail 0 gidx, []⟩

def asking : State := { up with ports := [(0, { Port.fresh with waiting := [readReq 3 none, readReq 2 (some 900), readReq 1 (some 500)] })] }

/-- R231: the earliest deadline goes first. -/
theorem wit_Issue : asking.portUp 0 = true ∧ asking.portUp 8 = false ∧ (∀ x ∈ up.openStreams, x.2.2.waitingRecs = []) ∧ asking.arbitrate 0 = some (readReq 1 (some 500)) ∧ (asking.port 0).slots % 64 ≠ 63 ∧
    up.arbitrate 0 = none ∧
    gives (exec (.sillRequestIssue 0 7) asking) (fun t => (t.port 0).waiting == [readReq 3 none, readReq 2 (some 900)] && (t.port 0).reads.length == 1) = true ∧
    gives (exec (.sillRequestIssue 0 7) up) (fun t => (t.port 0).slots == 1) = true ∧
    ({ asking with ports := [(0, { asking.port 0 with slots := 63 })] } : State).arbitrate 0 = some (readReq 3 none) := by decide +kernel

/-- R121, R126: a write of three granules from an odd one takes two beats; the first has its upper half only. -/
theorem wit_WriteBeats : let r : Req := ⟨.write, 0x1040, 3, 0, false, 0, none, 0, 0, .direct 0, List.replicate 192 7⟩
    r.addr % 64 = 0 ∧ 0 < r.grans ∧ r.data.length = 64 * r.grans ∧ r.beats = 2 ∧ r.writeBeats.map (fun b => (b.gran, b.last)) = [(2, false), (3, true)] := by
  decide +kernel

def out (tag : Nat) (r : Req) (drop : Bool) : OutReq := ⟨tag, r, 999000000, false, [], [], drop⟩
def tailQueue : Queue := { Queue.fresh with present := true, enabled := true, log2 := 4, weight := 1, burst := 1, tailOut := true, index := 0x1000, base := 0x2000 }

def reading : State := { up with
  queues := [(0, tailQueue)],
  ports := [(0, { Port.fresh with
    reads := [out 5 ⟨.read, 0x1000, 1, 0, false, 0, none, 0, 0, .queueTail 0 0, []⟩ false, out 6 ⟨.read, 0x1000, 4, 0, false, 0, none, 0, 0, .queueTail 0 0, []⟩ true] })] }

theorem wit_ReadBeats : (reading.port 0).reads.find? (fun x => x.tag == 5) = some (out 5 ⟨.read, 0x1000, 1, 0, false, 0, none, 0, 0, .queueTail 0 0, []⟩ false) ∧
    (reading.queue 0 0).tailOut = true ∧ (reading.queue 0 0).fault = false ∧
    gives (exec (.sillReadBeat 0 5 0 true 0 9) reading) (fun t => (t.queue 0 0).tailValue == some 9 && (t.port 0).reads.length == 1) = true ∧
    faults (exec (.sillReadBeat 0 5 31 true 0 9) reading) = true ∧ faults (exec (.sillReadBeat 0 6 0 true 0 9) reading) = true ∧
    gives (exec (.sillReadBeat 0 6 0 false 0 9) reading) (fun t => ((t.port 0).reads.map (fun o => o.beats.length)) == [0, 1]) = true ∧
    gives (exec (.sillReadErrorResponse 0 5 true 3) reading) (fun t => (t.queue 0 0).fault && (t.queue 0 0).faultCode == 0x20) = true ∧
    gives (exec (.sillReadErrorResponse 0 6 false 0) reading) (fun t => (t.port 0).reads.length == 1 && !(t.queue 0 0).fault) = true := by decide +kernel

def block (n : Nat) : Req := ⟨.write, 0x20000, 1, 0, false, 0, none, 0, 0, .slotBlock 0 0 0 n, List.replicate 64 7⟩
def writing : State := { up1 with
  ports := [(0, { Port.fresh with writes := [out 5 (block 0) false, out 5000 (block 1) true, out 6 (block 1) true] })],
  streams := [(0, { str0 with xfer := some ⟨0, List.replicate 8192 7, 0, 0, 0, 1, []⟩ })] }

/-- R127: OKAY writes the 64 bytes; POISON, and an answer out of the order of its class, break the rule of the port. -/
theorem wit_Writes2 : (writing.port 0).writes.find? (fun x => x.tag == 5) = some (out 5 (block 0) false) ∧
    (writing.port 0).writes.find? (fun y => tagClass y.tag == tagClass 5) = some (out 5 (block 0) false) ∧
    gives (exec (.sillWriteResponse 0 5 .okay) writing) (fun t => memRead t.mem 0x2003F == 7 && memRead t.mem 0x20040 == 0 &&
      ((t.stream 0 0).xfer.map (·.low)) == some 1) = true ∧
    faults (exec (.sillWriteResponse 0 6 .okay) writing) = true ∧ faults (exec (.sillWriteResponse 0 5 .poison) writing) = true := by decide +kernel

theorem wit_Timeout : (writing.port 0).writes.find? (fun x => x.tag == 6) = some (out 6 (block 1) true) ∧
    (out 6 (block 1) true).at_ + 1000000 ≤ writing.now ∧ writing.now < (out 6 (block 1) true).at_ + 1000001 ∧
    gives (exec (.sillRequestTimeout 0 6 true) writing) (fun t => (t.port 0).retired == [6 + 8192] && (t.port 0).writes.length == 2) = true ∧
    gives (exec (.sillRequestTimeout 0 6 true) { writing with ports := [(0, { writing.port 0 with retired := List.range 63 })] })
      (fun t => t.frame.st == .fatal && t.dump.detail == 1 && (t.port 0).failed) = true := by decide +kernel

/-- R131. -/
theorem wit_Stray : (∀ o ∈ (up.port 3).reads, o.tag ≠ 9) ∧ (∀ o ∈ (up.port 3).writes, o.tag ≠ 9) ∧
    (tblGetD up.units (unitKey 1 3 (up.intakeBay 3)) .fresh).held = none ∧
    gives (exec (.sillReadBeat 3 9 0 true 0 0) up) (fun t => tblGetD t.tel.cnt (cntKey 1 3 4) 0 == 1 && t.frameLog.next == 1) = true ∧
    gives (exec (.sillWriteResponse 3 9 .okay) up) (fun t => (t.frameLog.chip.map (·.detail)) == [9 + 65536]) = true ∧
    gives (exec (.sillReadErrorResponse 3 9 true 0) up) (fun t => t.frameLog.next == 1) = true := by decide +kernel

/-! ## Functions and queues -/

/-- Function 0 has a stream, a queue with an image default and a pool; function 1 is open too. -/
def def0 : QueueDef := ⟨0, 0, 4, 2, 3, 0, 0, 0xFFFF, 1, 0, 0⟩

def inUse : State := { up1 with
  funcs := [(0, { Func.fresh with st := .open_ }), (1, { Func.fresh with st := .open_ })],
  queues := [(0, { tailQueue with defaults := some def0 })],
  pools := [(3, { Pool.fresh with assigned := true, enabled := true, region := 0x8000, buffers := 8, log2Size := 12 })] }

/-- R180, R181: streams close, the queue is at its default, pools are disabled, function 1 stays. -/
theorem wit_FuncReset : acc0.origin = .function ∧ acc0.fn = 0 ∧ (0 : BitVec 6).toNat < inUse.caps.funcs ∧ inUse.early = false ∧ inUse.frame.st ≠ .fatal ∧
    (inUse.func 0).st = .open_ ∧ (inUse.queue 0 0).defaults = some def0 ∧ 0 < 512 ∧
    gives (exec (.funcResetGo acc0 0 3) inUse) (fun t => (t.func 0).st == .resetting && (t.func 0).resetKeys && (t.stream 0 0).st == .free &&
      (t.queue 0 0).weight == 2 && !(t.queue 0 0).enabled && (t.pools.all (fun p => !p.2.enabled)) && (t.func 1).st == .open_) = true := by decide +kernel

def resetting : State := { keyed with funcs := [(3, { Func.fresh with st := .resetting, resetKeys := true }), (0, { Func.fresh with st := .resetting, resetKeys := true })] }

theorem wit_FuncResetEnds : (resetting.func 0).st = .resetting ∧ resetting.frame.st ≠ .fatal ∧ resetting.funcWritesOut 0 = false ∧
    resetting.funcMsgsOut 0 = false ∧ resetting.funcBanksOut 0 = false ∧ (up.func 0).st ≠ .resetting ∧ resetting.frame.st ≠ .bootFail ∧
    becomes (exec (.funcResetComplete 0) { resetting with banks := [(5, { Bank.fresh with kind := 2, pending := some ⟨0, 0, false, false⟩ })] })
      { resetting with banks := [(5, { Bank.fresh with kind := 2, pending := some ⟨0, 0, false, false⟩ })] } = true ∧
    gives (exec (.funcResetComplete 0) resetting) (fun t => (t.func 0).st == .open_ && (t.func 0).keysCleared && t.sec.slots.isEmpty) = true ∧
    gives (exec (.funcResetComplete 3) resetting) (fun t => t.sec.slots.length == 1) = true := by decide +kernel

/-- R181: an ending record that has not been written. -/
theorem wit_EndingWaits : let s : State := { resetting with later := [.ending 0 0 str0 ⟨0, 0, stOk, 0, false, false, 0, 0xFFFF, 0⟩] }
    resetting.endingWaits 0 = false ∧ s.endingWaits 0 = true ∧ becomes (exec (.funcResetComplete 0) s) s = true := by decide +kernel

/-- A queue that is off, with legal registers; one that is on. -/
def queueOff : Queue := { Queue.fresh with present := true, log2 := 6, weight := 1, burst := 1, index := 0x1000, base := 0x2000 }
def queueOn : Queue := { queueOff with enabled := true, tailOut := false, opcodeMask := 0xFFFF }
def offState : State := { up with queues := [(0, queueOff)] }
def onState : State := { up with queues := [(0, queueOn)] }

theorem wit_QEnable : (offState.queue 0 0).present = true ∧ (offState.queue 0 0).running = false ∧ offState.enableStatic 0 queueOff = true ∧
    offState.enableStatic 0 { queueOff with weight := 0 } = false ∧
    gives (exec (.qEnable acc0 0 0 0x55) offState) (fun t => (t.queue 0 0).enabling && (t.queue 0 0).vector == 5 && (t.port 0).waiting.length == 1) = true ∧
    gives (exec (.qEnable acc0 0 0 3) offState) (fun t => !(t.queue 0 0).enabling && !(t.queue 0 0).enabled) = true := by decide +kernel

theorem wit_QEnableAccess : offState.FuncAccess acc0 0 ∧ onState.FuncAccess acc0 0 ∧ officer.FuncAccess acc0 0 :=
  ⟨⟨.inr ⟨rfl, rfl⟩, by decide, by decide, by decide, by decide⟩, ⟨.inr ⟨rfl, rfl⟩, by decide, by decide, by decide, by decide⟩,
    ⟨.inr ⟨rfl, rfl⟩, by decide, by decide, by decide, by decide⟩⟩

/-- An index block with HEAD, LAP, ERR_COUNT, the base and the size of the error ring. -/
def indexBlk (head log2 : Nat) : Bytes :=
  zeros 8 ++ natLe 4 head ++ natLe 4 7 ++ natLe 4 0 ++ zeros 4 ++ natLe 8 0x4000 ++ natLe 1 log2 ++ zeros 31

/-- R213: the index block is on its way, or its read is gone. -/
def enabling0 (p : List Req) : State := { up with
  queues := [(0, { queueOff with enabling := true })], ports := [(0, { Port.fresh with waiting := p })] }

theorem wit_QEnableWaits : let r : Req := ⟨.read, 0x1000, 1, 0, false, 0, none, 0, 0, .queueIndex 0 0, []⟩
    (enabling0 [r]).indexAwaited 0 0 = true ∧ (enabling0 []).indexAwaited 0 0 = false ∧ ((enabling0 []).queue 0 0).indexBlock = none ∧
    (enabling0 []).enableStatic 0 ((enabling0 []).queue 0 0) = true ∧
    becomes (exec (.qEnableCheck 0 0) (enabling0 [r])) (enabling0 [r]) = true ∧
    gives (exec (.qEnableCheck 0 0) (enabling0 [])) (fun t => (t.queue 0 0).enableRefused && !(t.queue 0 0).enabling) = true := by decide +kernel

def checking (blk : Bytes) (q : Queue) : State := { up with queues := [(0, { q with enabling := true, indexBlock := some blk })] }

/-- R214: HEAD 63 of 64 slots passes, 64 does not; rings of 2^4 and 2^12 records pass, of 2^13 do not. -/
theorem wit_QEnableCheck : ((checking (indexBlk 63 4) queueOff).queue 0 0).enabling = true ∧ ((checking (indexBlk 63 4) queueOff).queue 0 0).jobs = [] ∧
    (checking (indexBlk 63 4) queueOff).enableStatic 0 ((checking (indexBlk 63 4) queueOff).queue 0 0) = true ∧
    gives (exec (.qEnableCheck 0 0) (checking (indexBlk 63 4) queueOff)) (fun t => (t.queue 0 0).enabled && (t.queue 0 0).head == 63 && (t.queue 0 0).lap == 7) = true ∧
    gives (exec (.qEnableCheck 0 0) (checking (indexBlk 64 4) queueOff)) (fun t => (t.queue 0 0).enableRefused && !(t.queue 0 0).enabled) = true ∧
    gives (exec (.qEnableCheck 0 0) (checking (indexBlk 0 12) queueOff)) (fun t => (t.queue 0 0).enabled) = true ∧
    gives (exec (.qEnableCheck 0 0) (checking (indexBlk 0 13) queueOff)) (fun t => (t.queue 0 0).enableRefused) = true ∧
    gives (exec (.qEnableCheck 0 0) (checking (indexBlk 0 4) { queueOff with weight := 0 })) (fun t => (t.queue 0 0).enableRefused) = true := by
  decide +kernel

/-- R210, R218: a job dispatched before the fault goes on beside the new ones; in FATAL nothing is decided. -/
theorem wit_QEnableOld : let s := checking (indexBlk 63 4) { queueOff with jobs := [⟨3, 0, 1, [], 1, true, 0, false, false, false, none, none, 0⟩] }
    s.live = true ∧ gives (exec (.qEnableCheck 0 0) s) (fun t => (t.queue 0 0).enabled && (t.queue 0 0).jobs.length == 1 && (t.queue 0 0).own.isEmpty) = true ∧
    becomes (exec (.qEnableCheck 0 0) { s with frame := { s.frame with st := .fatal } }) { s with frame := { s.frame with st := .fatal } } = true := by
  decide +kernel

/-- R213, R217: a queue that runs stops; one that is ENABLING holds the write; a quiet one is done. -/
theorem wit_QDisable : (onState.queue 0 0).enabled = true ∧ (onState.queue 0 0).enabling = false ∧ (onState.queue 0 0).chain = none ∧
    ({ queueOff with disabling := true } : Queue).quiet = true ∧ up.live = true ∧
    gives (exec (.qDisable acc0 0 0 0x2) onState) (fun t => !(t.queue 0 0).enabled && (t.queue 0 0).disabling) = true ∧
    gives (exec (.qDisable acc0 0 0 0x2) (checking [] queueOff)) (fun t => (t.queue 0 0).heldDisable && (t.queue 0 0).enabling) = true ∧
    gives (exec (.qDisableComplete 0 0) { up with queues := [(0, { queueOff with disabling := true })] }) (fun t => !(t.queue 0 0).disabling) = true := by
  decide +kernel

/-- R217: a posted entry whose read is out keeps DISABLING set. -/
theorem wit_QSettled : let s : State := { up with queues := [(0, { queueOff with disabling := true })], ports := [(0, { Port.fresh with
      waiting := [⟨.read, 0x2000, 1, 0, false, 0, none, 0, 0, .queueEntry 0 0 0 true, []⟩] })] }
    s.queueSettled 0 0 = false ∧ ({ s with ports := [] } : State).queueSettled 0 0 = true ∧ becomes (exec (.qDisableComplete 0 0) s) s = true := by decide +kernel

/-- R215: a legal weight waits for the next round, an illegal one and a size are ignored with CONFIG_IGNORED. -/
theorem wit_QConfig : (onState.queue 0 0).running = true ∧
    gives (exec (.qConfigWrite acc0 0 0 .weight 9) onState) (fun t => (t.queue 0 0).nextWeight == 9 && (t.queue 0 0).weight == 1) = true ∧
    gives (exec (.qConfigWrite acc0 0 0 .burst 64) onState) (fun t => (t.queue 0 0).nextBurst == 64 && !(t.queue 0 0).cfgIgnored) = true ∧
    gives (exec (.qConfigWrite acc0 0 0 .burst 65) onState) (fun t => (t.queue 0 0).nextBurst == 0 && (t.queue 0 0).cfgIgnored) = true ∧
    gives (exec (.qConfigWrite acc0 0 0 .size 5) onState) (fun t => (t.queue 0 0).log2 == 6 && (t.queue 0 0).cfgIgnored) = true ∧
    gives (exec (.qConfigWrite acc0 0 0 .size 5) offState) (fun t => (t.queue 0 0).log2 == 5) = true ∧
    gives (exec (.qConfigWrite acc0 0 0 .baseHi 1) offState) (fun t => (t.queue 0 0).base == 2 ^ 32) = true := by decide +kernel

/-- R179, R197: a queue that is off, one that is on, one whose TAIL read is on its way, one that is not there. -/
theorem wit_Doorbell : (onState.queue 0 0).tailOut = false ∧ (onState.func 0).st = .open_ ∧ (onState.queue 0 1).present = false ∧
    gives (exec (.doorbell acc0 0 0) onState) (fun t => (t.queue 0 0).tailOut && (t.port 0).waiting.length == 1 && tblGetD t.tel.cnt (cntKey 5 0 2) 0 == 1) = true ∧
    gives (exec (.doorbell acc0 0 0) { up with queues := [(0, tailQueue)] }) (fun t => (t.queue 0 0).tailAgain && (t.port 0).waiting.isEmpty) = true ∧
    gives (exec (.doorbell acc0 0 0) offState) (fun t => tblGetD t.tel.cnt (cntKey 5 0 3) 0 == 1 && (t.port 0).waiting.isEmpty) = true ∧
    gives (exec (.doorbell acc0 0 1) onState) (fun t => t.tel.cnt.isEmpty && (t.func 0).lostBells == 1 && t.host.rsp == [⟨0, false⟩]) = true ∧
    gives (exec (.doorbell acc0 0 512) onState) (fun t => (t.func 0).lostBells == 1) = true := by decide +kernel

def tailed (next tail : Nat) : State := { up with queues := [(0, { queueOn with nextFetch := next, tail := next, tailOut := true, tailValue := some tail })] }

/-- R198: from slot 62 to TAIL 1 are three entries, the last of them over the end of the ring. -/
theorem wit_TailRead : (tailed 62 1).live = true ∧ ((tailed 62 1).queue 0 0).enabled = true ∧ 1 < ((tailed 62 1).queue 0 0).size ∧
    gives (exec (.tailRead 0 0 0 v0) (tailed 62 1)) (fun t => ((t.port 0).waiting.map (·.addr)) == [0x2F80, 0x2FC0, 0x2000] && (t.queue 0 0).nextFetch == 1 &&
      !(t.queue 0 0).tailOut) = true ∧
    gives (exec (.tailRead 0 0 0 v0) (tailed 3 3)) (fun t => (t.port 0).waiting.isEmpty) = true := by decide +kernel

/-- R200: with PREFETCH 4 two slots past TAIL are fetched, so two more may be; the doorbell that came meanwhile has its read. -/
theorem test_prefetch : let s : State := { up with queues := [(0, { queueOn with
      nextFetch := 5, tail := 3, tailOut := true, tailAgain := true, tailValue := some 3, prefetch := 4 })] }
    (s.queue 0 0).pre = 4 ∧
    gives (exec (.tailRead 0 0 9 v0) s) (fun t => ((t.port 0).waiting.map (·.owner)) == [.queueEntry 0 0 5 false, .queueEntry 0 0 6 false, .queueTail 0 0] &&
      (t.queue 0 0).tailOut && !(t.queue 0 0).tailAgain) = true := by decide +kernel

/-! ## Entries and jobs -/

/-- Fields of an entry: offset and bytes. -/
def ent (fs : List (Nat × Bytes)) : Bytes := fs.foldl (fun b f => overlay b f.1 f.2) (zeros 64)

/-- An entry of an opcode that is FIRST and LAST, with the PHASE of the first lap. -/
def whole (op flags : Nat) : Bytes := ent [(0, natLe 1 op), (1, natLe 1 flags)]

def arrived (bs : Bytes) : State := { up with queues := [(0, { queueOn with nextFetch := 1, tail := 1, arrived := [⟨0, true, false, bs⟩] })] }

/-- R194, R202: FIRST and LAST is a job; FIRST alone begins a chain. The phase of lap 0 is the queue's own. -/
theorem wit_EntryFetch : (arrived (whole 0 3)).live = true ∧ ((arrived (whole 0 3)).queue 0 0).phaseOk 0 (whole 0 3) = false ∧
    ((arrived (whole 0 0x83)).queue 0 0).nearest ((arrived (whole 0 0x83)).awaited 0 0 true ++ [0]) = some 0 ∧
    (leAt (whole 0 0x83) 0 4).testBit 8 = true ∧ (leAt (whole 0 0x83) 0 4).testBit 9 = true ∧ (leAt (whole 0 0x81) 0 4).testBit 9 = false ∧
    gives (exec (.entryFetch 0 0 v0) (arrived (whole 0 0x83))) (fun t => (t.queue 0 0).jobs.length == 1 && (t.queue 0 0).arrived.isEmpty) = true ∧
    gives (exec (.entryFetch 0 0 v0) (arrived (whole 0 0x81))) (fun t => (t.queue 0 0).chain.isSome && (t.queue 0 0).jobs.isEmpty) = true := by decide +kernel

/-- A job of some entries in the first slots. -/
def job (op : Nat) (es : List Bytes) : Job :=
  { slot := 0, lap := 0, opcode := op, entries := es.zipIdx.map (fun p => (p.2, p.1)), total := es.length, started := false, acted := 0, complete := false,
    notify := false, fence := false, waits := none, progress := none, gen := 0 }

def jobs (js : List Job) (s : State) : State := { s with queues := [(0, { queueOn with jobs := js })] }

/-- R189, R216: an NOP is complete at once; a COPY starts. -/
theorem wit_QueueVisit : ((jobs [job 0 [whole 0 3]] up).queue 0 0).visits < ((jobs [job 0 [whole 0 3]] up).queue 0 0).weight ∧
    up.opcodeCheck queueOn 0 = stOk ∧ up.opcodeCheck queueOn 1 = stOk ∧ (jobs [job 0 [whole 0 3]] up).visitDue { queueOn with jobs := [job 0 [whole 0 3]] } = true ∧
    gives (exec (.queueVisit 0 0 v0) (jobs [job 0 [whole 0 3]] up)) (fun t => ((t.queue 0 0).jobs.map (·.complete)) == [true] && (t.queue 0 0).visits == 1) = true ∧
    gives (exec (.queueVisit 0 0 v0) (jobs [job 1 [whole 1 3]] up)) (fun t => ((t.queue 0 0).jobs.map (fun j => (j.started, j.complete))) == [(true, false)]) = true := by
  decide +kernel

/-- R216: two queues of weight 2; after one visit the queue waits for the other. -/
def visited (n : Nat) : State := { up with queues := [(0, { queueOn with weight := 2, visits := n, jobs := [job 0 [whole 0 3]] }),
  (1, { queueOn with weight := 2, jobs := [job 0 [whole 0 3]] })] }

theorem wit_QueueTurn : (visited 1).visitDue ((visited 1).queue 0 0) = false ∧ (visited 0).visitDue ((visited 0).queue 0 0) = true ∧
    becomes (exec (.queueVisit 0 0 v0) (visited 1)) (visited 1) = true ∧
    gives (exec (.queueVisit 0 0 v0) (visited 0)) (fun t => (t.queue 0 0).visits == 1) = true := by decide +kernel

def passing : State := jobs [{ job 0 [whole 0 3] with started := true, complete := true, acted := 1 }, job 1 [whole 1 3]] up

/-- R206, R211: HEAD goes from 0 to 1; a word of memory that is not the old HEAD faults the queue. -/
theorem wit_HeadPublish : passing.live = true ∧ (passing.queue 0 0).passable.length = 1 ∧ (passing.queue 0 0).head + 1 < (passing.queue 0 0).size ∧
    leNat (memReadBytes passing.mem 0x1008 4) = (passing.queue 0 0).head ∧
    gives (exec (.jobCompleteHeadPublish 0 0 v0) passing) (fun t => (t.queue 0 0).head == 1 && memRead t.mem 0x1008 == 1 && (t.queue 0 0).jobs.length == 1) = true ∧
    gives (exec (.jobCompleteHeadPublish 0 0 ⟨[(0x1008, [9])], none⟩) passing) (fun t => (t.queue 0 0).fault && (t.queue 0 0).head == 0) = true := by
  decide +kernel

/-- R130, R145: the addition waits for its granule, the message for room. -/
def telling (n : Nat) : State := { passing with
  queues := [(0, { queueOn with headNotify := true, jobs := (passing.queue 0 0).jobs })], notify := { passing.notify with msgs := List.replicate n ⟨1, 0, 0⟩ } }

theorem wit_HeadPublishOkay : (passing.seeMem v0).OkayAt 0 0x1008 4 ∧ (passing.seeMem v0).HasSlot (.control 0) .fetchAdd 0x1008 4 1 [] ∧
    ((atGranule 0x1000 passing).seeMem v0).NoSlot (.control 0) .fetchAdd 0x1008 4 1 [] ∧ ((atGranule 0x1000 passing).seeMem v0).OkayAt 0 0x1008 4 :=
  ⟨⟨by decide +kernel, rfl⟩, hasSlot_of (by decide +kernel), noSlot_of (by decide +kernel), ⟨by decide +kernel, rfl⟩⟩

theorem wit_HeadPublishWaits : entryCount (passing.queue 0 0).passable = 1 ∧ passing.errorWaits 0 0 = false ∧ passing.headAsked 0 0 = none ∧
    becomes (exec (.jobCompleteHeadPublish 0 0 v0) (atGranule 0x1000 passing)) (atGranule 0x1000 passing) = true ∧
    gives (exec (.jobCompleteHeadPublish 0 0 v0) (telling 255)) (fun t => t.notify.msgs.length == 256 && (t.queue 0 0).head == 1) = true ∧
    gives (exec (.jobCompleteHeadPublish 0 0 v0) (telling 256)) (fun t => t.notify.msgs.length == 256 && (t.queue 0 0).head == 0 &&
      memRead t.mem 0x1008 == 1) = true := by decide +kernel

/-- A dispatched job whose first entry may act. -/
def act (op : Nat) (es : List Bytes) (s : State) : State := jobs [{ job op es with started := true }] s
def walkIn (s : State) : State := { s with frame := { s.frame with st := .walk } }

/-- R190: in WALK a POOL_FILL completes with ACCESS_DENIED. -/
theorem wit_Turn : entryCommand 0x0A 0 0 0 v0 = some (.poolFill 0 0 0 v0) ∧ up.readyEntry 0x0A 0 0 0 = none ∧
    ((walkIn (act 0x0A [whole 10 3] up)).readyEntry 0x0A 0 0 0).isSome = true ∧ (walkIn up).frame.st = .walk ∧
    gives (exec (.poolFill 0 0 0 v0) (walkIn (act 0x0A [whole 10 3] up))) (fun t => ((t.queue 0 0).jobs.map (·.complete)) == [true] && (t.queue 0 0).errCount == 1) = true := by
  decide +kernel

/-- COPY of 64 bytes from 0x8000 to 0x9000. -/
def copyEnt : Bytes := ent [(0, [1, 3]), (0x08, natLe 8 0x8000), (0x10, natLe 8 0x9000), (0x18, natLe 8 64)]
def copying : State := act 1 [copyEnt] up

theorem wit_Copy : copying.Acts 0x01 0 0 0 ⟨[(0x8005, [7])], none⟩ { job 1 [copyEnt] with started := true } copyEnt ∧ copying.Canonical ∧
    leAt copyEnt 8 8 % 64 = 0 ∧ leAt copyEnt 16 8 + leAt copyEnt 24 8 ≤ 2 ^ 64 ∧ leAt copyEnt 0x20 1 = 0 ∧ copying.portUp 0 = true ∧
    (∀ a k, (copying.seeMem ⟨[(0x8005, [7])], none⟩).answerAt a k = some .okay) ∧ (copying.seeMem ⟨[(0x8005, [7])], none⟩).PortsRest ∧
    leAt copyEnt 24 8 ≤ 2 ^ 40 ∧
    gives (exec (.copy 0 0 0 ⟨[(0x8005, [7])], none⟩) copying) (fun t => memRead t.mem 0x9005 == 7 && memRead t.mem 0x9004 == 0 &&
      ((t.queue 0 0).jobs.map (·.complete)) == [true]) = true :=
  ⟨⟨rfl, by decide +kernel⟩, rfl, by decide +kernel, by decide +kernel, by decide +kernel, by decide +kernel, fun _ _ => rfl, fun _ h => (List.not_mem_nil h).elim,
    by decide +kernel⟩

/-! ## Streams by their entries -/

/-- STREAM_OPEN: stream 2, graph 0, best effort, batches of 1, 2 slots, and its second entry, the delivery target. -/
def openA : Bytes := ent [(0, [2, 1]), (0x08, natLe 2 2), (0x24, natLe 4 1), (0x38, [2])]
def openB : Bytes := ent [(0, [2, 2]), (0x08, natLe 8 0x20000), (0x10, natLe 8 4096), (0x18, natLe 8 0x10000), (0x20, [4])]
def opening : State := act 2 [openA, openB] up

theorem wit_StreamOpen : opening.Acts 0x02 0 0 0 v0 { job 2 [openA, openB] with started := true } openA ∧
    opening.openMalformed 0 openA openB = none ∧ opening.graph? 0 = some g0 ∧ opening.openDenied 0 g0 false 1 0 = none ∧ opening.freeGidx = some 0 ∧
    (act 2 [openA, openB] { up with streams := [(2, { str0 with gidx := 1 })] }).openMalformed 0 openA openB = some 16 ∧
    (act 2 [openA, openB] { up with streams := [(0, str0)] }).freeGidx = some 1 ∧
    gives (exec (.streamOpen 0 0 0 v0) opening) (fun t => (t.stream 0 2).st == .filling && (t.stream 0 2).gidx == 0 && (t.stream 0 2).slotStride == 4096) = true :=
  ⟨⟨rfl, by decide +kernel⟩, by decide +kernel⟩

/-- SHARD_LIST: one shard, in the clear, sealed. -/
def listA : Bytes := ent [(0, [4, 3]), (0x08, natLe 2 0), (0x0A, [1]), (0x0C, natLe 4 1), (0x10, natLe 8 0x8000), (0x18, natLe 2 0xFFFF)]
def listMem : Bytes := natLe 8 0x40000 ++ natLe 8 4096 ++ zeros 8 ++ [1] ++ zeros 7
def listing : State := act 4 [listA] { up with streams := [(0, { str0 with st := .filling })] }
def vList : MemView := ⟨[(0x8000, listMem)], none⟩

theorem wit_ShardList : listing.Acts 0x04 0 0 0 vList { job 4 [listA] with started := true } listA ∧ (listing.stream 0 0).st = .filling ∧
    (listing.graphOf (listing.stream 0 0)).direction = 0 ∧ (listing.seeMem vList).OkayAt 0 0x8000 32 ∧ (shardOf listMem 0xFFFF 0).bad = false ∧
    gives (exec (.shardList 0 0 0 vList) listing) (fun t => (t.stream 0 0).sealed_.isSome && ((t.queue 0 0).jobs.map (·.complete)) == [true]) = true :=
  ⟨⟨rfl, by decide +kernel⟩, by decide +kernel, by decide +kernel, ⟨by decide +kernel, by rfl⟩, by decide +kernel, by decide +kernel⟩

theorem wit_ListSlot : (listing.seeMem vList).PortsRest ∧ (listing.stream 0 0).finalSeen = false ∧
    ((atGranule 0x8000 listing).seeMem v0).NoSlot (.control 0) .read 0x8000 32 0 [] ∧
    becomes (exec (.shardList 0 0 0 v0) (atGranule 0x8000 listing)) (atGranule 0x8000 listing) = true :=
  ⟨fun _ h => (List.not_mem_nil h).elim, by decide +kernel, noSlot_of (by decide +kernel), by decide +kernel⟩

/-- A list under the bulk key that function 0 has in slot 5. -/
theorem wit_ListKey : let s : State := { listing with sec := { officer.sec with slots := [(5, ⟨0, 0, zeros 32, 3, 0⟩)], keyPart := [(0, (4, 8))] } }
    (5 : Nat) ≤ 1023 ∧ s.sec.armed ≠ some 4 ∧ s.inRange 0 5 = true ∧ tblGet? s.sec.slots 5 = some ⟨0, 0, zeros 32, 3, 0⟩ := by decide +kernel

/-- STREAM_CLOSE with ABORT (MODE 1) of stream 0. -/
def closeA : Bytes := ent [(0, [3, 3]), (0x0A, [1])]
def closing : State := act 3 [closeA] up1

theorem wit_StreamClose : closing.Acts 0x03 0 0 0 v0 { job 3 [closeA] with started := true } closeA ∧ (closing.stream 0 0).st ≠ .free ∧
    gives (exec (.streamClose 0 0 0 v0) closing) (fun t => (t.stream 0 0).st == .free && t.openStreams.isEmpty) = true :=
  ⟨⟨rfl, by decide +kernel⟩, by decide +kernel, by decide +kernel⟩

/-- STREAM_RESUME of a halted best-effort stream with a page group; of one that runs. -/
def resumeA : Bytes := ent [(0, [13, 3])]
def resuming : State := act 13 [resumeA] { paging with streams := [(0, { faulted with pageGroupHeld := true })] }

theorem wit_StreamResume : resuming.Acts 0x0D 0 0 0 v0 { job 13 [resumeA] with started := true } resumeA ∧ (resuming.stream 0 0).st = .halted ∧
    (resuming.stream 0 0).haltedFrom ≠ .draining ∧ 1 ≤ (resuming.stream 0 0).batch ∧ (∀ p ∈ resuming.openStreams, p.2.2.waitingRecs = []) ∧
    resuming.bays = [] ∧ resuming.bankWords = [] ∧ (resuming.stream 0 0).restored = false ∧ (resuming.stream 0 0).guaranteed = false ∧
    (resuming.stream 0 0).reading = none ∧ (resuming.stream 0 0).xfer = none ∧ (resuming.stream 0 0).ready = [] ∧ (resuming.stream 0 0).placed = [] ∧
    gives (exec (.streamResume 0 0 0 v0) resuming) (fun t => (t.stream 0 0).st == .filling && (t.func 0).pageGroups.isEmpty) = true ∧
    gives (exec (.streamResume 0 0 0 v0) (act 13 [resumeA] up1)) (fun t => (t.stream 0 0).st == .running && (t.queue 0 0).errCount == 1) = true :=
  ⟨⟨rfl, by decide +kernel⟩, by decide +kernel, by decide +kernel, by decide +kernel, by decide +kernel, rfl, rfl, by decide +kernel⟩

theorem wit_ResumeRests : resuming.NoWork ∧ (resuming.stream 0 0).faultOpen = false ∧ (resuming.stream 0 0).openRows = [] ∧
    (resuming.stream 0 0).closedRows = [] ∧ (∀ k, ∀ h ∈ (resuming.bay k).held, h.2.tag.stream ≠ (resuming.stream 0 0).gidx) ∧
    (∀ k, resuming.pinnedBad k = false) :=
  ⟨⟨by decide, rfl, by decide⟩, rfl, rfl, rfl, fun _ _ h => (List.not_mem_nil h).elim, fun _ => rfl⟩

/-- LOCK_GROUP 5 of two streams of function 0, ticket 9. -/
def groupA : Bytes := ent [(0, [14, 3]), (0x08, [5, 2, 0, 2]), (0x0C, natLe 4 9), (0x10, natLe 2 0 ++ natLe 2 1)]
def grouping : State := act 14 [groupA] { up with streams := [(0, { str0 with grouped := true }), (1, { str0 with grouped := true, gidx := 1 })] }

theorem wit_LockGroup : grouping.Acts 0x0E 0 0 0 v0 { job 14 [groupA] with started := true } groupA ∧ groupMembers groupA = [0, 1] ∧ (grouping.group 5).size = 0 ∧
    (State.newGroup groupA (grouping.stream 0 0)).fits (grouping.stream 0 1) = true ∧ (State.newGroup groupA (grouping.stream 0 0)).size = 2 ∧
    gives (exec (.lockGroup 0 0 0 v0) grouping) (fun t => (t.group 5).members == [0, 1] && (t.stream 0 1).group == some 5) = true :=
  ⟨⟨rfl, by decide +kernel⟩, by decide +kernel⟩

/-- Pool 3 is the local pool 0 of function 0: buffers of 4 KiB from 0x8000 on. -/
def pool0 : Pool := { Pool.fresh with assigned := true, enabled := true, region := 0x100000, buffers := 64, log2Size := 12, log2Ring := 6, ring := 0x6000 }
def pooled (p : Pool) : State := { up with pools := [(3, p)] }
def fillA : Bytes := ent [(0, [10, 3]), (0x0C, natLe 4 2), (0x10, natLe 8 0x8000)]
def filling : State := act 10 [fillA] (pooled pool0)
def vFill : MemView := ⟨[(0x8000, natLe 8 0x100000 ++ natLe 8 0x101000)], none⟩

theorem wit_PoolFill : filling.Acts 0x0A 0 0 0 vFill { job 10 [fillA] with started := true } fillA ∧ filling.poolNo 0 0 = some 3 ∧ (filling.pool 3).enabled = true ∧
    (filling.pool 3).validHandle 0x101000 = true ∧ (filling.pool 3).free + 2 ≤ (filling.pool 3).buffers ∧ (filling.seeMem vFill).OkayAt 0 0x8000 16 ∧
    gives (exec (.poolFill 0 0 0 vFill) filling) (fun t => (t.pool 3).cache == [0x100000, 0x101000] && (t.pool 3).added == 2) = true :=
  ⟨⟨rfl, by decide +kernel⟩, by decide +kernel, by decide +kernel, by decide +kernel, by decide +kernel, ⟨by decide +kernel, by rfl⟩, by decide +kernel⟩

theorem wit_FillSlot : (filling.seeMem vFill).PortsRest ∧ (filling.pool 3).cache.length + 2 ≤ 48 :=
  ⟨fun _ h => (List.not_mem_nil h).elim, by decide +kernel⟩

def snapA : Bytes := ent [(0, [15, 3])]

/-- R543: time 0 means 10 µs from now; a second snapshot is refused. -/
theorem wit_Snapshot : (act 15 [snapA] up).Acts 0x0F 0 0 0 v0 { job 15 [snapA] with started := true } snapA ∧ up.tel.pending = false ∧ snapping.tel.pending = true ∧
    gives (exec (.snapshot 0 0 0 v0) (act 15 [snapA] up)) (fun t => t.tel.snapAt == 1000010000 && t.tel.pending) = true ∧
    gives (exec (.snapshot 0 0 0 v0) (act 15 [snapA] snapping)) (fun t => t.tel.snapAt == 1000000000 && (t.queue 0 0).errCount == 1) = true :=
  ⟨⟨rfl, by decide +kernel⟩, rfl, rfl, by decide +kernel, by decide +kernel⟩

/-- CONTEXT_SAVE of stream 0 to 0x8000. -/
def saveA : Bytes := ent [(0, [11, 3]), (0x10, natLe 8 0x8000)]
def saving : State := act 11 [saveA] { up with streams := [(0, { str0 with st := .halted })] }

theorem wit_ContextSlot : (saving.seeMem v0).HasSlot (.control 0) .write 0x8000 512 0 ((saving.seeMem v0).contextBytes (saving.stream 0 0) 0) ∧
    (saving.contextBytes (saving.stream 0 0) 0).length = 512 ∧
    ((atGranule 0x81C0 saving).seeMem v0).NoSlot (.control 0) .write 0x8000 512 0 (((atGranule 0x81C0 saving).seeMem v0).contextBytes (saving.stream 0 0) 0) ∧
    becomes (exec (.contextSave 0 0 0 v0) (atGranule 0x81C0 saving)) (atGranule 0x81C0 saving) = true :=
  ⟨hasSlot_free _ _ _ _ _ _ rfl (by decide +kernel), by decide +kernel, noSlot_of (by decide +kernel), by decide +kernel⟩

theorem wit_ContextSave : saving.Acts 0x0B 0 0 0 v0 { job 11 [saveA] with started := true } saveA ∧ (saving.stream 0 0).st ≠ .free ∧
    saving.needsSpill (saving.stream 0 0) = false ∧ saving.movingEntry 0 0 = false ∧ saving.OkayAt 0 0x8000 (saving.contextBytes (saving.stream 0 0) 0).length ∧
    gives (exec (.contextSave 0 0 0 v0) saving) (fun t => ((t.queue 0 0).jobs.map (·.complete)) == [true]) = true :=
  ⟨⟨rfl, by decide +kernel⟩, by decide +kernel, by decide +kernel, by decide +kernel, ⟨by decide +kernel, by rfl⟩, by decide +kernel⟩


/-! ## Banks -/

/-- Bank 5 of bay 0 belongs to nobody, bank 6 to a stream of function 0, bank 7 to the march engine, bank 8 is being cleared. -/
def banked : State := { up1 with
  streams := [(0, str0), (1, { str0 with gidx := 1 }), (1024, { str0 with gidx := 2 })],
  banks := [(6, { Bank.fresh with kind := 2, index := 0 }), (7, { Bank.fresh with kind := 4 }), (8, { Bank.fresh with clearing := true })],
  bays := [(0, { Bay.fresh with pstate := .run }), (2, { Bay.fresh with pstate := .fenced }), (3, { Bay.fresh with pstate := .park })] }

/-- R262, R265, R560: a stream of a graph that uses the bay, the present owner, an illegal owner, a fenced bay. -/
theorem wit_BankOwner : (∃ f i y, banked.byGidx 2 = some (f, i, y) ∧ hasBit (banked.graphOf y).bays 0 = true) ∧ (5 : BitVec 12).toNat < 3072 ∧ banked.bankPresent 5 = true ∧ banked.fenced 0 = false ∧ banked.fenced 2 = true ∧
    banked.bankPresent 96 = true ∧ banked.frame.st = .running ∧ (banked.bank 5).kind = 0 ∧
    gives (exec (.bankOwnerWrite accF 5 0x2A) banked) (fun t => (t.bank 5).pending == some ⟨2, 2, true, false⟩) = true ∧
    gives (exec (.bankOwnerWrite accF 5 0) banked) (fun t => (t.bank 5).pending == none && !(t.bank 5).refused) = true ∧
    gives (exec (.bankOwnerWrite accF 5 0x10) banked) (fun t => (t.bank 5).refused) = true ∧
    gives (exec (.bankOwnerWrite accF 96 0) banked) (fun t => t.host.rsp == [⟨0, true⟩] && (t.bank 96).refused) = true := by
  refine ⟨⟨1, 0, _, rfl, by decide +kernel⟩, ?_⟩
  decide +kernel

def handing (r : BankReq) (y : Stream) : State := { banked with
  streams := [(0, y), (1, { str0 with gidx := 1 }), (1024, { str0 with gidx := 2 })], banks := [(6, { Bank.fresh with kind := 2, index := 0, pending := some r })] }

/-- R261, R264: the same function keeps the contents, another one and nobody do not; a halted stream keeps its bank. -/
theorem wit_BankHandover : ((handing ⟨2, 1, false, false⟩ str0).bank 6).pending = some ⟨2, 1, false, false⟩ ∧ (handing ⟨2, 1, false, false⟩ str0).batonOut 6 = false ∧
    (handing ⟨2, 1, false, false⟩ { str0 with st := .halted }).batonOut 6 = true ∧ ((handing ⟨2, 1, false, false⟩ str0).bank 6).clearing = false ∧
    gives (exec (.bankHandover 6) (handing ⟨2, 1, false, false⟩ str0)) (fun t => (t.bank 6).index == 1 && !(t.bank 6).clearing && (t.bank 6).pending == none) = true ∧
    gives (exec (.bankHandover 6) (handing ⟨2, 2, false, false⟩ str0)) (fun t => (t.bank 6).clearing && (t.bank 6).ownerFn == 1) = true ∧
    gives (exec (.bankHandover 6) (handing ⟨0, 0, false, false⟩ str0)) (fun t => (t.bank 6).clearing && (t.bank 6).kind == 0) = true ∧
    gives (exec (.bankHandover 6) (handing ⟨2, 1, true, false⟩ str0)) (fun t => (t.bank 6).clearing) = true ∧
    gives (exec (.bankHandover 6) (handing ⟨2, 1, false, false⟩ { str0 with st := .halted })) (fun t => (t.bank 6).pending == some ⟨2, 1, false, false⟩) = true ∧
    gives (exec (.bankHandover 6) (handing ⟨2, 1, false, true⟩ str0)) (fun t => (t.bank 6).loaded && !(t.bank 6).clearing) = true ∧
    gives (exec (.bankClearDone 8) banked) (fun t => (t.bank 8).zeroed && !(t.bank 8).clearing) = true := by decide +kernel

/-- R104, R264: a bank that came to its plan engine with a vocabulary of one word pinned holds that word, and zeros behind it. -/
def pinning : State := { up with
  image := { up.image with
    pinned := [(9, zeros 0x38 ++ natLe 8 0x48 ++ natLe 8 4 ++ [1, 2, 3, 4])],
    committed := some { img0 with
      tables := [⟨9, 1, 0, 76, []⟩], binds := [⟨16, 0, 0x0401, 0, 0⟩], bankPlan := [⟨16, 0, 1, 0⟩],
      profiles := [⟨0, 0x0401, overlay (zeros 160) 0 [9]⟩] } },
  banks := [(768, { Bank.fresh with kind := 1, index := 0, clearing := true, loaded := true })] }

theorem wit_BankPinned : pinning.pinSpan 768 = (0, 1) ∧ bytesAt (pinning.slotPins 16 0) 0 4 = [1, 2, 3, 4] ∧
    gives (exec (.bankClearDone 768) pinning) (fun t => (tblGet? t.bankWords (wordKey 768 0)).map (fun v => v.map (·.data)) == some [0x04030201, 0, 0, 0] &&
      (t.word 768 1).1.map (·.data) == [0, 0, 0, 0]) = true := by decide +kernel

/-- Bank 6 with this word at the place that is scrubbed next. -/
def scrubbing (w : List Codeword) : State := { banked with bankWords := [(6 * 4096, w)] }

/-- R258, R259: words without a wrong symbol, with one, and uncorrectable; a bank of the march engine, a bay in PARK. -/
theorem wit_Scrub : (∀ w, (State.word 6 0 (scrubbing w)).1 = w) ∧ banked.bankPresent 6 = true ∧ (banked.bank 6).kind ≠ 4 ∧ (banked.bay 0).pstate = .run ∧ (banked.bank 7).kind = 4 ∧
    (banked.bay 3).pstate = .park ∧ banked.pinnedWord 6 0 = false ∧
    ofRaw (rawOf zeroWord ^^^ 0) = zeroWord ∧
    becomes (exec (.scrubRead 7 1) banked) banked = true ∧ becomes (exec (.scrubRead 144 1) banked) banked = true := by
  refine ⟨fun _ => rfl, ?_⟩
  decide +kernel

theorem wit_ScrubWords : (∃ r, readWord [⟨0, 0⟩] = some (r, 0)) ∧ (∃ r m, readWord [⟨0, 1⟩, ⟨0, 0⟩] = some (r, m + 1)) ∧ (∃ c, readWord [⟨0, c⟩, ⟨0, 0⟩] = none) := by
  refine ⟨⟨[codewordOf 0], ?_⟩, ⟨[codewordOf 0, codewordOf 0], 0, ?_⟩, ?_⟩
  · simp only [readWord, read_zero]
  · simp only [readWord, read_zero, read_one]
  · obtain ⟨c, hc⟩ := uncorrectable_exists
    exact ⟨c, by simp only [readWord, hc]⟩

def oneMarch (b : Nat) (m : Bool) : State := { banked with march := { March.fresh with busy := true, runBank := b, runMode := m } }
def wholeMarch : State := { ready with march := { March.fresh with busy := true, whole := true }, bays := (List.range 64).map (fun k => (k, { Bay.fresh with pstate := .fenced })) }

/-- R266 to R269: a destructive march (MODE 0) that passes leaves zeros; a failing bank's bay is fenced. -/
theorem wit_March : (banked.bank 7).kind = 4 ∧ banked.march.busy = false ∧ banked.fenced 0 = false ∧ up.frame.st ≠ .selfTest ∧ (7 : Nat) / 48 < banked.nBays ∧
    gives (exec (.marchStart accF 0x72) banked) (fun t => t.march.busy && t.march.runBank == 7 && t.march.runMode) = true ∧
    gives (exec (.marchStart accF 0x60) banked) (fun t => t.march.refused && !t.march.busy) = true ∧
    gives (exec (.marchDone []) (oneMarch 7 false)) (fun t => (t.bank 7).zeroed && t.march.done && !t.march.fail) = true ∧
    gives (exec (.marchDone []) (oneMarch 7 true)) (fun t => !(t.bank 7).zeroed && t.march.done) = true ∧
    gives (exec (.marchDone [⟨7, 4096, 1⟩]) (oneMarch 7 false)) (fun t => t.march.fail && t.fenced 0) = true ∧
    wholeMarch.reachableBanks = [] ∧ gives (exec (.marchDone []) wholeMarch) (fun t => t.march.done && t.pins.marchDone) = true ∧
    becomes (exec (.marchDone []) banked) banked = true := by decide +kernel

/-- R267: the first read of a word gives what it holds; a third access that is not its complement fails. -/
theorem wit_MarchKeeps : (State.marchKeeps 7 [] (oneMarch 7 true)).1 = false ∧ (State.marchKeeps 7 [⟨7, 0, 5⟩, ⟨7, 2, 5⟩] (oneMarch 7 true)).1 = true ∧
    (State.marchKeeps 7 [⟨7, 0, 5⟩, ⟨7, 2, ~~~5⟩] (oneMarch 7 true)).1 = false ∧
    gives (exec (.marchDone [⟨7, 0, 5⟩, ⟨7, 2, 5⟩]) (oneMarch 7 true)) (fun t => t.march.fail && t.fenced 0) = true := by decide +kernel

/-- R266: access 4097 of a march writes the complement of what access 0 wrote. -/
theorem wit_MarchOp : marchOp 4096 = .read 0 (marchPattern 0 0) ∧ marchOp 4097 = .write 0 (~~~(marchPattern 0 0)) ∧ marchOp 0 = .write 0 (marchPattern 0 0) := by
  decide +kernel

/-! ## Pools -/

theorem wit_PoolMap : ((pooled pool0).pool 4).enabled = false ∧ ((pooled pool0).pool 3).enabled = true ∧
    gives (exec (.poolMapWrite accF 4 0x140) (pooled pool0)) (fun t => (t.pool 4).assigned && (t.pool 4).localNo == 1) = true ∧
    gives (exec (.poolMapWrite accF 4 0x040) (pooled pool0)) (fun t => !(t.pool 4).assigned) = true ∧
    gives (exec (.poolMapWrite accF 3 0x141) (pooled pool0)) (fun t => (t.pool 3).fn == 0) = true := by decide +kernel

/-- A pool block of 64 buffers of 2^12 bytes and a ring of 2^6 handles. -/
def poolBlk (log2 : Nat) : MemView :=
  ⟨[(0x8000, natLe 8 0x100000 ++ natLe 8 0x6000 ++ natLe 8 0x7000 ++ natLe 4 64 ++ natLe 1 log2 ++ natLe 1 6)], none⟩

def poolIdle : State := pooled { Pool.fresh with assigned := true, block := 0x8000 }

/-- An intake profile whose pool is the local pool 0, with one buffer reserved. -/
def intakeBody0 : Bytes := overlay (overlay (zeros 128) 8 [1]) 0x40 [1]
def naming : State := { pooled pool0 with
  streams := [(0, str0)], image := { up.image with committed := some { img0 with binds := [⟨0, 0, 0x0101, 0, 0⟩], profiles := [⟨0, 0x0101, intakeBody0⟩] } } }

theorem wit_PoolEnable : poolIdle.FuncAccess acc0 0 ∧ poolIdle.poolNo 0 0 = some 3 ∧ (poolIdle.pool 3).enabled = false ∧ (poolIdle.func 0).st = .open_ ∧
    (poolIdle.seeMem (poolBlk 12)).OkayAt 0 0x8000 64 ∧ naming.namesPool 0 0 = true ∧
    gives (exec (.poolEnable acc0 0 0 1 (poolBlk 12)) poolIdle) (fun t => (t.pool 3).enabled && (t.pool 3).buffers == 64) = true ∧
    gives (exec (.poolEnable acc0 0 0 1 (poolBlk 25)) poolIdle) (fun t => (t.pool 3).refused && !(t.pool 3).enabled) = true ∧
    gives (exec (.poolDisable acc0 0 0 2 v0) naming) (fun t => (t.pool 3).refused && (t.pool 3).enabled) = true ∧
    gives (exec (.poolDisable acc0 0 0 2 v0) (pooled pool0)) (fun t => !(t.pool 3).enabled) = true :=
  ⟨⟨.inr ⟨rfl, rfl⟩, by decide, by decide, by decide, by decide⟩, by decide +kernel, by decide +kernel, by decide +kernel, ⟨by decide +kernel, by rfl⟩, by decide +kernel⟩

def withPool (p : Pool) : State := { naming with pools := [(3, p)] }

/-- R274, R275, R279: the stream may have its one buffer; with none free it waits; a release brings it back. -/
theorem wit_PoolAllocate : (withPool { pool0 with cache := [0x100000] }).live = true ∧ naming.reservation 0 0 = 1 ∧ pool0.heldBy 0 = 0 ∧ pool0.fault = false ∧
    (naming.stream 0 0).st = .running ∧
    gives (exec (.poolAllocate 0 0 0 none) (withPool { pool0 with cache := [0x100000] })) (fun t => (t.pool 3).cache.isEmpty && (t.pool 3).holders.length == 1) = true ∧
    gives (exec (.poolAllocate 0 0 0 none) (withPool pool0)) (fun t => (t.pool 3).waits.length == 1 && (t.pool 3).holders.isEmpty) = true ∧
    gives (exec (.poolGrant 0 0) (withPool { pool0 with cache := [0x100000], waits := [⟨0, 9, 5⟩] }))
      (fun t => (t.pool 3).holders == [⟨0x100000, [(0, 9)], false⟩] && (t.pool 3).waits.isEmpty) = true ∧
    becomes (exec (.poolGrant 0 0) (withPool pool0)) (withPool pool0) = true ∧
    gives (exec (.poolRelease 0 0 0 0x100000 v0) (withPool { pool0 with holders := [⟨0x100000, [(0, 9)], false⟩] }))
      (fun t => (t.pool 3).cache == [0x100000] && (t.pool 3).holders.isEmpty) = true := by decide +kernel

/-- A buffer that stream 0 holds, its count table at 0x7000, and streams 0 to 2. -/
def sharing (us : List (Nat × Nat)) (shared : Bool) (old : Byte) : State := { withPool { pool0 with refs := 0x7000, holders := [⟨0x101000, us, shared⟩] } with
  mem := [(0x7004, old)], streams := [(0, str0), (1, { str0 with gidx := 1 }), (2, { str0 with gidx := 2, position := 4 })] }

/-- R276: a buffer that one stream holds gets two more holders, so its count rises by three at once; a fourth one adds one; the last
of them frees it, an earlier one does not. -/
theorem wit_PoolShare : (sharing [(0, 9)] false 1).OkayAt 0 0x7004 4 ∧ (sharing [(0, 9)] false 1).HasSlot ((sharing [(0, 9)] false 1).keyParty 1 0) .fetchAdd 0x7004 4 3 [] ∧
    ((sharing [(0, 9)] false 1).pool 3).refs + 4 * ((sharing [(0, 9)] false 1).pool 3).slotOf 0x101000 = 0x7004 ∧
    gives (exec (.poolAllocate 0 0 1 (some (0x101000, [2]))) (sharing [(0, 9)] false 1)) (fun t => memRead t.mem 0x7004 == 4 &&
      (t.pool 3).holders == [⟨0x101000, [(0, 9), (1, 0), (2, 4)], true⟩]) = true ∧
    gives (exec (.poolAllocate 0 0 2 (some (0x101000, []))) (sharing [(0, 9), (1, 0)] true 3)) (fun t => memRead t.mem 0x7004 == 4) = true ∧
    gives (exec (.poolRelease 0 0 1 0x101000 v0) (sharing [(0, 9), (1, 0)] true 2)) (fun t => memRead t.mem 0x7004 == 1 &&
      (t.pool 3).holders == [⟨0x101000, [(0, 9)], true⟩] && (t.pool 3).cache.isEmpty) = true ∧
    gives (exec (.poolRelease 0 0 0 0x101000 v0) (sharing [(0, 9)] true 1)) (fun t => memRead t.mem 0x7004 == 0 && (t.pool 3).holders.isEmpty &&
      (t.pool 3).cache == [0x101000]) = true ∧
    becomes (exec (.poolRelease 0 0 0 0x101000 v0) (atGranule 0x7000 (sharing [(0, 9)] true 1))) (atGranule 0x7000 (sharing [(0, 9)] true 1)) = true := by
  refine ⟨⟨by decide +kernel, rfl⟩, hasSlot_of (by decide +kernel), ?_⟩
  decide +kernel

theorem wit_PoolShareWaits : (sharing [(0, 9)] true 1).HasSlot ((sharing [(0, 9)] true 1).keyParty 0 9) .fetchAdd 0x7004 4 0xFFFFFFFF [] ∧
    ((atGranule 0x7000 (sharing [(0, 9)] true 1)).seeMem v0).NoSlot ((sharing [(0, 9)] true 1).keyParty 0 9) .fetchAdd 0x7004 4 0xFFFFFFFF [] :=
  ⟨hasSlot_of (by decide +kernel), noSlot_of (by decide +kernel)⟩

def handles (n : Nat) : List Nat := (List.range n).map (fun k => 0x100000 + 0x1000 * k)

/-- R273: 15 handles are below 16, 49 above 48; the borders themselves are left alone. -/
theorem wit_PoolCache :
    gives (exec (.poolCacheRefill 3 v0) (withPool { pool0 with cache := handles 15, ringCount := 32 })) (fun t => (t.pool 3).cache.length == 47 && (t.pool 3).ringCount == 0) = true ∧
    becomes (exec (.poolCacheRefill 3 v0) (withPool { pool0 with cache := handles 16, ringCount := 32 })) (withPool { pool0 with cache := handles 16, ringCount := 32 }) = true ∧
    gives (exec (.poolCacheSpill 3 v0) (withPool { pool0 with cache := handles 49 })) (fun t => (t.pool 3).cache.length == 17 && (t.pool 3).ringCount == 32 &&
      leNat (memReadBytes t.mem 0x6008 8) == 0x101000) = true ∧
    becomes (exec (.poolCacheSpill 3 v0) (withPool { pool0 with cache := handles 48 })) (withPool { pool0 with cache := handles 48 }) = true := by decide +kernel

/-- R273: a release that makes 49 handles leaves 17 in the cache and 32 in the ring. -/
theorem wit_ReleaseSpills : gives (exec (.poolRelease 0 0 0 0x200000 v0) (withPool { pool0 with buffers := 1024, cache := handles 48, holders := [⟨0x200000, [(0, 9)], false⟩] }))
    (fun t => (t.pool 3).cache.length == 17 && (t.pool 3).ringCount == 32 && (t.pool 3).holders.isEmpty) = true := by decide +kernel

theorem wit_PoolCacheRest : ((withPool pool0).seeMem v0).PortsRest := fun _ h => (List.not_mem_nil h).elim

theorem wit_PoolCacheOkay : ∀ k, k < 4 → ((withPool pool0).seeMem v0).OkayAt 0 (0x6000 + 64 * k) 64 := fun _ _ => ⟨by decide +kernel, by rfl⟩

/-- Stream 1 holds two buffers, one more than its reservation, and waits, as stream 0 does. -/
def stuck (since : Nat) : State := { withPool { pool0 with
    waits := [⟨0, 0, 0⟩, ⟨1, 2, 0⟩], holders := [⟨0x100000, [(1, 0)], false⟩, ⟨0x101000, [(1, 1)], false⟩], stalled := true, stallSince := since } with
  streams := [(0, str0), (1, { str0 with gidx := 1, position := 2, inFlight := [InFlight.fresh 0 0, InFlight.fresh 1 0] })] }

/-- R280, R281: exactly 100 µs are over, or one ns less. -/
theorem wit_PoolWatchdog : (stuck 999900000).poolStalled 3 = true ∧ (stuck 999900000).victim 3 = some 1 ∧ (stuck 999900000).frame.openMode = false ∧
    ((stuck 999900000).pool 3).stallSince + 1000 * max 10 (stuck 0).stallUs = (stuck 0).now ∧
    gives (exec (.poolWatchdogFire 3 v0) (stuck 999900000)) (fun t => (t.pool 3).preempted && (t.stream 0 1).position == 0) = true ∧
    becomes (exec (.poolWatchdogFire 3 v0) (stuck 999900001)) (stuck 999900001) = true ∧
    ({ stuck 999900000 with pools := [(3, { (stuck 999900000).pool 3 with holders := [] })] } : State).victim 3 = none ∧
    ({ stuck 999900000 with pools := [(3, { (stuck 999900000).pool 3 with holders := [] })] } : State).poolStalled 3 = true := by decide +kernel


/-! ## Images -/

/-- A session, and an image address that is not a multiple of 4,096: no header stands there. -/
def loadBad : State := { officer with image := { officer.image with addr := 64 } }

/-- The same with a header there (R88): then the address is refused with LAYOUT (R87, R110). -/
def headed : MemView := ⟨[(64, natLe 4 0x4C4E4741 ++ [1, 0, 2, 0] ++ natLe 4 256 ++ natLe 4 1 ++ natLe 8 1024 ++ natLe 4 1 ++ natLe 4 256), (64 + 0x54, natLe 4 1),
  (64 + 0x98, natLe 4 768)], none⟩
def verifying : State := { loadBad with image := { loadBad.image with st := .verifying, detail := 0, sect := noSection, staged := none } }
def stagedImg : State := { officer with image := { officer.image with st := .staging, staged := some { img0 with digest := zeros 48, queues := [def0] } } }

theorem wit_ImgStart : officer.MgmtAccess accM ∧ up.MgmtAccess accM ∧ up.sec.session = false ∧ loadBad.sec.session = true ∧ loadBad.loading = false ∧
    (∃ r, verifying.start.loadImage v0 = (.error (0x01, noSection), r) ∧ r.running.miss = none) ∧ stagedImg.loading = true ∧ stagedImg.image.st ≠ .committing ∧
    gives (exec (.imgStart accM 1 v0 v0) loadBad) (fun t => t.image.st == .rejected && t.image.detail == 0x01) = true ∧
    gives (exec (.imgStart accM 1 headed v0) loadBad) (fun t => t.image.st == .rejected && t.image.detail == dLayout) = true ∧
    gives (exec (.imgStart accM 1 v0 v0) up) (fun t => t.sec.refused && t.image == up.image) = true ∧
    gives (exec (.imgStart accM 5 v0 v0) stagedImg) (fun t => t.image.overrun && t.image.force && t.image.st == .staging) = true ∧
    gives (exec (.imgAbort accM 2) stagedImg) (fun t => t.image.st == .rejected && t.image.detail == 0x17) = true ∧
    gives (exec (.imgAbort accM 2) officer) (fun t => t.image.st == .done) = true :=
  ⟨⟨rfl, by decide⟩, ⟨rfl, by decide⟩, rfl, rfl, by decide +kernel, ⟨(verifying.start.loadImage v0).2, Prod.ext rfl rfl, by decide +kernel⟩, by decide +kernel⟩

/-- A patch of bay 0 that drains, with and without a stream of a graph that binds the bay. -/
def draining (ss : Tbl Stream) : State := { officer with
  streams := ss, image := { officer.image with st := .draining, staged := some { img0 with kind := 2, patchBays := 1 } } }

/-- A route with a beat under way stands under an image that replaces it, or leaves its bays unbound. -/
def busyRoute (st : ImgSt) (p : ImgCfg) : State := { routed with sec := officer.sec, image := { routed.image with st := st, staged := some p } }

theorem wit_RoutesBusy : (busyRoute .staging { imgR with digest := zeros 48 }).routesSettled imgR imgR = false ∧
    (busyRoute .staging { imgR with digest := zeros 48 }).loadAllowed 1 = true ∧
    becomes (exec .imageCommit (busyRoute .staging { imgR with digest := zeros 48 })) (busyRoute .staging { imgR with digest := zeros 48 }) = true ∧
    becomes (exec .imageCommit (busyRoute .draining { imgR with kind := 2, patchBays := 1 })) (busyRoute .draining { imgR with kind := 2, patchBays := 1 }) = true := by
  decide +kernel

/-- The same with two bays only. -/
def fewBays (s : State) : State := { s with caps := { s.caps with bays := s.caps.bays.take 2 } }

/-- The staged image in READY_FOR_IMAGE, with die 0 at throttle level 4. -/
def hotReady : State :=
  let s : State := { stagedImg with frame := { stagedImg.frame with st := .ready } }
  s.setThermal 0 { s.thermal 0 with level := 4 }

/-- R113, R114, R212: queues at their defaults, functions open; a patch waits for its streams. -/
theorem wit_ImageCommit : stagedImg.frame.st ≠ .fatal ∧ stagedImg.sec.selftestBusy = false ∧ stagedImg.loadAllowed 1 = true ∧ stagedImg.frame.st = .running ∧
    (∀ p ∈ stagedImg.image.staged, stagedImg.routesSettled p p = true) ∧ 0 ∈ stagedImg.allBanks ∧ (0 : Nat) / 48 < stagedImg.nBays ∧ stagedImg.fenced 0 = false ∧
    gives (exec .imageCommit (fewBays stagedImg)) (fun t => t.image.st == .done && (t.queue 0 0).weight == 2 && t.frame.st == .running) = true ∧
    hotReady.frame.st = .ready ∧ hotReady.openStreams = [] ∧ hotReady.loadAllowed 1 = true ∧ 0 < hotReady.caps.dies ∧ (hotReady.thermal 0).level = 4 ∧
    (∀ p ∈ hotReady.image.staged, hotReady.routesSettled p p = true) ∧
    gives (exec .imageCommit (fewBays hotReady)) (fun t => t.image.st == .done && t.frame.st == .walk && t.frame.walkThermal) = true ∧
    (∃ x ∈ (draining [(0, str0)]).openStreams, (draining [(0, str0)]).patchAffects ((draining [(0, str0)]).graphOf x.2.2) = true) ∧
    (draining []).openStreams = [] ∧ becomes (exec .imageCommit (draining [(0, str0)])) (draining [(0, str0)]) = true ∧
    gives (exec .imageCommit (draining [])) (fun t => t.image.st == .done) = true ∧ becomes (exec .imageCommit up) up = true := by decide +kernel

/-! ## Keys and sessions -/

def importing : State := { officer with sec := { officer.sec with keyPart := [(0, (4, 8))] } }
def kekWords : List (BitVec 64) := [0, 1, 2, 3, 4]
def keyWords : List (BitVec 64) := [1 + 4 * 5, 1, 2, 3]

/-- R158, R159, R497: a KEK into the empty slot, a second one not; a key without a KEK, into a full slot, out of the range. -/
theorem wit_Imports : importing.kimpReady = true ∧ importing.sec.cryptoError = false ∧ importing.pins.zeroise = false ∧ State.reset.kimpReady = false ∧
    cryptoUp.kimpReady = true ∧ (kekWords.drop 1).length = 4 ∧ (keyWords.drop 1).length = keyLen 0 / 8 + 1 ∧
    gives (exec (.kekLoad kekWords) importing) (fun t => t.sec.kek == some (natLe 8 1 ++ natLe 8 2 ++ natLe 8 3 ++ natLe 8 4) && t.sec.kimpDone == 1) = true ∧
    gives (exec (.kekLoad kekWords) keyed) (fun t => t.sec.kimpStatus == stAccessDenied && t.sec.kek == keyed.sec.kek) = true ∧
    gives (exec (.kekLoad kekWords) cryptoUp) (fun t => t.sec.kimpStatus == stCrypto) = true ∧
    gives (exec (.kekLoad kekWords) { importing with pins := { importing.pins with zeroise := true } }) (fun t => t.sec.kimpStatus == stAccessDenied) = true ∧
    gives (exec (.wrappedKey keyWords) importing) (fun t => t.sec.kimpStatus == stAccessDenied && t.sec.slots.isEmpty) = true ∧
    gives (exec (.wrappedKey [1 + 4 * 7, 1, 2, 3]) keyed) (fun t => t.sec.kimpStatus == stAccessDenied) = true ∧
    gives (exec (.wrappedKey [1 + 4 * 12, 1, 2, 3]) keyed) (fun t => t.sec.kimpStatus == stAccessDenied) = true ∧
    becomes (exec (.kekLoad kekWords) State.reset) State.reset = true ∧
    keyed.inRange 0 11 = true ∧ keyed.inRange 0 12 = false ∧ tblGet? keyed.sec.slots 5 = none ∧ keyed.sec.armed ≠ some 4 := by decide +kernel

theorem wit_KeyUse : keyed.FuncAccess acc0 0 ∧ (keyed.func 0).keyWait = none ∧ keyed.sec.selftestBusy = false ∧ keyed.sec.cryptoError = false ∧
    tblGet? keyed.sec.slots 7 = some ⟨3, 0, zeros 48, 0, 0⟩ ∧ keyed.inRange 0 7 = true ∧ keyed.inRange 0 3 = false ∧ keyed.inRange 0 4 = true ∧
    gives (exec (.keyQuery acc0 0 7) keyed) (fun t => (t.func 0).keyLoaded && (t.func 0).keyType == 3 && (t.func 0).keyResult == stOk) = true ∧
    gives (exec (.keyQuery acc0 0 4) keyed) (fun t => !(t.func 0).keyLoaded && (t.func 0).keyResult == stOk) = true ∧
    gives (exec (.keyQuery acc0 0 3) keyed) (fun t => (t.func 0).keyResult == stAccessDenied) = true ∧
    gives (exec (.keyZeroise acc0 0 7) keyed) (fun t => t.sec.slots.isEmpty) = true ∧
    gives (exec (.keyZeroise acc0 0 12) keyed) (fun t => t.sec.slots.length == 1 && (t.func 0).keyResult == stAccessDenied) = true ∧
    gives (exec (.keyDerive acc0 0 (BitVec.ofNat 32 (4 + 7 * 1024))) keyed) (fun t => t.sec.slots.length == 2 && (t.func 0).keyLoaded) = true ∧
    gives (exec (.keyDerive acc0 0 (BitVec.ofNat 32 (4 + 6 * 1024))) keyed) (fun t => t.sec.slots.length == 1 && (t.func 0).keyResult == stAccessDenied) = true :=
  ⟨⟨.inr ⟨rfl, rfl⟩, by decide, by decide, by decide, by decide⟩, by decide +kernel, rfl, rfl, by decide +kernel⟩

/-- R493: the border of 1 ms between two attempts. -/
def authed (t : Nat) : State := { keyed with sec := { keyed.sec with lastAuth := some t, session := false, kek := none } }

/-- R173: before the last pre-operational test ends, an attempt waits. -/
theorem wit_AuthWaits : zeroing.frame.preTests = false ∧ zeroing.sec.cryptoError = false ∧ zeroing.frame.st ≠ .fatal ∧ keyed.frame.preTests = true ∧
    gives (exec (.secAuth accM) zeroing) (fun t => t.sec.authWait == 1 && !t.sec.authFail) = true := by decide +kernel

theorem wit_Auth : keyed.MgmtAccess accM ∧ keyed.sec.lastAuth = none ∧ (authed 999000000).now = 999000000 + 1000000 ∧ keyed.sec.drbg.isSome = true ∧
    (authed 0).sec.armed ≠ some 3 ∧
    gives (exec (.secAuth accM) (authed 999000001)) (fun t => t.sec.refused && !t.sec.authFail) = true ∧
    gives (exec (.secAuth accM) (authed 999000000)) (fun t => t.sec.authFail && !t.sec.session && !t.sec.refused) = true ∧
    gives (exec (.secAuth accM) { keyed with sec := { keyed.sec with selftestBusy := true } }) (fun t => t.sec.authWait == 1) = true ∧
    gives (exec (.secClose accM) officer) (fun t => !t.sec.session && !t.sec.refused) = true ∧
    gives (exec (.secClose accM) up) (fun t => t.sec.refused) = true :=
  ⟨⟨rfl, by decide⟩, rfl, rfl, by decide +kernel⟩

/-- R496, R502, R509: ranges side by side and overlapping; a range that would leave a loaded slot out. -/
theorem wit_Officer : officer.OfficerAccess accM ∧ keyed.OfficerAccess accM ∧ (1 : BitVec 6).toNat < keyed.caps.funcs ∧ officer.pins.testMode = false ∧
    gives (exec (.signCommit accM 6) officer) (fun t => tblGet? t.sec.digests 2 == some officer.signStageBytes) = true ∧
    gives (exec (.signClear accM 9) officer) (fun t => t.sec.digests.isEmpty && t.sec.signSlot == 1) = true ∧
    gives (exec (.signCommit accM 12) officer) (fun t => t.sec.refused && t.sec.digests.isEmpty) = true ∧
    gives (exec (.keyPartWrite accM 1 (BitVec.ofNat 32 (12 + 1024 * 1012))) keyed) (fun t => tblGet? t.sec.keyPart 1 == some (12, 1012)) = true ∧
    gives (exec (.keyPartWrite accM 1 (BitVec.ofNat 32 (11 + 1024 * 4))) keyed) (fun t => t.sec.refused) = true ∧
    gives (exec (.keyPartWrite accM 1 (BitVec.ofNat 32 (12 + 1024 * 1013))) keyed) (fun t => t.sec.refused) = true ∧
    gives (exec (.keyPartWrite accM 0 (BitVec.ofNat 32 (4 + 1024 * 3))) keyed) (fun t => t.sec.refused) = true ∧
    gives (exec (.secTestArm accM 3) officer) (fun t => t.sec.refused && t.sec.armed == none) = true ∧
    gives (exec (.secTestArm accM 0x1A) { officer with pins := { officer.pins with testMode := true } }) (fun t => t.sec.armed == some 0x1A) = true ∧
    gives (exec (.secTestArm accM 0x1B) { officer with pins := { officer.pins with testMode := true } }) (fun t => t.sec.refused) = true :=
  ⟨⟨⟨rfl, by decide⟩, rfl⟩, ⟨⟨rfl, by decide⟩, rfl⟩, by decide, rfl, by decide +kernel⟩

def testing : State := { keyed with sec := { keyed.sec with selftestBusy := true } }

/-- R508, R511: no self-test with a guaranteed stream open; the tenth known-answer test fails. -/
theorem wit_SelfTest : officer.cryptoServed = true ∧ officer.loading = false ∧ testing.sec.armed = none ∧ testing.sec.authWait = false ∧
    (∀ p ∈ testing.funcs, p.2.keyWait = none) ∧ noisePasses testing.sec.noise (alternating 8) = true ∧
    gives (exec (.secSelftest accM) officer) (fun t => t.sec.selftestBusy) = true ∧
    gives (exec (.secSelftest accM) { officer with streams := [(0, { str0 with guaranteed := true })] }) (fun t => t.sec.refused && !t.sec.selftestBusy) = true ∧
    gives (exec (.selftestComplete (some 10) (alternating 8)) testing) (fun t => t.sec.cryptoError && t.sec.errCause == 0x1A && t.frame.st == .running) = true ∧
    becomes (exec (.selftestComplete none (alternating 8)) officer) officer = true := by decide +kernel

/-- R503: the 40th equal sample in a row passes, the 41st does not. -/
def repeated (n : Nat) (s : State) : State := { s with sec := { s.sec with noise := ⟨true, n, true, 0, 0⟩ } }

theorem wit_Noise : up.sec.armed = none ∧ ((repeated 39 up).sec.noise.step true).2 = none ∧ (∃ c, ((repeated 40 up).sec.noise.step true).2 = some c) ∧
    gives (exec (.noiseSample true) (repeated 39 up)) (fun t => !t.sec.cryptoError) = true ∧
    gives (exec (.noiseSample true) (repeated 40 up)) (fun t => t.sec.cryptoError && t.frame.st == .running) = true ∧
    gives (exec (.noiseSample true) (repeated 40 boot)) (fun t => t.sec.cryptoError && t.frame.st == .bootFail && t.frame.bootCause == 5) = true ∧
    keyed.sec.drbg = some ⟨zeros 32, zeros 16, 0⟩ ∧ becomes (exec (.drbgReseed (alternating 8)) keyed) keyed = true ∧
    noisePasses keyed.sec.noise ((alternating 8).take 1024) = true := by
  refine ⟨rfl, by decide +kernel, ⟨1, by decide +kernel⟩, ?_⟩
  decide +kernel

/-- R504: the border of 2^20 requests. -/
def drawn (n : Nat) : State := { keyed with sec := { keyed.sec with drbg := some ⟨zeros 32, zeros 16, n⟩ } }

theorem wit_Reseed : (drawn (2 ^ 20)).sec.drbg = some ⟨zeros 32, zeros 16, 2 ^ 20⟩ ∧ (drawn (2 ^ 20)).sec.armed = none ∧
    noisePasses (drawn (2 ^ 20)).sec.noise ((alternating 8).take 1024) = true ∧
    becomes (exec (.drbgReseed (alternating 8)) (drawn (2 ^ 20 - 1))) (drawn (2 ^ 20 - 1)) = true := by decide +kernel

/-! ## Schedules, epochs, hurdles -/

def shard0 : Shard := ⟨0x40000, 128, 0, 1, 0, 1, 0xFFFF, 0⟩
def feed0 : Stream := { str0 with st := .filling, sealed_ := some ([shard0], true) }
def feeding (x : Stream) : State := { up with streams := [(0, x)] }
def guar0 : Stream := { feed0 with guaranteed := true, t0Given := true, t0 := 1000000000 }

/-- R222: T0 is reached now, or in one ns; a sealed source or none. -/
theorem wit_Schedule : guar0.st ≠ .free ∧ guar0.st ≠ .halted ∧ guar0.sourced = false ∧ guar0.t0 ≤ (feeding guar0).now ∧ (feeding guar0).live = true ∧
    ((feeding guar0).graphOf guar0).direction = 0 ∧
    gives (exec (.scheduleStart 0 0 v0) (feeding guar0)) (fun t => (t.stream 0 0).sourced) = true ∧
    gives (exec (.scheduleStart 0 0 v0) (feeding { guar0 with sealed_ := none })) (fun t => (t.stream 0 0).st == .free) = true ∧
    becomes (exec (.scheduleStart 0 0 v0) (feeding { guar0 with t0 := 1000000001 })) (feeding { guar0 with t0 := 1000000001 }) = true := by decide +kernel

/-- R236: a halted stream without a source closes too. -/
theorem test_schedule_halted : gives (exec (.scheduleStart 0 0 v0) (feeding { guar0 with st := .halted, haltedFrom := .running, sealed_ := none, haltCode := 0x20 }))
    (fun t => (t.stream 0 0).st == .free && (t.stream 0 0).haltCode == 0x20) = true := by decide +kernel

/-- The first epoch of 5 samples, at position `p`, with batches of 4. -/
def ending (p : Nat) : State := feeding { feed0 with batch := 4, runs := [⟨0, 0, some 5, 0, 0, 0, none⟩], position := p, source := [shard0] }

/-- R292, R310: the second epoch begins at 8, once 5 samples are dispatched. -/
theorem wit_Epoch : feed0.ended = false ∧ feed0.runs = [] ∧ feed0.follows = none ∧ ((ending 5).stream 0 0).sourceFinal = false ∧ ((ending 5).stream 0 0).inFlight = [] ∧
    gives (exec (.epochStart 0 0 v0) (feeding feed0)) (fun t => (t.stream 0 0).runs.length == 1 && (t.stream 0 0).source == [shard0] && (t.stream 0 0).sourceFinal) = true ∧
    becomes (exec (.epochStart 0 0 v0) (ending 4)) (ending 4) = true ∧
    gives (exec (.epochStart 0 0 v0) (ending 5)) (fun t => ((t.stream 0 0).runs.map (·.base)) == [0, 8] && (t.stream 0 0).epoch == 1 && (t.stream 0 0).position == 8) = true := by
  decide +kernel

/-- Stream 1 comes before stream 0, which waits at its stage boundary. -/
def staged2 (e : Bool) : State := { up with streams := [
  (0, { feed0 with follows := some 1, hurdle := true, before := some (1, 0), gidx := 1 }), (1, { str0 with ended := e, runs := [⟨0, 0, some 0, 0, 0, 0, none⟩] })] }

theorem wit_Hurdle : (staged2 true).live = true ∧ ((staged2 true).stream 0 0).before = some (1, 0) ∧ (staged2 true).bays = [] ∧
    (staged2 true).graphRoutes g0 = [] ∧ ((staged2 true).stream 0 1).ended = true ∧ ((staged2 true).stream 0 1).inFlight = [] ∧
    gives (exec (.hurdlePass 0 0) (staged2 true)) (fun t => !(t.stream 0 0).hurdle && (t.stream 0 0).before == none) = true ∧
    becomes (exec (.hurdlePass 0 0) (staged2 false)) (staged2 false) = true := by decide +kernel

/-- R244: a follower's first epoch waits until the earlier stage has dispatched its last sample. -/
def following (p : Nat) : State := { up with streams := [(0, { feed0 with follows := some 1 }),
  (1, { str0 with gidx := 1, batch := 4, runs := [⟨0, 0, some 5, 0, 0, 0, none⟩], position := p, source := [shard0], sourceFinal := true })] }

theorem wit_Follows : (following 5).predecessorDone 0 ((following 5).stream 0 0) = true ∧ (following 4).predecessorDone 0 ((following 4).stream 0 0) = false ∧
    becomes (exec (.epochStart 0 0 v0) (following 4)) (following 4) = true ∧
    gives (exec (.epochStart 0 0 v0) (following 5)) (fun t => (t.stream 0 0).runs.length == 1) = true := by decide +kernel

/-! ## Intake -/

/-- An intake profile: 4,096 stored and raw bytes at most, window, no shuffle of shards, codec 0, kind 1 to tenon 0. -/
def intakeBody1 (window : Nat) : Bytes :=
  overlay (overlay (zeros 128) 0 (natLe 4 4096 ++ natLe 4 4096 ++ natLe 4 window ++ [0, 1])) 0x10 [1, 0]

/-- A stave shard with one record of four bytes, its CRCs right (R295, R296). -/
def shardMem : Mem := [(0x40000, 0x53), (0x40001, 0x54), (0x40002, 0x56), (0x40003, 0x53), (0x40004, 0x1), (0x40008, 0x1), (0x4003c, 0xa7), (0x4003d, 0xe6),
  (0x4003e, 0x85), (0x4003f, 0x3a), (0x40040, 0x4), (0x40044, 0x4), (0x40048, 0x1), (0x4004c, 0x10), (0x4004d, 0x5a), (0x4004e, 0x20), (0x4004f, 0xd2),
  (0x40050, 0x61), (0x40051, 0x62), (0x40052, 0x63), (0x40053, 0x64)]

def record0 : Bytes := natLe 4 4 ++ natLe 4 4 ++ [1, 0, 0, 0] ++ natLe 4 0xD2205A10 ++ [0x61, 0x62, 0x63, 0x64] ++ zeros 44

def taking (window n : Nat) (r : Bytes) : State := { up with
  mem := shardMem, image := { up.image with committed := some { img0 with binds := [⟨0, 0, 0x0101, 0, 0⟩], profiles := [⟨0, 0x0101, intakeBody1 window⟩] } },
  streams := [(0, { feed0 with runs := [⟨0, 0, some n, 0, 0, 0, none⟩], source := [shard0], counts := [(0, n)], reading := some ⟨0, 0x40040, 64, 0, [(0, r)], false⟩ })] }

/-- R310: a best-effort stream whose profile shuffles nothing may read shards of an unsealed list. -/
theorem wit_ReadsLive : let s : State := { taking 1 1 [] with streams := [(0, { feed0 with sealed_ := none, pendingShards := [shard0] })] }
    s.readsLive (s.stream 0 0) = true ∧ (feeding { feed0 with sealed_ := none }).readsLive { feed0 with sealed_ := none } = false ∧
    gives (exec (.epochStart 0 0 v0) s) (fun t => (t.stream 0 0).liveSource && (t.stream 0 0).source == [shard0]) = true := by decide +kernel

/-- R235: a bay that does not run, and one where a record of a guaranteed stream waits as well. -/
def rivals : State := { taking 1 1 record0 with
  bays := [(0, { Bay.fresh with pstate := .run })],
  streams := [(0, { (taking 1 1 record0).stream 0 0 with guaranteed := true, sourced := true, t0Given := true }), (1, { (taking 1 1 record0).stream 0 0 with gidx := 1 })] }

theorem wit_IntakeTurn : (taking 1 1 record0).intakeTurn 0 0 ⟨0, 0x40040, 64, 0, [(0, record0)], false⟩ = true ∧ (taking 1 1 record0).bayRuns 0 = true ∧
    rivals.intakeTurn 0 1 ⟨0, 0x40040, 64, 0, [(0, record0)], false⟩ = false ∧ rivals.intakeTurn 0 0 ⟨0, 0x40040, 64, 0, [(0, record0)], false⟩ = true ∧
    becomes (exec (.intakeRecord 0 1 v0) rivals) rivals = true ∧
    becomes (exec (.intakeRecord 0 0 v0) { rivals with bays := [(0, { Bay.fresh with pstate := .doze })] })
      { rivals with bays := [(0, { Bay.fresh with pstate := .doze })] } = true := by decide +kernel

/-- R304: the record passes and is released; with one byte changed its CRC rejects it. -/
theorem wit_Intake : (taking 1 1 record0).intakeBody 0 = some (intakeBody1 1) ∧ (taking 1 1 record0).mayDispatch ((taking 1 1 record0).stream 0 0) = true ∧
    ((taking 1 1 record0).stream 0 0).shardAt (intakeBody1 1) 0 = some shard0 ∧
    (match (taking 1 1 record0).shardMembers (intakeBody1 1) shard0 with
      | .ok (ms, _) => ms.length
      | .error _ => 0) = 1 ∧
    ((taking 1 1 record0).stream 0 0).reading.any Reading.complete = true ∧
    gives (exec (.intakeRecord 0 0 v0) (taking 1 1 record0)) (fun t => (t.stream 0 0).position == 1 && (t.stream 0 0).inFlight.length == 1 &&
      (tblGetD (t.bay 0).out 0 []).length == 1) = true ∧
    gives (exec (.intakeRecord 0 0 v0) (taking 1 1 (overlay record0 16 [0]))) (fun t => (t.stream 0 0).position == 1 && (t.func 0).log.next == 1 &&
      (t.bay 0).out.isEmpty) = true := by decide +kernel

theorem wit_Window : (taking 4 8 []).intakeBody 0 = some (intakeBody1 4) ∧ inWindow (intakeBody1 4) = 4 ∧ tblGet? ((taking 4 8 []).stream 0 0).windows 0 = none ∧
    gives (exec (.shuffleWindowBuild 0 0 v0) (taking 4 8 [])) (fun t => ((t.stream 0 0).windows.map (fun p => (p.1, p.2.length))) == [(0, 4)]) = true := by decide +kernel

/-- R291, R293: the permutations of a list of one and of three. -/
theorem test_permutation : keyedPerm 7 1 0 0 1 0 = 0 ∧ ((List.range 3).map (keyedPerm 7 1 0 0 3)).eraseDups.length = 3 := by decide +kernel

/-! ## Batches, groups, heats -/

def batch0 : Finished := ⟨0, 1, 999999000, []⟩
def delivering : State := feeding { str0 with finished := [batch0] }

theorem wit_Deliver : (delivering.stream 0 0).xfer = none ∧ (delivering.stream 0 0).finished = [batch0] ∧ (delivering.stream 0 0).grouped = false ∧
    gives (exec (.batchDeliver 0 0 v0) delivering) (fun t => (t.stream 0 0).delivered == 1 && (t.stream 0 0).relayNext == 1 && memRead t.mem 0x10009 == 0xC6) = true ∧
    gives (exec (.batchDeliver 0 0 v0) (feeding { str0 with finished := [batch0], grouped := true })) (fun t => (t.stream 0 0).delivered == 0) = true := by decide +kernel

/-- R438: three are delivered; all three may be returned, four may not. -/
theorem wit_Return : (feeding { str0 with delivered := 3 }).FuncAccess acc0 0 ∧
    gives (exec (.relayReturn acc0 0 (BitVec.ofNat 32 (3 * 65536))) (feeding { str0 with delivered := 3 })) (fun t => (t.stream 0 0).returned == 3) = true ∧
    gives (exec (.relayReturn acc0 0 (BitVec.ofNat 32 (4 * 65536))) (feeding { str0 with delivered := 3 })) (fun t => (t.stream 0 0).returned == 0 && (t.func 0).log.next == 1) = true ∧
    gives (exec (.relayReturn acc0 0 (BitVec.ofNat 32 (3 * 65536))) (feeding { str0 with st := .halted, delivered := 3 })) (fun t => (t.stream 0 0).returned == 3) = true :=
  ⟨⟨.inr ⟨rfl, rfl⟩, by decide, by decide, by decide, by decide⟩, by decide +kernel⟩

/-- A whole group of two whose members finished at these times. -/
def grouped (a b : Nat) : State := { up with
  groups := [(5, ⟨2, 0, 9, [0, 1], 1, 0, 2, 0, 0⟩)],
  streams := [(0, { str0 with grouped := true, group := some 5, finished := [⟨0, 1, a, []⟩] }), (1, { str0 with grouped := true, group := some 5, gidx := 1, finished := [⟨0, 1, b, []⟩] })] }

/-- R241: the whole microsecond at or after the later of the two; not yet, now, and late. -/
theorem wit_Release : (grouped 1 999999001).releaseInstant ((grouped 1 999999001).group 5) = some 1000000000 ∧
    (grouped 1 1000000001).releaseInstant ((grouped 1 1000000001).group 5) = some 1000001000 ∧ up.releaseInstant (up.group 5) = none ∧
    (grouped 1 2).releaseInstant ((grouped 1 2).group 5) = some 1000 ∧
    becomes (exec (.lockGroupRelease 5 v0) (grouped 1 1000000001)) (grouped 1 1000000001) = true ∧
    gives (exec (.lockGroupRelease 5 v0) (grouped 1 999999001)) (fun t => (t.stream 0 0).delivered == 1 && (t.stream 0 1).delivered == 1) = true ∧
    gives (exec (.lockGroupRelease 5 v0) (grouped 1 2)) (fun t => (t.stream 0 1).delivered == 1) = true := by decide +kernel

/-- A judge bay that takes up to `n` units and waits 10 µs; a program of zeros has no weights. -/
def judgeBody (n : Nat) : Bytes := overlay (overlay (zeros 128) 0 (natLe 4 7 ++ natLe 2 n)) 0x1E [10]
def unit0 : HeatUnit := ⟨⟨[1, 2], UnitTag.fresh 0 0 0, []⟩, none, 999995000, 0⟩
def heating (n : Nat) : State := { up with
  image := { up.image with pinned := [(7, zeros 256)], committed := some { img0 with binds := [⟨0, 0, 0x0501, 0, 0⟩], profiles := [⟨0, 0x0501, judgeBody n⟩], bankPlan := [⟨0, 0, 1, 0⟩] } },
  banks := [(0, { Bank.fresh with kind := 1, index := 0 })],
  streams := [(0, { str0 with inFlight := [InFlight.fresh 0 0] })], bays := [(0, { Bay.fresh with pstate := .run, heat := [unit0] })] }

/-- R400: one unit makes a heat of at most one due; a heat of two waits. -/
theorem wit_Heat : (heating 1).frame.st = .running ∧ (heating 1).bayRuns 0 = true ∧ (((heating 1).dropStale 0).heatReady 0) = [unit0] ∧
    (heating 1).tagStream unit0.data.tag = some (0, 0, (heating 1).stream 0 0) ∧ (heating 1).bayProfile 0 0 0x0501 = some (judgeBody 1) ∧
    (heating 1).graph? 0 = some g0 ∧ jpWeights (zeros 256) = 0 ∧
    ((heating 1).dropStale 0).heatDue 0 0 (judgeBody 1) [unit0] = true ∧ ((heating 2).dropStale 0).heatDue 0 0 (judgeBody 2) [unit0] = false ∧
    becomes (exec (.judgeHeatStart 0 v0) (heating 2)) (heating 2) = true := by decide +kernel

/-- R260, R401: the heat's graph, profile and units, its slot, its banks and its program. -/
theorem wit_HeatTakes : let z := ((heating 1).seeMem v0).start.dropStale 0
    z.heatOf 0 (z.heatReady 0) = some (g0, judgeBody 1, [unit0]) ∧ (z.slotsOf 0 0).head? = some 0 ∧ z.heatBanks 0 0 (judgeBody 1) = true ∧
    z.pinnedTable 0 0 (leAt (judgeBody 1) 0 4) = (some (zeros 256), z) :=
  by decide +kernel

theorem wit_HeatWaits : becomes (exec (.judgeHeatStart 0 v0) { heating 1 with bays := [(0, { (heating 1).bay 0 with stopped := true })] })
    { heating 1 with bays := [(0, { (heating 1).bay 0 with stopped := true })] } = true := by decide +kernel

theorem wit_HeatRuns : gives (exec (.judgeHeatStart 0 v0) (heating 1)) (fun t => (t.bay 0).heat.isEmpty) = true := by decide +kernel

/-! ## Documents, transfers, returns, restores -/

/-- A unigram vocabulary of 256 tokens without strings. -/
def voc0 : Bytes := natLe 4 0x42434F56 ++ [2, 0, 1, 0] ++ natLe 4 256 ++ zeros 4 ++ natLe 4 0xFFFFFFFF ++ zeros 28 ++ natLe 8 4096 ++ zeros 16

/-- A text profile: vocabulary slot 0 is table 9, documents of at most 64 bytes and 64 tokens, pieces of at most 16 bytes. -/
def textBody : Bytes := overlay (overlay (zeros 160) 0 [9]) 0x50 ([64, 0, 0, 0] ++ [64, 0, 0, 0] ++ [64, 0, 0, 0] ++ [0, 16])
def sampleA : Bytes := ent [(0, [5, 3]), (0x0A, [0, 1]), (0x0C, natLe 4 2), (0x10, natLe 8 0x8000)]
def text0 : TextState := { (⟨textBody, voc0⟩ : TextEnv).start with taken := 1, begun := true, piece := [0x61], run := 1, norm := 1 }
def doc0 : OpenDoc := ⟨0, 5, none, 0, 0, 0, text0⟩

def sampling : State := act 5 [sampleA] { up with
  mem := [(0x8000, 0x62), (0x8001, 0x63)],
  image := { up.image with pinned := [(9, voc0)], committed := some { img0 with
    tables := [⟨9, 1, 0, 72, []⟩], binds := [⟨0, 0, 0x0401, 0, 0⟩], profiles := [⟨0, 0x0401, textBody⟩] } },
  streams := [(0, { str0 with runs := [⟨0, 0, none, 0, 0, 0, none⟩], position := 1, inFlight := [InFlight.fresh 0 0], doc := some doc0 })] }

theorem wit_SamplePort : (sampling.start.sampleParty 0 (sampling.stream 0 0) 0).port = 0 ∧ (sampling.graphOf (sampling.stream 0 0)).direction = 0 ∧
    (leAt sampleA 0x0B 1).testBit 0 = true ∧ sampling.bayProfile 0 0 0x0401 = some textBody ∧ 2 ≤ leAt textBody 0x50 4 ∧ sampling.bayRuns 0 = true := by
  decide +kernel

/-- The state once the two bytes of the job have been read. -/
def sampleRead : State := (sampling.start.sysRead (sampling.start.sampleParty 0 (sampling.stream 0 0) 0) 0x8000 2).2.2

theorem wit_Sample : sampling.Acts 0x05 0 0 0 v0 { job 5 [sampleA] with started := true } sampleA ∧ sampling.bindsEngine 0 0x0401 = true ∧
    (sampling.stream 0 0).doc = some doc0 ∧ doc0.rejected = none ∧ (sampling.seeMem v0).OkayAt 0 0x8000 2 ∧
    (let r := sampleRead.textBuffer ⟨0, 0, 0, sampleRead.sampleBatch (sampling.stream 0 0) 0⟩ textBody 0 5 (some text0) [0x62, 0x63] false
     r.1.toOption.map (fun p => (p.2.taken, p.2.piece, r.2.running.miss.isNone)) = some (3, [0x61, 0x62, 0x63], true)) ∧
    gives (exec (.sample 0 0 0 v0) sampling) (fun t => (t.stream 0 0).doc.map (fun d => (d.text.taken, d.text.piece)) == some (3, [0x61, 0x62, 0x63]) &&
      ((t.queue 0 0).jobs.map (·.complete)) == [true]) = true :=
  ⟨⟨rfl, by decide +kernel⟩, by decide +kernel, rfl, rfl, ⟨by decide +kernel, by rfl⟩, by decide +kernel⟩

/-- GATHER and SCATTER of one block whose destination's grid has none; a list entry of -1 lies outside every grid. -/
def moveA : Bytes := ent [(0x0C, natLe 4 1)]
def moving (gather : Bool) : State := { up with
  image := { up.image with committed := some { img0 with binds := [⟨0, 0, 0x0601, 0, 0⟩], profiles := [⟨0, 0x0601, zeros 256⟩] } },
  streams := [(0, str0)],
  queues := [(0, { queueOn with jobs := [{ job (if gather then 6 else 7) [moveA] with
    started := true, progress := some ⟨0, [], [zeros 128, overlay (zeros 128) 8 [2], natLe 4 0xFFFFFFFF, [], []], none, .fresh 0⟩ }] })] }

theorem wit_Move : ((moving true).readyEntry 6 0 0 0).isSome = true ∧ ((moving false).readyEntry 7 0 0 0).isSome = true ∧ ((moving true).packBody 0).isSome = true ∧
    linearCoords (overlay (zeros 128) 8 [2]) 0 = none ∧
    gives (exec (.gather 0 0 0 v0) (moving true)) (fun t => (t.func 0).oobDrop == 1 && ((t.queue 0 0).jobs.map (·.complete)) == [true]) = true := by decide +kernel

/-- Its one block goes through. -/
theorem wit_MoveBlocks : (match ((moving true).streamWorks 0).moveBlocks ((moving true).party 0 ((moving true).stream 0 0) 0) 0 ((moving true).stream 0 0).self
      (zeros 128) (overlay (zeros 128) 8 [2]) [] [] (fun k => (listCoords (zeros 128) (natLe 4 0xFFFFFFFF) k, linearCoords (overlay (zeros 128) 8 [2]) k)) 1 0 none with
    | (1, none, _) => true
    | _ => false) = true ∧ (moving true).PortsRest := ⟨by decide +kernel, fun _ h => (List.not_mem_nil h).elim⟩

def g1 : Graph := { g0 with direction := 1 }

/-- A return stream whose text profile has the vocabulary. -/
def returning (op : Nat) (e : Bytes) (m : Mem) (p : Option Progress) : State := { up with
  mem := m,
  image := { up.image with
    pinned := [(9, voc0)],
    committed := some { img0 with
      graphs := [g1], tables := [⟨9, 1, 0, 72, []⟩], binds := [⟨0, 0, 0x0402, 0, 0⟩, ⟨1, 0, 0x0601, 0, 1⟩, ⟨2, 0, 0x0101, 0, 2⟩],
      profiles := [⟨0, 0x0402, textBody⟩, ⟨1, 0x0601, zeros 256⟩, ⟨2, 0x0101, intakeBody1 1⟩] } },
  streams := [(0, str0)], queues := [(0, { queueOn with jobs := [{ job op [e] with started := true, progress := p }] })] }

/-- RETURN_LOGITS with one row, request 0, whose record at 0x9000 has ended; its result goes to 0xA000. -/
def logitsA : Bytes := ent [(0, [8, 3]), (0x0C, natLe 4 1), (0x10, natLe 8 0xB000), (0x18, natLe 4 1024), (0x1C, natLe 4 256), (0x20, natLe 8 0x9000), (0x28, natLe 8 0x8000),
  (0x30, natLe 8 0xA000)]
def logits : State := returning 8 logitsA [(0x901B, 1)] none

theorem wit_Logits : (logits.readyEntry 8 0 0 0).isSome = true ∧ (logits.graphOf (logits.stream 0 0)).direction = 1 ∧
    logits.stageWaits 0 (logits.stream 0 0) = false ∧ logits.bayRuns 0 = true ∧ logits.returnText 0 = some (0, textBody) ∧ logitsBad textBody logitsA = false ∧
    (logits.start.returnTables ⟨0, 0, 0, 0⟩ textBody 0).1 = some (voc0, none) ∧
    gives (exec (.returnLogits 0 0 0 v0) logits) (fun t => memRead t.mem 0xA005 == 1 && memRead t.mem 0xA000 == 0xFF && ((t.queue 0 0).jobs.map (·.complete)) == [true]) = true := by decide +kernel

/-- The request list is read, and its row done. -/
theorem wit_LogitsRows : (match logits.start.readSpan (logits.party 0 (logits.stream 0 0) 0) (spanFuel 4) 0x8000 4 with
    | (.ok reqs, a) => match a.returnTables ⟨0, 0, 0, 0⟩ textBody 0 with
      | (some t, b) => match b.returnRows ⟨⟨0, 0, 0, 0⟩, logits.party 0 (logits.stream 0 0) 0, t.1, t.2, leAt textBody 0x80 1, logitsA, reqs⟩ 1 0 none with
        | (_, none, none, w) => w.running.miss.isNone
        | _ => false
      | _ => false
    | _ => false) = true := by decide +kernel

/-- RETURN_WRITE of one item of four bytes to a shard at 0xC000, its result at 0xA000. -/
def writeA : Bytes := ent [(0, [9, 3]), (0x0C, natLe 4 1), (0x10, natLe 8 0x8000), (0x18, natLe 8 0xC000), (0x20, natLe 8 4096), (0x38, natLe 8 0xA000)]
def progress0 : Progress := ⟨0, zeros 8, [natLe 8 0], none, .fresh 0⟩
def shardOut : State := returning 9 writeA [(0x8001, 0x90), (0x8008, 4), (0x800C, 1), (0x9000, 0x61)] (some progress0)

/-- The items are read, their payloads placed, and every write of the shard is done. -/
theorem wit_WriteChain : (match shardOut.start.readSpan (shardOut.party 0 (shardOut.stream 0 0) 0) (spanFuel 16) 0x8000 16 with
    | (.ok raw, a) =>
      let w : WriteJob := ⟨shardOut.party 0 (shardOut.stream 0 0) 0, 0, 0, 0, 0, writeA, none, 2, intakeBody1 1, 0, [], [itemOf (bytesAt raw 0 16)], zeros 8⟩
      !w.encodes && (shardOut.stream 0 0).seed == 0 && match a.shardRun w progress0 with
        | (none, p, g) => p.shard.past == none && ((g.releaseShard w p.shard.base).stepped 0 0 (job 9 [writeA])).running.miss.isNone
        | _ => false
    | _ => false) = true := by decide +kernel

theorem wit_Write : (shardOut.readyEntry 9 0 0 0).isSome = true ∧ (shardOut.packBody 0).isSome = true ∧ shardOut.intakeBay? 0 = some (2, intakeBody1 1) ∧
    writeBad writeA = false ∧ gives (exec (.returnWrite 0 0 0 v0) shardOut) (fun t => ((t.queue 0 0).jobs.map (·.complete)) == [true]) = true := by decide +kernel


/-- A context with only MAGIC, version, the meet size 1, BATCH 1 and its CRC. -/
def ctxA : Bytes := natLe 4 0x53585443 ++ natLe 2 1 ++ zeros 54
def ctxB : Bytes := zeros 12 ++ natLe 2 1 ++ zeros 2 ++ natLe 4 1 ++ zeros 40
def ctx0 : Bytes := ctxA ++ ctxB ++ zeros 56 ++ zeros 56 ++ zeros 56 ++ zeros 56 ++ zeros 56 ++ zeros 56 ++ zeros 52 ++ natLe 4 1067673813

theorem ctx_crc : crc32c (ctx0.take 0x1FC) = 1067673813#32 := by
  have h : ctx0.take 0x1FC = ctxA ++ ctxB ++ zeros 56 ++ zeros 56 ++ zeros 56 ++ zeros 56 ++ zeros 56 ++ zeros 56 ++ zeros 52 := by decide +kernel
  have hA : ctxA.foldl (crcByte 0x82F63B78) 0xFFFFFFFF = 735113003#32 := by decide +kernel
  have hB : ctxB.foldl (crcByte 0x82F63B78) 735113003#32 = 1188714079#32 := by decide +kernel
  have h3 : (zeros 56).foldl (crcByte 0x82F63B78) 1188714079#32 = 3804872417#32 := by decide +kernel
  have h4 : (zeros 56).foldl (crcByte 0x82F63B78) 3804872417#32 = 3291322281#32 := by decide +kernel
  have h5 : (zeros 56).foldl (crcByte 0x82F63B78) 3291322281#32 = 1749881502#32 := by decide +kernel
  have h6 : (zeros 56).foldl (crcByte 0x82F63B78) 1749881502#32 = 1134927054#32 := by decide +kernel
  have h7 : (zeros 56).foldl (crcByte 0x82F63B78) 1134927054#32 = 2796677790#32 := by decide +kernel
  have h8 : (zeros 56).foldl (crcByte 0x82F63B78) 2796677790#32 = 2981606417#32 := by decide +kernel
  have h9 : (zeros 52).foldl (crcByte 0x82F63B78) 2981606417#32 = 3227293482#32 := by decide +kernel
  simp only [crc32c, crcOf, h, List.foldl_append, hA, hB, h3, h4, h5, h6, h7, h8, h9]
  decide

/-- CONTEXT_RESTORE of that context as stream 2, graph 0, best effort, 2 slots. -/
def restoreA : Bytes := ent [(0, [12, 1]), (0x08, natLe 2 2), (0x0E, [2]), (0x10, natLe 8 0x8000)]
def restoring : State := act 12 [restoreA, openB] { up with
  mem := [(0x8000, 0x43), (0x8001, 0x54), (0x8002, 0x58), (0x8003, 0x53), (0x8004, 0x1), (0x8048, 0x1), (0x804c, 0x1), (0x81fc, 0xd5), (0x81fd, 0x68),
    (0x81fe, 0xa3), (0x81ff, 0x3f)] }

theorem ctx_read : memReadBytes restoring.mem 0x8000 512 = ctx0 := by decide +kernel

theorem ctx_good : ctxGood ctx0 = true := by
  simp only [ctxGood, ctx_crc]
  decide +kernel

/-- The state once the context has been read. -/
def restRead : State := ((restoring.seeMem v0).sysRead (.control 0) 0x8000 512).2.2

theorem wit_Restore : restoring.Acts 0x0C 0 0 0 v0 { job 12 [restoreA, openB] with started := true } restoreA ∧ (restoring.seeMem v0).OkayAt 0 0x8000 512 ∧
    restRead.restoreMalformed 0 restoreA openB ctx0 = none ∧ restRead.graph? (leAt restoreA 0x0A 2) = some g0 ∧ leAt ctx0 0x6C 4 = 0 ∧
    restRead.readSpan (.control 0) (spanFuel 0) 0 0 = (.ok [], restRead) ∧
    restRead.ctxFits ctx0 = true ∧ bytesAt ctx0 8 32 = bytesAt (tblGetD restRead.image.graphDigests 0 []) 0 32 ∧
    restRead.openDenied 0 g0 false 1 0 = none ∧ restRead.freeGidx = some 0 := by
  refine ⟨⟨rfl, by decide +kernel⟩, ⟨by decide +kernel, rfl⟩, by decide +kernel, by decide +kernel, by decide +kernel, rfl, ?_⟩
  decide +kernel

/-! ## Codecs -/

/-- R303, RFC 8878: a single-segment frame of 5 bytes whose one block repeats a byte. -/
theorem test_zstd_rle : decompress 4 100 [0x28, 0xB5, 0x2F, 0xFD, 0x20, 0x05, 0x2B, 0x00, 0x00, 0x61] = .ok (List.replicate 5 0x61) := by
  set_option maxRecDepth 8000 in decide

/-- R303: a non-zero Dictionary_ID is rejected. -/
theorem test_zstd_dict : decompress 4 100 [0x28, 0xB5, 0x2F, 0xFD, 0x21, 0x07, 0x05, 0x2B, 0x00, 0x00, 0x61] = .unsupported := by
  set_option maxRecDepth 8000 in decide

/-- R346, R347: a sequence parameter set of H.264, Baseline, level 3, of 40 by 30 macroblocks. -/
theorem test_avc_head : (headAt 1 [0, 0, 1, 0x67, 0x42, 0x00, 0x1E, 0xAB, 0x40, 0x50, 0x1E, 0xD0, 0x0F, 0x08, 0x84, 0x6A] 0).map (fun p => (p.accepted, p.w, p.h, p.depth)) =
    some (true, 640, 480, 8) := by decide +kernel

/-- R344: the offset of an IDR access unit is a random access point, that of the slice within it is not. -/
theorem test_avc_rap : let es : Bytes := [0, 0, 0, 1, 0x67, 0x64, 1, 0, 0, 1, 0x65, 0x88, 0x80, 0, 0, 1, 0x41, 0x9A]
    rapGood 1 es 0 = true ∧ rapGood 1 es 7 = false ∧ rapGood 1 es 13 = false := by decide +kernel

/-- R376: 'a' is a letter, U+0020 a separator, as the Unicode Standard has them. -/
theorem test_class : uniClass 0x61 = 0 ∧ uniClass 0x20 = 5 := by decide +kernel

/-- R375: U+0065 U+0301 and U+00E9 are canonically equivalent. -/
theorem test_compose : uniCompose 0x65 0x301 = some 0xE9 := by decide +kernel
theorem test_decompose : formParts 1 0xE9 = [0x65, 0x301] := by decide +kernel

end Sys2Proof.Tests
end

section
/-! What every command keeps, and how each ends: with a next state, but for the three answers of the licensee at a port. -/

namespace Sys2Proof.Machine

/-! ## What every command keeps -/

/-- Every command but a power-on reset and the release of por_n keeps what its parts keep. -/
theorem exec_kept {c : Instr} {s t : State} (hr : isReset c = false) (hp : c ≠ .porRelease) (h : exec c s = .next t) : Kept s t := by
  cases c with
  | porAssert | testModeEntry => cases hr
  | porRelease => exact absurd rfl hp
  | firmwareVerify v => exact execFirmwareVerify_kept v s t h
  | dieBringUp linkUp kat noise => exact execDieBringUp_kept linkUp kat noise s t h
  | startUpMarchDone reads => exact execStartUpMarchDone_kept reads s t h
  | marchTrig => exact execMarchTrig_kept s t h
  | zeroisePin => exact execZeroisePin_kept s t h
  | zeroiseRelease => exact execZeroiseRelease_kept s t h
  | zeroisationComplete noise => exact execZeroisationComplete_kept noise s t h
  | dieIsoAssert die => exact execDieIsoAssert_kept die s t h
  | paceSync => exact execPaceSync_kept s t h
  | paceRefLoss => exact execPaceRefLoss_kept s t h
  | thermalUpdate die temp => exact execThermalUpdate_kept die temp s t h
  | sensorStale die => exact execSensorStale_kept die s t h
  | kekLoad words => exact execKekLoad_kept words s t h
  | wrappedKey words => exact execWrappedKey_kept words s t h
  | clockStepAck k mhz => exact execClockStepAck_kept k mhz s t h
  | clockStepAckTimeout k => exact execClockStepAckTimeout_kept k s t h
  | bayClockFault k => exact execBayClockFault_kept k s t h
  | linkUpLoss b => exact execLinkUpLoss_kept b s t h
  | scarfFlitSend b side lane route => exact execScarfFlitSend_kept b side lane route s t h
  | scarfFlitReceive b side lane flit => exact execScarfFlitReceive_kept b side lane flit s t h
  | scarfNakReceive b side lane ackSeq => exact execScarfNakReceive_kept b side lane ackSeq s t h
  | scarfReplayTimeout b side lane => exact execScarfReplayTimeout_kept b side lane s t h
  | tenonLaunch bay tenon => exact execTenonLaunch_kept bay tenon s t h
  | trussBeatAccept route link => exact execTrussBeatAccept_kept route link s t h
  | bayDozeEntry k => exact execBayDozeEntry_kept k s t h
  | bayWake k => exact execBayWake_kept k s t h
  | sillRequestIssue port tag => exact execSillRequestIssue_kept port tag s t h
  | sillReadBeat port tag beat last poison data => exact execSillReadBeat_kept port tag beat last poison data s t h
  | sillReadErrorResponse port tag fault token => exact execSillReadErrorResponse_kept port tag fault token s t h
  | sillWriteResponse port tag resp => exact execSillWriteResponse_kept port tag resp s t h
  | sillRequestTimeout port tag write => exact execSillRequestTimeout_kept port tag write s t h
  | stewardWatchdogExpiry => exact execStewardWatchdogExpiry_kept s t h
  | dumpSectionWrite v => exact execDumpSectionWrite_kept v s t h
  | controlStateEcc store => exact execControlStateEcc_kept store s t h
  | logEntryWrite log v => exact execLogEntryWrite_kept log v s t h
  | errLogBaseHiWrite acc log value => exact execErrLogBaseHiWrite_kept acc log value s t h
  | notifySend => exact execNotifySend_kept s t h
  | pageRequestGroupSend fn stream => exact execPageRequestGroupSend_kept fn stream s t h
  | hostRegisterWrite acc addr value => exact execHostRegisterWrite_kept acc addr value s t h
  | rcRegisterRead acc addr event => exact execRcRegisterRead_kept acc addr event s t h
  | reg64LoRead acc addr => exact execReg64LoRead_kept acc addr s t h
  | imgStart acc value v between => exact execImgStart_kept acc value v between s t h
  | imgAbort acc value => exact execImgAbort_kept acc value s t h
  | imageCommit => exact execImageCommit_kept s t h
  | funcResetGo acc fn value => exact execFuncResetGo_kept acc fn value s t h
  | funcResetComplete fn => exact execFuncResetComplete_kept fn s t h
  | qEnable acc fn q value => exact execQEnable_kept acc fn q value s t h
  | qEnableCheck fn q => exact execQEnableCheck_kept fn q s t h
  | qDisable acc fn q value => exact execQDisable_kept acc fn q value s t h
  | qDisableComplete fn q => exact execQDisableComplete_kept fn q s t h
  | qConfigWrite acc fn q reg value => exact execQConfigWrite_kept acc fn q reg value s t h
  | doorbell acc fn value => exact execDoorbell_kept acc fn value s t h
  | tailRead fn q extra v => exact execTailRead_kept fn q extra v s t h
  | entryFetch fn q v => exact execEntryFetch_kept fn q v s t h
  | queueVisit fn q v => exact execQueueVisit_kept fn q v s t h
  | copy fn q slot v => exact execCopy_kept fn q slot v s t h
  | streamOpen fn q slot v => exact execStreamOpen_kept fn q slot v s t h
  | streamClose fn q slot v => exact execStreamClose_kept fn q slot v s t h
  | shardList fn q slot v => exact execShardList_kept fn q slot v s t h
  | sample fn q slot v => exact execSample_kept fn q slot v s t h
  | gather fn q slot v => exact execGather_kept fn q slot v s t h
  | scatter fn q slot v => exact execScatter_kept fn q slot v s t h
  | returnLogits fn q slot v => exact execReturnLogits_kept fn q slot v s t h
  | returnWrite fn q slot v => exact execReturnWrite_kept fn q slot v s t h
  | poolFill fn q slot v => exact execPoolFill_kept fn q slot v s t h
  | contextSave fn q slot v => exact execContextSave_kept fn q slot v s t h
  | contextRestore fn q slot v => exact execContextRestore_kept fn q slot v s t h
  | streamResume fn q slot v => exact execStreamResume_kept fn q slot v s t h
  | lockGroup fn q slot v => exact execLockGroup_kept fn q slot v s t h
  | snapshot fn q slot v => exact execSnapshot_kept fn q slot v s t h
  | jobCompleteHeadPublish fn q v => exact execJobCompleteHeadPublish_kept fn q v s t h
  | batchDeliver fn stream v => exact execBatchDeliver_kept fn stream v s t h
  | lockGroupRelease group v => exact execLockGroupRelease_kept group v s t h
  | scheduleStart fn stream v => exact execScheduleStart_kept fn stream v s t h
  | epochStart fn stream v => exact execEpochStart_kept fn stream v s t h
  | hurdlePass fn stream => exact execHurdlePass_kept fn stream s t h
  | shuffleWindowBuild fn stream v => exact execShuffleWindowBuild_kept fn stream v s t h
  | intakeRecord fn stream v => exact execIntakeRecord_kept fn stream v s t h
  | judgeHeatStart bay v => exact execJudgeHeatStart_kept bay v s t h
  | heatRegionWrite acc reg value => exact execHeatRegionWrite_kept acc reg value s t h
  | bankOwnerWrite acc b value => exact execBankOwnerWrite_kept acc b value s t h
  | bankHandover b => exact execBankHandover_kept b s t h
  | bankClearDone b => exact execBankClearDone_kept b s t h
  | scrubRead b upset => exact execScrubRead_kept b upset s t h
  | marchStart acc value => exact execMarchStart_kept acc value s t h
  | marchDone reads => exact execMarchDone_kept reads s t h
  | poolMapWrite acc p value => exact execPoolMapWrite_kept acc p value s t h
  | poolEnable acc fn ix value v => exact execPoolEnable_kept acc fn ix value v s t h
  | poolDisable acc fn ix value v => exact execPoolDisable_kept acc fn ix value v s t h
  | poolAllocate fn ix stream share => exact execPoolAllocate_kept fn ix stream share s t h
  | poolGrant fn ix => exact execPoolGrant_kept fn ix s t h
  | poolRelease fn ix stream handle v => exact execPoolRelease_kept fn ix stream handle v s t h
  | poolCacheRefill p v => exact execPoolCacheRefill_kept p v s t h
  | poolCacheSpill p v => exact execPoolCacheSpill_kept p v s t h
  | poolWatchdogFire p v => exact execPoolWatchdogFire_kept p v s t h
  | relayReturn acc fn value => exact execRelayReturn_kept acc fn value s t h
  | frameModeWrite acc value => exact execFrameModeWrite_kept acc value s t h
  | frameCtrlWrite acc value => exact execFrameCtrlWrite_kept acc value s t h
  | paceOffsetWrite acc value => exact execPaceOffsetWrite_kept acc value s t h
  | snapAtWrite acc value => exact execSnapAtWrite_kept acc value s t h
  | snapshotCopy unit => exact execSnapshotCopy_kept unit s t h
  | snapshotComplete => exact execSnapshotComplete_kept s t h
  | governorStep v => exact execGovernorStep_kept v s t h
  | sprintGrant die => exact execSprintGrant_kept die s t h
  | secAuth acc => exact execSecAuth_kept acc s t h
  | secClose acc => exact execSecClose_kept acc s t h
  | secZeroise acc => exact execSecZeroise_kept acc s t h
  | secSelftest acc => exact execSecSelftest_kept acc s t h
  | selftestComplete kat noise => exact execSelftestComplete_kept kat noise s t h
  | signCommit acc value => exact execSignCommit_kept acc value s t h
  | signClear acc value => exact execSignClear_kept acc value s t h
  | keyPartWrite acc f value => exact execKeyPartWrite_kept acc f value s t h
  | secTestArm acc value => exact execSecTestArm_kept acc value s t h
  | keyQuery acc fn value => exact execKeyQuery_kept acc fn value s t h
  | keyZeroise acc fn value => exact execKeyZeroise_kept acc fn value s t h
  | keyDerive acc fn value => exact execKeyDerive_kept acc fn value s t h
  | noiseSample bit => exact execNoiseSample_kept bit s t h
  | drbgReseed noise => exact execDrbgReseed_kept noise s t h
  | paceRefRestore => exact execPaceRefRestore_kept s t h
  | relayPortSend => exact execRelayPortSend_kept s t h
  | managementStorageEcc store => exact execManagementStorageEcc_kept store s t h
  | bayControlStateEcc k => exact execBayControlStateEcc_kept k s t h
  | wrapperInstructionUpdate wrapper instr => exact execWrapperInstructionUpdate_kept wrapper instr s t h
  | clockStepAckLowered k => exact execClockStepAckLowered_kept k s t h

/-- Power-on reset leaves the waiting commands and the silicon (R163, R165). -/
theorem exec_reset_pending_caps {c : Instr} {s t : State} (hr : isReset c = true) (h : exec c s = .next t) :
    t.pending = s.pending ∧ t.caps = s.caps := by
  cases c with
  | porAssert =>
    cases h
    exact ⟨rfl, rfl⟩
  | testModeEntry =>
    dsimp only [exec, execTestModeEntry] at h
    split at h <;> cases h <;> exact ⟨rfl, rfl⟩
  | _ => cases hr

/-- POR_RELEASE changes pins, STATE and the pacer only (R167). -/
theorem execPorRelease_pending_caps {s t : State} (h : execPorRelease s = .next t) : t.pending = s.pending ∧ t.caps = s.caps := by
  unfold execPorRelease at h
  split at h <;> cases h <;> exact ⟨rfl, rfl⟩

theorem exec_pending_caps {c : Instr} {s t : State} (h : exec c s = .next t) : t.pending = s.pending ∧ t.caps = s.caps := by
  cases hr : isReset c with
  | true => exact exec_reset_pending_caps hr h
  | false =>
    by_cases hp : c = .porRelease
    · subst hp
      exact execPorRelease_pending_caps h
    · have hk := exec_kept hr hp h
      exact ⟨hk.pending, hk.caps⟩

/-! ## How commands end -/

/-- The outcome is a next state: no fault and no refusal. -/
inductive Completes : Out → Prop
  | next (t : State) : Completes (.next t)

theorem Completes.ite {c : Prop} [Decidable c] {a b : Out} (ha : Completes a) (hb : Completes b) : Completes (if c then a else b) := by
  split <;> assumption

/-- What a unit does by itself ends as its body does, whether or not it has to wait (log 4). -/
theorem State.turn_completes (s : State) {body : State → Out} (h : ∀ t, Completes (body t)) : Completes (s.turn body) := by
  have hb := h s.start
  unfold State.turn
  generalize body s.start = o at hb
  cases hb with
  | next t => exact .ite (.next _) (.next _)

theorem State.runEntry_completes (op f q slot : Nat) (v : MemView) (body : Job → Bytes → State → State) (s : State) :
    Completes (s.runEntry op f q slot v body) := by
  unfold State.runEntry
  refine State.turn_completes _ fun t => ?_
  split
  · exact .next _
  · exact .ite (.next _) (.next _)

/-- Both reads of the firmware image may fail and the image may be bad; each is a cause of BOOT_FAIL, not a fault (R171). -/
theorem execFirmwareVerify_completes (v : MemView) (s : State) : Completes (execFirmwareVerify v s) := by
  refine .ite (.next _) (State.turn_completes _ fun t => ?_)
  dsimp only
  (repeat' split) <;> exact .next _

/-- The answers of the licensee at a port that may break its rules: a read beat (R122), a write response (R127), a clock-step
acknowledgement (R151). -/
def isPortAnswer : Instr → Bool
  | .sillReadBeat .. => true
  | .sillWriteResponse .. => true
  | .clockStepAck .. => true
  | _ => false

theorem eq_of_isPortAnswer {c : Instr} (h : isPortAnswer c = true) :
    (∃ p t b l m d, c = .sillReadBeat p t b l m d) ∨ (∃ p t r, c = .sillWriteResponse p t r) ∨ ∃ k m, c = .clockStepAck k m := by
  unfold isPortAnswer at h
  split at h
  · exact .inl ⟨_, _, _, _, _, _, rfl⟩
  · exact .inr (.inl ⟨_, _, _, rfl⟩)
  · exact .inr (.inr ⟨_, _, rfl⟩)
  · cases h

/-- Every other command ends with a next state, from every state. The commands stand in groups by how they are built. -/
theorem exec_completes {c : Instr} (h : isPortAnswer c = false) (s : State) : Completes (exec c s) := by
  cases c with
  | sillReadBeat | sillWriteResponse | clockStepAck => cases h
  | firmwareVerify => exact execFirmwareVerify_completes ..
  -- One state is the answer on every path.
  | porAssert | marchTrig | zeroiseRelease | paceSync | bayClockFault | stewardWatchdogExpiry | errLogBaseHiWrite | rcRegisterRead |
    reg64LoRead | imgAbort | funcResetGo | qEnable | qDisable | qConfigWrite | doorbell | heatRegionWrite | bankOwnerWrite | marchStart |
    poolMapWrite | relayReturn | frameModeWrite | frameCtrlWrite | paceOffsetWrite | snapAtWrite | secAuth | secClose | secZeroise |
    secSelftest | signCommit | signClear | keyPartWrite | secTestArm | keyQuery | keyZeroise | keyDerive | paceRefRestore |
    bayControlStateEcc | wrapperInstructionUpdate | clockStepAckLowered =>
    exact .next _
  -- Entries of a job.
  | copy | streamOpen | streamClose | shardList | sample | gather | scatter | returnLogits | returnWrite | poolFill | contextSave |
    contextRestore | streamResume | lockGroup | snapshot =>
    exact State.runEntry_completes ..
  -- What a unit does by itself and may have to wait for: each branch of its body is a next state.
  | trussBeatAccept | dumpSectionWrite | logEntryWrite | hostRegisterWrite | imgStart | tailRead | entryFetch | queueVisit |
    jobCompleteHeadPublish | batchDeliver | lockGroupRelease | scheduleStart | epochStart | shuffleWindowBuild | intakeRecord |
    judgeHeatStart | poolEnable | poolDisable | poolAllocate | poolRelease | poolCacheRefill | poolCacheSpill | poolWatchdogFire =>
    dsimp only [exec, execTrussBeatAccept, execDumpSectionWrite, execLogEntryWrite, execHostRegisterWrite, execImgStart, execTailRead,
      execEntryFetch, execQueueVisit, execJobCompleteHeadPublish, execBatchDeliver, execLockGroupRelease, execScheduleStart,
      execEpochStart, execShuffleWindowBuild, execIntakeRecord, execJudgeHeatStart, execPoolEnable, execPoolDisable, execPoolAllocate,
      execPoolRelease, execPoolCacheRefill, execPoolCacheSpill, execPoolWatchdogFire]
    refine State.turn_completes _ fun t => ?_
    (repeat' split) <;> exact .next _
  -- Events with conditions: where they do not hold the state stays (log 2), elsewhere the branch is a next state.
  | porRelease | dieBringUp | startUpMarchDone | testModeEntry | zeroisePin | zeroisationComplete | dieIsoAssert | paceRefLoss |
    thermalUpdate | sensorStale | kekLoad | wrappedKey | clockStepAckTimeout | linkUpLoss | scarfFlitSend | scarfFlitReceive |
    scarfNakReceive | scarfReplayTimeout | tenonLaunch | bayDozeEntry | bayWake | sillRequestIssue | sillReadErrorResponse |
    sillRequestTimeout | controlStateEcc | notifySend | pageRequestGroupSend | imageCommit | funcResetComplete | qEnableCheck |
    qDisableComplete | hurdlePass | bankHandover | bankClearDone | scrubRead | marchDone | poolGrant | snapshotCopy | snapshotComplete |
    governorStep | sprintGrant | selftestComplete | noiseSample | drbgReseed | relayPortSend | managementStorageEcc =>
    dsimp only [exec, execPorRelease, execDieBringUp, execStartUpMarchDone, execTestModeEntry, execZeroisePin, execZeroisationComplete,
      execDieIsoAssert, execPaceRefLoss, execThermalUpdate, execSensorStale, execKekLoad, execWrappedKey, execClockStepAckTimeout,
      execLinkUpLoss, execScarfFlitSend, execScarfFlitReceive, execScarfNakReceive, execScarfReplayTimeout, execTenonLaunch,
      execBayDozeEntry, execBayWake, execSillRequestIssue, execSillReadErrorResponse, execSillRequestTimeout, execControlStateEcc,
      execNotifySend, execPageRequestGroupSend, execImageCommit, execFuncResetComplete, execQEnableCheck, execQDisableComplete,
      execHurdlePass, execBankHandover, execBankClearDone, execScrubRead, execMarchDone, execPoolGrant, execSnapshotCopy,
      execSnapshotComplete, execGovernorStep, execSprintGrant, execSelftestComplete, execNoiseSample, execDrbgReseed, execRelayPortSend,
      execManagementStorageEcc]
    (repeat' split) <;> exact .next _

/-- A broken rule of a port is a fault, never a refusal. -/
theorem exec_ne_refused (c : Instr) (s : State) (r : Refusal) : exec c s ≠ .refused r := by
  intro e
  cases hc : isPortAnswer c with
  | false => exact nomatch e ▸ exec_completes hc s
  | true =>
    rcases eq_of_isPortAnswer hc with ⟨p, t, b, l, m, d, rfl⟩ | ⟨p, t, a, rfl⟩ | ⟨k, m, rfl⟩
    · dsimp only [exec, execSillReadBeat] at e
      (repeat' split at e) <;> cases e
    · dsimp only [exec, execSillWriteResponse] at e
      (repeat' split at e) <;> cases e
    · dsimp only [exec, execClockStepAck] at e
      split at e <;> cases e

theorem isPortAnswer_of_exec_fault {c : Instr} {s : State} {r : Fault} (e : exec c s = .fault r) : isPortAnswer c = true := by
  by_contra hc
  exact nomatch e ▸ exec_completes (Bool.eq_false_iff.mpr hc) s

/-- Settles O6: what the parts of a command keep (Kept) gives its first clause; the others go by how each command ends. -/
theorem commandsKeepQueueAndAreNotRefused : Obligations.CommandsKeepQueueAndAreNotRefused :=
  ⟨fun _ _ _ h => exec_pending_caps h, fun c s => ⟨exec_ne_refused c s, fun _ e => eq_of_isPortAnswer (isPortAnswer_of_exec_fault e)⟩⟩

end Sys2Proof.Machine
end

section
/-! What a host read that reaches its register answers and leaves (R9 to R14, R136 to R139, R556, R557). -/

namespace Sys2Proof.Machine

/-! ## Reads that reach their register -/

/-- A read of an address reaches an offset of a page: the origin may read there (R138), start-up does not hide the page (R557), and the
register is no BANK_OWNER of a fenced bay (R560). -/
structure State.ReadReaches (s : State) (acc : Acc) (addr : BitVec 21) (p : Page) (off : Nat) : Prop where
  page : s.caps.pageOf (addr.toNat * 4) = some (p, off)
  allowed : p.allows acc = true
  shown : ∀ f, p = .func f → s.early = false
  owner : s.fencedOwner p off = none

/-- The word address of an aligned byte address within the pages. -/
theorem wordAddr_toNat {a : Nat} (h4 : a % 4 = 0) (h : a < 0x800000) : (BitVec.ofNat 21 (a / 4)).toNat * 4 = a := by
  rw [BitVec.toNat_ofNat]
  omega

theorem State.readReaches_frame (s : State) {acc : Acc} {off : Nat} (h : acc.origin = .frame) (h4 : off % 4 = 0)
    (ho : off < 0x1000 ∨ (0x4000 ≤ off ∧ off < 0x10000)) : s.ReadReaches acc (BitVec.ofNat 21 ((0x400000 + off) / 4)) .frame off where
  page := by rw [wordAddr_toNat (by omega) (by omega), Caps.pageOf_frame _ _ (by omega)]
  allowed := by simp [Page.allows, h]
  shown := nofun
  owner := s.fencedOwner_frame off (by omega)

theorem State.readReaches_func {s : State} {acc : Acc} {fn : BitVec 6} {off : Nat}
    (h : acc.origin = .frame ∨ (acc.origin = .function ∧ acc.fn = fn)) (hf : fn.toNat < s.caps.funcs) (he : s.early = false)
    (h4 : off % 4 = 0) (ho : off < 0x10000) :
    s.ReadReaches acc (BitVec.ofNat 21 (fn.toNat * 0x4000 + off / 4)) (.func fn.toNat) off where
  page := by
    have hw : fn.toNat * 0x4000 + off / 4 = (fn.toNat * 0x10000 + off) / 4 := by omega
    rw [hw, wordAddr_toNat (by omega) (by omega), Caps.pageOf_func _ _ _ hf ho]
  allowed := by rcases h with h | ⟨h, rfl⟩ <;> simp [Page.allows, h]
  shown := fun _ _ => he
  owner := rfl

section
variable {s : State} {acc : Acc} {addr : BitVec 21} {p : Page} {off : Nat}

/-- The response carries the low 32 bits of a value. -/
theorem State.answer_mod (v : Nat) (e : Bool) (s : State) : s.answer (v % 2 ^ 32) e = s.answer v e := by
  have hv : BitVec.ofNat 32 (v % 2 ^ 32) = BitVec.ofNat 32 v := BitVec.eq_of_toNat_eq (by simp)
  rw [State.answer, State.answer, hv]

/-- The _LO half of a pair is read, and the _HI half latched for the origin (R14, R556). -/
theorem State.hostRead_low (h : s.ReadReaches acc addr p off) (event : Bool) {v : Nat} (hv : s.pairOf p off = some v) :
    s.hostRead acc addr event = State.answer v false { s with
      host := { s.host with latched := tblSet s.host.latched (pairKey acc.origin p off) (BitVec.ofNat 32 (v / 2 ^ 32)) } } := by
  obtain ⟨hp, ha, hs, ho⟩ := h
  rw [← State.answer_mod]
  cases p <;> simp [State.hostRead, hp, ha, ho, hv, hs]

/-- The _HI half of a pair reads as the origin's latch has it (R14, R556). -/
theorem State.hostRead_high (h : s.ReadReaches acc addr p (off + 4)) (event : Bool) (hn : s.pairOf p (off + 4) = none)
    (hl : (s.pairOf p off).isSome = true) :
    s.hostRead acc addr event = s.answer (tblGetD s.host.latched (pairKey acc.origin p off) 0).toNat false := by
  obtain ⟨hp, ha, hs, ho⟩ := h
  obtain ⟨v, hv⟩ := Option.isSome_iff_exists.mp hl
  cases p <;> simp [State.hostRead, hp, ha, ho, hn, hv, hs]

/-- A register that is half of no pair is read, and an RC counter cleared (R11). -/
theorem State.hostRead_single (h : s.ReadReaches acc addr p (off + 4)) (event : Bool) (hn : s.pairOf p (off + 4) = none)
    (hl : s.pairOf p off = none) :
    s.hostRead acc addr event = (s.rcClear p (off + 4) event).answer (s.regRead p (off + 4)) false := by
  obtain ⟨hp, ha, hs, ho⟩ := h
  cases p <;> simp [State.hostRead, hp, ha, ho, hn, hl, hs]

end

/-! ## Latches of the origins -/

/-- Offsets and bases of pages stay below the origin's place in a key. -/
theorem Caps.pageOf_lt {c : Caps} {a : Nat} {p : Page} {off : Nat} (h : c.pageOf a = some (p, off)) : p.base + off < 2 ^ 24 := by
  have hoff : a % 0x10000 < 0x10000 := Nat.mod_lt _ (by omega)
  unfold Caps.pageOf at h
  dsimp only at h
  (repeat' split at h) <;> simp only [Option.some.injEq, Prod.mk.injEq, reduceCtorEq] at h
  all_goals
    obtain ⟨rfl, rfl⟩ := h
    simp only [Page.base]
    omega

theorem Origin.code_injective : Function.Injective Origin.code := by
  intro o o' h
  cases o <;> cases o' <;> simp_all [Origin.code]

/-- Latches of two origins are apart (R556). -/
theorem pairKey_ne {o o' : Origin} {p p' : Page} {off off' : Nat} (ho : o ≠ o') (h : p.base + off < 2 ^ 24) (h' : p'.base + off' < 2 ^ 24) :
    pairKey o p off ≠ pairKey o' p' off' := by
  intro e
  have hc : Origin.code o ≠ Origin.code o' := fun k => ho (Origin.code_injective k)
  unfold pairKey at e
  omega

@[simp] theorem State.rcClear_host (p : Page) (off : Nat) (event : Bool) (s : State) : (s.rcClear p off event).host = s.host := by
  unfold State.rcClear
  dsimp only
  (repeat' split) <;> rfl

/-- A read leaves the latches of every other origin (R556). -/
theorem State.hostRead_latched_other (s : State) (acc : Acc) (addr : BitVec 21) (event : Bool) {o : Origin} {p : Page} {off : Nat}
    (ho : o ≠ acc.origin) (h : p.base + off < 2 ^ 24) :
    tblGetD (s.hostRead acc addr event).host.latched (pairKey o p off) 0 = tblGetD s.host.latched (pairKey o p off) 0 := by
  unfold State.hostRead
  split
  · rfl
  · rename_i p' off' hp
    have hk := pairKey_ne ho h (Caps.pageOf_lt hp)
    (repeat' split) <;> simp [State.answer, tblGetD_tblSet_ne _ _ _ _ hk]

/-! ## Pairs of the frame page -/

theorem State.framePair_isSome_iff (s : State) (off : Nat) :
    (s.framePair off).isSome = true ↔ off ∈ [0x060, 0x068, 0x070, 0x080, 0x098, 0x0C0, 0x0D0] := by
  unfold State.framePair
  (repeat' split) <;> simp_all

theorem State.framePair_high (s : State) {off : Nat} (h : off % 8 = 4) : s.framePair off = none := by
  rw [← Option.not_isSome_iff_eq_none, State.framePair_isSome_iff]
  simp only [List.mem_cons, List.not_mem_nil, or_false]
  omega

/-- No pair of the frame page lies from the log's registers on. -/
theorem State.framePair_of_gt (s : State) {off : Nat} (h : 0x0D0 < off) : s.framePair off = none := by
  rw [← Option.not_isSome_iff_eq_none, State.framePair_isSome_iff]
  simp only [List.mem_cons, List.not_mem_nil, or_false]
  omega

/-- Settles O27: the key of the latch holds the origin, so no read of another origin moves it (hostRead_latched_other). -/
theorem pairReadIsWhole : Obligations.PairReadIsWhole := by
  intro acc s hacc off v hmem hv
  have hoff : off % 8 = 0 ∧ off < 0x0D8 := by
    simp only [List.mem_cons, List.not_mem_nil, or_false] at hmem
    omega
  have hlow := State.hostRead_low (s.readReaches_frame hacc (by omega) (by omega)) false hv
  refine ⟨_, congrArg Host.Outcome.next hlow, rfl, rfl, ?_⟩
  intro acc' addr u w hu ho hw
  cases hw
  have hlatch : tblGetD (u.hostRead acc' addr false).host.latched (pairKey acc.origin .frame off) 0 = BitVec.ofNat 32 (v / 2 ^ 32) := by
    rw [State.hostRead_latched_other _ _ _ _ (hacc ▸ ho.symm) (by simp only [Page.base]; omega), hu]
    exact tblGetD_tblSet_same ..
  have haddr : 0x400004 + off = 0x400000 + (off + 4) := by omega
  have hhigh := State.hostRead_high ((u.hostRead acc' addr false).readReaches_frame hacc (off := off + 4) (by omega) (by omega)) false
    (State.framePair_high _ (by omega)) ((State.framePair_isSome_iff _ _).mpr hmem)
  rw [hlatch, ← haddr, BitVec.toNat_ofNat, State.answer_mod] at hhigh
  exact congrArg Host.Outcome.next hhigh

end Sys2Proof.Machine
end

section
/-! Reads of the RC counters (R11): OOB_DROP and the lost count of a function, the lost count of the frame's log, the count of corrected
symbols of a bank. -/

namespace Sys2Proof.Machine

/-! ## What a read of an RC register clears -/

theorem State.rcClear_oobDrop (s : State) (f : Nat) (event : Bool) :
    s.rcClear (.func f) 0x04C event = s.setFunc f { s.func f with oobDrop := b2n event } := rfl

theorem State.rcClear_funcLost (s : State) (f : Nat) (event : Bool) :
    s.rcClear (.func f) 0x0DC event = s.setFunc f { s.func f with log := { (s.func f).log with lost := b2n event } } := rfl

/-! ## BANK_STATUS -/

theorem arrayIx_of_lt {off start n : Nat} (h : off < start) : arrayIx off start n = none := if_neg (by omega)

theorem arrayIx_of_ge {off start n : Nat} (h : start + 4 * n ≤ off) : arrayIx off start n = none := if_neg (by omega)

theorem arrayIx_entry {start n i : Nat} (h : i < n) (hs : start % 4 = 0) : arrayIx (start + 4 * i) start n = some i := by
  rw [arrayIx, if_pos (by omega)]
  congr 1
  omega

theorem State.rcClear_bank {s : State} {b : Nat} (event : Bool) (h : b < 3072) (hb : s.bankPresent b = true) :
    s.rcClear .frame (0x4000 + 4 * b) event = s.setBank b { s.bank b with corr := b2n event } := by
  have h1 : ¬ 0x4000 + 4 * b = 0x0DC := by omega
  simp [State.rcClear, h1, arrayIx_entry h, hb, State.modBank_eq]

theorem Caps.capReg_of_le {c : Caps} {off : Nat} (h : 0x018 ≤ off) : c.capReg off = none := by
  unfold Caps.capReg
  (repeat rw [if_neg (by omega)])

theorem State.regRead_bank {s : State} {b : Nat} (h : b < 3072) (hb : s.bankPresent b = true) :
    s.regRead .frame (0x4000 + 4 * b) = s.bankStatus b := by
  rw [State.regRead, Caps.capReg_of_le (by omega)]
  dsimp only
  rw [State.frameRead]
  dsimp only
  (repeat rw [if_neg (by omega)])
  rw [arrayIx_of_ge (by omega), arrayIx_of_ge (by omega), arrayIx_entry h (by omega)]
  exact if_pos hb

/-! ## The reads -/

/-- A read of a counter of a function gives its value and leaves what the event of the cycle makes of it. -/
theorem State.funcCounter_read {s : State} {acc : Acc} {addr : BitVec 21} {f off v : Nat} {event : Bool} {x : Func}
    (hr : s.ReadReaches acc addr (.func f) (off + 4)) (hn : s.pairOf (.func f) (off + 4) = none) (hl : s.pairOf (.func f) off = none)
    (hc : s.rcClear (.func f) (off + 4) event = s.setFunc f x) (hv : s.regRead (.func f) (off + 4) = v) :
    ∃ t, exec (.rcRegisterRead acc addr event) s = .next t ∧ t.host.rsp = [⟨BitVec.ofNat 32 v, false⟩] ∧ t.func f = x ∧
      t = { s with host := { s.host with rsp := t.host.rsp }, funcs := tblSet s.funcs f (t.func f) } := by
  have hread := State.hostRead_single hr event hn hl
  rw [hc, hv] at hread
  have hx : ((s.setFunc f x).answer v false).func f = x := State.setFunc_func_same ..
  exact ⟨_, congrArg Host.Outcome.next hread, rfl, hx, by rw [hx]; rfl⟩

theorem State.frameLost_read {s : State} {acc : Acc} (event : Bool) (h : acc.origin = .frame) :
    exec (.rcRegisterRead acc (BitVec.ofNat 21 (0x4000DC / 4)) event) s = .next { s with
      host := { s.host with rsp := [⟨BitVec.ofNat 32 s.frameLog.lost, false⟩] }, frameLog := { s.frameLog with lost := b2n event } } :=
  congrArg Host.Outcome.next <| State.hostRead_single (off := 0x0D8) (s.readReaches_frame h rfl (by omega)) event
    (s.framePair_of_gt (by omega)) (s.framePair_of_gt (by omega))

theorem State.bankCorr_read {s : State} {acc : Acc} {b : Nat} (event : Bool) (h : acc.origin = .frame) (hb : b < 3072)
    (hp : s.bankPresent b = true) :
    ∃ t, exec (.rcRegisterRead acc (BitVec.ofNat 21 ((0x404000 + 4 * b) / 4)) event) s = .next t ∧
      t.host.rsp = [⟨BitVec.ofNat 32 (s.bankStatus b), false⟩] ∧ t.bank b = { s.bank b with corr := b2n event } ∧
      t = { s with host := { s.host with rsp := t.host.rsp }, banks := tblSet s.banks b (t.bank b) } := by
  have haddr : 0x400000 + (0x3FFC + 4 * b + 4) = 0x404000 + 4 * b := by omega
  have hoff : 0x3FFC + 4 * b + 4 = 0x4000 + 4 * b := by omega
  have hread := State.hostRead_single (off := 0x3FFC + 4 * b) (s.readReaches_frame h (by omega) (by omega)) event
    (s.framePair_of_gt (by omega)) (s.framePair_of_gt (by omega))
  rw [haddr, hoff, State.rcClear_bank event hb hp, State.regRead_bank hb hp] at hread
  have hx : ((s.setBank b { s.bank b with corr := b2n event }).answer (s.bankStatus b) false).bank b = { s.bank b with corr := b2n event } :=
    State.setBank_bank_same ..
  exact ⟨_, congrArg Host.Outcome.next hread, rfl, hx, by rw [hx]; rfl⟩

/-- Settles O26: each counter is half of no pair, so its read answers with it and then clears it (hostRead_single). -/
theorem readClearsCounter : Obligations.ReadClearsCounter := by
  intro acc event s
  refine ⟨fun fn ha hf he => ⟨?_, ?_⟩, fun h => ⟨State.frameLost_read event h, fun b hb hp => State.bankCorr_read event h hb hp⟩⟩
  · exact State.funcCounter_read (off := 0x048) (State.readReaches_func ha hf he rfl (by omega)) rfl rfl (s.rcClear_oobDrop _ event) rfl
  · exact State.funcCounter_read (off := 0x0D8) (State.readReaches_func ha hf he rfl (by omega)) rfl rfl (s.rcClear_funcLost _ event) rfl

end Sys2Proof.Machine
end

section
/-! How long a frame stays FATAL (R30): until a power-on reset, since a release of por_n has no effect while por_n is high. -/

namespace Sys2Proof.Machine

/-- R167 starts a frame once por_n is released; with the pin high already there is nothing to release. -/
theorem exec_porRelease_of_porN {s : State} (h : s.pins.porN = true) : exec .porRelease s = .next s :=
  if_pos h

/-- Settles O8: every part of a command keeps FATAL (exec_kept), and POR_RELEASE with por_n high leaves the whole state. -/
theorem fatalEndsOnlyAtReset : Obligations.FatalEndsOnlyAtReset := by
  intro c s t hr hp hs h
  by_cases hc : c = .porRelease
  · subst hc
    rw [exec_porRelease_of_porN (hp rfl)] at h
    cases h
    exact hs
  · exact (exec_kept hr hc h).fatal hs

end Sys2Proof.Machine
end

section
/-! What a write of IMG_CTRL does (R107 to R113, R494, R571). -/

namespace Sys2Proof.Machine

/-! ## Rejections and drains -/

theorem State.logFrame_eq (code cls unit index bay detail : Nat) (s : State) :
    s.logFrame code cls unit index bay detail = { s with
      frameLog := (s.logFrame code cls unit index bay detail).frameLog, units := (s.logFrame code cls unit index bay detail).units } := by
  unfold State.logFrame State.logTo
  dsimp only
  split <;> rfl

/-- A rejection discards the staged image and the steward's reads, and is logged (R112). -/
theorem State.rejectImage_eq (detail sect : Nat) (s : State) :
    s.rejectImage detail sect = { s with
      image := { s.image with st := .rejected, detail := detail, sect := sect, staged := none }
      ports := (s.rejectImage detail sect).ports
      frameLog := (s.rejectImage detail sect).frameLog
      units := (s.rejectImage detail sect).units } := by
  rw [State.rejectImage, State.logFrame_eq]
  rfl

theorem State.rejectImage_image (detail sect : Nat) (s : State) :
    (s.rejectImage detail sect).image = { s.image with st := .rejected, detail := detail, sect := sect, staged := none } :=
  congrArg State.image (s.rejectImage_eq detail sect)

theorem State.stopLoad_of_not_loading {s : State} (detail : Nat) (h : s.loading = false) : s.stopLoad detail = s := by
  simp [State.stopLoad, h]

theorem State.stopLoad_of_loading {s : State} (detail : Nat) (h : s.loading = true) :
    s.stopLoad detail = s.rejectImage detail 0x7F := by
  simp [State.stopLoad, h]

theorem State.loading_of_draining {s : State} (hf : s.frame.st ≠ .fatal) (h : s.image.st = .draining) : s.loading = true := by
  simp [State.loading, hf, h]

/-- Only a patch that drains under FORCE closes streams (R113). -/
theorem State.forceDrain_of_no_force {s : State} (h : s.image.st = .draining → s.image.force = false) : s.forceDrain = s :=
  if_neg (by simpa using h)

theorem State.forceDrain_of_not_draining {s : State} (h : s.image.st ≠ .draining) : s.forceDrain = s :=
  State.forceDrain_of_no_force (absurd · h)

theorem State.forceDrain_rejectImage (detail sect : Nat) (s : State) :
    (s.rejectImage detail sect).forceDrain = s.rejectImage detail sect :=
  State.forceDrain_of_not_draining (by simp [State.rejectImage_image])

/-! ## The register write -/

theorem State.turn_of_next {s t : State} {body : State → Out} (h : body s.start = .next t) (hm : t.running.miss = none) :
    s.turn body = .next { t with running := s.running } := by
  simp [State.turn, h, hm]

theorem State.hostWrite_imgCtrl {s : State} {acc : Acc} (h : s.MgmtAccess acc) (value : Nat) (v between : MemView) :
    s.hostWrite acc 0x410048 value v between = (s.imgCtrl value v between).accepted :=
  State.hostWrite_management h 0x48 value v between (by omega)

theorem exec_imgAbort {s : State} {acc : Acc} (h : s.MgmtAccess acc) (value : Word) :
    exec (.imgAbort acc value) s = .next (s.imgCtrl (withBits value 2) viewSame viewSame).accepted :=
  congrArg Host.Outcome.next (State.hostWrite_imgCtrl h ..)

/-- IMG_START whose accesses all have their slots (log 4). -/
theorem exec_imgStart {s t : State} {acc : Acc} {value : Word} {v between : MemView} (h : s.MgmtAccess acc)
    (ht : (s.seeMem v).start.imgCtrl (withBits value 1) viewSame between = t) (hm : t.running.miss = none) :
    exec (.imgStart acc value v between) s = .next (State.accepted { t with running := s.running }) := by
  have hw := State.hostWrite_imgCtrl (s := (s.seeMem v).start) h (withBits value 1) viewSame between
  rw [ht] at hw
  exact State.turn_of_next (s := s.seeMem v) (body := fun s => .next (s.hostWrite acc 0x410048 (withBits value 1) viewSame between))
    (congrArg Host.Outcome.next hw) hm

/-! ## The bits of IMG_CTRL -/

theorem bitOf_withBits (value : Word) (m i : Nat) : bitOf (withBits value m) i = (value.toNat.testBit i || m.testBit i) :=
  Nat.testBit_or ..

theorem bitOf_withBits_set (value : Word) {m i : Nat} (h : m.testBit i = true) : bitOf (withBits value m) i = true := by
  rw [bitOf_withBits, h, Bool.or_true]

theorem bitOf_withBits_clear (value : Word) {m i : Nat} (h : m.testBit i = false) :
    bitOf (withBits value m) i = value.toNat.testBit i := by
  rw [bitOf_withBits, h, Bool.or_false]

/-- FORCE is taken from every write of a session (R571). -/
def State.takeForce (force : Bool) (s : State) : State := { s with image := { s.image with force := force } }

section
variable {s : State} {value : Nat} {between : MemView}

theorem State.imgCtrl_no_session (h : s.sec.session = false) : s.imgCtrl value viewSame between = s.secRefuse :=
  if_pos (by simpa using h)

theorem State.imgCtrl_session (h : s.sec.session = true) :
    s.imgCtrl value viewSame between = (
      let w := s.takeForce (bitOf value 2)
      if bitOf value 1 then (if w.image.st == .committing then w else w.stopLoad 0x17)
      else if bitOf value 0 then (if w.loading then { w with image := { w.image with overrun := true } } else w.startLoad between)
      else w).forceDrain :=
  if_neg (by simpa using h)

theorem State.imgCtrl_abort_load (h : s.sec.session = true) (ha : bitOf value 1 = true) (hl : s.loading = true)
    (hc : s.image.st ≠ .committing) :
    s.imgCtrl value viewSame between = (s.takeForce (bitOf value 2)).rejectImage 0x17 0x7F := by
  have hw : ((s.takeForce (bitOf value 2)).image.st == .committing) = false := beq_eq_false_iff_ne.mpr hc
  rw [State.imgCtrl_session h, if_pos ha, hw, if_neg Bool.false_ne_true,
    State.stopLoad_of_loading (s := s.takeForce (bitOf value 2)) _ hl, State.forceDrain_rejectImage]

/-- ABORT has no effect while no load runs, or once the image is being committed (R571). -/
theorem State.imgCtrl_abort_idle (h : s.sec.session = true) (ha : bitOf value 1 = true)
    (hl : s.loading = false ∨ s.image.st = .committing) (hf : s.frame.st ≠ .fatal) :
    s.imgCtrl value viewSame between = s.takeForce (bitOf value 2) := by
  have hd : s.image.st ≠ .draining := by
    rcases hl with hl | hc
    · exact fun hd => absurd (State.loading_of_draining hf hd) (by simp [hl])
    · simp [hc]
  have hw : (if (s.takeForce (bitOf value 2)).image.st == .committing then s.takeForce (bitOf value 2)
      else (s.takeForce (bitOf value 2)).stopLoad 0x17) = s.takeForce (bitOf value 2) := by
    rcases hl with hl | hc
    · rw [State.stopLoad_of_not_loading (s := s.takeForce (bitOf value 2)) _ hl, ite_self]
    · exact if_pos (beq_iff_eq.mpr hc)
  rw [State.imgCtrl_session h, if_pos ha, hw]
  exact State.forceDrain_of_not_draining hd

theorem State.imgCtrl_overrun (h : s.sec.session = true) (ha : bitOf value 1 = false) (hb : bitOf value 0 = true)
    (hl : s.loading = true) (hd : s.image.st = .draining → bitOf value 2 = false) :
    s.imgCtrl value viewSame between = { s with image := { s.image with force := bitOf value 2, overrun := true } } := by
  have hw : (s.takeForce (bitOf value 2)).loading = true := hl
  rw [State.imgCtrl_session h, if_neg (by simp [ha]), if_pos hb, if_pos hw]
  exact State.forceDrain_of_no_force hd

theorem State.imgCtrl_start (h : s.sec.session = true) (ha : bitOf value 1 = false) (hb : bitOf value 0 = true)
    (hl : s.loading = false) :
    s.imgCtrl value viewSame between = ((s.takeForce (bitOf value 2)).startLoad between).forceDrain := by
  have hw : (s.takeForce (bitOf value 2)).loading = false := hl
  rw [State.imgCtrl_session h, if_neg (by simp [ha]), if_pos hb, hw, if_neg Bool.false_ne_true]

end

/-! ## Loads -/

/-- The steward begins to verify (R108; log 117). -/
def State.beginLoad (s : State) : State :=
  { s with image := { s.image with st := .verifying, detail := 0, sect := noSection, staged := none } }

section
variable {s r : State} {between : MemView}

theorem State.startLoad_error {d sect : Nat} (h : s.beginLoad.loadImage between = (.error (d, sect), r)) :
    s.startLoad between = r.rejectImage d sect := by
  unfold State.beginLoad at h
  simp only [State.startLoad, h]

theorem State.startLoad_ok {c : ImgCfg} {pins : Tbl Bytes} (h : s.beginLoad.loadImage between = (.ok (c, pins), r)) :
    s.startLoad between =
      { r with image := { r.image with st := if c.kind = 2 then .draining else .staging, staged := some c, stagedPins := pins } } := by
  unfold State.beginLoad at h
  simp only [State.startLoad, h]

end

/-! ## The commands -/

section
variable {s r : State} {acc : Acc} {value : Word} {v between : MemView}

theorem exec_imgStart_no_session (h : s.MgmtAccess acc) (hs : s.sec.session = false) :
    exec (.imgStart acc value v between) s = .next (State.accepted (s.seeMem v).secRefuse) :=
  exec_imgStart h (State.imgCtrl_no_session hs) rfl

theorem exec_imgAbort_no_session (h : s.MgmtAccess acc) (hs : s.sec.session = false) :
    exec (.imgAbort acc value) s = .next s.secRefuse.accepted := by
  rw [exec_imgAbort h, State.imgCtrl_no_session hs]

theorem exec_imgStart_loading (h : s.MgmtAccess acc) (hs : s.sec.session = true) (ha : value.toNat.testBit 1 = false)
    (hl : s.loading = true) (hd : s.image.st = .draining → value.toNat.testBit 2 = false) :
    exec (.imgStart acc value v between) s = .next (State.accepted { s.seeMem v with
      image := { s.image with force := value.toNat.testBit 2, overrun := true } }) := by
  have hforce : bitOf (withBits value 1) 2 = value.toNat.testBit 2 := bitOf_withBits_clear value rfl
  rw [← hforce] at hd ⊢
  exact exec_imgStart h (State.imgCtrl_overrun hs ((bitOf_withBits_clear value rfl).trans ha) (bitOf_withBits_set value rfl) hl hd) rfl

/-- IMG_START with no load in progress: the load runs within the command (R108, R110). -/
theorem exec_imgStart_load {t : State} (h : s.MgmtAccess acc) (hs : s.sec.session = true) (ha : value.toNat.testBit 1 = false)
    (hl : s.loading = false)
    (ht : (((s.seeMem v).start.takeForce (value.toNat.testBit 2)).startLoad between).forceDrain = t) (hm : t.running.miss = none) :
    exec (.imgStart acc value v between) s = .next (State.accepted { t with running := s.running }) := by
  have hforce : bitOf (withBits value 1) 2 = value.toNat.testBit 2 := bitOf_withBits_clear value rfl
  rw [← hforce] at ht
  exact exec_imgStart h ((State.imgCtrl_start (s := (s.seeMem v).start) hs ((bitOf_withBits_clear value rfl).trans ha)
    (bitOf_withBits_set value rfl) hl).trans ht) hm

/-- A failed check rejects the image (R112). -/
theorem exec_imgStart_rejected {d sect : Nat} (h : s.MgmtAccess acc) (hs : s.sec.session = true) (ha : value.toNat.testBit 1 = false)
    (hl : s.loading = false)
    (hr : ((s.seeMem v).start.takeForce (value.toNat.testBit 2)).beginLoad.loadImage between = (.error (d, sect), r))
    (hm : r.running.miss = none) :
    exec (.imgStart acc value v between) s = .next (State.accepted { r.rejectImage d sect with running := s.running }) := by
  have hrun : (r.rejectImage d sect).running = r.running := by rw [State.rejectImage_eq]
  refine exec_imgStart_load h hs ha hl ?_ (hrun ▸ hm)
  rw [State.startLoad_error hr, State.forceDrain_rejectImage]

/-- An image that passes is staged; a patch drains (R110, R113). -/
theorem exec_imgStart_staged {c : ImgCfg} {pins : Tbl Bytes} (h : s.MgmtAccess acc) (hs : s.sec.session = true)
    (ha : value.toNat.testBit 1 = false) (hl : s.loading = false)
    (hr : ((s.seeMem v).start.takeForce (value.toNat.testBit 2)).beginLoad.loadImage between = (.ok (c, pins), r))
    (hm : r.running.miss = none) (hc : c.kind ≠ 2 ∨ r.image.force = false) :
    exec (.imgStart acc value v between) s = .next (State.accepted { r with
      running := s.running
      image := { r.image with st := if c.kind = 2 then .draining else .staging, staged := some c, stagedPins := pins } }) := by
  refine exec_imgStart_load (t := { r with
    image := { r.image with st := if c.kind = 2 then .draining else .staging, staged := some c, stagedPins := pins } }) h hs ha hl ?_ hm
  rw [State.startLoad_ok hr]
  refine State.forceDrain_of_no_force fun hd => hc.resolve_left fun hk => ?_
  simp [hk] at hd

theorem exec_imgAbort_loading (h : s.MgmtAccess acc) (hs : s.sec.session = true) (hl : s.loading = true)
    (hc : s.image.st ≠ .committing) :
    exec (.imgAbort acc value) s = .next ((s.takeForce (value.toNat.testBit 2)).rejectImage 0x17 0x7F).accepted := by
  rw [exec_imgAbort h, State.imgCtrl_abort_load hs (bitOf_withBits_set value rfl) hl hc, bitOf_withBits_clear value rfl]

theorem exec_imgAbort_idle (h : s.MgmtAccess acc) (hs : s.sec.session = true) (hl : s.loading = false ∨ s.image.st = .committing) :
    exec (.imgAbort acc value) s = .next (s.takeForce (value.toNat.testBit 2)).accepted := by
  rw [exec_imgAbort h, State.imgCtrl_abort_idle hs (bitOf_withBits_set value rfl) hl h.2, bitOf_withBits_clear value rfl]

end

end Sys2Proof.Machine
end

section
/-! What the commit of an image changes (R43, R45, R48, R114, R178, R212, R263, R402, R403, R568). -/

namespace Sys2Proof.Machine

/-! ## Clocks of the bays -/

/-- Only bays differ. -/
def State.OnBays (s t : State) : Prop := t = { s with bays := t.bays }

theorem State.OnBays.refl (s : State) : s.OnBays s := rfl

theorem State.OnBays.trans {a b c : State} (h : a.OnBays b) (k : b.OnBays c) : a.OnBays c := by
  unfold State.OnBays at *
  rw [k, h]

theorem State.requestStep_onBays (k mhz : Nat) (s : State) : s.OnBays (s.requestStep k mhz) := by
  unfold State.requestStep
  dsimp only
  (repeat' split) <;> rfl

theorem State.wantClock_onBays (k mhz : Nat) (s : State) : s.OnBays (s.wantClock k mhz) := by
  unfold State.wantClock
  dsimp only
  split
  · rfl
  · split <;> split
    · rfl
    · exact s.requestStep_onBays k mhz
    · rfl
    · exact s.requestStep_onBays k mhz

theorem State.parkBay_onBays (k : Nat) (s : State) : s.OnBays (s.parkBay k) := by
  unfold State.parkBay
  dsimp only
  split
  · rfl
  · split
    · rfl
    · exact s.requestStep_onBays k 0

theorem State.parkBays_onBays (s : State) : s.OnBays s.parkBays := by
  refine List.foldlRecOn _ _ (motive := s.OnBays) (.refl s) fun t ht k _ => ht.trans ?_
  dsimp only
  split
  · exact t.parkBay_onBays k
  · split
    · exact t.requestStep_onBays k _
    · exact t.wantClock_onBays k _

/-! ## Routes and queues -/

theorem State.armRoutes_eq (old : Option ImgCfg) (c p : ImgCfg) (s : State) :
    s.armRoutes old c p = { s with routes := (s.armRoutes old c p).routes } := by
  refine List.foldlRecOn (motive := fun t : State => t = { s with routes := t.routes }) _ _ rfl fun t ht r _ => ?_
  rw [ht]
  rfl

theorem State.defineQueues_eq (c : ImgCfg) (s : State) :
    s.defineQueues c = { s with ports := (s.defineQueues c).ports, queues := (s.defineQueues c).queues } := by
  refine List.foldlRecOn (motive := fun t : State => t = { s with ports := t.ports, queues := t.queues }) _ _ rfl fun t ht d _ => ?_
  rw [ht]
  rfl

/-- The queues of an image are its own, whatever ran before (R212). -/
theorem State.defineQueues_queues (c : ImgCfg) (s : State) : (s.defineQueues c).queues =
    c.queues.foldl (fun t d => tblSet t (qKey d.func d.localQ) (Queue.fresh.defaulted d)) [] :=
  (List.foldl_hom State.queues (fun _ _ => rfl)).symm

/-! ## Functions -/

/-- A function of the list is OPEN after the first image (R178). -/
theorem tblGetD_openFuncs {f : Nat} (l : List Nat) : ∀ t : Tbl Func, f ∈ l ∨ (tblGetD t f .fresh).st = .open_ →
    (tblGetD (l.foldl (fun t f => tblSet t f { tblGetD t f Func.fresh with st := .open_ }) t) f .fresh).st = .open_ := by
  induction l with
  | nil => exact fun t h => h.resolve_left List.not_mem_nil
  | cons a l ih =>
    intro t h
    refine ih _ ?_
    by_cases e : f = a
    · subst e
      exact .inr (by rw [tblGetD_tblSet_same])
    · rw [tblGetD_tblSet_ne _ _ _ _ e]
      exact h.imp_left fun h => (List.mem_cons.mp h).resolve_left e

/-! ## Banks -/

/-- The owner that an image plans for a bank: nobody outside its plan (R91, R263). -/
def ImgCfg.bankOwner (c : ImgCfg) (b : Nat) : Nat × Nat := match c.bankPlan.find? (fun e => 48 * e.bay + e.bank == b) with
  | some e => (e.kind, e.index)
  | none => (0, 0)

/-- What a bank is asked for so that an owner has it: nothing where it is its own already. -/
def Bank.request (x : Bank) (o : Nat × Nat) : Option BankReq :=
  if x.kind = o.1 ∧ x.index = o.2 then none else some ⟨o.1, o.2, false, true⟩

theorem State.planOf_committed {s : State} {c : ImgCfg} (h : s.image.committed = some c) (b : Nat) : s.planOf b = c.bankOwner b := by
  unfold State.planOf
  rw [h]
  rfl

/-- One bank of State.planBanks. -/
def State.planBank (b : Nat) (s : State) : State :=
  let p := s.planOf b
  let here := decide ((s.bank b).kind = p.1 ∧ (s.bank b).index = p.2)
  let s := s.modBank b (fun x => { x with pending := if here then none else some ⟨p.1, p.2, false, true⟩ })
  if here then s.fillPinned b else s

theorem State.planBanks_eq_forEach (bays : List Nat) (s : State) :
    s.planBanks bays = s.forEach (s.allBanks.filter (fun b => bays.contains (b / 48) && !s.fenced (b / 48))) State.planBank := rfl

/-- Only banks and their words differ. -/
def State.OnBanks (s t : State) : Prop := t = { s with banks := t.banks, bankWords := t.bankWords }

theorem State.OnBanks.trans {a b c : State} (h : a.OnBanks b) (k : b.OnBanks c) : a.OnBanks c := by
  unfold State.OnBanks at *
  rw [k, h]

/-- Pinned tables go into the words of their bank (R104). -/
theorem State.fillPinned_eq (b : Nat) (s : State) :
    s.fillPinned b = { s.setBank b { s.bank b with loaded := true } with bankWords := (s.fillPinned b).bankWords } := by
  unfold State.fillPinned
  dsimp only
  split <;> rfl

theorem State.planBank_eq (b : Nat) (s : State) :
    s.planBank b = { s.setBank b { s.bank b with
        pending := (s.bank b).request (s.planOf b)
        loaded := (s.bank b).loaded || ((s.bank b).request (s.planOf b)).isNone } with
      bankWords := (s.planBank b).bankWords } := by
  by_cases h : (s.bank b).kind = (s.planOf b).1 ∧ (s.bank b).index = (s.planOf b).2
  · have e : s.planBank b = (s.setBank b { s.bank b with pending := none }).fillPinned b := by
      simp [State.planBank, h, State.modBank_eq]
    have hr : (s.bank b).request (s.planOf b) = none := if_pos h
    rw [e, State.fillPinned_eq, State.setBank_bank_same, hr]
    simp [State.setBank, tblSet_tblSet]
  · simp [State.planBank, Bank.request, h, State.modBank_eq, State.setBank]

theorem State.planBank_onBanks (b : Nat) (s : State) : s.OnBanks (s.planBank b) := by
  rw [State.OnBanks, State.planBank_eq]
  rfl

theorem State.planBank_planOf (b b' : Nat) (s : State) : (s.planBank b).planOf b' = s.planOf b' := by
  rw [s.planBank_onBanks b]
  rfl

theorem State.planBank_bank_same (b : Nat) (s : State) : ∃ l, (s.planBank b).bank b =
    { s.bank b with pending := (s.bank b).request (s.planOf b), loaded := l } := by
  refine ⟨(s.bank b).loaded || ((s.bank b).request (s.planOf b)).isNone, ?_⟩
  rw [State.planBank_eq]
  exact State.setBank_bank_same ..

theorem State.planBank_bank_other {b b' : Nat} (s : State) (h : b' ≠ b) : (s.planBank b).bank b' = s.bank b' := by
  rw [State.planBank_eq]
  exact State.setBank_bank_other _ _ _ _ h

theorem State.planBank_request (b b' : Nat) (o : Nat × Nat) (s : State) :
    ((s.planBank b).bank b').request o = (s.bank b').request o := by
  by_cases e : b' = b
  · subst e
    obtain ⟨l, h⟩ := s.planBank_bank_same b'
    rw [h]
    rfl
  · rw [s.planBank_bank_other e]

theorem State.forEach_planBank_onBanks (l : List Nat) (s : State) : s.OnBanks (s.forEach l State.planBank) :=
  List.foldlRecOn (motive := s.OnBanks) _ _ rfl fun t ht b _ => ht.trans (t.planBank_onBanks b)

/-- A bank of the list ends with the request for the owner that the committed image plans (R263). -/
theorem State.forEach_planBank_pending {b : Nat} (l : List Nat) : ∀ s : State,
    b ∈ l ∨ (s.bank b).pending = (s.bank b).request (s.planOf b) →
    ((s.forEach l State.planBank).bank b).pending = (s.bank b).request (s.planOf b) := by
  induction l with
  | nil => exact fun s h => h.resolve_left List.not_mem_nil
  | cons a l ih =>
    intro s h
    rw [← s.planBank_request a b, ← s.planBank_planOf a b]
    refine ih (s.planBank a) ?_
    rw [s.planBank_request a b, s.planBank_planOf a b]
    by_cases e : b = a
    · subst e
      obtain ⟨x, hx⟩ := s.planBank_bank_same b
      exact .inr (by rw [hx])
    · rw [s.planBank_bank_other e]
      exact h.imp_left fun h => (List.mem_cons.mp h).resolve_left e

theorem State.planBanks_onBanks (bays : List Nat) (s : State) : s.OnBanks (s.planBanks bays) := by
  rw [State.planBanks_eq_forEach]
  exact s.forEach_planBank_onBanks _

theorem State.planBanks_pending {s : State} {bays : List Nat} {b : Nat} (hb : b ∈ s.allBanks) (hk : b / 48 ∈ bays)
    (hf : s.fenced (b / 48) = false) : ((s.planBanks bays).bank b).pending = (s.bank b).request (s.planOf b) := by
  rw [State.planBanks_eq_forEach]
  exact State.forEach_planBank_pending _ s (.inl (by simp [List.mem_filter, hb, hk, hf]))

/-! ## The heat key -/

theorem State.frameEvent_eq (kind detail : Nat) (s : State) :
    s.frameEvent kind detail = { s with notify := (s.frameEvent kind detail).notify } := by
  unfold State.frameEvent
  dsimp only
  (repeat' split) <;> rfl

/-- Only what a draw from the DRBG can touch differs: keys, and the log and event of a failed test (R511). -/
def State.OnKeys (s t : State) : Prop :=
  t = { s with heat := t.heat, sec := t.sec, frameLog := t.frameLog, units := t.units, notify := t.notify }

theorem State.OnKeys.trans {a b c : State} (h : a.OnKeys b) (k : b.OnKeys c) : a.OnKeys c := by
  unfold State.OnKeys at *
  rw [k, h]

/-- With no load in progress, entry to CRYPTO_ERROR has none to reject (R511, R573). -/
theorem State.cryptoError_onKeys {s : State} (cause : Nat) (h : s.loading = false) : s.OnKeys (s.cryptoError cause) := by
  unfold State.cryptoError
  split
  · rfl
  · dsimp only
    rw [State.stopLoad_of_not_loading]
    · rw [State.OnKeys, State.frameEvent_eq, State.logFrame_eq]
    · rw [State.frameEvent_eq, State.logFrame_eq]
      exact h

theorem State.drbgGen_onKeys {s t : State} {n : Nat} {o : Option Bytes} (e : s.drbgGen n = (o, t)) (h : s.loading = false) :
    s.OnKeys t := by
  have ht : s.OnKeys (s.drbgGen n).2 := by
    unfold State.drbgGen
    split
    · rfl
    · split
      · exact State.OnKeys.trans (b := { s with sec := { s.sec with armed := none } }) rfl (State.cryptoError_onKeys 3 h)
      · rfl
  rwa [e] at ht

theorem State.newHeat_onKeys {s : State} (c : ImgCfg) (h : s.loading = false) : s.OnKeys (s.newHeat c) := by
  have heat (x : Heat) : s.OnKeys { s with heat := x } := rfl
  have sec (t : State) (x : Sec) : t.OnKeys { t with sec := x } := rfl
  unfold State.newHeat
  dsimp only
  split
  · rename_i e
    exact ((heat _).trans (State.drbgGen_onKeys e h)).trans (sec _ _)
  · rename_i e
    exact (heat _).trans (State.drbgGen_onKeys e h)

/-! ## WALK at the commit -/

theorem State.relays_of_no_streams {s : State} (h : s.openStreams = []) : s.relays = s := by
  have hn : s.nextRelay [] = none := by simp [State.nextRelay, h]
  unfold State.relays
  cases s.relayFuel with
  | zero => rfl
  | succ n => rw [State.relaySettle, hn]

theorem State.walkAtCommit_of_cool {s : State} (h : ∀ d, d < s.caps.dies → (s.thermal d).level ≠ 4) : s.walkAtCommit = s :=
  if_neg (by simpa using h)

/-- The frame itself enters WALK with a first cause, and the entry is counted (R528, R530). -/
def State.enterWalk (c : Nat) (s : State) : State :=
  State.count 0 0 2 1 { s with frame := { s.frame.addCause c with st := .walk, walkFirst := c } }

/-- With no load in progress and no stream open, entry to WALK is that and its event. -/
theorem State.walkCause_of_done {s : State} (c : Nat) (hr : s.frame.st = .running) (hi : s.image.st = .done) (ho : s.openStreams = []) :
    s.walkCause c = (s.enterWalk c).frameEvent 1 (s.enterWalk c).frame.walkBits := by
  have hl : (s.enterWalk c).loading = false := by simp [State.enterWalk, State.loading, hi]
  have hs : ((s.enterWalk c).frameEvent 1 (s.enterWalk c).frame.walkBits).openStreams = [] := by
    rw [State.frameEvent_eq]
    exact ho
  rw [State.walkCause, hr]
  change (let w := if (s.enterWalk c).image.st != .committing then (s.enterWalk c).stopLoad 0x14 else s.enterWalk c
    let w := w.frameEvent 1 w.frame.walkBits
    (w.forEach w.openStreams (fun p => State.walkStream p.1 p.2.1)).relays) = _
  rw [State.stopLoad_of_not_loading _ hl, ite_self]
  dsimp only
  rw [hs]
  exact State.relays_of_no_streams hs

theorem State.walkAtCommit_of_hot {s : State} (h : ∃ d, d < s.caps.dies ∧ (s.thermal d).level = 4) (hr : s.frame.st = .running)
    (hi : s.image.st = .done) (ho : s.openStreams = []) :
    s.walkAtCommit.image = s.image ∧ s.walkAtCommit.frame = { s.frame.addCause 1 with st := .walk, walkFirst := 1 } := by
  have hw : s.walkAtCommit = s.walkCause 1 := if_pos (by simpa using h)
  rw [hw, State.walkCause_of_done 1 hr hi ho, State.frameEvent_eq]
  exact ⟨rfl, rfl⟩

/-! ## The commit -/

/-- The first part of a commit: the image is the committed one, with its queues and, the first time, every function OPEN (R114, R178,
R212). -/
def State.install (p c : ImgCfg) (s : State) : State :=
  let w : State := { s with
    image := { s.image with
      st := .done, staged := none, committed := some c, digest := p.digest, pinned := s.image.stagedPins, stagedPins := [],
      graphDigests := c.graphs.foldl (fun t g => tblSet t g.num (c.graphDigest s.image.stagedPins g)) [] },
    frame := { s.frame with committed := true, st := if s.frame.st == .ready then .running else s.frame.st } }
  let w := if p.kind == 1 then w.defineQueues c else w
  if s.image.committed.isNone then { w with funcs := (List.range w.caps.funcs).foldl (fun t f =>
    tblSet t f { tblGetD t f Func.fresh with st := .open_ }) w.funcs } else w

/-- The second part: routes, banks, clocks and the heat key (R43, R45, R48, R64, R263, R403). -/
def State.rearm (old : Option ImgCfg) (p c : ImgCfg) (s : State) : State :=
  let w := (s.armRoutes old c p).planBanks
    (if p.kind == 1 then List.range (s.armRoutes old c p).nBays else (List.range 64).filter (fun k => hasBit p.patchBays k))
  State.newHeat c (if p.kind == 1 then w.parkBays.wantClock 64 c.platform.ctrlMhz else w.parkBays)

theorem execImageCommit.commit_eq (p c : ImgCfg) (s : State) :
    execImageCommit.commit p c s =
      if s.frame.st == .ready then ((s.install p c).rearm s.image.committed p c).walkAtCommit
      else (s.install p c).rearm s.image.committed p c := rfl

theorem State.install_eq (p c : ImgCfg) (s : State) : s.install p c = { s with
    image := { s.image with
      st := .done, staged := none, committed := some c, digest := p.digest, pinned := s.image.stagedPins, stagedPins := [],
      graphDigests := (s.install p c).image.graphDigests }
    frame := { s.frame with committed := true, st := if s.frame.st == .ready then .running else s.frame.st }
    queues := if p.kind == 1 then (s.defineQueues c).queues else s.queues
    ports := (s.install p c).ports
    funcs := (s.install p c).funcs } := by
  unfold State.install
  dsimp only
  split <;> split
  · rw [State.defineQueues_eq, State.defineQueues_queues, State.defineQueues_queues]
  · rfl
  · rw [State.defineQueues_eq, State.defineQueues_queues, State.defineQueues_queues]
  · rfl

theorem State.install_open {p c : ImgCfg} {s : State} (h : s.image.committed = none) {f : Nat} (hf : f < s.caps.funcs) :
    ((s.install p c).func f).st = .open_ := by
  unfold State.install
  rw [h]
  refine tblGetD_openFuncs _ _ (.inl ?_)
  rw [List.mem_range]
  split
  · rw [State.defineQueues_eq]
    exact hf
  · exact hf

/-- Only what the second part of a commit can touch differs. -/
def State.OnSilicon (s t : State) : Prop :=
  t = { s with
    routes := t.routes, banks := t.banks, bankWords := t.bankWords, bays := t.bays, heat := t.heat, sec := t.sec,
    frameLog := t.frameLog, units := t.units, notify := t.notify }

section
variable {a b c : State}

theorem State.OnSilicon.trans (h : a.OnSilicon b) (k : b.OnSilicon c) : a.OnSilicon c := by
  unfold State.OnSilicon at *
  rw [k, h]

theorem State.OnBays.onSilicon (h : a.OnBays b) : a.OnSilicon b := by
  unfold State.OnBays at h
  rw [State.OnSilicon, h]

theorem State.OnBanks.onSilicon (h : a.OnBanks b) : a.OnSilicon b := by
  unfold State.OnBanks at h
  rw [State.OnSilicon, h]

theorem State.OnKeys.onSilicon (h : a.OnKeys b) : a.OnSilicon b := by
  unfold State.OnKeys at h
  rw [State.OnSilicon, h]

theorem State.OnSilicon.loading (h : a.OnSilicon b) : b.loading = a.loading := by
  unfold State.OnSilicon at h
  rw [h]
  rfl

end

theorem State.armRoutes_onSilicon (old : Option ImgCfg) (c p : ImgCfg) (s : State) : s.OnSilicon (s.armRoutes old c p) := by
  rw [State.OnSilicon, State.armRoutes_eq]

section
variable {old : Option ImgCfg} {p c : ImgCfg} {s : State}

/-- After its banks are planned, a commit turns to clocks and then to the heat key; a full image plans the banks of every bay. -/
theorem State.rearm_steps (h : s.loading = false) : ∃ bays w, (p.kind = 1 → bays = List.range s.nBays) ∧
    ((s.armRoutes old c p).planBanks bays).OnBays w ∧ w.OnKeys (s.rearm old p c) := by
  let bays := if p.kind == 1 then List.range (s.armRoutes old c p).nBays else (List.range 64).filter (fun k => hasBit p.patchBays k)
  let u := (s.armRoutes old c p).planBanks bays
  have hu : u.OnBays (if p.kind == 1 then u.parkBays.wantClock 64 c.platform.ctrlMhz else u.parkBays) := by
    split
    · exact u.parkBays_onBays.trans (State.wantClock_onBays ..)
    · exact u.parkBays_onBays
  refine ⟨bays, _, fun hp => ?_, hu, State.newHeat_onKeys c ?_⟩
  · have hn : (s.armRoutes old c p).nBays = s.nBays := by rw [State.armRoutes_eq]; rfl
    simp [bays, hp, hn]
  · rw [(((s.armRoutes_onSilicon old c p).trans (State.planBanks_onBanks bays _).onSilicon).trans hu.onSilicon).loading, h]

theorem State.rearm_onSilicon (h : s.loading = false) : s.OnSilicon (s.rearm old p c) := by
  obtain ⟨bays, w, -, hb, hk⟩ := State.rearm_steps (old := old) (p := p) (c := c) h
  exact (((s.armRoutes_onSilicon old c p).trans (State.planBanks_onBanks bays _).onSilicon).trans hb.onSilicon).trans hk.onSilicon

theorem State.rearm_pending (h : s.loading = false) (hp : p.kind = 1) (hc : s.image.committed = some c) {b : Nat}
    (hb : b ∈ s.allBanks) (hk : b / 48 < s.nBays) (hf : s.fenced (b / 48) = false) :
    ((s.rearm old p c).bank b).pending = (s.bank b).request (c.bankOwner b) := by
  obtain ⟨bays, w, hr, hbays, hkeys⟩ := State.rearm_steps (old := old) (p := p) (c := c) h
  have hbank : (s.rearm old p c).bank b = ((s.armRoutes old c p).planBanks bays).bank b := by
    rw [hkeys, hbays]
    rfl
  rw [hbank, hr hp, ← State.planOf_committed hc, State.planBanks_pending]
  · rw [State.armRoutes_eq]
    rfl
  · rw [State.armRoutes_eq]
    exact hb
  · exact List.mem_range.mpr hk
  · rw [State.armRoutes_eq]
    exact hf

end

/-! ## What has been committed -/

/-- What a commit leaves before the frame may enter WALK (R114). -/
structure State.Committed (p c : ImgCfg) (s t : State) : Prop where
  image : t.image = { s.image with
    st := .done, staged := none, committed := some c, digest := p.digest, pinned := s.image.stagedPins, stagedPins := [],
    graphDigests := t.image.graphDigests }
  frame : t.frame = { s.frame with committed := true, st := if s.frame.st == .ready then .running else s.frame.st }
  queues : t.queues = if p.kind == 1 then (s.defineQueues c).queues else s.queues
  funcs : s.image.committed = none → ∀ f, f < s.caps.funcs → (t.func f).st = .open_
  banks : p.kind = 1 → ∀ b ∈ s.allBanks, b / 48 < s.nBays → s.fenced (b / 48) = false →
    (t.bank b).pending = (s.bank b).request (c.bankOwner b)
  rest : State.OnSilicon { s with image := t.image, frame := t.frame, queues := t.queues, ports := t.ports, funcs := t.funcs } t

theorem State.Committed.of_install_rearm (p c : ImgCfg) (s : State) :
    s.Committed p c ((s.install p c).rearm s.image.committed p c) := by
  have hi := s.install_eq p c
  have hl : (s.install p c).loading = false := by
    rw [hi]
    simp [State.loading]
  have hr := State.rearm_onSilicon (old := s.image.committed) (p := p) (c := c) hl
  generalize ht : (s.install p c).rearm s.image.committed p c = t at hr ⊢
  have himage : t.image = (s.install p c).image := by rw [hr]
  have hframe : t.frame = (s.install p c).frame := by rw [hr]
  have hqueues : t.queues = (s.install p c).queues := by rw [hr]
  refine ⟨?_, ?_, ?_, fun hn f hf => ?_, fun hp b hb hk hf => ?_, ?_⟩
  · rw [himage, hi]
  · rw [hframe, hi]
  · rw [hqueues, hi]
  · have hfunc : t.func f = (s.install p c).func f := by rw [hr]; rfl
    rw [hfunc, State.install_open hn hf]
  · rw [← ht, State.rearm_pending hl hp]
    all_goals rw [hi]
    · rfl
    · exact hb
    · exact hk
    · exact hf
  · rw [State.OnSilicon, hr, hi]

theorem execImageCommit.commit_committed (p c : ImgCfg) (s : State) :
    ∃ t, s.Committed p c t ∧ execImageCommit.commit p c s = if s.frame.st == .ready then t.walkAtCommit else t :=
  ⟨_, .of_install_rearm p c s, execImageCommit.commit_eq p c s⟩

section
variable {p c : ImgCfg} {s t : State} (h : s.Committed p c t)
include h

theorem State.Committed.therm : t.therm = s.therm := by rw [h.rest]

theorem State.Committed.caps : t.caps = s.caps := by rw [h.rest]

theorem State.Committed.streams : t.streams = s.streams := by rw [h.rest]

end

/-- The frame is RUNNING after the commit: it was so, or it was READY with no die at throttle level 4 (R114, R568). -/
theorem exec_commit_running {p : ImgCfg} (c : ImgCfg) {s : State}
    (h : s.frame.st = .running ∨ (s.frame.st = .ready ∧ ∀ d, d < s.caps.dies → (s.thermal d).level ≠ 4)) :
    s.Committed p c (execImageCommit.commit p c s) ∧ (execImageCommit.commit p c s).frame.st = .running := by
  obtain ⟨t, ht, e⟩ := execImageCommit.commit_committed p c s
  have hcommit : execImageCommit.commit p c s = t := by
    rw [e]
    rcases h with hr | ⟨hr, hcool⟩
    · simp [hr]
    · rw [hr]
      refine State.walkAtCommit_of_cool fun d hd => ?_
      rw [State.thermal, ht.therm]
      exact hcool d (ht.caps ▸ hd)
  rw [hcommit]
  refine ⟨ht, ?_⟩
  rw [ht.frame]
  rcases h with hr | ⟨hr, -⟩ <;> simp [hr]

/-- R568. -/
theorem exec_commit_walk {p : ImgCfg} (c : ImgCfg) {s : State} (hr : s.frame.st = .ready) (ho : s.openStreams = [])
    (hhot : ∃ d, d < s.caps.dies ∧ (s.thermal d).level = 4) :
    ∃ t, s.Committed p c t ∧ (execImageCommit.commit p c s).image = t.image ∧
      (execImageCommit.commit p c s).frame = { t.frame.addCause 1 with st := .walk, walkFirst := 1 } := by
  obtain ⟨t, ht, e⟩ := execImageCommit.commit_committed p c s
  have hcommit : execImageCommit.commit p c s = t.walkAtCommit := by
    rw [e, hr]
    rfl
  rw [hcommit]
  refine ⟨t, ht, State.walkAtCommit_of_hot ?_ ?_ ?_ ?_⟩
  · rw [ht.caps]
    unfold State.thermal
    rw [ht.therm]
    exact hhot
  · rw [ht.frame, hr]
    rfl
  · rw [ht.image]
  · unfold State.openStreams
    rw [ht.streams]
    exact ho

/-! ## IMAGE_COMMIT -/

section
variable {s : State} {p : ImgCfg}

theorem exec_imageCommit_none (h : s.frame.st = .fatal ∨ (s.image.st ≠ .staging ∧ s.image.st ≠ .draining)) :
    exec .imageCommit s = .next s := by
  change execImageCommit s = .next s
  rw [execImageCommit]
  rcases h with hf | ⟨hs, hd⟩
  · rw [hf]
    rfl
  · split
    · rfl
    · split
      · exact absurd ‹_› hs
      · exact absurd ‹_› hd
      · rfl

/-- A staged image waits for its routes (R48, R64). -/
theorem exec_imageCommit_staging (hf : s.frame.st ≠ .fatal) (hb : s.sec.selftestBusy = false) (hz : s.sec.zeroising = false)
    (hp : s.image.staged = some p) (hs : s.image.st = .staging) (hl : s.loadAllowed 1 = true) :
    exec .imageCommit s = if s.routesSettled p p then .next (execImageCommit.commit p p s) else .next s := by
  change execImageCommit s = _
  rw [execImageCommit, hs, hp]
  cases hr : s.routesSettled p p <;> simp [hf, hb, hz, hl, hr]

/-- A draining patch waits for the streams that it affects and for its routes (R64, R113). -/
theorem exec_imageCommit_draining {base : ImgCfg} (hf : s.frame.st ≠ .fatal) (hb : s.sec.selftestBusy = false)
    (hz : s.sec.zeroising = false) (hp : s.image.staged = some p) (hd : s.image.st = .draining) (hn : s.image.force = false)
    (hc : s.image.committed = some base) :
    exec .imageCommit s =
      if s.openStreams.any (fun x => s.patchAffects (s.graphOf x.2.2)) || !s.routesSettled p (s.toStand p) then .next s
      else .next (execImageCommit.commit p (s.toStand p) s) := by
  have hforce : s.forceDrain = s := State.forceDrain_of_no_force fun _ => hn
  change execImageCommit s = _
  rw [execImageCommit, hd, hp, hforce, if_neg (by simpa using hf)]
  dsimp only
  rw [hb, hz, hc, Option.isNone_some, Bool.or_false, Bool.or_false, Bool.false_or]

theorem State.toStand_patch {base : ImgCfg} (hc : s.image.committed = some base) (hk : p.kind = 2) : s.toStand p = p.over base := by
  rw [State.toStand, hc]
  exact if_pos hk

end

section
variable {s : State} {p : ImgCfg}

/-- A staged full image becomes the committed one, and the frame runs (R114). -/
theorem exec_imageCommit_full (hf : s.frame.st ≠ .fatal) (hb : s.sec.selftestBusy = false) (hz : s.sec.zeroising = false)
    (hp : s.image.staged = some p) (hs : s.image.st = .staging) (hl : s.loadAllowed 1 = true) (hr : s.routesSettled p p = true)
    (hst : s.frame.st = .running ∨ (s.frame.st = .ready ∧ ∀ d, d < s.caps.dies → (s.thermal d).level ≠ 4)) :
    ∃ t, exec .imageCommit s = .next t ∧ s.Committed p p t ∧ t.frame.st = .running :=
  ⟨_, (exec_imageCommit_staging hf hb hz hp hs hl).trans (if_pos hr), exec_commit_running p hst⟩

/-- A patch is committed over the base image in the same way (R113, R114). -/
theorem exec_imageCommit_patch {base : ImgCfg} (hf : s.frame.st ≠ .fatal) (hb : s.sec.selftestBusy = false)
    (hz : s.sec.zeroising = false) (hp : s.image.staged = some p) (hd : s.image.st = .draining) (hn : s.image.force = false)
    (hc : s.image.committed = some base) (ha : ∀ x ∈ s.openStreams, s.patchAffects (s.graphOf x.2.2) = false)
    (hr : s.routesSettled p (p.over base) = true) (hk : p.kind = 2) (hst : s.frame.st = .running) :
    ∃ t, exec .imageCommit s = .next t ∧ s.Committed p (p.over base) t ∧ t.frame.st = .running := by
  have hany : s.openStreams.any (fun x => s.patchAffects (s.graphOf x.2.2)) = false := by simpa using ha
  refine ⟨_, ?_, exec_commit_running (p.over base) (.inl hst)⟩
  rw [exec_imageCommit_draining hf hb hz hp hd hn hc, State.toStand_patch hc hk, hany, hr]
  rfl

end

/-- Settles O52: a write of IMG_CTRL by the case of its load (State.imgCtrl_session), a commit by what its steps leave
(State.Committed). REFUSED of IMG_CTRL without a session (log 81), DETAIL and SECTION cleared at START (log 117) and every function
OPEN after the first image (log 138) are the model's choices. -/
theorem imagesLoadAndCommit : Obligations.ImagesLoadAndCommit := by
  refine ⟨fun acc value v between s h => ⟨fun hs => ⟨exec_imgStart_no_session h hs, exec_imgAbort_no_session h hs⟩,
    fun hs ha hl => ⟨fun d sect r hr hm => ?_, fun c pins r hr hm hc => exec_imgStart_staged h hs ha hl hr hm hc⟩,
    fun hs ha hl hd => exec_imgStart_loading h hs ha hl hd,
    fun hs hl hc => ?_, fun hs hl => exec_imgAbort_idle h hs hl⟩,
    fun s p => ⟨exec_imageCommit_none, fun hf hb hz hp => ⟨fun hs hl hr => ?_, fun hs hk hl hr hready ho hhot => ?_,
      fun hs hk hl hr hst => ?_, fun base hd hn hc => ⟨fun ⟨x, hx, hax⟩ => ?_, fun hr => ?_, fun ha hr hk hst => ?_⟩⟩⟩⟩
  · refine ⟨_, exec_imgStart_rejected h hs ha hl hr hm, r.rejectImage_image d sect, ?_⟩
    rw [State.rejectImage_eq]
    rfl
  · refine ⟨_, exec_imgAbort_loading h hs hl hc, State.rejectImage_image .., ?_⟩
    rw [State.rejectImage_eq]
    rfl
  · rw [exec_imageCommit_staging hf hb hz hp hs hl, hr]
    rfl
  · obtain ⟨t, ht, himage, hframe⟩ := exec_commit_walk p (p := p) hready ho hhot
    refine ⟨_, (exec_imageCommit_staging hf hb hz hp hs hl).trans (if_pos hr), ?_⟩
    rw [himage, hframe, ht.image, ht.frame]
    simp [Frame.addCause]
  · obtain ⟨t, e, ht, hrun⟩ := exec_imageCommit_full hf hb hz hp hs hl hr hst
    refine ⟨t, e, ?_, ?_, ?_, ?_, ?_, ?_, hrun, ?_, ?_, ?_, ?_, ht.streams, ht.funcs, ht.banks hk⟩
    · rw [ht.image]
    · rw [ht.image]
    · rw [ht.image]
    · rw [ht.image]
    · rw [ht.image]
    · rw [ht.frame]
    · simp [ht.queues, hk]
    · rw [ht.rest]
    · rw [ht.rest]
    · rw [ht.rest]
  · rw [exec_imageCommit_draining hf hb hz hp hd hn hc]
    exact if_pos (by simp only [Bool.or_eq_true, List.any_eq_true]; exact .inl ⟨x, hx, hax⟩)
  · rw [exec_imageCommit_draining hf hb hz hp hd hn hc, hr]
    exact if_pos (Bool.or_true _)
  · obtain ⟨t, e, ht, hrun⟩ := exec_imageCommit_patch hf hb hz hp hd hn hc ha hr hk hst
    refine ⟨t, e, ?_, ?_, ?_, hrun, ?_, ht.streams, ?_, ?_⟩
    · rw [ht.image]
    · rw [ht.image]
    · rw [ht.image]
    · simp [ht.queues, hk]
    · rw [ht.rest]
    · rw [ht.rest]

end Sys2Proof.Machine
end

section
/-! What reset leaves, and what por_n and test_mode restore (R5, R154, R163, R165, R167). -/

namespace Sys2Proof.Machine

theorem exec_porAssert (s : State) :
    exec .porAssert s = .next { State.resetWith s.caps s.pending s.freeCtr s.mem s.resp with
      pins := { Pins.fresh with zeroise := s.pins.zeroise } } := rfl

/-- The keys go before all else, and the reset that follows leaves none either (R163, R165). -/
theorem exec_testModeEntry {s : State} (h : s.pins.testMode = false) :
    exec .testModeEntry s = .next { State.resetWith s.caps s.pending s.freeCtr s.mem s.resp with
      pins := { Pins.fresh with
        porN := s.pins.porN, testMode := true, zeroise := s.pins.zeroise, dieIso := s.pins.dieIso, dieIsoDone := s.pins.dieIsoDone },
      frame := { Frame.fresh with st := if s.pins.porN then .boot else .reset },
      pace := { Pacer.fresh with counting := s.pins.porN } } := by
  simp only [exec, execTestModeEntry, h]
  rfl

theorem exec_porRelease {s : State} (h : s.pins.porN = false) :
    exec .porRelease s = .next { s with
      pins := { s.pins with porN := true },
      frame := { s.frame with st := .boot },
      pace := { s.pace with counting := true, time := 0 } } := by
  simp only [exec, execPorRelease, h]
  rfl

/-- Settles O3: what each table of the reset state reads is the default of its absent entries, and the three commands of a reset give the
states they name. -/
theorem resetLeavesAndRestoresAll : Obligations.ResetLeavesAndRestoresAll := by
  refine ⟨rfl, fun c => ?_, fun s => ⟨exec_porAssert s, exec_testModeEntry, exec_porRelease⟩⟩
  simp only [State.resetOn, State.resetWith, Frame.fresh, Pins.fresh, Pacer.fresh, Sec.fresh, Image.fresh, LogRing.fresh,
    State.openStreams, State.allQueues, List.filter_nil, List.map_nil, true_and]
  exact ⟨fun _ => rfl, fun _ => rfl⟩

end Sys2Proof.Machine
end

section
/-! Bring-up of the dies and the start-up tests (R172 to R174, R503 to R505, R511). -/

namespace Sys2Proof.Machine

/-! ## Boundaries and dies -/

/-- The boundaries of a frame as the adapters' link-up levels leave them (R172). -/
def State.linkDies (linkUp : BitVec 4) (s : State) : State := { s with
  bounds := (boundariesOf s.caps.dies).foldl (fun t b => tblSet t b.1 ⟨linkUp.getLsbD b.1, !linkUp.getLsbD b.1, []⟩) [],
  frame := { s.frame with diesUp := List.range s.caps.dies } }

/-- With every link up and no die isolated every boundary of the frame is up. -/
theorem State.linkDies_boundaryUp {s : State} (h4 : s.caps.dies ≤ 4) (hi : s.pins.dieIso = []) {b : Nat × Nat × Nat}
    (hb : b ∈ boundariesOf s.caps.dies) : (s.linkDies 15#4).boundaryUp b.1 = true := by
  have hlinks : ∀ b ∈ boundariesOf s.caps.dies, ((s.linkDies 15#4).boundary b.1).linkUp = true ∧
      ((s.linkDies 15#4).boundary b.1).down = false := by
    simp only [State.boundary, State.linkDies]
    generalize s.caps.dies = d at h4
    interval_cases d <;> decide
  obtain ⟨hl, hd⟩ := hlinks b hb
  have hpins : (s.linkDies 15#4).pins.dieIso = [] := hi
  rw [State.boundaryUp, hl, hd, hpins]
  rfl

/-- With every boundary up every die has a path to die 0 (R84). -/
theorem State.linkDies_reach {s : State} (h1 : 1 ≤ s.caps.dies) (h4 : s.caps.dies ≤ 4) (hi : s.pins.dieIso = []) :
    (s.linkDies 15#4).reach = List.range s.caps.dies := by
  have hup : (boundariesOf (s.linkDies 15#4).caps.dies).filter (fun x => (s.linkDies 15#4).boundaryUp x.1) = boundariesOf s.caps.dies :=
    List.filter_eq_self.mpr fun b hb => State.linkDies_boundaryUp h4 hi hb
  have hdies : (s.linkDies 15#4).caps.dies = s.caps.dies := rfl
  unfold State.reach
  rw [hup, hdies]
  generalize s.caps.dies = d at h1 h4 ⊢
  interval_cases d <;> decide

/-- No die is cut off then. -/
theorem State.linkDies_isolateUnreachable {s : State} (h1 : 1 ≤ s.caps.dies) (h4 : s.caps.dies ≤ 4) (hi : s.pins.dieIso = []) :
    (s.linkDies 15#4).isolateUnreachable = s.linkDies 15#4 := by
  have hnone : (s.linkDies 15#4).frame.diesUp.filter (fun d => !(s.linkDies 15#4).reach.contains d) = [] := by
    rw [State.linkDies_reach h1 h4 hi]
    exact List.filter_eq_nil_iff.mpr fun d hd => by simpa [State.linkDies] using hd
  unfold State.isolateUnreachable
  dsimp only
  rw [hnone]
  rfl

/-! ## Noise samples and the DRBG -/

/-- Only what the health tests keep of the noise source, the DRBG and the session nonce differ. -/
def State.OnNoise (s t : State) : Prop :=
  t = { s with sec := { s.sec with noise := t.sec.noise, armPos := t.sec.armPos, drbg := t.sec.drbg, nonce := t.sec.nonce } }

theorem State.OnNoise.trans {a b c : State} (h : a.OnNoise b) (k : b.OnNoise c) : a.OnNoise c := by
  unfold State.OnNoise at *
  rw [k, h]

/-- The health tests of the noise source after some samples (R503). -/
def Noise.after (n : Noise) (l : List Bool) : Noise := l.foldl (fun n b => (n.step b).1) n

theorem noisePasses_append (a b : List Bool) (n : Noise) :
    noisePasses n (a ++ b) = (noisePasses n a && noisePasses (n.after a) b) := by
  induction a generalizing n with
  | nil => rfl
  | cons x a ih => simp only [List.cons_append, noisePasses, ih, Bool.and_assoc]; rfl

/-- Samples that pass, with no failure armed, leave the health tests where they come to (R503). -/
theorem State.noiseRun_passes {s : State} (ha : s.sec.armed = none) {l : List Bool} (h : noisePasses s.sec.noise l = true) :
    ∃ t, s.noiseRun l = (none, t) ∧ s.OnNoise t ∧ t.sec.noise = s.sec.noise.after l := by
  induction l generalizing s with
  | nil => exact ⟨s, rfl, rfl, rfl⟩
  | cons b l ih =>
    simp only [noisePasses, Bool.and_eq_true, Option.isNone_iff_eq_none] at h
    obtain ⟨hb, hl⟩ := h
    have hbit : s.sec.armedBit b = b := by simp [Sec.armedBit, ha]
    obtain ⟨t, e, ht, hn⟩ := ih (s := { s with sec := { s.sec with noise := (s.sec.noise.step b).1, armPos := 0 } }) ha hl
    refine ⟨t, ?_, State.OnNoise.trans (b := { s with sec := { s.sec with noise := (s.sec.noise.step b).1, armPos := 0 } }) rfl ht, hn⟩
    simpa [State.noiseRun, hbit, hb, ha] using e

/-- The DRBG gives a fresh nonce and goes on, with no failure of it armed (R493, R504). -/
theorem State.freshNonce_onNoise {s : State} {d : Drbg} (hd : s.sec.drbg = some d) (ha : s.sec.armed = none) :
    s.OnNoise s.freshNonce ∧ s.freshNonce.sec.drbg.isSome = true := by
  have hg : ∃ o x, s.drbgGen 32 = (some o, { s with sec := { s.sec with drbg := some x } }) := by
    unfold State.drbgGen
    rw [hd]
    dsimp only
    rw [if_neg (by simp [ha])]
    exact ⟨_, _, rfl⟩
  obtain ⟨o, x, e⟩ := hg
  unfold State.freshNonce
  rw [e]
  exact ⟨rfl, rfl⟩

/-- Where every sample passes, and no failure of the DRBG is armed, it is instantiated (R493, R504). -/
theorem State.drbgStart_passes {s : State} (ha : s.sec.armed = none) {l : List Bool} (h : noisePasses s.sec.noise l = true) :
    s.OnNoise (s.drbgStart l) ∧ (s.drbgStart l).sec.drbg.isSome = true := by
  obtain ⟨t, e, ht, -⟩ := State.noiseRun_passes ha h
  have hat : t.sec.armed = none := by rw [ht]; exact ha
  unfold State.drbgStart State.drbgInit
  rw [e]
  dsimp only
  generalize drbgInstantiate _ _ _ = p
  obtain ⟨hf, hd⟩ := State.freshNonce_onNoise (s := { t with sec := { t.sec with drbg := some ⟨p.1, p.2, 0⟩ } }) rfl hat
  exact ⟨ht.trans (State.OnNoise.trans (b := { t with sec := { t.sec with drbg := some ⟨p.1, p.2, 0⟩ } }) rfl hf), hd⟩

/-- Tests 1 and 2 of start-up pass with no known-answer test failing (R173). -/
theorem State.preTestsRun_passes {s : State} (ha : s.sec.armed = none) {l : List Bool} (h : noisePasses s.sec.noise (l.take 1024) = true) :
    ∃ t, s.preTestsRun none l = (none, t) ∧ s.OnNoise t ∧ t.sec.noise = s.sec.noise.after (l.take 1024) := by
  have hkat : s.sec.katFailure none = none := by simp [Sec.katFailure, ha]
  unfold State.preTestsRun
  rw [hkat]
  exact State.noiseRun_passes ha h

/-- The known-answer test that fails gives the cause (R505, R511). -/
theorem State.preTestsRun_fails {s : State} (ha : s.sec.armed = none) {k : BitVec 4} (h1 : 1 ≤ k.toNat) (h10 : k.toNat ≤ 10) (l : List Bool) :
    s.preTestsRun (some k) l = (some (0x10 + k.toNat), s) := by
  have hkat : s.sec.katFailure (some k) = some k.toNat := by simp [Sec.katFailure, ha, h1, h10]
  unfold State.preTestsRun
  rw [hkat]
  simp only [ha, reduceCtorEq, if_false]
  rw [← ha]

/-- Entry to CRYPTO_ERROR (R511): its cause stands, every key and the DRBG are gone, no session is open. -/
theorem State.cryptoError_sec {s : State} (cause : Nat) (h : s.sec.cryptoError = false) :
    (s.cryptoError cause).sec = { s.sec.zeroise with cryptoError := true, errCause := cause, session := false } := by
  unfold State.cryptoError
  rw [if_neg (by simp [h])]
  exact (((State.logFrame_calm ..).trans (State.frameEvent_calm ..)).trans (State.stopLoad_calm ..)).sec

/-! ## DIE_BRING_UP -/

/-- The start-up tests begin: what the dies' links leave, in SELF_TEST (R172, R173). -/
def State.selfTests (linkUp : BitVec 4) (s : State) : State :=
  let u := (s.linkDies linkUp).isolateUnreachable
  { u with frame := { u.frame with st := .selfTest } }

theorem exec_dieBringUp_fails {s u : State} {linkUp : BitVec 4} {kat : Option (BitVec 4)} {noise : List Bool} {c : Nat}
    (hb : s.frame.st = .boot) (hv : s.frame.fwVerified = true) (h : (s.selfTests linkUp).preTestsRun kat noise = (some c, u)) :
    exec (.dieBringUp linkUp kat noise) s = .next ((State.cryptoError c
      (if c = 0x1A then { u with frame := { u.frame with fwVerified := false, fwVersion := 0 } } else u)).bootFail (if c < 0x10 then 5 else 4)) := by
  have hg : (s.frame.st != .boot || !s.frame.fwVerified) = false := by simp [hb, hv]
  dsimp only [exec, execDieBringUp]
  rw [if_neg (by simp [hg])]
  change (match (s.selfTests linkUp).preTestsRun kat noise with | (some c, s) => _ | (none, s) => _) = _
  rw [h]

theorem exec_dieBringUp_passes {s u : State} {linkUp : BitVec 4} {kat : Option (BitVec 4)} {noise : List Bool}
    (hb : s.frame.st = .boot) (hv : s.frame.fwVerified = true) (h : (s.selfTests linkUp).preTestsRun kat noise = (none, u))
    (hc : (u.drbgStart (noise.drop 1024)).sec.cryptoError = false) :
    exec (.dieBringUp linkUp kat noise) s = .next (u.drbgStart (noise.drop 1024)).marchBegins := by
  have hg : (s.frame.st != .boot || !s.frame.fwVerified) = false := by simp [hb, hv]
  dsimp only [exec, execDieBringUp]
  rw [if_neg (by simp [hg])]
  change (match (s.selfTests linkUp).preTestsRun kat noise with | (some c, s) => _ | (none, s) => _) = _
  rw [h]
  exact if_neg (by simp [hc])

/-- Settles O10: with every link up no die is cut off, the samples carry the health tests through both runs, and a failing known-answer
test enters CRYPTO_ERROR before start-up stops. -/
theorem startUpTestsRunOrStop : Obligations.StartUpTestsRunOrStop := by
  refine ⟨fun noise s hb hv h1 h4 hi ha hc hn => ?_, fun linkUp k noise s hb hv hc ha h1 h10 => ?_⟩
  · have hself : s.selfTests 15#4 = { s.linkDies 15#4 with frame := { (s.linkDies 15#4).frame with st := .selfTest } } := by
      rw [State.selfTests, State.linkDies_isolateUnreachable h1 h4 hi]
    rw [← List.take_append_drop 1024 noise, noisePasses_append, Bool.and_eq_true] at hn
    obtain ⟨u, eu, hu, hun⟩ := State.preTestsRun_passes (s := s.selfTests 15#4) (by rw [hself]; exact ha) (l := noise) (by rw [hself]; exact hn.1)
    have hau : u.sec.armed = none := by rw [hu, hself]; exact ha
    obtain ⟨ht, hd⟩ := State.drbgStart_passes hau (l := noise.drop 1024) (by rw [hun, hself]; exact hn.2)
    have hall := hu.trans ht
    rw [hself] at hall
    refine ⟨_, exec_dieBringUp_passes hb hv eu (by rw [hall]; exact hc), ?_⟩
    generalize u.drbgStart (noise.drop 1024) = t at hall hd
    refine ⟨?_, hd, ?_, ?_, ?_, ?_, ?_⟩
    · rw [hall]; rfl
    · rw [hall]; rfl
    · rw [hall]; rfl
    · rw [hall]; exact fun b hb => State.linkDies_boundaryUp h4 hi hb
    · rw [hall]; rfl
    · rw [hall]; rfl
  · have hself : (s.selfTests linkUp).sec = s.sec := (State.isolateUnreachable_calm (s.linkDies linkUp)).sec
    have hfail := exec_dieBringUp_fails hb hv (State.preTestsRun_fails (s := s.selfTests linkUp) (by rw [hself]; exact ha) h1 h10 noise)
    have hsec := State.cryptoError_sec (0x10 + k.toNat) (s := if 0x10 + k.toNat = 0x1A then
      { s.selfTests linkUp with frame := { (s.selfTests linkUp).frame with fwVerified := false, fwVersion := 0 } } else s.selfTests linkUp)
      (by split <;> exact (congrArg Sec.cryptoError hself).trans hc)
    rw [if_neg (by omega)] at hfail
    refine ⟨_, hfail, rfl, rfl, ?_⟩
    simp only [State.bootFail, hsec, Sec.zeroise, and_self]

end Sys2Proof.Machine
end

section
/-! What the accesses of a command, and those that a waiting command leaves behind, change (R119 to R135, R547; log 4). -/

namespace Sys2Proof.Machine

/-! ## Entries of tables -/

theorem mem_tblSet {α : Type} {t : Tbl α} {n : Nat} {a : α} {p : Nat × α} (h : p ∈ tblSet t n a) : p = (n, a) ∨ p ∈ t := by
  induction t with
  | nil => exact .inl (by simpa [tblSet] using h)
  | cons q t ih =>
    obtain ⟨k, v⟩ := q
    unfold tblSet at h
    (repeat' split at h) <;> simp only [List.mem_cons] at h ⊢
    · tauto
    · tauto
    · have := @ih
      tauto

/-- What a table reads under a key is one of its entries, or the default. -/
theorem tblGetD_eq_or_mem {α : Type} (t : Tbl α) (n : Nat) (d : α) : tblGetD t n d = d ∨ (n, tblGetD t n d) ∈ t := by
  induction t with
  | nil => exact .inl rfl
  | cons q t ih =>
    obtain ⟨k, v⟩ := q
    by_cases e : k = n
    · subst e
      exact .inr (by simp [tblGetD, tblGet?])
    · have hn : tblGetD ((k, v) :: t) n d = tblGetD t n d := by simp [tblGetD, tblGet?, e]
      rw [hn]
      exact ih.imp_right (List.mem_cons_of_mem _)

/-! ## What differs -/

/-- Only ports and counters differ. -/
def State.OnSlots (s t : State) : Prop := t = { s with ports := t.ports, tel := { s.tel with cnt := t.tel.cnt } }

theorem State.OnSlots.refl (s : State) : s.OnSlots s := rfl

theorem State.OnSlots.trans {a b c : State} (h : a.OnSlots b) (k : b.OnSlots c) : a.OnSlots c := by
  unfold State.OnSlots at *
  rw [k, h]

/-- Only memory, ports and counters differ. -/
def State.OnMemory (s t : State) : Prop := t = { s with mem := t.mem, ports := t.ports, tel := { s.tel with cnt := t.tel.cnt } }

theorem State.OnMemory.trans {a b c : State} (h : a.OnMemory b) (k : b.OnMemory c) : a.OnMemory c := by
  unfold State.OnMemory at *
  rw [k, h]

theorem State.OnSlots.onMemory {s t : State} (h : s.OnSlots t) : s.OnMemory t := by
  unfold State.OnSlots at h
  unfold State.OnMemory
  rw [h]

theorem State.OnMemory.onSlots {s t : State} (h : s.OnMemory t) (hm : t.mem = s.mem) : s.OnSlots t := by
  unfold State.OnMemory at h
  rw [hm] at h
  exact h

/-- Only memory, ports, counters and the notes of the running command differ. -/
def State.Accesses (s t : State) : Prop :=
  t = { s with mem := t.mem, ports := t.ports, tel := { s.tel with cnt := t.tel.cnt }, running := t.running }

theorem State.Accesses.refl (s : State) : s.Accesses s := rfl

theorem State.Accesses.trans {a b c : State} (h : a.Accesses b) (k : b.Accesses c) : a.Accesses c := by
  unfold State.Accesses at *
  rw [k, h]

theorem State.OnMemory.accesses {s t : State} (h : s.OnMemory t) : s.Accesses t := by
  unfold State.OnMemory at h
  unfold State.Accesses
  rw [h]

theorem State.Accesses.onPorts {s t : State} (h : s.Accesses t) (hm : t.mem = s.mem) : s.OnPorts t := by
  unfold State.Accesses at h
  rw [hm] at h
  exact h

/-! ## Issue slots -/

theorem State.transfer_onSlots (n tag : Nat) (r : Req) (s : State) : s.OnSlots (s.transfer n tag r) := by
  unfold State.transfer
  dsimp only
  split <;> split <;> rfl

theorem State.issue_onSlots (n tag : Nat) (r : Req) (s : State) : s.OnSlots (s.issue n tag r) :=
  (s.transfer_onSlots n tag r).trans rfl

theorem State.letPass_onSlots (n : Nat) (r : Req) (k : Nat) : ∀ s : State, s.OnSlots (s.letPass n r k) := by
  induction k with
  | zero => exact fun s => .refl s
  | succ k ih =>
    intro s
    unfold State.letPass
    split
    · exact .refl s
    · split
      · exact .refl s
      · split
        · exact .refl s
        · exact (s.issue_onSlots n _ _).trans (ih _)

theorem State.passIdle_onSlots (n idle : Nat) (s : State) : s.OnSlots (s.passIdle n idle) := by
  unfold State.passIdle
  split <;> rfl

theorem State.toSlot_onSlots (n : Nat) (r : Req) (s : State) : s.OnSlots (s.toSlot n r).2 := by
  have hp := s.letPass_onSlots n r (s.port n).waiting.length
  unfold State.toSlot
  dsimp only
  split
  · exact hp
  · split
    · exact hp.trans (State.passIdle_onSlots ..)
    · exact hp

theorem State.countResp_onSlots (n : Nat) (a : Resp) (s : State) : s.OnSlots (s.countResp n a) := by
  cases a <;> rfl

theorem State.retire_onSlots (n : Nat) (o : OutReq) (s : State) : s.OnSlots (s.retire n o) := rfl

/-! ## Answers -/

theorem State.memDone_onMemory (r : Req) (old : Bytes) (s : State) : s.OnMemory (s.memDone r old) := by
  unfold State.memDone
  split <;> rfl

/-- A read leaves memory as it is. -/
theorem State.memDone_read {r : Req} (h : r.op = .read) (old : Bytes) (s : State) : s.memDone r old = s := by
  unfold State.memDone
  rw [h]

theorem State.countResp_memDone_onMemory (n : Nat) (r : Req) (a : Resp) (old : Bytes) (s : State) :
    s.OnMemory (if a = .okay then (s.countResp n a).memDone r old else s.countResp n a) := by
  split
  · exact (s.countResp_onSlots n a).onMemory.trans (State.memDone_onMemory ..)
  · exact (s.countResp_onSlots n a).onMemory

theorem State.countResp_memDone_mem {r : Req} (h : r.op = .read) (n : Nat) (a : Resp) (old : Bytes) (s : State) :
    (if a = .okay then (s.countResp n a).memDone r old else s.countResp n a).mem = s.mem := by
  rw [State.memDone_read h, ite_self]
  cases a <;> rfl

/-- The notes of the running command name reads only. -/
def State.NotesReads (s : State) : Prop := ∀ m ∈ s.running.made, m.answer.req.op = .read

theorem State.answered_accesses (n : Nat) (r : Req) (a : Resp) (s : State) : s.Accesses (s.answered n r a).2.2 := by
  have h := (s.countResp_memDone_onMemory n r a (s.memOf r)).accesses
  unfold State.answered
  dsimp only
  generalize (if a = .okay then (s.countResp n a).memDone r (s.memOf r) else s.countResp n a) = u at h ⊢
  split
  · exact h.trans (b := u) rfl
  · exact h

/-- The answer of a read leaves memory, and is noted as a read. -/
theorem State.answered_read {r : Req} (hr : r.op = .read) (n : Nat) (a : Resp) (s : State) :
    (s.answered n r a).2.2.mem = s.mem ∧ (s.NotesReads → (s.answered n r a).2.2.NotesReads) := by
  have hm := s.countResp_memDone_mem hr n a (s.memOf r)
  have hn : (if a = .okay then (s.countResp n a).memDone r (s.memOf r) else s.countResp n a).running = s.running := by
    rw [State.memDone_read hr, ite_self]
    cases a <;> rfl
  unfold State.answered State.NotesReads
  dsimp only
  generalize (if a = .okay then (s.countResp n a).memDone r (s.memOf r) else s.countResp n a) = u at hm hn ⊢
  split
  · refine ⟨hm, fun h m hmem => ?_⟩
    rw [hn] at hmem
    rcases List.mem_append.mp hmem with k | k
    · exact h m k
    · rw [List.mem_singleton.mp k]
      exact hr
  · exact ⟨hm, fun h => hn ▸ h⟩

theorem State.mustWait_accesses (m : Miss) (s : State) : s.Accesses (s.mustWait m) := by
  unfold State.mustWait
  split <;> rfl

theorem State.access_accesses (n : Nat) (r : Req) (s : State) : s.Accesses (s.access n r).2.2 := by
  have hs := (s.toSlot_onSlots n r).onMemory.accesses
  unfold State.access
  split
  · exact .refl s
  · split
    · rfl
    · split
      · split
        · exact State.mustWait_accesses ..
        · exact (s.retire_onSlots n _).onMemory.accesses.trans (State.answered_accesses ..)
      · split <;> rename_i e <;> rw [e] at hs
        · exact hs.trans (State.mustWait_accesses ..)
        · split
          · exact State.mustWait_accesses ..
          · exact hs.trans ((State.transfer_onSlots ..).onMemory.accesses.trans (State.answered_accesses ..))

/-- A step leaves memory and notes nothing but reads. -/
def State.OnlyReads (s t : State) : Prop := s.OnPorts t ∧ (s.NotesReads → t.NotesReads)

theorem State.OnlyReads.refl (s : State) : s.OnlyReads s := ⟨rfl, id⟩

theorem State.OnlyReads.trans {a b c : State} (h : a.OnlyReads b) (k : b.OnlyReads c) : a.OnlyReads c :=
  ⟨h.1.trans k.1, k.2 ∘ h.2⟩

theorem State.OnSlots.onlyReads {s t : State} (h : s.OnSlots t) : s.OnlyReads t := by
  unfold State.OnSlots at h
  refine ⟨?_, ?_⟩
  · unfold State.OnPorts
    rw [h]
  · rw [h]
    exact id

theorem State.answered_onlyReads {r : Req} (hr : r.op = .read) (n : Nat) (a : Resp) (s : State) : s.OnlyReads (s.answered n r a).2.2 :=
  ⟨(s.answered_accesses n r a).onPorts (s.answered_read hr n a).1, (s.answered_read hr n a).2⟩

theorem State.mustWait_onlyReads (m : Miss) (s : State) : s.OnlyReads (s.mustWait m) := by
  unfold State.mustWait
  split
  · exact ⟨rfl, id⟩
  · exact .refl s

theorem State.access_onlyReads {r : Req} (hr : r.op = .read) (n : Nat) (s : State) : s.OnlyReads (s.access n r).2.2 := by
  have hs := (s.toSlot_onSlots n r).onlyReads
  unfold State.access
  split
  · exact .refl s
  · split
    · exact ⟨rfl, id⟩
    · split
      · split
        · exact State.mustWait_onlyReads ..
        · exact (s.retire_onSlots n _).onlyReads.trans (State.answered_onlyReads hr ..)
      · split <;> rename_i e <;> rw [e] at hs
        · exact hs.trans (State.mustWait_onlyReads ..)
        · split
          · exact State.mustWait_onlyReads ..
          · exact hs.trans ((State.transfer_onSlots ..).onlyReads.trans (State.answered_onlyReads hr ..))

theorem State.readPage_onlyReads (w : Party) (addr len : Nat) (s : State) : s.OnlyReads (s.readPage w addr len).2.2 := by
  unfold State.readPage
  split
  · exact .refl s
  · exact s.access_onlyReads (r := w.req .read addr len 0 []) rfl w.port

theorem State.sysReadGo_onlyReads (w : Party) (fuel : Nat) : ∀ (a n : Nat) (s : State), s.OnlyReads (s.sysReadGo w fuel a n).2.2 := by
  induction fuel with
  | zero => exact fun _ _ s => .refl s
  | succ fuel ih =>
    intro a n s
    unfold State.sysReadGo
    split
    · exact .refl s
    · dsimp only
      split
      · exact State.readPage_onlyReads ..
      · exact (State.readPage_onlyReads ..).trans (ih ..)

theorem State.sysRead_onlyReads (w : Party) (addr len : Nat) (s : State) : s.OnlyReads (s.sysRead w addr len).2.2 :=
  State.sysReadGo_onlyReads ..

/-! ## What a waiting command leaves behind -/

/-- An access that a waiting command had made goes out, where it is not out already. -/
def State.remake (m : Made) (s : State) : State :=
  match ((s.port m.port).table m.answer.req.op).find? (fun o => !o.drop && o.req.same m.answer.req) with
  | some o => s.retire m.port o
  | none => (s.toSlot m.port m.answer.req).2.transfer m.port ((s.toSlot m.port m.answer.req).1.getD 0) m.answer.req

/-- Its answer takes effect and stands at the port. -/
def State.reanswer (m : Made) (s : State) : State :=
  let s := s.countResp m.port m.answer.resp
  let s := if m.answer.resp = .okay then s.memDone m.answer.req m.answer.data else s
  s.modPort m.port (fun p => { p with answers := p.answers ++ [m.answer] })

theorem State.redo_eq (m : Made) (s : State) : s.redo m = (s.remake m).reanswer m := rfl

theorem State.remake_onSlots (m : Made) (s : State) : s.OnSlots (s.remake m) := by
  unfold State.remake
  split
  · exact s.retire_onSlots m.port _
  · exact (s.toSlot_onSlots m.port m.answer.req).trans (State.transfer_onSlots ..)

theorem State.reanswer_onMemory (m : Made) (s : State) :
    s.OnMemory (s.reanswer m) ∧ (m.answer.req.op = .read → (s.reanswer m).mem = s.mem) := by
  have h := s.countResp_memDone_onMemory m.port m.answer.req m.answer.resp m.answer.data
  have hr := fun hr : m.answer.req.op = .read => s.countResp_memDone_mem hr m.port m.answer.resp m.answer.data
  unfold State.reanswer
  dsimp only
  generalize (if m.answer.resp = .okay then (s.countResp m.port m.answer.resp).memDone m.answer.req m.answer.data
    else s.countResp m.port m.answer.resp) = u at h hr ⊢
  exact ⟨h.trans (b := u) rfl, hr⟩

theorem State.redo_onMemory (m : Made) (s : State) :
    s.OnMemory (s.redo m) ∧ (m.answer.req.op = .read → (s.redo m).mem = s.mem) := by
  have hs := s.remake_onSlots m
  have hmem : (s.remake m).mem = s.mem := by rw [hs]
  obtain ⟨h, hr⟩ := (s.remake m).reanswer_onMemory m
  rw [State.redo_eq]
  exact ⟨hs.onMemory.trans h, fun k => (hr k).trans hmem⟩

theorem State.foldRedo_onMemory (l : List Made) : ∀ s : State, s.OnMemory (l.foldl (fun s m => s.redo m) s) ∧
    ((∀ m ∈ l, m.answer.req.op = .read) → (l.foldl (fun s m => s.redo m) s).mem = s.mem) := by
  induction l with
  | nil => exact fun s => ⟨rfl, fun _ => rfl⟩
  | cons m l ih =>
    intro s
    obtain ⟨h, hr⟩ := s.redo_onMemory m
    obtain ⟨k, kr⟩ := ih (s.redo m)
    exact ⟨h.trans k, fun hall => (kr fun x hx => hall x (List.mem_cons_of_mem _ hx)).trans (hr (hall m List.mem_cons_self))⟩

/-- The access that is out without an answer leaves memory. -/
theorem State.foldRedo_onSlots_waited (x : Running) (s : State) : (x.made.foldl (fun s m => s.redo m) s).OnSlots (s.waited x) := by
  unfold State.waited
  generalize x.made.foldl (fun s m => s.redo m) s = u
  dsimp only
  split
  · rename_i n r _
    have hs := u.toSlot_onSlots n r
    split <;> rename_i e <;> rw [e] at hs
    · exact hs.trans (State.issue_onSlots ..)
    · exact hs
  · exact .refl u

theorem State.waited_onMemory (x : Running) (s : State) : s.OnMemory (s.waited x) :=
  (State.foldRedo_onMemory x.made s).1.trans (s.foldRedo_onSlots_waited x).onMemory

/-- A command that has only read leaves memory when it waits. -/
theorem State.waited_onSlots {x : Running} (h : ∀ m ∈ x.made, m.answer.req.op = .read) (s : State) : s.OnSlots (s.waited x) := by
  obtain ⟨h1, h2⟩ := State.foldRedo_onMemory x.made s
  exact (h1.onSlots (h2 h)).trans (s.foldRedo_onSlots_waited x)

end Sys2Proof.Machine
end

section
/-! FIRMWARE_VERIFY: reads of a frame whose ports are at rest, and what the ROM's checks make of them (R119 to R135, R168 to R171). -/

namespace Sys2Proof.Machine

/-! ## Ports at rest -/

/-- No request waits at a port or is outstanding, no answer stands there, and not all its tags are retired. -/
def Port.AtRest (p : Port) : Prop := p.waiting = [] ∧ p.reads = [] ∧ p.writes = [] ∧ p.answers = [] ∧ p.retired.length < 64

theorem State.PortsRest.port {s : State} (h : s.PortsRest) (n : Nat) : (s.port n).AtRest := by
  rcases tblGetD_eq_or_mem s.ports n .fresh with e | hm
  · have hp : s.port n = .fresh := e
    rw [hp]
    exact ⟨rfl, rfl, rfl, rfl, by decide⟩
  · exact h _ hm

theorem State.PortsRest.setPort {s : State} (h : s.PortsRest) (n : Nat) {v : Port} (hv : v.AtRest) : (s.setPort n v).PortsRest := by
  intro p hp
  rcases mem_tblSet hp with rfl | hp
  · exact hv
  · exact h p hp

/-- Nothing outstanding holds a request back (R130). -/
theorem State.PortsRest.granulesFree {s : State} (h : s.PortsRest) (r : Req) : s.granulesFree r = true := by
  refine List.all_eq_true.mpr fun p hp => ?_
  obtain ⟨-, hr, hw, -, -⟩ := h p hp
  rw [hr, hw]
  rfl

theorem firstTag_le (l : List OutReq) (ret : List Nat) (w k : Nat) : ∀ t, firstTag l ret w k t ≤ t + k := by
  induction k with
  | zero => exact fun t => Nat.le_refl t
  | succ k ih =>
    intro t
    unfold firstTag
    split
    · exact (ih (t + 1)).trans (by omega)
    · omega

/-- A tag is free (R129, R132). -/
theorem State.PortsRest.freeTag {s : State} (h : s.PortsRest) (n : Nat) : ∃ tag, s.freeTag n .read = some tag := by
  obtain ⟨-, hr, -, -, hret⟩ := h.port n
  have htag := firstTag_le [] (s.port n).retired 0 (0 + (s.port n).retired.length) 0
  refine ⟨firstTag [] (s.port n).retired 0 (0 + (s.port n).retired.length) 0, ?_⟩
  simp only [State.freeTag, Port.table, reduceCtorEq, if_false, hr, List.length_nil]
  exact if_neg (by omega)

/-- Signals go out and counters count, and the ports stay at rest. -/
structure State.RestsOn (s t : State) : Prop where
  signals : s.Signals t
  rest : s.PortsRest → t.PortsRest
  miss : t.running.miss = s.running.miss

theorem State.RestsOn.refl (s : State) : s.RestsOn s := ⟨.refl s, id, rfl⟩

theorem State.RestsOn.trans {a b c : State} (h : a.RestsOn b) (k : b.RestsOn c) : a.RestsOn c :=
  ⟨h.signals.trans k.signals, k.rest ∘ h.rest, k.miss.trans h.miss⟩

theorem State.restsOn_count (s : State) (g i c n : Nat) : s.RestsOn (s.count g i c n) := ⟨s.signals_count g i c n, id, rfl⟩

theorem State.passIdle_restsOn (n idle : Nat) (s : State) : s.RestsOn (s.passIdle n idle) := by
  refine ⟨s.signals_passIdle n idle, fun h => ?_, ?_⟩
  · unfold State.passIdle
    split
    · exact h
    · exact h.setPort n (h.port n)
  · unfold State.passIdle
    split <;> rfl

theorem State.transfer_restsOn (n tag : Nat) (r : Req) (s : State) : s.RestsOn (s.transfer n tag r) := by
  refine ⟨s.signals_transfer n tag r, fun h => ?_, ?_⟩
  · unfold State.transfer
    dsimp only
    split <;> split <;> exact h.setPort n (h.port n)
  · unfold State.transfer
    dsimp only
    split <;> split <;> rfl

theorem State.countResp_restsOn (n : Nat) (a : Resp) (s : State) : s.RestsOn (s.countResp n a) := by
  cases a
  · exact .refl s
  all_goals exact s.restsOn_count ..

/-! ## Reads -/

/-- At a port at rest a read has its slot. -/
theorem State.PortsRest.toSlot {s : State} (h : s.PortsRest) (n : Nat) {r : Req} (hr : r.op = .read) :
    ∃ tag t, s.toSlot n r = (some tag, t) ∧ s.RestsOn t := by
  obtain ⟨tag, ht⟩ := h.freeTag n
  have hw : (s.port n).waiting.length = 0 := by rw [(h.port n).1]; rfl
  refine ⟨tag, s.passIdle n (s.idleBefore n r), ?_, s.passIdle_restsOn ..⟩
  simp only [State.toSlot, hw, State.letPass, hr, ht, h.granulesFree r, if_true]

/-- The controllers' answer to a read (R135). -/
theorem State.respTo_read (s : State) (w : Party) (addr len : Nat) (x : Word) (d : Bytes) :
    s.respTo (w.req .read addr len x d) = s.answerAt addr len := by
  have haddr : (w.req .read addr len x d).addr / 64 * 64 = addr / 64 * 64 := by
    simp only [Party.req, reduceCtorEq, if_false]
    omega
  unfold State.respTo State.answerAt
  rw [haddr]
  simp only [Party.req, reduceCtorEq, if_false]
  split
  · rename_i e
    exact e.symm
  · rfl

/-- What the controllers answer to a read: only its count and the command's notes change. -/
theorem State.answered_restsOn (n : Nat) {r : Req} (hr : r.op = .read) (a : Resp) (s : State) :
    ∃ t, s.answered n r a = (a, s.memOf r, t) ∧ s.RestsOn t := by
  have hc := s.countResp_restsOn n a
  unfold State.answered
  dsimp only
  rw [State.memDone_read hr, ite_self]
  refine ⟨_, rfl, ?_⟩
  generalize s.countResp n a = u at hc ⊢
  split
  · exact hc.trans ⟨⟨rfl, fun _ => rfl⟩, id, rfl⟩
  · exact hc

/-- A read of a frame whose ports are at rest is answered as memory answers it (R120, R135). -/
theorem State.PortsRest.readPage {s : State} (h : s.PortsRest) (hm : s.running.miss = none) {w : Party} {addr len : Nat} {a : Resp}
    (hu : s.portUp w.port = true) (ha : s.answerAt addr len = some a) :
    ∃ t, s.readPage w addr len = (a, memReadBytes s.mem addr len, t) ∧ s.RestsOn t := by
  obtain ⟨-, hreads, -, hans, -⟩ := h.port w.port
  obtain ⟨tag, u, eu, hu1⟩ := h.toSlot w.port (r := w.req .read addr len 0 []) rfl
  have hf := (hu1.trans (u.transfer_restsOn w.port tag (w.req .read addr len 0 [])))
  obtain ⟨t, et, ht⟩ := (u.transfer w.port tag (w.req .read addr len 0 [])).answered_restsOn w.port (r := w.req .read addr len 0 []) rfl a
  have hmem : (u.transfer w.port tag (w.req .read addr len 0 [])).mem = s.mem := by rw [hf.signals.1]
  have hbytes : bytesAt (s.memOf (w.req .read addr len 0 [])) (addr % 64) len = memReadBytes s.mem addr len := bytesAt_granules ..
  refine ⟨t, ?_, hf.trans ht⟩
  have hacc : s.access w.port (w.req .read addr len 0 []) = (a, s.memOf (w.req .read addr len 0 []), t) := by
    have htable : (s.port w.port).table (w.req .read addr len 0 []).op = [] := by
      simp only [Port.table, Party.req, reduceCtorEq, if_false, hreads]
    unfold State.access
    rw [hm, hans, htable]
    simp only [Option.isSome_none, Bool.false_eq_true, if_false, List.find?_nil]
    rw [eu]
    dsimp only
    rw [State.respTo_read, ha]
    dsimp only
    rw [et]
    unfold State.memOf
    rw [hmem]
  unfold State.readPage
  rw [hacc]
  simp only [hu, Bool.not_true, Bool.false_eq_true, if_false, hbytes]

/-- A port that serves still serves. -/
theorem State.RestsOn.portUp {s t : State} (h : s.RestsOn t) (n : Nat) : t.portUp n = s.portUp n := by
  have hcaps : t.nPorts = s.nPorts := by
    unfold State.nPorts
    rw [h.signals.1]
  unfold State.portUp
  rw [hcaps, h.signals.2 n]

theorem State.RestsOn.answersIn {s t : State} (h : s.RestsOn t) {P : Resp → Prop} {n addr len : Nat} (ha : s.AnswersIn P n addr len) :
    t.AnswersIn P n addr len := by
  have hresp : ∀ b k, t.answerAt b k = s.answerAt b k := by
    intro b k
    unfold State.answerAt
    rw [h.signals.1]
  refine ⟨(h.portUp n).trans ha.1, fun b k => ?_⟩
  rw [hresp]
  exact ha.2 b k

theorem memReadBytes_add (m : Mem) (k l : Nat) : ∀ a, memReadBytes m a (k + l) = memReadBytes m a k ++ memReadBytes m (a + k) l := by
  intro a
  have htake := memReadBytes_take m (k + l) a k (by omega)
  have hdrop := memReadBytes_drop m (k + l) a k
  rw [show k + l - k = l by omega] at hdrop
  rw [← htake, ← hdrop, List.take_append_drop]

/-- A read of any length of a frame whose ports are at rest, where memory gives each of its pieces an answer of a kind: it ends with such
an answer, and with the bytes where that is OKAY. The number suffices for its pieces (R120). -/
theorem State.PortsRest.sysReadGo {P : Resp → Prop} {w : Party} (fuel : Nat) : ∀ {s : State} {a n : Nat}, s.PortsRest →
    s.running.miss = none → s.AnswersIn P w.port a n → (n = 0 ∨ a % 4096 + n ≤ 4096 * fuel) →
    ∃ r bs t, s.sysReadGo w fuel a n = (r, bs, t) ∧ s.RestsOn t ∧ (0 < n → P r) ∧ (r = .okay → bs = memReadBytes s.mem a n) := by
  induction fuel with
  | zero =>
    intro s a n _ _ _ hfuel
    have hn : n = 0 := by omega
    subst hn
    exact ⟨.okay, [], s, rfl, .refl s, nofun, fun _ => rfl⟩
  | succ fuel ih =>
    intro s a n hr hm ha hfuel
    by_cases hn : n = 0
    · subst hn
      exact ⟨.okay, [], s, rfl, .refl s, nofun, fun _ => rfl⟩
    · have hk : 0 < min n (4096 - a % 4096) ∧ min n (4096 - a % 4096) ≤ n := by omega
      have hrest : n - min n (4096 - a % 4096) = 0 ∨
          (a + min n (4096 - a % 4096)) % 4096 + (n - min n (4096 - a % 4096)) ≤ 4096 * fuel := by omega
      unfold State.sysReadGo
      rw [if_neg hn]
      generalize min n (4096 - a % 4096) = k at hk hrest ⊢
      obtain ⟨q, hq, hPq⟩ := ha.2 a k hk.1 (Nat.le_refl a) (by omega)
      obtain ⟨t, et, ht⟩ := hr.readPage hm ha.1 hq
      have hmem : t.mem = s.mem := by rw [ht.signals.1]
      have hsplit : memReadBytes s.mem a n = memReadBytes s.mem a k ++ memReadBytes s.mem (a + k) (n - k) := by
        rw [← memReadBytes_add, Nat.add_sub_cancel' hk.2]
      dsimp only
      rw [et]
      dsimp only
      by_cases he : endsRead q = true
      · rw [if_pos he]
        exact ⟨q, _, t, rfl, ht, fun _ => hPq, fun h => absurd he (by rw [h]; decide)⟩
      · rw [if_neg he]
        obtain ⟨r, bs, u, eu, hu, hP, hbs⟩ := ih (ht.rest hr) (ht.miss.trans hm)
          (a := a + k) (n := n - k) ⟨(ht.portUp _).trans ha.1, fun b l hl h1 h2 => (ht.answersIn ha).2 b l hl (by omega) (by omega)⟩ hrest
        rw [eu]
        refine ⟨_, _, u, rfl, ht.trans hu, fun _ => ?_, fun hokay => ?_⟩
        · dsimp only [readThen]
          split
          · exact hPq
          · rename_i hne
            refine hP (Nat.pos_of_ne_zero fun hz => hne ?_)
            rw [hz] at eu
            cases fuel <;> cases eu <;> rfl
        · have hboth : r = .okay ∧ q = .okay := by
            dsimp only [readThen] at hokay
            split at hokay
            · exact ⟨rfl, hokay⟩
            · exact absurd hokay ‹_›
          dsimp only [readThen]
          rw [hbs hboth.1, hmem, hsplit]

theorem State.PortsRest.sysRead {P : Resp → Prop} {s : State} {w : Party} {addr len : Nat} (h : s.PortsRest) (hm : s.running.miss = none)
    (ha : s.AnswersIn P w.port addr len) (hn : 0 < len) :
    ∃ r bs t, s.sysRead w addr len = (r, bs, t) ∧ s.RestsOn t ∧ P r ∧ (r = .okay → bs = memReadBytes s.mem addr len) := by
  obtain ⟨r, bs, t, e, ht, hP, hbs⟩ := State.PortsRest.sysReadGo (spanFuel len) h hm ha (.inr (by unfold spanFuel; omega))
  exact ⟨r, bs, t, e, ht, hP hn, hbs⟩

theorem State.PortsRest.sysRead_okay {s : State} {w : Party} {addr len : Nat} (h : s.PortsRest) (hm : s.running.miss = none)
    (ha : s.OkayIn w.port addr len) (hn : 0 < len) : ∃ t, s.sysRead w addr len = (.okay, memReadBytes s.mem addr len, t) ∧ s.RestsOn t := by
  obtain ⟨r, bs, t, e, ht, rfl, hbs⟩ := h.sysRead hm ha hn
  exact ⟨t, hbs rfl ▸ e, ht⟩

/-- A port that does not serve completes a read as DECERR (R84). -/
theorem State.sysRead_down {s : State} {w : Party} {addr len : Nat} (h : s.portUp w.port = false) (hn : 0 < len) :
    s.sysRead w addr len = (.decerr, zeros len, s) := by
  have hpage : ∀ k, s.readPage w addr k = (.decerr, zeros k, s) := by
    intro k
    unfold State.readPage
    rw [h]
    rfl
  unfold State.sysRead spanFuel State.sysReadGo
  rw [if_neg (by omega)]
  dsimp only
  rw [hpage]
  rfl

/-! ## FIRMWARE_VERIFY -/

/-- The ROM's checks of an image end start-up, or set the version (R170, R171). -/
def State.checkFirmware (img : Bytes) (code : Nat) (s : State) : State := match firmwareCheck img code with
  | .error c => s.bootFail c
  | .ok ver => { s with frame := { s.frame with fwVerified := true, fwVersion := BitVec.ofNat 32 ver } }

/-- What the ROM does: it reads the image and checks it (R168 to R171). -/
def State.verifyFirmware (s : State) : State := match s.sysRead (.steward 0) Config.fwAddr 64 with
  | (.okay, hd, s) =>
    match s.sysRead (.steward 0) (Config.fwAddr + 64) (min (leAt hd 8 4) (512 * 1024 - 64) + 256) with
    | (.okay, rest, s) => s.checkFirmware (hd ++ rest) (leAt hd 8 4)
    | (_, _, s) => s.bootFail 1
  | (_, _, s) => s.bootFail 1

theorem State.turn_next (s : State) (g : State → State) : s.turn (fun s => .next (g s)) =
    .next (if (g s.start).running.miss.isSome then s.waited (g s.start).running else { g s.start with running := s.running }) := by
  unfold State.turn
  dsimp only
  split <;> rfl

theorem exec_firmwareVerify {v : MemView} {s : State} (hb : s.frame.st = .boot) (hv : s.frame.fwVerified = false) :
    exec (.firmwareVerify v) s = (s.seeMem v).turn (fun s => .next s.verifyFirmware) := by
  dsimp only [exec, execFirmwareVerify]
  rw [if_neg (by simp [hb, hv])]
  congr 1
  funext u
  unfold State.verifyFirmware
  obtain ⟨r, hd, t⟩ := u.sysRead (.steward 0) Config.fwAddr 64
  cases r with
  | fault | poison | decerr => rfl
  | okay =>
    dsimp only
    obtain ⟨r, rest, t⟩ := t.sysRead (.steward 0) (Config.fwAddr + 64) (min (leAt hd 8 4) (512 * 1024 - 64) + 256)
    cases r with
    | fault | poison | decerr => rfl
    | okay =>
      dsimp only [State.checkFirmware]
      cases firmwareCheck (hd ++ rest) (leAt hd 8 4) <;> rfl

theorem exec_firmwareVerify_idle {v : MemView} {s : State} (h : s.frame.st ≠ .boot ∨ s.frame.fwVerified = true) :
    exec (.firmwareVerify v) s = .next (s.seeMem v) := by
  dsimp only [exec, execFirmwareVerify]
  exact if_pos (by simpa using h)

/-- Beside the frame's registers the ROM's work is reads. -/
theorem State.verifyFirmware_onlyReads (s : State) : ∃ u, s.OnlyReads u ∧ s.verifyFirmware = { u with frame := s.verifyFirmware.frame } := by
  have hhd := s.sysRead_onlyReads (.steward 0) Config.fwAddr 64
  unfold State.verifyFirmware
  generalize s.sysRead (.steward 0) Config.fwAddr 64 = p at hhd ⊢
  obtain ⟨r, hd, t⟩ := p
  cases r with
  | fault | poison | decerr => exact ⟨t, hhd, rfl⟩
  | okay =>
    have hrest := t.sysRead_onlyReads (.steward 0) (Config.fwAddr + 64) (min (leAt hd 8 4) (512 * 1024 - 64) + 256)
    dsimp only
    generalize t.sysRead (.steward 0) (Config.fwAddr + 64) (min (leAt hd 8 4) (512 * 1024 - 64) + 256) = p at hrest ⊢
    obtain ⟨r, rest, u⟩ := p
    refine ⟨u, hhd.trans hrest, ?_⟩
    cases r with
    | fault | poison | decerr => rfl
    | okay =>
      dsimp only [State.checkFirmware]
      split <;> rfl

section
variable {s : State} (hr : s.PortsRest) (hm : s.running.miss = none)
include hr hm

theorem State.verifyFirmware_okay {hd : Bytes} (hhd : hd = memReadBytes s.mem Config.fwAddr 64) {n : Nat}
    (hn : n = min (leAt hd 8 4) (512 * 1024 - 64) + 256) (h : s.OkayIn 0 Config.fwAddr 64) (k : s.OkayIn 0 (Config.fwAddr + 64) n) :
    ∃ u, s.RestsOn u ∧ s.verifyFirmware = u.checkFirmware (hd ++ memReadBytes s.mem (Config.fwAddr + 64) n) (leAt hd 8 4) := by
  obtain ⟨t, et, ht⟩ := hr.sysRead_okay (w := .steward 0) hm h (by omega)
  obtain ⟨u, eu, hu⟩ := (ht.rest hr).sysRead_okay (w := .steward 0) (ht.miss.trans hm) (ht.answersIn k) (by omega)
  have hmem : t.mem = s.mem := by rw [ht.signals.1]
  refine ⟨u, ht.trans hu, ?_⟩
  unfold State.verifyFirmware
  rw [et, ← hhd]
  dsimp only
  rw [← hn, eu, hmem]

/-- A header that is not read OKAY stops start-up (R171). -/
theorem State.verifyFirmware_noHeader (h : s.AnswersIn (· ≠ .okay) 0 Config.fwAddr 64) :
    ∃ u, s.RestsOn u ∧ s.verifyFirmware = u.bootFail 1 := by
  obtain ⟨r, bs, t, et, ht, hne, -⟩ := hr.sysRead (w := .steward 0) hm h (by omega)
  refine ⟨t, ht, ?_⟩
  unfold State.verifyFirmware
  rw [et]
  cases r with
  | okay => exact absurd rfl hne
  | fault | poison | decerr => rfl

/-- So does the rest of the image. -/
theorem State.verifyFirmware_noRest {hd : Bytes} (hhd : hd = memReadBytes s.mem Config.fwAddr 64) {n : Nat}
    (hn : n = min (leAt hd 8 4) (512 * 1024 - 64) + 256) (h : s.OkayIn 0 Config.fwAddr 64)
    (k : s.AnswersIn (· ≠ .okay) 0 (Config.fwAddr + 64) n) : ∃ u, s.RestsOn u ∧ s.verifyFirmware = u.bootFail 1 := by
  obtain ⟨t, et, ht⟩ := hr.sysRead_okay (w := .steward 0) hm h (by omega)
  obtain ⟨r, bs, u, eu, hu, hne, -⟩ := (ht.rest hr).sysRead (w := .steward 0) (ht.miss.trans hm) (ht.answersIn k) (by omega)
  refine ⟨u, ht.trans hu, ?_⟩
  unfold State.verifyFirmware
  rw [et, ← hhd]
  dsimp only
  rw [← hn, eu]
  cases r with
  | okay => exact absurd rfl hne
  | fault | poison | decerr => rfl

end

/-- A port that does not serve gives no header (R84). -/
theorem State.verifyFirmware_down {s : State} (h : s.portUp 0 = false) : s.verifyFirmware = s.bootFail 1 := by
  unfold State.verifyFirmware
  rw [State.sysRead_down (w := .steward 0) h (by omega)]

/-- What FIRMWARE_VERIFY leaves (log 4). -/
def State.firmwareTurn (s : State) : State :=
  if s.start.verifyFirmware.running.miss.isSome then s.waited s.start.verifyFirmware.running
  else { s.start.verifyFirmware with running := s.running }

theorem State.firmwareTurn_eq (s : State) :
    s.firmwareTurn = { s with
      ports := s.firmwareTurn.ports, tel := { s.tel with cnt := s.firmwareTurn.tel.cnt }, frame := s.firmwareTurn.frame } := by
  obtain ⟨u, ⟨hports, hnotes⟩, e⟩ := s.start.verifyFirmware_onlyReads
  have hreads : ∀ m ∈ s.start.verifyFirmware.running.made, m.answer.req.op = .read := by
    rw [e]
    exact hnotes fun m hm => absurd hm List.not_mem_nil
  unfold State.firmwareTurn
  split
  · have hw := s.waited_onSlots hreads
    unfold State.OnSlots at hw
    generalize s.waited s.start.verifyFirmware.running = t at hw
    rw [hw]
  · unfold State.OnPorts at hports
    rw [e, hports]
    rfl

/-- Where nothing has to wait, STATE and the version are as the ROM's work leaves them. -/
theorem State.firmwareTurn_frame {s u : State} (hu : s.start.RestsOn u) {F : State → State} (e : s.start.verifyFirmware = F u)
    (hF : (F u).running = u.running) : s.firmwareTurn.frame = (F u).frame := by
  have hmiss : s.start.verifyFirmware.running.miss.isSome = false := by
    rw [e, hF, hu.miss]
    rfl
  unfold State.firmwareTurn
  rw [hmiss, e]
  rfl

theorem State.checkFirmware_running (img : Bytes) (code : Nat) (s : State) : (s.checkFirmware img code).running = s.running := by
  unfold State.checkFirmware
  split <;> rfl

/-- Settles O9: beside the frame's registers the ROM only reads (verifyFirmware_onlyReads), and where the ports are at rest each of its
reads is answered at once. -/
theorem firmwareVerifyOutcome : Obligations.FirmwareVerifyOutcome := by
  intro v s s' hd n img rest
  refine ⟨fun hb hv => ?_, exec_firmwareVerify_idle⟩
  refine ⟨s'.firmwareTurn, (exec_firmwareVerify hb hv).trans (s'.turn_next _), s'.firmwareTurn_eq, fun hr ho ho' => ?_, fun h => ?_⟩
  · obtain ⟨u, hu, e⟩ := State.verifyFirmware_okay (s := s'.start) hr rfl rfl rfl ho ho'
    have hframe : u.frame = s.frame := by rw [hu.signals.1]; rfl
    rw [State.firmwareTurn_frame hu e (State.checkFirmware_running ..)]
    change (u.checkFirmware img (leAt hd 8 4)).frame = _
    unfold State.checkFirmware State.bootFail
    rw [← hframe]
    cases firmwareCheck img (leAt hd 8 4) <;> rfl
  · have hfail : ∃ u, s'.start.RestsOn u ∧ s'.start.verifyFirmware = u.bootFail 1 := by
      rcases h with h | ⟨hr, h⟩ | ⟨hr, ho, h⟩
      · exact ⟨_, .refl _, State.verifyFirmware_down h⟩
      · exact State.verifyFirmware_noHeader (s := s'.start) hr rfl h
      · exact State.verifyFirmware_noRest (s := s'.start) hr rfl rfl rfl ho h
    obtain ⟨u, hu, e⟩ := hfail
    have hframe : u.frame = s.frame := by rw [hu.signals.1]; rfl
    rw [State.firmwareTurn_frame hu e rfl, ← hframe]
    rfl

end Sys2Proof.Machine
end

section
/-! What the end of a stream leaves alone: streams that are free, states of functions, queues at their defaults, pools that are off (R180,
R181, R236, R237). -/

namespace Sys2Proof.Machine

/-! ## Accesses that write -/

theorem State.writePage_accesses (w : Party) (addr : Nat) (bs : Bytes) (s : State) : s.Accesses (s.writePage w addr bs).2 := by
  unfold State.writePage
  split
  · exact .refl s
  · exact State.access_accesses ..

theorem State.writeSpan_accesses (w : Party) (fuel : Nat) : ∀ (a : Nat) (bs : Bytes) (s : State), s.Accesses (s.writeSpan w fuel a bs).2 := by
  induction fuel with
  | zero => exact fun _ _ s => .refl s
  | succ fuel ih =>
    intro a bs s
    unfold State.writeSpan
    split
    · exact .refl s
    · have hp := s.writePage_accesses w a (bs.take (4096 - a % 4096))
      dsimp only
      split <;> rename_i e <;> rw [e] at hp
      · exact hp.trans (ih ..)
      · exact hp

theorem State.sysWrite_accesses (w : Party) (addr : Nat) (bs : Bytes) (s : State) : s.Accesses (s.sysWrite w addr bs).2 := by
  have h := State.writeSpan_accesses w (spanFuel bs.length) addr bs s
  unfold State.sysWrite
  split <;> rename_i e <;> rw [e] at h <;> exact h

theorem State.sysAdd_accesses (w : Party) (addr operand : Nat) (s : State) : s.Accesses (s.sysAdd w addr operand).2.2 := by
  have h := s.access_accesses w.port (w.req .fetchAdd addr 4 (BitVec.ofNat 32 operand) [])
  unfold State.sysAdd
  split
  · exact .refl s
  · split <;> rename_i e <;> rw [e] at h <;> exact h

/-! ## Tables that are mapped -/

theorem tblGet?_tblMap {α : Type} (g : Nat → α → α) (t : Tbl α) (n : Nat) : tblGet? (tblMap g t) n = (tblGet? t n).map (g n) := by
  induction t with
  | nil => rfl
  | cons p t ih =>
    obtain ⟨k, v⟩ := p
    by_cases e : k = n
    · subst e
      simp [tblMap, tblGet?]
    · simpa [tblMap, tblGet?, e] using ih

/-- What holds of the default and is kept by the map is kept under every key. -/
theorem tblGetD_tblMap_of {α : Type} {P : α → Prop} {g : Nat → α → α} (t : Tbl α) (n : Nat) (d : α) (hg : ∀ x, P x → P (g n x))
    (h : P (tblGetD t n d)) : P (tblGetD (tblMap g t) n d) := by
  unfold tblGetD at h ⊢
  rw [tblGet?_tblMap]
  cases e : tblGet? t n with
  | none =>
    rw [e] at h
    exact h
  | some x =>
    rw [e] at h
    exact hg x h

/-! ## What stands apart -/

/-- Streams, functions, queues and pools stand as they were. -/
structure State.Apart (s t : State) : Prop where
  streams : t.streams = s.streams
  funcs : t.funcs = s.funcs
  queues : t.queues = s.queues
  pools : t.pools = s.pools

theorem State.Apart.refl (s : State) : s.Apart s := ⟨rfl, rfl, rfl, rfl⟩

theorem State.Apart.trans {a b c : State} (h : a.Apart b) (k : b.Apart c) : a.Apart c :=
  ⟨k.streams.trans h.streams, k.funcs.trans h.funcs, k.queues.trans h.queues, k.pools.trans h.pools⟩

theorem State.Accesses.apart {s t : State} (h : s.Accesses t) : s.Apart t := by
  unfold State.Accesses at h
  rw [h]
  exact ⟨rfl, rfl, rfl, rfl⟩

theorem State.OnMemory.apart {s t : State} (h : s.OnMemory t) : s.Apart t := h.accesses.apart

theorem State.Apart.stream {s t : State} (h : s.Apart t) (f i : Nat) : t.stream f i = s.stream f i := by
  unfold State.stream
  rw [h.streams]

theorem State.Apart.queue {s t : State} (h : s.Apart t) (f q : Nat) : t.queue f q = s.queue f q := by
  unfold State.queue
  rw [h.queues]

theorem State.Apart.pool {s t : State} (h : s.Apart t) (p : Nat) : t.pool p = s.pool p := by
  unfold State.pool
  rw [h.pools]

theorem State.count_apart (g i c n : Nat) (s : State) : s.Apart (s.count g i c n) := ⟨rfl, rfl, rfl, rfl⟩

theorem State.mustWait_apart (m : Miss) (s : State) : s.Apart (s.mustWait m) := (s.mustWait_accesses m).apart

theorem State.sendMsg_apart (fn vector : Nat) (payload : Word) (s : State) : s.Apart (s.sendMsg fn vector payload) := by
  unfold State.sendMsg
  dsimp only
  split
  · exact ⟨rfl, rfl, rfl, rfl⟩
  · split
    · exact ⟨rfl, rfl, rfl, rfl⟩
    · exact s.mustWait_apart _

theorem State.relayCopy_apart (f : Nat) (rec_ : Bytes) (s : State) : s.Apart (s.relayCopy f rec_) := by
  unfold State.relayCopy
  split
  · exact .refl s
  · dsimp only
    split <;> exact ⟨rfl, rfl, rfl, rfl⟩

theorem State.relayWrite_apart (f i : Nat) (x : Stream) (r : RelayRec) (s : State) : s.Apart (s.relayWrite f i x r).2 := by
  unfold State.relayWrite
  dsimp only
  generalize hp : s.sysWrite _ _ _ = p
  have h := hp ▸ (State.sysWrite_accesses ..).apart
  obtain ⟨resp, t⟩ := p
  cases resp with
  | fault | poison | decerr => exact h
  | okay =>
    have hcopy := fun rec_ => h.trans (State.relayCopy_apart f rec_ t)
    dsimp only
    split
    · exact (hcopy _).trans (State.sendMsg_apart ..)
    · exact hcopy _

theorem State.dropReqs_apart (test : Req → Bool) (s : State) : s.Apart (s.dropReqs test) := ⟨rfl, rfl, rfl, rfl⟩

theorem State.forEach_apart {α : Type} (l : List α) {f : α → State → State} (h : ∀ a s, State.Apart s (f a s)) (s : State) :
    s.Apart (s.forEach l f) :=
  List.foldlRecOn l _ (motive := s.Apart) (.refl s) fun t ht a _ => ht.trans (h a t)

theorem State.putBeats_apart (bay tenon : Nat) (bs : List Beat) (s : State) : s.Apart (s.putBeats bay tenon bs) := ⟨rfl, rfl, rfl, rfl⟩

theorem State.sendFlush_apart (f i : Nat) (s : State) : s.Apart (s.sendFlush f i) := by
  unfold State.sendFlush
  exact State.forEach_apart _ (fun _ u => u.putBeats_apart ..) s

theorem State.leaveBanks_apart (gidx : Nat) (s : State) : s.Apart (s.leaveBanks gidx) := ⟨rfl, rfl, rfl, rfl⟩

theorem State.setGroup_apart (g : Nat) (v : LockGroup) (s : State) : s.Apart (s.setGroup g v) := ⟨rfl, rfl, rfl, rfl⟩

/-! ## What the end of a stream keeps -/

/-- A queue at the defaults that the image gives it: off, nothing fetched, no job (R181, R212). -/
def Queue.AtDefaults (d : QueueDef) (x : Queue) : Prop :=
  x.enabled = false ∧ x.base = 0 ∧ x.index = 0 ∧ x.log2 = d.log2 ∧ x.weight = d.weight ∧ x.burst = d.burst ∧
    x.jobs = [] ∧ x.arrived = []

/-- Every pool of a function is off (R181). -/
def State.PoolsOff (s : State) (f : Nat) : Prop := ∀ p ∈ s.pools, p.2.assigned = true → p.2.fn = f → p.2.enabled = false

/-- Streams that are free stay free, functions keep their states, queues at their defaults stay there, pools that are off stay off. -/
structure State.Winds (s t : State) : Prop where
  streams : ∀ k, (tblGetD s.streams k .fresh).st = .free → (tblGetD t.streams k .fresh).st = .free
  funcs : ∀ g, (t.func g).st = (s.func g).st
  queues : ∀ k d, (tblGetD s.queues k .fresh).AtDefaults d → (tblGetD t.queues k .fresh).AtDefaults d
  pools : ∀ f, s.PoolsOff f → t.PoolsOff f

theorem State.Winds.trans {a b c : State} (h : a.Winds b) (k : b.Winds c) : a.Winds c :=
  ⟨fun n x => k.streams n (h.streams n x), fun g => (k.funcs g).trans (h.funcs g), fun n d x => k.queues n d (h.queues n d x),
    fun f x => k.pools f (h.pools f x)⟩

theorem State.Apart.winds {s t : State} (h : s.Apart t) : s.Winds t := by
  refine ⟨fun k x => ?_, fun g => ?_, fun k d x => ?_, fun f x => ?_⟩
  · rwa [h.streams]
  · unfold State.func
    rw [h.funcs]
  · rwa [h.queues]
  · unfold State.PoolsOff
    rwa [h.pools]

theorem State.Winds.refl (s : State) : s.Winds s := (State.Apart.refl s).winds

/-- A stream that is free stays free. -/
theorem State.Winds.free {s t : State} (h : s.Winds t) {f i : Nat} (hs : (s.stream f i).st = .free) : (t.stream f i).st = .free :=
  h.streams _ hs

theorem State.forEach_winds {α : Type} (l : List α) {f : α → State → State} (h : ∀ a s, State.Winds s (f a s)) (s : State) :
    s.Winds (s.forEach l f) :=
  List.foldlRecOn l _ (motive := s.Winds) (.refl s) fun t ht a _ => ht.trans (h a t)

theorem tblGetD_tblSet_of {α : Type} {P : α → Prop} {t : Tbl α} {n k : Nat} {a d : α} (ha : P (tblGetD t n d) → P a)
    (h : P (tblGetD t k d)) : P (tblGetD (tblSet t n a) k d) := by
  by_cases e : k = n
  · subst e
    rw [tblGetD_tblSet_same]
    exact ha h
  · rwa [tblGetD_tblSet_ne _ _ _ _ e]

theorem State.setStream_winds (f i : Nat) (v : Stream) (s : State) (h : (s.stream f i).st = .free → v.st = .free := by exact id) :
    s.Winds (s.setStream f i v) :=
  ⟨fun _ => tblGetD_tblSet_of (P := fun x : Stream => x.st = .free) h, fun _ => rfl, fun _ _ => id, fun _ => id⟩

theorem State.modStream_winds {g : Stream → Stream} (f i : Nat) (s : State) (hg : ∀ x, (g x).st = x.st := by exact fun _ => rfl) :
    s.Winds (s.modStream f i g) :=
  State.setStream_winds f i _ s fun h => (hg _).trans h

theorem State.setQueue_winds (f q : Nat) (v : Queue) (s : State)
    (h : ∀ d, (s.queue f q).AtDefaults d → v.AtDefaults d := by exact fun _ h => h) :
    s.Winds (s.setQueue f q v) :=
  ⟨fun _ => id, fun _ => rfl, fun _ d => tblGetD_tblSet_of (P := Queue.AtDefaults d) (h d), fun _ => id⟩

theorem State.modQueue_winds {g : Queue → Queue} (f q : Nat) (s : State)
    (hg : ∀ x d, x.AtDefaults d → (g x).AtDefaults d := by exact fun _ _ h => h) :
    s.Winds (s.modQueue f q g) :=
  State.setQueue_winds f q _ s fun d => hg _ d

theorem State.modFunc_winds {g : Func → Func} (f : Nat) (s : State) (hg : ∀ x, (g x).st = x.st := by exact fun _ => rfl) :
    s.Winds (s.modFunc f g) := by
  refine ⟨fun _ => id, fun k => ?_, fun _ _ => id, fun _ => id⟩
  by_cases e : k = f
  · subst e
    rw [State.modFunc_eq, State.setFunc_func_same, hg]
  · rw [State.modFunc_eq, State.setFunc_func_other _ _ _ _ e]

/-- A pool that is written keeps its function and is not turned on. -/
theorem State.setPool_winds (p : Nat) (v : Pool) (s : State) (ha : v.assigned = (s.pool p).assigned := by rfl)
    (hf : v.fn = (s.pool p).fn := by rfl) (he : (s.pool p).enabled = false → v.enabled = false := by exact id) : s.Winds (s.setPool p v) := by
  refine ⟨fun _ => id, fun _ => rfl, fun _ _ => id, fun f h q hq hqa hqf => ?_⟩
  rcases mem_tblSet hq with rfl | hq
  · rw [ha] at hqa
    rw [hf] at hqf
    refine he ?_
    rcases tblGetD_eq_or_mem s.pools p .fresh with e | hm
    · exact congrArg Pool.enabled e
    · exact h _ hm hqa hqf
  · exact h q hq hqa hqf

theorem State.modPool_winds {g : Pool → Pool} (p : Nat) (s : State) (ha : ∀ x, (g x).assigned = x.assigned := by exact fun _ => rfl)
    (hf : ∀ x, (g x).fn = x.fn := by exact fun _ => rfl) (he : ∀ x, (g x).enabled = x.enabled := by exact fun _ => rfl) :
    s.Winds (s.modPool p g) :=
  State.setPool_winds p _ s (ha _) (hf _) fun h => (he _).trans h

/-! ## Logs, pools' watchdogs, halts -/

theorem State.setLogRing_winds (log : Option Nat) (r : LogRing) (s : State) : s.Winds (s.setLogRing log r) := by
  cases log with
  | none => exact (State.Apart.winds ⟨rfl, rfl, rfl, rfl⟩)
  | some f =>
    unfold State.setLogRing
    exact State.modFunc_winds f s

theorem State.logTo_winds (log : Option Nat) (code cls unit index bay detail : Nat) (s : State) :
    s.Winds (s.logTo log code cls unit index bay detail) := by
  unfold State.logTo
  dsimp only
  split
  · exact (State.Apart.winds ⟨rfl, rfl, rfl, rfl⟩)
  · generalize hb : s.setLogRing log _ = b
    have h : s.Winds b := hb ▸ s.setLogRing_winds log _
    cases log with
    | none => exact h.trans (State.Apart.winds ⟨rfl, rfl, rfl, rfl⟩)
    | some f => exact h.trans (State.Apart.winds ⟨rfl, rfl, rfl, rfl⟩)

theorem State.logTo_stream (log : Option Nat) (code cls unit index bay detail : Nat) (s : State) (f i : Nat) :
    (s.logTo log code cls unit index bay detail).stream f i = s.stream f i := by
  unfold State.stream State.logTo
  dsimp only
  split
  · rfl
  · cases log <;> rfl

theorem State.watchPools_winds (s : State) : s.Winds s.watchPools := by
  unfold State.watchPools
  refine State.forEach_winds _ (fun p u => ?_) s
  dsimp only
  by_cases e : ((u.pool p).stalled && !u.poolStalled p) = true
  · rw [if_pos e]
    exact (u.count_apart ..).winds.trans (State.setPool_winds p _ _)
  · rw [if_neg e]
    exact State.setPool_winds p _ _

theorem State.haltCore_winds (f i code detail : Nat) (s : State) : s.Winds (s.haltCore f i code detail) := by
  unfold State.haltCore
  dsimp only
  split
  · exact .refl s
  · rename_i hst
    have hlog := s.logTo_winds (some f) code 1 3 i 0xFE detail
    split
    · exact hlog
    · refine ((hlog.trans (State.setStream_winds f i _ _ fun h => ?_)).trans (State.count_apart ..).winds).trans (State.watchPools_winds _)
      rw [State.logTo_stream] at h
      exact absurd h hst

theorem State.relayQueue_winds (f i : Nat) (r : RelayRec) (s : State) : s.Winds (s.relayQueue f i r) := State.modStream_winds f i s

theorem State.streamError_winds (f i code detail : Nat) (s : State) : s.Winds (s.streamError f i code detail) := by
  have h := s.haltCore_winds f i code detail
  unfold State.streamError
  dsimp only
  split
  · exact h
  · exact h.trans (State.relayQueue_winds ..)

theorem State.addFault_winds (f i addr : Nat) (token : Word) (write report : Bool) (s : State) : s.Winds (s.addFault f i addr token write report) :=
  State.modStream_winds f i s

theorem State.streamFault_winds (f i addr : Nat) (token : Word) (write : Bool) (s : State) : s.Winds (s.streamFault f i addr token write) := by
  unfold State.streamFault
  dsimp only
  split
  · exact .refl s
  · exact (s.haltCore_winds ..).trans (State.addFault_winds ..)

theorem State.relayPop_winds (f i : Nat) (s : State) : s.Winds (s.relayPop f i) := State.modStream_winds f i s

theorem State.relayDecerr_winds (f i : Nat) (s : State) : s.Winds (s.relayDecerr f i) := by
  unfold State.relayDecerr State.streamDecerr
  exact ((s.streamError_winds ..).trans (State.addFault_winds ..)).trans (State.modStream_winds f i _)

/-! ## Relay records -/

theorem State.relayPut_winds (f i : Nat) (r : RelayRec) (s : State) : s.Winds (s.relayPut f i r).2 := by
  unfold State.relayPut
  have hw := s.relayWrite_apart f i (s.stream f i) r
  dsimp only
  generalize s.relayWrite f i (s.stream f i) r = p at hw
  obtain ⟨resp, t⟩ := p
  cases resp with
  | fault | poison | decerr => exact hw.winds
  | okay =>
    have hset : ∀ v : Stream, (v.st = if r.data ∧ (s.stream f i).st = .filling then .running else (s.stream f i).st) →
        s.Winds (t.setStream f i v) := fun v hv => hw.winds.trans (State.setStream_winds f i _ _ fun h => by
      rw [hw.stream] at h
      rw [hv, h, if_neg (by simp)])
    dsimp only
    split <;> split
    · exact ((hset _ rfl).trans (State.count_apart ..).winds).trans (State.count_apart ..).winds
    · exact (hset _ rfl).trans (State.count_apart ..).winds
    · exact (hset _ rfl).trans (State.count_apart ..).winds
    · exact hset _ rfl

theorem State.attempt_winds {α : Type} {body : State → α × State} (hb : ∀ u, State.Winds u (body u).2) (s : State) :
    s.Winds (s.attempt body).2 := by
  unfold State.attempt
  split
  · exact .refl s
  · have h := hb s.start
    dsimp only
    generalize body s.start = p at h
    have h' : s.Winds p.2 := (State.Apart.winds (s := s) (t := s.start) ⟨rfl, rfl, rfl, rfl⟩).trans h
    split
    · exact (s.waited_onMemory _).apart.winds.trans (State.Apart.winds ⟨rfl, rfl, rfl, rfl⟩)
    · exact h'.trans (State.Apart.winds ⟨rfl, rfl, rfl, rfl⟩)

theorem State.relaySettle_winds (n : Nat) : ∀ (skip : List Nat) (s : State), s.Winds (s.relaySettle n skip) := by
  induction n with
  | zero => exact fun _ s => .refl s
  | succ n ih =>
    intro skip s
    unfold State.relaySettle
    split
    · exact .refl s
    · split
      · exact .refl s
      · rename_i f i x _ _ r _ _
        have ha := s.attempt_winds (fun u => u.relayPut_winds f i (if r.data then r else { r with batch := x.delivered }))
        split <;> rename_i e <;> rw [e] at ha
        · exact ha.trans (ih ..)
        · exact (ha.trans (State.relayPop_winds ..)).trans (ih ..)
        · split
          · exact ((ha.trans (State.logTo_winds ..)).trans (State.relayPop_winds ..)).trans (ih ..)
          · split
            · exact (ha.trans (State.streamFault_winds ..)).trans (ih ..)
            · exact (ha.trans (State.relayDecerr_winds ..)).trans (ih ..)

theorem State.relays_winds (s : State) : s.Winds s.relays := State.relaySettle_winds ..

theorem State.relayPost_winds (f i : Nat) (r : RelayRec) (s : State) : s.Winds (s.relayPost f i r) :=
  (s.relayQueue_winds f i r).trans (State.relays_winds _)

theorem State.relayEnd_winds (f i status : Nat) (s : State) : s.Winds (s.relayEnd f i status) := by
  unfold State.relayEnd
  have hset : s.Winds (s.setStream f i { s.stream f i with waitingRecs := [] }) := State.setStream_winds f i _ s
  have ha := hset.trans (State.attempt_winds (fun u => u.relayPut_winds f i ((s.stream f i).statusRec s.now status 0 0)) _)
  dsimp only
  split <;> rename_i e <;> rw [e] at ha
  · exact ha
  · exact ha.trans (State.Apart.winds ⟨rfl, rfl, rfl, rfl⟩)

end Sys2Proof.Machine
end

section
/-! What the end of a stream leaves alone, up to the end of every stream of a function (R180, R181, R237, R244). -/

namespace Sys2Proof.Machine

/-! ## Faults of queues and their error records -/

theorem State.queueFault_winds (f q code detail : Nat) (s : State) : s.Winds (s.queueFault f q code detail) := by
  unfold State.queueFault
  dsimp only
  split
  · exact .refl s
  · have hdrop : s.Apart (s.dropQueueReads f q true) := s.dropReqs_apart _
    refine (hdrop.winds.trans (State.setQueue_winds f q _ _ fun d h => ?_)).trans (State.logTo_winds ..)
    rw [hdrop.queue] at h
    obtain ⟨_, hbase, hindex, hlog, hweight, hburst, hjobs, _⟩ := h
    exact ⟨rfl, hbase, hindex, hlog, hweight, hburst, congrArg (List.filter _) hjobs, rfl⟩

theorem State.queueMsg_winds (f q : Nat) (s : State) : s.Winds (s.queueMsg f q) := by
  unfold State.queueMsg
  exact (State.setQueue_winds f q _ s).trans (State.sendMsg_apart ..).winds

theorem State.indexAdd_winds (f q off expected addend : Nat) (s : State) : s.Winds (s.indexAdd f q off expected addend).2 := by
  unfold State.indexAdd
  dsimp only
  generalize hp : s.sysAdd _ _ _ = p
  have h := (hp ▸ State.sysAdd_accesses ..).apart.winds
  obtain ⟨resp, old, t⟩ := p
  cases resp with
  | fault | poison | decerr => exact h.trans (State.queueFault_winds ..)
  | okay =>
    dsimp only
    split
    · exact h
    · exact h.trans (State.queueFault_winds ..)

theorem State.writeError_winds (f q entry lap code opcode user detail : Nat) (s : State) :
    s.Winds (s.writeError f q entry lap code opcode user detail) := by
  unfold State.writeError
  dsimp only
  split
  · exact .refl s
  · generalize hp : s.sysWrite _ _ _ = p
    have h := (hp ▸ State.sysWrite_accesses ..).apart.winds
    obtain ⟨resp, t⟩ := p
    cases resp with
    | fault | poison | decerr => exact h.trans (State.queueFault_winds ..)
    | okay =>
      have hadd := h.trans (t.indexAdd_winds f q 0x10 (s.queue f q).errCount 1)
      dsimp only
      split <;> rename_i e <;> rw [e] at hadd
      · have hcount := (hadd.trans (State.modQueue_winds (g := fun x =>
          { x with errCount := ((s.queue f q).errCount + 1) % 2 ^ 32, errSince := true }) f q _)).trans
          (State.count_apart 5 (s.queue f q).qid 1 1 _).winds
        split
        · exact hcount.trans (State.queueMsg_winds ..)
        · exact hcount
      · exact hadd

/-! ## Buffers of pools -/

theorem State.poolFault_winds (p code detail : Nat) (s : State) : s.Winds (s.poolFault p code detail) := by
  unfold State.poolFault
  exact (((State.setPool_winds p _ s (he := fun _ => rfl)).trans (State.logTo_winds ..)).trans
    (State.forEach_winds _ (fun _ _ => State.streamError_winds ..) _)).trans (State.relays_winds _)

theorem State.poolResp_winds (p addr : Nat) (r : Resp) (s : State) : s.Winds (s.poolResp p addr r) := State.poolFault_winds ..

theorem State.ringWrite_winds (p : Nat) (gs : List (List Nat)) : ∀ s : State, s.Winds (s.ringWrite p gs) := by
  induction gs with
  | nil => exact fun s => .refl s
  | cons g gs ih =>
    intro s
    unfold State.ringWrite
    dsimp only
    generalize hp : s.sysWrite _ _ _ = r
    have h := (hp ▸ State.sysWrite_accesses ..).apart
    obtain ⟨resp, t⟩ := r
    cases resp with
    | fault | poison | decerr => exact h.winds.trans (State.poolResp_winds ..)
    | okay =>
      refine (h.winds.trans ?_).trans (ih _)
      rw [← h.pool]
      exact State.setPool_winds p _ t

theorem State.freeBuffer_winds (p handle : Nat) (s : State) : s.Winds (s.freeBuffer p handle) := by
  unfold State.freeBuffer
  have h := (State.modPool_winds (g := fun x =>
    { x with cache := x.cache ++ [handle], holders := x.holders.filter (fun h => h.handle != handle) }) p s).trans (State.count_apart 6 p 1 1 _).winds
  dsimp only
  split
  · exact h.trans (State.ringWrite_winds ..)
  · exact h

theorem State.releaseBuffer_winds (p key handle : Nat) (s : State) : s.Winds (s.releaseBuffer p key handle) := by
  unfold State.releaseBuffer
  dsimp only
  split
  · exact .refl s
  · split
    · exact State.setPool_winds p _ s
    · split
      · exact State.freeBuffer_winds ..
      · generalize hp : s.sysAdd _ _ _ = r
        have h := (hp ▸ State.sysAdd_accesses ..).apart.winds
        obtain ⟨resp, old, t⟩ := r
        cases resp with
        | fault | poison | decerr => exact h.trans (State.poolResp_winds ..)
        | okay =>
          dsimp only
          split
          · exact h.trans (State.poolFault_winds ..)
          · split
            · exact h.trans (State.freeBuffer_winds ..)
            · exact h.trans (State.modPool_winds p t)

theorem State.releaseLater_winds (p key handle : Nat) (s : State) : s.Winds (s.releaseLater p key handle) := by
  unfold State.releaseLater
  have h := s.attempt_winds (body := fun s => ((), s.releaseBuffer p key handle)) fun u => u.releaseBuffer_winds p key handle
  split <;> rename_i e <;> rw [e] at h
  · exact h
  · dsimp only at h ⊢
    unfold Pool.rekey
    exact (h.trans (State.modPool_winds (g := fun x => x.rekey handle key (if 2 ^ 17 ≤ key then key else closedKey key)) p _)).trans
      (State.Apart.winds ⟨rfl, rfl, rfl, rfl⟩)

theorem State.releaseAll_winds (key : Nat) (keep : Holder → Bool) (s : State) : s.Winds (s.releaseAll key keep) :=
  State.forEach_winds _ (fun p u => (State.setPool_winds p _ u).trans (State.forEach_winds _ (fun _ _ => State.releaseLater_winds ..) _)) s

/-! ## Work that waits, and jobs whose transfer has ended -/

theorem Later.run_winds (l : Later) (s : State) : s.Winds (l.run s) := by
  cases l with
  | error => exact State.writeError_winds ..
  | ending => exact (State.relayWrite_apart ..).winds
  | release => exact State.releaseBuffer_winds ..

theorem State.orLater_winds (l : Later) (s : State) : s.Winds (s.orLater l) := by
  unfold State.orLater
  have h := s.attempt_winds (body := fun s => ((), l.run s)) l.run_winds
  refine iteInduction (motive := s.Winds) (fun _ => ?_) fun _ => ?_
  · exact State.Apart.winds ⟨rfl, rfl, rfl, rfl⟩
  · split <;> rename_i e <;> rw [e] at h
    · exact h
    · exact h.trans (State.Apart.winds ⟨rfl, rfl, rfl, rfl⟩)

theorem Queue.AtDefaults.mapJobs {d : QueueDef} {x : Queue} (h : x.AtDefaults d) (g : Job → Job) :
    { x with jobs := x.jobs.map g }.AtDefaults d := by
  obtain ⟨hen, hbase, hindex, hlog, hweight, hburst, hjobs, harr⟩ := h
  exact ⟨hen, hbase, hindex, hlog, hweight, hburst, congrArg (List.map g) hjobs, harr⟩

theorem State.entryDone_winds (f q : Nat) (j : Job) (bs : Bytes) (code detail : Nat) (s : State) : s.Winds (s.entryDone f q j bs code detail) := by
  unfold State.entryDone
  dsimp only
  refine State.Winds.trans ?_ (State.modQueue_winds f q _ fun _ _ h => h.mapJobs _)
  split
  · exact .refl s
  · exact State.orLater_winds ..

theorem State.endTransfers_winds (f i : Nat) (s : State) : s.Winds (s.endTransfers f i) := by
  unfold State.endTransfers
  refine State.forEach_winds _ (fun p u => State.forEach_winds _ (fun j v => ?_) u) s
  split
  · exact State.entryDone_winds ..
  · exact .refl v

theorem State.mapQueues_winds {g : Nat → Queue → Queue} (hg : ∀ k x d, x.AtDefaults d → (g k x).AtDefaults d) (s : State) :
    s.Winds { s with queues := tblMap g s.queues } :=
  ⟨fun _ => id, fun _ => rfl, fun k d => tblGetD_tblMap_of (P := Queue.AtDefaults d) s.queues k .fresh fun x => hg k x d, fun _ => id⟩

theorem State.wakeJobs_winds (key : Nat) (s : State) : s.Winds (s.wakeJobs key) := by
  unfold State.wakeJobs
  exact State.mapQueues_winds (fun _ _ _ h => h.mapJobs _) s

/-! ## Lock groups -/

theorem State.releaseHead_winds (f i : Nat) (time : Option Nat) (s : State) : s.Winds (s.releaseHead f i time) := by
  unfold State.releaseHead
  dsimp only
  split
  · exact .refl s
  · exact (State.setStream_winds f i _ s).trans (State.relayPost_winds ..)

theorem State.releaseFreed_winds (g : LockGroup) (n : Nat) : ∀ s : State, s.Winds (s.releaseFreed g n) := by
  induction n with
  | zero => exact fun s => .refl s
  | succ n ih =>
    intro s
    unfold State.releaseFreed
    split
    · exact .refl s
    · split
      · exact .refl s
      · exact (State.forEach_winds _ (fun _ _ => State.releaseHead_winds ..) s).trans (ih _)

theorem State.leaveGroup_winds (f i : Nat) (s : State) : s.Winds (s.leaveGroup f i) := by
  unfold State.leaveGroup
  split
  · exact .refl s
  · rename_i g _
    have h := fun z => ((State.modStream_winds (g := fun x => { x with group := none }) f i s).trans
      (State.setGroup_apart g z _).winds).trans (State.releaseFreed_winds z (s.group g).depth _)
    dsimp only
    split
    · exact ((h _).trans (State.setGroup_apart ..).winds).trans (State.forEach_winds _ (fun k u => State.modStream_winds (k / 1024) (k % 1024) u) _)
    · exact h _

/-! ## Streams end -/

theorem State.mapStreams_winds {s t : State} {g : Nat → Stream → Stream} (hg : ∀ k x, (g k x).st = x.st) (hs : t.streams = tblMap g s.streams)
    (hf : t.funcs = s.funcs) (hq : t.queues = s.queues) (hp : t.pools = s.pools) : s.Winds t := by
  refine State.Winds.trans (b := { s with streams := t.streams }) ⟨fun k h => ?_, fun _ => rfl, fun _ _ => id, fun _ => id⟩
    (State.Apart.winds ⟨rfl, hf, hq, hp⟩)
  rw [hs]
  exact tblGetD_tblMap_of (P := fun x : Stream => x.st = .free) s.streams k .fresh (fun x h => (hg k x).trans h) h

/-- The last of a stream's end: its record is free, and the jobs that wait for it go on. -/
theorem State.setFree_winds_free (f i : Nat) (v : Stream) (hv : v.st = .free) (s : State) :
    s.Winds (((s.setStream f i v).wakeJobs (sKey f i)).watchPools) ∧
      ((((s.setStream f i v).wakeJobs (sKey f i)).watchPools).stream f i).st = .free := by
  have h := (State.wakeJobs_winds (sKey f i) (s.setStream f i v)).trans (State.watchPools_winds _)
  refine ⟨(State.setStream_winds f i v s fun _ => hv).trans h, h.free ?_⟩
  rwa [State.setStream_stream_same]

/-- A stream that is freed is free, and what is free stays so. -/
theorem State.freeStream_winds_free (f i : Nat) (s : State) : s.Winds (s.freeStream f i) ∧ ((s.freeStream f i).stream f i).st = .free := by
  unfold State.freeStream
  dsimp only
  split
  · exact ⟨.refl s, ‹_›⟩
  · generalize ha : (if s.hurdleAwaits (s.stream f i).gidx && !(s.stream f i).flushSent then s.sendFlush f i else s) = a
    have h : s.Winds a := ha ▸ iteInduction (fun _ => (s.sendFlush_apart f i).winds) fun _ => .refl s
    replace h := ((h.trans (a.endTransfers_winds f i)).trans (State.releaseAll_winds (sKey f i) (fun _ => false) _)).trans
      (State.leaveGroup_winds f i _)
    generalize State.leaveGroup f i _ = b at h ⊢
    generalize hc : (if (s.stream f i).pageGroupHeld then b.modFunc f _ else b) = c
    replace h : s.Winds c := h.trans (hc ▸ iteInduction (fun _ => State.modFunc_winds f b) fun _ => .refl b)
    replace h := (h.trans (State.leaveBanks_apart (s.stream f i).gidx c).winds).trans (State.dropReqs_apart (fun r =>
      r.ofStream f i (s.stream f i).gidx && (r.op == .read || r.owner.stream?.isSome)) _).winds
    generalize State.dropReqs _ _ = d at h ⊢
    obtain ⟨hend, hfree⟩ := State.setFree_winds_free f i { Stream.fresh with haltCode := (s.stream f i).haltCode } rfl _
    refine ⟨State.Winds.trans ?_ hend, hfree⟩
    exact h.trans (State.mapStreams_winds (g := fun k y => if k / 1024 = f ∧ y.follows = some i then { y with follows := none } else y)
      (fun _ _ => by split <;> rfl) rfl rfl rfl rfl)

theorem State.freeStream_winds (f i : Nat) (s : State) : s.Winds (s.freeStream f i) := (s.freeStream_winds_free f i).1

theorem State.freeDrained_winds (keys : List Nat) (n : Nat) : ∀ s : State, s.Winds (s.freeDrained keys n) := by
  induction n with
  | zero => exact fun s => .refl s
  | succ n ih =>
    intro s
    refine (State.forEach_winds _ (fun k u => ?_) s).trans (ih _)
    split
    · exact State.freeStream_winds ..
    · exact .refl u

theorem State.abortStream_winds (f i : Nat) (s : State) : s.Winds (s.abortStream f i) := by
  unfold State.abortStream State.closeStream
  dsimp only
  split
  · exact .refl s
  · exact (((State.dropReqs_apart ..).winds.trans (State.relayEnd_winds ..)).trans (State.freeStream_winds ..)).trans (State.freeDrained_winds ..)

theorem State.abortStream_free (f i : Nat) (s : State) : ((s.abortStream f i).stream f i).st = .free := by
  unfold State.abortStream State.closeStream
  dsimp only
  split
  · assumption
  · exact (State.freeDrained_winds ..).free (State.freeStream_winds_free ..).2

end Sys2Proof.Machine
end

section
/-! FUNC_RESET: what it closes and turns off, and when it ends (R180 to R182). -/

namespace Sys2Proof.Machine

/-! ## Every stream of a function ends (R181) -/

theorem State.abortWhere_winds (test : Nat → Nat → Stream → Bool) (s : State) : s.Winds (s.abortWhere test) :=
  State.forEach_winds _ (fun _ _ => State.abortStream_winds ..) s

/-- What one step of a walk brings about, and all its steps keep, holds at its end. -/
theorem State.forEach_reaches {α : Type} {P : State → Prop} {f : α → State → State} (hkeep : ∀ a s, P s → P (f a s))
    {a : α} (hat : ∀ s, P (f a s))
    (l : List α) : ∀ s : State, P s ∨ a ∈ l → P (s.forEach l f) := by
  induction l with
  | nil => exact fun s h => h.resolve_right (by simp)
  | cons b l ih =>
    intro s h
    refine ih (f b s) ?_
    rcases h with h | h
    · exact .inl (hkeep b s h)
    · rcases List.mem_cons.mp h with rfl | h
      · exact .inl (hat s)
      · exact .inr h

/-- An open stream of a function stands in the list of open streams. -/
theorem State.mem_openStreams {f i : Nat} (hi : i < 1024) {s : State} (h : (s.stream f i).st ≠ .free) : (f, i, s.stream f i) ∈ s.openStreams := by
  have hf : sKey f i / 1024 = f := by unfold sKey; omega
  have hk : sKey f i % 1024 = i := by unfold sKey; omega
  rcases tblGetD_eq_or_mem s.streams (sKey f i) .fresh with e | hm
  · exact absurd (congrArg Stream.st e) h
  · refine List.mem_map.mpr ⟨_, List.mem_filter.mpr ⟨hm, ?_⟩, ?_⟩
    · simpa [State.stream] using h
    · rw [hf, hk]
      rfl

/-- No stream of the function is open afterwards. -/
theorem State.abortWhere_frees (f : Nat) {i : Nat} (hi : i < 1024) (s : State) : ((s.abortWhere (fun g _ _ => g == f)).stream f i).st = .free := by
  refine State.forEach_reaches (P := fun t => (t.stream f i).st = .free) (a := (f, i, s.stream f i))
    (fun p t h => (t.abortStream_winds p.1 p.2.1).free h) (fun t => t.abortStream_free f i) _ s ?_
  by_cases h : (s.stream f i).st = .free
  · exact .inl h
  · exact .inr (List.mem_filter.mpr ⟨State.mem_openStreams hi h, by simp⟩)

/-! ## What a reset drops before that -/

theorem tblGetD_tblMap {α : Type} {g : Nat → α → α} {n : Nat} {d : α} (hg : g n d = d) (t : Tbl α) :
    tblGetD (tblMap g t) n d = g n (tblGetD t n d) := by
  unfold tblGetD
  rw [tblGet?_tblMap]
  cases tblGet? t n with
  | none => exact hg.symm
  | some x => rfl

/-- Functions and queues stand as they were, and all that is calm. -/
structure State.Counted (s t : State) : Prop where
  funcs : t.funcs = s.funcs
  queues : t.queues = s.queues
  calm : Calm s t

theorem State.Counted.trans {a b c : State} (h : a.Counted b) (k : b.Counted c) : a.Counted c :=
  ⟨k.funcs.trans h.funcs, k.queues.trans h.queues, h.calm.trans k.calm⟩

theorem State.clearCounts_counted (g i : Nat) (s : State) : s.Counted (s.clearCounts g i) := ⟨rfl, rfl, ⟨rfl⟩⟩

theorem State.forEach_counted {α : Type} (l : List α) {f : α → State → State} (h : ∀ a s, State.Counted s (f a s)) (s : State) :
    s.Counted (s.forEach l f) :=
  List.foldlRecOn l _ (motive := s.Counted) ⟨rfl, rfl, ⟨rfl⟩⟩ fun t ht a _ => ht.trans (h a t)

/-- The counters of what a function holds are 0. -/
def State.zeroCounts (f : Nat) (s : State) : State :=
  let s := s.forEach (s.allQueues.filter (fun p => p.1 == f)) (fun p s => s.clearCounts 5 p.2.2.qid)
  let s := s.forEach (s.openStreams.filter (fun p => p.1 == f)) (fun p s => s.clearCounts 4 p.2.2.gidx)
  let s := s.forEach (s.pools.filter (fun p => p.2.assigned && p.2.fn == f)) (fun p s => s.clearCounts 6 p.1)
  s.clearCounts 8 f

theorem State.forEach_clearCounts {α : Type} (l : List α) (g : Nat) (n : α → Nat) (s : State) :
    s.Counted (s.forEach l fun p u => u.clearCounts g (n p)) :=
  State.forEach_counted l (fun p u => u.clearCounts_counted g (n p)) s

theorem State.zeroCounts_counted (f : Nat) (s : State) : s.Counted (s.zeroCounts f) := by
  unfold State.zeroCounts
  dsimp only
  refine State.Counted.trans ?_ (State.clearCounts_counted 8 f _)
  refine State.Counted.trans ?_ (State.forEach_clearCounts (α := Nat × Pool) _ 6 (fun p => p.1) _)
  refine State.Counted.trans ?_ (State.forEach_clearCounts (α := Nat × Nat × Stream) _ 4 (fun p => p.2.2.gidx) _)
  exact State.forEach_clearCounts (α := Nat × Nat × Queue) _ 5 (fun p => p.2.2.qid) s

theorem State.clearFuncCounts_eq (f : Nat) (s : State) : ∃ streams pools, s.clearFuncCounts f = State.zeroCounts f { s with streams, pools } :=
  ⟨_, _, rfl⟩

theorem State.clearFuncCounts_counted (f : Nat) (s : State) : s.Counted (s.clearFuncCounts f) := by
  obtain ⟨streams, pools, h⟩ := s.clearFuncCounts_eq f
  rw [h]
  exact State.Counted.trans (b := { s with streams, pools }) ⟨rfl, rfl, ⟨rfl⟩⟩ (State.zeroCounts_counted ..)

/-- A function's counters, queues, requests and pools at a reset, before its streams end (R181). -/
def State.resetDrop (f : Nat) (s : State) : State :=
  let t := s.clearFuncCounts f
  (({ t with queues := tblMap (fun k x => if k / 512 = f then x.reset else x) t.queues,
             later := t.later.filter (fun l => l.queue?.all (fun p => p.1 != f)) } : State).dropReqs (fun r => r.ofFunction f)).dropPools f

theorem State.resetDrop_func (f g : Nat) (s : State) : (s.resetDrop f).func g = s.func g := by
  have h : (s.resetDrop f).funcs = (s.clearFuncCounts f).funcs := rfl
  unfold State.func
  rw [h, (s.clearFuncCounts_counted f).funcs]

theorem State.resetDrop_calm (f : Nat) (s : State) : Calm s (s.resetDrop f) := by
  have h := (s.clearFuncCounts_counted f).calm
  unfold State.resetDrop
  generalize s.clearFuncCounts f = t at h ⊢
  exact h.trans ⟨rfl⟩

/-- A queue of the function's range at a reset (R181). -/
def Queue.resetOf (f k : Nat) (x : Queue) : Queue := if k / 512 = f then x.reset else x

theorem State.resetDrop_queue {f q : Nat} {d : QueueDef} {s : State} (hd : (s.queue f q).defaults = some d) (hq : q < 512) :
    ((s.resetDrop f).queue f q).AtDefaults d := by
  have hf : qKey f q / 512 = f := by unfold qKey; omega
  have h : (s.resetDrop f).queues = tblMap (Queue.resetOf f) (s.clearFuncCounts f).queues := rfl
  have hfresh : Queue.resetOf f (qKey f q) .fresh = .fresh := ite_self _
  unfold State.queue at hd ⊢
  rw [h, (s.clearFuncCounts_counted f).queues, tblGetD_tblMap hfresh, Queue.resetOf, if_pos hf, Queue.reset, hd]
  exact ⟨rfl, rfl, rfl, rfl, rfl, rfl, rfl, rfl⟩

theorem State.dropPools_off (f : Nat) (s : State) : (s.dropPools f).PoolsOff f := by
  intro p hp ha hf
  obtain ⟨⟨k, x⟩, _, rfl⟩ := List.mem_map.mp hp
  dsimp only at ha hf ⊢
  split
  · rfl
  · rename_i hno
    rw [if_neg hno] at ha hf
    simp [ha, hf] at hno

/-! ## FUNC_RESET_GO (R180, R181) -/

/-- The function itself when its reset has begun. -/
def Func.resetting (value : Nat) (x : Func) : Func :=
  { x with st := .resetting, resetKeys := bitOf value 1, pageGroups := [], log := .fresh, oobDrop := 0, lostBells := 0 }

/-- No entry of the function's log waits for its unit (R181). -/
def State.closeLog (f : Nat) (s : State) : State := s.forEach (s.func f).log.waiting State.releaseUnit

theorem State.closeLog_apart (f : Nat) (s : State) : s.Apart (s.closeLog f) :=
  State.forEach_apart _ (f := State.releaseUnit) (fun _ _ => ⟨rfl, rfl, rfl, rfl⟩) s

theorem State.closeLog_calm (f : Nat) (s : State) : Calm s (s.closeLog f) := State.forEach_calm _ State.releaseUnit (fun _ _ => ⟨rfl⟩) s

/-- A reset up to the function's own update (R181). -/
def State.resetClose (f : Nat) (s : State) : State := ((s.resetDrop f).abortWhere (fun g _ _ => g == f)).closeLog f

theorem State.resetClose_winds (f : Nat) (s : State) : (s.resetDrop f).Winds (s.resetClose f) := by
  unfold State.resetClose
  exact (State.abortWhere_winds ..).trans (State.closeLog_apart ..).winds

theorem State.resetClose_frees (f : Nat) {i : Nat} (hi : i < 1024) (s : State) : ((s.resetClose f).stream f i).st = .free := by
  unfold State.resetClose
  exact (State.closeLog_apart ..).winds.free (State.abortWhere_frees f hi _)

theorem State.resetClose_calm (f : Nat) (s : State) : Calm s (s.resetClose f) := by
  unfold State.resetClose
  exact ((s.resetDrop_calm f).trans (State.abortWhere_calm ..)).trans (State.closeLog_calm ..)

/-- A reset of a function that is open or halted (R180, R181). -/
def State.beginReset (f value : Nat) (s : State) : State := (s.resetClose f).modFunc f (Func.resetting value)

theorem State.funcReset_go {f value : Nat} {s : State} (hgo : bitOf value 0 = true) (hst : (s.func f).st = .open_ ∨ (s.func f).st = .halted)
    (hfatal : s.frame.st ≠ .fatal) (hboot : s.frame.st ≠ .bootFail) : s.funcReset f value = s.beginReset f value := by
  unfold State.funcReset
  dsimp only
  rw [if_neg]
  · rfl
  · rcases hst with h | h <;> simp [hgo, h, hfatal, hboot]

/-- The effect of FUNC_RESET_GO on the function and on all else that the statement names. -/
structure State.ResetBegun (s : State) (f value : Nat) (t : State) : Prop where
  func : ∃ x, t.func f = Func.resetting value x
  streams : ∀ i, i < 1024 → (t.stream f i).st = .free
  queues : ∀ q d, (s.queue f q).defaults = some d → q < 512 → (t.queue f q).AtDefaults d
  pools : t.PoolsOff f
  others : ∀ g, g ≠ f → (t.func g).st = (s.func g).st
  calm : Calm s t

theorem State.beginReset_begun (f value : Nat) (s : State) : s.ResetBegun f value (s.beginReset f value) := by
  have hw := s.resetClose_winds f
  have hcalm := s.resetClose_calm f
  have hfree := fun i hi => s.resetClose_frees f (i := i) hi
  unfold State.beginReset
  generalize s.resetClose f = t at hw hcalm hfree ⊢
  refine ⟨⟨t.func f, ?_⟩, hfree, fun q d hd hq => hw.queues _ d (State.resetDrop_queue hd hq),
    hw.pools f (State.dropPools_off f _), fun g hg => ?_, hcalm.trans (State.modFunc_calm ..)⟩
  · rw [State.modFunc_eq, State.setFunc_func_same]
  · rw [State.modFunc_eq, State.setFunc_func_other _ _ _ _ hg, hw.funcs, State.resetDrop_func]

/-- The write that starts a reset reaches the function's reset, be it open or halted (R138, R179). -/
theorem execFuncResetGo_eq {acc : Acc} {fn : BitVec 6} {value : Word} {s : State}
    (ho : acc.origin = .frame ∨ (acc.origin = .function ∧ acc.fn = fn)) (hf : fn.toNat < s.caps.funcs) (he : s.early = false)
    (hfatal : s.frame.st ≠ .fatal) (hboot : s.frame.st ≠ .bootFail) (hst : (s.func fn.toNat).st = .open_ ∨ (s.func fn.toNat).st = .halted) :
    exec (.funcResetGo acc fn value) s = .next (s.beginReset fn.toNat (withBits value 1)).accepted := by
  have hexec : exec (.funcResetGo acc fn value) s = .next (s.hostWrite acc (fnReg fn 0x040) (withBits value 1) viewSame viewSame) := rfl
  rw [hexec, ← State.funcReset_go (bitOf_withBits_set value (by decide)) hst hfatal hboot]
  rcases hst with hst | hst
  · have hclear : s.clearW1c (.func fn.toNat) 0x040 (withBits value 1) = s := by simp [State.clearW1c, State.funcClear, arrayIx]
    rw [State.hostWrite_func ⟨ho, hf, he, hfatal, by simp [hst]⟩ _ _ _ _ (by omega), hclear, State.funcWrite, if_pos rfl]
  · have ha : (Page.func fn.toNat).allows acc = true := by
      rcases ho with h | ⟨h, h'⟩
      · simp [Page.allows, h]
      · simp [Page.allows, h, h']
    simp [State.hostWrite, fnReg, Caps.pageOf_func _ _ _ hf (show 0x40 < 0x10000 by omega), ha, he, State.regWrite, hst, hfatal, State.accepted,
      State.fencedOwner]

/-! ## FUNC_RESET_COMPLETE (R180 to R182, R176) -/

/-- The function's slots are empty where KEYS was written, and no other (R182). -/
theorem State.clearFuncKeys_if (f : Nat) (keys : Bool) (s : State) :
    (if keys then s.clearFuncKeys f else s) =
      { s with sec := { s.sec with slots := if keys then s.sec.slots.filter (fun p => p.2.fn != f) else s.sec.slots } } := by
  cases keys <;> rfl

theorem execFuncResetComplete_ends {fn : BitVec 6} {s : State} (hst : (s.func fn.toNat).st = .resetting) (hfatal : s.frame.st ≠ .fatal)
    (hboot : s.frame.st ≠ .bootFail) (hw : s.funcWritesOut fn.toNat = false) (hm : s.funcMsgsOut fn.toNat = false)
    (hb : s.funcBanksOut fn.toNat = false) (hl : s.endingWaits fn.toNat = false) :
    let f := fn.toNat
    let x := s.func f
    ∃ t, exec (.funcResetComplete fn) s = .next t ∧
      t.func f = { x with st := .open_, keysCleared := x.keysCleared || x.resetKeys, resetKeys := false, haltCode := 0 } ∧
      (∀ g, g ≠ f → t.func g = s.func g) ∧
      t.sec = { s.sec with slots := if x.resetKeys then s.sec.slots.filter (fun p => p.2.fn != f) else s.sec.slots } ∧
      t = { s with funcs := t.funcs, sec := t.sec, queues := t.queues } := by
  dsimp only
  have hexec : exec (.funcResetComplete fn) s = execFuncResetComplete fn s := rfl
  rw [hexec]
  unfold execFuncResetComplete
  dsimp only
  rw [if_neg (by simp [hst, hfatal, hboot, hw, hm, hb, hl]), State.clearFuncKeys_if]
  refine ⟨_, rfl, ?_, fun g hg => ?_, rfl, rfl⟩
  · rw [State.modFunc_eq, State.setFunc_func_same]
    rfl
  · rw [State.modFunc_eq, State.setFunc_func_other _ _ _ _ hg]
    rfl

/-- Settles O36: FUNC_RESET_GO drops what the function holds and ends each of its streams, which leaves the rest off (`State.resetClose_winds`);
FUNC_RESET_COMPLETE is its guard and its one update. -/
theorem functionResetRunsToOpen : Obligations.FunctionResetRunsToOpen := by
  unfold Obligations.FunctionResetRunsToOpen
  dsimp only
  refine ⟨fun acc fn value s ho hf he hfatal hboot hst => ?_, fun fn s => ⟨fun hst hfatal hboot hw hm hb hl => ?_, fun h => ?_⟩⟩
  · obtain ⟨⟨x, hx⟩, hstreams, hqueues, hpools, hothers, hcalm⟩ := s.beginReset_begun fn.toNat (withBits value 1)
    rw [execFuncResetGo_eq ho hf he hfatal hboot hst]
    generalize s.beginReset fn.toNat (withBits value 1) = t at hx hstreams hqueues hpools hothers hcalm ⊢
    refine ⟨t.accepted, rfl, ?_, ?_, ?_, ?_, ?_, ?_, rfl, hstreams, hqueues, hpools, hothers, hcalm.sec, hcalm.pins, hcalm.pace⟩ <;>
      rw [State.accepted, State.answer_func, hx, Func.resetting]
    exact bitOf_withBits_clear value (by decide)
  · exact execFuncResetComplete_ends hst hfatal hboot hw hm hb hl
  · exact if_pos h

end Sys2Proof.Machine
end

section
/-! A doorbell where sill port 0 does not serve (R84, R197, R210). -/

namespace Sys2Proof.Machine

/-- A queue that is on. -/
def bellQueue : Queue := { Queue.fresh with present := true, enabled := true, log2 := 6, weight := 1, burst := 1, base := 0x2000, index := 0x1000 }

/-- A frame that runs, with one open function and its queue, whose sill port 0 lies on an isolated die. -/
def deadPortState : State := { State.reset with
  frame := { Frame.fresh with st := .running }, funcs := [(0, { Func.fresh with st := .open_ })], queues := [(0, bellQueue)],
  ports := [(0, { Port.fresh with dead := true })] }

/-- The read of TAIL completes as DECERR at once (R84), which faults the queue (R135, R210). -/
theorem deadPortState_doorbell {t : State} (h : exec (.doorbell ⟨.function, 0⟩ 0 0) deadPortState = .next t) :
    (t.queue 0 0).fault = true := by
  have hfault : ((deadPortState.hostWrite ⟨.function, 0⟩ (fnReg 0 0x048) 0 viewSame viewSame).queue 0 0).fault = true := by
    decide +kernel
  exact Host.Outcome.next.inj h ▸ hfault

/-- Refutes O39: the statement has no premise that port 0 serves. Where it does not, a doorbell to an enabled queue of an open function
leaves the queue faulted, not with a TAIL read out. -/
theorem not_doorbellsFetchPostedEntries : ¬ Obligations.DoorbellsFetchPostedEntries := by
  rintro ⟨hbell, -⟩
  obtain ⟨-, hq⟩ := hbell ⟨.function, 0⟩ 0 0 deadPortState (.inr ⟨rfl, rfl⟩) (by decide) rfl (by decide)
  obtain ⟨t, he, hqueue, -⟩ := (hq (by decide) rfl).2 rfl rfl |>.2 rfl
  have hfault := deadPortState_doorbell he
  have hclean : (t.queue 0 0).fault = false := congrArg Queue.fault hqueue
  exact Bool.false_ne_true (hclean.symm.trans hfault)

end Sys2Proof.Machine
end

section
/-! How an entry acts, or waits its turn (R188 to R190, R204). -/

namespace Sys2Proof.Machine

/-- Work of a unit that ends in a next state, or has to wait (log 4). -/
theorem State.turn_after {s : State} {f : State → State} {body : State → Out} (h : body s.start = .next (f s.start)) :
    s.After f (s.turn body) := by
  unfold State.After State.turn
  rw [h]
  dsimp only
  cases (f s.start).running.miss <;> rfl

/-- Such work is done where nothing in it has to wait. -/
theorem State.After.done {s t : State} {f : State → State} {o : Out} (h : s.After f o) (ht : f s.start = t) (hm : t.running.miss = none) :
    o = .next { t with running := s.running } := by
  unfold State.After at h
  rw [h, ht, hm]
  rfl

/-- Where something has to wait, the accesses that were made are left. -/
theorem State.After.waits {s t : State} {f : State → State} {o : Out} (h : s.After f o) (ht : f s.start = t)
    (hm : t.running.miss.isSome = true) : o = .next (s.waited t.running) := by
  obtain ⟨m, e⟩ := Option.isSome_iff_exists.mp hm
  unfold State.After at h
  rw [h, ht, if_neg (by simp [e])]

/-- The command of an opcode runs the entry as that opcode (R188). -/
theorem entryCommand_runs {op : Nat} {fn : BitVec 6} {q : BitVec 9} {slot : BitVec 16} {v : MemView} {c : Instr}
    (h : entryCommand op fn q slot v = some c) (s : State) : ∃ body, exec c s = s.runEntry op fn.toNat q.toNat slot.toNat v body := by
  unfold entryCommand at h
  iterate 15
    rcases ite_eq_iff.mp h with ⟨rfl, h⟩ | ⟨-, h⟩
    · cases h
      exact ⟨_, rfl⟩
  cases h

section
variable {s : State} {op f q slot : Nat} {v : MemView} {body : Job → Bytes → State → State} {j : Job} {e : Bytes}

/-- An entry that may not act yet changes nothing (R190, R204). -/
theorem State.runEntry_idle (h : (s.seeMem v).readyEntry op f q slot = none) : s.runEntry op f q slot v body = .next (s.seeMem v) := by
  have hstart : (s.seeMem v).start.readyEntry op f q slot = none := h
  unfold State.runEntry
  refine State.turn_of_next (s := s.seeMem v) (t := (s.seeMem v).start) ?_ rfl
  rw [hstart]

/-- In WALK an entry other than a COPY completes with ACCESS_DENIED (R190). -/
theorem State.runEntry_walk (h : (s.seeMem v).readyEntry op f q slot = some (j, e)) (hw : s.frame.st = .walk) (hop : op ≠ 1) :
    (s.seeMem v).After (fun w => if op = 2 ∨ op = 12 then w.jobDone f q j stAccessDenied 0 else w.entryDone f q j e stAccessDenied 0)
      (s.runEntry op f q slot v body) := by
  have hstart : (s.seeMem v).start.readyEntry op f q slot = some (j, e) := h
  unfold State.runEntry
  refine State.turn_after ?_
  rw [hstart]
  simp [hw, hop, pairJob]

/-- An entry of a frame that is RUNNING acts. -/
theorem State.runEntry_acts (h : (s.seeMem v).readyEntry op f q slot = some (j, e)) (hr : s.frame.st = .running) :
    (s.seeMem v).After (body j e) (s.runEntry op f q slot v body) := by
  have hstart : (s.seeMem v).start.readyEntry op f q slot = some (j, e) := h
  unfold State.runEntry
  refine State.turn_after ?_
  rw [hstart]
  simp [hr]

end

/-- Settles O41: each command of an entry is runEntry (entryCommand_runs), which asks first whether the entry may act, then for WALK. -/
theorem entriesWaitTheirTurn : Obligations.EntriesWaitTheirTurn := by
  intro op fn q slot v c s u hc
  obtain ⟨body, hexec⟩ := entryCommand_runs hc s
  rw [hexec]
  exact ⟨State.runEntry_idle, fun j e => State.runEntry_walk⟩

end Sys2Proof.Machine
end

section
/-! How an access of a command ends where memory answers OKAY: it has to wait, or it is answered (R119 to R135; log 4). -/

namespace Sys2Proof.Machine

/-! ## Ports that stand -/

/-- A port holds the answers it held, and serves as it did. -/
def Port.Stands (p p' : Port) : Prop := p'.answers = p.answers ∧ p'.dead = p.dead ∧ p'.failed = p.failed

/-- Every port stands. -/
def State.Stands (s t : State) : Prop := ∀ n, (s.port n).Stands (t.port n)

theorem State.Stands.refl (s : State) : s.Stands s := fun _ => ⟨rfl, rfl, rfl⟩

theorem State.Stands.trans {a b c : State} (h : a.Stands b) (k : b.Stands c) : a.Stands c := fun n =>
  ⟨(k n).1.trans (h n).1, (k n).2.1.trans (h n).2.1, (k n).2.2.trans (h n).2.2⟩

theorem State.stands_of_ports {s t : State} (h : t.ports = s.ports) : s.Stands t := by
  intro n
  unfold State.port
  rw [h]
  exact ⟨rfl, rfl, rfl⟩

theorem State.modPort_stands {g : Port → Port} (h : ∀ p : Port, p.Stands (g p)) (n : Nat) (s : State) : s.Stands (s.modPort n g) := by
  intro m
  rw [State.modPort_eq]
  by_cases e : m = n
  · subst e
    rw [State.setPort_port_same]
    exact h _
  · rw [State.setPort_port_other _ _ _ _ e]
    exact ⟨rfl, rfl, rfl⟩

theorem State.Signals.stands {s t : State} (h : s.Signals t) : s.Stands t := by
  intro n
  rw [h.2 n]
  exact ⟨rfl, rfl, rfl⟩

theorem State.issue_stands (n tag : Nat) (r : Req) (s : State) : s.Stands (s.issue n tag r) :=
  (s.signals_transfer n tag r).stands.trans (State.modPort_stands (g := fun p => { p with
    waiting := p.waiting.erase r, writes := if r.op = .write then p.writes ++ [⟨tag, r, s.now, s.urgent r, [], [], false⟩] else p.writes,
    reads := if r.op = .write then p.reads else p.reads ++ [⟨tag, r, s.now, s.urgent r, [], [], false⟩] })
    (fun _ => ⟨rfl, rfl, rfl⟩) n _)

theorem State.letPass_stands (n : Nat) (r : Req) (k : Nat) : ∀ s : State, s.Stands (s.letPass n r k) := by
  induction k with
  | zero => exact fun s => .refl s
  | succ k ih =>
    intro s
    unfold State.letPass
    split
    · exact .refl s
    · split
      · exact .refl s
      · split
        · exact .refl s
        · exact (s.issue_stands n _ _).trans (ih _)

theorem State.toSlot_stands (n : Nat) (r : Req) (s : State) : s.Stands (s.toSlot n r).2 := by
  have hp := s.letPass_stands n r (s.port n).waiting.length
  unfold State.toSlot
  dsimp only
  split
  · exact hp
  · split
    · exact hp.trans (State.signals_passIdle ..).stands
    · exact hp

/-! ## Ports at rest -/

/-- No request holds a tag at a port at rest. -/
theorem Port.AtRest.table {p : Port} (h : p.AtRest) (op : SillOp) : p.table op = [] := by
  obtain ⟨-, hreads, hwrites, -, -⟩ := h
  unfold Port.table
  split <;> assumption

/-- At a port at rest every request has its tag (R129, R132). -/
theorem State.PortsRest.freeTag_op {s : State} (h : s.PortsRest) (n : Nat) (op : SillOp) : ∃ tag, s.freeTag n op = some tag := by
  have hret : (s.port n).retired.length < 64 := (h.port n).2.2.2.2
  have htag := firstTag_le [] (s.port n).retired (if op = .write then 8192 else 0) (0 + (s.port n).retired.length) 0
  unfold State.freeTag
  dsimp only
  rw [(h.port n).table, List.length_nil]
  generalize firstTag [] (s.port n).retired _ _ 0 = tag at htag ⊢
  exact ⟨tag, if_neg (by split <;> omega)⟩

/-- At a port at rest every request comes to its issue slot at once. -/
theorem State.PortsRest.toSlot_op {s : State} (h : s.PortsRest) (n : Nat) (r : Req) :
    ∃ tag, s.toSlot n r = (some tag, s.passIdle n (s.idleBefore n r)) := by
  obtain ⟨tag, ht⟩ := h.freeTag_op n r.op
  have hw : (s.port n).waiting.length = 0 := by rw [(h.port n).1]; rfl
  refine ⟨tag, ?_⟩
  simp only [State.toSlot, hw, State.letPass, ht, h.granulesFree r, if_true]

/-! ## Accesses that go on -/

/-- A step of a command's access: only memory, ports, counters and notes change, the ports stand, they rest where they rested, and the
command has to wait where it had to. -/
structure State.Passes (s t : State) : Prop where
  accesses : s.Accesses t
  stands : s.Stands t
  rest : s.PortsRest → t.PortsRest
  on : t.running.on = s.running.on
  miss : t.running.miss = s.running.miss

theorem State.Passes.refl (s : State) : s.Passes s := ⟨.refl s, .refl s, id, rfl, rfl⟩

theorem State.Passes.trans {a b c : State} (h : a.Passes b) (k : b.Passes c) : a.Passes c :=
  ⟨h.accesses.trans k.accesses, h.stands.trans k.stands, k.rest ∘ h.rest, k.on.trans h.on, k.miss.trans h.miss⟩

/-- Where only the ports' slots are used, the notes of the command stay. -/
theorem State.OnSlots.running {s t : State} (h : s.OnSlots t) : t.running = s.running := by rw [h]

theorem State.OnSlots.passes {s t : State} (h : s.OnSlots t) (hs : s.Stands t) (hr : s.PortsRest → t.PortsRest) : s.Passes t :=
  ⟨h.onMemory.accesses, hs, hr, congrArg Running.on h.running, congrArg Running.miss h.running⟩

theorem State.toSlot_passes (n : Nat) (r : Req) (s : State) : s.Passes (s.toSlot n r).2 := by
  refine (s.toSlot_onSlots n r).passes (s.toSlot_stands n r) fun h => ?_
  obtain ⟨tag, e⟩ := h.toSlot_op n r
  rw [e]
  exact (State.passIdle_restsOn ..).rest h

theorem State.transfer_passes (n tag : Nat) (r : Req) (s : State) : s.Passes (s.transfer n tag r) :=
  (s.transfer_onSlots n tag r).passes (s.signals_transfer n tag r).stands (s.transfer_restsOn n tag r).rest

theorem State.retire_passes (n : Nat) (o : OutReq) (s : State) : s.Passes (s.retire n o) := by
  refine (s.retire_onSlots n o).passes (State.modPort_stands (fun p => ?_) n s) fun h => h.setPort n ?_
  · split <;> exact ⟨rfl, rfl, rfl⟩
  · obtain ⟨hwait, hreads, hwrites, hans, hret⟩ := h.port n
    dsimp only
    split
    · exact ⟨hwait, hreads, by dsimp only; rw [hwrites]; rfl, hans, hret⟩
    · exact ⟨hwait, by dsimp only; rw [hreads]; rfl, hwrites, hans, hret⟩

/-- An OKAY answer leaves the ports, and in memory what the request does there (R125, R127). -/
theorem State.answered_passes (n : Nat) (r : Req) (s : State) : ∃ t, s.answered n r .okay = (.okay, s.memOf r, t) ∧ s.Passes t ∧
    t.mem = (s.memDone r (s.memOf r)).mem := by
  have hports : (s.memDone r (s.memOf r)).ports = s.ports := by rw [s.memDone_onMemory r (s.memOf r)]; unfold State.memDone; split <;> rfl
  have hrun : (s.memDone r (s.memOf r)).running = s.running := by rw [s.memDone_onMemory r (s.memOf r)]
  have hacc := s.answered_accesses n r .okay
  suffices h : s.Passes (s.answered n r .okay).2.2 ∧ (s.answered n r .okay).2.2.mem = (s.memDone r (s.memOf r)).mem from ⟨_, rfl, h⟩
  unfold State.answered at hacc ⊢
  dsimp only [State.countResp] at hacc ⊢
  rw [if_pos rfl] at hacc ⊢
  generalize s.memDone r (s.memOf r) = u at hports hrun hacc ⊢
  have hrest {t : State} (ht : t.ports = u.ports) (h : s.PortsRest) : t.PortsRest := by
    unfold State.PortsRest at h ⊢
    rwa [ht, hports]
  split at hacc <;> rename_i hon
  · rw [if_pos hon]
    exact ⟨⟨hacc, State.stands_of_ports hports, hrest rfl, congrArg (·.on) hrun, congrArg (·.miss) hrun⟩, rfl⟩
  · rw [if_neg hon]
    exact ⟨⟨hacc, State.stands_of_ports hports, hrest rfl, congrArg Running.on hrun, congrArg Running.miss hrun⟩, rfl⟩

/-- The running command has to wait, which it has not where the ports rest. -/
structure State.Sticks (s t : State) : Prop where
  accesses : s.Accesses t
  miss : t.running.miss.isSome = true
  busy : ¬ s.PortsRest

theorem State.Passes.sticks {a b c : State} (h : a.Passes b) (k : b.Sticks c) : a.Sticks c :=
  ⟨h.accesses.trans k.accesses, k.miss, fun hr => k.busy (h.rest hr)⟩

/-- A command runs, and a port serves it and holds no answer for it. -/
structure State.Runs (s : State) (n : Nat) : Prop where
  on : s.running.on = true
  miss : s.running.miss = none
  up : s.portUp n = true
  clear : (s.port n).answers = []

theorem State.Passes.portUp {s t : State} (h : s.Passes t) (n : Nat) : t.portUp n = s.portUp n := by
  obtain ⟨-, hdead, hfailed⟩ := h.stands n
  have hports : t.nPorts = s.nPorts := by
    unfold State.nPorts
    rw [h.accesses]
  unfold State.portUp
  rw [hports, hdead, hfailed]

theorem State.Passes.runs {s t : State} (h : s.Passes t) {n : Nat} (k : s.Runs n) : t.Runs n :=
  ⟨h.on.trans k.on, h.miss.trans k.miss, (h.portUp n).trans k.up, (h.stands n).1.trans k.clear⟩

theorem State.Passes.answerAt {s t : State} (h : s.Passes t) (a k : Nat) : t.answerAt a k = s.answerAt a k := by
  unfold State.answerAt
  rw [h.accesses]

/-! ## How an access ends -/

theorem State.mustWait_isSome {s : State} (h : s.running.on = true) (m : Miss) : (s.mustWait m).running.miss.isSome = true := by
  unfold State.mustWait
  split
  · rfl
  · rename_i hno
    cases hm : s.running.miss
    · simp [h, hm] at hno
    · rfl

/-- An access that memory answers with OKAY has to wait for its slot, or is answered. -/
theorem State.access_ends {s : State} {n : Nat} {r : Req} (h : s.Runs n) (hr : s.respTo r = some .okay) :
    (∃ t, s.access n r = (.decerr, [], t) ∧ s.Sticks t) ∨
    ∃ t, s.access n r = (.okay, s.memOf r, t) ∧ s.Passes t ∧ t.mem = (s.memDone r (s.memOf r)).mem := by
  have answer {u : State} (hu : s.Passes u) (hmem : u.mem = s.mem) :
      ∃ t, u.answered n r .okay = (.okay, s.memOf r, t) ∧ s.Passes t ∧ t.mem = (s.memDone r (s.memOf r)).mem := by
    have hof : u.memOf r = s.memOf r := by unfold State.memOf; rw [hmem]
    obtain ⟨t, et, ht, hm⟩ := u.answered_passes n r
    rw [hof] at et hm
    refine ⟨t, et, hu.trans ht, hm.trans ?_⟩
    unfold State.memDone
    split <;> simp only [hmem]
  unfold State.access
  rw [h.miss, h.clear]
  simp only [Option.isSome_none, Bool.false_eq_true, if_false, List.find?_nil]
  split
  · rename_i o _
    rw [hr]
    exact .inr (answer (s.retire_passes n o) rfl)
  · have hslot := s.toSlot_passes n r
    have hmem : (s.toSlot n r).2.mem = s.mem := by rw [s.toSlot_onSlots n r]
    have hrest := fun hrest : s.PortsRest => hrest.toSlot_op n r
    split <;> rename_i e <;> rw [e] at hslot hmem hrest
    · refine .inl ⟨_, rfl, hslot.accesses.trans (State.mustWait_accesses ..), State.mustWait_isSome (hslot.on.trans h.on) _, fun hr => ?_⟩
      obtain ⟨tag, he⟩ := hrest hr
      cases he
    · rename_i tag t
      rw [hr]
      exact .inr (answer (hslot.trans (State.transfer_passes n tag r t)) ((congrArg State.mem (State.transfer_onSlots n tag r t)).trans hmem))

/-! ## Pages -/

theorem State.readPage_ends {s : State} {w : Party} {addr len : Nat} (h : s.Runs w.port) (ho : s.answerAt addr len = some .okay) :
    (∃ bs t, s.readPage w addr len = (.decerr, bs, t) ∧ s.Sticks t) ∨
    ∃ t, s.readPage w addr len = (.okay, memReadBytes s.mem addr len, t) ∧ s.Passes t ∧ t.mem = s.mem := by
  have hbytes : bytesAt (s.memOf (w.req .read addr len 0 [])) (addr % 64) len = memReadBytes s.mem addr len := bytesAt_granules ..
  unfold State.readPage
  rw [if_neg (by simp [h.up])]
  rcases State.access_ends h (State.respTo_okay (w := w) (op := .read) (x := 0) (d := []) ⟨h.up, ho⟩) with ⟨t, e, ht⟩ | ⟨t, e, ht, hm⟩ <;> rw [e]
  · exact .inl ⟨_, t, rfl, ht⟩
  · dsimp only
    rw [hbytes]
    exact .inr ⟨t, rfl, ht, hm⟩

/-- Whole granules are written as they are (R121). -/
theorem State.writePage_ends {s : State} {w : Party} {addr : Nat} {bs : Bytes} (h : s.Runs w.port)
    (ho : s.answerAt addr bs.length = some .okay) (ha : addr % 64 = 0) (hl : bs.length % 64 = 0) :
    (∃ t, s.writePage w addr bs = (.decerr, t) ∧ s.Sticks t) ∨
    ∃ t, s.writePage w addr bs = (.okay, t) ∧ s.Passes t ∧ t.mem = memWriteBytes s.mem addr bs := by
  have hstop : (64 - (addr + bs.length) % 64) % 64 = 0 := by omega
  have haddr : addr / 64 * 64 = addr := by omega
  have hmem : (s.memDone (w.req .write addr bs.length 0 bs) (s.memOf (w.req .write addr bs.length 0 bs))).mem = memWriteBytes s.mem addr bs :=
    congrArg (memWriteBytes s.mem · bs) haddr
  unfold State.writePage
  rw [if_neg (by simp [h.up])]
  dsimp only
  rw [hstop, ha, memReadBytes, memReadBytes, List.nil_append, List.append_nil]
  rcases State.access_ends h (State.respTo_okay (w := w) (op := .write) (x := 0) (d := bs) ⟨h.up, ho⟩) with ⟨t, e, ht⟩ | ⟨t, e, ht, hm⟩ <;> rw [e]
  · exact .inl ⟨t, rfl, ht⟩
  · exact .inr ⟨t, rfl, ht, hm.trans hmem⟩

/-- A read within a page is one read of the page (R120). -/
theorem State.sysRead_page {s : State} {w : Party} {addr len : Nat} (h0 : 0 < len) (hp : addr % 4096 + len ≤ 4096) :
    s.sysRead w addr len = if endsRead (s.readPage w addr len).1 then ((s.readPage w addr len).1, zeros len, (s.readPage w addr len).2.2)
      else s.readPage w addr len := by
  have hmin : min len (4096 - addr % 4096) = len := by omega
  unfold State.sysRead spanFuel State.sysReadGo
  rw [if_neg (by omega), hmin]
  unfold State.sysReadGo
  dsimp only
  rw [Nat.sub_self, if_pos rfl]
  dsimp only [readThen]
  rw [List.append_nil]

/-- A write within a page is one write of the page (R120). -/
theorem State.sysWrite_page {s : State} {w : Party} {addr : Nat} {bs : Bytes} (h0 : 0 < bs.length) (hp : addr % 4096 + bs.length ≤ 4096) :
    s.sysWrite w addr bs = s.writePage w addr bs := by
  have hne : bs.isEmpty = false := by
    cases bs
    · cases h0
    · rfl
  have htake : bs.take (4096 - addr % 4096) = bs := List.take_of_length_le (by omega)
  have hdrop : bs.drop (4096 - addr % 4096) = [] := List.drop_of_length_le (by omega)
  unfold State.sysWrite spanFuel State.writeSpan
  dsimp only
  rw [hne, htake, hdrop]
  obtain ⟨r, t⟩ := s.writePage w addr bs
  cases r with
  | okay => unfold State.writeSpan; rfl
  | fault | poison | decerr => rfl

end Sys2Proof.Machine
end

section
/-! COPY with MODE 0: piece by piece the bytes of the source come to the destination (R204, R315). -/

namespace Sys2Proof.Machine

/-! ## Memory with a span copied -/

/-- The second memory holds at `dst` the `n` bytes that the first holds at `src`, and elsewhere what the first holds. -/
def Mem.Copied (m m' : Mem) (src dst n : Nat) : Prop :=
  ∀ a, memRead m' a = if dst ≤ a ∧ a < dst + n then memRead m (src + (a - dst)) else memRead m a

theorem memReadBytes_getElem (m : Mem) (n : Nat) : ∀ (a i : Nat) (h : i < (memReadBytes m a n).length),
    (memReadBytes m a n)[i] = memRead m ((a + i) % 2 ^ 64) := by
  induction n with
  | zero => exact fun _ _ h => absurd h (Nat.not_lt_zero _)
  | succ n ih =>
    intro a i h
    cases i with
    | zero => rfl
    | succ i =>
      simp only [memReadBytes, List.getElem_cons_succ, ih]
      congr 2
      omega

theorem Mem.Copied.zero (m : Mem) (src dst : Nat) : m.Copied m src dst 0 := fun a => (if_neg (by omega)).symm

/-- What a write of the bytes read leaves. -/
theorem Mem.copied_write {m : Mem} (h : m.wf = true) {src dst n : Nat} (hs : src + n ≤ 2 ^ 64) (hd : dst + n ≤ 2 ^ 64) :
    m.Copied (memWriteBytes m dst (memReadBytes m src n)) src dst n := by
  have hlen := memReadBytes_length m n src
  intro a
  split
  · obtain ⟨i, rfl⟩ : ∃ i, a = dst + i := ⟨a - dst, by omega⟩
    have hi : i < (memReadBytes m src n).length := by omega
    have hsame := memRead_memWriteBytes_same (memReadBytes m src n) h dst (by omega) i hi
    rw [memReadBytes_getElem, Nat.mod_eq_of_lt (by omega), Nat.mod_eq_of_lt (by omega)] at hsame
    rw [hsame, Nat.add_sub_cancel_left]
  · refine memRead_memWriteBytes_other _ h dst a fun i hi => ?_
    rw [Nat.mod_eq_of_lt (by omega)]
    omega

/-- A piece and then the rest are copied where source and destination do not overlap. -/
theorem Mem.Copied.append {a b c : Mem} {src dst k n : Nat} (h : a.Copied b src dst k) (h' : b.Copied c (src + k) (dst + k) n)
    (hd : dst + (k + n) ≤ src ∨ src + (k + n) ≤ dst) : a.Copied c src dst (k + n) := by
  intro x
  rw [h' x]
  by_cases hx : dst + k ≤ x ∧ x < dst + k + n
  · have hoff : src + k + (x - (dst + k)) = src + (x - dst) := by omega
    rw [if_pos hx, if_pos (by omega), h, if_neg (by omega), hoff]
  · rw [if_neg hx, h x]
    by_cases hk : dst ≤ x ∧ x < dst + k
    · rw [if_pos hk, if_pos (by omega)]
    · rw [if_neg hk, if_neg (by omega)]

theorem Mem.Copied.reads {m m' : Mem} {src dst n : Nat} (h : m.Copied m' src dst n) (hs : src + n ≤ 2 ^ 64) (hd : dst + n ≤ 2 ^ 64) :
    memReadBytes m' dst n = memReadBytes m src n := by
  refine List.ext_getElem (by rw [memReadBytes_length, memReadBytes_length]) fun i hi _ => ?_
  rw [memReadBytes_length] at hi
  rw [memReadBytes_getElem, memReadBytes_getElem, Nat.mod_eq_of_lt (by omega), Nat.mod_eq_of_lt (by omega), h, if_pos (by omega),
    Nat.add_sub_cancel_left]

theorem Mem.Copied.other {m m' : Mem} {src dst n : Nat} (h : m.Copied m' src dst n) {a : Nat} (ha : a < dst ∨ dst + n ≤ a) :
    memRead m' a = memRead m a := by
  rw [h, if_neg (by omega)]

/-! ## One piece -/

/-- A copy of whole granules within the 64-bit space, without overlap, where memory answers OKAY (R120, R135, R315). -/
structure State.Copyable (s : State) (src dst n : Nat) : Prop where
  srcGran : src % 64 = 0
  dstGran : dst % 64 = 0
  lenGran : n % 64 = 0
  apart : dst + n ≤ src ∨ src + n ≤ dst
  srcFits : src + n ≤ 2 ^ 64
  dstFits : dst + n ≤ 2 ^ 64
  okay : ∀ a k, 0 < k → ((src ≤ a ∧ a + k ≤ src + n) ∨ (dst ≤ a ∧ a + k ≤ dst + n)) → s.answerAt a k = some .okay

/-- What is left of a copy after a piece. -/
theorem State.Copyable.rest {s t : State} {src dst k n : Nat} (h : s.Copyable src dst (k + n)) (hk : k % 64 = 0) (ht : s.Passes t) :
    t.Copyable (src + k) (dst + k) n := by
  obtain ⟨hsrc, hdst, hlen, hapart, hsf, hdf, hok⟩ := h
  exact ⟨by omega, by omega, by omega, by omega, by omega, by omega, fun a l hl hin => (ht.answerAt a l).trans (hok a l hl (by omega))⟩

/-- One piece of a copy is read and written. -/
def State.copyPiece (f src dst k : Nat) (s : State) : CopyEnd × State :=
  match s.sysRead (.control f) src k with
  | (.okay, bs, s) => match s.sysWrite (.control f) dst bs with
    | (.okay, s) => (none, s)
    | (r, s) => (some (respCode r, 0), s)
  | (r, _, s) => (some (respCode r, 0), s)

/-- A copy goes on after a piece that ended well. -/
theorem State.copyPlain_succ (f fuel src dst n : Nat) (s : State) (hn : n ≠ 0) :
    s.copyPlain f (fuel + 1) src dst n =
      let k := min n (min (4096 - src % 4096) (4096 - dst % 4096))
      match s.copyPiece f src dst k with
      | (none, s) => s.copyPlain f fuel (src + k) (dst + k) (n - k)
      | p => p := by
  rw [State.copyPlain, if_neg hn]
  unfold State.copyPiece
  dsimp only
  generalize s.sysRead _ src _ = p
  obtain ⟨r, bs, t⟩ := p
  cases r with
  | fault | poison | decerr => rfl
  | okay =>
    dsimp only
    generalize t.sysWrite _ dst bs = p
    obtain ⟨r, u⟩ := p
    cases r <;> rfl

/-- A piece that lies in one page of the source and one of the destination (R120). -/
theorem State.copyPiece_ends {s : State} {f src dst k : Nat} (hr : s.Runs 0) (hm : s.mem.wf = true) (h : s.Copyable src dst k) (hk : 0 < k)
    (hsp : src % 4096 + k ≤ 4096) (hdp : dst % 4096 + k ≤ 4096) :
    (∃ e t, s.copyPiece f src dst k = (some e, t) ∧ s.Sticks t) ∨
    ∃ t, s.copyPiece f src dst k = (none, t) ∧ s.Passes t ∧ s.mem.Copied t.mem src dst k ∧ t.mem.wf = true := by
  unfold State.copyPiece
  rw [State.sysRead_page hk hsp]
  rcases State.readPage_ends (w := .control f) hr (h.okay src k hk (by omega)) with ⟨bs, t, e, ht⟩ | ⟨t, e, ht, hmem⟩ <;> rw [e]
  · exact .inl ⟨_, t, rfl, ht⟩
  · have hlen := memReadBytes_length s.mem k src
    have hokay : t.answerAt dst (memReadBytes s.mem src k).length = some .okay := by
      rw [hlen, ht.answerAt]
      exact h.okay dst k hk (by omega)
    dsimp only
    rw [if_neg (show ¬ endsRead .okay = true by decide)]
    dsimp only
    rw [State.sysWrite_page (by omega) (by omega)]
    rcases State.writePage_ends (w := .control f) (ht.runs hr) hokay h.dstGran (by rw [hlen]; exact h.lenGran)
      with ⟨u, eu, hu⟩ | ⟨u, eu, hu, humem⟩ <;> rw [eu]
    · exact .inl ⟨_, u, rfl, ht.sticks hu⟩
    · rw [hmem] at humem
      refine .inr ⟨u, rfl, ht.trans hu, ?_, ?_⟩ <;> rw [humem]
      · exact Mem.copied_write hm h.srcFits h.dstFits
      · exact memWriteBytes_wf _ _ _ hm

/-! ## All pieces -/

/-- The number suffices for the pieces: each ends at the end of a page of the source or of the destination, or is the last. -/
def copyEnough (fuel src dst n : Nat) : Prop := n = 0 ∨ (src % 4096 + n - 1) / 4096 + (dst % 4096 + n - 1) / 4096 + 1 ≤ fuel

theorem copyEnough_copyFuel (src dst n : Nat) : copyEnough (copyFuel n) src dst n := by
  unfold copyEnough copyFuel
  omega

theorem copyEnough_rest {fuel src dst n k : Nat} (h : copyEnough (fuel + 1) src dst n) (hn : n ≠ 0)
    (hk : k = min n (min (4096 - src % 4096) (4096 - dst % 4096))) : copyEnough fuel (src + k) (dst + k) (n - k) := by
  unfold copyEnough at *
  omega

/-- A copy ends with every byte of the source at the destination, unless an access of it has to wait. -/
theorem State.copyPlain_ends (f fuel : Nat) : ∀ {s : State} {src dst n : Nat}, s.Runs 0 → s.mem.wf = true → s.Copyable src dst n →
    copyEnough fuel src dst n →
    (∃ e t, s.copyPlain f fuel src dst n = (some e, t) ∧ s.Sticks t) ∨
    ∃ t, s.copyPlain f fuel src dst n = (none, t) ∧ s.Passes t ∧ s.mem.Copied t.mem src dst n := by
  induction fuel with
  | zero =>
    intro s src dst n _ _ _ hfuel
    have hn : n = 0 := by
      unfold copyEnough at hfuel
      omega
    subst hn
    exact .inr ⟨s, rfl, .refl s, Mem.Copied.zero s.mem src dst⟩
  | succ fuel ih =>
    intro s src dst n hr hm h hfuel
    by_cases hn : n = 0
    · subst hn
      exact .inr ⟨s, by rw [State.copyPlain, if_pos rfl], .refl s, Mem.Copied.zero s.mem src dst⟩
    · rw [State.copyPlain_succ _ _ _ _ _ _ hn]
      have hsrc := h.srcGran
      have hdst := h.dstGran
      have hlen := h.lenGran
      have hk : ∃ k, k = min n (min (4096 - src % 4096) (4096 - dst % 4096)) := ⟨_, rfl⟩
      obtain ⟨k, hk⟩ := hk
      have hrest := copyEnough_rest hfuel hn hk
      rw [← hk]
      obtain ⟨l, rfl⟩ : ∃ l, n = k + l := ⟨n - k, by omega⟩
      have hpiece : s.Copyable src dst k := ⟨hsrc, hdst, by omega, by have := h.apart; omega, by have := h.srcFits; omega,
        by have := h.dstFits; omega, fun a m hm hin => h.okay a m hm (by omega)⟩
      rw [Nat.add_sub_cancel_left] at hrest
      dsimp only
      rw [Nat.add_sub_cancel_left]
      rcases State.copyPiece_ends (f := f) hr hm hpiece (by omega) (by omega) (by omega) with ⟨e, t, et, ht⟩ | ⟨t, et, ht, hcopied, hwf⟩ <;> rw [et]
      · exact .inl ⟨e, t, rfl, ht⟩
      · rcases ih (ht.runs hr) hwf (h.rest (by omega) ht) hrest with ⟨e, u, eu, hu⟩ | ⟨u, eu, hu, hcopied'⟩ <;> dsimp only <;> rw [eu]
        · exact .inl ⟨e, u, rfl, ht.sticks hu⟩
        · exact .inr ⟨u, rfl, ht.trans hu, hcopied.append hcopied' h.apart⟩

/-! ## The entry -/

/-- Work that a command which has to wait hands on is put off (log 4). -/
theorem State.orLater_sticks {s : State} (h : s.running.miss.isSome = true) (l : Later) : (s.orLater l).running = s.running := by
  unfold State.orLater
  refine iteInduction (motive := fun t : State => t.running = s.running) (fun _ => rfl) fun _ => ?_
  unfold State.attempt
  rw [if_pos h]

theorem State.entryDone_sticks {s : State} (h : s.running.miss.isSome = true) (f q : Nat) (j : Job) (bs : Bytes) (code detail : Nat) :
    (s.entryDone f q j bs code detail).running = s.running := by
  unfold State.entryDone
  dsimp only
  split
  · rfl
  · exact State.orLater_sticks h _

/-- A COPY whose fields are legal moves its bytes and completes (R315). -/
theorem State.copyEntry_plain {s t : State} {f q : Nat} {j : Job} {e : Bytes} {src dst n : Nat} {r : CopyEnd} (hsrc : src = leAt e 0x08 8)
    (hdst : dst = leAt e 0x10 8) (hlen : n = leAt e 0x18 8) (h : s.Copyable src dst n) (hn : n ≤ 2 ^ 40) (hmode : leAt e 0x20 1 = 0)
    (hcopy : s.copyPlain f (copyFuel n) src dst n = (r, t)) :
    s.copyEntry f q j e = t.entryDone f q j e ((r.map (·.1)).getD stOk) ((r.map (·.2)).getD 0) := by
  obtain ⟨hs, hd, hl, hapart, -, -, -⟩ := h
  unfold State.copyEntry
  dsimp only
  rw [← hsrc, ← hdst, ← hlen, hmode, if_neg (by omega), if_neg (by omega), if_neg (by omega), if_neg (by omega)]
  unfold State.copyMode
  rw [if_pos rfl, hcopy]
  cases r <;> rfl

/-- Settles O42: where an access of the copy has to wait, so has the entry; otherwise copyPlain_ends gives every byte. -/
theorem copyMovesEveryByte : Obligations.CopyMovesEveryByte := by
  intro fn q slot v s j e u src dst n hcan hacts hsrc hdst hlen hn hmode hapart hsf hdf hup hokay hans
  obtain ⟨hrunning, hready⟩ := hacts
  have hcopy : u.start.Copyable src dst n := ⟨hsrc, hdst, hlen, hapart, hsf, hdf, hokay⟩
  have hwf : u.mem.wf = true := foldWrites_wf _ _ hcan
  have hruns : u.start.Runs 0 := by
    refine ⟨rfl, rfl, hup, ?_⟩
    rcases tblGetD_eq_or_mem u.ports 0 .fresh with h | h
    · exact congrArg Port.answers h
    · exact hans _ h
  have hexec : u.After (State.copyEntry fn.toNat q.toNat j e) (exec (.copy fn q slot v) s) := State.runEntry_acts hready hrunning
  rcases State.copyPlain_ends fn.toNat (copyFuel n) hruns hwf hcopy (copyEnough_copyFuel ..) with ⟨c, t, et, ht⟩ | ⟨t, et, ht, hcopied⟩
  · have hrun := State.entryDone_sticks ht.miss fn.toNat q.toNat j e c.1 c.2
    have hmem := Mem.copied_write hwf hsf hdf
    exact ⟨{ u.stepped fn.toNat q.toNat j with mem := memWriteBytes u.mem dst (memReadBytes u.mem src n) },
      .inr ⟨_, hrun ▸ ht.miss, hexec.waits (State.copyEntry_plain rfl rfl rfl hcopy hn hmode et) (hrun ▸ ht.miss)⟩,
      fun hrest => absurd hrest ht.busy, hmem.reads hsf hdf, fun a => hmem.other, rfl⟩
  · have hnext := hexec.done (State.copyEntry_plain rfl rfl rfl hcopy hn hmode et) ht.miss
    refine ⟨_, .inl hnext, fun _ => hnext, hcopied.reads hsf hdf, fun a => hcopied.other, ?_⟩
    have hacc := ht.accesses
    unfold State.Accesses at hacc
    unfold State.entryDone State.stepped
    rw [hacc]
    rfl

end Sys2Proof.Machine
end

section
/-! Writes of a queue's registers, and the end of DISABLING (R203, R213, R215, R217). -/

namespace Sys2Proof.Machine

/-! ## The register write -/

/-- A write below Q_STATUS in a queue's block reaches the queue (R138, R179, R557). -/
theorem State.hostWrite_queue {s : State} {acc : Acc} {fn : BitVec 6} (h : s.FuncAccess acc fn) (q : BitVec 9) {r : Nat} (hr : r < 0x20)
    (value : Nat) :
    s.hostWrite acc (fnReg fn (queueReg q r)) value viewSame viewSame = (s.queueWrite acc.origin fn.toNat q.toNat r value).accepted := by
  have hq := q.isLt
  have hoff : queueReg q r = 0x8000 + 64 * q.toNat + r := rfl
  have hno {start n : Nat} (hn : start + 4 * n ≤ 0x8000) : arrayIx (queueReg q r) start n = none := arrayIx_of_ge (by omega)
  have hix : (queueReg q r - 0x8000) / 64 = q.toNat ∧ queueReg q r % 64 = r := by omega
  have hclear : s.clearW1c (.func fn.toNat) (queueReg q r) value = s := by
    dsimp only [State.clearW1c]
    unfold State.funcClear
    rw [if_neg (by omega), hno (by omega)]
    dsimp only
    rw [if_neg (by omega)]
  have hwrite : s.funcWrite acc.origin fn.toNat (queueReg q r) value = s.queueWrite acc.origin fn.toNat q.toNat r value := by
    unfold State.funcWrite
    iterate 8 rw [if_neg (by omega)]
    rw [hno (by omega), hno (by omega)]
    dsimp only
    rw [if_pos (by omega), hix.1, hix.2]
  rw [State.hostWrite_func h _ _ _ _ (by omega), hclear, hwrite]

/-- The bits that a row names lie below a field that it does not name. -/
theorem fld_withBits (value : Word) {m lo : Nat} (h : m < 2 ^ lo) (w : Nat) : fld (withBits value m) lo w = fld value.toNat lo w := by
  unfold fld withBits
  rw [Nat.shiftRight_or_distrib, Nat.shiftRight_eq_zero m lo h, Nat.or_zero]

/-! ## Q_DISABLE -/

/-- What a write of Q_CTRL leaves in the registers of a queue that runs (R215). -/
def Queue.ctrlStaged (x : Queue) (value : Word) : Queue :=
  { x with
    nextHeadNotify := value.toNat.testBit 2, nextErrNotify := value.toNat.testBit 3, nextVector := fld value.toNat 4 6,
    cfgIgnored := x.cfgIgnored || (fld value.toNat 10 6 != x.prefetch) }

section
variable {s : State} {acc : Acc} {fn : BitVec 6} {q : BitVec 9}

theorem exec_qDisable (h : s.FuncAccess acc fn) (hp : (s.queue fn.toNat q.toNat).present = true)
    (hr : (s.queue fn.toNat q.toNat).running = true) (value : Word) :
    exec (.qDisable acc fn q value) s =
      .next ((s.setQueue fn.toNat q.toNat ((s.queue fn.toNat q.toNat).ctrlStaged value)).queueDisable fn.toNat q.toNat).accepted := by
  have hexec : exec (.qDisable acc fn q value) s = .next (s.hostWrite acc (fnReg fn (queueReg q 0x1C)) (withBits value 2) viewSame viewSame) := rfl
  have hbit {i : Nat} (hi : (2 : Nat).testBit i = false) : bitOf (withBits value 2) i = value.toNat.testBit i := bitOf_withBits_clear value hi
  rw [hexec, State.hostWrite_queue h q (by decide)]
  unfold State.queueWrite
  iterate 6 rw [if_neg (by decide)]
  rw [if_pos rfl]
  unfold State.qCtrlWrite Queue.ctrlStaged
  dsimp only
  rw [hp, hr, bitOf_withBits_set value (show (2 : Nat).testBit 1 = true by decide), hbit (by decide), hbit (by decide),
    fld_withBits value (by decide), fld_withBits value (by decide)]
  rfl

/-- DISABLE of a queue that is ENABLING is held (R213). -/
theorem State.queueDisable_enabling {f p : Nat} (h : (s.queue f p).enabling = true) :
    s.queueDisable f p = s.setQueue f p { s.queue f p with heldDisable := true } := if_pos h

/-- An enabled queue gives up what was only prefetched (R203, R213, R217). -/
theorem State.queueDisable_enabled {f p : Nat} (h : (s.queue f p).enabling = false) (he : (s.queue f p).enabled = true) :
    s.queueDisable f p = ((s.dropQueueReads f p false).dropReqs (fun r => r.owner == .queueTail f p)).setQueue f p { s.queue f p with
      enabled := false, disabling := true, arrived := (s.queue f p).arrived.filter (·.posted), tailOut := false, tailAgain := false,
      tailValue := none } := by
  unfold State.queueDisable
  dsimp only
  rw [h, he]
  rfl

/-- DISABLING ends once nothing of the queue is left (R217). -/
theorem exec_qDisableComplete (hd : (s.queue fn.toNat q.toNat).disabling = true) (hs : s.queueSettled fn.toNat q.toNat = true)
    (hst : (s.func fn.toNat).st ≠ .resetting) (hl : s.live = true) :
    exec (.qDisableComplete fn q) s = .next (s.setQueue fn.toNat q.toNat { s.queue fn.toNat q.toNat with disabling := false }) :=
  if_pos (by simp [hd, hs, hst, hl])

theorem exec_qDisableComplete_unsettled (hs : s.queueSettled fn.toNat q.toNat = false) : exec (.qDisableComplete fn q) s = .next s :=
  if_neg (by simp [hs])

/-! ## Q_CONFIG_WRITE -/

theorem exec_qConfigWrite {t : State} (h : s.FuncAccess acc fn) (r : QReg) (value : Word)
    (ht : s.queueWrite acc.origin fn.toNat q.toNat (qRegOffset r) value.toNat = t) :
    exec (.qConfigWrite acc fn q r value) s = .next t.accepted := by
  rw [← ht]
  exact congrArg Host.Outcome.next (State.hostWrite_queue h q (by cases r <;> decide) _)

theorem State.queueWrite_baseLo (o : Origin) (f p value : Nat) (s : State) :
    s.queueWrite o f p 0x00 value = s.stage o (.func f) (0x8000 + 64 * p) value := rfl

theorem State.queueWrite_indexLo (o : Origin) (f p value : Nat) (s : State) :
    s.queueWrite o f p 0x08 value = s.stage o (.func f) (0x8008 + 64 * p) value := by
  have hoff : 0x8000 + 64 * p + 0x08 = 0x8008 + 64 * p := by omega
  rw [← hoff]
  rfl

theorem State.queueWrite_baseHi (o : Origin) (f p value : Nat) (s : State) : s.queueWrite o f p 0x04 value =
    s.qFixedWrite f p (fun x => { x with base := s.pairValue o (.func f) (0x8004 + 64 * p) value }) := by
  have hoff : 0x8000 + 64 * p + 0x04 = 0x8004 + 64 * p := by omega
  rw [← hoff]
  rfl

theorem State.queueWrite_indexHi (o : Origin) (f p value : Nat) (s : State) : s.queueWrite o f p 0x0C value =
    s.qFixedWrite f p (fun x => { x with index := s.pairValue o (.func f) (0x800C + 64 * p) value }) := by
  have hoff : 0x8000 + 64 * p + 0x0C = 0x800C + 64 * p := by omega
  rw [← hoff]
  rfl

theorem State.queueWrite_size (o : Origin) (f p value : Nat) (s : State) :
    s.queueWrite o f p 0x10 value = s.qFixedWrite f p (fun x => { x with log2 := value % 32 }) := rfl

theorem State.queueWrite_weight (o : Origin) (f p value : Nat) (s : State) : s.queueWrite o f p 0x14 value = s.qWeightWrite f p value := rfl

theorem State.queueWrite_burst (o : Origin) (f p value : Nat) (s : State) : s.queueWrite o f p 0x18 value = s.qBurstWrite f p value := rfl

theorem State.qFixedWrite_idle {f p : Nat} (hp : (s.queue f p).present = true) (hr : (s.queue f p).running = false) (g : Queue → Queue) :
    s.qFixedWrite f p g = s.setQueue f p (g (s.queue f p)) := by
  unfold State.qFixedWrite
  dsimp only
  rw [hp, hr]
  rfl

theorem State.qFixedWrite_running {f p : Nat} (hp : (s.queue f p).present = true) (hr : (s.queue f p).running = true) (g : Queue → Queue) :
    s.qFixedWrite f p g = s.setQueue f p { s.queue f p with cfgIgnored := true } := by
  unfold State.qFixedWrite
  dsimp only
  rw [hp, hr]
  rfl

theorem State.qWeightWrite_idle {f p : Nat} (hp : (s.queue f p).present = true) (hr : (s.queue f p).running = false) (value : Nat) :
    s.qWeightWrite f p value = s.setQueue f p { s.queue f p with weight := value % 256, nextWeight := value % 256 } := by
  unfold State.qWeightWrite
  dsimp only
  rw [hp, hr]
  rfl

/-- WEIGHT 0 is no legal value (R215). -/
theorem State.qWeightWrite_running {f p : Nat} (hp : (s.queue f p).present = true) (hr : (s.queue f p).running = true) (value : Nat) :
    s.qWeightWrite f p value = s.setQueue f p (if value % 256 = 0 then { s.queue f p with cfgIgnored := true }
      else { s.queue f p with nextWeight := value % 256 }) := by
  unfold State.qWeightWrite
  dsimp only
  rw [hp, hr]
  rfl

theorem State.qBurstWrite_idle {f p : Nat} (hp : (s.queue f p).present = true) (hr : (s.queue f p).running = false) (value : Nat) :
    s.qBurstWrite f p value = s.setQueue f p { s.queue f p with burst := value % 128, nextBurst := value % 128 } := by
  unfold State.qBurstWrite
  dsimp only
  rw [hp, hr]
  rfl

/-- A BURST of 1 to 64 is legal (R215). -/
theorem State.qBurstWrite_running {f p : Nat} (hp : (s.queue f p).present = true) (hr : (s.queue f p).running = true) (value : Nat) :
    s.qBurstWrite f p value = s.setQueue f p (if value % 128 = 0 ∨ 64 < value % 128 then { s.queue f p with cfgIgnored := true }
      else { s.queue f p with nextBurst := value % 128 }) := by
  unfold State.qBurstWrite
  dsimp only
  rw [hp, hr]
  rfl

end

/-! ## The statement -/

/-- Settles O38: each register write reaches its queue (State.hostWrite_queue), and whether the queue runs decides what it does there. -/
theorem queueRegisterWrites : Obligations.QueueRegisterWrites := by
  unfold Obligations.QueueRegisterWrites
  dsimp only
  refine ⟨fun acc fn q value s => ⟨fun h hp he hen => ?_, fun h hp hen => ?_, exec_qDisableComplete, exec_qDisableComplete_unsettled⟩,
    fun acc fn q value s h hp => ?_⟩
  · have hrun : (s.queue fn.toNat q.toNat).running = true := by simp [Queue.running, he]
    refine ⟨_, (exec_qDisable h hp hrun value).trans (congrArg _ (congrArg _ (State.queueDisable_enabled ?_ ?_))), ?_, fun k hk => ?_, rfl, rfl⟩
    · rw [State.setQueue_queue_same]
      exact hen
    · rw [State.setQueue_queue_same]
      exact he
    · rw [State.accepted, State.answer_queue, State.setQueue_queue_same, State.setQueue_queue_same]
      rfl
    · exact (tblGet?_tblSet_ne _ _ _ _ hk).trans (tblGet?_tblSet_ne _ _ _ _ hk)
  · have hrun : (s.queue fn.toNat q.toNat).running = true := by simp [Queue.running, hen]
    refine ⟨_, (exec_qDisable h hp hrun value).trans (congrArg _ (congrArg _ (State.queueDisable_enabling ?_))), ?_, ?_, ?_, rfl⟩
    · rw [State.setQueue_queue_same]
      exact hen
    all_goals rw [State.accepted, State.answer_queue, State.setQueue_queue_same, State.setQueue_queue_same]
    · exact hen
    · rfl
  · refine ⟨exec_qConfigWrite h .baseLo value (State.queueWrite_baseLo ..), exec_qConfigWrite h .indexLo value (State.queueWrite_indexLo ..),
      fun hr => ⟨exec_qConfigWrite h .size value ?_, exec_qConfigWrite h .weight value ?_, exec_qConfigWrite h .burst value ?_,
        exec_qConfigWrite h .baseHi value ?_, exec_qConfigWrite h .indexHi value ?_⟩,
      fun hr => ⟨exec_qConfigWrite h .size value ?_, exec_qConfigWrite h .baseHi value ?_, exec_qConfigWrite h .indexHi value ?_,
        exec_qConfigWrite h .weight value ?_, exec_qConfigWrite h .burst value ?_⟩⟩
    · exact (State.queueWrite_size ..).trans (State.qFixedWrite_idle hp hr _)
    · exact (State.queueWrite_weight ..).trans (State.qWeightWrite_idle hp hr _)
    · exact (State.queueWrite_burst ..).trans (State.qBurstWrite_idle hp hr _)
    · exact (State.queueWrite_baseHi ..).trans (State.qFixedWrite_idle hp hr _)
    · exact (State.queueWrite_indexHi ..).trans (State.qFixedWrite_idle hp hr _)
    · exact (State.queueWrite_size ..).trans (State.qFixedWrite_running hp hr _)
    · exact (State.queueWrite_baseHi ..).trans (State.qFixedWrite_running hp hr _)
    · exact (State.queueWrite_indexHi ..).trans (State.qFixedWrite_running hp hr _)
    · exact (State.queueWrite_weight ..).trans (State.qWeightWrite_running hp hr _)
    · exact (State.queueWrite_burst ..).trans (State.qBurstWrite_running hp hr _)

end Sys2Proof.Machine
end

section
/-! Entries become jobs, and visits dispatch them (R189, R190, R194, R199, R202, R204, R216). -/

namespace Sys2Proof.Machine

/-! ## ENTRY_FETCH -/

section
variable {s : State} {f q slot : Nat} {bs : Bytes}

/-- A FIRST entry with no chain open starts a chain, or is a job by itself (R202). -/
theorem State.takeEntry_first (hb : (s.queue f q).broken = none) (hc : (s.queue f q).chain = none)
    (hf : (leAt bs 0 4).testBit 8 = true) : s.takeEntry f q slot bs = s.startChain f q slot bs := by
  have hf' : bitOf (leAt bs 0 4) 8 = true := hf
  unfold State.takeEntry
  dsimp only
  rw [hb, hc, hf']
  rfl

/-- Nothing is skipped where no chain is broken (R203). -/
theorem State.skipEnds_unbroken (hb : (s.queue f q).broken = none) : s.skipEnds f q = s := by
  unfold State.skipEnds
  dsimp only
  rw [hb]
  rfl

theorem State.startChain_last (hl : (leAt bs 0 4).testBit 9 = true) : s.startChain f q slot bs = s.setQueue f q { s.queue f q with
    jobs := (s.queue f q).jobs ++ [mkJob (s.queue f q).gen slot ((s.queue f q).lapOf slot) (leAt bs 0 1) [(slot, bs)]] } :=
  if_pos hl

theorem State.startChain_open (hl : (leAt bs 0 4).testBit 9 = false) : s.startChain f q slot bs = s.setQueue f q { s.queue f q with
    chain := some ⟨slot, (s.queue f q).lapOf slot, leAt bs 0 1, [(slot, bs)]⟩ } :=
  if_neg (by rw [show bitOf (leAt bs 0 4) 9 = false from hl]; exact Bool.false_ne_true)

end

theorem State.setQueue_setQueue (f q : Nat) (v w : Queue) (s : State) : (s.setQueue f q v).setQueue f q w = s.setQueue f q w := by
  unfold State.setQueue
  rw [tblSet_tblSet]

/-- The next posted slot of a queue (R199). -/
def State.postedNext (s : State) (f q : Nat) : Option Nat :=
  (s.queue f q).nearest (s.awaited f q true ++ ((s.queue f q).arrived.filter (·.posted)).map (·.slot))

/-- A posted entry whose turn it is, once it has been read (R199, R202, R203, R210). -/
def State.usePosted (f q slot : Nat) (a : Arrived) (s : State) : State :=
  let x := s.queue f q
  let t := s.setQueue f q { x with arrived := x.arrived.erase a }
  if a.poison then (t.ownEntry f q slot a.bytes stPoison 0).skipEnds f q
  else if !x.phaseOk slot a.bytes then (t.ownEntry f q slot a.bytes stMalformed 2).skipEnds f q
  else (t.takeEntry f q slot a.bytes).skipEnds f q

section
variable {fn : BitVec 6} {q : BitVec 9} {v : MemView} {s : State} {slot : Nat} (hl : s.live = true)
  (he : (s.queue fn.toNat q.toNat).enabled = true) (hn : s.postedNext fn.toNat q.toNat = some slot)
include hl he hn

/-- An entry that has not been read yet waits (R199). -/
theorem exec_entryFetch_unread (ha : (s.queue fn.toNat q.toNat).arrived.find? (fun a => a.posted && a.slot == slot) = none) :
    exec (.entryFetch fn q v) s = .next (s.seeMem v) := by
  have hgo : ¬ (!(s.seeMem v).start.live || !(((s.seeMem v).start.queue fn.toNat q.toNat).enabled ||
      ((s.seeMem v).start.queue fn.toNat q.toNat).disabling)) = true := by simp [show (s.seeMem v).start.live = true from hl, he]
  have hn' : (s.seeMem v).start.postedNext fn.toNat q.toNat = some slot := hn
  have ha' : ((s.seeMem v).start.queue fn.toNat q.toNat).arrived.find? (fun a => a.posted && a.slot == slot) = none := ha
  have hexec : exec (.entryFetch fn q v) s = execEntryFetch fn q v s := rfl
  unfold State.postedNext at hn'
  rw [hexec]
  unfold execEntryFetch
  refine State.turn_of_next (s := s.seeMem v) (t := (s.seeMem v).start) ?_ rfl
  dsimp only
  rw [if_neg hgo, hn']
  dsimp only
  rw [ha']

theorem exec_entryFetch_posted {a : Arrived}
    (ha : (s.queue fn.toNat q.toNat).arrived.find? (fun a => a.posted && a.slot == slot) = some a) :
    (s.seeMem v).After (State.usePosted fn.toNat q.toNat slot a) (exec (.entryFetch fn q v) s) := by
  have hgo : ¬ (!(s.seeMem v).start.live || !(((s.seeMem v).start.queue fn.toNat q.toNat).enabled ||
      ((s.seeMem v).start.queue fn.toNat q.toNat).disabling)) = true := by simp [show (s.seeMem v).start.live = true from hl, he]
  have hn' : (s.seeMem v).start.postedNext fn.toNat q.toNat = some slot := hn
  have ha' : ((s.seeMem v).start.queue fn.toNat q.toNat).arrived.find? (fun a => a.posted && a.slot == slot) = some a := ha
  have hexec : exec (.entryFetch fn q v) s = execEntryFetch fn q v s := rfl
  unfold State.postedNext at hn'
  rw [hexec]
  unfold execEntryFetch
  refine State.turn_after ?_
  dsimp only
  rw [if_neg hgo, hn']
  dsimp only
  rw [ha']
  dsimp only [State.usePosted]
  split
  · rfl
  · split <;> rfl

end

/-- A FIRST entry of its lap is used where no chain is open or broken (R194, R202). -/
theorem State.usePosted_first {f q slot : Nat} {a : Arrived} {s : State} (hp : a.poison = false)
    (hph : (s.queue f q).phaseOk slot a.bytes = true) (hc : (s.queue f q).chain = none) (hb : (s.queue f q).broken = none)
    (hf : (leAt a.bytes 0 4).testBit 8 = true) :
    s.usePosted f q slot a = (s.setQueue f q { s.queue f q with arrived := (s.queue f q).arrived.erase a }).startChain f q slot a.bytes := by
  unfold State.usePosted
  dsimp only
  rw [if_neg (by simp [hp]), if_neg (by simp [hph]), State.takeEntry_first (by rw [State.setQueue_queue_same]; exact hb)
    (by rw [State.setQueue_queue_same]; exact hc) hf]
  refine State.skipEnds_unbroken ?_
  cases hlast : (leAt a.bytes 0 4).testBit 9
  · rw [State.startChain_open hlast, State.setQueue_queue_same, State.setQueue_queue_same]
    exact hb
  · rw [State.startChain_last hlast, State.setQueue_queue_same, State.setQueue_queue_same]
    exact hb

/-! ## QUEUE_VISIT -/

section
variable {s : State} {f q : Nat} {j y : Job}

/-- A job that is alone in its queue is replaced. -/
theorem State.modJob_single (h : (s.queue f q).jobs = [y]) (hs : y.slot = j.slot) (hg : y.gen = j.gen) (g : Job → Job) :
    s.modJob f q j g = s.setQueue f q { s.queue f q with jobs := [g y] } := by
  unfold State.modJob
  rw [State.modQueue_eq]
  dsimp only
  rw [h, List.map_singleton, if_pos ⟨hs, hg⟩]

theorem State.dispatch_nil (n : Nat) (s : State) : s.dispatch f q n [] = s := by
  unfold State.dispatch
  rfl

/-- A visit with an entry left dispatches a job that is alone in its queue (R204, R216). -/
theorem State.dispatch_single (h : (s.queue f q).jobs = [j]) (hst : j.started = false) {n : Nat} (hn : 1 ≤ n) :
    s.dispatch f q n [j] = s.dispatchJob f q j := by
  obtain ⟨m, rfl⟩ : ∃ m, n = m + 1 := ⟨n - 1, by omega⟩
  unfold State.dispatch
  dsimp only
  rw [hst, h]
  simp [State.dispatch_nil]

variable (h : (s.queue f q).jobs = [j]) (hc : s.opcodeCheck (s.queue f q) j.opcode = stOk)
include h hc

/-- An NOP is complete at once (R189). -/
theorem State.dispatchJob_nop (hop : j.opcode = 0) :
    s.dispatchJob f q j = s.setQueue f q { s.queue f q with jobs := [{ j with started := true, complete := true, acted := j.total }] } := by
  unfold State.dispatchJob
  dsimp only
  rw [hc, if_neg (by decide), if_pos hop, State.modJob_single h rfl rfl,
    State.modJob_single (j := j) (y := { j with started := true }) (by rw [State.setQueue_queue_same]) rfl rfl, State.setQueue_setQueue,
    State.setQueue_queue_same]

/-- Another legal job is started (R204, R565). -/
theorem State.dispatchJob_starts (hop : j.opcode ≠ 0) (hp : pairJob j.opcode = true → j.total = 2) :
    s.dispatchJob f q j = s.setQueue f q { s.queue f q with jobs := [{ j with started := true }] } := by
  have hpair : ¬ (pairJob j.opcode && j.total != 2) = true := by
    cases hb : pairJob j.opcode
    · simp
    · simp [hp hb]
  unfold State.dispatchJob
  dsimp only
  rw [hc, if_neg (by decide), if_neg hop, if_neg hpair, State.modJob_single h rfl rfl]

end

/-- A queue with a job is one of the table's. -/
theorem State.mem_queues {s : State} {f q : Nat} (h : (s.queue f q).jobs ≠ []) : (qKey f q, s.queue f q) ∈ s.queues := by
  rcases tblGetD_eq_or_mem s.queues (qKey f q) .fresh with e | hm
  · exact absurd (congrArg Queue.jobs e) h
  · exact hm

/-- A visit within a round (R216; log 46). -/
def State.visitQueue (f q : Nat) (s : State) : State :=
  let x := s.queue f q
  if x.weight ≤ x.visits || !s.visitDue x then s else (s.setQueue f q { x with visits := x.visits + 1 }).dispatch f q x.burst x.jobs

/-- A queue that has work and a visit left keeps the round open, and is visited in it (R216). -/
theorem exec_queueVisit_open {fn : BitVec 6} {q : BitVec 9} {v : MemView} {s : State} (hl : s.live = true)
    (hw : (s.queue fn.toNat q.toNat).hasWork = true) (hj : (s.queue fn.toNat q.toNat).jobs ≠ [])
    (hv : (s.queue fn.toNat q.toNat).visits < (s.queue fn.toNat q.toNat).weight) :
    (s.seeMem v).After (State.visitQueue fn.toNat q.toNat) (exec (.queueVisit fn q v) s) := by
  have hgo : ¬ (!(s.seeMem v).start.live || !((s.seeMem v).start.queue fn.toNat q.toNat).hasWork) = true := by
    simp [show (s.seeMem v).start.live = true from hl, hw]
  have hopen : s.allQueues.any (fun p => p.2.2.hasWork && decide (p.2.2.visits < p.2.2.weight)) = true :=
    List.any_eq_true.mpr ⟨_, List.mem_map_of_mem (State.mem_queues hj), by simp [hw, hv]⟩
  have hopen' : (s.seeMem v).start.allQueues.any (fun p => p.2.2.hasWork && decide (p.2.2.visits < p.2.2.weight)) = true := hopen
  have hexec : exec (.queueVisit fn q v) s = execQueueVisit fn q v s := rfl
  rw [hexec]
  unfold execQueueVisit
  refine State.turn_after ?_
  dsimp only
  rw [if_neg hgo, if_pos hopen']
  dsimp only [State.visitQueue]
  split <;> rfl

section
variable {s : State} {f q : Nat} {j : Job}

/-- Out of its turn a queue is not visited (R216; log 46). -/
theorem State.visitQueue_early (h : s.visitDue (s.queue f q) = false) : s.visitQueue f q = s :=
  if_pos (by simp [h])

variable (hv : (s.queue f q).visits < (s.queue f q).weight) (hb : 1 ≤ (s.queue f q).burst) (hd : s.visitDue (s.queue f q) = true)
  (hj : (s.queue f q).jobs = [j]) (hst : j.started = false) (hc : s.opcodeCheck (s.queue f q) j.opcode = stOk)
include hv hb hd hj hst

/-- In its turn the queue dispatches its job, and the visit is counted (R204, R216). -/
theorem State.visitQueue_due :
    s.visitQueue f q = (s.setQueue f q { s.queue f q with visits := (s.queue f q).visits + 1 }).dispatchJob f q j := by
  unfold State.visitQueue
  dsimp only
  rw [if_neg (by simp [hd, hv]), hj, State.dispatch_single (by rw [State.setQueue_queue_same]) hst hb]

include hc

theorem State.visitQueue_nop (hop : j.opcode = 0) : s.visitQueue f q = s.setQueue f q { s.queue f q with
    visits := (s.queue f q).visits + 1, jobs := [{ j with started := true, complete := true, acted := j.total }] } := by
  rw [State.visitQueue_due hv hb hd hj hst, State.dispatchJob_nop (by rw [State.setQueue_queue_same]; exact hj)
    (by rw [State.setQueue_queue_same]; exact hc) hop, State.setQueue_setQueue, State.setQueue_queue_same]

theorem State.visitQueue_starts (hop : j.opcode ≠ 0) (hp : pairJob j.opcode = true → j.total = 2) :
    s.visitQueue f q = s.setQueue f q { s.queue f q with visits := (s.queue f q).visits + 1, jobs := [{ j with started := true }] } := by
  rw [State.visitQueue_due hv hb hd hj hst, State.dispatchJob_starts (by rw [State.setQueue_queue_same]; exact hj)
    (by rw [State.setQueue_queue_same]; exact hc) hop hp, State.setQueue_setQueue, State.setQueue_queue_same]

end

end Sys2Proof.Machine
end

section
/-! HEAD passes the complete jobs (R192, R205 to R207, R211). -/

namespace Sys2Proof.Machine

/-! ## What an access leaves of the command's notes -/

theorem State.answered_on (n : Nat) (r : Req) (a : Resp) (s : State) : (s.answered n r a).2.2.running.on = s.running.on := by
  have hrun : (if a = .okay then (s.countResp n a).memDone r (s.memOf r) else s.countResp n a).running = s.running := by
    rw [s.countResp_memDone_onMemory n r a (s.memOf r)]
  unfold State.answered
  dsimp only
  generalize (if a = .okay then (s.countResp n a).memDone r (s.memOf r) else s.countResp n a) = u at hrun ⊢
  split <;> exact congrArg (·.on) hrun

theorem State.mustWait_on (m : Miss) (s : State) : (s.mustWait m).running.on = s.running.on := by
  unfold State.mustWait
  split <;> rfl

/-- A command that runs goes on running. -/
theorem State.access_on (n : Nat) (r : Req) (s : State) : (s.access n r).2.2.running.on = s.running.on := by
  have hs := (s.toSlot_onSlots n r).running
  unfold State.access
  split
  · rfl
  · split
    · rfl
    · split
      · split
        · exact State.mustWait_on ..
        · exact State.answered_on ..
      · split <;> rename_i e <;> rw [e] at hs
        · exact (State.mustWait_on ..).trans (congrArg Running.on hs)
        · split
          · exact State.mustWait_on ..
          · exact (State.answered_on ..).trans (congrArg Running.on ((State.transfer_onSlots ..).running.trans hs))

theorem State.sysAdd_on (w : Party) (addr operand : Nat) (s : State) : (s.sysAdd w addr operand).2.2.running.on = s.running.on := by
  have h := s.access_on w.port (w.req .fetchAdd addr 4 (BitVec.ofNat 32 operand) [])
  unfold State.sysAdd
  split
  · rfl
  · split <;> rename_i e <;> rw [e] at h <;> exact h

/-- An access that has no slot has to wait, and nothing of it is noted. -/
theorem State.access_noSlot {s : State} {w : Party} {op : SillOp} {addr len : Nat} {x : Word} {d : Bytes} (hon : s.running.on = true)
    (hm : s.running.miss = none) (h : s.NoSlot w op addr len x d) :
    ∃ t, s.access w.port (w.req op addr len x d) = (.decerr, [], t) ∧ t.running = { s.running with miss := some .blocked } := by
  obtain ⟨⟨hans, htable⟩, hslot⟩ := h
  have hno : (s.port w.port).answers.find? (fun a => a.req.same (w.req op addr len x d)) = none :=
    List.find?_eq_none.mpr fun a ha => by simp [hans a ha]
  have hout : ((s.port w.port).table (w.req op addr len x d).op).find? (fun o => !o.drop && o.req.same (w.req op addr len x d)) = none := by
    refine List.find?_eq_none.mpr fun o ho hsame => ?_
    rw [Bool.and_eq_true, Bool.not_eq_true'] at hsame
    rw [htable o ho hsame.1] at hsame
    exact Bool.false_ne_true hsame.2
  have hrun := (s.toSlot_onSlots w.port (w.req op addr len x d)).running
  unfold State.access
  rw [hm, hno, hout]
  simp only [Option.isSome_none, Bool.false_eq_true, if_false]
  split <;> rename_i e <;> rw [e] at hslot hrun
  · refine ⟨_, rfl, ?_⟩
    dsimp only at hrun
    unfold State.mustWait
    rw [if_pos (by rw [hrun, hon, hm]; rfl), ← hrun]
  · cases hslot

/-! ## Faults and messages of a queue -/

theorem State.logTo_running (log : Option Nat) (code cls unit index bay detail : Nat) (s : State) :
    (s.logTo log code cls unit index bay detail).running = s.running := by
  unfold State.logTo
  dsimp only
  split
  · rfl
  · cases log <;> rfl

theorem State.logTo_queue (log : Option Nat) (code cls unit index bay detail f q : Nat) (s : State) :
    (s.logTo log code cls unit index bay detail).queue f q = s.queue f q := by
  unfold State.logTo
  dsimp only
  split
  · rfl
  · cases log <;> rfl

theorem State.queueFault_running (f q code detail : Nat) (s : State) : (s.queueFault f q code detail).running = s.running := by
  unfold State.queueFault
  dsimp only
  split
  · rfl
  · exact State.logTo_running ..

/-- A fault disables the queue, and HEAD stays (R207, R210). -/
theorem State.queueFault_queue {f q : Nat} {s : State} (h : (s.queue f q).fault = false) (code detail : Nat) :
    let x := (s.queueFault f q code detail).queue f q
    x.fault = true ∧ x.faultCode = code ∧ x.enabled = false ∧ x.head = (s.queue f q).head := by
  unfold State.queueFault
  dsimp only
  rw [if_neg (by simp [h]), State.logTo_queue, State.setQueue_queue_same]
  exact ⟨rfl, rfl, rfl, rfl⟩

/-- A MSG has room in its queue, or one of its function and vector gives way (R145). -/
def State.HasRoom (s : State) (f v : Nat) : Prop := s.notify.msgs.length < 256 ∨ ∃ m ∈ s.notify.msgs, m.fn = f ∧ m.vector = v

section
variable {s : State} {f v : Nat} {p : Word}

/-- A MSG that has room waits in its queue; with 256 there, one of its function and vector gives way (R145). -/
theorem State.sendMsg_fits (h : s.HasRoom f v) : ∃ msgs, s.sendMsg f v p = { s with notify := { s.notify with msgs := msgs } } ∧
    (s.notify.msgs.length < 256 → msgs = s.notify.msgs ++ [⟨f, v, p⟩]) := by
  by_cases hlen : s.notify.msgs.length < 256
  · exact ⟨_, if_pos hlen, fun _ => rfl⟩
  · obtain ⟨m, hmem, hfn, hvec⟩ := h.resolve_left hlen
    have hany : s.notify.msgs.any (fun m => m.fn == f && m.vector == v) = true :=
      List.any_eq_true.mpr ⟨m, hmem, by simp [hfn, hvec]⟩
    unfold State.sendMsg
    dsimp only
    rw [if_neg hlen, if_pos hany]
    exact ⟨_, rfl, fun h => absurd h hlen⟩

/-- A MSG that has no room waits with its sender (R145; log 4). -/
theorem State.sendMsg_full (h : ¬ s.HasRoom f v) : s.sendMsg f v p = s.mustWait .blocked := by
  have hlen : ¬ s.notify.msgs.length < 256 := fun hl => h (.inl hl)
  have hany : ¬ s.notify.msgs.any (fun m => m.fn == f && m.vector == v) = true := by
    intro ha
    obtain ⟨m, hmem, he⟩ := List.any_eq_true.mp ha
    exact h (.inr ⟨m, hmem, by simpa using he⟩)
  unfold State.sendMsg
  dsimp only
  rw [if_neg hlen, if_neg hany]

end

/-! ## The addition to HEAD -/

section
variable {s : State} {f q off expected addend : Nat}

theorem State.indexAdd_noSlot (hon : s.running.on = true) (hm : s.running.miss = none) (hup : s.portUp 0 = true)
    (h : s.NoSlot (.control f) .fetchAdd ((s.queue f q).index + off) 4 (BitVec.ofNat 32 addend) []) :
    ∃ t, s.indexAdd f q off expected addend = (false, t) ∧ t.running = { s.running with miss := some .blocked } := by
  obtain ⟨t, e, ht⟩ := State.access_noSlot hon hm h
  have hadd : s.sysAdd (.control f) ((s.queue f q).index + off) addend = (.decerr, 0, t) := by
    unfold State.sysAdd
    rw [if_neg (by simp [Party.control, hup]), e]
  unfold State.indexAdd
  dsimp only
  rw [hadd]
  exact ⟨_, rfl, (State.queueFault_running ..).trans ht⟩

/-- An addition that has its slot, where memory answers OKAY: it takes place, and its word is checked (R192, R207). -/
theorem State.indexAdd_okay (hon : s.running.on = true) (hm : s.running.miss = none) (ho : s.OkayAt 0 ((s.queue f q).index + off) 4)
    (h : s.HasSlot (.control f) .fetchAdd ((s.queue f q).index + off) 4 (BitVec.ofNat 32 addend) []) :
    let a := (s.queue f q).index + off
    let old := leNat (memReadBytes s.mem a 4)
    ∃ t, s.indexAdd f q off expected addend = (if old = expected then (true, t) else
        (false, t.queueFault f q stMalformed (expected + old * 2 ^ 32))) ∧
      s.SamePorts t ∧ t.running.on = true ∧ t.running.miss = none ∧
      State.OnPorts { s with mem := memWriteBytes s.mem a (natLe 4 ((old + (BitVec.ofNat 32 addend).toNat) % 2 ^ 32)) } t := by
  obtain ⟨t, e, hsame, hmiss, hports⟩ := State.sysAdd_okay (w := .control f) hm ho h
  have hon' : t.running.on = s.running.on := by
    have := s.sysAdd_on (.control f) ((s.queue f q).index + off) addend
    rwa [e] at this
  rw [List.take_of_length_le (by rw [memReadBytes_length])] at e hports
  refine ⟨t, ?_, hsame, hon'.trans hon, hmiss, hports⟩
  unfold State.indexAdd
  dsimp only
  rw [e]

end

/-! ## JOB_COMPLETE_HEAD_PUBLISH -/

/-- A queue whose HEAD has passed `k` jobs with `n` entries, within its ring (R205, R206); `e` is its note of an error. -/
def Queue.passed (x : Queue) (n k : Nat) (e : Bool) : Queue :=
  { x with head := x.head + n, lap := x.lap % 2 ^ 32, jobs := x.jobs.filter (fun j => x.old j && !j.complete) ++ x.own.drop k, errSince := e }

/-- HEAD has passed its jobs, and their entries are counted (R205, R547). -/
def State.withPassed (f q n k : Nat) (e : Bool) (s : State) : State :=
  (s.setQueue f q ((s.queue f q).passed n k e)).count 5 (s.queue f q).qid 0 n

/-- Once HEAD is raised in memory it passes its jobs, and what it passes is counted and told (R205, R211, R547). -/
def State.tellHead (f q n : Nat) (js : List Job) (s : State) : State :=
  let x := s.queue f q
  let s := s.withPassed f q n js.length x.errSince
  if x.headNotify || js.any (·.notify) then s.queueMsg f q else s

/-- The update of HEAD sends a MSG (R211). -/
def Queue.Tells (x : Queue) (js : List Job) : Prop := x.headNotify = true ∨ ∃ j ∈ js, j.notify = true

/-- What that MSG says (R211). -/
def Queue.headWord (x : Queue) (q n : Nat) : Word :=
  BitVec.ofNat 32 ((x.head + n) % 65536 + q % 4096 * 65536 + b2n x.errSince * 2 ^ 28)

section
variable {s t : State} {f q n : Nat} {js : List Job}

theorem State.withPassed_queue (f q n k : Nat) (e : Bool) (s : State) :
    (s.withPassed f q n k e).queue f q = (s.queue f q).passed n k e :=
  State.setQueue_queue_same ..

theorem State.tellHead_quiet (h : ¬ (s.queue f q).Tells js) : s.tellHead f q n js = s.withPassed f q n js.length (s.queue f q).errSince :=
  if_neg (by simpa [Queue.Tells] using h)

theorem State.tellHead_tells (h : (s.queue f q).Tells js) : s.tellHead f q n js =
    (s.withPassed f q n js.length false).sendMsg f (s.queue f q).vector ((s.queue f q).headWord q n) := by
  have hset : (s.withPassed f q n js.length (s.queue f q).errSince).setQueue f q ((s.queue f q).passed n js.length false) =
      s.withPassed f q n js.length false :=
    congrArg (State.count 5 (s.queue f q).qid 0 n) (State.setQueue_setQueue f q _ _ s)
  unfold State.tellHead
  dsimp only
  rw [if_pos (by simpa [Queue.Tells] using h), ← hset]
  unfold State.queueMsg
  dsimp only
  rw [State.withPassed_queue]
  rfl

/-- With no room for its MSG the update has to wait (R145; log 4). -/
theorem State.tellHead_waits (ht : (s.queue f q).Tells js) (h : ¬ s.HasRoom f (s.queue f q).vector) (hon : s.running.on = true)
    (hm : s.running.miss = none) : (s.tellHead f q n js).running.miss = some .blocked := by
  have hroom : ¬ (s.withPassed f q n js.length false).HasRoom f (s.queue f q).vector := h
  have hgo : ((s.withPassed f q n js.length false).running.on && (s.withPassed f q n js.length false).running.miss.isNone) = true := by
    rw [show (s.withPassed f q n js.length false).running = s.running from rfl, hon, hm]
    rfl
  rw [State.tellHead_tells ht, State.sendMsg_full hroom]
  unfold State.mustWait
  rw [if_pos hgo]

/-- What the update of a queue's HEAD leaves in the frame. -/
def State.Passed (s t : State) (f q n : Nat) (js : List Job) : Prop :=
  let x := s.queue f q
  let y := t.queue f q
  y = x.passed n js.length y.errSince ∧
    (¬ x.Tells js → t.notify = s.notify ∧ y.errSince = x.errSince) ∧
    (x.Tells js → s.notify.msgs.length < 256 →
      t.notify = { s.notify with msgs := s.notify.msgs ++ [⟨f, x.vector, x.headWord q n⟩] })

/-- Only queues, counters and waiting MSGs differ. -/
def State.OnTold (s t : State) : Prop := t = { s with queues := t.queues, tel := { s.tel with cnt := t.tel.cnt }, notify := t.notify }

/-- An update with nothing to tell, or with room to tell it, passes its jobs. -/
theorem State.tellHead_passed (h : ¬ (s.queue f q).Tells js ∨ s.HasRoom f (s.queue f q).vector) :
    s.Passed (s.tellHead f q n js) f q n js ∧ s.OnTold (s.tellHead f q n js) := by
  by_cases ht : (s.queue f q).Tells js
  · have hroom : (s.withPassed f q n js.length false).HasRoom f (s.queue f q).vector := h.resolve_left (not_not_intro ht)
    obtain ⟨msgs, e, hmsgs⟩ := State.sendMsg_fits (p := (s.queue f q).headWord q n) hroom
    have hqueue := s.withPassed_queue f q n js.length false
    have herr := congrArg Queue.errSince hqueue
    have hy : (s.withPassed f q n js.length false).queue f q =
        (s.queue f q).passed n js.length ((s.withPassed f q n js.length false).queue f q).errSince := by
      rw [herr]
      exact hqueue
    rw [State.tellHead_tells ht, e]
    refine ⟨⟨hy, fun hn => absurd ht hn, fun _ hlen => ?_⟩, rfl⟩
    rw [hmsgs hlen]
    rfl
  · have hqueue := s.withPassed_queue f q n js.length (s.queue f q).errSince
    have herr := congrArg Queue.errSince hqueue
    rw [State.tellHead_quiet ht]
    refine ⟨⟨?_, fun _ => ⟨rfl, herr⟩, fun hn => absurd hn ht⟩, rfl⟩
    rw [herr]
    exact hqueue

/-- What HEAD's word is raised by. -/
def State.headStep (s : State) (f q : Nat) : Nat :=
  (s.queue f q).head + entryCount (s.queue f q).passable + 2 ^ 32 - (s.queue f q).head

section
variable (hask : s.headAsked f q = none) (h0 : 0 < entryCount (s.queue f q).passable)
  (hring : (s.queue f q).head + entryCount (s.queue f q).passable < (s.queue f q).size)
include hask h0 hring

/-- Within the ring HEAD alone is raised (R206). -/
theorem State.publishHead_added (hadd : s.indexAdd f q 0x08 (s.queue f q).head (s.headStep f q) = (true, t))
    (hq : t.queue f q = s.queue f q) :
    s.publishHead f q = t.tellHead f q (entryCount (s.queue f q).passable) (s.queue f q).passable := by
  have hpass : s.passing f q = (s.queue f q).passable := by
    unfold State.passing
    rw [hask]
  have hne : ¬ (s.queue f q).head + entryCount (s.queue f q).passable = (s.queue f q).head := by omega
  unfold State.headStep at hadd
  unfold State.publishHead State.tellHead State.withPassed
  rw [hpass]
  dsimp only
  rw [Nat.div_eq_of_lt hring, Nat.mod_eq_of_lt hring, if_pos rfl]
  dsimp only
  rw [if_neg hne, hadd]
  dsimp only
  rw [State.modQueue_eq, hq]
  rfl

/-- Where HEAD's word is not raised, nothing is passed (R207). -/
theorem State.publishHead_stopped (hadd : s.indexAdd f q 0x08 (s.queue f q).head (s.headStep f q) = (false, t)) :
    s.publishHead f q = t := by
  have hpass : s.passing f q = (s.queue f q).passable := by
    unfold State.passing
    rw [hask]
  have hne : ¬ (s.queue f q).head + entryCount (s.queue f q).passable = (s.queue f q).head := by omega
  unfold State.headStep at hadd
  unfold State.publishHead
  rw [hpass]
  dsimp only
  rw [Nat.div_eq_of_lt hring, Nat.mod_eq_of_lt hring, if_pos rfl]
  dsimp only
  rw [if_neg hne, hadd]
  rfl

end

end

section
variable {fn : BitVec 6} {q : BitVec 9} {v : MemView} {s : State}

/-- A queue that has jobs to pass publishes HEAD, or waits (R205). -/
theorem exec_jobCompleteHeadPublish (hl : s.live = true) (hf : (s.queue fn.toNat q.toNat).fault = false)
    (hon : (s.queue fn.toNat q.toNat).enabled = true ∨ (s.queue fn.toNat q.toNat).disabling = true)
    (hj : (s.queue fn.toNat q.toNat).passable ≠ []) (he : s.errorWaits fn.toNat q.toNat = false) :
    (s.seeMem v).After (State.publishHead fn.toNat q.toNat) (exec (.jobCompleteHeadPublish fn q v) s) := by
  have hl' : (s.seeMem v).start.live = true := hl
  have hf' : ((s.seeMem v).start.queue fn.toNat q.toNat).fault = false := hf
  have hon' : (((s.seeMem v).start.queue fn.toNat q.toNat).enabled || ((s.seeMem v).start.queue fn.toNat q.toNat).disabling) = true := by
    rw [Bool.or_eq_true]
    exact hon
  have hj' : ((s.seeMem v).start.queue fn.toNat q.toNat).passable.isEmpty = false := by
    rw [Bool.eq_false_iff]
    exact fun h => hj (List.isEmpty_iff.mp h)
  have he' : (s.seeMem v).start.errorWaits fn.toNat q.toNat = false := he
  have hexec : exec (.jobCompleteHeadPublish fn q v) s = execJobCompleteHeadPublish fn q v s := rfl
  rw [hexec]
  unfold execJobCompleteHeadPublish
  refine State.turn_after ?_
  dsimp only
  rw [hl', hf', hon', hj', he']
  rfl

end

end Sys2Proof.Machine
end

section
/-! Entries form jobs, visits dispatch them, HEAD passes the complete ones (R189, R194, R199 to R207, R211, R216). -/

namespace Sys2Proof.Machine

/-! ## Slots at the start of a command -/

theorem State.transfer_start (n tag : Nat) (r : Req) (s : State) : s.start.transfer n tag r = (s.transfer n tag r).start := by
  unfold State.transfer
  dsimp only
  split <;> split <;> rfl

theorem State.issue_start (n tag : Nat) (r : Req) (s : State) : s.start.issue n tag r = (s.issue n tag r).start := by
  unfold State.issue
  dsimp only
  rw [State.transfer_start]
  rfl

theorem State.letPass_start (n : Nat) (r : Req) (k : Nat) : ∀ s : State, s.start.letPass n r k = (s.letPass n r k).start := by
  induction k with
  | zero => exact fun _ => rfl
  | succ k ih =>
    intro s
    have hchoose : s.start.choose n (r :: (s.start.port n).waiting.filter (s.start.eligible n)) =
      s.choose n (r :: (s.port n).waiting.filter (s.eligible n)) := rfl
    unfold State.letPass
    rw [hchoose]
    split
    · rfl
    · split
      · rfl
      · rename_i t _ _
        have hf : s.start.freeTag n t.op = s.freeTag n t.op := rfl
        rw [hf]
        split
        · rfl
        · rw [State.issue_start, ih]

/-- Whether an access has its slot does not turn on what the running command has noted. -/
theorem State.toSlot_start (n : Nat) (r : Req) (s : State) : (s.start.toSlot n r).1 = (s.toSlot n r).1 := by
  have hp : s.start.letPass n r (s.start.port n).waiting.length = (s.letPass n r (s.port n).waiting.length).start :=
    s.letPass_start n r _
  unfold State.toSlot
  dsimp only
  rw [hp]
  generalize s.letPass n r (s.port n).waiting.length = t
  rw [show t.start.freeTag n r.op = t.freeTag n r.op from rfl, show t.start.granulesFree r = t.granulesFree r from rfl]
  split
  · rfl
  · split <;> rfl

theorem State.noSlot_start {s : State} {w : Party} {op : SillOp} {addr len : Nat} {x : Word} {d : Bytes}
    (h : s.NoSlot w op addr len x d) : s.start.NoSlot w op addr len x d := by
  obtain ⟨hfirst, hslot⟩ := h
  exact ⟨hfirst, (s.toSlot_start ..).trans hslot⟩

/-! ## HEAD's word -/

theorem State.headStep_eq (s : State) (f q : Nat) : s.headStep f q = entryCount (s.queue f q).passable + 2 ^ 32 := by
  unfold State.headStep
  omega

theorem State.headStep_word (s : State) (f q : Nat) :
    BitVec.ofNat 32 (s.headStep f q) = BitVec.ofNat 32 (entryCount (s.queue f q).passable) := by
  rw [State.headStep_eq]
  exact BitVec.eq_of_toNat_eq (by simp)

theorem raised_word (old n : Nat) : (old + (BitVec.ofNat 32 n).toNat) % 2 ^ 32 = (old + n) % 2 ^ 32 := by
  rw [BitVec.toNat_ofNat, Nat.add_mod_mod]

theorem State.OnPorts.queue_of_mem {s t : State} {m : Mem} (h : State.OnPorts { s with mem := m } t) (f q : Nat) :
    t.queue f q = s.queue f q := by
  rw [h]
  rfl

/-- HEAD's word in memory is past the complete jobs (R206). -/
def State.withHead (s : State) (f q : Nat) : State :=
  let x := s.queue f q
  { s with mem := memWriteBytes s.mem (x.index + 8) (natLe 4 ((x.head + entryCount x.passable) % 2 ^ 32)) }

section
variable {s : State} {f q : Nat} (hask : s.headAsked f q = none) (h0 : 0 < entryCount (s.queue f q).passable)
  (hring : (s.queue f q).head + entryCount (s.queue f q).passable < (s.queue f q).size) (hon : s.running.on = true)
  (hm : s.running.miss = none) (ho : s.OkayAt 0 ((s.queue f q).index + 8) 4)
include hask h0 hring hon hm ho

/-- Until the addition to HEAD has its slot, nothing is done (log 4). -/
theorem State.publishHead_noSlot
    (h : s.NoSlot (.control f) .fetchAdd ((s.queue f q).index + 8) 4 (BitVec.ofNat 32 (entryCount (s.queue f q).passable)) []) :
    (s.publishHead f q).running = { s.running with miss := some .blocked } := by
  rw [← State.headStep_word] at h
  obtain ⟨t, hadd, ht⟩ := State.indexAdd_noSlot (expected := (s.queue f q).head) hon hm ho.1 h
  rw [State.publishHead_stopped hask h0 hring hadd]
  exact ht

variable
  (h : s.HasSlot (.control f) .fetchAdd ((s.queue f q).index + 8) 4 (BitVec.ofNat 32 (entryCount (s.queue f q).passable)) [])
include h

/-- The word that holds HEAD is raised, and HEAD passes its jobs (R205, R206). -/
theorem State.publishHead_raised (hw : leNat (memReadBytes s.mem ((s.queue f q).index + 8) 4) = (s.queue f q).head) :
    ∃ t, s.publishHead f q = t.tellHead f q (entryCount (s.queue f q).passable) (s.queue f q).passable ∧
      s.SamePorts t ∧ t.running.on = true ∧ t.running.miss = none ∧ (s.withHead f q).OnPorts t := by
  rw [← State.headStep_word] at h
  obtain ⟨t, hadd, hsame, hton, htm, hports⟩ := State.indexAdd_okay (expected := (s.queue f q).head) hon hm ho h
  rw [if_pos hw] at hadd
  rw [hw, State.headStep_word, raised_word] at hports
  exact ⟨t, State.publishHead_added hask h0 hring hadd (hports.queue_of_mem f q), hsame, hton, htm, hports⟩

/-- A word that does not hold HEAD faults the queue (R207). -/
theorem State.publishHead_unexpected (hf : (s.queue f q).fault = false)
    (hw : leNat (memReadBytes s.mem ((s.queue f q).index + 8) 4) ≠ (s.queue f q).head) :
    (s.publishHead f q).running.miss = none ∧ ((s.publishHead f q).queue f q).fault = true ∧
      ((s.publishHead f q).queue f q).faultCode = stMalformed ∧ ((s.publishHead f q).queue f q).enabled = false ∧
      ((s.publishHead f q).queue f q).head = (s.queue f q).head := by
  rw [← State.headStep_word] at h
  obtain ⟨t, hadd, -, -, htm, hports⟩ := State.indexAdd_okay (expected := (s.queue f q).head) hon hm ho h
  rw [if_neg hw] at hadd
  have hq : t.queue f q = s.queue f q := hports.queue_of_mem f q
  rw [State.publishHead_stopped hask h0 hring hadd, State.queueFault_running, ← hq]
  exact ⟨htm, State.queueFault_queue (hq ▸ hf) ..⟩

end

end Sys2Proof.Machine
end

section
/-! The jobs form, run and pass (R189, R194, R199 to R207, R211, R216). -/

namespace Sys2Proof.Machine

theorem State.SamePorts.of_ports {s t r : State} (h : s.SamePorts t) (hr : r.ports = t.ports) : s.SamePorts r := by
  intro n
  have hn : r.port n = t.port n := by
    unfold State.port
    rw [hr]
  rw [hn]
  exact h n

/-- A command that wrote memory, and then passed jobs and told of it, has done nothing else. -/
theorem State.OnTold.onFrame {u t r : State} {m : Mem} (h : t.OnTold r) (hports : State.OnPorts { u.start with mem := m } t) :
    r.mem = m ∧ r.ports = t.ports ∧ r.running.miss = t.running.miss ∧ ({ r with running := u.running } : State) = { u with
      mem := r.mem, ports := r.ports, queues := r.queues, tel := { u.tel with cnt := r.tel.cnt }, notify := r.notify } := by
  unfold State.OnTold at h
  unfold State.OnPorts at hports
  rw [h]
  refine ⟨?_, rfl, rfl, ?_⟩
  · rw [hports]
  · rw [hports]
    rfl

/-- A command whose HEAD update has no slot has done nothing yet (log 4). -/
theorem State.After.blocked {u : State} {f : State → State} {o : Out} (h : u.After f o)
    (hr : (f u.start).running = { u.start.running with miss := some .blocked }) : o = .next u := by
  rw [h.waits rfl (by rw [hr]; rfl), hr]
  rfl

section
variable {u : State} {f q : Nat} {o : Out} (h : u.After (State.publishHead f q) o) (hask : u.headAsked f q = none)
  (h0 : 0 < entryCount (u.queue f q).passable) (hring : (u.queue f q).head + entryCount (u.queue f q).passable < (u.queue f q).size)
  (ho : u.OkayAt 0 ((u.queue f q).index + 8) 4)
include h hask h0 hring ho

/-- Until the addition to HEAD has its slot, nothing happens (log 4). -/
theorem State.After.headWaits
    (hs : u.NoSlot (.control f) .fetchAdd ((u.queue f q).index + 8) 4 (BitVec.ofNat 32 (entryCount (u.queue f q).passable)) []) :
    o = .next u :=
  h.blocked (State.publishHead_noSlot (s := u.start) hask h0 hring rfl rfl ho (State.noSlot_start hs))

variable
  (hs : u.HasSlot (.control f) .fetchAdd ((u.queue f q).index + 8) 4 (BitVec.ofNat 32 (entryCount (u.queue f q).passable)) [])
include hs

/-- With no room for the MSG, HEAD stays where it was (R145; log 4). -/
theorem State.After.headUntold (hw : leNat (memReadBytes u.mem ((u.queue f q).index + 8) 4) = (u.queue f q).head)
    (ht : (u.queue f q).Tells (u.queue f q).passable) (hroom : ¬ u.HasRoom f (u.queue f q).vector) :
    ∃ t, o = .next t ∧ u.OnMemory t := by
  obtain ⟨t, hpub, -, hon, hm, hports⟩ := State.publishHead_raised (s := u.start) hask h0 hring rfl rfl ho hs hw
  have hq : t.queue f q = u.queue f q := hports.queue_of_mem f q
  have hnote : t.notify = u.notify := by rw [hports]; rfl
  have hwait : (t.tellHead f q (entryCount (u.queue f q).passable) (u.queue f q).passable).running.miss = some .blocked :=
    State.tellHead_waits (by rw [hq]; exact ht) (by rw [hq]; unfold State.HasRoom; rw [hnote]; exact hroom) hon hm
  refine ⟨_, h.waits hpub ?_, State.waited_onMemory ..⟩
  exact Option.isSome_iff_exists.mpr ⟨_, hwait⟩

/-- HEAD passes the complete jobs, and the word of the index block is raised to it (R205, R206, R211). -/
theorem State.After.headPasses (hw : leNat (memReadBytes u.mem ((u.queue f q).index + 8) 4) = (u.queue f q).head)
    (ht : ¬ (u.queue f q).Tells (u.queue f q).passable ∨ u.HasRoom f (u.queue f q).vector) :
    ∃ t, o = .next t ∧ u.Passed t f q (entryCount (u.queue f q).passable) (u.queue f q).passable ∧ t.mem = (u.withHead f q).mem ∧
      u.SamePorts t ∧
      t = { u with mem := t.mem, ports := t.ports, queues := t.queues, tel := { u.tel with cnt := t.tel.cnt }, notify := t.notify } := by
  obtain ⟨t, hpub, hsame, -, hm, hports⟩ := State.publishHead_raised (s := u.start) hask h0 hring rfl rfl ho hs hw
  have hq : t.queue f q = u.queue f q := hports.queue_of_mem f q
  have hnote : t.notify = u.notify := by rw [hports]; rfl
  obtain ⟨hpassed, htold⟩ := State.tellHead_passed (s := t) (f := f) (q := q) (n := entryCount (u.queue f q).passable)
    (js := (u.queue f q).passable) (by rw [hq]; unfold State.HasRoom; rw [hnote]; exact ht)
  unfold State.Passed at hpassed
  rw [hq, hnote] at hpassed
  obtain ⟨hmem, hp, hmiss, hkept⟩ := htold.onFrame hports
  exact ⟨_, h.done hpub (hmiss.trans hm), hpassed, hmem, hsame.of_ports hp, hkept⟩

/-- A word that does not hold the old HEAD faults the queue (R207). -/
theorem State.After.headFaults (hf : (u.queue f q).fault = false)
    (hw : leNat (memReadBytes u.mem ((u.queue f q).index + 8) 4) ≠ (u.queue f q).head) :
    ∃ t, o = .next t ∧ (t.queue f q).fault = true ∧ (t.queue f q).faultCode = stMalformed ∧ (t.queue f q).enabled = false ∧
      (t.queue f q).head = (u.queue f q).head := by
  obtain ⟨hm, hfault⟩ := State.publishHead_unexpected (s := u.start) hask h0 hring rfl rfl ho hs hf hw
  exact ⟨_, h.done rfl hm, hfault⟩

end

/-- Settles O40, an event at a time: the entry that is read (State.usePosted_first), the visit (State.visitQueue), and the update of HEAD by
how its addition goes: it waits, it is made with or without room for the MSG, or its word is not the expected one. -/
theorem jobsFormRunAndPass : Obligations.JobsFormRunAndPass := by
  refine ⟨?_, ?_, ?_⟩
  · intro fn q v s slot f u x hl he hn
    refine ⟨exec_entryFetch_unread hl he hn, fun a ha hp hph hc hb hf => ?_⟩
    have hafter := exec_entryFetch_posted (v := v) hl he hn ha
    have huse : State.usePosted f q.toNat slot a u.start = _ := State.usePosted_first hp hph hc hb hf
    refine ⟨fun hlast => ?_, fun hlast => ?_⟩
    · rw [State.startChain_last hlast, State.setQueue_queue_same, State.setQueue_setQueue] at huse
      exact hafter.done huse rfl
    · rw [State.startChain_open hlast, State.setQueue_queue_same, State.setQueue_setQueue] at huse
      exact hafter.done huse rfl
  · intro fn q v s j f u x hl hon hj hst hv hb hc
    have hwork : x.hasWork = true := by
      simp [Queue.hasWork, hon, hj, hst]
    have hafter := exec_queueVisit_open (v := v) hl hwork (hj ▸ List.cons_ne_nil j []) hv
    refine ⟨fun hd => ?_, fun hd hop => ?_, fun hd hop hp => ?_⟩
    · exact hafter.done (State.visitQueue_early hd) rfl
    · exact hafter.done (State.visitQueue_nop (s := u.start) hv hb hd hj hst hc hop) rfl
    · exact hafter.done (State.visitQueue_starts (s := u.start) hv hb hd hj hst hc hop hp) rfl
  · intro fn q v s f u x js n by_ word hl hf hon hj h0 hring _ he hask ho
    have hafter := exec_jobCompleteHeadPublish (v := v) hl hf hon hj he
    refine ⟨hafter.headWaits hask h0 hring ho, ?_, fun hs hw => hafter.headFaults hask h0 hring ho hs hf hw⟩
    intro hs hw tells room
    refine ⟨fun ht hr => hafter.headUntold hask h0 hring ho hs hw ht hr, fun ht => ?_⟩
    obtain ⟨t, hexec, ⟨hqueue, hquiet, htold⟩, hmem, hsame, hkept⟩ := hafter.headPasses hask h0 hring ho hs hw ht
    exact ⟨t, hexec, hqueue, hmem, hsame, hquiet, htold, hkept⟩

end Sys2Proof.Machine
end

section
/-! Q_ENABLE where sill port 0 does not serve (R84, R193, R210). -/

namespace Sys2Proof.Machine

/-- A frame that runs, with one open function and its queue, which is off, whose sill port 0 lies on an isolated die. -/
def deadPortOff : State := { deadPortState with queues := [(0, { bellQueue with enabled := false })] }

/-- The read of the index block completes as DECERR at once (R84), which faults the queue (R135, R210). -/
theorem deadPortOff_qEnable {t : State} (h : exec (.qEnable ⟨.function, 0⟩ 0 0 0) deadPortOff = .next t) : (t.queue 0 0).fault = true := by
  have hfault : ((deadPortOff.hostWrite ⟨.function, 0⟩ (fnReg 0 (queueReg 0 0x1C)) (withBits 0 1)
      viewSame viewSame).queue 0 0).fault = true := by
    decide +kernel
  exact Host.Outcome.next.inj h ▸ hfault

/-- Refutes O37: the statement has no premise that port 0 serves. Where it does not, Q_ENABLE of a queue whose static checks hold leaves the
queue faulted, not ENABLING with the read of its index block out. -/
theorem not_queueEnableReadsAndChecks : ¬ Obligations.QueueEnableReadsAndChecks := by
  rintro ⟨henable, -⟩
  obtain ⟨-, hgo⟩ := henable ⟨.function, 0⟩ 0 0 0 deadPortOff ⟨.inr ⟨rfl, rfl⟩, by decide, rfl, by decide, by decide⟩ rfl rfl
  obtain ⟨t, he, hqueue, -⟩ := hgo (by decide)
  have hfault := deadPortOff_qEnable he
  have hclean : (t.queue 0 0).fault = false := congrArg Queue.fault hqueue
  exact Bool.false_ne_true (hclean.symm.trans hfault)

end Sys2Proof.Machine
end

section
/-! What a unit does by itself, said through another function (log 4), and frames in which no work waits. -/

namespace Sys2Proof.Machine

/-! ## Work said another way -/

theorem State.After.congr {s : State} {f g : State → State} {o : Out} (h : s.After f o) (e : f s.start = g s.start) : s.After g o := by
  unfold State.After at h ⊢
  rwa [← e]

/-- Work that changes nothing, whatever notes the running command has, ends at once. -/
theorem State.After.unchanged {s : State} {f : State → State} {o : Out} (h : s.After f o) (e : f s.start = s.start) : o = .next s :=
  h.done (t := s.start) e rfl

/-! ## Frames in which no work waits (log 4) -/

theorem State.relays_of_none_waiting {s : State} (h : ∀ p ∈ s.openStreams, p.2.2.waitingRecs = []) : s.relays = s := by
  have hfree : s.openStreams.filter (fun p => s.relayFree p.2.2 && !([] : List Nat).contains (sKey p.1 p.2.1)) = [] :=
    List.filter_eq_nil_iff.mpr fun p hp => by simp [State.relayFree, h p hp]
  have hnext : s.nextRelay [] = none := by
    unfold State.nextRelay
    rw [hfree]
    rfl
  unfold State.relays
  cases s.relayFuel with
  | zero => rfl
  | succ n => rw [State.relaySettle, hnext]

theorem tblMap_eq_self {α : Type} {g : Nat → α → α} {t : Tbl α} (h : ∀ p ∈ t, g p.1 p.2 = p.2) : tblMap g t = t :=
  (List.map_congr_left (g := id) fun p hp => by rw [h p hp]; rfl).trans (List.map_id t)

section
variable {s : State} (h : s.NoWork)
include h

theorem State.NoWork.relays : s.relays = s := State.relays_of_none_waiting fun p hp => (h.1 p hp).1

/-- No job waits for a sample. -/
theorem State.NoWork.wakeSamples (f i : Nat) : s.wakeSamples f i = s := by
  obtain ⟨-, -, hjobs⟩ := h
  unfold State.wakeSamples
  dsimp only
  rw [tblMap_eq_self]
  intro q hq
  refine congrArg (fun l => { q.2 with jobs := l }) ((List.map_congr_left (g := id) fun j hj => ?_).trans (List.map_id _))
  rw [hjobs q hq j hj]
  rfl

/-- No stream drains. -/
theorem State.NoWork.not_draining (f i : Nat) : (s.stream f i).st ≠ .draining := by
  intro hd
  rcases tblGetD_eq_or_mem s.streams (sKey f i) .fresh with e | hm
  · have hfree : (s.stream f i).st = .free := congrArg Stream.st e
    rw [hd] at hfree
    cases hfree
  · have hopen : (sKey f i / 1024, sKey f i % 1024, s.stream f i) ∈ s.openStreams :=
      List.mem_map.mpr ⟨_, List.mem_filter.mpr ⟨hm, by rw [show (tblGetD s.streams (sKey f i) .fresh).st = .draining from hd]; rfl⟩, rfl⟩
    exact (h.1 _ hopen).2 hd

omit h in
theorem State.finishDrain_of_not_draining {f i : Nat} (h : (s.stream f i).st ≠ .draining) : s.finishDrain f i = s := by
  simp [State.finishDrain, Stream.drained, h]

theorem State.NoWork.finishDrains : s.finishDrains = s := by
  refine List.foldlRecOn s.openStreams _ (motive := fun t => t = s) rfl fun t ht p _ => ?_
  rw [ht]
  dsimp only
  rw [h.wakeSamples, State.finishDrain_of_not_draining fun hd => h.not_draining _ _ hd]

end

end Sys2Proof.Machine
end

section
/-! Batches are delivered, released together by lock groups, and returned (R240, R241, R244, R426, R436 to R438). -/

namespace Sys2Proof.Machine

/-! ## BATCH_DELIVER (R240, R244, R437) -/

section
variable {s : State} {f i : Nat}

/-- No transfer has ended where none is under way. -/
theorem State.finishXfer_none (h : (s.stream f i).xfer = none) : s.finishXfer f i = s := by
  unfold State.finishXfer
  dsimp only
  rw [h]

/-- The oldest finished batch leaves with a record of status OK (R436, R437). -/
theorem State.deliverHead_cons {b : Finished} {rest : List Finished} (h : (s.stream f i).finished = b :: rest) (time : Option Nat) :
    s.deliverHead f i time =
      let x := s.stream f i
      let r : RelayRec := ⟨b.batch, time.getD b.time, stOk, 0, true, x.lastBatch s.meet, 0, b.batch % x.depth, b.valid⟩
      State.finishDrain f i (State.wakeSamples f i (State.pump f i (State.relayPost f i r
        (s.setStream f i { x with finished := rest, posted := x.posted ++ [b] })))) := by
  unfold State.deliverHead State.releaseHead
  dsimp only
  rw [h]
  rfl

/-- What BATCH_DELIVER does with a stream. -/
def State.deliverBatch (f i : Nat) (s : State) : State :=
  if !s.live || !s.packRuns (s.stream f i) || (s.stream f i).st == .free || (s.stream f i).st == .halted then s
  else
    let s := s.finishXfer f i
    let y := s.stream f i
    if (y.grouped && !y.loose) || y.follows.isSome || y.finished.isEmpty then (s.pump f i).finishDrain f i else s.deliverHead f i none

theorem exec_batchDeliver (fn : BitVec 6) (stream : BitVec 10) (v : MemView) (s : State) :
    (s.seeMem v).After (State.deliverBatch fn.toNat stream.toNat) (exec (.batchDeliver fn stream v) s) := by
  have hexec : exec (.batchDeliver fn stream v) s = execBatchDeliver fn stream v s := rfl
  rw [hexec]
  unfold execBatchDeliver
  refine State.turn_after ?_
  unfold State.deliverBatch
  dsimp only
  generalize (s.seeMem v).start = u
  generalize u.finishXfer fn.toNat stream.toNat = w
  split
  · rfl
  · cases ((w.stream fn.toNat stream.toNat).grouped && !(w.stream fn.toNat stream.toNat).loose || (w.stream fn.toNat stream.toNat).follows.isSome) <;>
      cases (w.stream fn.toNat stream.toNat).finished.isEmpty <;> rfl

variable (hl : s.live = true) (hp : s.packRuns (s.stream f i) = true) (hf : (s.stream f i).st ≠ .free) (hh : (s.stream f i).st ≠ .halted)
  (hx : (s.stream f i).xfer = none)
include hl hp hf hh hx

/-- A stream outside a lock group that follows no other delivers its oldest finished batch. -/
theorem State.deliverBatch_alone (hg : (s.stream f i).grouped = false ∨ (s.stream f i).loose = true) (hfollows : (s.stream f i).follows = none)
    (hd : (s.stream f i).finished ≠ []) : s.deliverBatch f i = s.deliverHead f i none := by
  unfold State.deliverBatch
  rw [if_neg (by simp [hl, hp, hf, hh]), State.finishXfer_none hx]
  refine if_neg ?_
  rcases hg with hg | hg <;> simp [hg, hfollows, hd]

/-- A member waits for its group, a follower for the stage before it. -/
theorem State.deliverBatch_held (hw : ((s.stream f i).grouped = true ∧ (s.stream f i).loose = false) ∨ (s.stream f i).follows.isSome = true ∨
    (s.stream f i).finished = []) : s.deliverBatch f i = (s.pump f i).finishDrain f i := by
  unfold State.deliverBatch
  rw [if_neg (by simp [hl, hp, hf, hh]), State.finishXfer_none hx]
  refine if_pos ?_
  rcases hw with ⟨hg, hloose⟩ | hfollows | hd
  · simp [hg, hloose]
  · simp [hfollows]
  · simp [hd]

end

/-! ## RELAY_RETURN (R228, R425, R426, R438) -/

/-- A log of a function and the record of a unit change, and a counter. -/
theorem State.logTo_func_eq (f code cls unit index bay detail : Nat) (s : State) : s.logTo (some f) code cls unit index bay detail =
    { s with
      funcs := (s.logTo (some f) code cls unit index bay detail).funcs, units := (s.logTo (some f) code cls unit index bay detail).units
      tel := { s.tel with cnt := (s.logTo (some f) code cls unit index bay detail).tel.cnt } } := by
  unfold State.logTo
  dsimp only
  split <;> rfl

theorem exec_relayReturn {s : State} {acc : Acc} {fn : BitVec 6} (h : s.FuncAccess acc fn) (value : Word) :
    exec (.relayReturn acc fn value) s = .next (s.relayReturn fn.toNat value.toNat).accepted :=
  congrArg Host.Outcome.next (State.hostWrite_func h 0x050 value.toNat viewSame viewSame (by omega))

section
variable {s : State} {f value : Nat} {x : Stream} {n : Nat}

/-- The stream once `n` delivered batches are returned: its slots are free, and its ring has room (R228, R426, R438). -/
def Stream.takeBack (x : Stream) (n now : Nat) : Stream := { x with
  returned := x.returned + n, unacked := 0,
  retTimes := (List.range n).foldl (fun t k => tblSet t (x.returned + k) now) x.retTimes,
  roomTimes := x.roomWaits.foldl (fun t k => tblSet t k now) x.roomTimes }

variable (hx : x = s.stream f (value % 1024)) (hn : n = value / 65536 % 128)
include hx hn

/-- A return that cannot be is logged (R426). -/
theorem State.relayReturn_refused (h : x.st = .free ∨ n = 0 ∨ x.delivered < x.returned + n) :
    s.relayReturn f value = s.logTo (some f) stOk 4 3 (value % 1024) 0xFE value := by
  subst hx hn
  have hi : fld value 0 10 = value % 1024 := by simp [fld]
  have hcount : fld value 16 7 = value / 65536 % 128 := by simp [fld, Nat.shiftRight_eq_div_pow]
  unfold State.relayReturn
  rw [hi, hcount]
  exact if_pos h

theorem State.relayReturn_taken (hst : x.st ≠ .free) (h0 : 0 < n) (h : x.returned + n ≤ x.delivered) : s.relayReturn f value =
    ((s.setStream f (value % 1024) (x.takeBack n s.now)).relays.pump f (value % 1024)).finishDrains := by
  subst hx hn
  have hi : fld value 0 10 = value % 1024 := by simp [fld]
  have hcount : fld value 16 7 = value / 65536 % 128 := by simp [fld, Nat.shiftRight_eq_div_pow]
  unfold State.relayReturn
  rw [hi, hcount]
  refine if_neg ?_
  rintro (hfree | hz | hover)
  · exact hst hfree
  · exact absurd hz h0.ne'
  · exact absurd h hover.not_ge

end

/-- The packer of a halted stream stands. -/
theorem State.pump_of_halted {s : State} {f i : Nat} (h : (s.stream f i).st = .halted) : s.pump f i = s := by
  unfold State.pump
  dsimp only
  split
  · rfl
  · exact if_pos (by simp [h])

/-- Where no work waits, a halted stream stands, and nothing else goes on. -/
theorem State.NoWork.settled {s : State} (h : s.NoWork) {f i : Nat} (hh : (s.stream f i).st = .halted) : (s.relays.pump f i).finishDrains = s := by
  rw [h.relays, State.pump_of_halted hh, h.finishDrains]

/-! ## LOCK_GROUP_RELEASE (R240, R241) -/

/-- The members of a group. -/
def State.membersOf (s : State) (g : LockGroup) : List Stream := g.members.map (fun k => s.stream (k / 1024) (k % 1024))

theorem le_foldl_max {α : Type} (g : α → Nat) (l : List α) : ∀ a : Nat, a ≤ l.foldl (fun t x => max t (g x)) a ∧
    ∀ x ∈ l, g x ≤ l.foldl (fun t x => max t (g x)) a := by
  induction l with
  | nil => exact fun a => ⟨Nat.le_refl a, nofun⟩
  | cons y l ih =>
    intro a
    obtain ⟨hacc, hall⟩ := ih (max a (g y))
    refine ⟨(Nat.le_max_left ..).trans hacc, fun x hx => ?_⟩
    rcases List.mem_cons.mp hx with rfl | hx
    · exact (Nat.le_max_right ..).trans hacc
    · exact hall x hx

theorem le_ceilDiv_mul (n : Nat) : n ≤ ceilDiv n 1000 * 1000 := by
  unfold ceilDiv
  rw [if_neg (by omega)]
  omega

/-- A stream that its group may release now: it runs, follows no stage, and has finished a batch (R240, R244). -/
structure Stream.Releasable (x : Stream) : Prop where
  not_free : x.st ≠ .free
  not_halted : x.st ≠ .halted
  alone : x.follows = none
  finished : x.finished ≠ []

/-- A group that has a release instant is whole, and every member may be released; the instant is a whole microsecond or a deadline, at or
after the end of each batch, and in mode 1 at or after each deadline (R240). -/
theorem State.releaseInstant_some {s : State} {g : LockGroup} {t : Nat} (h : s.releaseInstant g = some t) :
    g.size ≤ g.members.length ∧ (g.mode = 0 → t % 1000 = 0) ∧
      ∀ x ∈ s.membersOf g, x.Releasable ∧ ∀ b rest, x.finished = b :: rest → b.time ≤ t ∧ (g.mode ≠ 0 → s.deadline x b.batch ≤ t) := by
  unfold State.releaseInstant at h
  rw [show g.members.map (fun k => s.stream (k / 1024) (k % 1024)) = s.membersOf g from rfl] at h
  dsimp only at h
  generalize s.membersOf g = ms at h ⊢
  rcases ite_eq_iff.mp h with ⟨-, h⟩ | ⟨hwhole, h⟩
  · cases h
  simp only [not_or, Nat.not_lt, Bool.not_eq_true, List.any_eq_false, Bool.or_eq_true, beq_iff_eq, List.isEmpty_iff] at hwhole
  obtain ⟨hsize, -, hall⟩ := hwhole
  obtain ⟨-, hlast⟩ := le_foldl_max (fun x : Stream => (x.finished.head?.map (·.time)).getD 0) ms 0
  generalize List.foldl (fun t (x : Stream) => max t ((x.finished.head?.map (·.time)).getD 0)) 0 ms = last at h hlast
  obtain ⟨hus, hdead⟩ := le_foldl_max (fun x : Stream => s.deadline x ((x.finished.head?.map (·.batch)).getD 0)) ms (ceilDiv last 1000 * 1000)
  have hceil := le_ceilDiv_mul last
  generalize List.foldl (fun t (x : Stream) => max t (s.deadline x ((x.finished.head?.map (·.batch)).getD 0))) _ ms = due at h hus hdead
  have ht : (if g.mode = 0 then ceilDiv last 1000 * 1000 else due) = t := Option.some.inj h
  refine ⟨hsize, fun hm => ?_, fun x hx => ?_⟩
  · rw [← ht, if_pos hm]
    omega
  · obtain ⟨⟨⟨hhalted, hfree⟩, hempty⟩, halone⟩ := hall x hx
    refine ⟨⟨hfree, hhalted, Option.isNone_iff_eq_none.mp (Option.isSome_eq_false_iff.mp halone), hempty⟩, fun b rest hb => ?_⟩
    have hb1 := hlast x hx
    have hb2 := hdead x hx
    rw [hb] at hb1 hb2
    simp only [List.head?_cons, Option.map_some, Option.getD_some] at hb1 hb2
    refine ⟨?_, fun hm => ?_⟩
    · split at ht <;> omega
    · rw [if_neg hm] at ht
      omega

/-- What LOCK_GROUP_RELEASE does with a group. -/
def State.releaseGroup (n : Nat) (s : State) : State := match s.releaseInstant (s.group n) with
  | none => s
  | some t => if !s.live || decide (s.now < t) then s
    else
      let time := s.releaseTime t
      s.forEach (s.group n).members (fun k s => s.deliverHead (k / 1024) (k % 1024) (some time))

theorem exec_lockGroupRelease (group : BitVec 6) (v : MemView) (s : State) :
    (s.seeMem v).After (State.releaseGroup group.toNat) (exec (.lockGroupRelease group v) s) := by
  have hexec : exec (.lockGroupRelease group v) s = execLockGroupRelease group v s := rfl
  rw [hexec]
  unfold execLockGroupRelease
  refine State.turn_after ?_
  unfold State.releaseGroup
  dsimp only
  cases (s.seeMem v).start.releaseInstant ((s.seeMem v).start.group group.toNat) with
  | none => rfl
  | some t =>
    dsimp only
    split <;> rfl

section
variable {s : State} {n t : Nat}

theorem State.releaseGroup_none (h : s.releaseInstant (s.group n) = none) : s.releaseGroup n = s := by
  unfold State.releaseGroup
  rw [h]

variable (h : s.releaseInstant (s.group n) = some t)
include h

theorem State.releaseGroup_early (he : s.now < t ∨ s.live = false) : s.releaseGroup n = s := by
  unfold State.releaseGroup
  rw [h]
  exact if_pos (by rcases he with he | he <;> simp [he])

theorem State.releaseGroup_due (hl : s.live = true) (ht : t ≤ s.now) :
    s.releaseGroup n = s.forEach (s.group n).members (fun k s' => s'.deliverHead (k / 1024) (k % 1024) (some (s.releaseTime t))) := by
  unfold State.releaseGroup
  rw [h]
  exact if_neg (by simp [hl, ht])

end

/-! ## The statement -/

/-- Settles O59: BATCH_DELIVER by deliverBatch_alone and deliverBatch_held, RELAY_RETURN by relayReturn_refused and relayReturn_taken, and
LOCK_GROUP_RELEASE by what a release instant says of the group (State.releaseInstant_some). -/
theorem batchesAreDeliveredAndReleased : Obligations.BatchesAreDeliveredAndReleased := by
  refine ⟨⟨?_, ?_⟩, ?_⟩
  · intro fn stream v s u f i x hl hp hf hh
    have hafter := exec_batchDeliver fn stream v s
    refine ⟨fun b rest hx hd hg hfollows => hafter.congr ?_, fun hx hw => hafter.congr ?_⟩
    · rw [State.deliverBatch_alone (s := u.start) hl hp hf hh hx hg hfollows (fun he => List.cons_ne_nil b rest (hd.symm.trans he)),
        State.deliverHead_cons (s := u.start) hd]
      rfl
    · exact State.deliverBatch_held (s := u.start) hl hp hf hh hx (by tauto)
  · intro acc fn value s f i n x hacc
    have hexec := exec_relayReturn hacc value
    refine ⟨fun hbad => ?_, fun hst h0 hle => ?_⟩
    · rw [State.relayReturn_refused rfl rfl hbad, State.logTo_func_eq] at hexec
      exact ⟨_, hexec, rfl⟩
    · rw [State.relayReturn_taken rfl rfl hst h0 hle] at hexec
      refine ⟨hexec, fun hh hw => ?_⟩
      rw [hexec]
      exact congrArg (fun t => Host.Outcome.next (State.accepted t)) (hw.settled (by rw [State.setStream_stream_same]; exact hh))
  · intro group v s u g
    have hafter := exec_lockGroupRelease group v s
    refine ⟨fun hn => hafter.unchanged (State.releaseGroup_none hn), fun t ht => ?_⟩
    obtain ⟨hsize, hmode, hall⟩ := State.releaseInstant_some ht
    refine ⟨hsize, hmode, fun k hk => ?_, fun he => hafter.unchanged (State.releaseGroup_early ht he), fun hl hle hlate => ?_, fun hl hlate => ?_⟩
    · obtain ⟨hrel, htimes⟩ := hall _ (List.mem_map_of_mem hk)
      obtain ⟨b, rest, hb⟩ := List.exists_cons_of_ne_nil hrel.finished
      exact ⟨hrel.not_free, hrel.not_halted, hrel.alone, b, rest, hb, htimes b rest hb⟩
    · refine hafter.congr ((State.releaseGroup_due (s := u.start) ht hl hle).trans ?_)
      rw [show u.start.releaseTime t = t from if_neg hlate.not_gt]
      rfl
    · refine hafter.congr ((State.releaseGroup_due (s := u.start) ht hl ((Nat.le_add_right t 2000).trans hlate.le)).trans ?_)
      rw [show u.start.releaseTime t = s.now / 1000 * 1000 from if_pos hlate]
      rfl

end Sys2Proof.Machine
end

section
/-! JUDGE_HEAT_START: which heat starts in a bay, and over which units (R235, R260, R400, R401, R508). -/

namespace Sys2Proof.Machine

/-! ## The heat that is due -/

theorem State.num_of_graph? {s : State} {n : Nat} {g : Graph} (h : s.graph? n = some g) : g.num = n := by
  unfold State.graph? at h
  cases hc : s.image.committed with
  | none =>
    rw [hc] at h
    cases h
  | some c =>
    rw [hc] at h
    simpa using List.find?_some h

section
variable {s : State} {k : Nat} {us : List HeatUnit}

/-- A heat is of a graph that is due, over its first units (R235, R400). -/
theorem State.heatOf_some {g : Graph} {body : Bytes} {l : List HeatUnit} (h : s.heatOf k us = some (g, body, l)) :
    l = (s.unitsOf g.num us).take (leAt body 4 2) ∧ s.heatDue k g.num body (s.unitsOf g.num us) = true := by
  unfold State.heatOf at h
  obtain ⟨n, -, hn⟩ := List.exists_of_findSome?_eq_some h
  split at hn
  · rename_i b y hb hy
    rcases ite_eq_iff.mp hn with ⟨hdue, hn⟩ | ⟨-, hn⟩
    · cases hn
      rw [State.num_of_graph? hy]
      exact ⟨rfl, hdue⟩
    · cases hn
  · cases hn

/-- No heat starts where no graph of a unit is due. -/
theorem State.heatOf_none (h : ∀ u ∈ us, ∀ f i x body g, s.tagStream u.data.tag = some (f, i, x) → s.bayProfile x.graph k 0x0501 = some body →
    s.graph? x.graph = some g → s.heatDue k x.graph body (s.unitsOf x.graph us) = false) : s.heatOf k us = none := by
  unfold State.heatOf
  refine List.findSome?_eq_none_iff.mpr fun n hn => ?_
  obtain ⟨u, hu, hgraph⟩ := List.mem_filterMap.mp (List.mem_eraseDups.mp hn)
  obtain ⟨⟨f, i, x⟩, htag, rfl⟩ := Option.map_eq_some_iff.mp hgraph
  split
  · rename_i body g hbody hg
    exact if_neg (by simp [h u hu f i x body g htag hbody hg])
  · rfl

end

/-- The weights of a program without weights are none: no access is made for them (R401). -/
theorem State.runHeat_without_weights {s : State} {k slot : Nat} {body p : Bytes} {g : Graph} {us : List HeatUnit} (h : jpWeights p = 0) :
    s.runHeat k slot body p g us = State.forEach us (State.heatUnit k body p #[])
      (s.modBay k (fun b => { b with heat := b.heat.filter (fun h => !us.contains h), taken := b.taken + 1 })) := by
  have hweights : s.heatWeights g k slot body p = (.ok #[], s) := by
    unfold State.heatWeights
    rw [h]
    rfl
  unfold State.runHeat
  rw [if_neg (by simp [h]), hweights]

/-! ## The command -/

/-- What a judge bay does with the units that stand in it. -/
def State.startHeat (k : Nat) (s : State) : State := match s.heatOf k (s.heatReady k) with
  | none => s
  | some (g, body, us) => match (s.slotsOf g.num k).head? with
    | none => s
    | some slot => if !s.heatBanks k slot body then s else match s.pinnedTable k slot (leAt body 0 4) with
      | (some p, s) => (s.runHeat k slot body p g us).passFlush k
      | (none, s) => s

/-- The frame runs, the bay runs, and no self-test does (R400, R508). -/
def State.mayHeat (k : Nat) (s : State) : Prop := s.frame.st = .running ∧ s.bayRuns k = true ∧ s.sec.selftestBusy = false

section
variable {bay : BitVec 6} {v : MemView} {s : State}

theorem exec_judgeHeatStart (h : s.mayHeat bay.toNat) :
    (s.seeMem v).After (fun w => (w.dropStale bay.toNat).startHeat bay.toNat) (exec (.judgeHeatStart bay v) s) := by
  have hstart : (s.seeMem v).start.mayHeat bay.toNat := h
  have hexec : exec (.judgeHeatStart bay v) s = execJudgeHeatStart bay v s := rfl
  rw [hexec]
  unfold execJudgeHeatStart
  refine State.turn_after ?_
  generalize (s.seeMem v).start = u at hstart
  obtain ⟨hf, hb, hs⟩ := hstart
  dsimp only
  rw [if_neg (by simp [hf, hb, hs])]
  generalize u.dropStale bay.toNat = w
  unfold State.startHeat
  cases w.heatOf bay.toNat (w.heatReady bay.toNat) with
  | none => rfl
  | some p =>
    obtain ⟨g, body, us⟩ := p
    dsimp only
    cases (w.slotsOf g.num bay.toNat).head? with
    | none => rfl
    | some slot =>
      dsimp only
      cases w.heatBanks bay.toNat slot body with
      | false => rfl
      | true =>
        generalize w.pinnedTable bay.toNat slot (leAt body 0 4) = q
        obtain ⟨p, t⟩ := q
        cases p <;> rfl

theorem exec_judgeHeatStart_idle (h : ¬ s.mayHeat bay.toNat) : exec (.judgeHeatStart bay v) s = .next (s.seeMem v) := by
  have hexec : exec (.judgeHeatStart bay v) s = execJudgeHeatStart bay v s := rfl
  rw [hexec]
  unfold execJudgeHeatStart
  refine State.turn_of_next (s := s.seeMem v) (t := (s.seeMem v).start) ?_ rfl
  refine if_pos ?_
  by_contra hgo
  simp only [Bool.or_eq_true, bne_iff_ne, Bool.not_eq_true', not_or, not_not, Bool.not_eq_false, Bool.not_eq_true] at hgo
  exact h ⟨hgo.1.1, hgo.1.2, hgo.2⟩

end

/-- A heat starts once its engine reaches its banks (R260, R399). -/
theorem State.startHeat_due {s : State} {k slot : Nat} {g : Graph} {body p : Bytes} {us : List HeatUnit}
    (ho : s.heatOf k (s.heatReady k) = some (g, body, us)) (hslot : (s.slotsOf g.num k).head? = some slot) (hb : s.heatBanks k slot body = true)
    (hp : s.pinnedTable k slot (leAt body 0 4) = (some p, s)) : s.startHeat k = (s.runHeat k slot body p g us).passFlush k := by
  unfold State.startHeat
  rw [ho]
  dsimp only
  rw [hslot]
  dsimp only
  rw [hb, hp]
  rfl

theorem State.dropStale_start (k : Nat) (s : State) : s.start.dropStale k = (s.dropStale k).start := rfl

theorem State.heatReady_start (k : Nat) (s : State) : s.start.heatReady k = s.heatReady k := rfl

theorem State.heatOf_start (k : Nat) (us : List HeatUnit) (s : State) : s.start.heatOf k us = s.heatOf k us := rfl

/-- Settles O60: heatOf_some and heatOf_none say which heat starts, startHeat_due and exec_judgeHeatStart that it runs. -/
theorem heatsTakeReadyUnits : Obligations.HeatsTakeReadyUnits := by
  intro bay v s k u w ready
  refine ⟨fun hidle => exec_judgeHeatStart_idle ?_, fun hf hb hs => ?_⟩
  · rintro ⟨hf, hb, hs⟩
    rcases hidle with h | h | h
    · exact h hf
    · exact Bool.false_ne_true (h.symm.trans hb)
    · exact Bool.false_ne_true (hs.symm.trans h)
  · have hafter := exec_judgeHeatStart (v := v) ⟨hf, hb, hs⟩
    refine ⟨?_, fun hnone => ?_⟩
    · intro g body us slot p z ho hslot hbanks hp
      obtain ⟨hus, hdue⟩ := State.heatOf_some ho
      exact ⟨hus, hdue, hafter.congr (State.startHeat_due ho hslot hbanks hp), State.runHeat_without_weights⟩
    · have hstart : (u.start.dropStale k).startHeat k = u.start.dropStale k := by
        unfold State.startHeat
        rw [State.dropStale_start, State.heatReady_start, State.heatOf_start, State.heatOf_none hnone]
      exact hafter.done hstart rfl

end Sys2Proof.Machine
end

section
/-! What the completion of an entry changes: its job, and with an error record what that leaves in memory, logs and notes (R189, R208 to
R211). -/

namespace Sys2Proof.Machine

/-- An entry completes with OK: its job is one entry further (R189). -/
theorem State.entryDone_ok (f q : Nat) (j : Job) (bs : Bytes) (detail : Nat) (s : State) : s.entryDone f q j bs stOk detail = s.stepped f q j := by
  unfold State.entryDone
  dsimp only
  rw [if_pos (.inl rfl)]
  rfl

/-- Only memory, ports, counters, logs, queues, messages, work put off and the notes of the running command differ. -/
def State.OnRecords (s t : State) : Prop :=
  t = { s with
    mem := t.mem, ports := t.ports, tel := { s.tel with cnt := t.tel.cnt }, running := t.running, funcs := t.funcs, units := t.units
    queues := t.queues, notify := t.notify, later := t.later }

theorem State.OnRecords.refl (s : State) : s.OnRecords s := rfl

theorem State.OnRecords.trans {a b c : State} (h : a.OnRecords b) (k : b.OnRecords c) : a.OnRecords c := by
  unfold State.OnRecords at *
  rw [k, h]

theorem State.OnRecords.tel {s t : State} (h : s.OnRecords t) : t.tel = { s.tel with cnt := t.tel.cnt } := by
  unfold State.OnRecords at h
  rw [h]

theorem State.Accesses.onRecords {s t : State} (h : s.Accesses t) : s.OnRecords t := by
  unfold State.Accesses at h
  unfold State.OnRecords
  rw [h]

theorem State.logTo_func_onRecords (f code cls unit index bay detail : Nat) (s : State) :
    s.OnRecords (s.logTo (some f) code cls unit index bay detail) := by
  rw [State.logTo_func_eq]
  rfl

theorem State.sendMsg_onRecords (fn vector : Nat) (payload : Word) (s : State) : s.OnRecords (s.sendMsg fn vector payload) := by
  unfold State.sendMsg
  dsimp only
  split
  · rfl
  · split
    · rfl
    · exact (s.mustWait_accesses _).onRecords

theorem State.queueMsg_onRecords (f q : Nat) (s : State) : s.OnRecords (s.queueMsg f q) :=
  State.OnRecords.trans (b := s.setQueue f q _) rfl (State.sendMsg_onRecords ..)

theorem State.queueFault_onRecords (f q code detail : Nat) (s : State) : s.OnRecords (s.queueFault f q code detail) := by
  unfold State.queueFault
  dsimp only
  split
  · exact .refl s
  · exact State.OnRecords.trans (b := (s.dropQueueReads f q true).setQueue f q _) rfl (State.logTo_func_onRecords ..)

theorem State.indexAdd_onRecords (f q off expected addend : Nat) (s : State) : s.OnRecords (s.indexAdd f q off expected addend).2 := by
  unfold State.indexAdd
  dsimp only
  generalize hp : s.sysAdd _ _ _ = p
  have h := (hp ▸ State.sysAdd_accesses ..).onRecords
  obtain ⟨resp, old, t⟩ := p
  cases resp with
  | fault | poison | decerr => exact h.trans (State.queueFault_onRecords ..)
  | okay =>
    dsimp only
    split
    · exact h
    · exact h.trans (State.queueFault_onRecords ..)

theorem State.writeError_onRecords (f q entry lap code opcode user detail : Nat) (s : State) :
    s.OnRecords (s.writeError f q entry lap code opcode user detail) := by
  unfold State.writeError
  dsimp only
  split
  · exact .refl s
  · generalize hp : s.sysWrite _ _ _ = p
    have h := (hp ▸ State.sysWrite_accesses ..).onRecords
    obtain ⟨resp, t⟩ := p
    cases resp with
    | fault | poison | decerr => exact h.trans (State.queueFault_onRecords ..)
    | okay =>
      have hadd := h.trans (t.indexAdd_onRecords f q 0x10 (s.queue f q).errCount 1)
      dsimp only
      generalize t.indexAdd f q 0x10 (s.queue f q).errCount 1 = r at hadd ⊢
      obtain ⟨added, u⟩ := r
      cases added with
      | false => exact hadd
      | true =>
        dsimp only
        split
        · exact (hadd.trans (c := (u.modQueue f q _).count 5 _ 1 1) rfl).trans (State.queueMsg_onRecords ..)
        · exact hadd.trans (c := (u.modQueue f q _).count 5 _ 1 1) rfl

theorem State.attempt_onRecords {α : Type} {body : State → α × State} (hb : ∀ u, State.OnRecords u (body u).2) (s : State) :
    s.OnRecords (s.attempt body).2 := by
  unfold State.attempt
  split
  · exact .refl s
  · have h := State.OnRecords.trans (a := s) (b := s.start) rfl (hb s.start)
    dsimp only
    generalize body s.start = p at h
    split
    · exact (s.waited_onMemory _).accesses.onRecords.trans rfl
    · exact h.trans rfl

/-- The error record of an entry is written, or put off. -/
theorem State.errorRecord_onRecords (f q entry lap code opcode user detail : Nat) (s : State) :
    s.OnRecords (s.errorRecord f q entry lap code opcode user detail) := by
  unfold State.errorRecord State.orLater
  have h := s.attempt_onRecords (body := fun s => ((), (Later.error f q entry lap code opcode user detail).run s))
    (State.writeError_onRecords f q entry lap code opcode user detail)
  refine iteInduction (motive := s.OnRecords) (fun _ => rfl) fun _ => ?_
  generalize s.attempt _ = p at h ⊢
  obtain ⟨o, t⟩ := p
  cases o with
  | some _ => exact h
  | none => exact h.trans rfl

theorem State.entryDone_onRecords (f q : Nat) (j : Job) (bs : Bytes) (code detail : Nat) (s : State) :
    s.OnRecords (s.entryDone f q j bs code detail) := by
  unfold State.entryDone
  dsimp only
  split
  · rfl
  · exact (State.errorRecord_onRecords ..).trans rfl

/-- Work that leaves the rest, leaves it also where it has to wait. -/
theorem State.After.onRecords {s t : State} {f : State → State} {o : Out} (h : s.After f o) (hf : s.start.OnRecords (f s.start))
    (ht : o = .next t) : s.OnRecords t := by
  unfold State.After at h
  rw [h] at ht
  rw [← Host.Outcome.next.inj ht]
  refine iteInduction (motive := s.OnRecords) (fun _ => ?_) fun _ => (s.waited_onMemory _).accesses.onRecords
  exact (State.OnRecords.trans (a := s) (b := s.start) rfl hf).trans rfl

end Sys2Proof.Machine
end

section
/-! LOCK_GROUP, POOL_FILL and SNAPSHOT (R223, R238, R239, R272, R274, R543). -/

namespace Sys2Proof.Machine

/-! ## LOCK_GROUP (R238, R239) -/

/-- A stream bound to a group. -/
def Stream.bound (gn : Nat) (x : Stream) : Stream := { x with group := some gn, loose := false }

theorem sKey_injective (f : Nat) : Function.Injective (sKey f) := fun i k h => by
  unfold sKey at h
  omega

/-- Streams are bound one by one; the others stay, as does all else. -/
theorem State.bindAll (f gn : Nat) (ms : List Nat) : ∀ s : State, ∃ t, s.forEach ms (fun i s => s.modStream f i (Stream.bound gn)) = t ∧
    t = { s with streams := t.streams } ∧ (∀ i, t.stream f i = if i ∈ ms then (s.stream f i).bound gn else s.stream f i) := by
  induction ms with
  | nil => exact fun s => ⟨s, rfl, rfl, fun _ => rfl⟩
  | cons m ms ih =>
    intro s
    obtain ⟨t, ht, hrest, hall⟩ := ih (s.modStream f m (Stream.bound gn))
    refine ⟨t, ht, hrest, fun i => ?_⟩
    rw [hall, State.modStream_eq]
    by_cases e : i = m
    · subst e
      rw [State.setStream_stream_same, if_pos List.mem_cons_self]
      exact ite_self _
    · rw [State.setStream_stream_other _ _ _ _ _ _ fun h => e (sKey_injective f h)]
      simp only [List.mem_cons, e, false_or]

section
variable {s : State} {f q : Nat} {j : Job} {e : Bytes}

/-- The group that an entry binds streams to: as it stands, or the one that the first binder makes (R238). -/
def State.groupFor (s : State) (f : Nat) (e : Bytes) : LockGroup :=
  if (s.group (leAt e 0x08 1)).size = 0 then State.newGroup e (s.stream f ((groupMembers e).headD 0)) else s.group (leAt e 0x08 1)

/-- A stream may be bound to a group: it is open, for groups, and fits (R223, R239). -/
def State.Binds (s : State) (f : Nat) (g : LockGroup) (i : Nat) : Prop :=
  i ≤ 1023 ∧ (s.stream f i).st ≠ .free ∧ (s.stream f i).grouped = true ∧ g.fits (s.stream f i) = true

theorem State.bindGroup_fits (hg : leAt e 0x08 1 ≤ 63) (h2 : 2 ≤ leAt e 0x09 1) (h64 : leAt e 0x09 1 ≤ 64) (hm : leAt e 0x0A 1 ≤ 1)
    (h1 : 1 ≤ leAt e 0x0B 1) (h16 : leAt e 0x0B 1 ≤ 16) (hms : ∀ i ∈ groupMembers e, s.Binds f (s.groupFor f e) i)
    (hsize : (s.groupFor f e).size = leAt e 0x09 1) (hmode : (s.groupFor f e).mode = leAt e 0x0A 1)
    (hticket : (s.groupFor f e).ticket = leAt e 0x0C 4) (hdups : (groupMembers e).eraseDups.length = leAt e 0x0B 1)
    (hroom : (s.groupFor f e).members.length + leAt e 0x0B 1 ≤ (s.groupFor f e).size) :
    s.bindGroup f q j e = (State.forEach (groupMembers e) (fun i s => s.modStream f i (Stream.bound (leAt e 0x08 1)))
      (s.setGroup (leAt e 0x08 1) { s.groupFor f e with
        members := (s.groupFor f e).members ++ (groupMembers e).map (sKey f) })).stepped f q j := by
  have hopen : ¬ (groupMembers e).any (fun i => 1023 < i || (s.stream f i).st == .free) = true := by
    simpa using fun i hi => ⟨(hms i hi).1, (hms i hi).2.1⟩
  have hgrouped : ¬ (groupMembers e).any (fun i => !(s.stream f i).grouped) = true := by
    simpa using fun i hi => (hms i hi).2.2.1
  have hfits : (groupMembers e).all (fun i => (s.groupFor f e).fits (s.stream f i)) = true :=
    List.all_eq_true.mpr fun i hi => (hms i hi).2.2.2
  unfold State.bindGroup
  dsimp only
  rw [if_neg (by omega), if_neg hopen, if_neg hgrouped]
  refine (if_neg ?_).trans (State.entryDone_ok ..)
  rw [show (if (s.group (leAt e 0x08 1)).size = 0 then State.newGroup e (s.stream f ((groupMembers e).headD 0))
    else s.group (leAt e 0x08 1)) = s.groupFor f e from rfl, hfits]
  simp only [not_or, Bool.not_true, Bool.false_eq_true, not_false_eq_true, true_and, not_not, Nat.not_lt]
  exact ⟨hsize, hmode, hticket, hdups, hroom⟩

end

/-! ## POOL_FILL (R272, R274) -/

section
variable {s : State} {p : Nat}

theorem State.setPool_setPool (p : Nat) (v w : Pool) (s : State) : (s.setPool p v).setPool p w = s.setPool p w := by
  unfold State.setPool
  rw [tblSet_tblSet]

/-- Handles that the cache of an enabled pool has room for join it (R273, R274). -/
theorem State.addHandles_fit (hs : List Nat) : ∀ {s : State}, hs ≠ [] → (s.pool p).enabled = true → (s.pool p).cache.length + hs.length ≤ 48 →
    s.addHandles p hs = s.setPool p { s.pool p with cache := (s.pool p).cache ++ hs } := by
  induction hs with
  | nil => exact fun h => absurd rfl h
  | cons h hs ih =>
    intro s _ he hroom
    rw [List.length_cons] at hroom
    have hcache : ((s.pool p).cache ++ [h]).length ≤ 48 := by
      rw [List.length_append, List.length_singleton]
      omega
    unfold State.addHandles
    dsimp only
    rw [State.setPool_pool_same]
    dsimp only
    rw [if_neg hcache.not_gt, State.setPool_pool_same, if_neg (by simp [he])]
    by_cases hnil : hs = []
    · subst hnil
      rfl
    · rw [ih hnil (by rw [State.setPool_pool_same]; exact he) (by rw [State.setPool_pool_same]; simp only [List.length_append, List.length_singleton]; omega),
        State.setPool_setPool,
        State.setPool_pool_same, List.append_assoc, List.singleton_append]

/-- A pool but for what its watchdog times (R280). -/
def Pool.untimed (x : Pool) : Pool := { x with stalled := false, stallSince := 0 }

/-- Only what watchdogs time differs, and counters. -/
structure State.Watches (s t : State) : Prop where
  frame : t = { s with pools := t.pools, tel := { s.tel with cnt := t.tel.cnt } }
  pools : ∀ p, (t.pool p).untimed = (s.pool p).untimed

theorem State.Watches.trans {a b c : State} (h : a.Watches b) (k : b.Watches c) : a.Watches c :=
  ⟨by rw [k.frame, h.frame], fun p => (k.pools p).trans (h.pools p)⟩

theorem State.setPool_watches (p : Nat) (v : Pool) (s : State) (h : v.untimed = (s.pool p).untimed) : s.Watches (s.setPool p v) := by
  refine ⟨rfl, fun p' => ?_⟩
  by_cases e : p' = p
  · subst e
    rw [State.setPool_pool_same, h]
  · rw [State.setPool_pool_other _ _ _ _ e]

theorem State.watchPools_watches (s : State) : s.Watches s.watchPools := by
  unfold State.watchPools
  refine List.foldlRecOn (s.pools.map (·.1)) _ (motive := s.Watches) ⟨rfl, fun _ => rfl⟩ fun t ht p _ => ht.trans ?_
  have hcount : t.Watches (if (t.pool p).stalled && !t.poolStalled p then t.count 6 p 2 (t.now - (t.pool p).stallSince) else t) :=
    iteInduction (fun _ => ⟨rfl, fun _ => rfl⟩) fun _ => ⟨rfl, fun _ => rfl⟩
  dsimp only
  generalize (if (t.pool p).stalled && !t.poolStalled p then t.count 6 p 2 (t.now - (t.pool p).stallSince) else t) = u at hcount ⊢
  exact hcount.trans (State.setPool_watches p _ u (hcount.pools p).symm)

/-- A pool once `hs` handles of a POOL_FILL have joined it. -/
def Pool.filled (x : Pool) (hs : List Nat) : Pool := { x with added := x.added + hs.length, cache := x.cache ++ hs }

/-- The handles of a POOL_FILL (R274). -/
def handlesOf (n : Nat) (data : Bytes) : List Nat := (List.range n).map (fun k => leAt data (8 * k) 8)

theorem handlesOf_length (n : Nat) (data : Bytes) : (handlesOf n data).length = n := by
  rw [handlesOf, List.length_map, List.length_range]

variable {f q n : Nat} {j : Job} {e : Bytes} {t : State}

/-- A POOL_FILL whose list is read and passes its checks fills the pool. -/
theorem State.poolFill_fits (hp : s.poolNo f (leAt e 0x08 1) = some p) (he : (s.pool p).enabled = true) (hn : n = leAt e 0x0C 4) (h0 : 0 < n)
    (hroom : (s.pool p).cache.length + n ≤ 48) (ha : leAt e 0x10 8 % 64 = 0)
    (hread : s.sysRead (.control f) (leAt e 0x10 8) (8 * n) = (.okay, memReadBytes s.mem (leAt e 0x10 8) (8 * n), t))
    (hpools : t.pools = s.pools)
    (hv : ∀ h ∈ handlesOf n (memReadBytes s.mem (leAt e 0x10 8) (8 * n)), (s.pool p).validHandle h = true)
    (hfit : (s.pool p).free + n ≤ (s.pool p).buffers) :
    s.poolFill f q j e = ((t.setPool p ((s.pool p).filled
      (handlesOf n (memReadBytes s.mem (leAt e 0x10 8) (8 * n))))).watchPools).stepped f q j := by
  have hpool : t.pool p = s.pool p := by
    unfold State.pool
    rw [hpools]
  have hlen := handlesOf_length n (memReadBytes s.mem (leAt e 0x10 8) (8 * n))
  subst hn
  unfold State.poolFill
  dsimp only
  rw [hp]
  dsimp only
  rw [if_neg (by simp [he]), if_neg (by omega), hread]
  dsimp only
  rw [show (List.range (leAt e 0x0C 4)).map (fun k => leAt (memReadBytes s.mem (leAt e 0x10 8) (8 * leAt e 0x0C 4)) (8 * k) 8) =
    handlesOf (leAt e 0x0C 4) (memReadBytes s.mem (leAt e 0x10 8) (8 * leAt e 0x0C 4)) from rfl]
  generalize handlesOf (leAt e 0x0C 4) (memReadBytes s.mem (leAt e 0x10 8) (8 * leAt e 0x0C 4)) = hs at hv hlen ⊢
  rw [if_neg (by decide), if_neg (by rw [List.all_eq_true.mpr hv]; decide), if_neg (by omega), State.modPool_eq,
    State.addHandles_fit hs (by rintro rfl; exact h0.ne hlen) (by rw [State.setPool_pool_same, hpool]; exact he)
      (by rw [State.setPool_pool_same, hpool, hlen]; exact hroom),
    State.setPool_setPool, State.setPool_pool_same, hpool, State.entryDone_ok, ← hlen]
  rfl

end

/-! ## SNAPSHOT (R543) -/

/-- The pacer time that a SNAPSHOT names: 0 is 10 µs from now. -/
def State.snapTime (s : State) (e : Bytes) : Nat := if leAt e 0x08 8 = 0 then s.now + 10000 else leAt e 0x08 8

section
variable {s : State} {f q : Nat} {j : Job} {e : Bytes}

theorem State.snapshotEntry_armed (hp : s.tel.pending = false) (ht : s.now + 10000 ≤ s.snapTime e) :
    s.snapshotEntry f q j e = (s.armSnap (s.snapTime e)).stepped f q j := by
  have hcheck : s.snapCheck (s.snapTime e) = .armed := by
    unfold State.snapCheck
    rw [if_neg (by simp [hp]), if_neg (by omega)]
  unfold State.snapshotEntry
  rw [show (if leAt e 0x08 8 = 0 then s.now + 10000 else leAt e 0x08 8) = s.snapTime e from rfl]
  dsimp only
  rw [hcheck]
  exact State.entryDone_ok ..

theorem State.snapshotEntry_refused (h : s.tel.pending = true ∨ s.snapTime e < s.now + 10000) : s.snapshotEntry f q j e =
    if s.tel.pending then s.entryDone f q j e stAccessDenied 16 else s.entryDone f q j e stMalformed 16 := by
  unfold State.snapshotEntry
  rw [show (if leAt e 0x08 8 = 0 then s.now + 10000 else leAt e 0x08 8) = s.snapTime e from rfl]
  dsimp only [State.snapCheck]
  by_cases hp : s.tel.pending = true
  · rw [if_pos hp, if_pos hp]
  · rw [if_neg hp, if_neg hp, if_pos (h.resolve_left hp)]

end

/-! ## The statement -/

/-- Settles O44, an entry at a time: bindGroup_fits, poolFill_fits, and the two outcomes of a SNAPSHOT. -/
theorem groupsHandlesAndSnapshots : Obligations.GroupsHandlesAndSnapshots := by
  intro fn q slot v s j e u f
  refine ⟨?_, ?_, ?_⟩
  · intro hacts gn ms g hgn h2 h64 hm h1 h16 hms hsize hmode hticket hdups hroom
    have hafter : u.After (State.bindGroup f q.toNat j e) (exec (.lockGroup fn q slot v) s) := State.runEntry_acts hacts.2 hacts.1
    obtain ⟨t, ht, hrest, hall⟩ := State.bindAll f gn ms (u.start.setGroup gn { g with members := g.members ++ ms.map (sKey f) })
    have hbind := State.bindGroup_fits (s := u.start) (f := f) (q := q.toNat) (j := j) hgn h2 h64 hm h1 h16 hms hsize hmode hticket hdups hroom
    have hend : t.stepped f q.toNat j = { u.start.stepped f q.toNat j with
        groups := (u.setGroup gn { g with members := g.members ++ ms.map (sKey f) }).groups, streams := t.streams } := by
      rw [hrest]
      rfl
    refine ⟨{ u.stepped f q.toNat j with
        groups := (u.setGroup gn { g with members := g.members ++ ms.map (sKey f) }).groups, streams := t.streams },
      hafter.done ((hbind.trans (congrArg _ ht)).trans hend) rfl, State.setGroup_group_same gn _ u, fun i hi => ?_, rfl⟩
    exact (hall i).trans (if_pos hi)
  · intro hacts p hp n addr x hs he h0 hroom ha hokay hrest hv hfit
    have hafter : u.After (State.poolFill f q.toNat j e) (exec (.poolFill fn q slot v) s) := State.runEntry_acts hacts.2 hacts.1
    have hlen : hs.length = n := handlesOf_length n _
    obtain ⟨t, hread, ht⟩ := State.PortsRest.sysRead_okay (s := u.start) (w := .control f) (addr := addr) (len := 8 * n) hrest rfl hokay (by omega)
    have hsignals := ht.signals.1
    unfold State.OnPorts at hsignals
    have hpools : t.pools = u.pools := by rw [hsignals]; rfl
    have hfill : u.start.poolFill f q.toNat j e = ((t.setPool p (x.filled hs)).watchPools).stepped f q.toNat j :=
      State.poolFill_fits (s := u.start) (f := f) (q := q.toNat) (j := j) hp he rfl h0 hroom ha hread hpools hv hfit
    obtain ⟨hframe, hwatch⟩ := State.watchPools_watches (t.setPool p (x.filled hs))
    have hfilled := hwatch p
    rw [State.setPool_pool_same] at hfilled
    generalize (t.setPool p (x.filled hs)).watchPools = w at hframe hfilled hfill
    have hend : w.stepped f q.toNat j = { u.stepped f q.toNat j with
        running := t.running, pools := w.pools, ports := t.ports, tel := { u.tel with cnt := w.tel.cnt } } := by
      rw [hframe, hsignals]
      rfl
    refine ⟨{ u.stepped f q.toNat j with pools := w.pools, ports := t.ports, tel := { u.tel with cnt := w.tel.cnt } },
      hafter.done (hfill.trans hend) ht.miss, ?_, ?_, ?_, ht.signals.2, rfl⟩
    · exact congrArg Pool.cache hfilled
    · exact (congrArg Pool.added hfilled).trans (by rw [← hlen]; rfl)
    · exact (congrArg Pool.enabled hfilled).trans he
  · intro hacts n
    have hafter : u.After (State.snapshotEntry f q.toNat j e) (exec (.snapshot fn q slot v) s) := State.runEntry_acts hacts.2 hacts.1
    refine ⟨fun hp ht => hafter.done (State.snapshotEntry_armed (s := u.start) hp ht) rfl, fun h => ?_⟩
    have hrefused := hafter.congr (g := fun w => if s.tel.pending then w.entryDone f q.toNat j e stAccessDenied 16
      else w.entryDone f q.toNat j e stMalformed 16) (State.snapshotEntry_refused (s := u.start) h)
    refine ⟨hrefused, fun t ht => (hrefused.onRecords ?_ ht).tel⟩
    split <;> exact State.entryDone_onRecords ..

end Sys2Proof.Machine
end

section
/-! The record that ends a ring, where the notes of a state say already that something waits (R237, R438; log 4). -/

namespace Sys2Proof.Machine

/-- A state whose notes carry a wait (log 4). Every unit that acts gives the notes back as it found them, so no run from reset comes here. -/
def State.waiting (s : State) : State := { s with running := ⟨true, [], some .blocked⟩ }

/-- The next state of an outcome keeps no access for later. -/
def nothingLater : Out → Bool
  | .next t => t.later.isEmpty
  | _ => true

/-- A stream with room in its relay ring. -/
def ringed : Stream := { Stream.fresh with
  st := .running, batch := 1, depth := 2, relayLog2 := 4, relayBase := 0x10000, slotBase := 0x20000, slotStride := 4096 }

/-- A frame that runs, with one open function and a stream of it. -/
def oneStream (x : Stream) : State := { State.reset with
  frame := { Frame.fresh with st := .running }, funcs := [(0, { Func.fresh with st := .open_ })], streams := [(0, x)] }

/-- A guaranteed feed stream without a source whose T0 is reached. -/
def unsourced : State := (oneStream { ringed with st := .filling, guaranteed := true, t0Given := true }).waiting

/-- SCHEDULE_START begins with clear notes, so the record goes out. -/
theorem unsourced_start {t : State} (h : exec (.scheduleStart 0 0 viewSame) unsourced = .next t) : t.later = [] := by
  have hrun : nothingLater (exec (.scheduleStart 0 0 viewSame) unsourced) = true := by decide +kernel
  rw [h] at hrun
  exact List.isEmpty_iff.mp hrun

/-- From the state as it is the record can only be kept for later. -/
theorem unsourced_abort : ((unsourced.seeMem viewSame).abortStream 0 0).later ≠ [] := by decide +kernel

/-- Refutes O56: its close with STREAM_ABORTED compares SCHEDULE_START, which begins with clear notes, with the close from the state as it is.
Where the notes carry a wait the first writes the ending record and the second keeps it for later. No run comes to such a state; the
statement takes every state. -/
theorem not_schedulesEpochsAndHurdles : ¬ Obligations.SchedulesEpochsAndHurdles := by
  rintro ⟨hstart, -⟩
  obtain ⟨hdue, -⟩ := hstart 0 0 viewSame unsourced rfl
  obtain ⟨-, hclose⟩ := hdue (by decide) rfl rfl rfl (by decide)
  obtain ⟨t, he, ht, -⟩ := hclose rfl rfl (by decide)
  exact unsourced_abort (ht ▸ unsourced_start he)

/-- STREAM_CLOSE with ABORT of stream 0, FIRST and LAST. -/
def abortEntry : Bytes := [3, 3] ++ zeros 8 ++ [1] ++ zeros 53

/-- The job of that entry, which has started. -/
def abortJob : Job := ⟨0, 0, 3, [(0, abortEntry)], 1, true, 0, false, false, false, none, none, 0⟩

/-- A stream that runs, and the entry that aborts it. -/
def abortWaiting : State := { (oneStream ringed).waiting with
  queues := [(0, { Queue.fresh with present := true, enabled := true, jobs := [abortJob] })] }

/-- STREAM_CLOSE begins with clear notes, so the record goes out. -/
theorem abortWaiting_close {t : State} (h : exec (.streamClose 0 0 0 viewSame) abortWaiting = .next t) : t.later = [] := by
  have hrun : nothingLater (exec (.streamClose 0 0 0 viewSame) abortWaiting) = true := by decide +kernel
  rw [h] at hrun
  exact List.isEmpty_iff.mp hrun

/-- From the state as it is the record can only be kept for later. -/
theorem abortWaiting_abort : (((abortWaiting.seeMem viewSame).stepped 0 0 abortJob).abortStream 0 0).later ≠ [] := by decide +kernel

/-- Refutes O43 for the same reason: its ABORT is compared with the close from the state as it is, which keeps the ending record for later
where the notes carry a wait. No run comes to such a state; the statement takes every state. -/
theorem not_streamsOpenFillRunAgain : ¬ Obligations.StreamsOpenFillRunAgain := by
  rintro ⟨hentries, -⟩
  obtain ⟨-, -, -, hclose⟩ := hentries 0 0 0 viewSame abortWaiting abortJob abortEntry
  obtain ⟨t, he, ht, -⟩ := hclose ⟨rfl, by decide +kernel⟩ (by decide) (by decide +kernel) (.inl (by decide))
  exact abortWaiting_abort (ht ▸ abortWaiting_close he)

end Sys2Proof.Machine
end

section
/-! GATHER and SCATTER where memory answers OKAY and the ports rest (R413, R415, R418, R421 to R423); RETURN_LOGITS and RETURN_WRITE whose work
is done (R441 to R443, R451, R458 to R465). -/

namespace Sys2Proof.Machine

/-! ## Accesses that are served -/

/-- A command runs, a port serves it, no request stands at a port, and memory answers every access with OKAY (R135). -/
structure State.Serves (s : State) (n : Nat) : Prop where
  runs : s.Runs n
  rest : s.PortsRest
  resp : s.resp = []

/-- Only memory, ports, functions, counters and notes differ, and what served the command serves it. -/
structure State.Moves (s t : State) : Prop where
  only : t = { s with mem := t.mem, ports := t.ports, funcs := t.funcs, running := t.running, tel := { s.tel with cnt := t.tel.cnt } }
  serves : ∀ n, s.Serves n → t.Serves n

theorem State.Moves.refl (s : State) : s.Moves s := ⟨rfl, fun _ => id⟩

theorem State.Moves.trans {a b c : State} (h : a.Moves b) (k : b.Moves c) : a.Moves c :=
  ⟨by rw [k.only, h.only], fun n => k.serves n ∘ h.serves n⟩

theorem State.Passes.moves {s t : State} (h : s.Passes t) : s.Moves t := by
  have hacc := h.accesses
  unfold State.Accesses at hacc
  exact ⟨by rw [hacc], fun n k => ⟨h.runs k.runs, h.rest k.rest, (congrArg State.resp hacc).trans k.resp⟩⟩

theorem State.Serves.answerAt {s : State} {n : Nat} (h : s.Serves n) (addr len : Nat) : s.answerAt addr len = some .okay := by
  unfold State.answerAt
  rw [h.resp]
  rfl

theorem State.Serves.readPage {s : State} {w : Party} (h : s.Serves w.port) (addr len : Nat) :
    ∃ t, s.readPage w addr len = (.okay, memReadBytes s.mem addr len, t) ∧ s.Moves t ∧ t.mem = s.mem := by
  rcases State.readPage_ends h.runs (h.answerAt addr len) with ⟨_, _, _, ht⟩ | ⟨t, e, ht, hmem⟩
  · exact absurd h.rest ht.busy
  · exact ⟨t, e, ht.moves, hmem⟩

theorem State.Serves.writePage {s : State} {w : Party} (h : s.Serves w.port) (addr : Nat) (bs : Bytes) :
    ∃ t, s.writePage w addr bs = (.okay, t) ∧ s.Moves t := by
  unfold State.writePage
  rw [if_neg (by simp [h.runs.up])]
  dsimp only
  generalize memReadBytes s.mem _ _ ++ bs ++ memReadBytes s.mem _ _ = data
  rcases State.access_ends h.runs (State.respTo_okay (w := w) (op := .write) (x := 0) (d := data) ⟨h.runs.up, h.answerAt addr bs.length⟩)
    with ⟨_, _, ht⟩ | ⟨t, e, ht, -⟩
  · exact absurd h.rest ht.busy
  · rw [e]
    exact ⟨t, rfl, ht.moves⟩

/-- A read of several pages gives what memory holds, where the number suffices for its pieces (R120). -/
theorem State.Serves.readSpan {w : Party} (fuel : Nat) : ∀ {s : State}, s.Serves w.port → ∀ a n,
    ∃ bs t, s.readSpan w fuel a n = (.ok bs, t) ∧ s.Moves t ∧ t.mem = s.mem ∧
      (n = 0 ∨ a % 4096 + n ≤ 4096 * fuel → bs = memReadBytes s.mem a n) := by
  induction fuel with
  | zero =>
    intro s h a n
    refine ⟨[], s, rfl, .refl s, rfl, fun hn => ?_⟩
    obtain rfl : n = 0 := by omega
    rfl
  | succ fuel ih =>
    intro s h a n
    unfold State.readSpan
    by_cases hn : n = 0
    · subst hn
      exact ⟨[], s, rfl, .refl s, rfl, fun _ => rfl⟩
    · rw [if_neg hn]
      dsimp only
      have hk : min n (4096 - a % 4096) ≤ n := Nat.min_le_left ..
      have hfuel : a % 4096 + n ≤ 4096 * (fuel + 1) → n - min n (4096 - a % 4096) = 0 ∨
          (a + min n (4096 - a % 4096)) % 4096 + (n - min n (4096 - a % 4096)) ≤ 4096 * fuel := by omega
      generalize min n (4096 - a % 4096) = k at hk hfuel ⊢
      obtain ⟨t, et, ht, hmem⟩ := h.readPage a k
      obtain ⟨bs, u, eu, hu, humem, hbs⟩ := ih (ht.serves _ h) (a + k) (n - k)
      rw [et]
      dsimp only
      rw [eu]
      refine ⟨_, u, rfl, ht.trans hu, humem.trans hmem, fun h => ?_⟩
      rw [hbs (hfuel (h.resolve_left hn)), hmem, ← memReadBytes_add, Nat.add_sub_cancel' hk]

theorem State.Serves.readSpan_whole {s : State} {w : Party} (h : s.Serves w.port) (a n : Nat) :
    ∃ t, s.readSpan w (spanFuel n) a n = (.ok (memReadBytes s.mem a n), t) ∧ s.Moves t ∧ t.mem = s.mem := by
  obtain ⟨bs, t, e, ht, hmem, hbs⟩ := h.readSpan (spanFuel n) a n
  exact ⟨t, hbs (.inr (by unfold spanFuel; omega)) ▸ e, ht, hmem⟩

theorem State.Serves.writeSpan {w : Party} (fuel : Nat) : ∀ {s : State}, s.Serves w.port → ∀ a bs,
    ∃ t, s.writeSpan w fuel a bs = (none, t) ∧ s.Moves t := by
  induction fuel with
  | zero => exact fun {s} _ _ _ => ⟨s, rfl, .refl s⟩
  | succ fuel ih =>
    intro s h a bs
    unfold State.writeSpan
    split
    · exact ⟨s, rfl, .refl s⟩
    · obtain ⟨t, et, ht⟩ := h.writePage a (bs.take (4096 - a % 4096))
      obtain ⟨u, eu, hu⟩ := ih (ht.serves _ h) (a + (4096 - a % 4096)) (bs.drop (4096 - a % 4096))
      dsimp only
      rw [et]
      exact ⟨u, eu, ht.trans hu⟩

theorem State.Serves.readAll {w : Party} : ∀ (l : List (Nat × Nat)) {s : State}, s.Serves w.port →
    ∃ t, s.readAll w l = (.ok (l.map fun p => memReadBytes s.mem p.1 p.2), t) ∧ s.Moves t ∧ t.mem = s.mem
  | [], s, _ => ⟨s, rfl, .refl s, rfl⟩
  | (a, n) :: l, s, h => by
    obtain ⟨t, et, ht, hmem⟩ := h.readSpan_whole a n
    obtain ⟨u, eu, hu, humem⟩ := State.Serves.readAll l (ht.serves _ h)
    refine ⟨u, ?_, ht.trans hu, humem.trans hmem⟩
    unfold State.readAll
    rw [et]
    dsimp only
    rw [eu, hmem]
    rfl

/-! ## Blocks that move -/

theorem State.Serves.readRows {w : Party} (d : Bytes) (base : Nat) (c : List Nat) : ∀ (rows : List Nat) {s : State}, s.Serves w.port →
    ∃ bs t, s.readRows w d base c rows = (.ok bs, t) ∧ s.Moves t
  | [], s, _ => ⟨[], s, rfl, .refl s⟩
  | r :: rows, s, h => by
    obtain ⟨bs, t, et, ht, -⟩ := h.readSpan 3 (rowSpan d base c r).1 (rowSpan d base c r).2
    obtain ⟨rest, u, eu, hu⟩ := State.Serves.readRows d base c rows (ht.serves _ h)
    unfold State.readRows
    dsimp only
    rw [et]
    dsimp only
    rw [eu]
    exact ⟨_, u, rfl, ht.trans hu⟩

theorem State.Serves.writeRows {w : Party} (d : Bytes) (base : Nat) (c : List Nat) (bs : Bytes) : ∀ (rows : List Nat) {s : State},
    s.Serves w.port → ∃ t, s.writeRows w d base c bs rows = (none, t) ∧ s.Moves t
  | [], s, _ => ⟨s, rfl, .refl s⟩
  | r :: rows, s, h => by
    obtain ⟨t, et, ht⟩ := h.writeSpan 3 (rowSpan d base c r).1 (bytesAt bs (128 * r) (rowSpan d base c r).2)
    obtain ⟨u, eu, hu⟩ := State.Serves.writeRows d base c bs rows (ht.serves _ h)
    unfold State.writeRows
    dsimp only
    rw [et]
    exact ⟨u, eu, ht.trans hu⟩

theorem State.oobDrop_moves (f : Nat) (s : State) : s.Moves (s.oobDrop f) :=
  ⟨rfl, fun _ h => ⟨⟨h.runs.on, h.runs.miss, h.runs.up, h.runs.clear⟩, h.rest, h.resp⟩⟩

section
variable {s : State} {w : Party} (h : s.Serves w.port)
include h

theorem State.Serves.readBlock (d tab : Bytes) (c : List Nat) : ∃ bs t, s.readBlock w d tab c = (.ok bs, t) ∧ s.Moves t := by
  unfold State.readBlock
  split
  · exact ⟨_, s, rfl, .refl s⟩
  · rename_i a _
    obtain ⟨bs, t, et, ht⟩ := State.Serves.readRows d a c (List.range (descRows d)) h
    rw [et]
    exact ⟨_, t, rfl, ht⟩

theorem State.Serves.writeBlock (f self : Nat) (d tab : Bytes) (c : List Nat) (bs : Bytes) :
    ∃ t, s.writeBlock w f self d tab c bs = (none, t) ∧ s.Moves t := by
  unfold State.writeBlock
  split
  · exact ⟨_, rfl, s.oobDrop_moves f⟩
  · split
    · exact State.Serves.writeRows _ _ _ _ _ h
    · exact ⟨s, rfl, .refl s⟩

/-- The bytes of the block that goes to a place: FILL from outside the grid, those at hand, or those read (R420). -/
theorem State.Serves.moveBlock (f self : Nat) (src dst tsrc tdst : Bytes) (from_ to_ : Option (List Nat)) (last : Option (List Nat × Bytes)) :
    ∃ l t, s.moveBlock w f self src dst tsrc tdst from_ to_ last = (none, l, t) ∧ s.Moves t := by
  have write {t : State} (ht : s.Moves t) (c : List Nat) (bs : Bytes) :
      ∃ u, t.writeBlock w f self dst tdst c bs = (none, u) ∧ s.Moves u := by
    obtain ⟨u, eu, hu⟩ := (ht.serves _ h).writeBlock f self dst tdst c bs
    exact ⟨u, eu, ht.trans hu⟩
  unfold State.moveBlock
  cases to_ with
  | none => exact ⟨last, _, rfl, s.oobDrop_moves f⟩
  | some c =>
    cases from_ with
    | none =>
      obtain ⟨u, eu, hu⟩ := write (.refl s) c (fillBytes src 0 (blockBytes src))
      dsimp only
      rw [eu]
      exact ⟨_, u, rfl, hu⟩
    | some a =>
      obtain ⟨bs, t, et, ht⟩ := h.readBlock src tsrc a
      obtain ⟨u, eu, hu⟩ := write ht c bs
      cases last with
      | none =>
        simp only [et]
        rw [eu]
        exact ⟨_, u, rfl, hu⟩
      | some held =>
        obtain ⟨b, kept⟩ := held
        by_cases hab : a = b
        · obtain ⟨v, ev, hv⟩ := write (.refl s) c kept
          simp only [if_pos hab]
          rw [ev]
          exact ⟨_, v, rfl, hv⟩
        · simp only [if_neg hab, et]
          rw [eu]
          exact ⟨_, u, rfl, hu⟩

end

section
variable {w : Party} {f self : Nat} {src dst tsrc tdst : Bytes} {ends : Nat → Option (List Nat) × Option (List Nat)}

theorem State.Serves.moveBlocks : ∀ (n j : Nat) (last : Option (List Nat × Bytes)) {s : State}, s.Serves w.port →
    ∃ k t, s.moveBlocks w f self src dst tsrc tdst ends n j last = (k, none, t) ∧ s.Moves t
  | 0, j, _, s, _ => ⟨j, s, rfl, .refl s⟩
  | n + 1, j, last, s, h => by
    obtain ⟨l, t, et, ht⟩ := h.moveBlock f self src dst tsrc tdst (ends j).1 (ends j).2 last
    obtain ⟨k, u, eu, hu⟩ := State.Serves.moveBlocks n (j + 1) l (ht.serves _ h)
    unfold State.moveBlocks
    rw [et]
    exact ⟨k, u, eu, ht.trans hu⟩

/-- Where no block stops the transfer, all of them are done. -/
theorem State.moveBlocks_done : ∀ (n j : Nat) (last : Option (List Nat × Bytes)) {s t : State} {k : Nat},
    s.moveBlocks w f self src dst tsrc tdst ends n j last = (k, none, t) → k = j + n
  | 0, j, _, s, t, k, h => (Prod.mk.inj h).1.symm
  | n + 1, j, last, s, t, k, h => by
    unfold State.moveBlocks at h
    split at h
    · exact (State.moveBlocks_done n (j + 1) _ h).trans (by omega)
    · cases h

/-- A block whose destination lies outside the grid is dropped (R421). -/
theorem State.moveBlocks_outside {j : Nat} (h : (ends j).2 = none) (last : Option (List Nat × Bytes)) (s : State) :
    s.moveBlocks w f self src dst tsrc tdst ends 1 j last = (j + 1, none, s.oobDrop f) := by
  unfold State.moveBlocks State.moveBlock
  rw [h]
  rfl

end

/-! ## What a transfer checks -/

/-- The owner table of a descriptor, in memory, is valid (R422). -/
def State.OwnersOkay (s : State) (d : Bytes) : Prop :=
  ownersValid s.meet (ownerEntries (memReadBytes s.mem (ownerSpan d).1 (ownerSpan d).2) (descOwners d)) = true

/-- The descriptors, the list and the owner tables that an entry names pass their checks (R415, R416, R418, R422). -/
structure State.MoveChecks (s : State) (e src dst : Bytes) : Prop where
  source : memReadBytes s.mem (leAt e 0x10 8) 128 = src
  destination : memReadBytes s.mem (leAt e 0x18 8) 128 = dst
  aligned : leAt e 0x10 8 % 64 = 0 ∧ leAt e 0x18 8 % 64 = 0
  valid : descValid src = true ∧ descValid dst = true ∧ descSource src = true ∧ descDest dst = true
  same : descElem src = descElem dst ∧ descRows src = descRows dst
  list : 0 < leAt e 0x0C 4 ∧ leAt e 0x0C 4 ≤ 2 ^ 24 ∧ leAt e 0x20 8 % 64 = 0
  owners : ∀ d ∈ [src, dst], (descOwners d ≤ 4096 ∧ (0 < descOwners d → (ownerSpan d).1 % 64 = 0)) ∧ s.OwnersOkay d

/-! ## A transfer -/

/-- Only memory, ports, banks, functions, queues, counters and notes differ, a job's entry completes in one as in the other, and what served
the command serves it. -/
structure State.Transfers (f q : Nat) (j : Job) (s t : State) : Prop where
  only : t = { s with
    mem := t.mem, ports := t.ports, banks := t.banks, funcs := t.funcs, queues := t.queues, running := t.running
    tel := { s.tel with cnt := t.tel.cnt } }
  steps : ∀ g p, (t.stepped f q j).queue g p = (s.stepped f q j).queue g p
  serves : ∀ n, s.Serves n → t.Serves n

section
variable {f q : Nat} {j : Job}

theorem State.Transfers.trans {a b c : State} (h : a.Transfers f q j b) (k : b.Transfers f q j c) : a.Transfers f q j c :=
  ⟨by rw [k.only, h.only], fun g p => (k.steps g p).trans (h.steps g p), fun n => k.serves n ∘ h.serves n⟩

theorem State.Moves.transfers {s t : State} (h : s.Moves t) : s.Transfers f q j t := by
  refine ⟨by rw [h.only], fun g p => ?_, h.serves⟩
  rw [h.only]
  rfl

/-- A change of a job leaves the other queues. -/
theorem State.modJob_queue (g : Job → Job) (s : State) (a b : Nat) :
    (s.modJob f q j g).queue a b = if qKey a b = qKey f q
      then { s.queue f q with jobs := (s.queue f q).jobs.map fun y => if y.slot = j.slot ∧ y.gen = j.gen then g y else y }
      else s.queue a b := by
  unfold State.modJob
  rw [State.modQueue_eq]
  split <;> rename_i e
  · refine Eq.trans ?_ (State.setQueue_queue_same f q _ s)
    unfold State.queue
    rw [e]
  · exact State.setQueue_queue_other f q _ s a b e

/-- The progress of an entry is forgotten when it completes (R189). -/
theorem State.modJob_progress_transfers (p : Option Progress) (s : State) :
    s.Transfers f q j (s.modJob f q j fun j => { j with progress := p }) := by
  refine ⟨rfl, fun a b => ?_, fun _ h => ⟨⟨h.runs.on, h.runs.miss, h.runs.up, h.runs.clear⟩, h.rest, h.resp⟩⟩
  have hown := State.modJob_queue (f := f) (q := q) (j := j) (fun j => { j with progress := p }) s f q
  have hother := State.modJob_queue (f := f) (q := q) (j := j) (fun j => { j with progress := p }) s a b
  rw [if_pos rfl] at hown
  generalize s.modJob f q j (fun j => { j with progress := p }) = t at hown hother ⊢
  unfold State.stepped
  rw [State.modJob_queue, State.modJob_queue]
  by_cases e : qKey a b = qKey f q
  · rw [if_pos e, if_pos e, hown, List.map_map]
    refine congrArg (fun l => { s.queue f q with jobs := l }) (List.map_congr_left fun y _ => ?_)
    by_cases hy : y.slot = j.slot ∧ y.gen = j.gen
    · simp only [Function.comp, if_pos hy]
      rfl
    · simp only [Function.comp, if_neg hy]
  · rw [if_neg e, if_neg e, hother, if_neg e]

theorem State.Transfers.forget {p : Option Progress} {s t : State} (h : s.Transfers f q { j with progress := p } t) : s.Transfers f q j t :=
  ⟨h.only, h.steps, h.serves⟩

theorem State.streamWorks_transfers (gidx : Nat) (s : State) : s.Transfers f q j (s.streamWorks gidx) :=
  ⟨rfl, fun _ _ => rfl, fun _ h => ⟨⟨h.runs.on, h.runs.miss, h.runs.up, h.runs.clear⟩, h.rest, h.resp⟩⟩

theorem State.Transfers.stream {s t : State} (h : s.Transfers f q j t) (g i : Nat) : t.stream g i = s.stream g i := by
  rw [h.only]
  rfl

theorem State.Transfers.meet {s t : State} (h : s.Transfers f q j t) : t.meet = s.meet := by
  rw [h.only]
  rfl

/-- The port of a stream stays (R119). -/
theorem State.Transfers.party_port {s t : State} (h : s.Transfers f q j t) (x : Stream) (b c : Nat) :
    (t.party f x b).port = (s.party f x c).port := by
  rw [h.only]
  rfl

/-- The port that serves a stream at the start of a transfer serves it later on. -/
theorem State.Transfers.servesStream {s t : State} {x : Stream} (h : s.Transfers f q j t) (hs : s.Serves (s.party f x x.delivered).port) :
    t.Serves (t.party f x x.delivered).port := by
  rw [h.party_port x x.delivered x.delivered]
  exact h.serves _ hs

variable {gather : Bool} {i : Nat} {e : Bytes} {p : Progress} {s : State}
  (h : s.Serves (s.party f (s.stream f i) (s.stream f i).delivered).port)
include h

/-- Every block goes through, and the entry is complete (R418). -/
theorem State.Serves.moveOn : ∃ t, s.moveOn gather f q i j e p = t.stepped f q j ∧ s.Transfers f q j t := by
  have hworks : s.Transfers f q j (s.streamWorks (s.stream f i).gidx) := State.streamWorks_transfers ..
  unfold State.moveOn
  dsimp only
  obtain ⟨k, t, et, ht⟩ := State.Serves.moveBlocks (f := f) (self := (s.stream f i).self) (src := p.held.getD 0 []) (dst := p.held.getD 1 [])
    (tsrc := p.held.getD 3 []) (tdst := p.held.getD 4 [])
    (ends := fun k => if gather then (listCoords (p.held.getD 0 []) (p.held.getD 2 []) k, linearCoords (p.held.getD 1 []) (leAt e 0x28 8 + k))
      else (linearCoords (p.held.getD 0 []) (leAt e 0x28 8 + k), listCoords (p.held.getD 1 []) (p.held.getD 2 []) k))
    (leAt e 0x0C 4 - p.done) p.done none (hworks.servesStream h)
  rw [et]
  exact ⟨t, State.entryDone_ok .., hworks.trans ht.transfers⟩

/-- With valid owner tables the transfer goes through (R422). -/
theorem State.Serves.moveTables (hsrc : s.OwnersOkay (p.held.getD 0 [])) (hdst : s.OwnersOkay (p.held.getD 1 [])) :
    ∃ t, s.moveTables gather f q i j e p = t.stepped f q j ∧ s.Transfers f q j t := by
  have hjob : s.Transfers f q j (s.modJob f q j fun j => { j with progress := some p }) := State.modJob_progress_transfers ..
  unfold State.moveTables
  dsimp only
  obtain ⟨a, ea, ha, hamem⟩ := (hjob.servesStream h).readSpan_whole (ownerSpan (p.held.getD 0 [])).1 (ownerSpan (p.held.getD 0 [])).2
  have hread := hjob.trans ha.transfers
  rw [ea]
  dsimp only
  obtain ⟨b, eb, hb, -⟩ := (hread.servesStream h).readSpan_whole (ownerSpan (p.held.getD 1 [])).1 (ownerSpan (p.held.getD 1 [])).2
  have hboth := hread.trans hb.transfers
  rw [eb]
  dsimp only
  rw [hamem, hboth.meet]
  unfold State.OwnersOkay at hsrc hdst
  rw [if_neg (by simpa using ⟨hsrc, hdst⟩)]
  have hheld := hboth.trans (State.modJob_progress_transfers (some { p with held := p.held ++
    [memReadBytes s.mem (ownerSpan (p.held.getD 0 [])).1 (ownerSpan (p.held.getD 0 [])).2,
      memReadBytes s.mem (ownerSpan (p.held.getD 1 [])).1 (ownerSpan (p.held.getD 1 [])).2] }) b)
  obtain ⟨t, et, ht⟩ := State.Serves.moveOn (i := i) (gather := gather) (e := e) (hheld.stream f i ▸ hheld.servesStream h)
  exact ⟨t, et, hheld.trans ht.forget⟩

/-- A transfer whose checks hold goes through from its beginning (R418, R419, R422). -/
theorem State.Serves.moveStart {src dst : Bytes} (hc : s.MoveChecks e src dst) :
    ∃ t, s.moveStart gather f q i j e = t.stepped f q j ∧ s.Transfers f q j t := by
  obtain ⟨hsa, hda⟩ := hc.aligned
  obtain ⟨hsv, hdv, hss, hdd⟩ := hc.valid
  obtain ⟨helem, hrows⟩ := hc.same
  obtain ⟨hcount, hmax, hlist⟩ := hc.list
  obtain ⟨⟨hsn, hsg⟩, hso⟩ := hc.owners src (by simp)
  obtain ⟨⟨hdn, hdg⟩, hdo⟩ := hc.owners dst (by simp)
  obtain ⟨a, ea, ha, hamem⟩ := State.Serves.readAll [(leAt e 0x10 8, 128), (leAt e 0x18 8, 128)] h
  obtain ⟨b, eb, hb, hbmem⟩ := State.Serves.readAll [(leAt e 0x20 8, 4 * descDims (if gather then src else dst) * leAt e 0x0C 4)] (ha.serves _ h)
  have hread : s.Transfers f q j b := (ha.trans hb).transfers
  have howners (d : Bytes) (hd : s.OwnersOkay d) : b.OwnersOkay d := by
    unfold State.OwnersOkay at hd ⊢
    rwa [hread.meet, hbmem, hamem]
  unfold State.moveStart
  dsimp only
  rw [ea]
  dsimp only [List.map]
  rw [hc.source, hc.destination]
  simp only [List.getD_cons_zero, List.getD_cons_succ]
  rw [if_neg (by simp [*]), if_neg (by omega), if_neg (by omega), eb]
  obtain ⟨t, et, ht⟩ := State.Serves.moveTables (gather := gather) (e := e) (i := i) (j := j) (q := q)
    (p := ⟨0, [], [src, dst] ++ [memReadBytes a.mem (leAt e 0x20 8) (4 * descDims (if gather then src else dst) * leAt e 0x0C 4)],
      none, .fresh 0⟩)
    (hread.stream f i ▸ hread.servesStream h) (howners src hso) (howners dst hdo)
  exact ⟨t, et, hread.trans ht⟩

end

/-! ## The entries -/

section
variable {gather : Bool} {f q : Nat} {j : Job} {e : Bytes} {s : State}

/-- The stream that a GATHER or SCATTER names takes part in one (R248, R418). -/
structure State.MoveStream (s : State) (f : Nat) (e : Bytes) : Prop where
  index : leAt e 0x08 2 ≤ 1023
  opened : (s.stream f (leAt e 0x08 2)).st ≠ .free
  going : (s.stream f (leAt e 0x08 2)).st ≠ .halted
  packs : (s.packBody (s.stream f (leAt e 0x08 2)).graph).isSome = true

theorem State.moveEntry_begins (h : s.MoveStream f e) (hp : j.progress = none) :
    s.moveEntry gather f q j e = s.moveStart gather f q (leAt e 0x08 2) j e := by
  obtain ⟨hi, hopen, hgo, hpack⟩ := h
  unfold State.moveEntry
  dsimp only
  rw [if_neg (by simp [hopen, Option.isSome_iff_ne_none.mp hpack, hi]), if_neg hgo, hp]

theorem State.moveEntry_goesOn (h : s.MoveStream f e) {p : Progress} (hp : j.progress = some p) (hheld : p.held.length ≠ 3) :
    s.moveEntry gather f q j e = s.moveOn gather f q (leAt e 0x08 2) j e p := by
  obtain ⟨hi, hopen, hgo, hpack⟩ := h
  unfold State.moveEntry
  dsimp only
  rw [if_neg (by simp [hopen, Option.isSome_iff_ne_none.mp hpack, hi]), if_neg hgo, hp]
  exact if_neg hheld

/-- A transfer whose blocks from its progress on all go through is complete (R418). -/
theorem State.moveOn_done {i k : Nat} {p : Progress} {w : State}
    (h : (s.streamWorks (s.stream f i).gidx).moveBlocks (s.party f (s.stream f i) (s.stream f i).delivered) f (s.stream f i).self (p.held.getD 0 [])
      (p.held.getD 1 []) (p.held.getD 3 []) (p.held.getD 4 [])
      (fun k => if gather then (listCoords (p.held.getD 0 []) (p.held.getD 2 []) k, linearCoords (p.held.getD 1 []) (leAt e 0x28 8 + k))
        else (linearCoords (p.held.getD 0 []) (leAt e 0x28 8 + k), listCoords (p.held.getD 1 []) (p.held.getD 2 []) k))
      (leAt e 0x0C 4 - p.done) p.done none = (k, none, w)) :
    s.moveOn gather f q i j e p = w.stepped f q j := by
  unfold State.moveOn
  dsimp only
  rw [show (s.streamWorks (s.stream f i).gidx).party f (s.stream f i) (s.stream f i).delivered =
    s.party f (s.stream f i) (s.stream f i).delivered from rfl, h]
  exact State.entryDone_ok ..

/-- A dropped block leaves nothing in the notes of the command. -/
theorem State.dropped_running (f q gidx : Nat) (j : Job) (u : State) :
    { ((u.start.streamWorks gidx).oobDrop f).stepped f q j with running := u.running } = ((u.streamWorks gidx).oobDrop f).stepped f q j := by
  unfold State.stepped State.modJob State.oobDrop State.streamWorks State.useBanks State.start
  rfl

/-- The command of a block transfer runs its entry (R188). -/
theorem exec_moveEntry {fn : BitVec 6} {q : BitVec 9} {slot : BitVec 16} {v : MemView}
    (h : s.Acts (if gather then 0x06 else 0x07) fn q slot v j e) :
    (s.seeMem v).After (State.moveEntry gather fn.toNat q.toNat j e)
      (exec (if gather then .gather fn q slot v else .scatter fn q slot v) s) := by
  cases gather <;> exact State.runEntry_acts h.2 h.1

end

section
variable {f q bay : Nat} {j : Job} {e body : Bytes} {s a : State}

/-- The stream that a return entry names returns, and its bay runs (R441, R458). -/
structure State.ReturnStream (s : State) (f bay : Nat) (e : Bytes) : Prop where
  index : leAt e 0x08 2 ≤ 1023
  opened : (s.stream f (leAt e 0x08 2)).st ≠ .free
  going : (s.stream f (leAt e 0x08 2)).st ≠ .halted
  returns : (s.graphOf (s.stream f (leAt e 0x08 2))).direction = 1
  due : s.stageWaits f (s.stream f (leAt e 0x08 2)) = false
  bayRuns : s.bayRuns bay = true

/-- A RETURN_LOGITS whose rows are all done is complete (R441 to R443, R451). -/
theorem State.returnLogits_done (h : s.ReturnStream f bay e) (htext : s.returnText (s.stream f (leAt e 0x08 2)).graph = some (bay, body))
    (hbad : logitsBad body e = false) {reqs : Bytes}
    (hread : s.readSpan (s.party f (s.stream f (leAt e 0x08 2)) (s.stream f (leAt e 0x08 2)).delivered) (spanFuel (4 * leAt e 0x0C 4)) (leAt e 0x28 8)
      (4 * leAt e 0x0C 4) = (.ok reqs, a))
    (hids : ((List.range (leAt e 0x0C 4)).map fun k => leAt reqs (4 * k) 4).eraseDups.length = leAt e 0x0C 4) {tables : Bytes × Option GramRef}
    {b w : State} {k : Nat}
    (htables : a.returnTables ⟨f, leAt e 0x08 2, bay, (s.stream f (leAt e 0x08 2)).delivered⟩ body (leAt e 0x0B 1) = (some tables, b))
    (hrows : b.returnRows ⟨⟨f, leAt e 0x08 2, bay, (s.stream f (leAt e 0x08 2)).delivered⟩,
      s.party f (s.stream f (leAt e 0x08 2)) (s.stream f (leAt e 0x08 2)).delivered, tables.1, tables.2, leAt body 0x80 1, e, reqs⟩
      (leAt e 0x0C 4 - (j.progress.getD ⟨0, [], [], none, .fresh 0⟩).done) (j.progress.getD ⟨0, [], [], none, .fresh 0⟩).done
      (j.progress.getD ⟨0, [], [], none, .fresh 0⟩).bad = (k, none, none, w)) :
    s.returnLogits f q j e = w.stepped f q j := by
  obtain ⟨hi, hopen, hgo, hdir, hdue, hbay⟩ := h
  unfold State.returnLogits
  dsimp only
  rw [htext]
  dsimp only
  rw [if_neg (by simp [hi, hopen, hdir]), if_neg (by simp [hbad]), if_neg (by simp [hgo, hdue, hbay]), hread]
  dsimp only
  rw [if_neg (by simp [hids]), htables]
  dsimp only
  rw [hrows]
  exact State.entryDone_ok ..

/-- A RETURN_WRITE whose shard runs to its end is complete, with SAMPLE_OVER_BOUND where an item did not fit; what it held is released (R461 to
R464). -/
theorem State.writeOn_done {c d g : State} {w : WriteJob} {p p' : Progress}
    (hhold : (if w.encodes then c.holdBuffers w.fn w.stream (encPool w.enc) (encHold p.shard.base) (c.encBuffers w.fn w.enc)
      else (true, c)) = (true, d))
    (hrun : d.shardRun w p = (none, p', g)) :
    c.writeOn q j w p = if p'.shard.past = none then (g.releaseShard w p'.shard.base).stepped w.fn q j
      else (g.releaseShard w p'.shard.base).entryDone w.fn q j w.bs stOverBound (p'.shard.past.getD 0) := by
  unfold State.writeOn
  dsimp only
  rw [hhold]
  dsimp only
  rw [hrun]
  dsimp only
  cases p'.shard.past with
  | none => exact State.entryDone_ok ..
  | some n => rfl

/-- The key of a RETURN_WRITE that seals is the one it began with (R459). -/
theorem State.writeAgain_key {b c : State} {w : WriteJob} {p : Progress} {key : Option Bytes} (hkey : w.key = none)
    (hplain : (leAt w.bs 0x0A 1).testBit 0 = false → key = none ∧ c = b)
    (hseals : (leAt w.bs 0x0A 1).testBit 0 = true →
      ∃ r, key = some r ∧ b.boundKey w.fn (leAt w.bs 0x28 2) (leNat (p.held.getD 0 [])) = (.ok r, c)) :
    b.writeAgain q j w p = c.writeOn q j { w with salt := p.salt, key := key } p := by
  unfold State.writeAgain bitOf
  dsimp only
  cases hbit : (leAt w.bs 0x0A 1).testBit 0 with
  | false =>
    obtain ⟨rfl, rfl⟩ := hplain hbit
    rw [← hkey]
    rfl
  | true =>
    obtain ⟨r, rfl, hbound⟩ := hseals hbit
    rw [hbound]
    rfl

theorem State.readPage_accesses (w : Party) (addr len : Nat) (s : State) : s.Accesses (s.readPage w addr len).2.2 := by
  unfold State.readPage
  split
  · exact .refl s
  · exact State.access_accesses ..

theorem State.readSpan_accesses (w : Party) (fuel : Nat) : ∀ (a n : Nat) (s : State), s.Accesses (s.readSpan w fuel a n).2 := by
  induction fuel with
  | zero => exact fun _ _ s => .refl s
  | succ fuel ih =>
    intro a n s
    unfold State.readSpan
    split
    · exact .refl s
    · have hp := s.readPage_accesses w a (min n (4096 - a % 4096))
      dsimp only
      split <;> rename_i e <;> rw [e] at hp
      · rename_i u
        have hs := ih (a + min n (4096 - a % 4096)) (n - min n (4096 - a % 4096)) u
        split <;> rename_i e' <;> rw [e'] at hs <;> exact hp.trans hs
      · exact hp

/-- What a RETURN_WRITE of a list `raw` of items works on, without its key and salt; `enc` is the encoder's bay and profile (R458, R459). -/
def State.shardJob (s : State) (f bay : Nat) (body e raw : Bytes) (enc : Nat × Bytes) : WriteJob :=
  let x := s.stream f (leAt e 0x08 2)
  ⟨s.party f x x.delivered, f, leAt e 0x08 2, x.seed, x.epoch, e, none, bay, body, enc.1, enc.2,
    (List.range (leAt e 0x0C 4)).map fun k => itemOf (bytesAt raw (16 * k) 16), []⟩

/-- A RETURN_WRITE under way goes on from its progress; one that does not seal begins where its checks hold, its items the stream's next logical
samples (R458, R459; log 125). -/
theorem State.returnWrite_runs {b : State} {raw : Bytes} {enc : Nat × Bytes} {p : Progress} (h : s.ReturnStream f bay e)
    (hpack : (s.packBody (s.stream f (leAt e 0x08 2)).graph).isSome = true)
    (hintake : s.intakeBay? (s.stream f (leAt e 0x08 2)).graph = some (bay, body))
    (henc : (s.profileOf (s.stream f (leAt e 0x08 2)).graph 0x0302).getD (0, []) = enc) (hbad : writeBad e = false)
    (hbusy : (leAt e 0x0A 1).testBit 0 = true → s.sec.selftestBusy = false)
    (hread : s.readSpan (s.party f (s.stream f (leAt e 0x08 2)) (s.stream f (leAt e 0x08 2)).delivered) (spanFuel (16 * leAt e 0x0C 4))
      (leAt e 0x10 8) (16 * leAt e 0x0C 4) = (.ok raw, a))
    (hcoder : (s.shardJob f bay body e raw enc).encodes = true →
      a.bindsEngine (s.stream f (leAt e 0x08 2)).graph 0x0302 = true ∧ a.bayRuns enc.1 = true)
    (hprogress : (j.progress = some p ∧ b = a) ∨
      (j.progress = none ∧ (leAt e 0x0A 1).testBit 0 = false ∧ inRequireEnc body = false ∧
        (s.shardJob f bay body e raw enc).items.any OutItem.bad = false ∧
        b = a.modStream f (leAt e 0x08 2) (fun y => { y with items := y.items + leAt e 0x0C 4 }) ∧
        p = ⟨0, zeros 8, [natLe 8 0], none, .fresh (a.stream f (leAt e 0x08 2)).items⟩)) :
    s.returnWrite f q j e = b.writeAgain q j (s.shardJob f bay body e raw enc) p := by
  obtain ⟨hi, hopen, hgo, hdir, hdue, hbay⟩ := h
  obtain ⟨pack, hpack⟩ := Option.isSome_iff_exists.mp hpack
  have hacc := s.readSpan_accesses (s.party f (s.stream f (leAt e 0x08 2)) (s.stream f (leAt e 0x08 2)).delivered) (spanFuel (16 * leAt e 0x0C 4))
    (leAt e 0x10 8) (16 * leAt e 0x0C 4)
  rw [hread] at hacc
  have hparty (x : Stream) (k : Nat) : a.party f x k = s.party f x k := by
    rw [show a = _ from hacc]
    rfl
  unfold State.returnWrite
  dsimp only
  rw [hpack, hintake]
  dsimp only
  rw [henc, if_neg (by simp [hi, hopen, hdir]), if_neg (by simp [hbad]), if_neg (by simpa [hgo, hdue, hbay, bitOf] using hbusy), hread]
  dsimp only
  rw [hparty, show WriteJob.mk _ _ _ _ _ _ _ _ _ _ _ _ _ = s.shardJob f bay body e raw enc from rfl]
  rw [if_neg (by simpa using fun h1 h2 => (hcoder h1).2)]
  rcases hprogress with ⟨hp, rfl⟩ | ⟨hp, hplain, hopenly, hitems, rfl, rfl⟩
  · rw [hp]
  · rw [hp]
    have hlen : (s.shardJob f bay body e raw enc).items.length = leAt e 0x0C 4 := by
      unfold State.shardJob
      rw [List.length_map, List.length_range]
    dsimp only
    rw [if_neg (by simpa using fun h1 => (hcoder h1).1), if_neg (by exact ne_true_of_eq_false hitems), hopenly,
      if_neg (by simp), if_pos (by simp [bitOf, hplain])]
    unfold State.writeBegin
    rw [hlen]
    rfl

end

/-! ## The statement -/

/-- Settles O46, a command at a time: State.Serves.moveStart for a transfer that begins, moveBlocks_done for one under way, returnLogits_done and
returnWrite_runs for the return direction. -/
theorem transfersAndReturnsFinish : Obligations.TransfersAndReturnsFinish := by
  refine ⟨?_, ?_⟩
  · intro gather fn q slot v s j e u f i x by_ start count c hacts hi hopen hgo hpack
    have hafter : u.After (State.moveEntry gather f q.toNat j e) (exec c s) := exec_moveEntry hacts
    have hstream : u.start.MoveStream f e := ⟨hi, hopen, hgo, hpack⟩
    refine ⟨?_, ?_⟩
    · intro src dst owners hp hrest hresp hup hsa hda hsv hdv hss hdd helem hrows hcount hmax hlist howners
      obtain ⟨-, -, -, hclear, -⟩ := hrest.port by_.port
      have hserves : u.start.Serves (u.start.party f (u.start.stream f i) (u.start.stream f i).delivered).port :=
        ⟨⟨rfl, rfl, hup, hclear⟩, hrest, hresp⟩
      have hchecks : u.start.MoveChecks e src dst := ⟨rfl, rfl, ⟨hsa, hda⟩, ⟨hsv, hdv, hss, hdd⟩, ⟨helem, hrows⟩, ⟨hcount, hmax, hlist⟩,
        fun d hd => and_assoc.mpr (howners d hd)⟩
      obtain ⟨t, et, ht⟩ := hserves.moveStart (gather := gather) (q := q.toNat) (j := j) hchecks
      have hmiss : t.running.miss = none := (ht.serves _ hserves).runs.miss
      refine ⟨_, hafter.done ((State.moveEntry_begins hstream hp).trans et) hmiss, fun g p => ht.steps g p, ?_⟩
      have honly := ht.only
      unfold State.stepped State.modJob State.modQueue State.setQueue
      rw [honly]
      rfl
    · intro p hp hheld src dst list ends
      have hon : ∀ k w, (u.start.streamWorks x.gidx).moveBlocks by_ f x.self src dst (p.held.getD 3 []) (p.held.getD 4 []) ends
          (count - p.done) p.done none = (k, none, w) → w.running.miss = none →
          exec c s = .next { w.stepped f q.toNat j with running := s.running } ∧ k = p.done + (count - p.done) := by
        intro k w hmoved hmiss
        refine ⟨hafter.done ((State.moveEntry_goesOn hstream hp hheld).trans ?_) hmiss, State.moveBlocks_done _ _ _ hmoved⟩
        exact State.moveOn_done hmoved
      refine ⟨hon, fun hone hout => ?_⟩
      have hcount : count - p.done = 1 := by omega
      have hdrop := State.moveBlocks_outside (w := by_) (f := f) (self := x.self) (src := src) (dst := dst) (tsrc := p.held.getD 3 [])
        (tdst := p.held.getD 4 []) hout none (u.start.streamWorks x.gidx)
      exact (hon _ _ (hcount ▸ hdrop) rfl).1.trans (congrArg _ (u.dropped_running f q.toNat x.gidx j))
  · intro fn q slot v s j e bay body u f i x n by_ hi hopen hgo hdir hdue hbay
    have hstream : u.start.ReturnStream f bay e := ⟨hi, hopen, hgo, hdir, hdue, hbay⟩
    refine ⟨?_, ?_⟩
    · intro reqs tables a b w k hacts p htext hbad hread hids htables hrows hmiss
      have hafter : u.After (State.returnLogits f q.toNat j e) (exec (.returnLogits fn q slot v) s) := State.runEntry_acts hacts.2 hacts.1
      exact hafter.done (State.returnLogits_done hstream htext hbad hread hids htables hrows) hmiss
    · intro raw key p p' a b c d g hacts items
      obtain ⟨enc, henc⟩ : ∃ enc, (u.profileOf x.graph 0x0302).getD (0, []) = enc := ⟨_, rfl⟩
      rw [henc]
      intro hpack hintake hbad hbusy hread hcoder hprogress hplain hseals hhold hrun y t hmiss
      have hafter : u.After (State.returnWrite f q.toNat j e) (exec (.returnWrite fn q slot v) s) := State.runEntry_acts hacts.2 hacts.1
      have hagain := State.returnWrite_runs (q := q.toNat) hstream hpack hintake henc hbad hbusy hread hcoder hprogress
      have hkey := State.writeAgain_key (q := q.toNat) (j := j) (w := u.start.shardJob f bay body e raw enc) rfl hplain hseals
      exact hafter.done (hagain.trans (hkey.trans (State.writeOn_done hhold hrun))) hmiss

end Sys2Proof.Machine
end

section
/-! What a table reads after entries are kept by key, joined, or set as a run; the words of a bank after its clear and with its pinned
tables (R104, R264). -/

namespace Sys2Proof.Machine

/-! ## Tables -/

/-- Of two tables that are joined, the first that has the key gives its entry. -/
theorem tblGet?_append {α : Type} (t u : Tbl α) (n : Nat) : tblGet? (t ++ u : Tbl α) n = (tblGet? t n).or (tblGet? u n) := by
  induction t with
  | nil => rfl
  | cons p t ih =>
    obtain ⟨k, v⟩ := p
    rw [List.cons_append, tblGet?, tblGet?, ih]
    split <;> rfl

/-- Entries are kept by their keys. -/
theorem tblGet?_filter {α : Type} (keep : Nat → Bool) (t : Tbl α) (n : Nat) :
    tblGet? (t.filter (fun p => keep p.1)) n = if keep n then tblGet? t n else none := by
  induction t with
  | nil => exact (ite_self _).symm
  | cons p t ih =>
    obtain ⟨k, v⟩ := p
    rw [List.filter_cons, tblGet?]
    dsimp only
    by_cases e : k = n
    · subst e
      cases hk : keep k <;> simp [tblGet?, ih, hk]
    · cases keep k <;> simp [tblGet?, ih, e]

/-- A run of keys has its values in order. -/
theorem tblGet?_run {α : Type} (vs : List α) (n : Nat) : ∀ k, tblGet? ((vs.zipIdx k).map (fun p => (p.2, p.1))) n =
    if k ≤ n then vs[n - k]? else none := by
  induction vs with
  | nil => exact fun k => by simp [tblGet?]
  | cons v vs ih =>
    intro k
    rw [List.zipIdx_cons, List.map_cons, tblGet?, ih]
    rcases Nat.lt_trichotomy n k with h | rfl | h
    · rw [if_neg (by omega), if_neg (by omega), if_neg (by omega)]
    · simp
    · rw [if_neg (by omega), if_pos (by omega), if_pos (by omega), show n - k = n - (k + 1) + 1 by omega, List.getElem?_cons_succ]

theorem tblGet?_tblSetRun_mem {α : Type} (t : Tbl α) {k i : Nat} {vs : List α} (h : i < vs.length) :
    tblGet? (tblSetRun t k vs) (k + i) = some vs[i] := by
  unfold tblSetRun
  rw [tblGet?_append, tblGet?_append, tblGet?_filter (fun n => decide (n < k)), tblGet?_run]
  simp [h]

theorem tblGet?_tblSetRun_other {α : Type} (t : Tbl α) {k n : Nat} {vs : List α} (h : n < k ∨ k + vs.length ≤ n) :
    tblGet? (tblSetRun t k vs) n = tblGet? t n := by
  unfold tblSetRun
  rw [tblGet?_append, tblGet?_append, tblGet?_filter (fun n => decide (n < k)), tblGet?_run,
    tblGet?_filter (fun n => decide (k + vs.length ≤ n))]
  rcases h with h | h
  · rw [if_pos (decide_eq_true h), if_neg (by omega), if_neg (by simp; omega)]
    simp
  · rw [if_neg (by simp; omega), if_pos (by omega), List.getElem?_eq_none (by omega), if_pos (decide_eq_true h)]
    rfl

/-! ## The words of a bank -/

/-- Word `w` of bank `b` as its pinned tables have it (R104; log 26). -/
def State.pinnedOf (s : State) (b w : Nat) : List Codeword :=
  wordOf (bytesAt (s.slotPins (b / 48) (s.planOf b).2) (64 * ((s.pinSpan b).1 + w)) 64)

theorem State.pinSpan_le (s : State) (b : Nat) : (s.pinSpan b).2 ≤ 4096 := by
  unfold State.pinSpan
  dsimp only
  split
  · exact Nat.zero_le _
  · exact Nat.min_le_left ..

/-- The pinned words come into their bank one after the other, the other words stay (R104). -/
theorem State.fillPinned_bankWords (b : Nat) (s : State) : (s.fillPinned b).bankWords =
    if (s.pinSpan b).2 = 0 then s.bankWords else tblSetRun s.bankWords (wordKey b 0) ((List.range (s.pinSpan b).2).map (s.pinnedOf b)) := by
  unfold State.fillPinned
  dsimp only
  split <;> rfl

theorem State.fillPinned_word {s : State} {b w : Nat} (h : w < (s.pinSpan b).2) :
    tblGet? (s.fillPinned b).bankWords (wordKey b w) = some (s.pinnedOf b w) := by
  rw [State.fillPinned_bankWords, if_neg (by omega), show wordKey b w = wordKey b 0 + w by unfold wordKey; omega,
    tblGet?_tblSetRun_mem _ (by simpa using h)]
  simp

theorem State.fillPinned_other {s : State} {b k : Nat} (h : k < wordKey b 0 ∨ wordKey b 0 + (s.pinSpan b).2 ≤ k) :
    tblGet? (s.fillPinned b).bankWords k = tblGet? s.bankWords k := by
  rw [State.fillPinned_bankWords]
  split
  · rfl
  · exact tblGet?_tblSetRun_other _ (by simpa using h)

theorem State.fillPinned_bank (b : Nat) (s : State) : (s.fillPinned b).bank b = { s.bank b with loaded := true } := by
  rw [State.fillPinned_eq]
  exact State.setBank_bank_same ..

theorem State.fillPinned_bank_other {b m : Nat} (s : State) (h : m ≠ b) : (s.fillPinned b).bank m = s.bank m := by
  rw [State.fillPinned_eq]
  exact State.setBank_bank_other _ _ _ _ h

theorem State.fillPinned_onBanks (b : Nat) (s : State) : s.OnBanks (s.fillPinned b) := by
  rw [State.OnBanks, State.fillPinned_eq]
  rfl

/-- A cleared bank has no word that is not zeros (R264). -/
theorem State.zeroBank_word (b k : Nat) (s : State) :
    tblGet? (s.zeroBank b).bankWords k = if k / 4096 = b then none else tblGet? s.bankWords k := by
  have h := tblGet?_filter (fun n => n / 4096 != b) s.bankWords k
  refine Eq.trans h ?_
  by_cases e : k / 4096 = b <;> simp [e]

/-- A word of which a zeroed bank knows nothing is zeros. -/
theorem State.word_zeroed {s : State} {b w : Nat} (hz : (s.bank b).zeroed = true) (h : tblGet? s.bankWords (wordKey b w) = none) :
    (s.word b w).1 = zeroWord := by
  unfold State.word
  rw [h]
  dsimp only
  rw [if_pos hz]

/-! ## Who may be asked for (R262, R265) -/

/-- A new owner is legal (R262, R265). -/
def State.LegalOwner (s : State) (b kind index : Nat) : Prop :=
  s.frame.st = .running ∧ (((kind = 0 ∨ kind = 4) ∧ index = 0) ∨
    (kind = 1 ∧ ∃ c, s.image.committed = some c ∧ ∃ e ∈ c.binds, e.bay = b / 48 ∧ e.slot = index) ∨
    (kind = 2 ∧ ∃ f i y, s.byGidx index = some (f, i, y) ∧ hasBit (s.graphOf y).bays (b / 48) = true))

theorem State.ownerRefused_iff {s : State} {b kind index : Nat} (hf : s.fenced (b / 48) = false) :
    s.ownerRefused b kind index = false ↔ s.LegalOwner b kind index := by
  unfold State.ownerRefused State.LegalOwner
  dsimp only
  rw [hf]
  match kind with
  | 0 | 3 | 4 => simp
  | 1 => cases s.image.committed <;> simp
  | 2 => rcases s.byGidx index with _ | ⟨f, i, y⟩ <;> simp
  | k + 5 => simp

/-! ## BANK_OWNER_WRITE -/

section
variable {s : State} {acc : Acc} {b : BitVec 12} {value : Word}

theorem fld_eq (v lo w : Nat) : fld v lo w = v / 2 ^ lo % 2 ^ w := by
  rw [fld, Nat.shiftRight_eq_div_pow]

/-- A write of BANK_OWNER of a bay that is not fenced (R262, R265). -/
theorem exec_bankOwnerWrite (h : s.FrameAccess acc) (hb : b.toNat < 3072) (hf : s.fenced (b.toNat / 48) = false) :
    exec (.bankOwnerWrite acc b value) s = .next (s.bankOwnerWrite b.toNat value.toNat).accepted := by
  have hoff : 0x1000 + 4 * b.toNat < 0x4000 := by omega
  have howner : s.fencedOwner .frame (0x1000 + 4 * b.toNat) = none := by
    simp [State.fencedOwner, arrayIx_entry hb, hf]
  have hclear : s.clearW1c .frame (0x1000 + 4 * b.toNat) value.toNat = s := by
    unfold State.clearW1c State.frameClear
    dsimp only
    (repeat rw [if_neg (by omega)])
    rw [arrayIx_of_lt hoff]
  have hwrite : s.frameWrite .frame (0x1000 + 4 * b.toNat) value.toNat = s.bankOwnerWrite b.toNat value.toNat := by
    unfold State.frameWrite
    (repeat rw [if_neg (by omega)])
    rw [arrayIx_entry hb (by omega)]
  have hhost := State.hostWrite_frame h (0x1000 + 4 * b.toNat) value.toNat viewSame viewSame (by omega) howner
  rw [hclear, hwrite] at hhost
  refine congrArg Host.Outcome.next ((if_pos hb).trans (Eq.trans ?_ hhost))
  rw [← Nat.add_assoc]

/-- A write of BANK_OWNER of a fenced bay is refused and answered with an error (R265, R560). -/
theorem exec_bankOwnerWrite_fenced (h : s.FrameAccess acc) (hb : b.toNat < 3072) (hp : s.bankPresent b.toNat = true)
    (hf : s.fenced (b.toNat / 48) = true) :
    exec (.bankOwnerWrite acc b value) s = .next ((s.setBank b.toNat { s.bank b.toNat with refused := true }).answer 0 true) := by
  obtain ⟨ho, hst⟩ := h
  have howner : s.fencedOwner .frame (0x1000 + 4 * b.toNat) = some b.toNat := by
    simp [State.fencedOwner, arrayIx_entry hb, hp, hf]
  have hpage := s.caps.pageOf_frame (0x1000 + 4 * b.toNat) (by omega)
  rw [← Nat.add_assoc] at hpage
  refine congrArg Host.Outcome.next ((if_pos hb).trans ?_)
  unfold State.hostWrite
  rw [hpage]
  simp [Page.allows, ho, howner, hst, State.modBank_eq]

theorem State.bankOwnerWrite_refused {n v : Nat} (hp : s.bankPresent n = true) (h : s.ownerRefused n (fld v 0 3) (fld v 4 10) = true) :
    s.bankOwnerWrite n v = s.setBank n { s.bank n with refused := true } := by
  unfold State.bankOwnerWrite
  simp [hp, h, State.modBank_eq]

theorem State.bankOwnerWrite_legal {n v : Nat} (hp : s.bankPresent n = true) (h : s.ownerRefused n (fld v 0 3) (fld v 4 10) = false) :
    s.bankOwnerWrite n v = s.setBank n { s.bank n with
      pending := if (s.bank n).kind = fld v 0 3 ∧ (s.bank n).index = fld v 4 10 then none
        else some ⟨fld v 0 3, fld v 4 10, bitOf v 3, false⟩ } := by
  unfold State.bankOwnerWrite
  simp only [hp, h, Bool.not_true, Bool.false_eq_true, if_false]
  split <;> rfl

end

/-! ## BANK_HANDOVER -/

/-- The function of the stream that gets a bank (R264). -/
def State.heirFn (s : State) (index : Nat) : Nat := match s.byGidx index with
  | some (f, _, _) => f
  | none => 64

theorem State.heirFn_of_byGidx {s : State} {index f i : Nat} {z : Stream} (h : s.byGidx index = some (f, i, z)) : s.heirFn index = f := by
  unfold State.heirFn
  rw [h]

/-- A bank is cleared as it goes to its new owner: where that is asked for, and where it leaves a stream for anything but a stream of the
same function (R264). -/
def State.clearsFor (s : State) (x : Bank) (r : BankReq) : Bool :=
  r.clear || (x.kind == 2 && !(r.kind == 2 && s.heirFn r.index == x.ownerFn))

/-- A bank that has gone to the owner that was asked for. -/
def State.handed (s : State) (x : Bank) (r : BankReq) : Bank :=
  { x with
    kind := r.kind, index := r.index, ownerFn := if r.kind = 2 then s.heirFn r.index else 0, pending := none, clearing := s.clearsFor x r,
    loaded := r.load }

section
variable {s : State} {x : Bank} {r : BankReq}

theorem State.clearsFor_asked (h : r.clear = true) : s.clearsFor x r = true := by
  simp [State.clearsFor, h]

theorem State.clearsFor_leaves (hx : x.kind = 2) (h : r.kind ≠ 2 ∨ s.heirFn r.index ≠ x.ownerFn) : s.clearsFor x r = true := by
  rcases h with h | h <;> simp [State.clearsFor, hx, h]

theorem State.clearsFor_stays (hr : r.clear = false) (hx : x.kind ≠ 2) : s.clearsFor x r = false := by
  simp [State.clearsFor, hr, hx]

end

section
variable {s : State} {b : BitVec 12} {x : Bank} (hx : s.bank b.toNat = x)
include hx

theorem exec_bankHandover_idle (h : s.batonOut b.toNat = true ∨ x.pending = none) : exec (.bankHandover b) s = .next s := by
  subst hx
  change execBankHandover b s = .next s
  unfold execBankHandover
  dsimp only
  split
  · rfl
  · rename_i r e
    rcases h with h | h
    · exact if_pos (by simp [h])
    · rw [h] at e
      cases e

/-- Once the baton is back the bank goes to its new owner (R261, R262, R264). -/
theorem exec_bankHandover {r : BankReq} (hp : x.pending = some r) (hc : x.clearing = false) (hb : s.batonOut b.toNat = false)
    (hf : s.fenced (b.toNat / 48) = false) (hst : s.frame.st ≠ .fatal) :
    exec (.bankHandover b) s = .next (if s.clearsFor x r then s.setBank b.toNat (s.handed x r)
      else (s.setBank b.toNat (s.handed x r)).handedOver b.toNat r.load) := by
  subst hx
  change execBankHandover b s = _
  unfold execBankHandover
  dsimp only
  rw [hp]
  exact if_neg (by simp [hc, hb, hf, hst])

end

/-! ## What a handover and a clear leave -/

section
variable {n : Nat} {s : State}

theorem State.handedOver_onBanks (n : Nat) (load : Bool) (s : State) : s.OnBanks (s.handedOver n load) := by
  cases load
  · exact rfl
  · exact s.fillPinned_onBanks n

theorem State.handedOver_bank (load : Bool) (h : (s.bank n).loaded = false ∨ (s.bank n).loaded = load) :
    (s.handedOver n load).bank n = { s.bank n with loaded := load } := by
  cases load
  · have hl : (s.bank n).loaded = false := h.elim id id
    calc (s.handedOver n false).bank n = { s.bank n with loaded := (s.bank n).loaded } := rfl
      _ = { s.bank n with loaded := false } := by rw [hl]
  · exact s.fillPinned_bank n

theorem State.handedOver_bank_other (load : Bool) {m : Nat} (h : m ≠ n) : (s.handedOver n load).bank m = s.bank m := by
  cases load
  · rfl
  · exact s.fillPinned_bank_other h

theorem State.handedOver_pinned {load : Bool} (hl : load = true) {w : Nat} (hw : w < (s.pinSpan n).2) :
    tblGet? (s.handedOver n load).bankWords (wordKey n w) = some (s.pinnedOf n w) := by
  subst hl
  exact State.fillPinned_word hw

theorem State.handedOver_other {load : Bool} {k : Nat}
    (h : load = false ∨ k < wordKey n 0 ∨ wordKey n 0 + (s.pinSpan n).2 ≤ k) :
    tblGet? (s.handedOver n load).bankWords k = tblGet? s.bankWords k := by
  cases load
  · rfl
  · exact State.fillPinned_other (h.resolve_left Bool.noConfusion)

/-- What a handover leaves: the bank with its new owner, and in its words the pinned tables where it is not cleared first (R104, R264). -/
theorem exec_bankHandover_words {b : BitVec 12} {x : Bank} {r : BankReq} (hx : s.bank b.toNat = x) (hp : x.pending = some r)
    (hc : x.clearing = false) (hb : s.batonOut b.toNat = false) (hf : s.fenced (b.toNat / 48) = false) (hst : s.frame.st ≠ .fatal) :
    ∃ t, exec (.bankHandover b) s = .next t ∧
      t.bankWords = (if s.clearsFor x r then s.bankWords else
        ((s.setBank b.toNat (s.handed x r)).handedOver b.toNat r.load).bankWords) ∧
      t.bank b.toNat = s.handed x r ∧ (∀ m, m ≠ b.toNat → t.bank m = s.bank m) ∧ s.OnBanks t := by
  have hexec := exec_bankHandover hx hp hc hb hf hst
  cases hclear : s.clearsFor x r <;> rw [hclear] at hexec
  · have hload : (s.setBank b.toNat (s.handed x r)).bank b.toNat = s.handed x r := State.setBank_bank_same ..
    refine ⟨_, hexec, rfl, ?_, fun m hm => ?_, State.OnBanks.trans (b := s.setBank b.toNat (s.handed x r)) rfl (State.handedOver_onBanks ..)⟩
    · refine (State.handedOver_bank r.load (.inr (congrArg Bank.loaded hload))).trans ?_
      rw [hload]
      rfl
    · exact (State.handedOver_bank_other _ hm).trans (State.setBank_bank_other _ _ _ _ hm)
  · exact ⟨_, hexec, rfl, State.setBank_bank_same .., fun m hm => State.setBank_bank_other _ _ _ _ hm, rfl⟩

/-- A clear is over: the bank holds zeros, and its pinned tables where its handover loads them (R104, R264). -/
def State.cleared (n : Nat) (s : State) : State := (s.zeroBank n).modBank n (fun y => { y with clearing := false })

theorem State.cleared_bank (n : Nat) (s : State) : (s.cleared n).bank n = { s.bank n with clearing := false, zeroed := true, loaded := false } := by
  unfold State.cleared State.zeroBank
  rw [State.modBank_eq, State.setBank_bank_same, State.modBank_eq, State.setBank_bank_same]
  rfl

theorem State.cleared_bank_other {m : Nat} (h : m ≠ n) : (s.cleared n).bank m = s.bank m := by
  unfold State.cleared State.zeroBank
  rw [State.modBank_eq, State.setBank_bank_other _ _ _ _ h, State.modBank_eq, State.setBank_bank_other _ _ _ _ h]
  rfl

theorem State.cleared_word (n k : Nat) (s : State) :
    tblGet? (s.cleared n).bankWords k = if k / 4096 = n then none else tblGet? s.bankWords k :=
  s.zeroBank_word n k

/-- What the end of a clear leaves (R262, R264): zeros, and the pinned tables where the handover brought them along. -/
def State.clearEnds (n : Nat) (s : State) : State := (s.cleared n).handedOver n (s.bank n).loaded

theorem State.clearEnds_bank (n : Nat) (s : State) : (s.clearEnds n).bank n = { s.bank n with clearing := false, zeroed := true } := by
  unfold State.clearEnds
  rw [State.handedOver_bank _ (.inl (by rw [State.cleared_bank])), State.cleared_bank]

theorem State.clearEnds_bank_other {m : Nat} (h : m ≠ n) : (s.clearEnds n).bank m = s.bank m :=
  (State.handedOver_bank_other _ h).trans (State.cleared_bank_other h)

theorem State.clearEnds_onBanks (n : Nat) (s : State) : s.OnBanks (s.clearEnds n) :=
  State.OnBanks.trans (b := s.cleared n) rfl (State.handedOver_onBanks ..)

theorem State.clearEnds_other {k : Nat} (h : k / 4096 ≠ n) : tblGet? (s.clearEnds n).bankWords k = tblGet? s.bankWords k := by
  have hspan := (s.cleared n).pinSpan_le n
  have hout : k < wordKey n 0 ∨ wordKey n 0 + ((s.cleared n).pinSpan n).2 ≤ k := by
    unfold wordKey
    omega
  unfold State.clearEnds
  rw [State.handedOver_other (.inr hout), State.cleared_word, if_neg h]

theorem State.clearEnds_zero {w : Nat} (hw : w < 4096) (h : (s.bank n).loaded = false ∨ (s.pinSpan n).2 ≤ w) :
    ((s.clearEnds n).word n w).1 = zeroWord := by
  refine State.word_zeroed (congrArg Bank.zeroed (s.clearEnds_bank n)) ?_
  have hout : (s.bank n).loaded = false ∨ wordKey n w < wordKey n 0 ∨ wordKey n 0 + ((s.cleared n).pinSpan n).2 ≤ wordKey n w :=
    h.imp_right fun hspan => .inr (by rw [show (s.cleared n).pinSpan n = s.pinSpan n from rfl]; unfold wordKey; omega)
  unfold State.clearEnds
  rw [State.handedOver_other hout, State.cleared_word, if_pos (by unfold wordKey; omega)]

theorem State.clearEnds_pinned (hl : (s.bank n).loaded = true) {w : Nat} (hw : w < (s.pinSpan n).2) :
    tblGet? (s.clearEnds n).bankWords (wordKey n w) = some (s.pinnedOf n w) :=
  State.handedOver_pinned hl hw

theorem exec_bankClearDone {b : BitVec 12} (h : (s.bank b.toNat).clearing = true) : exec (.bankClearDone b) s = .next (s.clearEnds b.toNat) :=
  if_pos h

theorem exec_bankClearDone_idle {b : BitVec 12} (h : (s.bank b.toNat).clearing = false) : exec (.bankClearDone b) s = .next s :=
  if_neg (by simp [h])

end

/-- Settles O48, a command at a time: a write of BANK_OWNER by whether its owner is legal, a handover by whether the bank is cleared for it,
the end of a clear by whether the pinned tables come back. -/
theorem banksChangeHands : Obligations.BanksChangeHands := by
  refine ⟨?_, ?_⟩
  · intro acc b value s n x kind index legal hacc hn hp
    have hkind : fld value.toNat 0 3 = kind := by rw [fld_eq]; exact congrArg (· % 8) (Nat.div_one _)
    have hindex : fld value.toNat 4 10 = index := fld_eq ..
    refine ⟨fun hf hl hk hi => ?_, fun hf hl hne => ?_, fun hf hl => ?_, exec_bankOwnerWrite_fenced hacc hn hp⟩
    · rw [exec_bankOwnerWrite hacc hn hf, State.bankOwnerWrite_legal hp (by rw [hkind, hindex]; exact (State.ownerRefused_iff hf).mpr hl),
        hkind, hindex, if_pos ⟨hk, hi⟩]
    · rw [exec_bankOwnerWrite hacc hn hf, State.bankOwnerWrite_legal hp (by rw [hkind, hindex]; exact (State.ownerRefused_iff hf).mpr hl),
        hkind, hindex, if_neg hne]
      rfl
    · rw [exec_bankOwnerWrite hacc hn hf, State.bankOwnerWrite_refused hp]
      rw [hkind, hindex]
      exact Bool.eq_true_of_not_eq_false fun h => hl ((State.ownerRefused_iff hf).mp h)
  · intro b s n x
    refine ⟨exec_bankHandover_idle rfl, fun r hr hc hb hf hst => ?_, fun hc => ?_, exec_bankClearDone_idle⟩
    · obtain ⟨t, hexec, hwords, hbank, hothers, hrest⟩ := exec_bankHandover_words rfl hr hc hb hf hst
      refine ⟨s.handed x r, t, hexec, hrest, hbank, hothers, rfl, State.clearsFor_asked, fun hx hk => State.clearsFor_leaves hx (.inl hk),
        fun hx f i z _ hg hne => State.clearsFor_leaves hx (.inr (by rwa [State.heirFn_of_byGidx hg])), State.clearsFor_stays,
        fun f i z hk hg => (if_pos hk).trans (State.heirFn_of_byGidx hg), fun h => ?_, fun hclear hload w hw => ?_⟩
      · rcases h with h | h
        · exact hwords.trans (if_pos h)
        · rw [hwords, h]
          exact ite_self _
      · rw [hwords, if_neg (by exact ne_true_of_eq_false hclear)]
        exact State.handedOver_pinned hload hw
    · exact ⟨_, exec_bankClearDone hc, s.clearEnds_bank n, fun _ => State.clearEnds_bank_other, fun _ => State.clearEnds_other,
        fun _ => State.clearEnds_zero, fun hl _ => State.clearEnds_pinned hl, s.clearEnds_onBanks n⟩

end Sys2Proof.Machine
end

section
/-! POOL_MAP, and the two triggers of POOL_CFG (R270, R271, R278). -/

namespace Sys2Proof.Machine

/-! ## POOL_MAP_WRITE -/

section
variable {s : State} {acc : Acc} {p : BitVec 8} {value : Word}

theorem exec_poolMapWrite (h : s.FrameAccess acc) :
    exec (.poolMapWrite acc p value) s = .next (s.poolMap p.toNat value.toNat).accepted := by
  have hp : p.toNat < 256 := p.isLt
  have hclear : s.clearW1c .frame (0x7000 + 4 * p.toNat) value.toNat = s := by
    unfold State.clearW1c State.frameClear
    dsimp only
    (repeat rw [if_neg (by omega)])
    rw [arrayIx_of_ge (by omega)]
  have hwrite : s.frameWrite .frame (0x7000 + 4 * p.toNat) value.toNat = s.poolMap p.toNat value.toNat := by
    unfold State.frameWrite
    (repeat rw [if_neg (by omega)])
    rw [arrayIx_of_ge (by omega), arrayIx_entry hp (by omega)]
  have hhost := State.hostWrite_frame h (0x7000 + 4 * p.toNat) value.toNat viewSame viewSame (by omega) (s.fencedOwner_frame _ (by omega))
  rw [hclear, hwrite, ← Nat.add_assoc] at hhost
  exact congrArg Host.Outcome.next hhost

end

/-- Another pool of the function has the local number (R270). -/
def State.localTaken (s : State) (p f localNo : Nat) : Prop :=
  ∃ q ∈ s.pools, q.1 ≠ p ∧ q.2.assigned = true ∧ q.2.fn = f ∧ q.2.localNo = localNo

section
variable {s : State} {p v : Nat}

theorem State.localTaken_iff (s : State) (p f l : Nat) :
    s.pools.any (fun q => q.1 != p && q.2.assigned && q.2.fn == f && q.2.localNo == l) = true ↔ s.localTaken p f l := by
  simp [State.localTaken, List.any_eq_true, and_assoc]

theorem State.poolMap_free (he : (s.pool p).enabled = false)
    (h : ¬ (v.testBit 6 = true ∧ s.localTaken p (v % 64) (v / 256 % 256))) :
    s.poolMap p v = s.setPool p { s.pool p with fn := v % 64, assigned := v.testBit 6, localNo := v / 256 % 256 } := by
  have hfn : fld v 0 6 = v % 64 := by rw [fld_eq]; exact congrArg (· % 64) (Nat.div_one _)
  have hlocal : fld v 8 8 = v / 256 % 256 := fld_eq ..
  rw [← State.localTaken_iff] at h
  unfold State.poolMap
  dsimp only
  rw [hfn, hlocal]
  refine if_neg fun hc => h ?_
  rwa [he, Bool.false_or, Bool.and_eq_true] at hc

theorem State.poolMap_ignored (h : (s.pool p).enabled = true ∨ (v.testBit 6 = true ∧ s.localTaken p (v % 64) (v / 256 % 256))) :
    s.poolMap p v = s := by
  have hfn : fld v 0 6 = v % 64 := by rw [fld_eq]; exact congrArg (· % 64) (Nat.div_one _)
  have hlocal : fld v 8 8 = v / 256 % 256 := fld_eq ..
  rw [← State.localTaken_iff] at h
  unfold State.poolMap
  dsimp only
  rw [hfn, hlocal]
  exact if_pos (by rwa [Bool.or_eq_true, Bool.and_eq_true])

end

/-! ## POOL_ENABLE and POOL_DISABLE -/

section
variable {s : State} {acc : Acc} {fn : BitVec 6} {i : BitVec 8} {p : Nat}

/-- A write of POOL_CFG reaches its pool (R271, R278). -/
theorem State.hostWrite_poolCfg (h : s.FuncAccess acc fn) (hp : s.poolNo fn.toNat i.toNat = some p) (v : Nat) :
    s.hostWrite acc (fnReg fn (0x2000 + 4 * i.toNat)) v viewSame viewSame =
      State.accepted (if bitOf v 1 then s.disablePool p else if bitOf v 0 then s.enablePool p else s) := by
  have hi : i.toNat < 256 := i.isLt
  have hclear : s.clearW1c (.func fn.toNat) (0x2000 + 4 * i.toNat) v = s := by
    unfold State.clearW1c State.funcClear
    dsimp only
    rw [if_neg (by omega), arrayIx_of_lt (by omega)]
    exact if_neg (by omega)
  have hwrite : s.funcWrite acc.origin fn.toNat (0x2000 + 4 * i.toNat) v = s.poolCfg fn.toNat i.toNat v := by
    unfold State.funcWrite
    (repeat rw [if_neg (by omega)])
    rw [arrayIx_entry hi (by omega)]
  rw [State.hostWrite_func h _ _ _ _ (by omega), hclear, hwrite]
  unfold State.poolCfg
  rw [hp]

theorem exec_poolEnable {v : MemView} {value : Word} (h : s.FuncAccess acc fn) (hp : s.poolNo fn.toNat i.toNat = some p)
    (hv : value.toNat.testBit 1 = false) :
    (s.seeMem v).After (fun w => (w.enablePool p).accepted) (exec (.poolEnable acc fn i value v) s) := by
  have hhost := State.hostWrite_poolCfg (s := (s.seeMem v).start) h hp (withBits value 1)
  rw [bitOf_withBits_clear value (by decide), hv, bitOf_withBits_set value (by decide)] at hhost
  exact State.turn_after (s := s.seeMem v) (f := fun w => (w.enablePool p).accepted)
    (body := fun s => .next (s.hostWrite acc (fnReg fn (0x2000 + 4 * i.toNat)) (withBits value 1) viewSame viewSame))
    (congrArg Host.Outcome.next hhost)

theorem exec_poolDisable {v : MemView} {value : Word} (h : s.FuncAccess acc fn) (hp : s.poolNo fn.toNat i.toNat = some p) :
    (s.seeMem v).After (fun w => (w.disablePool p).accepted) (exec (.poolDisable acc fn i value v) s) := by
  have hhost := State.hostWrite_poolCfg (s := (s.seeMem v).start) h hp (withBits value 2)
  rw [bitOf_withBits_set value (by decide)] at hhost
  exact State.turn_after (s := s.seeMem v) (f := fun w => (w.disablePool p).accepted)
    (body := fun s => .next (s.hostWrite acc (fnReg fn (0x2000 + 4 * i.toNat)) (withBits value 2) viewSame viewSame))
    (congrArg Host.Outcome.next hhost)

end

section
variable {s : State} {p : Nat}

theorem State.enablePool_refused (he : (s.pool p).enabled = false)
    (h : (s.func (s.pool p).fn).st ≠ .open_ ∨ (s.pool p).block % 64 ≠ 0) :
    s.enablePool p = s.setPool p { s.pool p with refused := true } := by
  unfold State.enablePool
  dsimp only
  rw [if_neg (by simp [he]), if_pos (by simpa using h)]
  rfl

/-- A pool once its pool block is read: enabled where the fields are in range (R271, R278). -/
def Pool.afterBlock (x : Pool) (b : Bytes) (now : Nat) : Pool := match x.readBlock b with
  | some y => { y with stallSince := now }
  | none => { x with refused := true }

theorem State.enablePool_read {t : State} {b : Bytes} (he : (s.pool p).enabled = false) (hf : (s.func (s.pool p).fn).st = .open_)
    (hb : (s.pool p).block % 64 = 0) (hread : s.sysRead (.control (s.pool p).fn) (s.pool p).block 64 = (.okay, b, t))
    (ht : s.OnPorts t) :
    s.enablePool p = t.setPool p ((s.pool p).afterBlock b s.now) := by
  have hpool : t.pool p = s.pool p := by
    rw [ht]
    rfl
  have hnow : t.now = s.now := by
    rw [ht]
    rfl
  unfold State.enablePool
  dsimp only
  rw [if_neg (by simp [he]), if_neg (by simp [hf, hb]), hread]
  dsimp only
  rw [State.modPool_eq, hpool, hnow]
  unfold Pool.afterBlock
  cases (s.pool p).readBlock b <;> rfl

theorem Pool.readBlock_enabled {x y : Pool} {b : Bytes} (h : x.readBlock b = some y) : y.enabled = true ∧ y.cache = [] := by
  unfold Pool.readBlock at h
  dsimp only at h
  split at h
  · cases h
  · cases h
    exact ⟨rfl, rfl⟩

/-- An open stream's graph names the pool (R278). -/
def State.poolNamed (s : State) (x : Pool) : Prop := ∃ y ∈ s.openStreams, y.1 = x.fn ∧ s.namesPool y.2.2.graph x.localNo = true

theorem State.disablePool_named (h : s.poolNamed (s.pool p)) : s.disablePool p = s.setPool p { s.pool p with refused := true } := by
  refine (if_pos ?_).trans (State.modPool_eq ..)
  obtain ⟨y, hy, hfn, hg⟩ := h
  exact List.any_eq_true.mpr ⟨y, hy, by simp [hfn, hg]⟩

theorem State.disablePool_unnamed (h : ¬ s.poolNamed (s.pool p)) (he : (s.pool p).enabled = true) :
    s.disablePool p = ((s.spillHandles p (s.pool p).cache.length).modPool p (fun y => { y with enabled := false })).watchPools := by
  unfold State.disablePool
  dsimp only
  rw [if_neg fun ha => h ?_, if_neg (by simp [he])]
  obtain ⟨y, hy, hc⟩ := List.any_eq_true.mp ha
  rw [Bool.and_eq_true, beq_iff_eq] at hc
  exact ⟨y, hy, hc⟩

end

section
variable {s : State} {acc : Acc} {fn : BitVec 6} {i : BitVec 8} {p : Nat} {v : MemView} {value : Word} {x : Pool}

/-- An ENABLE whose block is read: the pool is as its block says, and nothing else changes but ports and counters (R271, R278; log 4). -/
theorem exec_poolEnable_read (h : s.FuncAccess acc fn) (hp : s.poolNo fn.toNat i.toNat = some p) (hv : value.toNat.testBit 1 = false)
    (hx : s.pool p = x) (he : x.enabled = false) (hf : (s.func x.fn).st = .open_) (hb : x.block % 64 = 0)
    (ho : (s.seeMem v).OkayAt 0 x.block 64) (hs : (s.seeMem v).HasSlot (.control x.fn) .read x.block 64 0 []) :
    ∃ t, exec (.poolEnable acc fn i value v) s = .next t ∧
      t.pool p = x.afterBlock (memReadBytes (s.seeMem v).mem x.block 64) s.now ∧
      (∀ q, q ≠ p → t.pool q = s.pool q) ∧ (s.seeMem v).SamePorts t ∧
      t = State.accepted { s.seeMem v with
        pools := t.pools, ports := t.ports, tel := { (s.seeMem v).tel with cnt := t.tel.cnt } } := by
  subst hx
  obtain ⟨t, hpage, hsame, hports, hmiss⟩ := State.readPage_okay (s := (s.seeMem v).start) (w := .control (s.pool p).fn) rfl ho hs
  have hread : (s.seeMem v).start.sysRead (.control (s.pool p).fn) (s.pool p).block 64 =
      (.okay, memReadBytes (s.seeMem v).mem (s.pool p).block 64, t) := by
    rw [State.sysRead_page (by omega) (by omega), hpage]
    rfl
  have hdone := State.enablePool_read (s := (s.seeMem v).start) he hf hb hread hports
  refine ⟨_, (exec_poolEnable h hp hv).done (congrArg State.accepted hdone) hmiss, State.setPool_pool_same .., fun q hq => ?_, hsame, ?_⟩
  · refine (State.setPool_pool_other p _ t q hq).trans ?_
    rw [hports]
    rfl
  · unfold State.OnPorts at hports
    rw [hports]
    rfl

end

/-- Settles O50, a command at a time: POOL_MAP by whether its local number is free, ENABLE by its checks and its block, DISABLE by whether
a stream names the pool. -/
theorem poolsMapAndEnable : Obligations.PoolsMapAndEnable := by
  refine ⟨?_, ?_⟩
  · intro acc p value s hacc w taken
    refine ⟨fun he hn => ?_, fun h => ?_⟩
    · rw [exec_poolMapWrite hacc, State.poolMap_free he hn]
    · rw [exec_poolMapWrite hacc, State.poolMap_ignored h]
  · intro acc fn i value v s p u x named hacc hp
    have hdisable := exec_poolDisable (v := v) (value := value) hacc hp
    refine ⟨fun hv he hf hb ho hs => ?_, fun hv he h => ?_, fun h => ?_, fun h he => ?_, fun h he hc => ?_⟩
    · obtain ⟨t, hexec, hpool, hothers, hsame, hrest⟩ := exec_poolEnable_read hacc hp hv rfl he hf hb ho hs
      refine ⟨fun y hy => ?_, fun hy => ?_⟩
      · obtain ⟨hon, hcache⟩ := Pool.readBlock_enabled hy
        refine ⟨t, hexec, hpool.trans ?_, hon, hcache, hothers, hsame, hrest⟩
        rw [Pool.afterBlock, hy]
      · refine ⟨t, hexec, hpool.trans ?_, hsame, hrest⟩
        rw [Pool.afterBlock, hy]
    · exact (exec_poolEnable hacc hp hv).done (congrArg State.accepted (State.enablePool_refused (s := u.start) he h)) rfl
    · exact hdisable.done (congrArg State.accepted (State.disablePool_named (s := u.start) h)) rfl
    · exact hdisable.congr (congrArg State.accepted (State.disablePool_unnamed (s := u.start) h he))
    · have hoff : u.start.disablePool p = (u.start.setPool p { x with enabled := false }).watchPools := by
        rw [State.disablePool_unnamed (s := u.start) h he, State.modPool_eq]
        have hspill : u.start.spillHandles p (u.start.pool p).cache.length = u.start := by
          rw [show (u.start.pool p).cache = [] from hc]
          rfl
        rw [hspill]
        rfl
      obtain ⟨hframe, hpools⟩ := State.watchPools_watches (u.start.setPool p { x with enabled := false })
      have hpool := hpools p
      rw [State.setPool_pool_same] at hpool
      rw [← hoff] at hframe hpool
      refine ⟨_, hdisable.done rfl (congrArg (fun w : State => w.running.miss) hframe), congrArg Pool.enabled hpool, ?_⟩
      rw [hframe]
      rfl

end Sys2Proof.Machine
end

section
/-! Writes of a frame whose ports are at rest (R119 to R127, R135; log 3). -/

namespace Sys2Proof.Machine

/-! ## Memory under writes -/

theorem memWriteBytes_append (a b : Bytes) : ∀ (m : Mem) (n : Nat),
    memWriteBytes m n (a ++ b) = memWriteBytes (memWriteBytes m n a) (n + a.length) b := by
  induction a with
  | nil => exact fun _ _ => rfl
  | cons v t ih =>
    intro m n
    rw [List.cons_append, memWriteBytes, memWriteBytes, ih, List.length_cons, Nat.add_right_comm, Nat.add_assoc]

theorem memDrop_absent {m : Mem} {lo a : Nat} (h : memWfFrom lo m = true) (ha : memRead m a = 0) : memDrop m a = m := by
  induction m generalizing lo with
  | nil => rfl
  | cons p t ih =>
    obtain ⟨k, b⟩ := p
    simp only [memWfFrom, Bool.and_eq_true, decide_eq_true_eq, bne_iff_ne] at h
    obtain ⟨⟨-, hb⟩, ht⟩ := h
    rw [memRead] at ha
    by_cases e : k = a
    · rw [if_pos e] at ha
      exact absurd ha hb
    · rw [if_neg e] at ha
      rw [memDrop, if_neg e, ih ht ha]

theorem memPut_present {m : Mem} {lo a : Nat} (h : memWfFrom lo m = true) (ha : memRead m a ≠ 0) : memPut m a (memRead m a) = m := by
  induction m generalizing lo with
  | nil => exact absurd rfl ha
  | cons p t ih =>
    obtain ⟨k, b⟩ := p
    simp only [memWfFrom, Bool.and_eq_true, decide_eq_true_eq] at h
    obtain ⟨-, ht⟩ := h
    rw [memRead] at ha ⊢
    by_cases e : k = a
    · rw [if_pos e, memPut, if_neg (by omega), if_pos e.symm, e]
    · rw [if_neg e] at ha ⊢
      have hk : k < a := by
        by_contra hlt
        exact ha (memRead_below ht (by omega))
      rw [memPut, if_neg (by omega), if_neg (by omega), ih ht ha]

/-- A byte that is written where it stands changes nothing (log 3). -/
theorem memWrite_self {m : Mem} (h : m.wf = true) (a : Nat) : memWrite m a (memRead m a) = m := by
  unfold memWrite
  split
  · exact memDrop_absent h ‹_›
  · exact memPut_present h ‹_›

theorem memWriteBytes_self {m : Mem} (h : m.wf = true) (n : Nat) : ∀ a, memWriteBytes m a (memReadBytes m a n) = m := by
  induction n with
  | zero => exact fun _ => rfl
  | succ n ih =>
    intro a
    rw [memReadBytes, memWriteBytes, memWrite_self h, ih]

theorem memReadBytes_memWriteBytes_after {m : Mem} (h : m.wf = true) (a n : Nat) (bs : Bytes) (hl : bs.length + n ≤ 2 ^ 64) :
    memReadBytes (memWriteBytes m a bs) (a + bs.length) n = memReadBytes m (a + bs.length) n := by
  refine List.ext_getElem (by rw [memReadBytes_length, memReadBytes_length]) fun i hi _ => ?_
  rw [memReadBytes_length] at hi
  rw [memReadBytes_getElem, memReadBytes_getElem]
  exact memRead_memWriteBytes_other bs h a _ fun j hj => by omega

/-- Bytes written together with those that lie around them (R121). -/
theorem memWriteBytes_granules {m : Mem} (h : m.wf = true) (a k n : Nat) (bs : Bytes) (hl : bs.length + n ≤ 2 ^ 64) :
    memWriteBytes m a (memReadBytes m a k ++ bs ++ memReadBytes m (a + k + bs.length) n) = memWriteBytes m (a + k) bs := by
  rw [memWriteBytes_append, memWriteBytes_append, memWriteBytes_self h, memReadBytes_length, List.length_append, memReadBytes_length,
    ← Nat.add_assoc, ← memReadBytes_memWriteBytes_after h (a + k) n bs hl, memWriteBytes_self (memWriteBytes_wf _ _ _ h)]

/-! ## Accesses at rest -/

/-- What a write at rest leaves: memory, counters and notes differ, and signals; the ports rest as they rested. -/
structure State.RestWrites (s t : State) : Prop where
  accesses : s.Accesses t
  ports : s.SamePorts t
  rest : s.PortsRest → t.PortsRest
  miss : t.running.miss = s.running.miss

theorem State.SamePorts.trans {a b c : State} (h : a.SamePorts b) (k : b.SamePorts c) : a.SamePorts c := fun n => by
  rw [k n, h n]

theorem State.RestWrites.refl (s : State) : s.RestWrites s := ⟨.refl s, fun _ => rfl, id, rfl⟩

theorem State.RestWrites.trans {a b c : State} (h : a.RestWrites b) (k : b.RestWrites c) : a.RestWrites c :=
  ⟨h.accesses.trans k.accesses, h.ports.trans k.ports, k.rest ∘ h.rest, k.miss.trans h.miss⟩

theorem State.RestsOn.restWrites {s t : State} (h : s.RestsOn t) : s.RestWrites t := by
  obtain ⟨⟨hports, hsame⟩, hrest, hmiss⟩ := h
  refine ⟨?_, hsame, hrest, hmiss⟩
  unfold State.OnPorts at hports
  unfold State.Accesses
  rw [hports]

theorem State.RestWrites.okayIn {s t : State} (h : s.RestWrites t) {n addr len : Nat} (ho : s.OkayIn n addr len) : t.OkayIn n addr len := by
  have hup : t.portUp n = s.portUp n := by
    unfold State.portUp
    rw [h.ports n, show t.nPorts = s.nPorts by rw [h.accesses]; rfl]
  have hanswer (b k : Nat) : t.answerAt b k = s.answerAt b k := by
    unfold State.answerAt
    rw [h.accesses]
  obtain ⟨h1, h2⟩ := ho
  refine ⟨hup.trans h1, fun b k => ?_⟩
  rw [hanswer]
  exact h2 b k

theorem State.OkayIn.part {s : State} {n addr len a k : Nat} (h : s.OkayIn n addr len)
    (hk : 0 < k → addr ≤ a ∧ a + k ≤ addr + len) : s.OkayIn n a k :=
  ⟨h.1, fun b l hl h1 h2 => h.2 b l hl (by omega) (by omega)⟩

theorem State.OkayIn.answer {s : State} {n addr len : Nat} (h : s.OkayIn n addr len) (hl : 0 < len) : s.OkayAt n addr len := by
  obtain ⟨r, hr, rfl⟩ := h.2 addr len hl (Nat.le_refl _) (Nat.le_refl _)
  exact ⟨h.1, hr⟩

theorem State.restWrites_of_ports {s t : State} (h : s.Accesses t) (hp : t.ports = s.ports) (hm : t.running.miss = s.running.miss) :
    s.RestWrites t := by
  refine ⟨h, fun n => ?_, fun hr => ?_, hm⟩
  · unfold State.port
    rw [hp]
  · unfold State.PortsRest
    rwa [hp]

/-- The OKAY answer of a request at rest. -/
theorem State.answered_restWrites (n : Nat) (r : Req) (s : State) : ∃ t, s.answered n r .okay = (.okay, s.memOf r, t) ∧ s.RestWrites t ∧
    t.mem = (s.memDone r (s.memOf r)).mem := by
  obtain ⟨t, e, ht, hmiss⟩ := s.answered_okay n r
  have hdone := s.memDone_onMemory r (s.memOf r)
  have hports : (s.memDone r (s.memOf r)).ports = s.ports := by unfold State.memDone; split <;> rfl
  refine ⟨t, e, State.restWrites_of_ports ?_ ?_ hmiss, ?_⟩
  · unfold State.OnMemory at hdone
    unfold State.Accesses
    rw [ht, hdone]
  · rw [ht, ← hports]
  · rw [ht]

/-- A request of a command whose ports rest has its slot, and OKAY is its answer. -/
theorem State.PortsRest.access_okay {s : State} (h : s.PortsRest) (hm : s.running.miss = none) {n : Nat} {r : Req}
    (hr : s.respTo r = some .okay) :
    ∃ t, s.access n r = (.okay, s.memOf r, t) ∧ s.RestWrites t ∧ t.mem = (s.memDone r (s.memOf r)).mem := by
  obtain ⟨-, -, -, hans, -⟩ := h.port n
  obtain ⟨tag, hslot⟩ := h.toSlot_op n r
  have hsent := (s.passIdle_restsOn n (s.idleBefore n r)).trans (State.transfer_restsOn n tag r _)
  generalize hu : ((s.passIdle n (s.idleBefore n r)).transfer n tag r) = u at hsent
  obtain ⟨t, et, ht, hmem⟩ := u.answered_restWrites n r
  have humem : u.mem = s.mem := by rw [hsent.signals.1]
  have hof : u.memOf r = s.memOf r := by unfold State.memOf; rw [humem]
  refine ⟨t, ?_, hsent.restWrites.trans ht, ?_⟩
  · unfold State.access
    rw [hm, hans, (h.port n).table, hslot]
    dsimp only
    rw [hr]
    dsimp only
    rw [hu, et, hof]
    rfl
  · rw [hmem, hof]
    unfold State.memDone
    split <;> simp only [humem]

/-! ## Writes at rest -/

/-- A write of some bytes at rest: in memory of the canonical form they stand where they are written (R121, R127; log 3). -/
structure State.Wrote (s t : State) (addr : Nat) (bs : Bytes) : Prop where
  writes : s.RestWrites t
  mem : s.mem.wf = true → t.mem = memWriteBytes s.mem addr bs

section
variable {s : State} {w : Party} {addr : Nat} {bs : Bytes}

theorem State.PortsRest.writePage (h : s.PortsRest) (hm : s.running.miss = none) (ho : s.OkayAt w.port addr bs.length)
    (hl : bs.length ≤ 4096) : ∃ t, s.writePage w addr bs = (.okay, t) ∧ s.Wrote t addr bs := by
  obtain ⟨data, hdata⟩ : ∃ data, data = memReadBytes s.mem (addr / 64 * 64) (addr % 64) ++ bs ++
    memReadBytes s.mem (addr + bs.length) ((64 - (addr + bs.length) % 64) % 64) := ⟨_, rfl⟩
  obtain ⟨t, e, ht, hmem⟩ := h.access_okay hm (n := w.port) (State.respTo_okay (op := .write) (x := 0) (d := data) ho)
  have haddr : addr / 64 * 64 + addr % 64 = addr := by omega
  have hgran : s.mem.wf = true → memWriteBytes s.mem (addr / 64 * 64) data = memWriteBytes s.mem addr bs := by
    intro hwf
    have hg := memWriteBytes_granules hwf (addr / 64 * 64) (addr % 64) ((64 - (addr + bs.length) % 64) % 64) bs (by omega)
    rwa [haddr, ← hdata] at hg
  refine ⟨t, ?_, ht, fun hwf => hmem.trans (hgran hwf)⟩
  unfold State.writePage
  rw [if_neg (by simp [ho.1])]
  dsimp only
  rw [← hdata, e]

end

theorem State.PortsRest.writeSpan {w : Party} (fuel : Nat) : ∀ {s : State} {a : Nat} {bs : Bytes}, s.PortsRest → s.running.miss = none →
    s.OkayIn w.port a bs.length → (bs.length = 0 ∨ a % 4096 + bs.length ≤ 4096 * fuel) →
    ∃ t, s.writeSpan w fuel a bs = (none, t) ∧ s.Wrote t a bs := by
  induction fuel with
  | zero =>
    intro s a bs _ _ _ hfuel
    obtain rfl : bs = [] := List.length_eq_zero_iff.mp (by omega)
    exact ⟨s, rfl, .refl s, fun _ => rfl⟩
  | succ fuel ih =>
    intro s a bs hr hm ho hfuel
    by_cases hnil : bs = []
    · subst hnil
      exact ⟨s, rfl, .refl s, fun _ => rfl⟩
    · have hpos : 0 < bs.length := List.length_pos_iff.mpr hnil
      have htake : (bs.take (4096 - a % 4096)).length = min (4096 - a % 4096) bs.length := List.length_take ..
      have hdrop : (bs.drop (4096 - a % 4096)).length = bs.length - (4096 - a % 4096) := List.length_drop ..
      obtain ⟨t, et, ht⟩ := hr.writePage hm (w := w) (addr := a) (bs := bs.take (4096 - a % 4096))
        (State.OkayIn.answer (ho.part fun _ => by omega) (by omega)) (by omega)
      obtain ⟨u, eu, hu⟩ := ih (ht.writes.rest hr) (ht.writes.miss.trans hm) (a := a + (4096 - a % 4096)) (bs := bs.drop (4096 - a % 4096))
        (ht.writes.okayIn (ho.part fun _ => by omega)) (by omega)
      refine ⟨u, ?_, ht.writes.trans hu.writes, fun hwf => ?_⟩
      · unfold State.writeSpan
        rw [if_neg (by simpa using hnil)]
        dsimp only
        rw [et]
        exact eu
      · rw [hu.mem (by rw [ht.mem hwf]; exact memWriteBytes_wf _ _ _ hwf), ht.mem hwf]
        rcases Nat.le_total bs.length (4096 - a % 4096) with hle | hle
        · rw [List.drop_of_length_le hle, List.take_of_length_le hle]
          rfl
        · have happ := memWriteBytes_append (bs.take (4096 - a % 4096)) (bs.drop (4096 - a % 4096)) s.mem a
          rw [List.take_append_drop, htake, Nat.min_eq_left hle] at happ
          exact happ.symm

theorem State.PortsRest.sysWrite {s : State} {w : Party} {addr : Nat} {bs : Bytes} (h : s.PortsRest) (hm : s.running.miss = none)
    (ho : s.OkayIn w.port addr bs.length) : ∃ t, s.sysWrite w addr bs = (.okay, t) ∧ s.Wrote t addr bs := by
  obtain ⟨t, e, ht⟩ := State.PortsRest.writeSpan (spanFuel bs.length) h hm ho (.inr (by unfold spanFuel; omega))
  refine ⟨t, ?_, ht⟩
  unfold State.sysWrite
  rw [e]

end Sys2Proof.Machine
end

section
/-! The handle cache and the ring of a pool at rest (R273; log 3). -/

namespace Sys2Proof.Machine

/-! ## Whose accesses these are -/

theorem State.keyParty_port (s : State) (k g : Nat) : (s.keyParty k g).port = 0 := by
  unfold State.keyParty
  split <;> rfl

/-- The ring's traffic goes over port 0 (R231). -/
theorem State.ringParty_port (s : State) (p : Nat) : (s.ringParty p).port = 0 := by
  unfold State.ringParty
  dsimp only
  refine List.foldlRecOn _ _ (motive := fun w : Party => w.port = 0) rfl fun a ha b hb => ?_
  obtain ⟨w, -, rfl⟩ := List.mem_map.mp hb
  have hkey := s.keyParty_port w.stream w.sampleIx
  split
  · exact hkey
  · split
    · exact hkey
    · exact ha
  · exact ha

/-! ## Handles to the ring -/

theorem natLe_length (n : Nat) : ∀ v, (natLe n v).length = n := by
  induction n with
  | zero => exact fun _ => rfl
  | succ n ih => exact fun v => congrArg (· + 1) (ih (v / 256))

/-- A list is cut into its pieces of `n`. -/
theorem chunks_of_length {α : Type} {n : Nat} (hn : 0 < n) (m : Nat) : ∀ {fuel : Nat} {l : List α}, l.length = n * m → m ≤ fuel →
    chunks n fuel l = (List.range m).map (fun k => (l.drop (n * k)).take n) := by
  induction m with
  | zero =>
    intro fuel l hl _
    obtain rfl : l = [] := List.length_eq_zero_iff.mp hl
    cases fuel <;> rfl
  | succ m ih =>
    intro fuel l hl hfuel
    obtain ⟨fuel, rfl⟩ : ∃ f, fuel = f + 1 := ⟨fuel - 1, by omega⟩
    rw [Nat.mul_succ] at hl
    have hcut : chunks n (fuel + 1) l = l.take n :: chunks n fuel (l.drop n) := by
      cases l with
      | nil => exact absurd hl (by rw [List.length_nil]; omega)
      | cons => rfl
    rw [hcut, ih (by rw [List.length_drop]; omega) (by omega), List.range_succ_eq_map, List.map_cons, List.map_map]
    refine congrArg₂ _ rfl (List.map_congr_left fun k _ => ?_)
    rw [Function.comp_apply, List.drop_drop, Nat.mul_succ, Nat.add_comm n]

theorem padTo_of_dvd {m : Nat} {bs : Bytes} (h : bs.length % m = 0) : padTo m bs = bs := by
  unfold padTo
  rw [h, Nat.sub_zero, Nat.mod_self]
  exact List.append_nil _

/-- The address of the ring's slot after `k` more handles at its tail (R273). -/
def Pool.tailAddr (x : Pool) (k : Nat) : Nat := x.ring + 8 * ((x.ringHead + x.ringCount + k) % 2 ^ x.log2Ring)

/-- The pool once `n` handles of its cache have gone to the ring. -/
def Pool.spilled (x : Pool) (n : Nat) : Pool := { x with ringCount := x.ringCount + n, cache := x.cache.drop n }

/-- Only memory, ports, pools, counters and the notes of the running command differ. -/
def State.OnPoolAccess (s t : State) : Prop :=
  t = { s with mem := t.mem, ports := t.ports, pools := t.pools, tel := { s.tel with cnt := t.tel.cnt }, running := t.running }

theorem State.OnPoolAccess.trans {a b c : State} (h : a.OnPoolAccess b) (k : b.OnPoolAccess c) : a.OnPoolAccess c := by
  unfold State.OnPoolAccess at *
  rw [k, h]

theorem State.Accesses.onPoolAccess {s t : State} (h : s.Accesses t) : s.OnPoolAccess t := by
  unfold State.Accesses at h
  unfold State.OnPoolAccess
  rw [h]

/-- What traffic with a pool's ring leaves at rest: the pool as it is then, and nothing else but memory, ports, counters and notes. -/
structure State.RingMoves (s t : State) (p : Nat) (x : Pool) : Prop where
  only : s.OnPoolAccess t
  ports : s.SamePorts t
  rest : s.PortsRest → t.PortsRest
  miss : t.running.miss = s.running.miss
  pool : t.pool p = x
  okay : ∀ n addr len, s.OkayIn n addr len → t.OkayIn n addr len

theorem State.RingMoves.refl (s : State) (p : Nat) : s.RingMoves s p (s.pool p) :=
  ⟨rfl, fun _ => rfl, id, rfl, rfl, fun _ _ _ => id⟩

theorem State.RingMoves.trans {a b c : State} {p : Nat} {x y : Pool} (h : a.RingMoves b p x) (k : b.RingMoves c p y) : a.RingMoves c p y :=
  ⟨h.only.trans k.only, h.ports.trans k.ports, k.rest ∘ h.rest, k.miss.trans h.miss, k.pool, fun n ad l => k.okay n ad l ∘ h.okay n ad l⟩

/-- A pool is set after an access at rest. -/
theorem State.RestWrites.setPool {s t : State} (h : s.RestWrites t) (p : Nat) (x : Pool) : s.RingMoves (t.setPool p x) p x :=
  ⟨h.accesses.onPoolAccess.trans rfl, h.ports, h.rest, h.miss, State.setPool_pool_same .., fun _ _ _ => h.okayIn⟩

/-- One group of eight handles goes to the tail of the ring. -/
theorem State.ringWrite_cons {s : State} {p : Nat} {g : List Nat} (gs : List (List Nat)) (h : s.PortsRest) (hm : s.running.miss = none)
    (hg : g.length = 8) (ho : s.OkayIn 0 ((s.pool p).tailAddr 0) 64) :
    ∃ t, s.ringWrite p (g :: gs) = t.ringWrite p gs ∧ s.RingMoves t p ((s.pool p).spilled 8) ∧
      (s.mem.wf = true → t.mem = memWriteBytes s.mem ((s.pool p).tailAddr 0) (g.flatMap (natLe 8))) := by
  have hlen : (g.flatMap (natLe 8)).length = 64 := by
    simp [List.length_flatMap, natLe_length, hg]
  have hpad : padTo 64 (g.flatMap (natLe 8)) = g.flatMap (natLe 8) := padTo_of_dvd (by rw [hlen])
  obtain ⟨t, e, ht⟩ := h.sysWrite hm (w := s.ringParty p) (addr := (s.pool p).tailAddr 0) (bs := g.flatMap (natLe 8))
    (by rw [s.ringParty_port, hlen]; exact ho)
  refine ⟨t.setPool p ((s.pool p).spilled 8), ?_, ht.writes.setPool p _, ht.mem⟩
  unfold Pool.tailAddr at e
  rw [Nat.add_zero] at e
  conv_lhs => unfold State.ringWrite
  dsimp only
  rw [hpad, e]
  dsimp only
  rw [hg]
  rfl

theorem Pool.spilled_spilled (x : Pool) (m n : Nat) : (x.spilled m).spilled n = x.spilled (m + n) := by
  unfold Pool.spilled
  rw [Nat.add_assoc, List.drop_drop]

theorem Pool.spilled_tailAddr (x : Pool) (m k : Nat) : (x.spilled m).tailAddr k = x.tailAddr (m + k) := by
  unfold Pool.tailAddr Pool.spilled
  rw [← Nat.add_assoc, ← Nat.add_assoc]

/-- What memory holds once `n` groups of handles have gone to the tail of the ring, eight to a granule (R273). -/
def Pool.tailWritten (x : Pool) (n : Nat) (group : Nat → List Nat) (m : Mem) : Mem :=
  (List.range n).foldl (fun m k => memWriteBytes m (x.tailAddr (8 * k)) ((group k).flatMap (natLe 8))) m

theorem Pool.tailWritten_succ (x : Pool) (n : Nat) (group : Nat → List Nat) (m : Mem) :
    x.tailWritten (n + 1) group m =
      (x.spilled 8).tailWritten n (group ∘ Nat.succ) (memWriteBytes m (x.tailAddr 0) ((group 0).flatMap (natLe 8))) := by
  unfold Pool.tailWritten
  rw [List.range_succ_eq_map, List.foldl_cons, List.foldl_map]
  simp only [Pool.spilled_tailAddr, Function.comp_apply, Nat.mul_succ, Nat.add_comm 8, Nat.mul_zero]

/-- Groups of eight handles go to the ring, one after the other. -/
theorem State.ringWrite_groups {p : Nat} (n : Nat) : ∀ {s : State} (group : Nat → List Nat), s.PortsRest → s.running.miss = none →
    (∀ k, k < n → (group k).length = 8) → (∀ k, k < n → s.OkayIn 0 ((s.pool p).tailAddr (8 * k)) 64) →
    ∃ t, s.ringWrite p ((List.range n).map group) = t ∧ s.RingMoves t p ((s.pool p).spilled (8 * n)) ∧
      (s.mem.wf = true → t.mem = (s.pool p).tailWritten n group s.mem) := by
  induction n with
  | zero => exact fun {s} _ _ _ _ _ => ⟨s, rfl, .refl s p, fun _ => rfl⟩
  | succ n ih =>
    intro s group hr hm hg ho
    rw [List.range_succ_eq_map, List.map_cons, List.map_map]
    obtain ⟨t, et, ht, hmem⟩ := State.ringWrite_cons ((List.range n).map (group ∘ Nat.succ)) hr hm (hg 0 (by omega)) (ho 0 (by omega))
    have hokay (k : Nat) (hk : k < n) : t.OkayIn 0 ((t.pool p).tailAddr (8 * k)) 64 := by
      rw [ht.pool, Pool.spilled_tailAddr]
      exact ht.okay _ _ _ (Nat.add_comm 8 (8 * k) ▸ ho (k + 1) (by omega))
    obtain ⟨u, eu, hu, humem⟩ := ih (group ∘ Nat.succ) (ht.rest hr) (ht.miss.trans hm) (fun k hk => hg (k + 1) (by omega)) hokay
    rw [ht.pool, Pool.spilled_spilled, Nat.add_comm 8, ← Nat.mul_succ] at hu
    refine ⟨u, et.trans eu, ht.trans hu, fun hwf => ?_⟩
    rw [humem (by rw [hmem hwf]; exact memWriteBytes_wf _ _ _ hwf), ht.pool, hmem hwf, Pool.tailWritten_succ]

/-- The oldest handles of the cache, in groups of eight, go to the ring (R273). -/
theorem State.spillHandles_groups {s : State} {p : Nat} (n : Nat) (hr : s.PortsRest) (hm : s.running.miss = none)
    (hn : 8 * n ≤ (s.pool p).cache.length) (ho : ∀ k, k < n → s.OkayIn 0 ((s.pool p).tailAddr (8 * k)) 64) :
    ∃ t, s.spillHandles p (8 * n) = t ∧ s.RingMoves t p ((s.pool p).spilled (8 * n)) ∧
      (s.mem.wf = true → t.mem = (s.pool p).tailWritten n (fun k => ((s.pool p).cache.drop (8 * k)).take 8) s.mem) := by
  have hchunks : chunks 8 (8 * n) ((s.pool p).cache.take (8 * n)) =
      (List.range n).map (fun k => ((s.pool p).cache.drop (8 * k)).take 8) := by
    rw [chunks_of_length (by omega) n (by rw [List.length_take]; omega) (by omega)]
    refine List.map_congr_left fun k hk => ?_
    have hk := List.mem_range.mp hk
    rw [List.drop_take, List.take_take, Nat.min_eq_left (by omega)]
  unfold State.spillHandles
  rw [hchunks]
  exact State.ringWrite_groups n _ hr hm (fun k hk => by rw [List.length_take, List.length_drop]; omega) ho

/-! ## Handles from the ring -/

/-- The handles of a granule of the ring (R273). -/
def granuleHandles (m : Mem) (addr : Nat) : List Nat := (List.range 8).map (fun j => leAt (memReadBytes m addr 64) (8 * j) 8)

/-- The address of the ring's slot `k` after its head. -/
def Pool.headAddr (x : Pool) (k : Nat) : Nat := x.ring + 8 * ((x.ringHead + k) % 2 ^ x.log2Ring)

/-- The pool once a granule of handles has come from the ring. -/
def Pool.refilled (x : Pool) (m : Mem) : Pool :=
  { x with
    cache := x.cache ++ granuleHandles m (x.headAddr 0), ringHead := (x.ringHead + 8) % 2 ^ x.log2Ring, ringCount := x.ringCount - 8 }

theorem State.ringRead_succ {s : State} {p : Nat} (n : Nat) (h : s.PortsRest) (hm : s.running.miss = none) (hc : 8 ≤ (s.pool p).ringCount)
    (ho : s.OkayIn 0 ((s.pool p).headAddr 0) 64) :
    ∃ t, s.ringRead p (n + 1) = t.ringRead p n ∧ s.RingMoves t p ((s.pool p).refilled s.mem) ∧ t.mem = s.mem := by
  obtain ⟨t, e, ht⟩ := h.sysRead_okay hm (w := s.ringParty p) (addr := (s.pool p).headAddr 0) (len := 64)
    (by rw [s.ringParty_port]; exact ho) (by omega)
  refine ⟨t.setPool p ((s.pool p).refilled s.mem), ?_, ht.restWrites.setPool p _, by rw [State.setPool_mem, ht.signals.1]⟩
  unfold Pool.headAddr at e
  rw [Nat.add_zero] at e
  conv_lhs => unfold State.ringRead
  dsimp only
  rw [if_neg (by omega), e]
  rfl

end Sys2Proof.Machine
end

section
/-! Handles from the ring (R273). -/

namespace Sys2Proof.Machine

theorem Pool.refilled_headAddr (x : Pool) (m : Mem) (k : Nat) : (x.refilled m).headAddr k = x.headAddr (8 + k) := by
  unfold Pool.headAddr Pool.refilled
  dsimp only
  rw [Nat.mod_add_mod, Nat.add_assoc]

/-- The pool once `n` granules of handles have come from the ring. -/
def Pool.refills (x : Pool) (m : Mem) : Nat → Pool
  | 0 => x
  | n + 1 => (x.refilled m).refills m n

/-- Granules of handles come from the ring, one after the other. -/
theorem State.ringRead_granules {p : Nat} (n : Nat) : ∀ {s : State}, s.PortsRest → s.running.miss = none → 8 * n ≤ (s.pool p).ringCount →
    (∀ k, k < n → s.OkayIn 0 ((s.pool p).headAddr (8 * k)) 64) →
    ∃ t, s.ringRead p n = t ∧ s.RingMoves t p ((s.pool p).refills s.mem n) ∧ t.mem = s.mem := by
  induction n with
  | zero => exact fun {s} _ _ _ _ => ⟨s, rfl, .refl s p, rfl⟩
  | succ n ih =>
    intro s hr hm hc ho
    obtain ⟨t, et, ht, hmem⟩ := State.ringRead_succ n hr hm (by omega) (ho 0 (by omega))
    have hcount : 8 * n ≤ (t.pool p).ringCount := by
      rw [ht.pool]
      exact Nat.le_sub_of_add_le (by omega)
    have hokay (k : Nat) (hk : k < n) : t.OkayIn 0 ((t.pool p).headAddr (8 * k)) 64 := by
      rw [ht.pool, Pool.refilled_headAddr]
      exact ht.okay _ _ _ (Nat.add_comm 8 (8 * k) ▸ ho (k + 1) (by omega))
    obtain ⟨u, eu, hu, humem⟩ := ih (ht.rest hr) (ht.miss.trans hm) hcount hokay
    rw [ht.pool, hmem] at hu
    exact ⟨u, et.trans eu, ht.trans hu, humem.trans hmem⟩

/-- The cache, the head and the count of a pool's ring after some granules. -/
theorem Pool.refills_succ (m : Mem) (n : Nat) : ∀ x : Pool, x.refills m (n + 1) = { x with
    cache := x.cache ++ (List.range (n + 1)).flatMap (fun k => granuleHandles m (x.headAddr (8 * k))),
    ringHead := (x.ringHead + 8 * (n + 1)) % 2 ^ x.log2Ring, ringCount := x.ringCount - 8 * (n + 1) } := by
  induction n with
  | zero =>
    intro x
    rw [List.range_one, List.flatMap_singleton]
    rfl
  | succ n ih =>
    intro x
    rw [Pool.refills, ih, List.range_succ_eq_map (n := n + 1), List.flatMap_cons, List.flatMap_map]
    simp only [Pool.refilled_headAddr, Nat.mul_succ, Nat.add_comm 8, Nat.mul_zero]
    unfold Pool.refilled
    dsimp only
    rw [List.append_assoc, Nat.mod_add_mod, Nat.sub_sub, Nat.add_assoc, Nat.add_comm 8]

end Sys2Proof.Machine
end

section
/-! The commands of the handle cache (R273). -/

namespace Sys2Proof.Machine

/-- A state that pool traffic has reached, with the notes of the state before. -/
theorem State.OnPoolAccess.noted {u t : State} (h : u.start.OnPoolAccess t) : ({ t with running := u.running } : State) = { u with
    mem := t.mem, ports := t.ports, pools := t.pools, tel := { u.tel with cnt := t.tel.cnt } } := by
  unfold State.OnPoolAccess at h
  rw [h]
  rfl

/-- A refill of the cache, where it is due. -/
def State.refillDue (p : Nat) (s : State) : State :=
  if s.live && (s.pool p).enabled && (s.pool p).cache.length < 16 then s.ringRead p 4 else s

/-- A spill of the cache, where it is due. -/
def State.spillDue (p : Nat) (s : State) : State :=
  if s.live && (s.pool p).enabled && 48 < (s.pool p).cache.length then s.spillHandles p 32 else s

section
variable {p : BitVec 8} {v : MemView} {s : State}

theorem exec_poolCacheRefill_due : (s.seeMem v).After (State.refillDue p.toNat) (exec (.poolCacheRefill p v) s) :=
  State.turn_after (s := s.seeMem v) (body := fun u => .next (u.refillDue p.toNat)) rfl

theorem exec_poolCacheSpill_due : (s.seeMem v).After (State.spillDue p.toNat) (exec (.poolCacheSpill p v) s) :=
  State.turn_after (s := s.seeMem v) (body := fun u => .next (u.spillDue p.toNat)) rfl

theorem exec_poolCacheRefill_full (hc : 16 ≤ (s.pool p.toNat).cache.length) : exec (.poolCacheRefill p v) s = .next (s.seeMem v) := by
  refine exec_poolCacheRefill_due.unchanged (if_neg ?_)
  simp only [Bool.and_eq_true, decide_eq_true_eq]
  exact fun h => absurd h.2 hc.not_gt

theorem exec_poolCacheSpill_few (hc : (s.pool p.toNat).cache.length ≤ 48) : exec (.poolCacheSpill p v) s = .next (s.seeMem v) := by
  refine exec_poolCacheSpill_due.unchanged (if_neg ?_)
  simp only [Bool.and_eq_true, decide_eq_true_eq]
  exact fun h => absurd h.2 hc.not_gt

variable (hl : s.live = true) (he : (s.pool p.toNat).enabled = true)
include hl he

theorem exec_poolCacheRefill (hc : (s.pool p.toNat).cache.length < 16) :
    (s.seeMem v).After (State.ringRead p.toNat 4) (exec (.poolCacheRefill p v) s) := by
  refine exec_poolCacheRefill_due.congr (if_pos ?_)
  simp only [Bool.and_eq_true, decide_eq_true_eq]
  exact ⟨⟨hl, he⟩, hc⟩

theorem exec_poolCacheSpill (hc : 48 < (s.pool p.toNat).cache.length) :
    (s.seeMem v).After (State.spillHandles p.toNat 32) (exec (.poolCacheSpill p v) s) := by
  refine exec_poolCacheSpill_due.congr (if_pos ?_)
  simp only [Bool.and_eq_true, decide_eq_true_eq]
  exact ⟨⟨hl, he⟩, hc⟩

/-- At rest a refill takes four granules of the ring, 32 handles. -/
theorem exec_poolCacheRefill_rest (hc : (s.pool p.toNat).cache.length < 16) (h32 : 32 ≤ (s.pool p.toNat).ringCount)
    (ho : ∀ k, k < 4 → (s.seeMem v).OkayIn 0 ((s.pool p.toNat).headAddr (8 * k)) 64) (hr : (s.seeMem v).PortsRest) :
    ∃ t : State, exec (.poolCacheRefill p v) s = .next t ∧ (s.seeMem v).SamePorts t ∧
      t = { s.seeMem v with pools := t.pools, ports := t.ports, tel := { s.tel with cnt := t.tel.cnt } } ∧
      t.pool p.toNat = (s.pool p.toNat).refills (s.seeMem v).mem 4 := by
  obtain ⟨t, et, ht, hmem⟩ := State.ringRead_granules (s := (s.seeMem v).start) (p := p.toNat) 4 hr rfl h32 ho
  refine ⟨_, (exec_poolCacheRefill hl he hc).done et ht.miss, ht.ports, ?_, ht.pool⟩
  rw [ht.only.noted, hmem]
  rfl

/-- At rest a spill gives the oldest 32 handles of the cache to the ring. -/
theorem exec_poolCacheSpill_rest (hc : 48 < (s.pool p.toNat).cache.length) (hcan : s.Canonical)
    (ho : ∀ k, k < 4 → (s.seeMem v).OkayIn 0 ((s.pool p.toNat).tailAddr (8 * k)) 64) (hr : (s.seeMem v).PortsRest) :
    ∃ t : State, exec (.poolCacheSpill p v) s = .next t ∧ (s.seeMem v).SamePorts t ∧
      t.mem = (s.pool p.toNat).tailWritten 4 (fun k => ((s.pool p.toNat).cache.drop (8 * k)).take 8) (s.seeMem v).mem ∧
      t = { s.seeMem v with mem := t.mem, pools := t.pools, ports := t.ports, tel := { s.tel with cnt := t.tel.cnt } } ∧
      t.pool p.toNat = (s.pool p.toNat).spilled 32 := by
  have h32 : 8 * 4 ≤ (s.pool p.toNat).cache.length := by omega
  obtain ⟨t, et, ht, hmem⟩ := State.spillHandles_groups (s := (s.seeMem v).start) (p := p.toNat) 4 hr rfl h32 ho
  exact ⟨_, (exec_poolCacheSpill hl he hc).done et ht.miss, ht.ports, hmem (foldWrites_wf _ _ hcan), ht.only.noted, ht.pool⟩

end

end Sys2Proof.Machine
end

section
/-! Buffers asked for and granted (R275, R279). -/

namespace Sys2Proof.Machine

/-- Only pools and counters differ. -/
def State.OnPools (s t : State) : Prop := t = { s with pools := t.pools, tel := { s.tel with cnt := t.tel.cnt } }

theorem State.OnPools.trans {a b c : State} (h : a.OnPools b) (k : b.OnPools c) : a.OnPools c := by
  unfold State.OnPools at *
  rw [k, h]

theorem State.watchPools_onPools (s : State) : s.OnPools s.watchPools := s.watchPools_watches.frame

theorem State.OnPools.miss {s t : State} (h : s.OnPools t) : t.running.miss = s.running.miss := by rw [h]

theorem State.OnPools.noted {u t : State} (h : u.start.OnPools t) : u.OnPools { t with running := u.running } := by
  unfold State.OnPools at *
  rw [h]
  rfl

/-- What its watchdog times is not among the handles, the holders and the waits of a pool. -/
theorem Pool.same_of_untimed {x y : Pool} (h : x.untimed = y.untimed) :
    x.cache = y.cache ∧ x.holders = y.holders ∧ x.waits = y.waits ∧ x.ringCount = y.ringCount :=
  ⟨(congrArg Pool.cache h).trans rfl, (congrArg Pool.holders h).trans rfl, (congrArg Pool.waits h).trans rfl,
    (congrArg Pool.ringCount h).trans rfl⟩

/-- Work on memory, ports and pools that ends with a look at the watchdogs (R280). -/
theorem State.After.watched {u r : State} {f : State → State} {o : Out} (h : u.After f o) (e : f u.start = r.watchPools)
    (hr : u.start.OnPoolAccess r) (hm : r.running.miss = none) :
    ∃ t, o = .next t ∧ t = { u with mem := t.mem, ports := t.ports, pools := t.pools, tel := { u.tel with cnt := t.tel.cnt } } ∧
      t.mem = r.mem ∧ t.ports = r.ports ∧ ∀ p, (t.pool p).untimed = (r.pool p).untimed := by
  obtain ⟨hframe, hpools⟩ := r.watchPools_watches
  have honly : u.start.OnPoolAccess r.watchPools := hr.trans (by rw [State.OnPoolAccess, hframe])
  exact ⟨_, h.done e (by rw [hframe]; exact hm), honly.noted, by rw [hframe], by rw [hframe], hpools⟩

section
variable {s : State} {p : Nat}

theorem State.grantable_reserved {w : PoolWait} {ws : List PoolWait} {h : Nat} {hs : List Nat} (hw : (s.pool p).waits = w :: ws)
    (hc : (s.pool p).cache = h :: hs) (he : (s.pool p).enabled = true) (hr : s.frame.openMode = true ∨
      (s.pool p).heldBy w.stream < s.reservation (s.stream (w.stream / 1024) (w.stream % 1024)).graph (s.pool p).localNo) :
    s.grantable p = true := by
  unfold State.grantable
  dsimp only
  rw [hw, hc]
  rcases hr with hr | hr <;> simp [he, hr]

theorem State.grantable_idle (h : (s.pool p).waits = [] ∨ (s.pool p).cache = []) : s.grantable p = false := by
  unfold State.grantable
  dsimp only
  rcases h with h | h
  · rw [h]
  · rw [h]
    cases (s.pool p).waits <;> rfl

/-- A pool whose oldest waiting allocation has been granted its first free handle (R275). -/
def Pool.granted (x : Pool) (w : PoolWait) (now : Nat) : Pool := { x with
  waits := x.waits.tail, cache := x.cache.tail, holders := x.holders ++ [⟨x.cache.headD 0, [(w.stream, w.sampleIx)], false⟩],
  stallSince := now, stalled := false }

theorem State.grant_pool {w : PoolWait} {ws : List PoolWait} {h : Nat} {hs : List Nat} (hw : (s.pool p).waits = w :: ws)
    (hc : (s.pool p).cache = h :: hs) :
    s.OnPools (s.grant p) ∧ (s.grant p).pool p = (s.pool p).granted w s.now := by
  have e : s.grant p = ((s.restartStall p).setPool p ((s.pool p).granted w s.now)).count 6 p 0 1 := by
    unfold State.grant Pool.granted
    dsimp only
    rw [hw, hc]
    rfl
  rw [e]
  exact ⟨rfl, State.setPool_pool_same ..⟩

end

end Sys2Proof.Machine
end

section
/-! POOL_ALLOCATE and POOL_GRANT (R275, R276, R279). -/

namespace Sys2Proof.Machine

/-! ## A stream asks for a buffer -/

/-- The pool with one more waiting allocation. -/
def Pool.asked (x : Pool) (w : PoolWait) (now : Nat) : Pool :=
  { x with waits := x.waits ++ [w], stallSince := if x.waits.isEmpty then now else x.stallSince }

/-- An allocation joins those that wait. -/
def State.asks (p : Nat) (w : PoolWait) (s : State) : State := s.setPool p ((s.pool p).asked w s.now)

/-- An allocation that finds none before it may be granted at once (R275, R279). -/
def State.allocate (p : Nat) (w : PoolWait) (s : State) : State :=
  if (s.asks p w).grantable p && (s.pool p).waits.isEmpty then (s.asks p w).grant p else (s.asks p w).watchPools

section
variable {s : State} {p : Nat} {w : PoolWait}

theorem State.asks_onPools (p : Nat) (w : PoolWait) (s : State) : s.OnPools (s.asks p w) := rfl

theorem State.asks_pool (p : Nat) (w : PoolWait) (s : State) : (s.asks p w).pool p = (s.pool p).asked w s.now := State.setPool_pool_same ..

/-- With no allocation before it and a free handle, a stream that may have one is granted it. -/
theorem State.allocate_granted {h : Nat} {hs : List Nat} (he : (s.pool p).enabled = true) (hw : (s.pool p).waits = [])
    (hc : (s.pool p).cache = h :: hs) (hr : s.frame.openMode = true ∨ (s.pool p).heldBy w.stream <
      s.reservation (s.stream (w.stream / 1024) (w.stream % 1024)).graph (s.pool p).localNo) :
    s.OnPools (s.allocate p w) ∧ (s.allocate p w).pool p = { s.pool p with
      waits := [], cache := hs, holders := (s.pool p).holders ++ [⟨h, [(w.stream, w.sampleIx)], false⟩], stallSince := s.now,
      stalled := false } := by
  have hpool := s.asks_pool p w
  have hwaits : ((s.asks p w).pool p).waits = [w] := by rw [hpool, Pool.asked, hw]; rfl
  have hcache : ((s.asks p w).pool p).cache = h :: hs := by rw [hpool]; exact hc
  have hgrant : (s.asks p w).grantable p = true :=
    State.grantable_reserved hwaits hcache (by rw [hpool]; exact he) (by rw [hpool]; exact hr)
  obtain ⟨honly, hgranted⟩ := State.grant_pool hwaits hcache
  rw [State.allocate, if_pos (by rw [hgrant, hw]; rfl)]
  refine ⟨(s.asks_onPools p w).trans honly, hgranted.trans ?_⟩
  rw [hpool]
  unfold Pool.granted Pool.asked
  rw [hw, hc]
  rfl

/-- With no free handle it waits. -/
theorem State.allocate_waits (hw : (s.pool p).waits = []) (hc : (s.pool p).cache = []) :
    s.OnPools (s.allocate p w) ∧ ((s.allocate p w).pool p).waits = [w] ∧ ((s.allocate p w).pool p).cache = [] ∧
      ((s.allocate p w).pool p).holders = (s.pool p).holders := by
  have hpool := s.asks_pool p w
  have hgrant : (s.asks p w).grantable p = false := State.grantable_idle (.inr (by rw [hpool]; exact hc))
  have hwatch := (s.asks p w).watchPools_watches.pools p
  rw [hpool] at hwatch
  obtain ⟨hcache, hholders, hwaits, -⟩ := Pool.same_of_untimed hwatch
  rw [State.allocate, if_neg (by rw [hgrant]; exact Bool.false_ne_true)]
  refine ⟨(s.asks_onPools p w).trans (State.watchPools_onPools _), hwaits.trans ?_, hcache.trans hc, hholders⟩
  rw [Pool.asked, hw]
  rfl

/-- Work on pools alone is done at once. -/
theorem State.After.onPools {f : State → State} {o : Out} (h : s.After f o) (hf : s.start.OnPools (f s.start)) :
    ∃ t, o = .next t ∧ s.OnPools t ∧ t.pools = (f s.start).pools :=
  ⟨_, h.done rfl hf.miss, hf.noted, rfl⟩

end

/-! ## Further holders of a buffer -/

/-- Where a buffer's count of holders stands (R276). -/
def Pool.countAddr (x : Pool) (handle : Nat) : Nat := x.refs + 4 * x.slotOf handle

/-- The pool once some streams have joined the holders of a buffer (R276). -/
def Pool.joined (x : Pool) (handle : Nat) (new : List (Nat × Nat)) : Pool :=
  { x with holders := x.holders.map (fun z => if z.handle = handle then { z with users := z.users ++ new, shared := true } else z) }

/-- The streams that join the holders of a buffer, each with its sample (R276). -/
def State.joiners (s : State) (h : Holder) (keys : List Nat) : List (Nat × Nat) :=
  (keys.filter (fun k => !h.streams.contains k)).eraseDups.map (fun k => (k, (s.stream (k / 1024) (k % 1024)).position))

/-- The count of a buffer's holders is `old`, and goes to `old + n` modulo 2^32 (R125, R276). -/
def State.counted (s : State) (addr n : Nat) : Mem :=
  memWriteBytes s.mem addr (natLe 4 ((leNat (memReadBytes s.mem addr 4) + n) % 2 ^ 32))

/-- A FETCH_ADD_32 of the pool's counts that has its slot and is answered with OKAY (R125, R135). -/
theorem State.sysAdd_counted {s : State} {k g addr n : Nat} (hm : s.running.miss = none) (ho : s.OkayAt 0 addr 4)
    (h : s.HasSlot (s.keyParty k g) .fetchAdd addr 4 (BitVec.ofNat 32 n) []) :
    ∃ t, s.sysAdd (s.keyParty k g) addr n = (.okay, leNat (memReadBytes s.mem addr 4), t) ∧ s.SamePorts t ∧ t.running.miss = none ∧
      State.OnPorts { s with mem := s.counted addr n } t := by
  obtain ⟨t, e, hsame, hmiss, hports⟩ := State.sysAdd_okay hm (by rw [s.keyParty_port]; exact ho) h
  rw [List.take_of_length_le (memReadBytes_length ..).le] at e hports
  rw [raised_word] at hports
  exact ⟨t, e, hsame, hmiss, hports⟩

section
variable {s : State} {p handle : Nat} {keys : List Nat} {h : Holder} {a : Nat × Nat} {l : List (Nat × Nat)}

/-- The number by which a buffer's count rises: the streams that join, and at the first time those that hold it already (R276). -/
def Holder.raise (h : Holder) (n : Nat) : Nat := if h.shared then n else h.users.length + n

/-- Streams that join the holders of a buffer (R276). -/
theorem State.shareBuffer_joined (hh : (s.pool p).holders.find? (fun z => z.handle == handle) = some h) (hn : s.joiners h keys = a :: l)
    (hmax : h.users.length + (a :: l).length ≤ 65535) (hm : s.running.miss = none) (ho : s.OkayAt 0 ((s.pool p).countAddr handle) 4)
    (hs : s.HasSlot (s.keyParty a.1 a.2) .fetchAdd ((s.pool p).countAddr handle) 4 (BitVec.ofNat 32 (h.raise (a :: l).length)) [])
    (hold : leNat (memReadBytes s.mem ((s.pool p).countAddr handle) 4) + h.raise (a :: l).length ≤ 0xFFFF) :
    ∃ t, s.shareBuffer p keys handle = t.setPool p ((s.pool p).joined handle (a :: l)) ∧ s.SamePorts t ∧ t.running.miss = none ∧
      State.OnPorts { s with mem := s.counted ((s.pool p).countAddr handle) (h.raise (a :: l).length) } t := by
  obtain ⟨t, e, hsame, hmiss, hports⟩ := State.sysAdd_counted hm ho hs
  refine ⟨t, ?_, hsame, hmiss, hports⟩
  have hpool : t.pool p = s.pool p := by rw [hports]; rfl
  unfold State.joiners at hn
  unfold Holder.raise Pool.countAddr at e hold
  unfold State.shareBuffer
  dsimp only
  rw [hh]
  dsimp only
  rw [hn]
  dsimp only
  rw [if_neg hmax.not_gt, e]
  dsimp only
  rw [if_neg hold.not_gt, State.modPool_eq, hpool]
  simp only [beq_iff_eq]
  rfl

end

section
variable {s : State} {fn : BitVec 6} {i : BitVec 8} {p : Nat} (hl : s.live = true) (hp : s.poolNo fn.toNat i.toNat = some p)
  (he : (s.pool p).enabled = true) (hf : (s.pool p).fault = false)

section
variable {stream : BitVec 10} (h0 : (s.stream fn.toNat stream.toNat).st ≠ .free) (h1 : (s.stream fn.toNat stream.toNat).st ≠ .halted)
include hl hp he hf h0 h1

theorem exec_poolAllocate_one : s.After (State.allocate p ⟨sKey fn.toNat stream.toNat, (s.stream fn.toNat stream.toNat).position, s.now⟩)
    (exec (.poolAllocate fn i stream none) s) := by
  change s.After _ (execPoolAllocate fn i stream none s)
  unfold execPoolAllocate
  refine State.turn_after ?_
  dsimp only
  rw [show s.start.poolNo fn.toNat i.toNat = some p from hp]
  dsimp only
  rw [if_neg (by simpa using ⟨⟨hl, h0⟩, h1⟩), if_neg (by simpa using hf), if_neg (by simpa using he)]
  rfl

theorem exec_poolAllocate_share {handle : BitVec 64} {others : List (BitVec 10)} :
    s.After (fun u => (u.shareBuffer p ((stream.toNat :: (others.map (·.toNat)).filter
        (fun j => (s.stream fn.toNat j).st != .free && (s.stream fn.toNat j).st != .halted)).map (sKey fn.toNat)) handle.toNat).watchPools)
      (exec (.poolAllocate fn i stream (some (handle, others))) s) := by
  change s.After _ (execPoolAllocate fn i stream (some (handle, others)) s)
  unfold execPoolAllocate
  refine State.turn_after ?_
  dsimp only
  rw [show s.start.poolNo fn.toNat i.toNat = some p from hp]
  dsimp only
  rw [if_neg (by simpa using ⟨⟨hl, h0⟩, h1⟩), if_neg (by simpa using hf), if_neg (by simpa using he)]
  rfl

/-- Where a handle is free and none waits, a stream that may have one is granted it (R275, R279). -/
theorem exec_poolAllocate_granted {h : Nat} {hs : List Nat} (hw : (s.pool p).waits = []) (hc : (s.pool p).cache = h :: hs)
    (hr : s.frame.openMode = true ∨ (s.pool p).heldBy (sKey fn.toNat stream.toNat) <
      s.reservation (s.stream fn.toNat stream.toNat).graph (s.pool p).localNo) :
    ∃ t, exec (.poolAllocate fn i stream none) s = .next t ∧ s.OnPools t ∧ t.pool p = { s.pool p with
      waits := [], cache := hs,
      holders := (s.pool p).holders ++ [⟨h, [(sKey fn.toNat stream.toNat, (s.stream fn.toNat stream.toNat).position)], false⟩],
      stallSince := s.now, stalled := false } := by
  obtain ⟨honly, hpool⟩ := State.allocate_granted (s := s.start)
    (w := ⟨sKey fn.toNat stream.toNat, (s.stream fn.toNat stream.toNat).position, s.now⟩) he hw hc (by
      rw [show sKey fn.toNat stream.toNat / 1024 = fn.toNat by unfold sKey; omega,
        show sKey fn.toNat stream.toNat % 1024 = stream.toNat by unfold sKey; omega]
      exact hr)
  obtain ⟨t, et, ht, hpools⟩ := (exec_poolAllocate_one hl hp he hf h0 h1).onPools honly
  refine ⟨t, et, ht, ?_⟩
  unfold State.pool at hpool ⊢
  rw [hpools, hpool]
  rfl

/-- With no free handle it waits (R275). -/
theorem exec_poolAllocate_waits (hw : (s.pool p).waits = []) (hc : (s.pool p).cache = []) :
    ∃ t, exec (.poolAllocate fn i stream none) s = .next t ∧ s.OnPools t ∧
      (t.pool p).waits = [⟨sKey fn.toNat stream.toNat, (s.stream fn.toNat stream.toNat).position, s.now⟩] ∧ (t.pool p).cache = [] ∧
      (t.pool p).holders = (s.pool p).holders := by
  obtain ⟨honly, hleft⟩ := State.allocate_waits (s := s.start)
    (w := ⟨sKey fn.toNat stream.toNat, (s.stream fn.toNat stream.toNat).position, s.now⟩) hw hc
  obtain ⟨t, et, ht, hpools⟩ := (exec_poolAllocate_one hl hp he hf h0 h1).onPools honly
  refine ⟨t, et, ht, ?_⟩
  unfold State.pool at hleft ⊢
  rw [hpools]
  exact hleft

/-- Streams join the holders of a buffer: its count is raised, and nothing else is done (R276). -/
theorem exec_poolAllocate_joined {handle : BitVec 64} {others : List (BitVec 10)} {keys : List Nat} {h : Holder} {a : Nat × Nat}
    {l : List (Nat × Nat)} {n : Nat} (hkeys : keys = (stream.toNat :: (others.map (·.toNat)).filter
      (fun j => (s.stream fn.toNat j).st != .free && (s.stream fn.toNat j).st != .halted)).map (sKey fn.toNat))
    (hh : (s.pool p).holders.find? (fun z => z.handle == handle.toNat) = some h) (hnew : s.joiners h keys = a :: l)
    (hmax : h.users.length + (a :: l).length ≤ 65535) (hn : h.raise (a :: l).length = n)
    (ho : s.OkayAt 0 ((s.pool p).countAddr handle.toNat) 4)
    (hs : s.HasSlot (s.keyParty a.1 a.2) .fetchAdd ((s.pool p).countAddr handle.toNat) 4 (BitVec.ofNat 32 n) [])
    (hold : leNat (memReadBytes s.mem ((s.pool p).countAddr handle.toNat) 4) + n ≤ 0xFFFF) :
    ∃ t, exec (.poolAllocate fn i stream (some (handle, others))) s = .next t ∧
      t.mem = s.counted ((s.pool p).countAddr handle.toNat) n ∧
      (t.pool p).holders = ((s.pool p).joined handle.toNat (a :: l)).holders ∧ (t.pool p).cache = (s.pool p).cache ∧ s.SamePorts t ∧
      t = { s with mem := t.mem, ports := t.ports, pools := t.pools, tel := { s.tel with cnt := t.tel.cnt } } := by
  subst hkeys hn
  obtain ⟨t, e, hsame, hmiss, hports⟩ := State.shareBuffer_joined (s := s.start) hh hnew hmax rfl ho hs hold
  obtain ⟨r, er⟩ : ∃ r, r = t.setPool p ((s.pool p).joined handle.toNat (a :: l)) := ⟨_, rfl⟩
  have hpool : r.pool p = (s.pool p).joined handle.toNat (a :: l) := by rw [er]; exact State.setPool_pool_same ..
  have honly : s.start.OnPoolAccess r := by
    rw [er, hports]
    rfl
  obtain ⟨w, ew, honly, hmem, hp, hpools⟩ := (exec_poolAllocate_share hl hp he hf h0 h1).watched
    ((congrArg State.watchPools e).trans (by rw [er]; rfl)) honly (by rw [er]; exact hmiss)
  have hwatch := hpools p
  rw [hpool] at hwatch
  obtain ⟨hcache, hholders, -, -⟩ := Pool.same_of_untimed hwatch
  refine ⟨w, ew, hmem.trans ?_, hholders, hcache, hsame.of_ports (hp.trans ?_), honly⟩
  · rw [er, State.setPool_mem, hports]
    rfl
  · rw [er]
    rfl

end

/-! ## The oldest waiting allocation -/

/-- A video bay that keeps nothing has nothing to wake. -/
theorem State.wakeClips_none {s : State} {bay : Nat} (h : s.bayKind bay = 3 → (s.bay bay).held = []) : s.wakeClips bay = s := by
  unfold State.wakeClips
  dsimp only
  by_cases hk : s.bayKind bay = 3
  · rw [h hk]
    exact if_pos (.inr (.inl rfl))
  · exact if_pos (.inl hk)

theorem State.forEach_unchanged {α : Type} {f : α → State → State} {s : State} :
    ∀ {l : List α}, (∀ a ∈ l, f a s = s) → s.forEach l f = s
  | [], _ => rfl
  | a :: l, h => by
    rw [show s.forEach (a :: l) f = (f a s).forEach l f from rfl, h a List.mem_cons_self]
    exact State.forEach_unchanged fun b hb => h b (List.mem_cons_of_mem a hb)

/-- Work that changes nothing leaves the state as it was, tried or not. -/
theorem State.attempt_unchanged {α : Type} {s : State} {body : State → α × State} (h : (body s.start).2 = s.start) :
    (s.attempt body).2 = s := by
  unfold State.attempt
  by_cases hm : s.running.miss.isSome = true
  · rw [if_pos hm]
  · rw [if_neg hm]
    dsimp only
    rw [h, if_neg (show ¬ s.start.running.miss.isSome = true from Bool.false_ne_true), show s.start.running.made = [] from rfl, List.append_nil]
    dsimp only
    rw [ite_self]
    rfl

include hp

theorem exec_poolGrant_idle (h : (s.pool p).waits = [] ∨ (s.pool p).cache = []) : exec (.poolGrant fn i) s = .next s := by
  change execPoolGrant fn i s = .next s
  unfold execPoolGrant
  rw [hp]
  dsimp only
  rw [State.grantable_idle h, Bool.and_false]
  rfl

include hl

/-- The oldest waiting allocation takes the first free handle; no clip waits for it (R275). -/
theorem exec_poolGrant_first {w : PoolWait} {ws : List PoolWait} {h : Nat} {hs : List Nat} (he : (s.pool p).enabled = true)
    (hw : (s.pool p).waits = w :: ws) (hc : (s.pool p).cache = h :: hs) (hr : s.frame.openMode = true ∨
      (s.pool p).heldBy w.stream < s.reservation (s.stream (w.stream / 1024) (w.stream % 1024)).graph (s.pool p).localNo)
    (hb : ∀ k, k < s.nBays → s.bayKind k = 3 → (s.bay k).held = []) :
    ∃ t, exec (.poolGrant fn i) s = .next t ∧ s.OnPools t ∧ (t.pool p).waits = ws ∧ (t.pool p).cache = hs ∧
      (t.pool p).holders = (s.pool p).holders ++ [⟨h, [(w.stream, w.sampleIx)], false⟩] := by
  obtain ⟨hgrant, hpool⟩ := State.grant_pool hw hc
  have honly := hgrant.trans (s.grant p).watchPools_onPools
  have hwake : ((s.grant p).watchPools.start).forEach (List.range (s.grant p).watchPools.start.nBays) State.wakeClips =
      (s.grant p).watchPools.start := by
    refine State.forEach_unchanged fun k hk => State.wakeClips_none ?_
    have hk := List.mem_range.mp hk
    unfold State.OnPools at honly
    rw [honly] at hk ⊢
    exact hb k hk
  obtain ⟨hcache, hholders, hwaits, -⟩ := Pool.same_of_untimed
    (((s.grant p).watchPools_watches.pools p).trans (congrArg Pool.untimed hpool))
  unfold Pool.granted at hcache hholders hwaits
  rw [hw] at hwaits
  rw [hc] at hcache hholders
  refine ⟨_, ?_, honly, hwaits, hcache, hholders⟩
  change execPoolGrant fn i s = _
  unfold execPoolGrant
  rw [hp]
  dsimp only
  rw [if_pos (by rw [hl, State.grantable_reserved hw hc he hr]; rfl), State.attempt_unchanged hwake]

end

end Sys2Proof.Machine
end

section
/-! POOL_RELEASE (R276, R277). -/

namespace Sys2Proof.Machine

/-! ## A release that has to wait (log 4) -/

theorem State.watchPools_running (s : State) : s.watchPools.running = s.running := by rw [s.watchPools_watches.frame]

theorem State.haltCore_running (f i code detail : Nat) (s : State) : (s.haltCore f i code detail).running = s.running := by
  unfold State.haltCore
  dsimp only
  split
  · rfl
  · split
    · exact State.logTo_running ..
    · rw [State.watchPools_running]
      exact State.logTo_running ..

theorem State.streamError_running (f i code detail : Nat) (s : State) : (s.streamError f i code detail).running = s.running := by
  unfold State.streamError
  dsimp only
  split
  · exact State.haltCore_running ..
  · exact State.haltCore_running ..

theorem State.attempt_missed {α : Type} {s : State} (hm : s.running.miss.isSome = true) (body : State → α × State) :
    s.attempt body = (none, s) := if_pos hm

/-- While a command has to wait, no record of a ring goes out. -/
theorem State.relaySettle_missed (n : Nat) : ∀ {s : State} (skip : List Nat), s.running.miss.isSome = true → s.relaySettle n skip = s := by
  induction n with
  | zero => exact fun _ _ => rfl
  | succ n ih =>
    intro s skip hm
    unfold State.relaySettle
    split
    · rfl
    · split
      · rfl
      · rw [State.attempt_missed hm]
        exact ih _ hm

/-- A pool's fault leaves the wait of the running command as it was noted. -/
theorem State.poolFault_running {p code detail : Nat} {s : State} (hm : s.running.miss.isSome = true) :
    (s.poolFault p code detail).running = s.running := by
  unfold State.poolFault
  dsimp only
  generalize hu : (State.logTo (some (s.pool p).fn) code 4 4 (s.pool p).localNo 0xFE detail _) = u
  have hlog : u.running = s.running := by
    rw [← hu]
    exact State.logTo_running ..
  have hhalts : (u.forEach (s.pool p).waits (fun w s => s.streamError (w.stream / 1024) (w.stream % 1024) stAccessDenied 0)).running =
      s.running :=
    List.foldlRecOn _ _ (motive := fun t : State => t.running = s.running) hlog fun t ht w _ =>
      (State.streamError_running ..).trans ht
  unfold State.relays
  rw [State.relaySettle_missed _ _ (by rw [hhalts]; exact hm)]
  exact hhalts

/-- FETCH_ADD_32 of a pool's counts that has no slot (R125). -/
theorem State.sysAdd_noSlot {s : State} {k g addr n : Nat} (hon : s.running.on = true) (hm : s.running.miss = none)
    (hup : s.portUp 0 = true) (h : s.NoSlot (s.keyParty k g) .fetchAdd addr 4 (BitVec.ofNat 32 n) []) :
    ∃ t, s.sysAdd (s.keyParty k g) addr n = (.decerr, 0, t) ∧ t.running = { s.running with miss := some .blocked } := by
  obtain ⟨t, e, ht⟩ := State.access_noSlot hon hm h
  refine ⟨t, ?_, ht⟩
  unfold State.sysAdd
  rw [if_neg (by rw [s.keyParty_port, hup]; decide), e]

/-- Whether an access has its slot does not turn on what the running command has noted. -/
theorem State.hasSlot_start {s : State} {k g addr len : Nat} {op : SillOp} {x : Word} {d : Bytes}
    (h : s.HasSlot (s.keyParty k g) op addr len x d) : s.start.HasSlot (s.start.keyParty k g) op addr len x d := by
  rw [show s.start.keyParty k g = s.keyParty k g from rfl]
  exact h

theorem State.OnPorts.poolAccess {s t : State} {m : Mem} (h : State.OnPorts { s with mem := m } t) (p : Nat) :
    s.OnPoolAccess t ∧ t.mem = m ∧ t.pool p = s.pool p := by
  unfold State.OnPorts at h
  unfold State.OnPoolAccess
  rw [h]
  exact ⟨rfl, rfl, rfl⟩

/-! ## A buffer is free again -/

/-- The pool once a buffer of it is free again (R276). -/
def Pool.freed (x : Pool) (handle : Nat) : Pool :=
  { x with cache := x.cache ++ [handle], holders := x.holders.filter (fun h => h.handle != handle) }

/-- The pool once a stream holds a shared buffer no more (R276). -/
def Pool.left (x : Pool) (handle key : Nat) : Pool := { x with
  holders := x.holders.map (fun y => if y.handle = handle then { y with users := y.users.filter (·.1 != key) } else y) }

section
variable {s : State} {p handle : Nat}

/-- A handle that the cache has room for joins it. -/
theorem State.freeBuffer_few (hc : (s.pool p).cache.length < 48) :
    s.freeBuffer p handle = (s.setPool p ((s.pool p).freed handle)).count 6 p 1 1 := by
  unfold State.freeBuffer
  rw [State.modPool_eq]
  refine if_neg ?_
  rw [show ∀ t : State, (t.count 6 p 1 1).pool p = t.pool p from fun _ => rfl, State.setPool_pool_same, List.length_append]
  exact Nat.not_lt.mpr hc

/-- Above 48 handles, at rest, the oldest 32 go to the ring (R273). -/
theorem State.freeBuffer_spills (hc : 48 ≤ (s.pool p).cache.length) (hr : s.PortsRest) (hm : s.running.miss = none)
    (ho : ∀ k, k < 4 → s.OkayIn 0 ((s.pool p).tailAddr (8 * k)) 64) :
    ∃ t, s.freeBuffer p handle = t ∧ s.RingMoves t p (((s.pool p).freed handle).spilled 32) := by
  obtain ⟨u, eu⟩ : ∃ u, u = (s.setPool p ((s.pool p).freed handle)).count 6 p 1 1 := ⟨_, rfl⟩
  have hmoves : s.RingMoves u p ((s.pool p).freed handle) := by
    rw [eu]
    exact ⟨rfl, fun _ => rfl, id, rfl, State.setPool_pool_same .., fun _ _ _ => id⟩
  have hlen : 49 ≤ (u.pool p).cache.length := by
    rw [hmoves.pool, Pool.freed, List.length_append]
    exact Nat.succ_le_succ hc
  obtain ⟨t, et, ht, -⟩ := State.spillHandles_groups (s := u) (p := p) 4 (hmoves.rest hr) (hmoves.miss.trans hm) (by omega)
    (fun k hk => by rw [hmoves.pool]; exact hmoves.okay _ _ _ (ho k hk))
  rw [hmoves.pool] at ht
  refine ⟨t, ?_, hmoves.trans ht⟩
  rw [← et, eu] at *
  unfold State.freeBuffer
  rw [State.modPool_eq]
  exact if_pos hlen

/-! ## A holder releases its buffer -/

section
variable {key : Nat} {h : Holder} (he : (s.pool p).enabled = true)
  (hh : (s.pool p).holders.find? (fun z => z.handle == handle && z.streams.contains key) = some h)
include he hh

theorem State.releaseBuffer_unshared (hs : h.shared = false) : s.releaseBuffer p key handle = s.freeBuffer p handle := by
  unfold State.releaseBuffer
  dsimp only
  rw [hh]
  dsimp only
  rw [if_neg (by simp [he]), if_pos (by simp [hs])]

variable (hs : h.shared = true) (hm : s.running.miss = none) (ho : s.OkayAt 0 ((s.pool p).countAddr handle) 4)
include hs hm ho

/-- A release whose addition has no slot has to wait, and nothing of it is noted (log 4). -/
theorem State.releaseBuffer_waits (hon : s.running.on = true)
    (hno : s.NoSlot (s.keyParty key (h.sampleOf key)) .fetchAdd ((s.pool p).countAddr handle) 4 (BitVec.ofNat 32 0xFFFFFFFF) []) :
    (s.releaseBuffer p key handle).running = { s.running with miss := some .blocked } := by
  obtain ⟨t, e, ht⟩ := State.sysAdd_noSlot hon hm ho.1 hno
  unfold Pool.countAddr at e
  unfold State.releaseBuffer
  dsimp only
  rw [hh]
  dsimp only
  rw [if_neg (by simp [he]), if_neg (by simp [hs]), e]
  exact (State.poolFault_running (by rw [ht]; rfl)).trans ht

omit ho hm in
/-- What a release of a shared buffer leaves once its addition is answered with OKAY. -/
theorem State.releaseBuffer_answered {old : Nat} {t : State} (h0 : 0 < old) (hroom : old = 1 → (s.pool p).cache.length < 48)
    (e : s.sysAdd (s.keyParty key (h.sampleOf key)) ((s.pool p).countAddr handle) 0xFFFFFFFF = (.okay, old, t))
    (hpool : t.pool p = s.pool p) :
    s.releaseBuffer p key handle =
      if old = 1 then (t.setPool p ((s.pool p).freed handle)).count 6 p 1 1 else t.setPool p ((s.pool p).left handle key) := by
  unfold Pool.countAddr at e
  unfold State.releaseBuffer
  dsimp only
  rw [hh]
  dsimp only
  rw [if_neg (by simp [he]), if_neg (by simp [hs]), e]
  dsimp only
  rw [if_neg h0.ne']
  by_cases h1 : old = 1
  · rw [if_pos h1, if_pos h1, State.freeBuffer_few (by rw [hpool]; exact hroom h1), hpool]
  · rw [if_neg h1, if_neg h1, State.modPool_eq, hpool]
    simp only [beq_iff_eq]
    rfl

/-- A release of a shared buffer takes one off its count; the last one frees it (R276). -/
theorem State.releaseBuffer_shared {old : Nat} (hv : leNat (memReadBytes s.mem ((s.pool p).countAddr handle) 4) = old) (h0 : 0 < old)
    (hslot : s.HasSlot (s.keyParty key (h.sampleOf key)) .fetchAdd ((s.pool p).countAddr handle) 4 (BitVec.ofNat 32 0xFFFFFFFF) [])
    (hroom : old = 1 → (s.pool p).cache.length < 48) :
    ∃ t, s.releaseBuffer p key handle = t ∧ s.OnPoolAccess t ∧ s.SamePorts t ∧ t.running.miss = none ∧
      t.mem = s.counted ((s.pool p).countAddr handle) 0xFFFFFFFF ∧
      t.pool p = if old = 1 then (s.pool p).freed handle else (s.pool p).left handle key := by
  obtain ⟨t, e, hsame, hmiss, hports⟩ := State.sysAdd_counted hm ho hslot
  obtain ⟨honly, hmem, hpool⟩ := hports.poolAccess p
  rw [hv] at e
  rw [State.releaseBuffer_answered he hh hs h0 hroom e hpool]
  split
  · exact ⟨_, rfl, honly.trans rfl, hsame, hmiss, hmem, State.setPool_pool_same ..⟩
  · exact ⟨_, rfl, honly.trans rfl, hsame, hmiss, hmem, State.setPool_pool_same ..⟩

end

end

/-! ## The command -/

section
variable {fn : BitVec 6} {i : BitVec 8} {stream : BitVec 10} {handle : BitVec 64} {v : MemView} {s : State} {p key : Nat} {h : Holder}
  (hl : s.live = true) (hp : s.poolNo fn.toNat i.toNat = some p) (he : (s.pool p).enabled = true) (hk : sKey fn.toNat stream.toNat = key)
include hl hp hk

theorem exec_poolRelease : (s.seeMem v).After (fun u => (u.releaseBuffer p key handle.toNat).watchPools)
    (exec (.poolRelease fn i stream handle v) s) := by
  subst hk
  change State.After _ _ (execPoolRelease fn i stream handle v s)
  unfold execPoolRelease
  refine State.turn_after ?_
  rw [show (s.seeMem v).start.poolNo fn.toNat i.toNat = some p from hp]
  exact congrArg Host.Outcome.next (if_pos hl)

variable (hh : (s.pool p).holders.find? (fun z => z.handle == handle.toNat && z.streams.contains key) = some h)
include he hh

/-- An unshared buffer that its holder releases is free again (R276); above 48 handles the oldest 32 go to the ring (R273). -/
theorem exec_poolRelease_unshared (hs : h.shared = false) (hroom : (s.pool p).cache.length < 48 ∨ (s.seeMem v).PortsRest ∧
      ∀ k, k < 4 → (s.seeMem v).OkayIn 0 ((s.pool p).tailAddr (8 * k)) 64) :
    ∃ t, exec (.poolRelease fn i stream handle v) s = .next t ∧
      t = { s.seeMem v with mem := t.mem, ports := t.ports, pools := t.pools, tel := { s.tel with cnt := t.tel.cnt } } ∧
      ((s.pool p).cache.length < 48 → (t.pool p).untimed = ((s.pool p).freed handle.toNat).untimed ∧ t.mem = (s.seeMem v).mem ∧
        t.ports = s.ports) ∧
      (48 ≤ (s.pool p).cache.length → (t.pool p).untimed = (((s.pool p).freed handle.toNat).spilled 32).untimed) := by
  have hafter := exec_poolRelease hl hp hk (handle := handle) (v := v)
  have hfree := State.releaseBuffer_unshared (s := (s.seeMem v).start) he hh hs
  by_cases hc : (s.pool p).cache.length < 48
  · obtain ⟨t, et, honly, hmem, hports, hpools⟩ := hafter.watched (congrArg State.watchPools (hfree.trans (State.freeBuffer_few hc))) rfl rfl
    refine ⟨t, et, honly, fun _ => ⟨(hpools p).trans (congrArg Pool.untimed (State.setPool_pool_same ..)), hmem, hports⟩,
      fun h => absurd hc h.not_gt⟩
  · obtain ⟨hr, ho⟩ := hroom.resolve_left hc
    obtain ⟨r, er, hmoves⟩ := State.freeBuffer_spills (s := (s.seeMem v).start) (handle := handle.toNat) (Nat.not_lt.mp hc) hr rfl ho
    obtain ⟨t, et, honly, -, -, hpools⟩ := hafter.watched (congrArg State.watchPools (hfree.trans er)) hmoves.only hmoves.miss
    exact ⟨t, et, honly, fun h => absurd h hc, fun _ => (hpools p).trans (congrArg Pool.untimed hmoves.pool)⟩

variable (hs : h.shared = true) (ho : (s.seeMem v).OkayAt 0 ((s.pool p).countAddr handle.toNat) 4)
include hs ho

theorem exec_poolRelease_waits
    (hno : (s.seeMem v).NoSlot ((s.seeMem v).keyParty key (h.sampleOf key)) .fetchAdd ((s.pool p).countAddr handle.toNat) 4
      (BitVec.ofNat 32 0xFFFFFFFF) []) :
    exec (.poolRelease fn i stream handle v) s = .next (s.seeMem v) :=
  (exec_poolRelease hl hp hk (handle := handle) (v := v)).blocked ((State.watchPools_running _).trans
    (State.releaseBuffer_waits (s := (s.seeMem v).start) he hh hs rfl ho rfl (State.noSlot_start hno)))

/-- A release of a shared buffer takes one off its count; the last one frees it (R276). -/
theorem exec_poolRelease_shared {old : Nat} (hv : leNat (memReadBytes (s.seeMem v).mem ((s.pool p).countAddr handle.toNat) 4) = old)
    (h0 : 0 < old) (hslot : (s.seeMem v).HasSlot ((s.seeMem v).keyParty key (h.sampleOf key)) .fetchAdd ((s.pool p).countAddr handle.toNat) 4
      (BitVec.ofNat 32 0xFFFFFFFF) []) (hroom : old = 1 → (s.pool p).cache.length < 48) :
    ∃ t, exec (.poolRelease fn i stream handle v) s = .next t ∧
      t.mem = (s.seeMem v).counted ((s.pool p).countAddr handle.toNat) 0xFFFFFFFF ∧
      (old = 1 → (t.pool p).untimed = ((s.pool p).freed handle.toNat).untimed) ∧
      (1 < old → (t.pool p).untimed = ((s.pool p).left handle.toNat key).untimed) ∧ (s.seeMem v).SamePorts t ∧
      t = { s.seeMem v with mem := t.mem, ports := t.ports, pools := t.pools, tel := { s.tel with cnt := t.tel.cnt } } := by
  obtain ⟨r, er, honly, hsame, hmiss, hmem, hpool⟩ :=
    State.releaseBuffer_shared (s := (s.seeMem v).start) he hh hs rfl ho hv h0 (State.hasSlot_start hslot) hroom
  obtain ⟨t, et, hrest, htmem, hports, hpools⟩ :=
    (exec_poolRelease hl hp hk (handle := handle) (v := v)).watched (congrArg State.watchPools er) honly hmiss
  exact ⟨t, et, htmem.trans hmem, fun h1 => (hpools p).trans (congrArg Pool.untimed (hpool.trans (if_pos h1))),
    fun h1 => (hpools p).trans (congrArg Pool.untimed (hpool.trans (if_neg h1.ne'))), hsame.of_ports hports, hrest⟩

end

end Sys2Proof.Machine
end

section
/-! POOL_WATCHDOG_FIRE (R280, R281). -/

namespace Sys2Proof.Machine

/-! ## The watchdog times anew -/

/-- The time that a pool has been stalled so far is counted once it is not any more (R280, R547). -/
def State.countStall (q : Nat) (s : State) : State :=
  if (s.pool q).stalled && !s.poolStalled q then s.count 6 q 2 (s.now - (s.pool q).stallSince) else s

/-- One look at the watchdog of a pool (R280). -/
def State.lookAt (q : Nat) (s : State) : State := (s.countStall q).setPool q { s.pool q with
  stalled := s.poolStalled q,
  stallSince := if s.poolStalled q && (s.pool q).stalled then (s.pool q).stallSince else (s.countStall q).now }

theorem State.watchPools_eq (s : State) : s.watchPools = s.forEach (s.pools.map (·.1)) State.lookAt := rfl

theorem State.countStall_onPools (q : Nat) (s : State) : s.OnPools (s.countStall q) ∧ (s.countStall q).pools = s.pools := by
  unfold State.countStall
  split <;> exact ⟨rfl, rfl⟩

theorem State.countStall_now (q : Nat) (s : State) : (s.countStall q).now = s.now := by
  rw [(s.countStall_onPools q).1]
  rfl

theorem State.lookAt_now (q : Nat) (s : State) : (s.lookAt q).now = s.now := s.countStall_now q

theorem State.lookAt_stallSince {s : State} {p : Nat} (h : (s.pool p).stallSince = s.now) (q : Nat) :
    ((s.lookAt q).pool p).stallSince = s.now := by
  unfold State.lookAt
  by_cases e : p = q
  · subst e
    rw [State.setPool_pool_same, h, s.countStall_now, ite_self]
  · rw [State.setPool_pool_other _ _ _ _ e, State.pool, (s.countStall_onPools q).2]
    exact h

/-- A watchdog that is timed from now on stays so when the watchdogs are looked at. -/
theorem State.watchPools_stallSince {s : State} {p : Nat} (h : (s.pool p).stallSince = s.now) :
    (s.watchPools.pool p).stallSince = s.now := by
  have hlooks : (s.watchPools.pool p).stallSince = s.watchPools.now ∧ s.watchPools.now = s.now := by
    rw [s.watchPools_eq]
    exact List.foldlRecOn _ _ (motive := fun t : State => (t.pool p).stallSince = t.now ∧ t.now = s.now) ⟨h, rfl⟩ fun t ht q _ =>
      ⟨(State.lookAt_stallSince ht.1 q).trans (t.lookAt_now q).symm, (t.lookAt_now q).trans ht.2⟩
  exact hlooks.1.trans hlooks.2

/-! ## What a pre-emption leaves -/

/-- The pool whose holder is pre-empted (R281). -/
def State.preempted (p : Nat) (s : State) : State :=
  ((s.restartStall p).modPool p (fun y => { y with preempted := true })).count 6 p 3 1

theorem State.preempted_onPools (p : Nat) (s : State) : s.OnPools (s.preempted p) := rfl

theorem State.restartStall_pool (p : Nat) (s : State) : (s.restartStall p).pool p = { s.pool p with stallSince := s.now } :=
  State.setPool_pool_same ..

theorem State.preempted_pool (p : Nat) (s : State) : (s.preempted p).pool p = { s.pool p with stallSince := s.now, preempted := true } := by
  unfold State.preempted
  rw [State.modPool_eq, s.restartStall_pool]
  exact State.setPool_pool_same ..

theorem foldl_min_le {α : Type} (g : α → Nat) (l : List α) : ∀ n, l.foldl (fun n a => min n (g a)) n ≤ n := by
  induction l with
  | nil => exact fun n => Nat.le_refl n
  | cons a l ih => exact fun n => (ih _).trans (Nat.min_le_left ..)

theorem State.preempted_looked (p : Nat) (s : State) : s.OnPools (s.preempted p).watchPools :=
  (s.preempted_onPools p).trans (State.watchPools_onPools _)

/-- Outside OPEN mode no guarantee is voided by a pre-emption (R281). -/
theorem State.preempted_guaranteed {s c : State} (p : Nat) (g : Bool) (t : State) (h : Calm s c) (ho : s.frame.openMode = false) :
    (if (c.preempted p).watchPools.frame.openMode && g then t else (c.preempted p).watchPools) = (c.preempted p).watchPools := by
  refine if_neg ?_
  rw [c.preempted_looked p]
  dsimp only
  rw [h.openMode, ho]
  exact Bool.false_ne_true

/-- Outside OPEN mode a pre-emption ends with a look at the watchdogs; before it the stream has been rewound (R281). -/
theorem State.preempt_rewound {s : State} (p k : Nat) (ho : s.frame.openMode = false) :
    ∃ c, s.preempt p k = (c.preempted p).watchPools ∧ Calm s c ∧
      (c.stream (k / 1024) (k % 1024)).position ≤ (s.stream (k / 1024) (k % 1024)).position := by
  unfold State.preempt
  dsimp only
  refine ⟨_, State.preempted_guaranteed p _ _ ?_ ho, ?_, ?_⟩
  · exact ((State.releaseAll_calm ..).trans (State.setStream_calm ..)).trans (State.logTo_calm ..)
  · exact ((State.releaseAll_calm ..).trans (State.setStream_calm ..)).trans (State.logTo_calm ..)
  · rw [State.logTo_stream, State.setStream_stream_same]
    exact foldl_min_le _ _ _

/-- Outside OPEN mode a pre-emption sets PREEMPTED and times the watchdog anew, and its stream goes back (R281). -/
theorem State.preempt_leaves {s : State} (p k : Nat) (ho : s.frame.openMode = false) :
    ((s.preempt p k).pool p).preempted = true ∧ ((s.preempt p k).pool p).stallSince = s.now ∧
      ((s.preempt p k).stream (k / 1024) (k % 1024)).position ≤ (s.stream (k / 1024) (k % 1024)).position := by
  obtain ⟨c, e, hcalm, hpos⟩ := State.preempt_rewound p k ho
  have hpool := c.preempted_pool p
  have hnow : c.now = s.now := by rw [State.now, hcalm.pace]; rfl
  have hlook := (c.preempted p).watchPools_watches.pools p
  have hsince : (((c.preempted p).watchPools).pool p).stallSince = c.now :=
    State.watchPools_stallSince (s := c.preempted p) (congrArg Pool.stallSince hpool)
  rw [hpool] at hlook
  rw [e]
  refine ⟨(congrArg Pool.preempted hlook).trans rfl, hsince.trans hnow, ?_⟩
  rw [c.preempted_looked p]
  exact hpos

/-! ## The command -/

section
variable {p : BitVec 8} {v : MemView} {s : State}

theorem exec_poolWatchdogFire_idle (h : s.live = false ∨ (s.seeMem v).poolStalled p.toNat = false ∨
    s.now < (s.pool p.toNat).stallSince + s.stallNs) : exec (.poolWatchdogFire p v) s = .next (s.seeMem v) := by
  refine State.After.unchanged (f := id) ?_ rfl
  change State.After _ _ (execPoolWatchdogFire p v s)
  unfold execPoolWatchdogFire
  refine State.turn_after (if_pos ?_)
  simp only [Bool.or_eq_true, Bool.not_eq_true', decide_eq_true_eq]
  exact or_assoc.mpr h

variable (hl : s.live = true) (hs : (s.seeMem v).poolStalled p.toNat = true) (ht : (s.pool p.toNat).stallSince + s.stallNs ≤ s.now)
include hl hs ht

theorem exec_poolWatchdogFire_victim {k : Nat} (hv : (s.seeMem v).victim p.toNat = some k) :
    (s.seeMem v).After (State.preempt p.toNat k) (exec (.poolWatchdogFire p v) s) := by
  change State.After _ _ (execPoolWatchdogFire p v s)
  unfold execPoolWatchdogFire
  refine State.turn_after ((if_neg ?_).trans ?_)
  · simp only [Bool.or_eq_true, Bool.not_eq_true', decide_eq_true_eq]
    exact not_or.mpr ⟨not_or.mpr ⟨ne_false_of_eq_true hl, ne_false_of_eq_true hs⟩, ht.not_gt⟩
  · rw [show (s.seeMem v).start.victim p.toNat = some k from hv]

/-- Without a holder to pre-empt, the time that the pool is stalled starts anew, and a log entry tells of it (R281). -/
def State.stallTold (p : Nat) (s : State) : State :=
  (s.logTo (some (s.pool p).fn) stOk 4 4 (s.pool p).localNo 0xFE 0).restartStall p

theorem exec_poolWatchdogFire_none (hv : (s.seeMem v).victim p.toNat = none) :
    (s.seeMem v).After (State.stallTold p.toNat) (exec (.poolWatchdogFire p v) s) := by
  change State.After _ _ (execPoolWatchdogFire p v s)
  unfold execPoolWatchdogFire
  refine State.turn_after ((if_neg ?_).trans ?_)
  · simp only [Bool.or_eq_true, Bool.not_eq_true', decide_eq_true_eq]
    exact not_or.mpr ⟨not_or.mpr ⟨ne_false_of_eq_true hl, ne_false_of_eq_true hs⟩, ht.not_gt⟩
  · rw [show (s.seeMem v).start.victim p.toNat = none from hv]
    rfl

end

theorem State.stallTold_eq (p : Nat) (s : State) : s.stallTold p = { s with
    pools := (s.stallTold p).pools, funcs := (s.stallTold p).funcs, units := (s.stallTold p).units,
    tel := { s.tel with cnt := (s.stallTold p).tel.cnt } } := by
  have h := s.logTo_func_eq (s.pool p).fn stOk 4 4 (s.pool p).localNo 0xFE 0
  unfold State.stallTold State.restartStall
  dsimp only
  rw [h]
  rfl

theorem State.stallTold_pool (p : Nat) (s : State) : (s.stallTold p).pool p = { s.pool p with stallSince := s.now } := by
  have h := s.logTo_func_eq (s.pool p).fn stOk 4 4 (s.pool p).localNo 0xFE 0
  unfold State.stallTold
  rw [State.restartStall_pool, h]
  rfl

end Sys2Proof.Machine
end

section
/-! The statement of the buffers of a pool (R273 to R281). -/

namespace Sys2Proof.Machine

/-- Settles O51, a command at a time: an allocation by whether a handle is free and by whether others join its buffer, a release by
whether the buffer is shared, the cache by the groups of eight that go to the ring or come from it, the watchdog by its victim. -/
theorem poolBuffersComeAndGo : Obligations.PoolBuffersComeAndGo := by
  refine ⟨?_, ?_, ?_⟩
  · intro fn i s p hl hp f y he hf
    refine ⟨?_, ?_, exec_poolGrant_idle hp, ?_⟩
    · intro stream k x h0 h1
      refine ⟨fun h hs => exec_poolAllocate_granted hl hp he hf h0 h1, exec_poolAllocate_waits hl hp he hf h0 h1, ?_⟩
      intro handle others h a l hh asked hnew n addr old hmax ho hs hold
      exact exec_poolAllocate_joined hl hp he hf h0 h1 rfl hh hnew hmax rfl ho hs hold
    · exact fun w ws h hs hw hc hr hb => exec_poolGrant_first hl hp he hw hc hr hb
    · intro stream handle v h key u c hh
      refine ⟨fun hs hroom => ?_, ?_⟩
      · obtain ⟨t, et, honly, hfew, hspill⟩ := exec_poolRelease_unshared hl hp he rfl hh hs hroom
        refine ⟨t, et, honly, ?_⟩
        rcases Nat.lt_or_ge y.cache.length 48 with hc | hc
        · obtain ⟨hpool, hmem, hports⟩ := hfew hc
          obtain ⟨hcache, hholders, hwaits, -⟩ := Pool.same_of_untimed hpool
          exact ⟨hholders, hwaits, fun _ => ⟨hcache, hmem, hports⟩, fun h => absurd hc h.not_gt⟩
        · obtain ⟨hcache, hholders, hwaits, hring⟩ := Pool.same_of_untimed (hspill hc)
          exact ⟨hholders, hwaits, fun h => absurd h hc.not_gt, fun _ => ⟨hcache, hring⟩⟩
      · intro hs addr old by_ ho hroom
        refine ⟨exec_poolRelease_waits hl hp he rfl hh hs ho, fun hslot h0 => ?_⟩
        obtain ⟨t, et, hmem, hlast, hmore, hsame, honly⟩ := exec_poolRelease_shared hl hp he rfl hh hs ho rfl h0 hslot hroom
        refine ⟨t, et, hmem, fun h1 => ?_, fun h1 => ?_, hsame, honly⟩
        · obtain ⟨hcache, hholders, -, -⟩ := Pool.same_of_untimed (hlast h1)
          exact ⟨hcache, hholders⟩
        · obtain ⟨hcache, hholders, -, -⟩ := Pool.same_of_untimed (hmore h1)
          exact ⟨hcache, hholders⟩
  · intro p v s hl u n x at_ he
    refine ⟨exec_poolCacheRefill hl he, fun hc h32 ho hr => ?_, exec_poolCacheRefill_full, exec_poolCacheSpill hl he,
      fun hc hcan ho hr => ?_, exec_poolCacheSpill_few⟩
    · obtain ⟨t, et, hsame, honly, hpool⟩ := exec_poolCacheRefill_rest hl he hc h32 ho hr
      exact ⟨t, et, hsame, honly, hpool.trans (Pool.refills_succ ..)⟩
    · exact exec_poolCacheSpill_rest hl he hc hcan ho hr
  · intro p v s u n
    refine ⟨exec_poolWatchdogFire_idle, fun hl hs ht => ⟨fun k hv => ⟨exec_poolWatchdogFire_victim hl hs ht hv, ?_⟩, fun hv => ?_⟩⟩
    · exact State.preempt_leaves (s := u.start) n k
    · have hpool := u.start.stallTold_pool n
      have hend := u.start.stallTold_eq n
      refine ⟨_, (exec_poolWatchdogFire_none hl hs ht hv).done rfl (by rw [hend]; rfl), (congrArg Pool.stallSince hpool).trans rfl,
        (congrArg Pool.holders hpool).trans rfl, ?_⟩
      rw [hend]
      rfl

end Sys2Proof.Machine
end
